-- ==== Sys2Proof/Word.lean ====
section
/-!
DEFINITION. The words of the Orbedan 3240: bytes, time, frame numbers, tickets, and the comparisons of modular numbers.
-/
namespace Sys2Proof

/-- One byte, as XM, the links and the registers carry it. -/
abbrev Byte := BitVec 8

/-- A value of the time base: whole microseconds, 64 bits, wrapping (R178). -/
abbrev Time := BitVec 64

/-- A frame number: 16 bits, modular (00, Frame number order). -/
abbrev Frame := BitVec 16

/-- A ticket: 32 bits, modular (R150). -/
abbrev Ticket := BitVec 32

/-- By how much frame `a` is ahead of frame `b`, modulo 65536. -/
def Frame.ahead (a b : Frame) : Nat := (a - b).toNat

/-- `a` is newer than `b` (00, Frame number order). -/
def Frame.newer (a b : Frame) : Bool := 1 ≤ Frame.ahead a b && Frame.ahead a b ≤ 32767

/-- `a` is at most `n` newer than `b` (00, Frame number order). -/
def Frame.newerBy (n : Nat) (a b : Frame) : Bool := 1 ≤ Frame.ahead a b && Frame.ahead a b ≤ n

/-- Ticket `t` is at or below ticket `u` (R150). -/
def Ticket.atOrBelow (t u : Ticket) : Bool := (u - t).toNat < 2 ^ 31

/-- The time base at `now` has reached `expiry`, modulo 2^64 (log 4). -/
def Time.reached (now expiry : Time) : Bool := (now - expiry).toNat < 2 ^ 63

end Sys2Proof
end

