-- ==== Sys2Proof/Syntax.lean ====
section
/-!
DEFINITION. The commands and events of the part: one constructor per row of spec/opcode_table.json.
The table gives the rows no operands; those below are the model's (log 1): which link, stream, mirror link or
record the event is of, and the bits the outside brings.
-/
namespace Sys2Proof

/-- What has come about in a granule's cells since its last access (R173, log 6). -/
inductive CellError where
  | none
  | correctable
  | uncorrectable
  deriving DecidableEq, Repr

/-- The steps of the part (opcode_table.json, 95_what_each_step_holds). -/
inductive Instr where
  -- resets, run control
  | powerOn
  | fundamentalReset
  | hotReset
  | functionLevelReset
  | initialisationEnd
  | loadAnchor
  | anchorReadDone
  | start
  | stop
  | partReset
  | unknownCommand (value : BitVec 32)
  | attentionWrite (value : BitVec 32)
  | attentionMaskWrite (value : BitVec 32)
  | registerWriteOther (offset : Nat) (bytes : List Byte)
  -- Exchange Memory
  | hostXmRead (offset length : Nat)
  | hostXmWrite (offset : Nat) (bytes : List Byte)
  | granuleGrant (met : CellError)
  -- sensor links and admission
  | signalLoss (link : Fin 8)
  | sensorBlock (link : Fin 8) (sync : BitVec 2) (payload : BitVec 64)
  | packetAdmission (link : Fin 8)
  | asideWordReadDone
  | asideSlotWritten
  -- frame assembly, streams, frame clock
  | segmentPlacement (stream : Fin 16)
  | segmentOutcome (stream : Fin 16)
  | cutTimerExpiry (stream : Fin 16)
  | lockedExitReport (order : List (Fin 4))
  | paceReport
  | flywheelExpiry
  | misinsertReport
  | reframeRequest
  | reframeConfirmation
  | frameStartTake
  | deadlineExpiry (record : Fin 4)
  | engineIdleReport
  -- reconstruction engine and probe unit
  | frameTake
  | tileReadDone
  | tileMemoryError
  | taintReport
  | streamingEnd
  | probeRequest
  | frameCompletion (late : List (Fin 1024))
  | commitNotice
  | completionWithoutCommit
  -- command output
  | guardReport
  | integratorChange
  | safeShapeRequest
  | commandPacketComplete (link : Fin 4)
  | safePacketComplete (link : Fin 4)
  | trailerEnd (link : Fin 4)
  | mirrorSignalLoss (link : Fin 4)
  | mirrorBlock (link : Fin 4) (sync : BitVec 2) (payload : BitVec 64)
  | acceptTimeout (link : Fin 4)
  | interlockAssertion
  | interlockInputsReleased
  | interlockRelease
  | linksQuietReport
  | runControlIdleReport
  -- directive unit and directives
  | scanTimerExpiry
  | slotReadReturn
  | adoptEdition
  | amendGroups
  | repointTileSet
  | repointTileRemove
  | retireRange
  | setStream
  | setAsideFlag
  | enableStreams
  | disableStreams
  | setPace
  | loadSafeShape
  | resumeOutput
  | holdOutput
  | setProbeCycle
  | injectProbe
  | injectProbeCancel
  | resetIntegratorZero
  | resetIntegratorVector
  | clearStreamErrors
  | drain
  | setTelemetry
  -- ends of reads and reports
  | editionLoadReadDone
  | safeShapeReadDone
  | integratorVectorReadDone
  | injectPatternReadDone
  | probeCopyReadDone
  | ownerEndReport
  | slotReleaseReport
  | recordFreedReport
  | drainIdleReport
  | telemetryWrittenReport
  | outcomeWriteDone
  | writerItemEnd
  | signalPresent (link : Fin 8)
  | mirrorSignalPresent (link : Fin 4)
  | interlockReleaseInterrupted
  deriving DecidableEq, Repr

end Sys2Proof
end

