-- ==== Sys2Proof/Decode.lean ====
section
/-!
DEFINITION. The words of the opcode table: no row of spec/opcode_table.json gives bits, so no word spells a command.
-/
namespace Sys2Proof

/-- The command an opcode-table word spells: none, since no row has a pattern of bits. -/
def decodeTableWord (_nbits _w : Nat) : Option Instr := none

end Sys2Proof
end

