-- ==== Sys2Proof/Config.lean ====
section
/-!
DEFINITION. The constants of the part (00, Numbers), the values the manual leaves to the silicon, and the one that
depends on time; those values are free.
-/
namespace Sys2Proof.Config

/-- The silicon stepping in bits 16 to 23 of PART_ID (12.7): the manual gives no value (log 27). -/
opaque steppingByte : BitVec 8

/-- How far a mirror link's transmitter had got with a packet when it was cut off, by link and by the number of its cut-offs before:
it depends on time, which the model leaves out (log 39). -/
opaque blocksSent : Nat → Nat → Nat

/-- The seven bytes after the type byte of an IDLE block that a mirror link sends, by link and by the number of blocks on its line before: the
manual gives them no value (R180, log 53). -/
opaque idleFill : Nat → Nat → BitVec 56

/-- Bytes of Exchange Memory: 2 GiB (R172). -/
def xmBytes : Nat := 2147483648

/-- Bytes of one ECC granule (R173). -/
def granuleBytes : Nat := 32

/-- Bytes of one tile and of one Range Watch granule (R90). -/
def tileBytes : Nat := 32768

/-- Slope positions of the slope vector (00, Numbers). -/
def slopePositions : Nat := 16384

/-- Actuators of the part (00, Numbers). -/
def actuators : Nat := 1024

/-- The void code (R11). -/
def voidCode : Int := -32768

/-- The longest packet a link port accepts, in bytes (R6). -/
def packetLimit : Nat := 2032

/-- Consecutive good sync words that bring a port UP (R2). -/
def syncRun : Nat := 64

/-- Consecutive bad sync words that take a port DOWN (R3). -/
def badSyncLimit : Nat := 16

/-- How far ahead of the last dispatched frame a record may be opened (R56). -/
def openAhead : Nat := 8

/-- Entries of the Deferred List, the aside holding list and the telemetry holding list (R33, R158, R165). -/
def listRoom : Nat := 4

/-- Torn reads that end a ticket (R152). -/
def tornLimit : Nat := 8

/-- Microseconds both interlock inputs must read released (R132). -/
def releaseInterval : Nat := 100

/-- Tile grants in a row while another claimant waits (R174). -/
def tileGrantLimit : Nat := 32

/-- The longest parameter field of a directive, in bytes (R153). -/
def parameterLimit : Nat := 108

end Sys2Proof.Config
end

