-- ==== Sys2Proof/Machine/Store.lean ====
section
/-!
DEFINITION. Sparse stores in one canonical form (keys strictly rising, no entry equal to what an unlisted key reads as), the
fixed tables of like things, and the small list operations the blocks share (log 5).
-/
namespace Sys2Proof.Machine

/-- A store of values under Nat keys. -/
abbrev Store (α : Type) := List (Nat × α)

namespace Store

variable {α : Type}

/-- The entry at `k`, if one is listed. -/
def find? : Store α → Nat → Option α
  | [], _ => none
  | (k, v) :: m, a => if a = k then some v else find? m a

/-- The store with `v` at `a`. -/
def insert : Store α → Nat → α → Store α
  | [], a, v => [(a, v)]
  | (k, w) :: m, a, v =>
    if a < k then (a, v) :: (k, w) :: m
    else if a = k then (a, v) :: m
    else (k, w) :: insert m a v

/-- The store with nothing listed at `a`. -/
def erase : Store α → Nat → Store α
  | [], _ => []
  | (k, w) :: m, a => if a = k then erase m a else (k, w) :: erase m a

/-- What `a` reads as, where an unlisted key reads as `d`. -/
def read (d : α) (m : Store α) (a : Nat) : α := (find? m a).getD d

/-- The store after `v` is written at `a`: writing what an unlisted key reads as removes the entry. -/
def write [DecidableEq α] (d : α) (m : Store α) (a : Nat) (v : α) : Store α :=
  if v = d then erase m a else insert m a v

/-- The store after `vs` are written at `a`, `a + 1`, and so on. -/
def writeAll [DecidableEq α] (d : α) : Store α → Nat → List α → Store α
  | m, _, [] => m
  | m, a, v :: vs => writeAll d (write d m a v) (a + 1) vs

/-- The `n` values from `a` on. -/
def readAll (d : α) (m : Store α) (a n : Nat) : List α := (List.range n).map fun i => read d m (a + i)

/-- Keys strictly rise. -/
def rising : Store α → Bool
  | [] => true
  | [_] => true
  | (k, _) :: (k', v) :: m => decide (k < k') && rising ((k', v) :: m)

/-- The canonical form: keys strictly rise and no entry equals what an unlisted key reads as. -/
def wf [DecidableEq α] (d : α) (m : Store α) : Bool := rising m && m.all fun e => decide (e.2 ≠ d)

end Store

/-- A table with entry `i` changed by `f`. -/
def tweak {α : Type} {n : Nat} (v : Vector α n) (i : Fin n) (f : α → α) : Vector α n :=
  v.set i.val (f v[i]) i.isLt

/-- The first element that satisfies `p`, and the list without it. -/
def takeFirst {α : Type} (p : α → Bool) : List α → Option (α × List α)
  | [] => none
  | x :: xs => if p x then some (x, xs) else (takeFirst p xs).map fun r => (r.1, x :: r.2)

/-- A set of numbers kept as a rising list: `a` joins it. -/
def addToSet (a : Nat) : List Nat → List Nat
  | [] => [a]
  | x :: xs => if a < x then a :: x :: xs else if a = x then x :: xs else x :: addToSet a xs

/-- The n numbers of `Fin n`, rising. -/
def allFin (n : Nat) : List (Fin n) := List.finRange n

end Sys2Proof.Machine
end

