-- ==== Sys2Proof/Machine/State.lean ====
section
/-!
DEFINITION. The state of the part as plain data, block by block, and its value after power-on.
Docstrings name the rule that gives each piece; INVENTORY.md lists them all with their reset values.
-/
namespace Sys2Proof.Machine

/-- Why a step can stop. -/
inductive Fault where
  /-- Raised by HOST_XM_READ and HOST_XM_WRITE for an access that does not lie in the 2 GiB window (R172, log 35). Safe: the
  manual gives no such access. -/
  | outsideWindow
  deriving DecidableEq, Repr

/-- Why a command has no meaning. -/
inductive Refusal where
  /-- Raised by an arm of exec that has no meaning yet. Safe: nothing is claimed of it. -/
  | notModelled (mnemonic : String)
  deriving DecidableEq, Repr

/-! ### Exchange Memory and the arbiter (11) -/

/-- A granule's standing cell error (R173). -/
inductive EccMark where
  | corrected
  | uncorrectable
  deriving DecidableEq, Repr

/-- The claimants of the rotation, in its cyclic order (R174). -/
inductive Claimant where
  | du
  | rpu
  | sau
  | host
  deriving DecidableEq, Repr

/-- What a waiting access is for. -/
inductive Purpose where
  /-- DU read of the Anchor Record (R175). -/
  | anchor
  /-- DU read of the slot of the expected ticket (R151). -/
  | slot
  /-- DU read of an edition load (R82) or of an AMEND_GROUPS table (R86). -/
  | load
  /-- DU read of a safe shape, integrator vector or injection pattern (R117, R126, R137). -/
  | vector
  /-- Read of a SET_PROBE_CYCLE copy (R124). -/
  | copy
  /-- DU read whose data is discarded (R160). -/
  | stale
  /-- DU outcome write, and the tickets that settle when it is performed (R154, R155, R160). -/
  | outcome (settles : List Ticket)
  /-- SAU read of an aside slot's occupied word (R34). -/
  | asideWord
  /-- SAU write of an aside slot's fields and packet (R34). -/
  | asideBody
  /-- SAU write of the occupied word (R34). -/
  | asideSeal
  /-- RPU write (R163). -/
  | report
  /-- RPU write of a snapshot entry's serial, which seals the entry (R167). -/
  | snapshotSeal
  /-- Host window read; `last` marks the last granule of the access (R172). -/
  | hostRead (last : Bool)
  /-- Host window write (R172). -/
  | hostWrite
  deriving DecidableEq, Repr

/-- One granule access waiting at its claimant: bytes `lo` to `lo + len - 1` of the granule, read, or written with `data`. -/
structure Access where
  granule : Nat
  lo : Nat
  len : Nat
  data : Option (List Byte)
  purpose : Purpose
  deriving DecidableEq, Repr

/-- A read of consecutive bytes in progress: granules still to be granted, bytes returned so far, and the XM offset of the
first granule that failed. -/
structure ReadJob where
  purpose : Purpose
  left : Nat
  bytes : List Byte
  failed : Option Nat
  deriving DecidableEq, Repr

/-- The memory arbiter (R174). -/
structure Arbiter where
  du : List Access := []
  rpu : List Access := []
  sau : List Access := []
  host : List Access := []
  tileRun : Nat := 0
  pointer : Claimant := .du
  deriving DecidableEq, Repr

/-- What the host has been answered (R172, log 7): the bytes of a read in progress, and the replies, oldest first. -/
structure HostSide where
  partialRead : List Byte := []
  replies : List (List Byte) := []
  deriving DecidableEq, Repr

/-! ### Run control and the register page (11, 12.7) -/

/-- The run states (11.4). -/
inductive RunState where
  | halted
  | ready
  | running
  | draining
  deriving DecidableEq, Repr

/-- Last run refusal (11, table). -/
inductive RunRefusal where
  | none
  | wrongState
  | unknownCommand
  | anchorInvalid
  | notConfigured
  deriving DecidableEq, Repr

/-- The anchor settings (R175, 12.5). -/
structure Anchor where
  stripOffset : Nat
  slots : Nat
  firstTicket : Ticket
  interval : Nat
  telemetryOffset : Nat
  telemetryCount : Nat
  snapshotOffset : Nat
  snapshotCount : Nat
  streamReport : Nat
  statusBlock : Nat
  asideOffset : Nat
  asideCount : Nat
  deriving DecidableEq, Repr

/-- Run control (11). -/
structure Run where
  state : RunState := .halted
  initialising : Bool := false
  busy : Bool := false
  refusal : RunRefusal := .none
  anchor : Option Anchor := none
  deriving DecidableEq, Repr

/-- The fourteen attention causes, in the order of their bits (12.7). -/
inductive Cause where
  | settled
  | linkDown
  | streamCut
  | paceLost
  | reframe
  | frameOverrun
  | counterWrap
  | asideArrival
  | asideOverrun
  | liveWrite
  | memoryError
  | held
  | driverFault
  | runChange
  deriving DecidableEq, Repr

/-- ATTENTION, ATTENTION_MASK and the MSI (R170, R171, log 7). -/
structure Page where
  attention : BitVec 14 := 0
  mask : BitVec 14 := 0
  msiEnabled : Bool := true
  msiSent : Nat := 0
  deriving DecidableEq, Repr

/-! ### Sensor links (01) and the line side of a receiver -/

/-- Link state (R1). -/
inductive LinkState where
  | down
  | up
  deriving DecidableEq, Repr

/-- Reception state (R4). -/
inductive Reception where
  | between
  | inPacket
  | discarding
  deriving DecidableEq, Repr

/-- A receiver of blocks: a sensor link port's line side (R1 to R6) or a mirror link receiver (R145). -/
structure Receiver where
  link : LinkState := .down
  reception : Reception := .discarding
  packet : List Byte := []
  badSync : Nat := 0
  goodRun : Nat := 0
  boundary : Fin 66 := 0
  signal : Bool := false
  deriving DecidableEq, Repr

/-- A sensor link port: its receiver, its four latched counts and the time of its last change of link state (R15, R16). -/
structure Port where
  rx : Receiver := {}
  crcErrors : BitVec 16 := 0
  codingErrors : BitVec 16 := 0
  oversize : BitVec 16 := 0
  foreign : BitVec 16 := 0
  changed : Time := 0
  deriving DecidableEq, Repr

/-- The header fields and slopes of a well-shaped slope segment (R9, R14); its slope count is the length of `slopes`. -/
structure Segment where
  tag : Nat
  frame : Frame
  index : Nat
  count : Nat
  first : Nat
  invalid : Bool
  slopes : List Int
  deriving DecidableEq, Repr

/-- How a port classifies a good packet (R8, R10). -/
inductive PacketClass where
  | segment (s : Segment)
  | shapeFault (tag : Nat)
  | nonSegment
  deriving DecidableEq, Repr

/-- A packet a port has handed on (R14). -/
structure Arrival where
  link : Fin 8
  time : Time
  bytes : List Byte
  kind : PacketClass
  deriving DecidableEq, Repr

/-! ### Streams (02) -/

/-- Stream states (02, 2.3). -/
inductive StreamState where
  | disabled
  | standby
  | seeking
  | locked
  | cut
  deriving DecidableEq, Repr

/-- What the engine reads for a void position (02, 2.1). -/
inductive Substitution where
  | zero
  | last
  deriving DecidableEq, Repr

/-- The fields SET_STREAM writes (02, 2.1). -/
structure StreamConfig where
  tag : Nat := 0
  link : Nat := 0
  base : Nat := 0
  count : Nat := 0
  segments : Nat := 0
  substitution : Substitution := .zero
  mandatory : Bool := false
  allowance : Nat := 0
  cutTimeout : Nat := 0
  deriving DecidableEq, Repr

/-- The eleven stream counters, in the order of the Stream Report (02 2.7, 12.6). -/
inductive Counter where
  | received
  | placed
  | duplicate
  | late
  | misinserted
  | malformed
  | seekingDiscards
  | misrouted
  | idleDiscards
  | voidFrames
  | cutEvents
  deriving DecidableEq, Repr

/-- A Stream Table entry with its state, timer and counters (02). `awaiting`: its second misinsert has been reported to the Frame
Clock and the confirmation has not come (R27, log 23). `stay`: how many states it has left, the model's own field, by which a segment's
outcome finds whether the stream has left the state it was handed over in (R25, R26). -/
structure Stream where
  enabled : Bool := false
  config : StreamConfig := {}
  state : StreamState := .disabled
  misinserts : Nat := 0
  awaiting : Bool := false
  timer : Option Time := none
  counters : Vector (BitVec 16) 11 := .replicate 11 0
  changed : Time := 0
  stay : Nat := 0
  deriving DecidableEq, Repr

/-- A packet of the aside holding list (R33). -/
structure AsidePacket where
  link : Fin 8
  time : Time
  bytes : List Byte
  deriving DecidableEq, Repr

/-- How far the write of the aside packet at the head of the list has got (R34). -/
inductive AsideStep where
  | idle
  | reading
  | writing
  deriving DecidableEq, Repr

/-- The Stream Admission Unit (02). -/
structure Sau where
  streams : Vector Stream 16 := .replicate 16 {}
  asideFlags : Vector Bool 8 := .replicate 8 false
  lastWrapped : Fin 16 := 0
  nextSlot : Nat := 0
  holding : List AsidePacket := []
  step : AsideStep := .idle
  overruns : BitVec 32 := 0
  deriving DecidableEq, Repr

/-- A segment handed to Frame Assembly (R25): the state its stream was in with that stay in it, and none for a shape fault. -/
structure Handed where
  stream : Fin 16
  fromLocked : Bool
  stay : Nat
  segment : Option Segment
  deriving DecidableEq, Repr

/-- The five outcomes of a placement (04, 4.2). -/
inductive Judgement where
  | placed
  | duplicate
  | late
  | misinserted
  | malformed
  deriving DecidableEq, Repr

/-- An outcome on its way back to the SAU (R26, R59). -/
structure Returned where
  stream : Fin 16
  fromLocked : Bool
  stay : Nat
  judgement : Judgement
  frame : Frame
  deriving DecidableEq, Repr

/-! ### Frame Clock (03) -/

/-- Pace states (03, 3.3). -/
inductive PaceState where
  | paced
  | coasting
  deriving DecidableEq, Repr

/-- The Frame Clock (03, table). -/
structure Fck where
  stream : Fin 16 := 0
  period : Nat := 0
  margin : Nat := 0
  deadline : Nat := 0
  configured : Bool := false
  pace : PaceState := .paced
  lastStarted : Option Frame := none
  flywheel : Option Time := none
  reframing : Bool := false
  reframes : BitVec 32 := 0
  deriving DecidableEq, Repr

/-- A frame start event (R40). -/
structure FrameStart where
  frame : Frame
  time : Time
  deadline : Nat
  deriving DecidableEq, Repr

/-! ### Frame Assembly (04) -/

/-- States of a Frame Table record (R51). -/
inductive RecordState where
  | free
  | opened
  | closed
  | dispatched
  deriving DecidableEq, Repr

/-- Close causes (R51). -/
inductive CloseCause where
  | complete
  | deadline
  deriving DecidableEq, Repr

/-- One stream's entry of a record's stream map (R64). -/
structure MapEntry where
  base : Nat
  count : Nat
  substitution : Substitution
  mandatory : Bool
  allowance : Nat
  locked : Bool
  deriving DecidableEq, Repr

/-- A Frame Table record (R51). A FREE record has no fields: it is the blank record. -/
structure Record where
  state : RecordState := .free
  frame : Frame := 0
  started : Option Time := none
  deadline : Option Time := none
  received : Vector (List Nat) 16 := .replicate 16 []
  slopes : Store Int := []
  cause : Option CloseCause := none
  closeTime : Option Time := none
  streamMap : Vector (Option MapEntry) 16 := .replicate 16 none
  voidCounts : Vector Nat 16 := .replicate 16 0
  void : Bool := false
  deriving DecidableEq, Repr

/-- The Frame Assembly Unit (04). -/
structure Fau where
  records : Vector Record 4 := .replicate 4 {}
  lastDispatched : Option Frame := none
  base : Option Frame := none
  lastGood : Store Int := []
  dispatched : BitVec 32 := 0
  skipped : BitVec 32 := 0
  abandoned : BitVec 32 := 0
  overrun : BitVec 32 := 0
  voided : BitVec 32 := 0
  deriving DecidableEq, Repr

/-- What a dispatch hands to the engine (R68). -/
structure Handover where
  record : Fin 4
  frame : Frame
  started : Time
  closed : Time
  cause : CloseCause
  void : Bool
  voidCounts : Vector Nat 16
  deriving DecidableEq, Repr

/-! ### Editions (05) and the engine (06) -/

/-- The two Edition Slots. -/
inductive SlotId where
  | a
  | b
  deriving DecidableEq, Repr

/-- A tile descriptor under its key (R76). -/
structure Descriptor where
  address : Nat
  exponent : Int
  taint : Bool
  deriving DecidableEq, Repr

/-- A row of the group table (05, 5.1). -/
structure GroupRow where
  gain : Int := 0
  leak : Nat := 0
  low : Int := 0
  high : Int := 0
  slew : Nat := 0
  deriving DecidableEq, Repr

/-- An output map entry (05, 5.1). -/
structure OutEntry where
  first : Nat := 0
  count : Nat := 0
  deriving DecidableEq, Repr

/-- Guard settings of an edition (05, 5.1). -/
structure GuardSettings where
  saturationLimit : Nat := 0
  saturationFrames : Nat := 0
  voidFrames : Nat := 0
  deriving DecidableEq, Repr

/-- Output map and accept settings: an edition's, or the link settings in force (08). -/
structure LinkSettings where
  map : Vector OutEntry 4 := .replicate 4 {}
  timeout : Nat := 0
  missLimit : Nat := 0
  deriving DecidableEq, Repr

/-- The contents of an Edition Slot (R75, R76). The directory is keyed by 64 * column block + row block, so that its order is
the engine's reading order (R100). -/
structure Edition where
  number : BitVec 32 := 0
  slopeCount : Nat := 0
  actuatorCount : Nat := 0
  directory : Store Descriptor := []
  reference : List Int := []
  groupMap : List Nat := []
  groups : Vector GroupRow 16 := .replicate 16 {}
  links : LinkSettings := {}
  guards : GuardSettings := {}
  deriving DecidableEq, Repr

/-- An Edition Slot (05, 5.3). -/
inductive Slot where
  | empty
  | loading (e : Edition)
  | current (e : Edition)
  | retained (e : Edition)
  deriving DecidableEq, Repr

/-- Where the reads of a load have got to (R82, R86). -/
inductive LoadPhase where
  | record
  | tile (index : Nat)
  | reference
  | groupMap
  | groupTable
  deriving DecidableEq, Repr

/-- The load in progress: its slot, its phase, and the addresses the record gave. -/
structure Load where
  slot : SlotId
  phase : LoadPhase
  tileList : Nat := 0
  tileCount : Nat := 0
  referenceAt : Nat := 0
  groupMapAt : Nat := 0
  deriving DecidableEq, Repr

/-- Which slots reference a Range Watch granule (R90). -/
structure Watched where
  inA : Bool
  inB : Bool
  deriving DecidableEq, Repr

/-- Engine states (06, 6.1). -/
inductive EngineState where
  | idle
  | streaming
  | concluding
  deriving DecidableEq, Repr

/-- Probe sources (R122). -/
inductive ProbeSource where
  | none
  | cycle (entry : Nat)
  | injection
  deriving DecidableEq, Repr

/-- One actuator's part of the candidate and output vectors: no candidate for a void actuator (R107, R108, R110). -/
structure ActuatorResult where
  candidate : Option Int
  output : Int
  clampedCandidate : Bool
  clampedOutput : Bool
  deriving DecidableEq, Repr

/-- A change of the Integrator Store: consecutive actuators take the values (R117, R119). -/
structure StoreChange where
  first : Nat
  values : List Int
  deriving DecidableEq, Repr

/-- The frame context (06, 6.1); its slot in use is the one that carries the in-use mark. `plan` lists the keys whose reads are not all granted, `cursor` the next granule of the
first of them; accumulators are in units of 2^-39 (R102); increments are absent for void actuators. -/
structure FrameContext where
  handed : Handover
  voidBlocks : List Nat := []
  plan : List Nat := []
  cursor : Nat := 0
  accumulators : Store Int := []
  residual : List Int := []
  memoryErrors : Nat := 0
  increments : List (Option Int) := []
  probe : Option (List Int) := none
  source : ProbeSource := .none
  results : List ActuatorResult := []
  changes : List StoreChange := []
  deriving DecidableEq, Repr

/-- The Reconstruction Engine with its Edition Slots (05, 06). -/
structure Rce where
  slotA : Slot := .empty
  slotB : Slot := .empty
  load : Option Load := none
  inUse : Option SlotId := none
  state : EngineState := .idle
  frame : Option FrameContext := none
  integrator : Store Int := []
  tileErrors : BitVec 32 := 0
  deriving DecidableEq, Repr

/-- The data of a granted tile read on its way to the engine: none for an uncorrectable error (R102, R104). -/
structure TileReturn where
  key : Nat
  granule : Nat
  data : Option (List Byte)
  deriving DecidableEq, Repr

/-- A Range Watch report to the engine (R105). -/
structure TaintReport where
  slot : SlotId
  key : Nat
  deriving DecidableEq, Repr

/-! ### Probe Unit (07) -/

/-- A Probe Cycle entry (07, 7.1). -/
structure CycleEntry where
  pattern : List Int
  amplitude : Int
  frames : Nat
  deriving DecidableEq, Repr

/-- The active injection (07, 7.1); its pattern length is the length of `pattern`. -/
structure Injection where
  pattern : List Int
  amplitude : Int
  left : Nat
  deriving DecidableEq, Repr

/-- A SET_PROBE_CYCLE that has passed its checks (R123). -/
structure CopyRequest where
  ticket : Ticket
  table : Nat
  entries : Nat
  length : Nat
  deriving DecidableEq, Repr

/-- The copy in progress: entries copied, and the table entry whose pattern is being read (R124). -/
structure Staging where
  request : CopyRequest
  copied : List CycleEntry := []
  entry : Option (Int × Nat) := none
  deriving DecidableEq, Repr

/-- The supply record (07, 7.1). -/
structure Supply where
  source : ProbeSource
  inForce : Bool
  deriving DecidableEq, Repr

/-- The Probe Unit (07). `waiting` holds the SET_PROBE_CYCLE directives in ticket order, the one being copied first. -/
structure Pru where
  cycle : List CycleEntry := []
  length : Option Nat := none
  position : Option (Nat × Nat) := none
  injection : Option Injection := none
  staging : Option Staging := none
  waiting : List CopyRequest := []
  supply : Option Supply := none
  job : Option ReadJob := none
  deriving DecidableEq, Repr

/-! ### Command Output Unit (08) -/

/-- Output states (08, 8.1). -/
inductive OutputState where
  | quiet
  | live
  | held
  deriving DecidableEq, Repr

/-- The hold cause set (08, 8.1), one flag per cause. -/
structure HoldCauses where
  interlock : Bool := false
  guardSaturation : Bool := false
  guardVoid : Bool := false
  driver : Bool := false
  directive : Bool := false
  deriving DecidableEq, Repr

/-- Interlock level, and the level of the input pair. -/
inductive InterlockLevel where
  | asserted
  | released
  deriving DecidableEq, Repr

/-- Hold actions (R134). -/
inductive HoldAction where
  | freeze
  | safe
  deriving DecidableEq, Repr

/-- Kinds of mirror packet that are answered by a token (08, 8.6). -/
inductive PacketKind where
  | command
  | safe
  deriving DecidableEq, Repr

/-- A packet for a mirror link (12.2): its number is a frame number or a safe serial. -/
structure Packet where
  kind : PacketKind
  number : BitVec 16
  first : Nat
  values : List Int
  deriving DecidableEq, Repr

/-- A transmitter (R143, R180). -/
inductive Transmitter where
  | idle
  | sending (p : Packet)
  | trailer
  deriving DecidableEq, Repr

/-- An acceptance window (R144). -/
inductive Window where
  | idle
  | awaiting (kind : PacketKind) (number : BitVec 16) (expiry : Time)
  deriving DecidableEq, Repr

/-- The counts of a mirror link, in the order of the Part Status Block (R148, 12.6). -/
structure LinkCounts where
  commands : BitVec 32 := 0
  safes : BitVec 32 := 0
  aborted : BitVec 32 := 0
  dropped : BitVec 32 := 0
  accepted : BitVec 32 := 0
  misses : BitVec 32 := 0
  timeouts : BitVec 32 := 0
  rejections : BitVec 32 := 0
  supersedes : BitVec 32 := 0
  stray : BitVec 32 := 0
  bad : BitVec 32 := 0
  deriving DecidableEq, Repr

/-- A 66-bit block: its sync word and payload (12.2). -/
abbrev Block := BitVec 2 × BitVec 64

/-- A mirror link (08, 8.6). `line` is what its transmitter has sent, oldest first, a run of IDLE blocks written once (R180, log 29);
`cuts` counts the packets cut off, and picks the free value of each (log 39). -/
structure MirrorLink where
  tx : Transmitter := .idle
  waitingSafe : Option Packet := none
  waitingCommand : Option Packet := none
  window : Window := .idle
  consecutive : Nat := 0
  counts : LinkCounts := {}
  rx : Receiver := {}
  line : List Block := []
  cuts : Nat := 0
  deriving DecidableEq, Repr

/-- The Command Output Unit (08). -/
structure Cou where
  output : OutputState := .quiet
  causes : HoldCauses := {}
  level : InterlockLevel := .asserted
  input : InterlockLevel := .asserted
  release : Option Time := none
  safeShape : Store Int := []
  shapeLoaded : Bool := false
  action : HoldAction := .freeze
  autoResume : Bool := false
  safeSerial : BitVec 16 := 0
  settings : Option LinkSettings := none
  saturationRun : Nat := 0
  voidRun : Nat := 0
  lastEmitted : Store Int := []
  links : Vector MirrorLink 4 := .replicate 4 {}
  deriving DecidableEq, Repr

/-- The engine's guard report (R112 step 6). -/
structure GuardReport where
  saturated : Nat
  void : Bool
  settings : GuardSettings
  deriving DecidableEq, Repr

/-! ### Directive Unit (09) -/

/-- Activities (09, 9.1). -/
inductive Activity where
  | resting
  | reading
  | executing
  | waiting
  deriving DecidableEq, Repr

/-- Where the directive in hand stands: passed to its owner and not yet carried out (log 10), its owner working (R156), or
WAITING for a free Edition Slot or for room in the Deferred List (R157). -/
inductive HandPhase where
  | taken
  | working
  | needsSlot
  | needsRoom
  deriving DecidableEq, Repr

/-- The directive in hand (09, 9.1): `params` are slot bytes 16 to 123. -/
structure Hand where
  ticket : Ticket
  kind : Nat
  length : Nat
  params : List Byte
  phase : HandPhase
  deriving DecidableEq, Repr

/-- How far a pending DRAIN has got (R159): the records it waits on, the engine's IDLE, the writing of the noted completion. `missed`:
the engine's IDLE report was taken when only reports of freed records on their way kept the set from being empty, so that the next
IDLE report is waited for (log 26). -/
inductive DrainStage where
  | records (set : List Nat) (missed : Bool)
  | idle
  | written (noted : Option Nat)
  deriving DecidableEq, Repr

/-- The kind's own fields of a Deferred List entry (R158): a RETIRE_RANGE's first and last granule. -/
inductive DeferredWork where
  | retire (first last : Nat)
  | probeCycle
  | drain (stage : DrainStage)
  deriving DecidableEq, Repr

/-- A Deferred List entry (R158). -/
structure Deferred where
  ticket : Ticket
  work : DeferredWork
  deriving DecidableEq, Repr

/-- An owner's report of an end (R158). -/
structure OwnerEnd where
  ticket : Ticket
  code : Nat
  detail : BitVec 32
  deriving DecidableEq, Repr

/-- The Directive Unit (09, R149). `unsettled` holds the tickets taken whose final outcome is not written, oldest first. -/
structure Du where
  expected : Option Ticket := none
  takenThrough : Option Ticket := none
  settledThrough : Option Ticket := none
  scanTimer : Option Time := none
  activity : Activity := .resting
  torn : Nat := 0
  tornMemory : Nat := 0
  hand : Option Hand := none
  job : Option ReadJob := none
  deferred : List Deferred := []
  unsettled : List Ticket := []
  deriving DecidableEq, Repr

/-! ### Report Unit (10) -/

/-- Results of a frame (R112). -/
inductive FrameResult where
  | committed
  | heldOpenLoop
  | void
  deriving DecidableEq, Repr

/-- A telemetry set (R112 step 5); `number` is its place in the order of handover. -/
structure TelemetrySet where
  number : Nat
  handed : Handover
  edition : BitVec 32
  slopeCount : Nat
  actuatorCount : Nat
  completed : Time
  result : FrameResult
  output : OutputState
  causes : HoldCauses
  saturated : Nat
  voidActuators : Nat
  memoryErrors : Nat
  source : ProbeSource
  residual : Option (List Int)
  outputs : List Int
  deriving DecidableEq, Repr

/-- The writer's item (R163); that of a telemetry set is its snapshot entry until the entry is sealed, and its record from then on (R166,
R167). -/
inductive Writer where
  | idle
  | snapshot
  | telemetry
  | streamReport
  | status
  deriving DecidableEq, Repr

/-- The Report Unit (10, 10.1). -/
structure Rpu where
  statusCount : BitVec 32 := 0
  streamCount : BitVec 32 := 0
  serial : BitVec 32 := 0
  dropped : BitVec 32 := 0
  decimation : BitVec 16 := 0
  decimationCounter : Nat := 0
  nextSnapshot : Nat := 0
  holding : List TelemetrySet := []
  statusOwed : Bool := false
  streamOwed : Bool := false
  writer : Writer := .idle
  handed : Nat := 0
  deriving DecidableEq, Repr

/-! ### What one block has sent and another has not yet taken -/

/-- The read of an aside occupied word (R34). -/
inductive WordRead where
  | clear
  | set
  | failed
  deriving DecidableEq, Repr

/-- Messages between the blocks, oldest first (log 1). -/
structure Wires where
  /-- Ports to SAU (R14). -/
  arrivals : List Arrival := []
  /-- SAU to FAU (R25). -/
  handed : List Handed := []
  /-- FAU to SAU (R59). -/
  returned : List Returned := []
  /-- SAU to FAU: streams that left LOCKED (R63). -/
  lockedExits : List (Fin 16) := []
  /-- SAU to FCK (R41). -/
  paceReports : List Frame := []
  /-- SAU to FCK (R48). -/
  misinserts : List (Fin 16) := []
  /-- FCK to FAU (R48). -/
  reframeRequest : Bool := false
  /-- FAU to FCK (R71). -/
  reframeConfirmed : Bool := false
  /-- FCK to FAU (R40). -/
  frameStarts : List FrameStart := []
  /-- FAU to RCE (R68). -/
  handover : Option Handover := none
  /-- RCE's IDLE report to FAU, run control and DU (R113). -/
  idleToFau : Bool := false
  idleToRun : Bool := false
  idleToDu : Bool := false
  /-- XMA to RCE (R102, R104). -/
  tileReturns : List TileReturn := []
  /-- RW to RCE (R105). -/
  taints : List TaintReport := []
  /-- RCE to PRU: true for a commit notice (R112 step 4). -/
  probeNotices : List Bool := []
  /-- RCE to COU (R112 step 6). -/
  guardReports : List GuardReport := []
  /-- DU to RCE (R117). -/
  integratorChanges : List StoreChange := []
  /-- COU to RCE (R119). -/
  safeRequests : List StoreChange := []
  /-- COU to run control (R131). -/
  linksQuiet : Bool := false
  /-- RCE to DU (R95, R113). -/
  slotRelease : Bool := false
  /-- FAU to DU (R74). -/
  recordsFreed : List (Fin 4) := []
  /-- RPU to DU: places in the order of handover (R159). -/
  telemetryWritten : List Nat := []
  /-- PRU to DU (R158). -/
  ownerEnds : List OwnerEnd := []
  /-- XMA to DU: the tickets a performed outcome write settles (R155). -/
  outcomesWritten : List (List Ticket) := []
  /-- XMA to SAU (R34). -/
  asideWord : Option WordRead := none
  asideSealed : Bool := false
  deriving DecidableEq, Repr

/-- The part, and the queue of commands that are waiting. -/
structure State where
  xm : List Host.Cell
  ecc : Store EccMark
  corrected : BitVec 32
  arb : Arbiter
  host : HostSide
  run : Run
  page : Page
  time : Time
  ports : Vector Port 8
  sau : Sau
  fck : Fck
  fau : Fau
  rce : Rce
  watch : Store Watched
  pru : Pru
  cou : Cou
  du : Du
  rpu : Rpu
  wires : Wires
  pending : List Instr
  deriving DecidableEq, Repr

/-- The part right after power-on: every block at its Full Reset values, initialisation clearing XM (R172, R178). -/
def State.reset : State where
  xm := []
  ecc := []
  corrected := 0
  arb := {}
  host := {}
  run := { initialising := true }
  page := {}
  time := 0
  ports := .replicate 8 {}
  sau := {}
  fck := {}
  fau := {}
  rce := {}
  watch := []
  pru := {}
  cou := {}
  du := {}
  rpu := {}
  wires := {}
  pending := []

end Sys2Proof.Machine
end

