-- ==== Sys2Proof/Machine/Flags.lean ====
section
/-!
DEFINITION. Attention causes and hold causes: their bits, raising, and the MSI (R170, R171, 12.3, 12.7).
-/
namespace Sys2Proof.Machine

/-- The bit of a cause in ATTENTION and ATTENTION_MASK (12.7). -/
def Cause.bit : Cause → Nat
  | .settled => 0
  | .linkDown => 1
  | .streamCut => 2
  | .paceLost => 3
  | .reframe => 4
  | .frameOverrun => 5
  | .counterWrap => 6
  | .asideArrival => 7
  | .asideOverrun => 8
  | .liveWrite => 9
  | .memoryError => 10
  | .held => 11
  | .driverFault => 12
  | .runChange => 13

/-- The flag of a cause. -/
def Cause.flag (c : Cause) : BitVec 14 := 1#14 <<< c.bit

/-- Whether a cause's flag is set in ATTENTION. -/
def attentionHas (c : Cause) (s : State) : Bool := s.page.attention.getLsbD c.bit

/-- Raising a cause sets its flag, whatever its mask (R170). -/
def raise (c : Cause) (s : State) : State :=
  { s with page := { s.page with attention := s.page.attention ||| c.flag } }

/-- Raising a cause when a condition holds. -/
def raiseIf (b : Bool) (c : Cause) (s : State) : State := if b then raise c s else s

/-- The message of R171: one when some flag went from clear to set while its mask flag is set and MSI is enabled. -/
def sendMsi (before after : State) : State :=
  if after.page.msiEnabled && (after.page.attention &&& ~~~before.page.attention &&& after.page.mask) != 0 then
    { after with page := { after.page with msiSent := after.page.msiSent + 1 } }
  else after

/-- The hold cause set is not empty. -/
def HoldCauses.any (c : HoldCauses) : Bool :=
  c.interlock || c.guardSaturation || c.guardVoid || c.driver || c.directive

/-- The hold cause set as a byte (12.3). -/
def HoldCauses.byte (c : HoldCauses) : Nat :=
  c.interlock.toNat + 2 * c.guardSaturation.toNat + 4 * c.guardVoid.toNat + 8 * c.driver.toNat + 16 * c.directive.toNat

/-- The five hold causes (08, 8.1). -/
inductive HoldCause where
  | interlock
  | guardSaturation
  | guardVoid
  | driver
  | directive
  deriving DecidableEq, Repr

/-- The set with a cause added. -/
def HoldCauses.add (c : HoldCauses) : HoldCause → HoldCauses
  | .interlock => { c with interlock := true }
  | .guardSaturation => { c with guardSaturation := true }
  | .guardVoid => { c with guardVoid := true }
  | .driver => { c with driver := true }
  | .directive => { c with directive := true }

end Sys2Proof.Machine
end

