-- ==== Sys2Proof/Machine/Operands.lean ====
section
/-!
DEFINITION. Bytes and fields (12): little-endian fields, the CRC-32, link packets, the Anchor Record, the parts of an edition,
mirror packets and tokens; and the arithmetic of 00 and 06: saturation, clamping, rounding.
-/
namespace Sys2Proof.Machine

/-! ### Little-endian fields (R179) -/

/-- The number a little-endian list of bytes holds. -/
def leNat : List Byte → Nat
  | [] => 0
  | b :: bs => b.toNat + 256 * leNat bs

/-- The low `n` bytes of a number, little-endian. -/
def leBytes : Nat → Nat → List Byte
  | 0, _ => []
  | n + 1, v => BitVec.ofNat 8 v :: leBytes n (v / 256)

/-- The `n`-byte field at an offset. -/
def field (bs : List Byte) (offset n : Nat) : Nat := leNat ((bs.drop offset).take n)

/-- A two's complement value of `bits` bits. -/
def signed (bits v : Nat) : Int := if v < 2 ^ (bits - 1) then (v : Int) else (v : Int) - 2 ^ bits

/-- The signed 16-bit field at an offset. -/
def field16 (bs : List Byte) (offset : Nat) : Int := signed 16 (field bs offset 2)

/-- The two bytes of a signed 16-bit value. -/
def int16Bytes (v : Int) : List Byte := leBytes 2 (v % 65536).toNat

/-- The first `n` signed 16-bit values of an array (12.4). -/
def int16s : Nat → List Byte → List Int
  | 0, _ => []
  | n + 1, bs => signed 16 (leNat (bs.take 2)) :: int16s n (bs.drop 2)

/-- `n` bytes of zero. -/
def zeros (n : Nat) : List Byte := List.replicate n 0

/-- The bytes of a field range are all zero. -/
def zeroField (bs : List Byte) (offset n : Nat) : Bool := ((bs.drop offset).take n).all (· == 0)

/-! ### The check code (R179) -/

/-- One bit into the CRC register: generator 0x04C11DB7. -/
def crcBit (reg : BitVec 32) (b : Bool) : BitVec 32 :=
  if reg.msb != b then (reg <<< 1) ^^^ 0x04C11DB7#32 else reg <<< 1

/-- One byte into the CRC register, least significant bit first. -/
def crcByte (reg : BitVec 32) (b : Byte) : BitVec 32 :=
  (List.range 8).foldl (fun r i => crcBit r (b.getLsbD i)) reg

/-- The CRC register after the bytes. The match on its number changes nothing (Laws: crcOver_eq_foldl); it keeps the value
evaluated from byte to byte. -/
def crcOver : List Byte → BitVec 32 → BitVec 32
  | [], reg => reg
  | b :: bs, reg =>
    match (crcByte reg b).toNat with
    | 0 => crcOver bs 0
    | n + 1 => crcOver bs (BitVec.ofNat 32 (n + 1))

/-- The CRC-32: the register starts at all ones and is bit-reversed and inverted at the end. -/
def crc32 (bs : List Byte) : BitVec 32 := ~~~((crcOver bs (BitVec.allOnes 32)).reverse)

/-- Bytes followed by their check code. -/
def sealed (bs : List Byte) : List Byte := bs ++ leBytes 4 (crc32 bs).toNat

/-- The last four bytes are the check code of the bytes before them (R7). -/
def goodCheckCode (bs : List Byte) : Bool :=
  4 ≤ bs.length && leNat (bs.drop (bs.length - 4)) == (crc32 (bs.take (bs.length - 4))).toNat

/-! ### Arithmetic (00, Conventions) -/

/-- The value brought to the nearest end of a range it lies outside of. -/
def clamp (low high v : Int) : Int := if v < low then low else if high < v then high else v

/-- `n / d` rounded to the nearest integer, ties away from zero. -/
def roundRatio (n : Int) (d : Nat) : Int :=
  if 0 ≤ n then (((2 * n.toNat + d) / (2 * d) : Nat) : Int)
  else -(((2 * (-n).toNat + d) / (2 * d) : Nat) : Int)

/-- Two ranges of bytes or numbers share one. -/
def overlaps (a la b lb : Nat) : Bool := 0 < la && 0 < lb && a < b + lb && b < a + la

/-- An area that lies wholly within XM. -/
def inXm (offset size : Nat) : Bool := offset + size ≤ Config.xmBytes

/-! ### Sensor link packets (12.2, R7 to R13) -/

/-- The tag of a packet (12.2). -/
def packetTag (bs : List Byte) : Nat := field bs 0 2 % 4096

/-- The kind of a packet (12.2). -/
def packetKind (bs : List Byte) : Nat := field bs 0 2 / 4096

/-- The shape check of R9. -/
def goodShape (bs : List Byte) : Bool :=
  16 ≤ bs.length && 1 ≤ field bs 8 2 && field bs 8 2 ≤ 512 && bs.length == 16 + 2 * field bs 8 2

/-- The header and slopes of a slope segment (12.2). -/
def parseSegment (bs : List Byte) : Segment where
  tag := packetTag bs
  frame := BitVec.ofNat 16 (field bs 2 2)
  index := field bs 4 1
  count := field bs 5 1
  first := field bs 6 2
  invalid := field bs 10 1 % 2 == 1
  slopes := int16s (field bs 8 2) (bs.drop 12)

/-- The classification of a good packet with a nonzero tag (R8 to R10). -/
def classify (bs : List Byte) : PacketClass :=
  if packetKind bs = 1 then
    if goodShape bs then .segment (parseSegment bs) else .shapeFault (packetTag bs)
  else .nonSegment

/-! ### The Anchor Record (12.5, R175) -/

/-- The fields of the Anchor Record. -/
def parseAnchor (bs : List Byte) : Anchor where
  stripOffset := field bs 0 4
  slots := field bs 4 2
  firstTicket := BitVec.ofNat 32 (field bs 8 4)
  interval := field bs 12 2
  telemetryOffset := field bs 16 4
  telemetryCount := field bs 20 4
  snapshotOffset := field bs 24 4
  snapshotCount := field bs 28 2
  streamReport := field bs 32 4
  statusBlock := field bs 36 4
  asideOffset := field bs 40 4
  asideCount := field bs 44 2

/-- The reserved fields of the Anchor Record are zero. -/
def anchorReservedZero (bs : List Byte) : Bool :=
  zeroField bs 6 2 && zeroField bs 14 2 && zeroField bs 30 2 && zeroField bs 46 210

/-- The anchor area: the 4 KiB from offset 0 (11.3). -/
def anchorArea : Nat × Nat := (0, 4096)

/-- The six named areas: offset and size (11.3). -/
def Anchor.areas (a : Anchor) : List (Nat × Nat) :=
  [(a.stripOffset, a.slots * 128), (a.telemetryOffset, a.telemetryCount * 512), (a.snapshotOffset, a.snapshotCount * 65536),
    (a.streamReport, 4096), (a.statusBlock, 1024), (a.asideOffset, a.asideCount * 2048)]

/-- A power of two within a range. -/
def powerOfTwoIn (low high n : Nat) : Bool := low ≤ n && n ≤ high && n &&& (n - 1) == 0

/-- The counts and the scan interval lie in their ranges (11.3). -/
def Anchor.countsValid (a : Anchor) : Bool :=
  powerOfTwoIn 16 1024 a.slots && 10 ≤ a.interval && a.interval ≤ 10000 && powerOfTwoIn 16 65536 a.telemetryCount
    && 2 ≤ a.snapshotCount && a.snapshotCount ≤ 256 && 8 ≤ a.asideCount && a.asideCount ≤ 256

/-- No two areas of a list overlap. -/
def disjointAreas : List (Nat × Nat) → Bool
  | [] => true
  | x :: xs => xs.all (fun y => !overlaps x.1 x.2 y.1 y.2) && disjointAreas xs

/-- The validity of a record read without error (R175). -/
def validAnchor (bs : List Byte) : Bool :=
  let a := parseAnchor bs
  anchorReservedZero bs && a.countsValid && a.areas.all (fun x => x.1 % 4096 == 0 && inXm x.1 x.2)
    && disjointAreas (anchorArea :: a.areas)

/-- The fixed areas: the anchor area and the six named areas while an anchor is loaded (11.3). -/
def fixedAreas (s : State) : List (Nat × Nat) :=
  match s.run.anchor with
  | none => []
  | some a => anchorArea :: a.areas

/-- An area overlaps a fixed area. -/
def onFixedArea (s : State) (offset size : Nat) : Bool := (fixedAreas s).any fun x => overlaps offset size x.1 x.2

/-- An area the host names lies wholly within XM and on no fixed area. -/
def goodArea (s : State) (offset size : Nat) : Bool := inXm offset size && !onFixedArea s offset size

/-! ### Editions (12.4, R83) -/

/-- A group table row (12.4). -/
def parseGroupRow (bs : List Byte) : GroupRow where
  gain := field16 bs 0
  leak := field bs 2 4
  low := field16 bs 6
  high := field16 bs 8
  slew := field bs 10 2

/-- A group table: row g at 12 g. -/
def parseGroups (bs : List Byte) : Vector GroupRow 16 := Vector.ofFn fun g => parseGroupRow (bs.drop (12 * g.val))

/-- A row passes check 5 of R83. -/
def GroupRow.valid (r : GroupRow) : Bool :=
  r.leak ≤ 65536 && -32767 ≤ r.low && r.low ≤ 32767 && -32767 ≤ r.high && r.high ≤ 32767 && r.low ≤ r.high
    && 1 ≤ r.slew && r.slew ≤ 65534

/-- The first row that fails check 5. -/
def failingRow (groups : Vector GroupRow 16) : Option Nat := groups.toList.findIdx? fun r => !r.valid

/-- The settings of an Edition Record; vectors and directory are empty until they are read (12.4, R82). -/
def parseEdition (bs : List Byte) : Edition where
  number := BitVec.ofNat 32 (field bs 0 4)
  slopeCount := field bs 4 2
  actuatorCount := field bs 6 2
  groups := parseGroups (bs.drop 48)
  links :=
    { map := Vector.ofFn fun n => { first := field bs (32 + 4 * n.val) 2, count := field bs (34 + 4 * n.val) 2 }
      timeout := field bs 28 2
      missLimit := field bs 30 1 }
  guards := { saturationLimit := field bs 24 2, saturationFrames := field bs 26 1, voidFrames := field bs 27 1 }

/-- The addresses and the entry count an Edition Record gives (12.4). -/
def parseLoad (slot : SlotId) (bs : List Byte) : Load where
  slot := slot
  phase := .record
  tileList := field bs 8 4
  tileCount := field bs 12 2
  referenceAt := field bs 16 4
  groupMapAt := field bs 20 4

/-- Check 6 of R83 for entry n: the range ends within A, and shares no actuator with an earlier used entry (log 20). -/
def outEntryFails (e : Edition) (n : Fin 4) : Bool :=
  let x := e.links.map[n]
  0 < x.count && (e.actuatorCount < x.first + x.count
    || (allFin 4).any fun m => m < n && overlaps x.first x.count e.links.map[m].first e.links.map[m].count)

/-- Check 7 of R83. -/
def settingsInRange (e : Edition) : Bool :=
  e.guards.saturationLimit ≤ 1024 && 1 ≤ e.guards.saturationFrames && e.guards.saturationFrames ≤ 255
    && 1 ≤ e.guards.voidFrames && e.guards.voidFrames ≤ 255 && 20 ≤ e.links.timeout && e.links.timeout ≤ 2000
    && 1 ≤ e.links.missLimit && e.links.missLimit ≤ 15

/-- Check 4 of R83 for one area. Of an empty area, a tile list of 0 entries, only the offset counts: a multiple of 64, and not beyond the
end of XM; it overlaps no fixed area (log 46). -/
def areaFails (s : State) (offset size : Nat) : Bool := offset % 64 != 0 || !goodArea s offset size

/-- Checks 1 to 7 of R83, in order: the number of the first that fails and its index. What check 4 says of the address of a tile list of 0
entries is the model's choice (log 46). -/
def recordCheck (s : State) (e : Edition) (l : Load) : Option (Nat × Nat) :=
  if e.number = 0 then some (1, 0)
  else if e.slopeCount < 1 || 16384 < e.slopeCount || e.actuatorCount < 1 || 1024 < e.actuatorCount then some (2, 0)
  else if 1024 < l.tileCount then some (3, 0)
  else if areaFails s l.tileList (16 * l.tileCount) || areaFails s l.referenceAt (2 * e.slopeCount)
      || areaFails s l.groupMapAt e.actuatorCount then some (4, 0)
  else match failingRow e.groups with
    | some row => some (5, row)
    | none =>
      match (allFin 4).find? (outEntryFails e) with
      | some n => some (6, n.val)
      | none => if settingsInRange e then none else some (7, 0)

/-- The key of a grid position in a Tile Directory. -/
def tileKey (row column : Nat) : Nat := 64 * column + row

/-- The column block of a key. -/
def keyColumn (key : Nat) : Nat := key / 64

/-- The row block of a key. -/
def keyRow (key : Nat) : Nat := key % 64

/-- Check 8 of R83: the position lies in the grid and in the edition, the exponent in its range. -/
def positionFails (e : Edition) (row column : Nat) (exponent : Int) : Bool :=
  63 < row || e.slopeCount ≤ 256 * row || 15 < column || e.actuatorCount ≤ 64 * column || exponent < -24 || 8 < exponent

/-- Check 9 of R83: the tile address. -/
def tileAddressFails (s : State) (address : Nat) : Bool :=
  address % Config.tileBytes != 0 || !goodArea s address Config.tileBytes

/-- The Range Watch granule of an XM offset (R90). -/
def watchGranule (offset : Nat) : Nat := offset / Config.tileBytes

/-- The ticket of the oldest pending RETIRE_RANGE whose range holds a tile (R83 check 11). -/
def retiring (s : State) (address : Nat) : Option Ticket :=
  s.du.deferred.findSome? fun d =>
    match d.work with
    | .retire first last =>
      if first ≤ watchGranule address && watchGranule address ≤ last then some d.ticket else none
    | _ => none

/-! ### Mirror link packets (12.2, R180) -/

/-- The code of an answered packet kind (12.2). -/
def PacketKind.code : PacketKind → Nat
  | .command => 1
  | .safe => 2

/-- A command or safe packet as it is sent (12.2). -/
def Packet.bytes (p : Packet) : List Byte :=
  sealed (leBytes 2 p.kind.code ++ leBytes 2 p.number.toNat ++ leBytes 2 p.first ++ leBytes 2 p.values.length
    ++ (p.values.map int16Bytes).flatten)

/-- A block of eight payload bytes. -/
def block (sync : BitVec 2) (bs : List Byte) : Block := (sync, BitVec.ofNat 64 (leNat (bs.take 8)))

/-- Data blocks and the TERMINATE of the bytes that follow a START (R180); `fuel` bounds the number of blocks. -/
def tailBlocks : Nat → List Byte → List Block
  | 0, _ => []
  | fuel + 1, bs =>
    if 8 ≤ bs.length then block 1 (bs.take 8) :: tailBlocks fuel (bs.drop 8)
    else [block 2 (BitVec.ofNat 8 (0x30 + bs.length) :: bs)]

/-- The blocks a transmitter sends for a packet (R180). -/
def wireBlocks (bs : List Byte) : List Block :=
  block 2 (0x20 :: bs.take 7) :: tailBlocks bs.length (bs.drop 7)

/-- The abort trailer (R180). -/
def abortTrailer : Block := (2, 0x48)

/-- The line fill between packets (R180). 12.2 gives its type byte alone: the seven bytes after it are a free value, by link and by
the number of blocks sent before (log 53). -/
def idleBlock (i : Fin 4) (sent : Nat) : Block := (2, Config.idleFill i.val sent ++ 0x10#8)

/-- The blocks sent of a packet of some length before it is cut off at a block boundary: the START at least, and no byte of the
check code (R180, log 39). -/
def blocksBeforeCut (length free : Nat) : Nat := 1 + free % (1 + (length - 11) / 8)

/-- A good accept token: the kind and number answered, and whether the verdict is OK (12.2). -/
structure Token where
  kind : PacketKind
  number : BitVec 16
  ok : Bool
  deriving DecidableEq, Repr

/-- A complete packet as an accept token: none where the receiver counts it bad (R145, R179, log 31). -/
def parseToken (bs : List Byte) : Option Token :=
  if bs.length = 12 && goodCheckCode bs && field bs 0 2 == 3 && (field bs 2 2 == 1 || field bs 2 2 == 2)
      && (field bs 6 2 == 1 || field bs 6 2 == 2) then
    some
      { kind := if field bs 2 2 = 1 then .command else .safe
        number := BitVec.ofNat 16 (field bs 4 2)
        ok := field bs 6 2 == 1 }
  else none

end Sys2Proof.Machine
end

