-- ==== Sys2Proof/Machine/Ops.lean ====
section
/-!
DEFINITION. The named operations over Exchange Memory, the arbiter's waiting accesses, and the Directive Unit's outcomes and
scan, which the families share (R150 to R158, R172 to R174). A block raises no exception: an error flag is an attention cause.
-/
namespace Sys2Proof.Machine

/-! ### Exchange Memory (R172, R173) -/

/-- Memory as the package holds it: cells in canonical form, an unlisted byte reads 0 (R172, log 5). -/
abbrev Memory := List Host.Cell

/-- The byte at an XM offset. -/
def Memory.read (m : Memory) (a : Nat) : Byte := Store.read 0 m a

/-- The canonical form of memory. -/
def Memory.wf (m : Memory) : Bool := Store.wf (0 : Byte) m

/-- The byte of XM at an offset. -/
def readByte (s : State) (a : Nat) : Byte := Memory.read s.xm a

/-- `n` bytes of XM from an offset on. -/
def readBytes (s : State) (a n : Nat) : List Byte := Store.readAll 0 s.xm a n

/-- XM with bytes written from an offset on. -/
def writeBytes (s : State) (a : Nat) (bs : List Byte) : State := { s with xm := Store.writeAll 0 s.xm a bs }

/-- The granule pieces of an access, ascending: granule, first byte in it, length (R172). -/
def pieces (a len : Nat) : List (Nat × Nat × Nat) :=
  if len = 0 then []
  else
    (List.range ((a + len - 1) / 32 - a / 32 + 1)).map fun k =>
      let base := 32 * (a / 32 + k)
      let lo := max a base
      (a / 32 + k, lo - base, min (a + len) (base + 32) - lo)

/-- The granule reads of an access. -/
def readAccesses (p : Purpose) (a len : Nat) : List Access :=
  (pieces a len).map fun x => { granule := x.1, lo := x.2.1, len := x.2.2, data := none, purpose := p }

/-- The granule writes of an access. -/
def writeAccesses (p : Purpose) (a : Nat) (bs : List Byte) : List Access :=
  (pieces a bs.length).map fun x =>
    { granule := x.1, lo := x.2.1, len := x.2.2
      data := some ((bs.drop (32 * x.1 + x.2.1 - a)).take x.2.2), purpose := p }

/-- The DU places accesses (R174). -/
def placeDu (as : List Access) (s : State) : State := { s with arb := { s.arb with du := s.arb.du ++ as } }

/-- The RPU places accesses (R174). -/
def placeRpu (as : List Access) (s : State) : State := { s with arb := { s.arb with rpu := s.arb.rpu ++ as } }

/-- The SAU places accesses (R174). -/
def placeSau (as : List Access) (s : State) : State := { s with arb := { s.arb with sau := s.arb.sau ++ as } }

/-- The host's accesses join the arbiter in the order the endpoint delivers them (R172). -/
def placeHost (as : List Access) (s : State) : State := { s with arb := { s.arb with host := s.arb.host ++ as } }

/-- The DU's waiting accesses of a purpose are withdrawn. -/
def withdrawDu (p : Purpose → Bool) (s : State) : State :=
  { s with arb := { s.arb with du := s.arb.du.filter fun a => !p a.purpose } }

/-- A read of consecutive bytes whose granules are all still to be granted. -/
def newJob (p : Purpose) (a len : Nat) : ReadJob := { purpose := p, left := (pieces a len).length, bytes := [], failed := none }

/-- The DU begins a read (R151, R156, R175). -/
def duRead (p : Purpose) (a len : Nat) (s : State) : State :=
  placeDu (readAccesses p a len) { s with du := { s.du with job := some (newJob p a len) } }

/-- The read has all its granules, or its rest was withdrawn after a failure. -/
def ReadJob.complete (j : ReadJob) : Bool := j.left == 0

/-- The DU's read of a purpose, when it has returned. -/
def duReturned (p : Purpose) (s : State) : Option ReadJob :=
  match s.du.job with
  | some j => if j.purpose = p && j.complete then some j else none
  | none => none

/-! ### Outcome codes (09, 9.7) -/

/-- Outcome codes of 9.7. -/
def codePending : Nat := 1
def codeDone : Nat := 2
def codeRefusedKind : Nat := 3
def codeRefusedField : Nat := 4
def codeRefusedRange : Nat := 5
def codeRefusedState : Nat := 6
def codeRefusedInUse : Nat := 7
def codeRefusedRetiring : Nat := 8
def codeRefusedBusy : Nat := 9
def codeFailedCheck : Nat := 10
def codeFailedMemory : Nat := 11
def codeRefusedTorn : Nat := 12
def codeAbandoned : Nat := 13

/-- The detail of FAILED_CHECK: check number in byte 12, index in bytes 14 and 15 (12.3). -/
def checkDetail (check index : Nat) : BitVec 32 := BitVec.ofNat 32 (check + 65536 * index)

/-- The XM offset of the slot of a ticket (R150). -/
def slotOffset (a : Anchor) (t : Ticket) : Nat := a.stripOffset + 128 * (t.toNat % a.slots)

/-- Bytes 8 to 15 of a slot: outcome code, zero, detail (R154). -/
def outcomeBytes (code : Nat) (detail : BitVec 32) : List Byte := leBytes 2 code ++ leBytes 2 0 ++ leBytes 4 detail.toNat

/-- The DU places an outcome write; when it is performed the tickets of `settles` are settled (R154, R155). -/
def placeOutcome (t : Ticket) (code : Nat) (detail : BitVec 32) (settles : List Ticket) (s : State) : State :=
  match s.run.anchor with
  | none => s
  | some a => placeDu (writeAccesses (.outcome settles) (slotOffset a t + 8) (outcomeBytes code detail)) s

/-- A final outcome of a single ticket. -/
def finalOutcome (t : Ticket) (code : Nat) (detail : BitVec 32) (s : State) : State := placeOutcome t code detail [t] s

/-- The DU places the read of the slot of the expected ticket and is READING (R151). -/
def readExpected (s : State) : State :=
  match s.run.anchor, s.du.expected with
  | some a, some t => duRead .slot (slotOffset a t) 128 { s with du := { s.du with activity := .reading } }
  | _, _ => s

/-- The directive in hand ends with a final outcome and the scan resumes at once with the next slot (R151, R156). -/
def endHand (code : Nat) (detail : BitVec 32) (s : State) : State :=
  match s.du.hand with
  | none => s
  | some h =>
    readExpected (finalOutcome h.ticket code detail { s with du := { s.du with hand := none, job := none } })

/-- The directive in hand when its owner is working on it and its kind is one of `kinds` (R156). -/
def workingHand (kinds : List Nat) (s : State) : Option Hand :=
  match s.du.hand with
  | some h => if h.phase = .working && kinds.contains h.kind then some h else none
  | none => none

/-- The directive in hand enters a phase, with the DU's activity (R156, R157). -/
def setPhase (p : HandPhase) (a : Activity) (s : State) : State :=
  { s with du := { s.du with activity := a, hand := s.du.hand.map fun h => { h with phase := p } } }

/-- An occupying directive begins the read of its data (R156). -/
def occupy (p : Purpose) (a len : Nat) (s : State) : State := duRead p a len (setPhase .working .executing s)

/-- Settled-through: one below the oldest taken and unsettled ticket, or taken-through (R155). -/
def settledValue (du : Du) : Option Ticket :=
  match du.unsettled with
  | [] => du.takenThrough
  | t :: _ => some (t - 1)

/-- A ticket leaves the strip: taken-through moves to it, the expected ticket advances, it is unsettled, and
settled-through is recomputed (R150, R153, R155). -/
def takeTicket (t : Ticket) (s : State) : State :=
  let du := { s.du with
    takenThrough := some t, expected := some (t + 1), unsettled := s.du.unsettled ++ [t], torn := 0, tornMemory := 0 }
  { s with du := { du with settledThrough := settledValue du } }

/-! ### Slots of the engine (05) -/

/-- The Edition Slot of an identifier. -/
def slotOf (s : State) : SlotId → Slot
  | .a => s.rce.slotA
  | .b => s.rce.slotB

/-- An Edition Slot replaced. -/
def setSlot (i : SlotId) (x : Slot) (s : State) : State :=
  match i with
  | .a => { s with rce := { s.rce with slotA := x } }
  | .b => { s with rce := { s.rce with slotB := x } }

/-- The edition a slot holds. -/
def Slot.edition : Slot → Option Edition
  | .empty => none
  | .loading e => some e
  | .current e => some e
  | .retained e => some e

/-- The CURRENT slot and its edition. -/
def currentSlot (s : State) : Option (SlotId × Edition) :=
  match s.rce.slotA, s.rce.slotB with
  | .current e, _ => some (.a, e)
  | _, .current e => some (.b, e)
  | _, _ => none

/-- The edition of the RETAINED slot. -/
def retainedEdition (s : State) : Option Edition :=
  match s.rce.slotA, s.rce.slotB with
  | .retained e, _ => some e
  | _, .retained e => some e
  | _, _ => none

/-- The edition a slot contributes to the Range Watch map: CURRENT and RETAINED slots are watched (R90). -/
def Slot.watched : Slot → Option Edition
  | .current e => some e
  | .retained e => some e
  | _ => none

/-- The Range Watch granules of an edition's tiles. -/
def Edition.granules (e : Edition) : List Nat := e.directory.map fun d => watchGranule d.2.address

/-- The Range Watch map of the slots as they stand (R90). -/
def watchMap (slotA slotB : Slot) : Store Watched :=
  let ga := (slotA.watched.map Edition.granules).getD []
  let gb := (slotB.watched.map Edition.granules).getD []
  let m := ga.foldl (fun m g => Store.insert m g { inA := true, inB := false }) []
  gb.foldl (fun m g => Store.insert m g { inA := ((Store.find? m g).map Watched.inA).getD false, inB := true }) m

/-- The Range Watch map is rebuilt, as part of a change of slot state (R90). -/
def rebuildWatch (s : State) : State := { s with watch := watchMap s.rce.slotA s.rce.slotB }

/-- The part is RUNNING. -/
def isRunning (s : State) : Bool := s.run.state == .running

/-- A command's effect as the outcome of a step: every effect is followed by what the reports make of it. -/
abbrev Result := Host.Outcome State Fault Refusal

end Sys2Proof.Machine
end

