-- ==== Sys2Proof/Machine/Reports.lean ====
section
/-!
DEFINITION. The Report Unit (10): the layouts it writes (12.6), its writer, the rewrites that are owed, and `finish`, which
turns a command's effect into the outcome of its step: one MSI at most, the rewrites owed, an idle writer's next item.
-/
namespace Sys2Proof.Machine

/-! ### The Part Status Block (10.3, 12.6) -/

/-- The fields the Part Status Block copies from the blocks (10.3). The time base and the update count are not among them: they
make no rewrite owed (R164). -/
structure StatusView where
  runState : RunState
  refusal : RunRefusal
  pace : PaceState
  output : OutputState
  causes : HoldCauses
  level : InterlockLevel
  lastDispatched : Option Frame
  lastWrapped : Fin 16
  decimation : BitVec 16
  takenThrough : Option Ticket
  settledThrough : Option Ticket
  deferred : List (Ticket × Nat)
  current : BitVec 32
  retained : BitVec 32
  totals : List (BitVec 32)
  tileErrors : BitVec 32
  corrected : BitVec 32
  overruns : BitVec 32
  serial : BitVec 32
  dropped : BitVec 32
  links : List (LinkCounts × Nat)
  deriving DecidableEq, Repr

/-- The kind number of a Deferred List entry (9.9). -/
def DeferredWork.kind : DeferredWork → Nat
  | .retire _ _ => 4
  | .probeCycle => 12
  | .drain _ => 16

/-- The fields as the blocks hold them now. -/
def statusView (s : State) : StatusView where
  runState := s.run.state
  refusal := s.run.refusal
  pace := s.fck.pace
  output := s.cou.output
  causes := s.cou.causes
  level := s.cou.level
  lastDispatched := s.fau.lastDispatched
  lastWrapped := s.sau.lastWrapped
  decimation := s.rpu.decimation
  takenThrough := s.du.takenThrough
  settledThrough := s.du.settledThrough
  deferred := s.du.deferred.map fun d => (d.ticket, d.work.kind)
  current := ((currentSlot s).map fun x => x.2.number).getD 0
  retained := ((retainedEdition s).map Edition.number).getD 0
  totals := [s.fau.dispatched, s.fau.skipped, s.fau.abandoned, s.fau.overrun, s.fau.voided, s.fck.reframes]
  tileErrors := s.rce.tileErrors
  corrected := s.corrected
  overruns := s.sau.overruns
  serial := s.rpu.serial
  dropped := s.rpu.dropped
  links := s.cou.links.toList.map fun l => (l.counts, l.consecutive)

/-- Codes of 12.6. -/
def RunState.code : RunState → Nat
  | .halted => 0
  | .ready => 1
  | .running => 2
  | .draining => 3

/-- Codes of 12.6. -/
def RunRefusal.code : RunRefusal → Nat
  | .none => 0
  | .wrongState => 1
  | .unknownCommand => 2
  | .anchorInvalid => 3
  | .notConfigured => 4

/-- Codes of 12.6. -/
def PaceState.code : PaceState → Nat
  | .paced => 0
  | .coasting => 1

/-- Codes of 12.6. -/
def OutputState.code : OutputState → Nat
  | .quiet => 0
  | .live => 1
  | .held => 2

/-- Codes of 12.6. -/
def InterlockLevel.code : InterlockLevel → Nat
  | .released => 0
  | .asserted => 1

/-- A 4-byte count. -/
def count4 (v : BitVec 32) : List Byte := leBytes 4 v.toNat

/-- A mirror link section, 48 bytes (12.6). -/
def linkSection (x : LinkCounts × Nat) : List Byte :=
  let c := x.1
  ([c.commands, c.safes, c.aborted, c.dropped, c.accepted, c.misses, c.timeouts, c.rejections, c.supersedes, c.stray, c.bad].map
    count4).flatten ++ leBytes 1 x.2 ++ zeros 3

/-- A ticket field: 0 before LOAD_ANCHOR (12.6). -/
def ticketField (t : Option Ticket) : List Byte := leBytes 4 (t.getD 0).toNat

/-- The four Deferred List entries (12.6). -/
def deferredField (ds : List (Ticket × Nat)) : List Byte :=
  let bs := (ds.map fun d => leBytes 4 d.1.toNat ++ leBytes 2 d.2 ++ zeros 2).flatten
  bs ++ zeros (32 - bs.length)

/-- Bytes 4 to 1019 of the Part Status Block (12.6). -/
def statusBody (v : StatusView) (now : Time) : List Byte :=
  leBytes 1 v.runState.code ++ leBytes 1 v.refusal.code ++ leBytes 1 v.pace.code ++ leBytes 1 v.output.code
    ++ leBytes 1 v.causes.byte ++ leBytes 1 v.level.code ++ leBytes 1 v.lastDispatched.isSome.toNat
    ++ leBytes 1 v.lastWrapped.val ++ leBytes 2 (v.lastDispatched.getD 0).toNat ++ leBytes 2 v.decimation.toNat
    ++ leBytes 8 now.toNat ++ ticketField v.takenThrough ++ ticketField v.settledThrough
    ++ leBytes 1 v.deferred.length ++ zeros 3 ++ deferredField v.deferred
    ++ count4 v.current ++ count4 v.retained ++ (v.totals.map count4).flatten ++ count4 v.tileErrors ++ count4 v.corrected
    ++ count4 v.overruns ++ count4 v.serial ++ count4 v.dropped ++ zeros 8
    ++ (v.links.map linkSection).flatten ++ zeros 700

/-! ### The Stream Report (10.6, 12.6) -/

/-- Codes of 12.6. -/
def StreamState.code : StreamState → Nat
  | .disabled => 0
  | .standby => 1
  | .seeking => 2
  | .locked => 3
  | .cut => 4

/-- Codes of 12.3 and 12.6. -/
def Substitution.code : Substitution → Nat
  | .zero => 0
  | .last => 1

/-- Codes of 12.6. -/
def LinkState.code : LinkState → Nat
  | .down => 0
  | .up => 1

/-- A stream entry, 64 bytes (12.6). -/
def streamEntry (x : Stream) : List Byte :=
  leBytes 1 x.state.code ++ leBytes 1 x.enabled.toNat ++ leBytes 2 x.config.tag ++ leBytes 1 x.config.link
    ++ leBytes 1 x.config.substitution.code ++ leBytes 1 x.config.mandatory.toNat ++ leBytes 1 x.config.cutTimeout
    ++ leBytes 2 x.config.base ++ leBytes 2 x.config.count ++ leBytes 1 x.config.segments ++ zeros 1
    ++ leBytes 2 x.config.allowance ++ (x.counters.toList.map fun c => leBytes 2 c.toNat).flatten ++ zeros 2
    ++ leBytes 8 x.changed.toNat ++ zeros 16

/-- A link entry, 24 bytes (12.6). -/
def linkEntry (p : Port) (aside : Bool) : List Byte :=
  leBytes 1 p.rx.link.code ++ leBytes 1 aside.toNat ++ leBytes 2 p.crcErrors.toNat ++ leBytes 2 p.codingErrors.toNat
    ++ leBytes 2 p.oversize.toNat ++ leBytes 2 p.foreign.toNat ++ zeros 6 ++ leBytes 8 p.changed.toNat

/-- Bytes 4 to 4091 of the Stream Report (12.6). -/
def streamReportBody (s : State) : List Byte :=
  zeros 60 ++ (s.sau.streams.toList.map streamEntry).flatten
    ++ ((allFin 8).map fun l => linkEntry s.ports[l] s.sau.asideFlags[l]).flatten ++ zeros 2812

/-! ### Telemetry and snapshots (10.4, 10.5, 12.6) -/

/-- Codes of 12.6. -/
def CloseCause.code : CloseCause → Nat
  | .complete => 0
  | .deadline => 1

/-- Codes of 12.6. -/
def FrameResult.code : FrameResult → Nat
  | .committed => 0
  | .heldOpenLoop => 1
  | .void => 2

/-- Codes of 12.6. -/
def ProbeSource.code : ProbeSource → Nat
  | .none => 0
  | .cycle _ => 1
  | .injection => 2

/-- The cycle entry of a source: 0 unless CYCLE (12.6). -/
def ProbeSource.entry : ProbeSource → Nat
  | .cycle e => e
  | _ => 0

/-- Bytes 4 to 511 of a telemetry record (12.6). -/
def telemetryBody (t : TelemetrySet) (snapshot : Option Nat) : List Byte :=
  leBytes 2 t.handed.frame.toNat ++ leBytes 1 t.handed.cause.code ++ leBytes 1 t.result.code ++ leBytes 4 t.edition.toNat
    ++ leBytes 8 t.handed.started.toNat ++ leBytes 8 t.handed.closed.toNat ++ leBytes 8 t.completed.toNat
    ++ (t.handed.voidCounts.toList.map (leBytes 2)).flatten
    ++ leBytes 2 t.saturated ++ leBytes 2 t.voidActuators ++ leBytes 2 t.memoryErrors
    ++ leBytes 1 t.source.code ++ leBytes 1 t.source.entry ++ leBytes 1 t.output.code ++ leBytes 1 t.causes.byte
    ++ leBytes 2 (snapshot.getD 0xFFFF) ++ zeros 432

/-- The writes of a snapshot entry: serial 0, the contents, the serial (R167, 12.6). -/
def snapshotWrites (a : Anchor) (entry : Nat) (serial : BitVec 32) (t : TelemetrySet) : List Access :=
  let at' := a.snapshotOffset + 65536 * entry
  let head := leBytes 2 t.handed.frame.toNat ++ leBytes 1 t.result.code ++ zeros 1 ++ leBytes 4 t.edition.toNat
    ++ leBytes 2 t.slopeCount ++ leBytes 2 t.actuatorCount ++ leBytes 2 ((t.residual.map List.length).getD 0) ++ zeros 14
  writeAccesses .report at' (zeros 4) ++ writeAccesses .report (at' + 4) head
    ++ writeAccesses .report (at' + 32) (((t.residual.getD []).map int16Bytes).flatten)
    ++ writeAccesses .report (at' + 32800) ((t.outputs.map int16Bytes).flatten)
    ++ writeAccesses .snapshotSeal at' (count4 serial)

/-- The writes of a telemetry record: invalidate, body, seal (R166). -/
def recordWrites (a : Anchor) (serial : BitVec 32) (t : TelemetrySet) (snapshot : Option Nat) : List Access :=
  let at' := a.telemetryOffset + 512 * (serial.toNat % a.telemetryCount)
  writeAccesses .report at' (zeros 4) ++ writeAccesses .report (at' + 4) (telemetryBody t snapshot)
    ++ writeAccesses .report at' (count4 serial)

/-- A count that rises by one and is never 0 (R164, R166, R169). -/
def nextCount (c : BitVec 32) : BitVec 32 := if c + 1 = 0 then 1 else c + 1

/-! ### The writer (10.2) -/

/-- The writer takes the telemetry set at the head of the holding list: its snapshot entry first, where one is due, else its record (R166,
R167). That all writes of an entry or a record are placed in one step, in the rules' order, is the model's choice (log 49). -/
def takeTelemetry (a : Anchor) (t : TelemetrySet) (s : State) : State :=
  let serial := nextCount s.rpu.serial
  let counted := if s.rpu.decimation = 0 then 0 else s.rpu.decimationCounter + 1
  let snap := s.rpu.decimation != 0 && counted == s.rpu.decimation.toNat
  placeRpu (if snap then snapshotWrites a s.rpu.nextSnapshot serial t else recordWrites a serial t none)
    { s with rpu := { s.rpu with
        serial := serial
        decimationCounter := if snap then 0 else counted
        writer := if snap then .snapshot else .telemetry } }

/-- The next snapshot entry after one is sealed (R167). -/
def nextSnapshotAfter (a : Anchor) (n : Nat) : Nat := if n + 1 < a.snapshotCount then n + 1 else 0

/-- A snapshot entry is sealed: the next snapshot entry advances, and the writes of the set's record, which names the entry, are placed (R166,
R167). -/
def sealSnapshot (s : State) : State :=
  match s.run.anchor, s.rpu.writer, s.rpu.holding with
  | some a, .snapshot, t :: _ =>
    placeRpu (recordWrites a s.rpu.serial t (some s.rpu.nextSnapshot))
      { s with rpu := { s.rpu with nextSnapshot := nextSnapshotAfter a s.rpu.nextSnapshot, writer := .telemetry } }
  | _, _, _ => s

/-- The writer takes a Stream Report rewrite (R169). -/
def takeStreamReport (a : Anchor) (s : State) : State :=
  let c := nextCount s.rpu.streamCount
  placeRpu
    (writeAccesses .report a.streamReport (count4 c) ++ writeAccesses .report (a.streamReport + 4) (streamReportBody s)
      ++ writeAccesses .report (a.streamReport + 4092) (count4 c))
    { s with rpu := { s.rpu with streamCount := c, streamOwed := false, writer := .streamReport } }

/-- The writer takes a Part Status Block rewrite (R164). -/
def takeStatus (a : Anchor) (s : State) : State :=
  let c := nextCount s.rpu.statusCount
  placeRpu
    (writeAccesses .report a.statusBlock (count4 c) ++ writeAccesses .report (a.statusBlock + 4) (statusBody (statusView s) s.time)
      ++ writeAccesses .report (a.statusBlock + 1020) (count4 c))
    { s with rpu := { s.rpu with statusCount := c, statusOwed := false, writer := .status } }

/-- An idle writer takes its next item, if an anchor is loaded and one waits (R163). -/
def kickWriter (s : State) : State :=
  match s.run.anchor, s.rpu.writer with
  | some a, .idle =>
    match s.rpu.holding with
    | t :: _ => takeTelemetry a t s
    | [] =>
      if s.rpu.streamOwed then takeStreamReport a s
      else if s.rpu.statusOwed then takeStatus a s
      else s
  | _, _ => s

/-- A Part Status Block rewrite is owed when a field it holds has changed (R164, log 32). -/
def oweStatus (before after : State) : State :=
  if after.run.anchor.isSome && decide (statusView before ≠ statusView after) then
    { after with rpu := { after.rpu with statusOwed := true } }
  else after

/-- The states whose change makes a Stream Report rewrite owed (R169). -/
def reportedStates (s : State) : List StreamState × List LinkState :=
  (s.sau.streams.toList.map Stream.state, s.ports.toList.map fun p => p.rx.link)

/-- A Stream Report rewrite is owed when a stream state or a link state has changed (R169, log 32). -/
def oweStreams (before after : State) : State :=
  if after.run.anchor.isSome && decide (reportedStates before ≠ reportedStates after) then
    { after with rpu := { after.rpu with streamOwed := true } }
  else after

/-- A Stream Report rewrite is owed by a report of its own (R36, R166, R169). -/
def oweStreamReport (s : State) : State := { s with rpu := { s.rpu with streamOwed := true } }

/-- What follows a command's effect within its step: the MSI, the rewrites owed, an idle writer's next item. -/
def settle (before after : State) : State := kickWriter (oweStreams before (oweStatus before (sendMsi before after)))

/-- The outcome of a step with a given effect. -/
def finish (before after : State) : Result := .next (settle before after)

/-- The outcome of a step that has first taken an earlier event, up to `first`, with the message of its flags (log 9): the flags raised
from there on send a message of their own, and the rewrites owed are those of the whole step (R171). -/
def finishAfter (before first after : State) : Result := finish { before with page := first.page } after

/-! ### The end of an item (R163, R166) -/

/-- A telemetry record is sealed: its set leaves the list, the record is reported to the DU, and both rewrites are owed (R165, R166). -/
def sealTelemetry (s : State) : State :=
  { s with
    rpu := { s.rpu with
      holding := s.rpu.holding.tail
      statusOwed := true
      streamOwed := true
      writer := .idle }
    wires := { s.wires with
      telemetryWritten := s.wires.telemetryWritten ++ (s.rpu.holding.head?.map TelemetrySet.number).toList } }

/-- The item in progress ends. -/
def endItem (s : State) : State :=
  match s.rpu.writer with
  | .telemetry => sealTelemetry s
  | _ => { s with rpu := { s.rpu with writer := .idle } }

/-- The writer's item has no write left to be granted; a set's record follows its snapshot entry (R163, R166). -/
def itemWritten (s : State) : Bool := s.rpu.writer != .idle && s.rpu.writer != .snapshot && s.arb.rpu.isEmpty

/-- WRITER_ITEM_END: the last write of the item has been granted, and the writer takes its next item (R163). -/
def execWriterItemEnd (s : State) : Result :=
  if s.run.anchor.isSome && itemWritten s then finish s (endItem s) else .next s

end Sys2Proof.Machine
end

