-- ==== Sys2Proof/Machine/Receive.lean ====
section
/-!
DEFINITION. The receiving side of a line: word alignment, blocks and packets (R1 to R6, R145). A sensor link port and a mirror
link receiver follow the same rules and count different things.
-/
namespace Sys2Proof.Machine

/-- What a block or a loss of signal brings about at a receiver. -/
inductive LineEvent where
  /-- A coding error (R5). -/
  | codingError
  /-- The open packet is discarded (R3 to R6). -/
  | discarded
  /-- The packet passed 2,032 bytes (R6). -/
  | oversize
  /-- A complete packet (R4). -/
  | complete (bs : List Byte)
  /-- DOWN to UP (R2). -/
  | wentUp
  /-- UP to DOWN (R3). -/
  | wentDown
  deriving DecidableEq, Repr

/-- Blocks by sync word and type byte (01 1.2, 12.2). -/
inductive BlockKind where
  | data
  | idle
  | start
  | terminate (k : Nat)
  | unknown
  deriving DecidableEq, Repr

/-- A valid sync word: its two bits differ (12.2). -/
def goodSync (sync : BitVec 2) : Bool := sync == 1 || sync == 2

/-- The eight payload bytes, byte 0 first. -/
def payloadBytes (p : BitVec 64) : List Byte := (List.range 8).map fun k => p.extractLsb' (8 * k) 8

/-- The kind of a block with a valid sync word (12.2). -/
def blockKind (sync : BitVec 2) (payload : BitVec 64) : BlockKind :=
  if sync = 1 then .data
  else
    let t := (payload.extractLsb' 0 8).toNat
    if t = 0x10 then .idle
    else if t = 0x20 then .start
    else if 0x30 ≤ t ∧ t ≤ 0x37 then .terminate (t - 0x30)
    else .unknown

/-- The receiver without its open packet, in a reception state. -/
def Receiver.enter (x : Reception) (r : Receiver) : Receiver := { r with reception := x, packet := [] }

/-- The discard of an open packet. -/
def Receiver.dropEvent (r : Receiver) : List LineEvent := if r.reception = .inPacket then [.discarded] else []

/-- A START block opens a packet with its 7 bytes (R4). -/
def Receiver.openPacket (payload : BitVec 64) (r : Receiver) : Receiver :=
  { r with reception := .inPacket, packet := (payloadBytes payload).drop 1 }

/-- Bytes are added to the open packet, unless it becomes oversize (R6). -/
def Receiver.collect (bs : List Byte) (r : Receiver) : Receiver × List LineEvent :=
  if Config.packetLimit < (r.packet ++ bs).length then (r.enter .discarding, [.oversize, .discarded])
  else ({ r with packet := r.packet ++ bs }, [])

/-- The last bytes are added and the packet ends (R4); one that becomes oversize with them has ended too (log 13). -/
def Receiver.close (bs : List Byte) (r : Receiver) : Receiver × List LineEvent :=
  if Config.packetLimit < (r.packet ++ bs).length then (r.enter .between, [.oversize, .discarded])
  else (r.enter .between, [.complete (r.packet ++ bs)])

/-- The table of R4, and R5's unknown types. -/
def Receiver.follow (kind : BlockKind) (payload : BitVec 64) (r : Receiver) : Receiver × List LineEvent :=
  match kind, r.reception with
  | .start, .inPacket => (r.openPacket payload, [.codingError, .discarded])
  | .start, _ => (r.openPacket payload, [])
  | .data, .between => (r.enter .discarding, [.codingError])
  | .data, .inPacket => r.collect (payloadBytes payload)
  | .data, .discarding => (r, [])
  | .idle, .inPacket => (r.enter .between, [.codingError, .discarded])
  | .idle, _ => (r.enter .between, [])
  | .terminate _, .between => (r, [.codingError])
  | .terminate k, .inPacket => r.close (((payloadBytes payload).drop 1).take k)
  | .terminate _, .discarding => (r.enter .between, [])
  | .unknown, .inPacket => (r.enter .discarding, [.codingError, .discarded])
  | .unknown, _ => (r, [.codingError])

/-- The receiver goes DOWN (R3). The candidate boundary it hunts from is the one it had: R2 and R3 name none (log 14). -/
def Receiver.goDown (r : Receiver) : Receiver := { r.enter .discarding with link := .down, goodRun := 0 }

/-- A bad sync word at an UP receiver: a coding error, and the sixteenth in a row takes it DOWN (R3, R5). -/
def Receiver.badSyncWord (r : Receiver) : Receiver × List LineEvent :=
  let n := r.badSync + 1
  let r' := { (if r.reception = .inPacket then r.enter .discarding else r) with badSync := n }
  if Config.badSyncLimit ≤ n then (r'.goDown, [.codingError] ++ r.dropEvent ++ [.wentDown])
  else (r', [.codingError] ++ r.dropEvent)

/-- A DOWN receiver hunts while a signal is present (R2). -/
def Receiver.hunt (sync : BitVec 2) (r : Receiver) : Receiver × List LineEvent :=
  if !r.signal then ({ r with goodRun := 0 }, [])
  else if goodSync sync then
    if Config.syncRun ≤ r.goodRun + 1 then
      ({ r.enter .discarding with link := .up, badSync := 0, goodRun := 0 }, [.wentUp])
    else ({ r with goodRun := r.goodRun + 1 }, [])
  else ({ r with goodRun := 0, boundary := r.boundary + 1 }, [])

/-- A receiver takes one block (R1 to R6). -/
def Receiver.take (sync : BitVec 2) (payload : BitVec 64) (r : Receiver) : Receiver × List LineEvent :=
  match r.link with
  | .down => r.hunt sync
  | .up =>
    if goodSync sync then { r with badSync := 0 }.follow (blockKind sync payload) payload else r.badSyncWord

/-- The signal detector reports loss of signal (R2, R3). -/
def Receiver.loseSignal (r : Receiver) : Receiver × List LineEvent :=
  match r.link with
  | .down => ({ r with signal := false, goodRun := 0 }, [])
  | .up => ({ r.goDown with signal := false }, r.dropEvent ++ [.wentDown])

/-- The signal detector reports a signal (R2): a DOWN receiver hunts from a run of 0. -/
def Receiver.findSignal (r : Receiver) : Receiver := { r with signal := true }

/-- A receiver after a reset: DOWN, its bad sync count 0, its signal level as it stands outside (R1, R145, log 14). -/
def Receiver.restart (r : Receiver) : Receiver := { signal := r.signal }

end Sys2Proof.Machine
end

