-- ==== Sys2Proof/Machine/Links.lean ====
section
/-!
DEFINITION. The sensor link ports (01): counts, the checks at the end of a packet, handing on.
-/
namespace Sys2Proof.Machine

/-- A latched link count rises and stops at 65535 (R15). -/
def latch (c : BitVec 16) : BitVec 16 := if c = BitVec.allOnes 16 then c else c + 1

/-- A port of the part changed. -/
def mapPort (l : Fin 8) (f : Port → Port) (s : State) : State := { s with ports := tweak s.ports l f }

/-- A good packet with a nonzero tag is handed on (R8, R14). -/
def handOn (l : Fin 8) (bs : List Byte) (s : State) : State :=
  { s with wires := { s.wires with
      arrivals := s.wires.arrivals ++ [{ link := l, time := s.time, bytes := bs, kind := classify bs }] } }

/-- The checks at the end of a packet (R7). -/
def packetEnd (l : Fin 8) (bs : List Byte) (s : State) : State :=
  if !goodCheckCode bs then mapPort l (fun p => { p with crcErrors := latch p.crcErrors }) s
  else if packetTag bs = 0 then s
  else handOn l bs s

/-- What a line event brings about at a port (R2 to R7, R15, R16). -/
def portEvent (l : Fin 8) (s : State) : LineEvent → State
  | .codingError => mapPort l (fun p => { p with codingErrors := latch p.codingErrors }) s
  | .discarded => s
  | .oversize => mapPort l (fun p => { p with oversize := latch p.oversize }) s
  | .complete bs => packetEnd l bs s
  | .wentUp => mapPort l (fun p => { p with changed := s.time }) s
  | .wentDown => raise .linkDown (mapPort l (fun p => { p with changed := s.time }) s)

/-- A port's receiver has moved, with its events in order. -/
def portStep (l : Fin 8) (x : Receiver × List LineEvent) (s : State) : State :=
  x.2.foldl (portEvent l) (mapPort l (fun p => { p with rx := x.1 }) s)

/-- SENSOR_BLOCK: a port takes one block; while the initialising flag is set it is held DOWN and does not hunt (R1 to R7). -/
def execSensorBlock (link : Fin 8) (sync : BitVec 2) (payload : BitVec 64) (s : State) : Result :=
  if s.run.initialising then .next s
  else finish s (portStep link (s.ports[link].rx.take sync payload) s)

/-- SIGNAL_LOSS: an UP port becomes DOWN and LINK_DOWN is raised; a DOWN port stops hunting (R2, R3). -/
def execSignalLoss (link : Fin 8) (s : State) : Result := finish s (portStep link s.ports[link].rx.loseSignal s)

/-- SIGNAL_PRESENT: a DOWN port hunts again (R2). -/
def execSignalPresent (link : Fin 8) (s : State) : Result :=
  finish s (mapPort link (fun p => { p with rx := p.rx.findSignal }) s)

end Sys2Proof.Machine
end

