-- ==== Sys2Proof/Machine/Streams.lean ====
section
/-!
DEFINITION. The Stream Admission Unit (02): admission, outcomes, the misinsert limit, the cut timer, counters, the Aside Queue.
-/
namespace Sys2Proof.Machine

/-- A stream of the part changed. -/
def mapStream (i : Fin 16) (f : Stream → Stream) (s : State) : State :=
  { s with sau := { s.sau with streams := tweak s.sau.streams i f } }

/-- The place of a counter in the Stream Report (12.6). -/
def Counter.index : Counter → Fin 11
  | .received => 0
  | .placed => 1
  | .duplicate => 2
  | .late => 3
  | .misinserted => 4
  | .malformed => 5
  | .seekingDiscards => 6
  | .misrouted => 7
  | .idleDiscards => 8
  | .voidFrames => 9
  | .cutEvents => 10

/-- A stream's count. -/
def Stream.counter (x : Stream) (c : Counter) : BitVec 16 := x.counters[c.index]

/-- A counter raised by one, wrapping (R29). -/
def Stream.bump (x : Stream) (c : Counter) : Stream := { x with counters := tweak x.counters c.index (· + 1) }

/-- Counters of a stream raised in one step; a wrap is reported once (R29, R30). -/
def raiseCounters (i : Fin 16) (cs : List Counter) (s : State) : State :=
  let wraps := cs.any fun c => s.sau.streams[i].counter c == BitVec.allOnes 16
  let s' := mapStream i (fun x => cs.foldl Stream.bump x) s
  if wraps then raise .counterWrap { s' with sau := { s'.sau with lastWrapped := i } } else s'

/-- The expiry of a cut timer armed now (R28). -/
def cutExpiry (now : Time) (x : Stream) : Time := now + BitVec.ofNat 64 (1000 * x.config.cutTimeout)

/-- A stream in a new state: the time of the change, the misinsert count and the cut timer follow, and it has left the state it was in
(R22, R26, R27, R28, R36). -/
def Stream.enter (now : Time) (st : StreamState) (x : Stream) : Stream :=
  { x with
    state := st
    changed := if x.state = st then x.changed else now
    stay := if x.state = st then x.stay else x.stay + 1
    misinserts := if st = .cut then x.misinserts else 0
    timer := match st with
      | .seeking => some (cutExpiry now x)
      | .locked => x.timer
      | _ => none }

/-- A stream enters a state (R22). -/
def enterState (i : Fin 16) (st : StreamState) (s : State) : State := mapStream i (Stream.enter s.time st) s

/-- A stream that leaves LOCKED while RUNNING is reported to Frame Assembly (R63). -/
def reportExit (i : Fin 16) (s : State) : State :=
  if s.sau.streams[i].state = .locked && isRunning s then
    { s with wires := { s.wires with lockedExits := s.wires.lockedExits ++ [i] } }
  else s

/-- A stream enters a state other than LOCKED, and is reported if it leaves LOCKED. -/
def leaveFor (i : Fin 16) (st : StreamState) (s : State) : State := enterState i st (reportExit i s)

/-- The stream is the pace stream (03). -/
def isPace (i : Fin 16) (s : State) : Bool := s.fck.configured && s.fck.stream == i

/-- The enabled entry a tag matches (R23, R24). -/
def streamOfTag (tag : Nat) (s : State) : Option (Fin 16) :=
  (allFin 16).find? fun i => s.sau.streams[i].enabled && s.sau.streams[i].config.tag == tag

/-! ### The Aside Queue (2.8) -/

/-- The XM offset of the aside slot the next packet will try. -/
def asideSlot (a : Anchor) (s : State) : Nat := a.asideOffset + 2048 * s.sau.nextSlot

/-- The SAU turns to the packet at the head of its holding list: it reads the occupied word (R33, R34). -/
def beginAside (s : State) : State :=
  match s.run.anchor, s.sau.holding with
  | some a, _ :: _ =>
    placeSau (readAccesses .asideWord (asideSlot a s) 4) { s with sau := { s.sau with step := .reading } }
  | _, _ => s

/-- The aside overrun count rises by one, wrapping, and ASIDE_OVERRUN is raised (R33 to R35). -/
def asideOverrun (s : State) : State :=
  raise .asideOverrun { s with sau := { s.sau with overruns := s.sau.overruns + 1 } }

/-- A foreign packet joins the holding list, or is dropped when 4 are there (R33). -/
def joinAside (a : Arrival) (s : State) : State :=
  if Config.listRoom ≤ s.sau.holding.length then asideOverrun s
  else
    let s' := { s with sau := { s.sau with
      holding := s.sau.holding ++ [{ link := a.link, time := a.time, bytes := a.bytes }] } }
    if s.sau.step = .idle then beginAside s' else s'

/-- The packet at the head of the list leaves it and the next one is tried (R33). -/
def leaveAside (s : State) : State :=
  beginAside { s with sau := { s.sau with holding := s.sau.holding.tail, step := .idle } }

/-- The fields and packet of an aside slot after its occupied word (12.6). -/
def asideBody (p : AsidePacket) : List Byte :=
  leBytes 2 p.bytes.length ++ leBytes 1 p.link.val ++ zeros 1 ++ leBytes 8 p.time.toNat ++ p.bytes

/-- The word of the slot has been read (R34). -/
def asideWordRead (w : WordRead) (s : State) : State :=
  match w with
  | .clear =>
    match s.run.anchor, s.sau.holding with
    | some a, p :: _ =>
      let at' := asideSlot a s
      placeSau (writeAccesses .asideBody (at' + 4) (asideBody p) ++ writeAccesses .asideSeal at' (leBytes 4 1))
        { s with sau := { s.sau with step := .writing } }
    | _, _ => s
  | .set => leaveAside (asideOverrun s)
  | .failed => leaveAside (raise .memoryError (asideOverrun s))

/-- ASIDE_WORD_READ_DONE (R34). -/
def execAsideWordReadDone (s : State) : Result :=
  match s.wires.asideWord with
  | none => .next s
  | some w => finish s (asideWordRead w { s with wires := { s.wires with asideWord := none } })

/-- The next-slot index after one write (R34). -/
def advanceSlot (s : State) : State :=
  match s.run.anchor with
  | none => s
  | some a => { s with sau := { s.sau with nextSlot := if s.sau.nextSlot + 1 < a.asideCount then s.sau.nextSlot + 1 else 0 } }

/-- ASIDE_SLOT_WRITTEN: the occupied word of the slot has been written (R34). -/
def execAsideSlotWritten (s : State) : Result :=
  if s.wires.asideSealed then
    finish s (leaveAside (raise .asideArrival (advanceSlot { s with wires := { s.wires with asideSealed := false } })))
  else .next s

/-! ### Admission (2.4) -/

/-- A foreign packet (R23). -/
def foreignPacket (a : Arrival) (s : State) : State :=
  if s.sau.asideFlags[a.link] && s.run.anchor.isSome then joinAside a s
  else mapPort a.link (fun p => { p with foreign := latch p.foreign }) s

/-- A segment goes to Frame Assembly with the state it was handed over in, and the stream's stay in it (R25). -/
def handOver (i : Fin 16) (fromLocked : Bool) (seg : Option Segment) (s : State) : State :=
  { s with wires := { s.wires with
      handed := s.wires.handed
        ++ [{ stream := i, fromLocked := fromLocked, stay := s.sau.streams[i].stay, segment := seg }] } }

/-- A received segment in SEEKING (R25). -/
def seekingSegment (i : Fin 16) (seg : Option Segment) (s : State) : State :=
  match seg with
  | some g => if g.index = 0 then handOver i false seg s else raiseCounters i [.received, .seekingDiscards] s
  | none => raiseCounters i [.received, .seekingDiscards] s

/-- A received segment by its stream's state (R25), its cut timer restarted (R28). -/
def receivedSegment (i : Fin 16) (seg : Option Segment) (s : State) : State :=
  let s' := mapStream i (fun x => { x with timer := some (cutExpiry s.time x) }) s
  match s.sau.streams[i].state with
  | .locked => handOver i true seg s'
  | .seeking => seekingSegment i seg s'
  | .cut => seekingSegment i seg (enterState i .seeking s')
  | _ => s

/-- A slope segment whose tag matches an enabled entry (R24). -/
def admitSegment (i : Fin 16) (link : Fin 8) (seg : Option Segment) (s : State) : State :=
  if s.sau.streams[i].config.link ≠ link.val then raiseCounters i [.misrouted] s
  else if !isRunning s then raiseCounters i [.idleDiscards] s
  else receivedSegment i seg s

/-- One arrival at the SAU (R23, R24). -/
def admitArrival (a : Arrival) (s : State) : State :=
  match a.kind with
  | .nonSegment => foreignPacket a s
  | .segment g =>
    match streamOfTag g.tag s with
    | none => foreignPacket a s
    | some i => admitSegment i a.link (some g) s
  | .shapeFault tag =>
    match streamOfTag tag s with
    | none => foreignPacket a s
    | some i => admitSegment i a.link none s

/-- PACKET_ADMISSION: the SAU takes the oldest packet a port has handed on (2.4). -/
def execPacketAdmission (link : Fin 8) (s : State) : Result :=
  match takeFirst (fun a => a.link == link) s.wires.arrivals with
  | none => .next s
  | some (a, rest) => finish s (admitArrival a { s with wires := { s.wires with arrivals := rest } })

/-! ### Outcomes (R26, R27) -/

/-- The counter of an outcome (R26). -/
def Judgement.counter : Judgement → Counter
  | .placed => .placed
  | .duplicate => .duplicate
  | .late => .late
  | .misinserted => .misinserted
  | .malformed => .malformed

/-- A stream's consecutive misinsert count set. -/
def setMisinserts (i : Fin 16) (n : Nat) (s : State) : State := mapStream i (fun x => { x with misinserts := n }) s

/-- A second consecutive misinserted outcome (R27): the pace stream is reported to the Frame Clock, and its count stays at 2 while
the confirmation is awaited (log 23); any other stream seeks. -/
def secondMisinsert (i : Fin 16) (s : State) : State :=
  if isPace i s then
    let s' := mapStream i (fun x => { x with misinserts := 2, awaiting := true }) s
    { s' with wires := { s'.wires with misinserts := s'.wires.misinserts ++ [i] } }
  else leaveFor i .seeking s

/-- The stream is still in the state in which the segment of an outcome was handed over (R26): one that has left that state in the
meantime is not, even where it is in it again. -/
def Stream.stays (x : Stream) (r : Returned) : Bool :=
  x.state == (if r.fromLocked then .locked else .seeking) && x.stay == r.stay

/-- The state change an outcome calls for, if the stream is still in the state its segment was handed over in (R26, R27). While the Frame
Clock's confirmation is awaited, nothing moves the count and no report follows, whatever the stream has gone through since (R27). -/
def outcomeMove (r : Returned) (s : State) : State :=
  let x := s.sau.streams[r.stream]
  if !x.stays r then s
  else if r.fromLocked then
    if x.awaiting then s
    else if r.judgement = .misinserted then
      if x.misinserts = 0 then setMisinserts r.stream 1 s else secondMisinsert r.stream s
    else setMisinserts r.stream 0 s
  else if r.judgement = .placed then enterState r.stream .locked s
  else s

/-- A placed outcome of the pace stream is passed to the Frame Clock with its frame number (R26, R41). -/
def passToClock (r : Returned) (s : State) : State :=
  if r.judgement = .placed && isPace r.stream s then
    { s with wires := { s.wires with paceReports := s.wires.paceReports ++ [r.frame] } }
  else s

/-- The SAU takes an outcome (R26). -/
def takeReturned (r : Returned) (s : State) : State :=
  passToClock r (outcomeMove r (raiseCounters r.stream [.received, r.judgement.counter] s))

/-- SEGMENT_OUTCOME: the SAU takes the oldest outcome of a stream (R26). -/
def execSegmentOutcome (stream : Fin 16) (s : State) : Result :=
  match takeFirst (fun r => r.stream == stream) s.wires.returned with
  | none => .next s
  | some (r, rest) => finish s (takeReturned r { s with wires := { s.wires with returned := rest } })

/-! ### The cut timer (R28) -/

/-- A stream is cut (R28). -/
def cutStream (i : Fin 16) (s : State) : State :=
  raise .streamCut (raiseCounters i [.cutEvents] (leaveFor i .cut s))

/-- CUT_TIMER_EXPIRY: the timer of a SEEKING or LOCKED stream expires once the time base has reached its expiry (R28). -/
def execCutTimerExpiry (stream : Fin 16) (s : State) : Result :=
  match s.sau.streams[stream].timer with
  | some e => if Time.reached s.time e then finish s (cutStream stream s) else .next s
  | none => .next s

/-- The Frame Clock's confirmation of a reframe at the SAU: it is awaited no more, and a stream that is LOCKED now seeks (R27, R49). That one
which has left LOCKED meanwhile and is in it again is "still LOCKED" is the model's reading (log 38). -/
def reframeDone (i : Fin 16) (s : State) : State :=
  let s' := mapStream i (fun x => { x with awaiting := false }) s
  if s.sau.streams[i].state = .locked then leaveFor i .seeking s' else s'

end Sys2Proof.Machine
end

