-- ==== Sys2Proof/Machine/Clock.lean ====
section
/-!
DEFINITION. The Frame Clock (03): frame starts, the pace states, the flywheel, the reframe.
-/
namespace Sys2Proof.Machine

/-- Microseconds as a span of the time base. -/
def micros (n : Nat) : Time := BitVec.ofNat 64 n

/-- A frame start event is issued and last started becomes its frame (R40). -/
def issueStart (f : Frame) (s : State) : State :=
  { s with
    fck := { s.fck with lastStarted := some f }
    wires := { s.wires with
      frameStarts := s.wires.frameStarts ++ [{ frame := f, time := s.time, deadline := s.fck.deadline }] } }

/-- The flywheel is armed for period plus margin from now (R43). -/
def armPaced (s : State) : State :=
  { s with fck := { s.fck with flywheel := some (s.time + micros (s.fck.period + s.fck.margin)) } }

/-- The pace state. -/
def setPaceState (p : PaceState) (s : State) : State := { s with fck := { s.fck with pace := p } }

/-- A frame number the clock has not started: newer than last started, or last started none (R42, R46). -/
def startsFrame (f : Frame) (s : State) : Bool :=
  match s.fck.lastStarted with
  | none => true
  | some l => Frame.newer f l

/-- The Frame Clock takes a pace report while RUNNING (R42, R46). -/
def takePace (f : Frame) (s : State) : State :=
  match s.fck.pace, startsFrame f s with
  | .paced, true => armPaced (issueStart f s)
  | .paced, false => s
  | .coasting, true => setPaceState .paced (armPaced (issueStart f s))
  | .coasting, false => setPaceState .paced (armPaced s)

/-- PACE_REPORT: the oldest report; one that arrives while the part is not RUNNING is ignored (R41). -/
def execPaceReport (s : State) : Result :=
  match s.wires.paceReports with
  | [] => .next s
  | f :: rest =>
    let s' := { s with wires := { s.wires with paceReports := rest } }
    finish s (if isRunning s then takePace f s' else s')

/-- The flywheel expires: the next frame is started and the flywheel is re-armed for one period from the expiry (R43 to R45). -/
def expireFlywheel (e : Time) (l : Frame) (s : State) : State :=
  let s' := issueStart (l + 1) { s with fck := { s.fck with flywheel := some (e + micros s.fck.period) } }
  match s.fck.pace with
  | .paced => raise .paceLost (setPaceState .coasting s')
  | .coasting => s'

/-- FLYWHEEL_EXPIRY: the timer expires once the time base has reached its expiry (R43 to R45). -/
def execFlywheelExpiry (s : State) : Result :=
  match s.fck.flywheel, s.fck.lastStarted with
  | some e, some l =>
    if isRunning s && Time.reached s.time e then finish s (expireFlywheel e l s) else .next s
  | _, _ => .next s

/-- The Frame Clock begins a reframe (R48). The reframe count wraps to 0, which R48 leaves open (log 42). -/
def beginReframe (s : State) : State :=
  raise .reframe
    { s with
      fck := { s.fck with
        lastStarted := none, pace := .coasting, flywheel := none, reframing := true, reframes := s.fck.reframes + 1 }
      wires := { s.wires with reframeRequest := true } }

/-- MISINSERT_REPORT: a reframe begins, or the report is confirmed at once when the part is not RUNNING or a reframe is in
progress (R48, R49). -/
def execMisinsertReport (s : State) : Result :=
  match s.wires.misinserts with
  | [] => .next s
  | i :: rest =>
    let s' := { s with wires := { s.wires with misinserts := rest } }
    finish s (if !isRunning s || s.fck.reframing then reframeDone i s' else beginReframe s')

/-- REFRAME_CONFIRMATION: the reframe is over and the SAU moves the pace stream to SEEKING (R49). -/
def execReframeConfirmation (s : State) : Result :=
  if s.wires.reframeConfirmed then
    finish s
      (reframeDone s.fck.stream
        { s with fck := { s.fck with reframing := false }, wires := { s.wires with reframeConfirmed := false } })
  else .next s

end Sys2Proof.Machine
end

