-- ==== Sys2Proof/Machine/Assembly.lean ====
section
/-!
DEFINITION. Frame Assembly (04): placement, frame starts, completion, closing, dispatch, reading with substitution, release,
reframe.
-/
namespace Sys2Proof.Machine

/-! ### The Frame Table (4.1) -/

/-- A Frame Table record changed. -/
def mapRecord (r : Fin 4) (f : Record → Record) (s : State) : State :=
  { s with fau := { s.fau with records := tweak s.fau.records r f } }

/-- The records in a state. -/
def recordsIn (p : RecordState → Bool) (s : State) : List (Fin 4) := (allFin 4).filter fun r => p s.fau.records[r].state

/-- OPEN or CLOSED. -/
def RecordState.waits : RecordState → Bool
  | .opened => true
  | .closed => true
  | _ => false

/-- The record that carries a frame number, if one that is not FREE does (R51). -/
def recordOf (f : Frame) (s : State) : Option (Fin 4) :=
  (allFin 4).find? fun r => s.fau.records[r].state != .free && s.fau.records[r].frame == f

/-- The place of a record after the ordering base (R52). -/
def placeOf (r : Fin 4) (s : State) : Nat := Frame.ahead s.fau.records[r].frame (s.fau.base.getD 0)

/-- Of two records the one with the larger place. -/
def newest (s : State) : List (Fin 4) → Option (Fin 4)
  | [] => none
  | r :: rs =>
    match newest s rs with
    | none => some r
    | some q => if placeOf r s < placeOf q s then some q else some r

/-- Of two records the one with the smaller place. -/
def oldest (s : State) : List (Fin 4) → Option (Fin 4)
  | [] => none
  | r :: rs =>
    match oldest s rs with
    | none => some r
    | some q => if placeOf q s < placeOf r s then some q else some r

/-- A record becomes FREE, loses its fields, and is reported to the Directive Unit (R51, R74). -/
def freeRecord (r : Fin 4) (s : State) : State :=
  let s' := mapRecord r (fun _ => {}) s
  { s' with wires := { s'.wires with recordsFreed := s'.wires.recordsFreed ++ [r] } }

/-! ### Dispatch (4.6) -/

/-- The engine is IDLE as Frame Assembly has it: no frame dispatched to it, and its IDLE report taken (R66). -/
def engineIdleAtFau (s : State) : Bool :=
  s.rce.state == .idle && s.wires.handover.isNone && !s.wires.idleToFau

/-- What a record hands to the engine (R68). -/
def handoverOf (r : Fin 4) (x : Record) : Handover where
  record := r
  frame := x.frame
  started := x.started.getD 0
  closed := x.closeTime.getD 0
  cause := x.cause.getD .complete
  void := x.void
  voidCounts := x.voidCounts

/-- Records freed one after another, each counted. -/
def freeAll (count : State → State) (rs : List (Fin 4)) (s : State) : State :=
  rs.foldl (fun s r => count (freeRecord r s)) s

/-- The skipped total rises (R74). -/
def countSkipped (s : State) : State := { s with fau := { s.fau with skipped := s.fau.skipped + 1 } }

/-- The abandoned total rises (R74). -/
def countAbandoned (s : State) : State := { s with fau := { s.fau with abandoned := s.fau.abandoned + 1 } }

/-- A dispatch of the newest CLOSED record (R67, R68). -/
def dispatch (r : Fin 4) (s : State) : State :=
  let x := s.fau.records[r]
  let skipped := (recordsIn (· == .closed) s).filter fun q => q != r
  let stale := (recordsIn (· == .opened) s).filter fun q => !Frame.newerBy Config.openAhead s.fau.records[q].frame x.frame
  let s1 := mapRecord r (fun y => { y with state := .dispatched }) s
  let s2 := freeAll countAbandoned stale (freeAll countSkipped skipped s1)
  { s2 with
    fau := { s2.fau with
      lastDispatched := some x.frame
      base := some x.frame
      dispatched := s2.fau.dispatched + 1
      voided := if x.void then s2.fau.voided + 1 else s2.fau.voided }
    wires := { s2.wires with handover := some (handoverOf r x) } }

/-- The dispatch check (R66). -/
def dispatchCheck (s : State) : State :=
  if engineIdleAtFau s then
    match newest s (recordsIn (· == .closed) s) with
    | some r => dispatch r s
    | none => s
  else s

/-! ### Closing a frame (4.5) -/

/-- The stream map entry of an enabled stream (R64 step 2). -/
def mapEntry (x : Stream) : Option MapEntry :=
  if x.enabled then
    some { base := x.config.base, count := x.config.count, substitution := x.config.substitution
           mandatory := x.config.mandatory, allowance := x.config.allowance, locked := x.state == .locked }
  else none

/-- A position lies in a stream's range. -/
def MapEntry.holds (m : MapEntry) (p : Nat) : Bool := m.base ≤ p && p < m.base + m.count

/-- A stream map. -/
abbrev StreamMap := Vector (Option MapEntry) 16

/-- The entry of a stream map whose range holds a position. -/
def StreamMap.at? (m : StreamMap) (p : Nat) : Option MapEntry :=
  (m.toList.filterMap id).find? fun x => x.holds p

/-- A position is kept at the close: it lies in the range of an enabled LOCKED stream (R64 step 3). -/
def keptAtClose (m : StreamMap) (p : Nat) : Bool := (m.toList.filterMap id).any fun x => x.locked && x.holds p

/-- Positions of a range that are absent or hold the void code (R64 step 4). -/
def voidCount (slopes : Store Int) (m : MapEntry) : Nat :=
  m.count - (slopes.filter fun e => m.holds e.1 && e.2 != Config.voidCode).length

/-- A record as it closes (R64, R65). -/
def Record.close (cause : CloseCause) (now : Time) (streams : Vector Stream 16) (x : Record) : Record :=
  let m : StreamMap := streams.map mapEntry
  let slopes := x.slopes.filter fun e => keptAtClose m e.1
  let counts : Vector Nat 16 := m.map fun e => (e.map (voidCount slopes)).getD 0
  { x with
    state := .closed
    deadline := none
    cause := some cause
    closeTime := some now
    streamMap := m
    slopes := slopes
    voidCounts := counts
    void := (m.toList.filterMap id).any fun e => e.mandatory && e.allowance < voidCount slopes e }

/-- At a close each enabled stream whose void count exceeds its allowance counts a void frame (R31, R65). The manual gives no order; the
model counts in rising stream number, so that of several that wrap the highest is the last wrapped stream (R30, log 40). -/
def countVoidFrames (s : State) (x : Record) : State :=
  (allFin 16).foldl
    (fun s i =>
      match x.streamMap[i] with
      | some e => if e.allowance < x.voidCounts[i] then raiseCounters i [.voidFrames] s else s
      | none => s) s

/-- A record closes, and the dispatch check follows (R64 to R66). -/
def closeRecord (r : Fin 4) (cause : CloseCause) (s : State) : State :=
  let s' := mapRecord r (Record.close cause s.time s.sau.streams) s
  dispatchCheck (countVoidFrames s' s'.fau.records[r])

/-! ### Completion (4.4) -/

/-- The received set holds every index of a stream (R62). -/
def hasAll (received : List Nat) (n : Nat) : Bool := (List.range n).all fun i => received.contains i

/-- The condition of R62. -/
def complete (x : Record) (streams : Vector Stream 16) : Bool :=
  x.state == .opened && x.started.isSome
    && (allFin 16).any (fun i => streams[i].state == .locked)
    && (allFin 16).all fun i => streams[i].state != .locked || hasAll x.received[i] streams[i].config.segments

/-- The completion check of a record (R62). -/
def completionCheck (r : Fin 4) (s : State) : State :=
  if complete s.fau.records[r] s.sau.streams then closeRecord r .complete s else s

/-! ### Opening and placing (4.2) -/

/-- A record is evicted (R58). -/
def evict (r : Fin 4) (s : State) : State :=
  let s' := freeRecord r s
  raise .frameOverrun { s' with fau := { s'.fau with overrun := s'.fau.overrun + 1 } }

/-- Room for a record: with no FREE record the oldest OPEN or CLOSED one is evicted (R58). -/
def makeRoom (s : State) : State :=
  if (recordsIn (· == .free) s).isEmpty then
    match oldest s (recordsIn RecordState.waits s) with
    | some r => evict r s
    | none => s
  else s

/-- The lowest-numbered FREE record is opened for a frame, and with no ordering base the base is one below it (R51, R52). -/
def openRecord (f : Frame) (s : State) : Option (Fin 4) × State :=
  let s1 := makeRoom s
  match recordsIn (· == .free) s1 with
  | [] => (none, s1)
  | r :: _ =>
    let s2 := mapRecord r (fun _ => { state := .opened, frame := f }) s1
    (some r, { s2 with fau := { s2.fau with base := some (s2.fau.base.getD (f - 1)) } })

/-- The values a segment writes: the void code where the sensor has disowned them (R12, R55). -/
def Segment.values (g : Segment) : List Int :=
  if g.invalid then g.slopes.map fun _ => Config.voidCode else g.slopes

/-- The slope buffer after values are written from a position on: an absent position is an unlisted one. -/
def placeValues : Store Int → Nat → List Int → Store Int
  | m, _, [] => m
  | m, p, v :: vs => placeValues (Store.insert m p v) (p + 1) vs

/-- A segment is placed in a record (R55). -/
def Record.place (i : Fin 16) (base : Nat) (g : Segment) (x : Record) : Record :=
  { x with
    slopes := placeValues x.slopes (base + g.first) g.values
    received := tweak x.received i (addToSet g.index) }

/-- A segment is malformed (R53). -/
def malformedSegment (c : StreamConfig) (g : Segment) : Bool :=
  g.count != c.segments || c.segments ≤ g.index || c.count < g.first + g.slopes.length

/-- In RUNNING, a segment not newer than the last dispatched frame is late (R54). -/
def notNewer (f : Frame) (s : State) : Bool :=
  match s.fau.lastDispatched with
  | none => false
  | some l => !Frame.newer f l

/-- The frame is within the open-ahead limit, or no frame has been dispatched (R56). -/
def mayOpen (f : Frame) (s : State) : Bool :=
  match s.fau.lastDispatched with
  | none => true
  | some l => Frame.newerBy Config.openAhead f l

/-- A well-shaped segment is judged and acted on (R53 to R57). -/
def judgeSegment (i : Fin 16) (g : Segment) (s : State) : Judgement × State :=
  let c := s.sau.streams[i].config
  if malformedSegment c g then (.malformed, s)
  else if !isRunning s || notNewer g.frame s then (.late, s)
  else
    match recordOf g.frame s with
    | some r =>
      if s.fau.records[r].state ≠ .opened then (.late, s)
      else if s.fau.records[r].received[i].contains g.index then (.duplicate, s)
      else
        let s' := mapRecord r (Record.place i c.base g) s
        (.placed, if s.fau.records[r].started.isSome then completionCheck r s' else s')
    | none =>
      if mayOpen g.frame s then
        match openRecord g.frame s with
        | (some r, s') => (.placed, mapRecord r (Record.place i c.base g) s')
        | (none, s') => (.misinserted, s')
      else (.misinserted, s)

/-- Frame Assembly takes a handed-over segment and returns its outcome after acting on it (R53, R59). -/
def placeHanded (h : Handed) (s : State) : State :=
  let x : Judgement × Frame × State :=
    match h.segment with
    | none => (.malformed, 0, s)
    | some g => ((judgeSegment h.stream g s).1, g.frame, (judgeSegment h.stream g s).2)
  let s' := x.2.2
  { s' with wires := { s'.wires with
      returned := s'.wires.returned ++
        [{ stream := h.stream, fromLocked := h.fromLocked, stay := h.stay, judgement := x.1, frame := x.2.1 }] } }

/-- SEGMENT_PLACEMENT: Frame Assembly takes the oldest handed-over segment of a stream (4.2). -/
def execSegmentPlacement (stream : Fin 16) (s : State) : Result :=
  match takeFirst (fun h => h.stream == stream) s.wires.handed with
  | none => .next s
  | some (h, rest) => finish s (placeHanded h { s with wires := { s.wires with handed := rest } })

/-! ### Frame starts and deadlines (4.3) -/

/-- A record is started; the completion check follows at once, and then an expiry already past (R60, R61). -/
def startRecord (r : Fin 4) (e : FrameStart) (s : State) : State :=
  let expiry := e.time + micros e.deadline
  let s1 := mapRecord r (fun x => { x with started := some e.time, deadline := some expiry }) s
  let s2 := completionCheck r s1
  if s2.fau.records[r].state = .opened && s2.fau.records[r].deadline = some expiry && Time.reached s2.time expiry then
    closeRecord r .deadline s2
  else s2

/-- Frame Assembly takes a frame start event (R60). -/
def takeStart (e : FrameStart) (s : State) : State :=
  if !isRunning s || notNewer e.frame s then s
  else
    match recordOf e.frame s with
    | some r =>
      if s.fau.records[r].state = .opened && s.fau.records[r].started.isNone then startRecord r e s else s
    | none =>
      if mayOpen e.frame s then
        match openRecord e.frame s with
        | (some r, s') => startRecord r e s'
        | (none, s') => s'
      else s

/-- FRAME_START_TAKE: the oldest frame start event (R60). -/
def execFrameStartTake (s : State) : Result :=
  match s.wires.frameStarts with
  | [] => .next s
  | e :: rest => finish s (takeStart e { s with wires := { s.wires with frameStarts := rest } })

/-- DEADLINE_EXPIRY: a started OPEN record closes DEADLINE once the time base has reached its expiry (R61). -/
def execDeadlineExpiry (record : Fin 4) (s : State) : Result :=
  match s.fau.records[record].deadline with
  | some e =>
    if s.fau.records[record].state = .opened && Time.reached s.time e then finish s (closeRecord record .deadline s)
    else .next s
  | none => .next s

/-- Every record is checked for completion, in an order of the sender's (R63, log 34). -/
def checkAll (order : List (Fin 4)) (s : State) : State := (order ++ allFin 4).foldl (fun s r => completionCheck r s) s

/-- LOCKED_EXIT_REPORT: the oldest report that a stream has left LOCKED (R63). -/
def execLockedExitReport (order : List (Fin 4)) (s : State) : Result :=
  match s.wires.lockedExits with
  | [] => .next s
  | _ :: rest => finish s (checkAll order { s with wires := { s.wires with lockedExits := rest } })

/-- ENGINE_IDLE_REPORT: Frame Assembly takes the engine's IDLE report and dispatches if a record is CLOSED (R66). -/
def execEngineIdleReport (s : State) : Result :=
  if s.wires.idleToFau then finish s (dispatchCheck { s with wires := { s.wires with idleToFau := false } })
  else .next s

/-! ### Reading and release (4.7) -/

/-- Frame Assembly's answer for a position (R69). -/
inductive SlopeAnswer where
  | slope (v : Int)
  | lastGood (v : Int)
  | residualZero
  deriving DecidableEq, Repr

/-- The answer for a position of a dispatched record (R69). -/
def answer (x : Record) (lastGood : Store Int) (p : Nat) : SlopeAnswer :=
  let substitute : SlopeAnswer :=
    match StreamMap.at? x.streamMap p with
    | none => .residualZero
    | some e =>
      match e.substitution with
      | .zero => .residualZero
      | .last => .lastGood (Store.read 0 lastGood p)
  match Store.find? x.slopes p with
  | some v => if v = Config.voidCode then substitute else .slope v
  | none => substitute

/-- The Last-Good Slope Store after a release: good positions of the record, every other position as it was (R70). -/
def learn (slopes : Store Int) (lastGood : Store Int) : Store Int :=
  slopes.foldl (fun m e => if e.2 = Config.voidCode then m else Store.write 0 m e.1 e.2) lastGood

/-- The DISPATCHED record is released (R70). -/
def release (r : Fin 4) (s : State) : State :=
  if s.fau.records[r].state = .dispatched then
    freeRecord r { s with fau := { s.fau with lastGood := learn s.fau.records[r].slopes s.fau.lastGood } }
  else s

/-! ### Reframe and Stop (4.8) -/

/-- Every OPEN and CLOSED record becomes FREE and is counted abandoned (R71, R72). -/
def abandonWaiting (s : State) : State := freeAll countAbandoned (recordsIn RecordState.waits s) s

/-- REFRAME_REQUEST: Frame Assembly carries out the reframe and confirms it (R71). -/
def execReframeRequest (s : State) : Result :=
  if s.wires.reframeRequest then
    let s' := abandonWaiting { s with wires := { s.wires with reframeRequest := false } }
    finish s
      { s' with
        fau := { s'.fau with lastDispatched := none, base := none }
        wires := { s'.wires with reframeConfirmed := true } }
  else .next s

end Sys2Proof.Machine
end

