-- ==== Sys2Proof/WellFormed.lean ====
section
/-!
DEFINITION. Which commands spell a step of the part: the register rows are the writes their row names, a window access lies in
the window, and an operand that orders records or actuators names each once.
-/
namespace Sys2Proof

/-- The register offsets a whole write of which has a row of its own: RUN, ATTENTION, ATTENTION_MASK (12.7). -/
def ownRegister (offset : Nat) : Bool := offset == 4 || offset == 8 || offset == 12

/-- A register write whose effect R181 calls "discarded": inside the page, at most a word, and no whole write of
RUN, ATTENTION or ATTENTION_MASK. That a wider write is no well-formed command is the model's choice (log 45). -/
def isOtherWrite (offset : Nat) (bytes : List Byte) : Bool :=
  0 < bytes.length && bytes.length ≤ 4 && offset + bytes.length ≤ 4096
    && !(ownRegister offset && bytes.length == 4)

/-- An access that lies wholly within the 2 GiB window (R172). -/
def inWindow (offset length : Nat) : Bool := 0 < length && offset + length ≤ Config.xmBytes

/-- The checks on a command. -/
def Instr.wellFormed : Instr → Bool
  | .unknownCommand v => v ≠ 1 && v ≠ 2 && v ≠ 3 && v ≠ 4
  | .registerWriteOther offset bytes => isOtherWrite offset bytes
  | .hostXmRead offset length => inWindow offset length
  | .hostXmWrite offset bytes => inWindow offset bytes.length
  | .lockedExitReport order => order.length == 4 && order.Nodup
  | .frameCompletion late => late.Nodup
  | _ => true

end Sys2Proof
end

