-- ==== Sys2Proof/Machine/Memory.lean ====
section
/-!
DEFINITION. The Exchange Memory window, the memory arbiter, ECC and the Range Watch (R90, R91, R105, R172 to R174).
-/
namespace Sys2Proof.Machine

/-! ### Taint reports (R105) -/

/-- A column block joins the frame's void block set, and its waiting reads are withdrawn (R100). -/
def FrameContext.voidColumn (c : Nat) (f : FrameContext) : FrameContext :=
  let plan := f.plan.filter fun k => keyColumn k != c
  { f with
    voidBlocks := addToSet c f.voidBlocks
    plan := plan
    cursor := if plan.head? = f.plan.head? then f.cursor else 0 }

/-- The frame context changed, when there is one. -/
def mapFrame (g : FrameContext → FrameContext) (s : State) : State :=
  { s with rce := { s.rce with frame := s.rce.frame.map g } }

/-- The descriptor's last read of the frame is not yet granted (R105). -/
def notYetRead (key : Nat) (s : State) : Bool :=
  match s.rce.frame with
  | some f => f.plan.contains key
  | none => false

/-- The engine takes a Range Watch report (R105). -/
def takeTaint (t : TaintReport) (s : State) : State :=
  if s.rce.state = .streaming && s.rce.inUse = some t.slot && notYetRead t.key s then
    mapFrame (FrameContext.voidColumn (keyColumn t.key)) s
  else s

/-- The engine takes every report still on its way: a report reaches it before any read granted after the write (R105). -/
def takeTaints (s : State) : State :=
  let s' := s.wires.taints.foldl (fun s t => takeTaint t s) s
  { s' with wires := { s'.wires with taints := [] } }

/-! ### ECC (R173, log 6) -/

/-- The standing error of a granule after a new cell error is met: an error never becomes milder by itself. -/
def worse (old : Option EccMark) (met : CellError) : Option EccMark :=
  match met, old with
  | .none, o => o
  | .correctable, some .uncorrectable => some .uncorrectable
  | .correctable, _ => some .corrected
  | .uncorrectable, _ => some .uncorrectable

/-- A granule meets a cell error. -/
def meetError (met : CellError) (g : Nat) (s : State) : State :=
  match worse (Store.find? s.ecc g) met with
  | none => s
  | some m => { s with ecc := Store.insert s.ecc g m }

/-- The corrected ECC count rises by one, wrapping (R173). -/
def countCorrected (s : State) : State := { s with corrected := s.corrected + 1 }

/-- A granule read: its bytes, or none for an uncorrectable error (R173). -/
def readGranule (a : Access) (s : State) : Option (List Byte) × State :=
  let bs := readBytes s (32 * a.granule + a.lo) a.len
  match Store.find? s.ecc a.granule with
  | none => (some bs, s)
  | some .corrected => (some bs, countCorrected s)
  | some .uncorrectable => (none, s)

/-- The bytes of a write reach the granule, which has new ECC (R173). -/
def storeGranule (a : Access) (bs : List Byte) (s : State) : State :=
  writeBytes { s with ecc := Store.erase s.ecc a.granule } (32 * a.granule + a.lo) bs

/-- A granule write: whole, or read and merged, or discarded on an uncorrectable error (R173). -/
def writeGranule (a : Access) (bs : List Byte) (s : State) : State :=
  if a.len = 32 then storeGranule a bs s
  else
    match Store.find? s.ecc a.granule with
    | none => storeGranule a bs s
    | some .corrected => storeGranule a bs (countCorrected s)
    | some .uncorrectable => raise .memoryError s

/-! ### The Range Watch (R91) -/

/-- The descriptors of an edition whose tile lies in a granule are tainted. -/
def Edition.taint (t : Nat) (e : Edition) : Edition :=
  { e with directory := e.directory.map fun d =>
      (d.1, if watchGranule d.2.address = t then { d.2 with taint := true } else d.2) }

/-- The keys of an edition's descriptors whose tile lies in a granule. -/
def Edition.keysIn (t : Nat) (e : Edition) : List Nat :=
  (e.directory.filter fun d => watchGranule d.2.address == t).map Prod.fst

/-- A watched slot's descriptors in a granule are tainted. -/
def Slot.taint (t : Nat) : Slot → Slot
  | .current e => .current (e.taint t)
  | .retained e => .retained (e.taint t)
  | x => x

/-- The Range Watch reports of a slot for a granule. -/
def taintReports (i : SlotId) (t : Nat) (x : Slot) : List TaintReport :=
  match x.watched with
  | some e => (e.keysIn t).map fun k => { slot := i, key := k }
  | none => []

/-- A granted host write is compared with the Range Watch map (R91): a write into a referenced granule taints and raises
LIVE_WRITE. A tile granule holds 1,024 ECC granules. -/
def watchWrite (granule : Nat) (s : State) : State :=
  let t := watchGranule (32 * granule)
  match Store.find? s.watch t with
  | none => s
  | some _ =>
    raise .liveWrite
      { s with
        rce := { s.rce with slotA := s.rce.slotA.taint t, slotB := s.rce.slotB.taint t }
        wires := { s.wires with
          taints := s.wires.taints ++ taintReports .a t s.rce.slotA ++ taintReports .b t s.rce.slotB } }

/-! ### What a grant brings to its claimant -/

/-- A read in progress takes a granule's bytes. -/
def ReadJob.take (bs : List Byte) (j : ReadJob) : ReadJob := { j with left := j.left - 1, bytes := j.bytes ++ bs }

/-- A read in progress meets an uncorrectable error. `ends` when its remaining granules are withdrawn: loads, vectors and copies end at the
first such error (R82, R117, R124, R126, R137, log 25); the anchor and slot reads run on and are judged whole (R152, R175). -/
def ReadJob.fail (g : Nat) (ends : Bool) (j : ReadJob) : ReadJob :=
  { j with left := if ends then 0 else j.left - 1, failed := some (j.failed.getD (32 * g)) }

/-- The DU's read in progress, changed when it is of this purpose. -/
def mapDuJob (p : Purpose) (f : ReadJob → ReadJob) (s : State) : State :=
  { s with du := { s.du with job := s.du.job.map fun j => if j.purpose = p then f j else j } }

/-- The probe copy's read in progress changed. -/
def mapCopyJob (f : ReadJob → ReadJob) (s : State) : State :=
  { s with pru := { s.pru with job := s.pru.job.map f } }

/-- The host is returned the bytes of one granule, and with the last the reply is whole (R172). -/
def hostReturn (last : Bool) (bs : List Byte) (s : State) : State :=
  let all := s.host.partialRead ++ bs
  if last then { s with host := { partialRead := [], replies := s.host.replies ++ [all] } }
  else { s with host := { s.host with partialRead := all } }

/-- The bytes of a granted read reach the block that placed it. -/
def deliver (a : Access) (bs : List Byte) (s : State) : State :=
  match a.purpose with
  | .anchor | .slot | .load | .vector => mapDuJob a.purpose (ReadJob.take bs) s
  | .copy => mapCopyJob (ReadJob.take bs) s
  | .asideWord => { s with wires := { s.wires with asideWord := some (if bs.all (· == 0) then .clear else .set) } }
  | .hostRead last => hostReturn last bs s
  | _ => s

/-- An uncorrectable error on a granted read reaches the block that placed it (R173). A slot read that STOP has left in flight has no reader
any more (R160): that its error raises nothing is the model's choice (log 50). -/
def deliverError (a : Access) (s : State) : State :=
  match a.purpose with
  | .anchor | .slot => mapDuJob a.purpose (ReadJob.fail a.granule false) s
  | .load | .vector => withdrawDu (· == a.purpose) (mapDuJob a.purpose (ReadJob.fail a.granule true) s)
  | .copy => withdrawDu (· == .copy) (mapCopyJob (ReadJob.fail a.granule true) s)
  | .asideWord => { s with wires := { s.wires with asideWord := some .failed } }
  | .hostRead last => hostReturn last (List.replicate a.len 0xFF) (raise .memoryError s)
  | _ => s

/-- What a performed (or discarded) write brings about (R154, R34, R91, R167, R173). -/
def written (a : Access) (s : State) : State :=
  match a.purpose with
  | .hostWrite => watchWrite a.granule s
  | .outcome [] => s
  | .outcome ts => { s with wires := { s.wires with outcomesWritten := s.wires.outcomesWritten ++ [ts] } }
  | .asideSeal => { s with wires := { s.wires with asideSealed := true } }
  | .snapshotSeal => sealSnapshot s
  | _ => s

/-- One granule access is performed. -/
def perform (a : Access) (s : State) : State :=
  match a.data with
  | none =>
    match readGranule a s with
    | (some bs, s') => deliver a bs s'
    | (none, s') => deliverError a s'
  | some bs => written a (writeGranule a bs s)

/-! ### The arbiter (R174) -/

/-- The accesses a rotation claimant has waiting. -/
def Arbiter.waiting (r : Arbiter) : Claimant → List Access
  | .du => r.du
  | .rpu => r.rpu
  | .sau => r.sau
  | .host => r.host

/-- A rotation claimant's waiting accesses replaced. -/
def Arbiter.setWaiting (r : Arbiter) (c : Claimant) (as : List Access) : Arbiter :=
  match c with
  | .du => { r with du := as }
  | .rpu => { r with rpu := as }
  | .sau => { r with sau := as }
  | .host => { r with host := as }

/-- The claimant after one in the cyclic order. -/
def Claimant.next : Claimant → Claimant
  | .du => .rpu
  | .rpu => .sau
  | .sau => .host
  | .host => .du

/-- The first waiting claimant at or after the rotation pointer. -/
def Arbiter.rotation (r : Arbiter) : Option Claimant :=
  [r.pointer, r.pointer.next, r.pointer.next.next, r.pointer.next.next.next].find? fun c => !(r.waiting c).isEmpty

/-- The engine's next tile read: the key and granule at the head of its order (R100). -/
def nextTileRead (s : State) : Option (Nat × Nat) :=
  match s.rce.state, s.rce.frame with
  | .streaming, some f => f.plan.head?.map fun k => (k, f.cursor)
  | _, _ => none

/-- The descriptor under a key of the edition in use. -/
def descriptorInUse (key : Nat) (s : State) : Option Descriptor :=
  match s.rce.inUse with
  | some i => ((slotOf s i).edition).bind fun e => Store.find? e.directory key
  | none => none

/-- The head of the engine's order moves on by one granule; after the 1,024th the entry is read (R100). -/
def FrameContext.advance (f : FrameContext) : FrameContext :=
  if f.cursor + 1 < 1024 then { f with cursor := f.cursor + 1 } else { f with cursor := 0, plan := f.plan.tail }

/-- The waiting reads of a column block are withdrawn (R100, R104). -/
def FrameContext.withdrawColumn (c : Nat) (f : FrameContext) : FrameContext :=
  { f with plan := f.plan.filter fun k => keyColumn k != c, cursor := 0 }

/-- An engine read is granted: the data, or the error, are on their way to the engine (R100, R102, R104). -/
def grantTile (met : CellError) (key granule : Nat) (s : State) : State :=
  match descriptorInUse key s with
  | none => mapFrame (FrameContext.withdrawColumn (keyColumn key)) s
  | some d =>
    let a : Access := { granule := d.address / 32 + granule, lo := 0, len := 32, data := none, purpose := .stale }
    let r := readGranule a (meetError met a.granule s)
    let step := if r.1.isSome then FrameContext.advance else FrameContext.withdrawColumn (keyColumn key)
    mapFrame step { r.2 with wires := { r.2.wires with
      tileReturns := r.2.wires.tileReturns ++ [{ key := key, granule := granule, data := r.1 }] } }

/-- A rotation grant: the pointer moves to the claimant after the one granted, and the tile grant run is 0 (R174). -/
def grantRotation (met : CellError) (s : State) : State :=
  match s.arb.rotation with
  | none => s
  | some c =>
    match s.arb.waiting c with
    | [] => s
    | a :: rest =>
      let s' := { s with arb := { (s.arb.setWaiting c rest) with pointer := c.next, tileRun := 0 } }
      perform a (meetError met a.granule s')

/-- The tile grant run changed. -/
def setTileRun (n : Nat) (s : State) : State := { s with arb := { s.arb with tileRun := n } }

/-- The arbiter grants one granule access (R174). -/
def grant (met : CellError) (s : State) : State :=
  match nextTileRead s with
  | none => grantRotation met s
  | some (k, g) =>
    if s.arb.rotation = none then grantTile met k g (setTileRun 0 s)
    else if s.arb.tileRun < Config.tileGrantLimit then grantTile met k g (setTileRun (s.arb.tileRun + 1) s)
    else grantRotation met s

/-- GRANULE_GRANT: the arbiter grants one access; taint reports on their way reach the engine first (R105, R174, log 9). -/
def execGranuleGrant (met : CellError) (s : State) : Result := finish s (grant met (takeTaints s))

/-! ### The Exchange Memory window (R172) -/

/-- A host read's granule accesses; the last one completes the reply. -/
def hostReadAccesses (offset length : Nat) : List Access :=
  let as := readAccesses (.hostRead false) offset length
  as.dropLast ++ as.getLast?.toList.map fun a => { a with purpose := .hostRead true }

/-- A host read within the window (R172). -/
def hostRead (offset length : Nat) (s : State) : State :=
  if s.run.initialising then
    { s with host := { s.host with replies := s.host.replies ++ [List.replicate length 0xFF] } }
  else placeHost (hostReadAccesses offset length) s

/-- A host write within the window (R172). -/
def hostWrite (offset : Nat) (bs : List Byte) (s : State) : State :=
  if s.run.initialising then s else placeHost (writeAccesses .hostWrite offset bs) s

/-- HOST_XM_READ (R172). -/
def execHostXmRead (offset length : Nat) (s : State) : Result :=
  if inWindow offset length then finish s (hostRead offset length s) else .fault .outsideWindow

/-- HOST_XM_WRITE (R172). -/
def execHostXmWrite (offset : Nat) (bytes : List Byte) (s : State) : Result :=
  if inWindow offset bytes.length then finish s (hostWrite offset bytes s) else .fault .outsideWindow

/-- TAINT_REPORT: the engine takes the oldest report (R105). -/
def execTaintReport (s : State) : Result :=
  match s.wires.taints with
  | [] => .next s
  | t :: rest => finish s (takeTaint t { s with wires := { s.wires with taints := rest } })

end Sys2Proof.Machine
end

