-- ==== Sys2Proof/Machine/Editions.lean ====
section
/-!
DEFINITION. Edition Slots and loads (05): taking a free slot, the phases of a load with their checks, the copy of AMEND_GROUPS and
REPOINT_TILE, the switch, failure.
-/
namespace Sys2Proof.Machine

/-- A slot is EMPTY. -/
def Slot.isEmpty : Slot → Bool
  | .empty => true
  | _ => false

/-- The free slot of R79: slot A when both are EMPTY. -/
def freeSlot (s : State) : Option SlotId :=
  if s.rce.slotA.isEmpty then some .a else if s.rce.slotB.isEmpty then some .b else none

/-- The load in progress. -/
def setLoad (l : Option Load) (s : State) : State := { s with rce := { s.rce with load := l } }

/-- The edition number displaced from CURRENT, or 0 (R84). -/
def displaced (s : State) : BitVec 32 := ((currentSlot s).map fun x => x.2.number).getD 0

/-- The slot that was CURRENT leaves it: RETAINED while it carries the in-use mark, else EMPTY (R78, R84). -/
def retireCurrent (s : State) : State :=
  match currentSlot s with
  | none => s
  | some (i, e) => setSlot i (if s.rce.inUse = some i then .retained e else .empty) s

/-- The switch, with its DONE (R84). -/
def switchTo (i : SlotId) (e : Edition) (s : State) : State :=
  endHand codeDone (displaced s) (rebuildWatch (setLoad none (setSlot i (.current e) (retireCurrent s))))

/-- A load ends in failure: the LOADING slot becomes EMPTY (R85). -/
def failLoad (i : SlotId) (code : Nat) (detail : BitVec 32) (s : State) : State :=
  endHand code detail (setLoad none (setSlot i .empty s))

/-- FAILED_CHECK with a check number and an index (R83). -/
def failCheck (i : SlotId) (check index : Nat) (s : State) : State := failLoad i codeFailedCheck (checkDetail check index) s

/-- The entries of a copy take the taint marks the same keys hold in the old CURRENT slot (R93). -/
def carryTaints (old : Edition) (e : Edition) : Edition :=
  { e with directory := e.directory.map fun d =>
      (d.1, { d.2 with taint := ((Store.find? old.directory d.1).map Descriptor.taint).getD d.2.taint }) }

/-! ### REPOINT_TILE (R88) -/

/-- REPOINT_TILE with SET: the entry is set or added with its mark clear, and is checked as checks 8 and 11 of R83 state. -/
def repointSet (h : Hand) (i : SlotId) (s : State) : State :=
  match currentSlot s with
  | none => s
  | some (_, e) =>
    let row := field h.params 5 1
    let column := field h.params 6 1
    let exponent := signed 8 (field h.params 7 1)
    let address := field h.params 8 4
    if positionFails e row column exponent then failCheck i 8 0 s
    else match retiring s address with
      | some t => failLoad i codeRefusedRetiring t s
      | none =>
        switchTo i
          { e with
            number := BitVec.ofNat 32 (field h.params 0 4)
            directory := Store.insert e.directory (tileKey row column)
              { address := address, exponent := exponent, taint := false } } s

/-- REPOINT_TILE with REMOVE: the entry is removed; an absent key is check 13. -/
def repointRemove (h : Hand) (i : SlotId) (s : State) : State :=
  match currentSlot s with
  | none => s
  | some (_, e) =>
    let key := tileKey (field h.params 5 1) (field h.params 6 1)
    match Store.find? e.directory key with
    | none => failCheck i 13 0 s
    | some _ =>
      switchTo i
        { e with number := BitVec.ofNat 32 (field h.params 0 4), directory := Store.erase e.directory key } s

/-! ### Taking a slot (R79) -/

/-- ADOPT_EDITION takes a slot: it becomes LOADING and the record is read (R81, R82). -/
def beginAdopt (h : Hand) (i : SlotId) (s : State) : State :=
  occupy .load (field h.params 0 4) 256
    (setLoad (some { slot := i, phase := .record }) (setSlot i (.loading {}) s))

/-- AMEND_GROUPS takes a slot: it holds a copy of the CURRENT slot and the group table is read (R86). -/
def beginAmend (h : Hand) (i : SlotId) (s : State) : State :=
  match currentSlot s with
  | none => s
  | some (_, e) =>
    occupy .load (field h.params 4 4) 192
      (setLoad (some { slot := i, phase := .groupTable })
        (setSlot i (.loading { e with number := BitVec.ofNat 32 (field h.params 0 4) }) s))

/-- An adoption directive with its slot, by kind and action (R81, R86, R88). -/
def beginLoad (h : Hand) (i : SlotId) (s : State) : State :=
  if h.kind = 1 then beginAdopt h i s
  else if h.kind = 2 then beginAmend h i s
  else if field h.params 4 1 = 2 then repointRemove h i s
  else repointSet h i s

/-- The directive takes a free slot, or waits for one (R79, R157). -/
def takeSlot (h : Hand) (s : State) : State :=
  match freeSlot s with
  | some i => beginLoad h i s
  | none => setPhase .needsSlot .waiting s

/-! ### The phases of a load (R82, R83) -/

/-- The next read of a load. -/
def loadRead (l : Load) (a len : Nat) (s : State) : State := duRead .load a len (setLoad (some l) s)

/-- The reference vector is read. -/
def readReference (l : Load) (e : Edition) (s : State) : State :=
  loadRead { l with phase := .reference } l.referenceAt (2 * e.slopeCount) s

/-- The tile list entry n is read, or the vectors when the list has ended. -/
def readTileEntry (l : Load) (e : Edition) (n : Nat) (s : State) : State :=
  if n < l.tileCount then loadRead { l with phase := .tile n } (l.tileList + 16 * n) 16 s
  else readReference l e s

/-- The Edition Record has been read (R82, checks 1 to 7). -/
def recordRead (slot : SlotId) (bs : List Byte) (s : State) : State :=
  let e := parseEdition bs
  let l := parseLoad slot bs
  match recordCheck s e l with
  | some (check, index) => failCheck slot check index s
  | none => readTileEntry l e 0 (setSlot slot (.loading e) s)

/-- A tile list entry has been read (checks 8 to 11). -/
def tileEntryRead (l : Load) (n : Nat) (e : Edition) (bs : List Byte) (s : State) : State :=
  let row := field bs 0 1
  let column := field bs 1 1
  let exponent := signed 8 (field bs 2 1)
  let address := field bs 4 4
  if positionFails e row column exponent then failCheck l.slot 8 n s
  else if tileAddressFails s address then failCheck l.slot 9 n s
  else if (Store.find? e.directory (tileKey row column)).isSome then failCheck l.slot 10 n s
  else match retiring s address with
    | some t => failLoad l.slot codeRefusedRetiring t s
    | none =>
      let e' := { e with directory := Store.insert e.directory (tileKey row column)
                            { address := address, exponent := exponent, taint := false } }
      readTileEntry l e' (n + 1) (setSlot l.slot (.loading e') s)

/-- The reference vector has been read; the group map is next. R82 names the two vectors and gives their reads no order: that the reference
vector is read whole before the group map is the model's choice (log 47). -/
def referenceRead (l : Load) (e : Edition) (bs : List Byte) (s : State) : State :=
  loadRead { l with phase := .groupMap } l.groupMapAt e.actuatorCount
    (setSlot l.slot (.loading { e with reference := int16s e.slopeCount bs }) s)

/-- The group map has been read (check 12); the load ends in a switch. -/
def groupMapRead (l : Load) (e : Edition) (bs : List Byte) (s : State) : State :=
  let m := bs.map BitVec.toNat
  match m.findIdx? fun g => 15 < g with
  | some n => failCheck l.slot 12 n s
  | none => switchTo l.slot { e with groupMap := m } s

/-- The group table of AMEND_GROUPS has been read (check 5); the taint marks are taken at the switch (R86, R93). -/
def groupTableRead (l : Load) (e : Edition) (bs : List Byte) (s : State) : State :=
  let groups := parseGroups bs
  match failingRow groups with
  | some row => failCheck l.slot 5 row s
  | none =>
    match currentSlot s with
    | some (_, old) => switchTo l.slot (carryTaints old { e with groups := groups }) s
    | none => switchTo l.slot { e with groups := groups } s

/-- A read of the load has returned with its bytes. -/
def loadBytes (l : Load) (e : Edition) (bs : List Byte) (s : State) : State :=
  match l.phase with
  | .record => recordRead l.slot bs s
  | .tile n => tileEntryRead l n e bs s
  | .reference => referenceRead l e bs s
  | .groupMap => groupMapRead l e bs s
  | .groupTable => groupTableRead l e bs s

/-- EDITION_LOAD_READ_DONE: a read of a load or copy returns (R82 to R86). -/
def execEditionLoadReadDone (s : State) : Result :=
  match s.rce.load, duReturned .load s with
  | some l, some j =>
    match j.failed with
    | some offset => finish s (failLoad l.slot codeFailedMemory (BitVec.ofNat 32 offset) (raise .memoryError s))
    | none => finish s (loadBytes l ((slotOf s l.slot).edition.getD {}) j.bytes s)
  | _, _ => .next s

end Sys2Proof.Machine
end

