-- ==== Sys2Proof/Machine/Probe.lean ====
section
/-!
DEFINITION. The Probe Unit (07): supply, advance on committed frames, the copy of SET_PROBE_CYCLE, injections.
-/
namespace Sys2Proof.Machine

/-- The Probe Unit changed. -/
def mapPru (f : Pru → Pru) (s : State) : State := { s with pru := f s.pru }

/-! ### Supply (R122) -/

/-- The source in force, with its pattern and amplitude (R122). -/
def Pru.inForce (p : Pru) : ProbeSource × List Int × Int :=
  match p.injection with
  | some i => (.injection, i.pattern, i.amplitude)
  | none =>
    match p.position with
    | some (n, _) =>
      match p.cycle[n]? with
      | some e => (.cycle n, e.pattern, e.amplitude)
      | none => (.none, [], 0)
    | none => (.none, [], 0)

/-- The probe values of actuators 0 to A - 1 (R122). -/
def probeVector (actuators : Nat) (pattern : List Int) (amplitude : Int) : List Int :=
  (List.range actuators).map fun a => roundRatio (amplitude * pattern.getD a 0) 32768

/-! ### Advance (R127, R128) -/

/-- The cycle position after a committed frame (R127). -/
def advancePosition (cycle : List CycleEntry) (n left : Nat) : Nat × Nat :=
  if 1 < left then (n, left - 1)
  else
    let next := if n + 1 < cycle.length then n + 1 else 0
    (next, ((cycle[next]?).map CycleEntry.frames).getD 0)

/-- The source named in the supply record advances (R127, R128). -/
def Pru.advance (source : ProbeSource) (p : Pru) : Pru :=
  match source with
  | .none => p
  | .injection =>
    { p with injection := p.injection.bind fun i => if 1 < i.left then some { i with left := i.left - 1 } else none }
  | .cycle _ => { p with position := p.position.map fun x => advancePosition p.cycle x.1 x.2 }

/-- The Probe Unit takes a notice: a commit advances a source still in force, and the supply record becomes absent (R127). -/
def Pru.notice (committed : Bool) (p : Pru) : Pru :=
  let q := match committed, p.supply with
    | true, some { source := src, inForce := true } => p.advance src
    | _, _ => p
  { q with supply := none }

/-- Every notice still on its way is taken, in order (log 9). -/
def takeNotices (s : State) : State :=
  { s with
    pru := s.wires.probeNotices.foldl (fun p c => p.notice c) s.pru
    wires := { s.wires with probeNotices := [] } }

/-- The oldest notice, when it is of a kind. -/
def noticeStep (committed : Bool) (s : State) : Result :=
  match s.wires.probeNotices with
  | [] => .next s
  | c :: rest =>
    if c = committed then
      finish s { s with pru := s.pru.notice c, wires := { s.wires with probeNotices := rest } }
    else .next s

/-- COMMIT_NOTICE (R127, R128). -/
def execCommitNotice (s : State) : Result := noticeStep true s

/-- COMPLETION_WITHOUT_COMMIT (R127). -/
def execCompletionWithoutCommit (s : State) : Result := noticeStep false s

/-! ### The copy of SET_PROBE_CYCLE (R124) -/

/-- A source whose supply is no longer in force. -/
def Pru.overrule (p : Pru) (replaced : ProbeSource → Bool) : Pru :=
  { p with supply := p.supply.map fun x => if replaced x.source then { x with inForce := false } else x }

/-- The source is the cycle. -/
def ProbeSource.isCycle : ProbeSource → Bool
  | .cycle _ => true
  | _ => false

/-- The source is the injection. -/
def ProbeSource.isInjection : ProbeSource → Bool
  | .injection => true
  | _ => false

/-- The Probe Unit reports the end of a copy to the DU (R124, R158). -/
def reportEnd (t : Ticket) (code : Nat) (detail : BitVec 32) (s : State) : State :=
  { s with wires := { s.wires with
      ownerEnds := s.wires.ownerEnds ++ [{ ticket := t, code := code, detail := detail }] } }

/-- The position a cycle starts at: entry 0 with its full count, absent for an empty cycle (R121, R124). -/
def cycleStart (cycle : List CycleEntry) : Option (Nat × Nat) :=
  match cycle with
  | [] => none
  | e :: _ => some (0, e.frames)

/-- The copy ends in success (R124). -/
def copySuccess (r : CopyRequest) (cycle : List CycleEntry) (s : State) : State :=
  reportEnd r.ticket codeDone 0
    (mapPru
      (fun p => Pru.overrule
        { p with
          cycle := cycle
          length := if cycle.isEmpty then none else some r.length
          position := cycleStart cycle
          staging := none
          job := none } ProbeSource.isCycle) s)

/-- The Probe Unit places a read of the copy (R124): all its granules at once, behind what the DU has waiting (log 43). -/
def copyRead (a len : Nat) (s : State) : State :=
  placeDu (readAccesses .copy a len) (mapPru (fun p => { p with job := some (newJob .copy a len) }) s)

/-- The copy reads its next table entry. -/
def readTableEntry (g : Staging) (s : State) : State :=
  copyRead (g.request.table + 8 * g.copied.length) 8 (mapPru (fun p => { p with staging := some { g with entry := none } }) s)

/-- With no copy in progress the oldest waiting one begins; an entry count of 0 ends at once (R123, R124). -/
def runCopies : List CopyRequest → State → State
  | [], s => mapPru (fun p => { p with waiting := [] }) s
  | r :: rest, s =>
    if r.entries = 0 then runCopies rest (copySuccess r [] s)
    else readTableEntry { request := r } (mapPru (fun p => { p with waiting := rest }) s)

/-- A SET_PROBE_CYCLE joins the Probe Unit's waiting list (R123). -/
def enqueueCopy (r : CopyRequest) (s : State) : State :=
  if s.pru.staging.isSome then mapPru (fun p => { p with waiting := p.waiting ++ [r] }) s
  else runCopies (s.pru.waiting ++ [r]) s

/-- The copy fails: the staging store is emptied and nothing else changes (R124). -/
def copyFail (r : CopyRequest) (code : Nat) (detail : BitVec 32) (s : State) : State :=
  let s' := reportEnd r.ticket code detail (mapPru (fun p => { p with staging := none, job := none }) s)
  runCopies s'.pru.waiting s'

/-- A pattern has been read: the next entry follows, or the copy has succeeded. -/
def patternRead (g : Staging) (amplitude : Int) (frames : Nat) (bs : List Byte) (s : State) : State :=
  let copied := g.copied ++ [{ pattern := int16s g.request.length bs, amplitude := amplitude, frames := frames }]
  if copied.length < g.request.entries then readTableEntry { g with copied := copied } s
  else
    let s' := copySuccess g.request copied s
    runCopies s'.pru.waiting s'

/-- A table entry has been read and is checked (R124). -/
def tableEntryRead (g : Staging) (bs : List Byte) (s : State) : State :=
  let address := field bs 0 4
  let frames := field bs 6 2
  if address % 64 ≠ 0 || !goodArea s address (2 * g.request.length) then
    copyFail g.request codeFailedCheck (checkDetail 1 g.copied.length) s
  else if frames = 0 then copyFail g.request codeFailedCheck (checkDetail 2 g.copied.length) s
  else
    copyRead address (2 * g.request.length)
      (mapPru (fun p => { p with staging := some { g with entry := some (field16 bs 4, frames) } }) s)

/-- A read of the copy has returned. -/
def copyReturned (g : Staging) (j : ReadJob) (s : State) : State :=
  match j.failed with
  | some offset => copyFail g.request codeFailedMemory (BitVec.ofNat 32 offset) (raise .memoryError s)
  | none =>
    match g.entry with
    | none => tableEntryRead g j.bytes s
    | some (amplitude, frames) => patternRead g amplitude frames j.bytes s

/-- PROBE_COPY_READ_DONE (R124). -/
def execProbeCopyReadDone (s : State) : Result :=
  match s.pru.staging, s.pru.job with
  | some g, some j => if j.complete then finish s (copyReturned g j s) else .next s
  | _, _ => .next s

end Sys2Proof.Machine
end

