-- ==== Sys2Proof/Machine/DirectiveUnit.lean ====
section
/-!
DEFINITION. The Directive Unit (09): the scan, taking a directive, the Deferred List, DRAIN, the ends its owners report, and
settled-through.
-/
namespace Sys2Proof.Machine

/-! ### The Deferred List (R157, R158) -/

/-- The directive in hand joins the Deferred List with PENDING, and the scan goes on with the next slot (R158). The detail of PENDING is 0
for DRAIN too, for which chapter 9 gives none (log 44). -/
def joinList (h : Hand) (work : DeferredWork) (s : State) : State :=
  let s' := placeOutcome h.ticket codePending 0 [] s
  readExpected
    { s' with du := { s'.du with
        deferred := s'.du.deferred ++ [{ ticket := h.ticket, work := work }], hand := none, job := none } }

/-- The Deferred List has room (R158). -/
def hasRoom (s : State) : Bool := s.du.deferred.length < Config.listRoom

/-- The directive in hand waits for room in the list (R157). -/
def waitForRoom (s : State) : State := setPhase .needsRoom .waiting s

/-- The directive is deferred, or waits for room (R157). -/
def deferOrWait (h : Hand) (work : DeferredWork) (s : State) : State :=
  if hasRoom s then joinList h work s else waitForRoom s

/-- Entries of the list end with DONE, written in ticket order, and leave it (R158). -/
def endEntries (p : Deferred → Bool) (s : State) : State :=
  let s' := (s.du.deferred.filter p).foldl (fun s d => finalOutcome d.ticket codeDone 0 s) s
  { s' with du := { s'.du with deferred := s'.du.deferred.filter fun d => !p d } }

/-! ### RETIRE_RANGE (R94, R95) -/

/-- The granule range of a RETIRE_RANGE (R94). -/
def retireGranules (h : Hand) : Nat × Nat :=
  (watchGranule (field h.params 0 4), watchGranule (field h.params 0 4 + field h.params 4 4 - 1))

/-- An edition references a granule range (R94). -/
def Edition.references (first last : Nat) (e : Edition) : Bool :=
  e.granules.any fun g => first ≤ g && g ≤ last

/-- A slot state references a granule range, when it is CURRENT or RETAINED. -/
def Slot.references (first last : Nat) (x : Slot) : Bool := (x.watched.map (Edition.references first last)).getD false

/-- Cases 3 to 5 of R94. -/
def judgeRetire (h : Hand) (s : State) : State :=
  let r := retireGranules h
  match (currentSlot s).filter fun x => x.2.references r.1 r.2 with
  | some x => endHand codeRefusedInUse x.2.number s
  | none =>
    if s.rce.slotA.references r.1 r.2 || s.rce.slotB.references r.1 r.2 then deferOrWait h (.retire r.1 r.2) s
    else endHand codeDone 0 s

/-- A pending RETIRE_RANGE whose range no slot references any more (R95, log 37). -/
def Deferred.retired (s : State) (d : Deferred) : Bool :=
  match d.work with
  | .retire first last => !(s.rce.slotA.references first last || s.rce.slotB.references first last)
  | _ => false

/-! ### SET_PROBE_CYCLE (R123) -/

/-- The copy a SET_PROBE_CYCLE asks for (12.3). -/
def copyRequest (h : Hand) : CopyRequest where
  ticket := h.ticket
  table := field h.params 0 4
  entries := field h.params 4 1
  length := field h.params 6 2

/-- A SET_PROBE_CYCLE that has passed its checks is deferred and joins the Probe Unit's list, or waits for room (R123, R157). The read of
the next slot is placed before the first read of its copy (log 43). -/
def joinProbe (h : Hand) (s : State) : State :=
  if hasRoom s then enqueueCopy (copyRequest h) (joinList h .probeCycle s) else waitForRoom s

/-! ### DRAIN (R159) -/

/-- The engine is IDLE as the Directive Unit has it: no frame dispatched to it, and its IDLE report taken (log 26). -/
def engineIdleAtDu (s : State) : Bool :=
  s.rce.state == .idle && s.wires.handover.isNone && !s.wires.idleToDu

/-- The last completion whose telemetry set has been handed over, by its place in the order of handover (R159). -/
def lastCompletion (s : State) : Option Nat := if s.rpu.handed = 0 then none else some s.rpu.handed

/-- The Report Unit has reported the record of a completion written, or its set dropped (R159, R165). -/
def recordWritten (n : Nat) (s : State) : Bool :=
  !(s.rpu.holding.any fun t => t.number == n) && !s.wires.telemetryWritten.contains n

/-- An emptied set passes on to condition 2, and to condition 3 when the engine is IDLE, unless its IDLE report was taken before the
report that emptied the set (R159). -/
def DrainStage.advance (s : State) : DrainStage → DrainStage
  | .records [] missed => if !missed && engineIdleAtDu s then .written (lastCompletion s) else .idle
  | x => x

/-- All three conditions hold (R159). -/
def DrainStage.holds (s : State) : DrainStage → Bool
  | .written none => true
  | .written (some n) => recordWritten n s
  | _ => false

/-- The stage of every DRAIN in the list changed. -/
def mapDrains (f : DrainStage → DrainStage) (s : State) : State :=
  { s with du := { s.du with deferred := s.du.deferred.map fun d =>
      match d.work with
      | .drain x => { d with work := .drain (f x) }
      | _ => d } }

/-- A DRAIN of the list whose conditions all hold. -/
def Deferred.drained (s : State) (d : Deferred) : Bool :=
  match d.work with
  | .drain x => x.holds s
  | _ => false

/-- Every DRAIN of the list goes as far as it can; those that are done end. -/
def advanceDrains (s : State) : State :=
  let s' := mapDrains (DrainStage.advance s) s
  endEntries (Deferred.drained s') s'

/-- A record has been reported freed to a DRAIN (R159). -/
def DrainStage.freed (r : Fin 4) : DrainStage → DrainStage
  | .records set missed => .records (set.filter fun x => x != r.val) missed
  | x => x

/-- Every freed record still on its way is taken, so that a set taken now is not emptied by an older report (log 9). -/
def absorbFreed (s : State) : State :=
  let s' := s.wires.recordsFreed.foldl (fun s r => mapDrains (DrainStage.freed r) s) s
  advanceDrains { s' with wires := { s'.wires with recordsFreed := [] } }

/-- A DRAIN takes its set, and is done at once, or deferred, or waits (R159). -/
def takeDrain (h : Hand) (s : State) : State :=
  let s' := absorbFreed s
  let set := (recordsIn (· != .free) s').map Fin.val
  let stage := (DrainStage.records set false).advance s'
  if stage.holds s' then endHand codeDone 0 s' else deferOrWait h (.drain stage) s'

/-! ### Room for a directive that waits (R157) -/

/-- A directive that waited for room is judged again (R157). -/
def judgeAgain (h : Hand) (s : State) : State :=
  if h.kind = 4 then judgeRetire h s
  else if h.kind = 12 then joinProbe h s
  else takeDrain h s

/-- The directive in hand, when it waits for room and there is room, is judged again (R157). -/
def retryRoom (s : State) : State :=
  match s.du.hand with
  | some h => if h.phase = .needsRoom && hasRoom s then judgeAgain h s else s
  | none => s

/-- A directive that waits for a free slot takes one (R79, R157). -/
def retrySlot (s : State) : State :=
  match s.du.hand with
  | some h => if h.phase = .needsSlot then takeSlot h s else s
  | none => s

/-! ### The scan (R151, R152) -/

/-- SCAN_TIMER_EXPIRY: the timer is re-armed from its expiry; a RESTING unit begins a scan (R151). -/
def execScanTimerExpiry (s : State) : Result :=
  match s.du.scanTimer, s.run.anchor with
  | some e, some a =>
    if Time.reached s.time e then
      let s' := { s with du := { s.du with scanTimer := some (e + micros a.interval) } }
      finish s (if s.du.activity = .resting then readExpected s' else s')
    else .next s
  | _, _ => .next s

/-- The ticket field of a slot (12.3). -/
def slotTicket (bs : List Byte) : Ticket := BitVec.ofNat 32 (field bs 0 4)

/-- The check code of a slot is good: bytes 0 to 7 and 16 to 123 against bytes 124 to 127 (R152). -/
def goodSlot (bs : List Byte) : Bool :=
  field bs 124 4 == (crc32 (bs.take 8 ++ (bs.drop 16).take 108)).toNat

/-- The scan ends and the unit is RESTING, with its torn count and torn memory errors (R151, R152). -/
def restWith (torn memory : Nat) (s : State) : State :=
  { s with du := { s.du with activity := .resting, job := none, torn := torn, tornMemory := memory } }

/-- The eighth torn read in a row ends the ticket (R152). -/
def refuseTorn (t : Ticket) (memory : Nat) (s : State) : State :=
  readExpected (finalOutcome t codeRefusedTorn (BitVec.ofNat 32 memory) (takeTicket t s))

/-- A torn read of the expected ticket; `memory` where an uncorrectable error made it one (R152). -/
def tornRead (t : Ticket) (memory : Bool) (s : State) : State :=
  let errors := s.du.tornMemory + memory.toNat
  let s' := raiseIf memory .memoryError s
  if s.du.torn + 1 < Config.tornLimit then restWith (s.du.torn + 1) errors s' else refuseTorn t errors s'

/-- The directive of a good slot is taken, with the two checks common to all kinds (R153). The detail of the second, REFUSED_FIELD, is 0,
which R153 leaves open (log 44). -/
def takeDirective (t : Ticket) (bs : List Byte) (s : State) : State :=
  let kind := field bs 4 2
  let length := field bs 6 2
  let s' := takeTicket t s
  if kind < 1 || 17 < kind then readExpected (finalOutcome t codeRefusedKind (BitVec.ofNat 32 kind) s')
  else if Config.parameterLimit < length then readExpected (finalOutcome t codeRefusedField 0 s')
  else
    { s' with du := { s'.du with
        activity := .executing
        job := none
        hand := some
          { ticket := t, kind := kind, length := length, params := (bs.drop 16).take Config.parameterLimit, phase := .taken } } }

/-- The slot of the expected ticket has been read (R152). -/
def judgeSlot (t : Ticket) (j : ReadJob) (s : State) : State :=
  if j.failed.isSome then tornRead t true s
  else if slotTicket j.bytes ≠ t then restWith 0 0 s
  else if goodSlot j.bytes then takeDirective t j.bytes s
  else tornRead t false s

/-- SLOT_READ_RETURN (R152, R153). -/
def execSlotReadReturn (s : State) : Result :=
  match s.du.expected, s.du.hand, duReturned .slot s with
  | some t, none, some j => finish s (judgeSlot t j s)
  | _, _, _ => .next s

/-! ### Reports to the Directive Unit -/

/-- The list holds the entry of a report (R158). -/
def endsEntry (e : OwnerEnd) (s : State) : Bool := s.du.deferred.any fun d => d.ticket == e.ticket

/-- The entry of a report ends with the report's outcome, and leaves the list (R158). -/
def endEntry (e : OwnerEnd) (s : State) : State :=
  let s' := finalOutcome e.ticket e.code e.detail s
  { s' with du := { s'.du with deferred := s'.du.deferred.filter fun d => d.ticket != e.ticket } }

/-- The oldest owner's report ends its entry; a report whose entry is gone is dropped (R158, R160). -/
def takeOwnerEnd (e : OwnerEnd) (s : State) : State := if endsEntry e s then retryRoom (endEntry e s) else s

/-- OWNER_END_REPORT (R158). -/
def execOwnerEndReport (s : State) : Result :=
  match s.wires.ownerEnds with
  | [] => .next s
  | e :: rest => finish s (takeOwnerEnd e { s with wires := { s.wires with ownerEnds := rest } })

/-- The release of a RETAINED slot reaches the DU: pending RETIRE_RANGEs end, a waiting adoption takes the slot, a waiting
deferred kind takes the room (R79, R95, R157). -/
def takeRelease (s : State) : State := retryRoom (retrySlot (endEntries (Deferred.retired s) s))

/-- SLOT_RELEASE_REPORT (R95, R113, R157). -/
def execSlotReleaseReport (s : State) : Result :=
  if s.wires.slotRelease then finish s (takeRelease { s with wires := { s.wires with slotRelease := false } })
  else .next s

/-- DRAINs of the list advance, and a directive that waits for room is judged again. -/
def settleDrains (s : State) : State := retryRoom (advanceDrains s)

/-- RECORD_FREED_REPORT (R159). -/
def execRecordFreedReport (s : State) : Result :=
  match s.wires.recordsFreed with
  | [] => .next s
  | r :: rest =>
    finish s (settleDrains (mapDrains (DrainStage.freed r) { s with wires := { s.wires with recordsFreed := rest } }))

/-- A record of a set has been freed and its report is on its way. -/
def freeing (s : State) (r : Nat) : Bool := s.wires.recordsFreed.any fun x => x.val == r

/-- The engine's IDLE report closes condition 2 of every DRAIN that waits for it. Taken before the report of the last freed record of a
set, it does not count for that set (R159, log 26). -/
def DrainStage.engineIdle (s : State) : DrainStage → DrainStage
  | .records set missed => .records set (missed || set.all (freeing s))
  | .idle => .written (lastCompletion s)
  | x => x

/-- The DU takes the engine's IDLE report. -/
def takeIdleAtDu (s : State) : State :=
  settleDrains (mapDrains (DrainStage.engineIdle s) { s with wires := { s.wires with idleToDu := false } })

/-- DRAIN_IDLE_REPORT (R159). -/
def execDrainIdleReport (s : State) : Result := if s.wires.idleToDu then finish s (takeIdleAtDu s) else .next s

/-- TELEMETRY_WRITTEN_REPORT (R159). -/
def execTelemetryWrittenReport (s : State) : Result :=
  match s.wires.telemetryWritten with
  | [] => .next s
  | _ :: rest => finish s (settleDrains { s with wires := { s.wires with telemetryWritten := rest } })

/-- Final outcomes are written: their tickets are settled, and SETTLED is raised if settled-through rises (R155). -/
def settleTickets (ts : List Ticket) (s : State) : State :=
  let du := { s.du with unsettled := s.du.unsettled.filter fun t => !ts.contains t }
  let after := settledValue du
  raiseIf (decide (after ≠ s.du.settledThrough)) .settled { s with du := { du with settledThrough := after } }

/-- OUTCOME_WRITE_DONE (R155). -/
def execOutcomeWriteDone (s : State) : Result :=
  match s.wires.outcomesWritten with
  | [] => .next s
  | ts :: rest => finish s (settleTickets ts { s with wires := { s.wires with outcomesWritten := rest } })

end Sys2Proof.Machine
end

