-- ==== Sys2Proof/Machine/Output.lean ====
section
/-!
DEFINITION. The Command Output Unit (08): mirror link transmitters, acceptance windows, hold causes, hold actions, guards, the
interlock, the Last Emitted Vector.
-/
namespace Sys2Proof.Machine

/-! ### Mirror links (R143) -/

/-- A mirror link of the part changed. -/
def mapLink (l : Fin 4) (f : MirrorLink → MirrorLink) (s : State) : State :=
  { s with cou := { s.cou with links := tweak s.cou.links l f } }

/-- Every mirror link changed. -/
def mapLinks (f : MirrorLink → MirrorLink) (s : State) : State :=
  { s with cou := { s.cou with links := s.cou.links.map f } }

/-- Every mirror link changed, each by its number. -/
def mapLinksAt (f : Fin 4 → MirrorLink → MirrorLink) (s : State) : State :=
  { s with cou := { s.cou with links := Vector.ofFn fun i => f i s.cou.links[i] } }

/-- The counts of a link changed. -/
def MirrorLink.count (f : LinkCounts → LinkCounts) (l : MirrorLink) : MirrorLink := { l with counts := f l.counts }

/-- One more dropped command packet (R148). -/
def LinkCounts.drop (c : LinkCounts) : LinkCounts := { c with dropped := c.dropped + 1 }

/-- A packet is passed to a transmitter (R143). -/
def MirrorLink.pass (p : Packet) (l : MirrorLink) : MirrorLink :=
  match l.tx, p.kind with
  | .idle, _ => { l with tx := .sending p }
  | _, .safe => { l with waitingSafe := some p }
  | _, .command =>
    { l with
      waitingCommand := some p
      counts := if l.waitingCommand.isSome then l.counts.drop else l.counts }

/-- Blocks have been sent. -/
def MirrorLink.send (bs : List Block) (l : MirrorLink) : MirrorLink := { l with line := l.line ++ bs }

/-- A whole packet has been sent, and line fill after it (R180). -/
def MirrorLink.sendPacket (i : Fin 4) (p : Packet) (l : MirrorLink) : MirrorLink :=
  l.send (wireBlocks p.bytes ++ [idleBlock i l.line.length])

/-- The abort trailer has been sent, and line fill after it (R180). -/
def MirrorLink.sendTrailer (i : Fin 4) (l : MirrorLink) : MirrorLink := l.send [abortTrailer, idleBlock i l.line.length]

/-- The packet in transmission is cut off at a block boundary, and its abort trailer is begun (R133, R180); how much of it has been
sent is a free value (log 39). -/
def MirrorLink.cutOff (i : Fin 4) (p : Packet) (l : MirrorLink) : MirrorLink :=
  { l.send ((wireBlocks p.bytes).take (blocksBeforeCut p.bytes.length (Config.blocksSent i.val l.cuts))) with
    tx := .trailer, cuts := l.cuts + 1 }

/-- A transmitter that has finished a packet or an abort trailer begins the head of its waiting list (R143). -/
def MirrorLink.beginNext (l : MirrorLink) : MirrorLink :=
  match l.waitingSafe, l.waitingCommand with
  | some p, _ => { l with tx := .sending p, waitingSafe := none }
  | none, some p => { l with tx := .sending p, waitingCommand := none }
  | none, none => { l with tx := .idle }

/-- A waiting command packet is discarded and counted as dropped (R133, R143). -/
def MirrorLink.dropCommand (l : MirrorLink) : MirrorLink :=
  { l with
    waitingCommand := none
    counts := if l.waitingCommand.isSome then l.counts.drop else l.counts }

/-- A command packet in transmission is cut off with an abort trailer and counted as aborted (R133, R180). -/
def MirrorLink.cutCommand (i : Fin 4) (l : MirrorLink) : MirrorLink :=
  match l.tx with
  | .sending p =>
    if p.kind = .command then
      { l.cutOff i p with counts := { l.counts with aborted := l.counts.aborted + 1 } }
    else l
  | _ => l

/-- No packet of either kind is in transmission or waiting (R131). R131 does not say whether a link is quiet while it sends the abort trailer of a
packet that was cut off: that it is, so that DRAINING can end then, is the model's choice (log 52). -/
def MirrorLink.quiet (l : MirrorLink) : Bool :=
  (match l.tx with
    | .sending _ => false
    | _ => true) && l.waitingSafe.isNone && l.waitingCommand.isNone

/-- The mirror links are quiet (R131). -/
def linksQuiet (s : State) : Bool := (allFin 4).all fun l => s.cou.links[l].quiet

/-- The COU reports to run control each time its links become quiet (R131). -/
def noteQuiet (before after : State) : State :=
  if linksQuiet after && !linksQuiet before then { after with wires := { after.wires with linksQuiet := true } } else after

/-- The outcome of a step of the COU. -/
def couFinish (before after : State) : Result := finish before (noteQuiet before after)

/-! ### Output state and hold causes (R130) -/

/-- The cause is in the set. -/
def HoldCauses.has (c : HoldCauses) : HoldCause → Bool
  | .interlock => c.interlock
  | .guardSaturation => c.guardSaturation
  | .guardVoid => c.guardVoid
  | .driver => c.driver
  | .directive => c.directive

/-- The output state and the cause set. -/
def setOutput (o : OutputState) (c : HoldCauses) (s : State) : State := { s with cou := { s.cou with output := o, causes := c } }

/-- A cause joins the set. The output becomes HELD if it was LIVE, HELD is raised, and waiting command packets are discarded;
while QUIET the set stays empty (R130, R143). -/
def addCause (c : HoldCause) (s : State) : State :=
  match s.cou.output with
  | .quiet => s
  | .held => setOutput .held (s.cou.causes.add c) s
  | .live => raise .held (mapLinks MirrorLink.dropCommand (setOutput .held (s.cou.causes.add c) s))

/-! ### The hold action (R134) -/

/-- The values of a range of a store that reads 0 where nothing is listed. -/
def rangeOf (m : Store Int) (first count : Nat) : List Int := Store.readAll 0 m first count

/-- A link carries a range in the link settings in force. -/
def linkEntryOf (s : State) (l : Fin 4) : Option OutEntry :=
  (s.cou.settings.map fun x => x.map[l]).filter fun x => x.count != 0

/-- The safe packet of a link (R134). -/
def safePacket (s : State) (x : OutEntry) : Packet where
  kind := .safe
  number := s.cou.safeSerial
  first := x.first
  values := rangeOf s.cou.safeShape x.first x.count

/-- A safe packet is formed on each used link. -/
def passSafePackets (s : State) : State :=
  (allFin 4).foldl
    (fun s l =>
      match linkEntryOf s l with
      | some x => mapLink l (MirrorLink.pass (safePacket s x)) s
      | none => s) s

/-- The hold action is applied (R134). -/
def holdAction (s : State) : State :=
  match s.cou.action with
  | .freeze => s
  | .safe => passSafePackets { s with cou := { s.cou with safeSerial := s.cou.safeSerial + 1 } }

/-! ### Acceptance windows (R144, R146) -/

/-- How a window closes without an OK token (R146). -/
inductive Miss where
  | timeout
  | rejected
  | superseded
  deriving DecidableEq, Repr

/-- A miss is counted. -/
def LinkCounts.miss (m : Miss) (c : LinkCounts) : LinkCounts :=
  let c := { c with misses := c.misses + 1 }
  match m with
  | .timeout => { c with timeouts := c.timeouts + 1 }
  | .rejected => { c with rejections := c.rejections + 1 }
  | .superseded => { c with supersedes := c.supersedes + 1 }

/-- The miss limit of the link settings in force. -/
def missLimit (s : State) : Nat := (s.cou.settings.map LinkSettings.missLimit).getD 0

/-- The window's kind, when it is AWAITING. -/
def Window.kind : Window → Option PacketKind
  | .idle => none
  | .awaiting k _ _ => some k

/-- The consecutive misses after a miss of a command window, up to 15. -/
def MirrorLink.missCommand (l : MirrorLink) : MirrorLink := { l with consecutive := min 15 (l.consecutive + 1) }

/-- An AWAITING window closes as a miss (R146). -/
def miss (l : Fin 4) (m : Miss) (s : State) : State :=
  let kind := s.cou.links[l].window.kind
  let s1 := mapLink l (fun x => { x.count (LinkCounts.miss m) with window := .idle }) s
  if kind = some .command then
    let s2 := mapLink l MirrorLink.missCommand s1
    if missLimit s2 ≤ s2.cou.links[l].consecutive then raise .driverFault (addCause .driver s2) else s2
  else s1

/-- A completed packet closes an AWAITING window as superseded and opens its own (R144). -/
def openWindow (l : Fin 4) (kind : PacketKind) (number : BitVec 16) (s : State) : State :=
  let s' := if s.cou.links[l].window = .idle then s else miss l .superseded s
  let expiry := s'.time + BitVec.ofNat 64 ((s'.cou.settings.map LinkSettings.timeout).getD 0)
  mapLink l (fun x => { x with window := .awaiting kind number expiry }) s'

/-! ### Completed packets (R135, R144, R147) -/

/-- The Last Emitted Vector takes a packet's values for its range (R147). -/
def emit (p : Packet) (s : State) : State :=
  { s with cou := { s.cou with lastEmitted := Store.writeAll 0 s.cou.lastEmitted p.first p.values } }

/-- A command packet has been sent (R144). -/
def commandSent (l : Fin 4) (p : Packet) (s : State) : State :=
  mapLink l (fun x => (x.sendPacket l p).beginNext)
    (openWindow l .command p.number
      (mapLink l (MirrorLink.count fun c => { c with commands := c.commands + 1 }) (emit p s)))

/-- COMMAND_PACKET_COMPLETE (R144). -/
def execCommandPacketComplete (link : Fin 4) (s : State) : Result :=
  match s.cou.links[link].tx with
  | .sending p => if p.kind = .command then couFinish s (commandSent link p s) else .next s
  | _ => .next s

/-- The safe-shape request of a completed safe packet (R119, R135). -/
def requestSafeShape (p : Packet) (s : State) : State :=
  { s with wires := { s.wires with safeRequests := s.wires.safeRequests ++ [{ first := p.first, values := p.values }] } }

/-- A safe packet has been sent (R135). -/
def safeSent (l : Fin 4) (p : Packet) (s : State) : State :=
  mapLink l (fun x => (x.sendPacket l p).beginNext)
    (openWindow l .safe p.number
      (requestSafeShape p (mapLink l (MirrorLink.count fun c => { c with safes := c.safes + 1 }) (emit p s))))

/-- SAFE_PACKET_COMPLETE (R135). -/
def execSafePacketComplete (link : Fin 4) (s : State) : Result :=
  match s.cou.links[link].tx with
  | .sending p => if p.kind = .safe then couFinish s (safeSent link p s) else .next s
  | _ => .next s

/-- TRAILER_END: the abort trailer is finished and the head of the waiting list begins (R134, R143, R180). -/
def execTrailerEnd (link : Fin 4) (s : State) : Result :=
  match s.cou.links[link].tx with
  | .trailer => couFinish s (mapLink link (fun x => (x.sendTrailer link).beginNext) s)
  | _ => .next s

/-! ### The command vector (R142) -/

/-- The command packet of a link (R142). -/
def commandPacket (frame : Frame) (outputs : List Int) (x : OutEntry) : Packet where
  kind := .command
  number := frame
  first := x.first
  values := (outputs.drop x.first).take x.count

/-- The COU takes a committed frame's vector (R142). -/
def takeVector (frame : Frame) (outputs : List Int) (settings : LinkSettings) (s : State) : State :=
  (allFin 4).foldl
    (fun s l =>
      match linkEntryOf s l with
      | some x => mapLink l (MirrorLink.pass (commandPacket frame outputs x)) s
      | none => s)
    { s with cou := { s.cou with settings := some settings } }

/-! ### The guards (R140, R141) -/

/-- A guard run after a report, up to 255. -/
def guardRun (bad : Bool) (run : Nat) : Nat := if bad then min 255 (run + 1) else 0

/-- The runs after a report, with the causes they add. -/
def countGuards (g : GuardReport) (s : State) : State :=
  let sat := guardRun (g.settings.saturationLimit < g.saturated) s.cou.saturationRun
  let void := guardRun g.void s.cou.voidRun
  let s1 := { s with cou := { s.cou with saturationRun := sat, voidRun := void } }
  let s2 := if g.settings.saturationFrames ≤ sat then addCause .guardSaturation s1 else s1
  if g.settings.voidFrames ≤ void then addCause .guardVoid s2 else s2

/-- The COU takes a guard report; the guards count in LIVE and in HELD (R140, R141). -/
def takeGuard (g : GuardReport) (s : State) : State := if s.cou.output = .quiet then s else countGuards g s

/-- Every guard report on its way is taken, in order (log 9). -/
def takeGuards (s : State) : State :=
  let s' := s.wires.guardReports.foldl (fun s g => takeGuard g s) s
  { s' with wires := { s'.wires with guardReports := [] } }

/-- GUARD_REPORT (R140, R141). -/
def execGuardReport (s : State) : Result :=
  match s.wires.guardReports with
  | [] => .next s
  | g :: rest => couFinish s (takeGuard g { s with wires := { s.wires with guardReports := rest } })

/-! ### Mirror link receivers and accept tokens (R145) -/

/-- An OK token for the awaited packet (R145). -/
def accepted (kind : PacketKind) (l : MirrorLink) : MirrorLink :=
  { l with
    window := .idle
    consecutive := if kind = .command then 0 else l.consecutive
    counts := { l.counts with accepted := l.counts.accepted + 1 } }

/-- A good token is taken against the link's window (R145). -/
def takeToken (l : Fin 4) (t : Token) (s : State) : State :=
  match s.cou.links[l].window with
  | .awaiting kind number _ =>
    if kind = t.kind && number == t.number then
      if t.ok then mapLink l (accepted kind) s else miss l .rejected s
    else mapLink l (MirrorLink.count fun c => { c with stray := c.stray + 1 }) s
  | .idle => mapLink l (MirrorLink.count fun c => { c with stray := c.stray + 1 }) s

/-- One more bad token (R145). -/
def badToken (l : Fin 4) (s : State) : State := mapLink l (MirrorLink.count fun c => { c with bad := c.bad + 1 }) s

/-- What a line event brings about at a mirror link receiver (R145). -/
def mirrorEvent (l : Fin 4) (s : State) : LineEvent → State
  | .discarded => badToken l s
  | .complete bs =>
    match parseToken bs with
    | some t => takeToken l t s
    | none => badToken l s
  | _ => s

/-- A mirror link's receiver has moved, with its events in order. -/
def mirrorStep (l : Fin 4) (x : Receiver × List LineEvent) (s : State) : State :=
  x.2.foldl (mirrorEvent l) (mapLink l (fun y => { y with rx := x.1 }) s)

/-- MIRROR_BLOCK: a receiver takes one block; while the initialising flag is set it is held DOWN (R145). -/
def execMirrorBlock (link : Fin 4) (sync : BitVec 2) (payload : BitVec 64) (s : State) : Result :=
  if s.run.initialising then .next s
  else couFinish s (mirrorStep link (s.cou.links[link].rx.take sync payload) s)

/-- MIRROR_SIGNAL_LOSS (R3, R145). -/
def execMirrorSignalLoss (link : Fin 4) (s : State) : Result :=
  finish s (mirrorStep link s.cou.links[link].rx.loseSignal s)

/-- MIRROR_SIGNAL_PRESENT (R2, R145). -/
def execMirrorSignalPresent (link : Fin 4) (s : State) : Result :=
  finish s (mapLink link (fun y => { y with rx := y.rx.findSignal }) s)

/-- ACCEPT_TIMEOUT: an AWAITING window closes once the time base has reached its expiry (R146). -/
def execAcceptTimeout (link : Fin 4) (s : State) : Result :=
  match s.cou.links[link].window with
  | .awaiting _ _ e => if Time.reached s.time e then couFinish s (miss link .timeout s) else .next s
  | .idle => .next s

/-! ### The interlock (8.2) -/

/-- The level, the pair and the release interval. -/
def setInterlock (level input : InterlockLevel) (release : Option Time) (s : State) : State :=
  { s with cou := { s.cou with level := level, input := input, release := release } }

/-- The interlock level becomes ASSERTED while the output is LIVE or HELD (R133). -/
def assertion (s : State) : State :=
  holdAction (mapLinksAt (fun i l => (l.cutCommand i).dropCommand) (addCause .interlock s))

/-- The pair reads asserted (R132, R133). -/
def assertInterlock (s : State) : State :=
  let s' := setInterlock .asserted .asserted none s
  if s.cou.level = .released && s.cou.output ≠ .quiet then assertion s' else s'

/-- INTERLOCK_ASSERTION (R132, R133). -/
def execInterlockAssertion (s : State) : Result := couFinish s (assertInterlock s)

/-- The release interval begins when both inputs read released, the level is ASSERTED, and initialisation is over (R132). -/
def beginRelease (s : State) : State :=
  if s.cou.input = .released && s.cou.level = .asserted && s.cou.release.isNone && !s.run.initialising then
    { s with cou := { s.cou with release := some (s.time + BitVec.ofNat 64 Config.releaseInterval) } }
  else s

/-- INTERLOCK_INPUTS_RELEASED (R132). -/
def execInterlockInputsReleased (s : State) : Result :=
  finish s (beginRelease { s with cou := { s.cou with input := .released } })

/-- INTERLOCK leaves the cause set of a HELD output (R136). -/
def releaseHold (s : State) : State :=
  let c := { s.cou.causes with interlock := false }
  if s.cou.autoResume then setOutput (if c.any then .held else .live) c s
  else setOutput .held (c.add .directive) s

/-- The level becomes RELEASED (R132, R136). -/
def releaseInterlock (s : State) : State :=
  let s' := setInterlock .released s.cou.input none s
  if s.cou.output = .held then releaseHold s' else s'

/-- INTERLOCK_RELEASE: both inputs have read released without interruption for 100 µs (R132, R136). -/
def execInterlockRelease (s : State) : Result :=
  match s.cou.release with
  | some e => if Time.reached s.time e then finish s (releaseInterlock s) else .next s
  | none => .next s

/-- INTERLOCK_RELEASE_INTERRUPTED: a reading of assertion within the 100 µs (R132). -/
def execInterlockReleaseInterrupted (s : State) : Result :=
  match s.cou.release with
  | some _ => finish s { s with cou := { s.cou with input := .asserted, release := none } }
  | none => .next s

/-! ### Run commands and resets (R130, R131) -/

/-- A mirror link as START and the end of DRAINING leave it; an abort trailer still being sent is finished (R130, log 19). -/
def MirrorLink.clear (i : Fin 4) (l : MirrorLink) : MirrorLink :=
  { (if l.tx = .trailer then l.sendTrailer i else l) with
    tx := .idle, waitingSafe := none, waitingCommand := none, window := .idle, consecutive := 0 }

/-- START at the COU (R130, R131). -/
def startCou (settings : LinkSettings) (s : State) : State :=
  let s1 := mapLinksAt MirrorLink.clear
    { s with cou := { s.cou with
        settings := some settings, saturationRun := 0, voidRun := 0
        lastEmitted := if s.cou.shapeLoaded then s.cou.safeShape else [] } }
  match s1.cou.level with
  | .released => setOutput .live {} s1
  | .asserted => holdAction (raise .held (setOutput .held { interlock := true } s1))

/-- The end of DRAINING at the COU (R130, R131). -/
def quietCou (s : State) : State :=
  setOutput .quiet {} (mapLinksAt MirrorLink.clear { s with cou := { s.cou with saturationRun := 0, voidRun := 0 } })

/-- A packet in transmission, of either kind, is cut off with an abort trailer (R130, R180). -/
def MirrorLink.cutAny (i : Fin 4) (l : MirrorLink) : MirrorLink :=
  match l.tx with
  | .sending p => l.cutOff i p
  | _ => l

/-- A mirror link after a reset (R130, R145); what it has sent stands. -/
def MirrorLink.reset (i : Fin 4) (l : MirrorLink) : MirrorLink where
  tx := (l.cutAny i).tx
  rx := l.rx.restart
  line := (l.cutAny i).line
  cuts := (l.cutAny i).cuts

/-- The COU after a Part Reset (R130, R132): the safe shape and its settings stay, the level is ASSERTED. -/
def Cou.partReset (c : Cou) : Cou where
  input := c.input
  safeShape := c.safeShape
  shapeLoaded := c.shapeLoaded
  action := c.action
  autoResume := c.autoResume
  links := Vector.ofFn fun i => c.links[i].reset i

/-- The COU after a Full Reset (R130, R132). -/
def Cou.fullReset (c : Cou) : Cou where
  input := c.input
  links := Vector.ofFn fun i => c.links[i].reset i

end Sys2Proof.Machine
end

