-- ==== Sys2Proof/Machine/Engine.lean ====
section
/-!
DEFINITION. The Reconstruction Engine (06): taking a frame, streaming, concluding, completion, the Integrator Store.
-/
namespace Sys2Proof.Machine

/-- The engine changed. -/
def mapRce (f : Rce → Rce) (s : State) : State := { s with rce := f s.rce }

/-- The edition in the slot that carries the in-use mark (R80, R99). -/
def editionInUse (s : State) : Edition := ((s.rce.inUse.bind fun i => (slotOf s i).edition)).getD {}

/-! ### The arithmetic of an actuator (R107 to R110) -/

/-- The group row of an actuator. -/
def Edition.row (e : Edition) (a : Nat) : GroupRow := e.groups[Fin.ofNat 16 (e.groupMap.getD a 0)]

/-- The candidate integrator value before its clamp: leak·c/65536 + gain·u/16384, rounded (R107). -/
def candidateOf (g : GroupRow) (c u : Int) : Int := roundRatio (g.leak * c + 4 * g.gain * u) 65536

/-- The slew limit against the Last Emitted value (R108). -/
def slewLimit (g : GroupRow) (le o : Int) : Int := clamp (le - g.slew) (le + g.slew) o

/-- The limits of a group (R107, R108). -/
def GroupRow.clamp (g : GroupRow) (v : Int) : Int := Sys2Proof.Machine.clamp g.low g.high v

/-- An actuator that is void for the frame (R110). -/
def voidResult (g : GroupRow) (le : Int) : ActuatorResult where
  candidate := none
  output := g.clamp le
  clampedCandidate := false
  clampedOutput := false

/-- An actuator that is not void (R107, R108). -/
def liveResult (g : GroupRow) (c le u probe : Int) : ActuatorResult :=
  let raw := candidateOf g c u
  let o := slewLimit g le (g.clamp raw + probe)
  { candidate := some (g.clamp raw)
    output := g.clamp o
    clampedCandidate := decide (g.clamp raw ≠ raw)
    clampedOutput := decide (g.clamp o ≠ o) }

/-- An actuator's result: void where the frame has no increment for it. -/
def actuatorResult (g : GroupRow) (c le : Int) (u : Option Int) (probe : Int) : ActuatorResult :=
  match u with
  | none => voidResult g le
  | some u => liveResult g c le u probe

/-- The actuator is marked saturated (R107, R108). -/
def ActuatorResult.saturated (r : ActuatorResult) : Bool := r.clampedCandidate || r.clampedOutput

/-- The Last Emitted value of an actuator (R147). -/
def lastEmittedOf (s : State) (a : Nat) : Int := Store.read 0 s.cou.lastEmitted a

/-- The result of an actuator with the Last Emitted value as it stands. -/
def resultOf (s : State) (e : Edition) (f : FrameContext) (a : Nat) : ActuatorResult :=
  actuatorResult (e.row a) (Store.read 0 s.rce.integrator a) (lastEmittedOf s a) (f.increments.getD a none)
    ((f.probe.getD []).getD a 0)

/-- The candidate and output vectors (R107, R108, R110). -/
def resultsOf (s : State) (e : Edition) (f : FrameContext) : List ActuatorResult :=
  (List.range e.actuatorCount).map (resultOf s e f)

/-! ### Taking a frame (R99) -/

/-- The residual of a position (R101). -/
def residualOf (ref : Int) : SlopeAnswer → Int
  | .slope v => clamp (-32768) 32767 (v - ref)
  | .lastGood v => clamp (-32768) 32767 (v - ref)
  | .residualZero => 0

/-- The residual vector (R101, log 11). -/
def residualsOf (s : State) (r : Fin 4) (e : Edition) : List Int :=
  (List.range e.slopeCount).map fun p => residualOf (e.reference.getD p 0) (answer s.fau.records[r] s.fau.lastGood p)

/-- The column blocks of tainted descriptors (R99). -/
def Edition.voidBlocks (e : Edition) : List Nat :=
  e.directory.foldl (fun m d => if d.2.taint then addToSet (keyColumn d.1) m else m) []

/-- The context of a frame just taken (R99). -/
def newContext (h : Handover) (e : Edition) : FrameContext where
  handed := h
  voidBlocks := e.voidBlocks

/-- A void frame: the record is released and the engine concludes without arithmetic (R99, R110). -/
def takeVoid (f : FrameContext) (e : Edition) (s : State) : State :=
  let g := { f with increments := List.replicate e.actuatorCount none }
  release f.handed.record
    (mapRce (fun r => { r with state := .concluding, frame := some { g with results := resultsOf s e g } }) s)

/-- A frame that is not void: its residuals are formed and its tile reads placed (R100, R101, log 8, log 11). -/
def takeStreaming (f : FrameContext) (e : Edition) (s : State) : State :=
  mapRce
    (fun r => { r with
      state := .streaming
      frame := some
        { f with
          plan := (e.directory.map Prod.fst).filter fun k => !f.voidBlocks.contains (keyColumn k)
          residual := residualsOf s f.handed.record e } }) s

/-- The engine takes a frame with the CURRENT slot (R99). -/
def takeFrame (h : Handover) (i : SlotId) (e : Edition) (s : State) : State :=
  let s' := mapRce (fun r => { r with inUse := some i }) { s with wires := { s.wires with handover := none } }
  let f := newContext h e
  if h.void then takeVoid f e s' else takeStreaming f e s'

/-- An IDLE report or taint reports still on their way are taken before the next frame (log 9). -/
def beforeFrame (s : State) : State := takeTaints (if s.wires.idleToDu then takeIdleAtDu s else s)

/-- FRAME_TAKE: the engine, IDLE, takes the dispatched frame (R99). -/
def execFrameTake (s : State) : Result :=
  match s.wires.handover, currentSlot s, s.rce.state with
  | some h, some (i, e), .idle => finish s (takeFrame h i e (beforeFrame s))
  | _, _, _ => .next s

/-! ### Streaming (R102 to R104) -/

/-- The amounts of one granule of a tile: 16 actuators of one slope position, in units of 2^-39 (R102, 12.4). -/
def addGranule (e : Edition) (d : Descriptor) (key granule : Nat) (bs : List Byte) (f : FrameContext) : FrameContext :=
  let res := f.residual.getD (256 * keyRow key + granule / 4) 0
  let first := 64 * keyColumn key + 16 * (granule % 4)
  let scale : Int := 2 ^ (d.exponent + 24).toNat
  { f with
    accumulators :=
      ((int16s 16 bs).zipIdx).foldl
        (fun m x =>
          let a := first + x.2
          if a < e.actuatorCount then Store.write 0 m a (Store.read 0 m a + x.1 * res * scale) else m)
        f.accumulators }

/-- The engine takes the data of a granted tile read; those of a void block contribute nothing (R100, R102). -/
def takeTile (t : TileReturn) (bs : List Byte) (s : State) : State :=
  match descriptorInUse t.key s with
  | none => s
  | some d =>
    mapFrame
      (fun f => if f.voidBlocks.contains (keyColumn t.key) then f else addGranule (editionInUse s) d t.key t.granule bs f) s

/-- TILE_READ_DONE: the oldest granted tile read, with its data (R102). -/
def execTileReadDone (s : State) : Result :=
  match s.wires.tileReturns with
  | t :: rest =>
    match t.data with
    | some bs => finish s (takeTile t bs { s with wires := { s.wires with tileReturns := rest } })
    | none => .next s
  | [] => .next s

/-- The engine takes an uncorrectable error of a tile read (R104). -/
def takeTileError (t : TileReturn) (s : State) : State :=
  raise .memoryError
    (mapRce (fun r => { r with tileErrors := r.tileErrors + 1 })
      (mapFrame (fun f => { f.voidColumn (keyColumn t.key) with memoryErrors := f.memoryErrors + 1 }) s))

/-- TILE_MEMORY_ERROR: the oldest granted tile read, with its error (R104). -/
def execTileMemoryError (s : State) : Result :=
  match s.wires.tileReturns with
  | t :: rest =>
    match t.data with
    | some _ => .next s
    | none => finish s (takeTileError t { s with wires := { s.wires with tileReturns := rest } })
  | [] => .next s

/-- The increment of an actuator from its accumulator (R102). -/
def incrementOf (acc : Int) : Int := clamp (-(2 ^ 31 - 1)) (2 ^ 31 - 1) (roundRatio acc (2 ^ 39))

/-- The increments: none for an actuator of a void block (R102, R103). -/
def incrementsOf (e : Edition) (f : FrameContext) : List (Option Int) :=
  (List.range e.actuatorCount).map fun a =>
    if f.voidBlocks.contains (a / 64) then none else some (incrementOf (Store.read 0 f.accumulators a))

/-- STREAMING ends (R103). -/
def endStreaming (f : FrameContext) (s : State) : State :=
  release f.handed.record
    (mapRce
      (fun r => { r with state := .concluding, frame := some { f with increments := incrementsOf (editionInUse s) f } }) s)

/-- STREAMING_END: every entry is read, passed over or withdrawn, and all data are taken (R103). -/
def execStreamingEnd (s : State) : Result :=
  match s.rce.state, s.rce.frame with
  | .streaming, some f =>
    if f.plan.isEmpty && s.wires.tileReturns.isEmpty then finish s (endStreaming f s) else .next s
  | _, _ => .next s

/-! ### The probe request (R106, R122) -/

/-- The Probe Unit answers from the source in force, and the engine forms candidates and outputs (R106 to R108, R122). -/
def supplyProbe (f : FrameContext) (s : State) : State :=
  let e := editionInUse s
  let x := s.pru.inForce
  let g := { f with probe := some (probeVector e.actuatorCount x.2.1 x.2.2), source := x.1 }
  mapPru (fun p => { p with supply := some { source := x.1, inForce := true } })
    (mapRce (fun r => { r with frame := some { g with results := resultsOf s e g } }) s)

/-- PROBE_REQUEST: once for a frame that is not void; notices on their way are taken first (R106, R122, log 9). -/
def execProbeRequest (s : State) : Result :=
  match s.rce.state, s.rce.frame with
  | .concluding, some f =>
    if !f.handed.void && f.probe.isNone then finish s (supplyProbe f (takeNotices s)) else .next s
  | _, _ => .next s

/-! ### The Integrator Store (R116 to R119) -/

/-- A change of the store is applied. -/
def applyChange (c : StoreChange) (s : State) : State :=
  mapRce (fun r => { r with integrator := Store.writeAll 0 r.integrator c.first c.values }) s

/-- A change is applied at once, or held back while CONCLUDING (R118). -/
def takeChange (c : StoreChange) (s : State) : State :=
  if s.rce.state = .concluding then mapFrame (fun f => { f with changes := f.changes ++ [c] }) s
  else applyChange c s

/-- INTEGRATOR_CHANGE: the oldest change the DU has handed over (R117, R118). -/
def execIntegratorChange (s : State) : Result :=
  match s.wires.integratorChanges with
  | [] => .next s
  | c :: rest => finish s (takeChange c { s with wires := { s.wires with integratorChanges := rest } })

/-- SAFE_SHAPE_REQUEST: the oldest request of the COU (R119). -/
def execSafeShapeRequest (s : State) : Result :=
  match s.wires.safeRequests with
  | [] => .next s
  | c :: rest => finish s (takeChange c { s with wires := { s.wires with safeRequests := rest } })

/-! ### Completion (R112, R113) -/

/-- The Last Emitted values read last are read now (R108, log 12). -/
def rereadLate (late : List (Fin 1024)) (e : Edition) (f : FrameContext) (s : State) : List ActuatorResult :=
  f.results.zipIdx.map fun x => if late.any fun a => a.val == x.2 then resultOf s e f x.2 else x.1

/-- Step 1 of R112. -/
def decideResult (void : Bool) (o : OutputState) : FrameResult :=
  if void then .void else if o = .live then .committed else .heldOpenLoop

/-- An actuator's candidate is committed; a void actuator has none (R110, R112 step 2). -/
def commitOne (m : Store Int) (x : ActuatorResult × Nat) : Store Int :=
  match x.1.candidate with
  | some v => Store.write 0 m x.2 v
  | none => m

/-- Step 2 of R112: the candidates are committed. -/
def commitCandidates (rs : List ActuatorResult) (s : State) : State :=
  mapRce (fun r => { r with integrator := rs.zipIdx.foldl commitOne r.integrator }) s

/-- Steps 2 and 3 of R112. -/
def commitFrame (f : FrameContext) (e : Edition) (rs : List ActuatorResult) (s : State) : State :=
  takeVector f.handed.frame (rs.map ActuatorResult.output) e.links (commitCandidates rs s)

/-- The saturated count (R111). -/
def saturatedCount (rs : List ActuatorResult) : Nat := rs.countP ActuatorResult.saturated

/-- The void actuator count (R111). -/
def voidActuatorCount (f : FrameContext) (e : Edition) : Nat :=
  if f.handed.void then e.actuatorCount
  else (List.range e.actuatorCount).countP fun a => f.voidBlocks.contains (a / 64)

/-- The telemetry set of a frame, its states read at step 1 from `s` (R112 step 5). -/
def telemetryOf (s : State) (f : FrameContext) (e : Edition) (rs : List ActuatorResult) (result : FrameResult) :
    TelemetrySet where
  number := s.rpu.handed + 1
  handed := f.handed
  edition := e.number
  slopeCount := e.slopeCount
  actuatorCount := e.actuatorCount
  completed := s.time
  result := result
  output := s.cou.output
  causes := s.cou.causes
  saturated := saturatedCount rs
  voidActuators := voidActuatorCount f e
  memoryErrors := f.memoryErrors
  source := f.source
  residual := if f.handed.void then none else some f.residual
  outputs := rs.map ActuatorResult.output

/-- A telemetry set joins the holding list, or is dropped whole when 4 are there (R165). The dropped count wraps to 0, which R165 leaves
open (log 42). -/
def handTelemetry (t : TelemetrySet) (s : State) : State :=
  let s' := { s with rpu := { s.rpu with handed := t.number } }
  if s.rpu.holding.length < Config.listRoom then
    { s' with rpu := { s'.rpu with holding := s'.rpu.holding ++ [t] } }
  else
    { s' with
      rpu := { s'.rpu with dropped := s'.rpu.dropped + 1 }
      wires := { s'.wires with telemetryWritten := s'.wires.telemetryWritten ++ [t.number] } }

/-- The notice to the Probe Unit (R112 step 4). -/
def noticeProbe (committed : Bool) (s : State) : State :=
  { s with wires := { s.wires with probeNotices := s.wires.probeNotices ++ [committed] } }

/-- The guard report (R112 step 6). -/
def reportGuards (g : GuardReport) (s : State) : State :=
  { s with wires := { s.wires with guardReports := s.wires.guardReports ++ [g] } }

/-- A RETAINED slot whose mark is dropped becomes EMPTY, and the release is reported (R78, R113). -/
def releaseSlot (i : SlotId) (s : State) : State :=
  match slotOf s i with
  | .retained _ =>
    let s' := rebuildWatch (setSlot i .empty s)
    { s' with wires := { s'.wires with slotRelease := true } }
  | _ => s

/-- The engine drops its mark and is IDLE (R112 step 8, R113). -/
def endFrame (s : State) : State :=
  let s1 := mapRce (fun r => { r with inUse := none, frame := none, state := .idle }) s
  let s' := match s.rce.inUse with
    | some i => releaseSlot i s1
    | none => s1
  { s' with wires := { s'.wires with idleToFau := true, idleToRun := true, idleToDu := true } }

/-- The completion of a frame, in the order of R112. -/
def completeFrame (late : List (Fin 1024)) (f : FrameContext) (s : State) : State :=
  let e := editionInUse s
  let rs := rereadLate late e f s
  let result := decideResult f.handed.void s.cou.output
  let s3 := if result = .committed then commitFrame f e rs s else s
  let s4 := noticeProbe (result == .committed) s3
  let s5 := handTelemetry (telemetryOf s f e rs result) s4
  let s6 := reportGuards { saturated := saturatedCount rs, void := f.handed.void, settings := e.guards } s5
  endFrame (f.changes.foldl (fun s c => applyChange c s) s6)

/-- FRAME_COMPLETION: guard reports on their way are taken first (R112, R113, log 9). -/
def execFrameCompletion (late : List (Fin 1024)) (s : State) : Result :=
  match s.rce.state, s.rce.frame with
  | .concluding, some f =>
    if f.handed.void || f.probe.isSome then couFinish s (completeFrame late f (takeGuards s)) else .next s
  | _, _ => .next s

end Sys2Proof.Machine
end

