-- ==== Sys2Proof/Machine/Directives.lean ====
section
/-!
DEFINITION. The directives (02, 03, 05 to 10): each acts on the directive in hand once the Directive Unit has taken it and passed
it to its owner (R153), makes the kind's own checks in the manual's order, and ends, occupies, waits or is deferred. And the ends
of the vector reads.
-/
namespace Sys2Proof.Machine

/-- The directive in hand, passed to its owner and not yet carried out, when it is of a kind (log 10). -/
def takenHand (kind : Nat) (s : State) : Option Hand :=
  match s.du.hand with
  | some h => if h.phase = .taken && h.kind == kind then some h else none
  | none => none

/-- REFUSED_FIELD, REFUSED_RANGE and REFUSED_STATE, with detail 0: R96 and R129 state it, and where a kind's chapter gives none it is
the model's (log 44). -/
def refuseField (s : State) : State := endHand codeRefusedField 0 s
def refuseRange (s : State) : State := endHand codeRefusedRange 0 s
def refuseState (s : State) : State := endHand codeRefusedState 0 s

/-- DONE. -/
def done (detail : BitVec 32) (s : State) : State := endHand codeDone detail s

/-- The parameter length is the kind's, and a reserved field is zero. -/
def Hand.fits (length reserved count : Nat) (h : Hand) : Bool := h.length == length && zeroField h.params reserved count

/-- A bit of a mask. -/
def maskHas (mask i : Nat) : Bool := mask.testBit i

/-! ### Adoption directives (R81, R86, R87) -/

/-- An address that is not a multiple of 64, or an area the host may not name. -/
def badArea (s : State) (address size : Nat) : Bool := address % 64 != 0 || !goodArea s address size

/-- ADOPT_EDITION (R81). -/
def adoptEdition (h : Hand) (s : State) : State :=
  if !h.fits 8 4 4 then refuseField s
  else if badArea s (field h.params 0 4) 256 then refuseRange s
  else takeSlot h s

/-- ADOPT_EDITION (R81). -/
def execAdoptEdition (s : State) : Result :=
  match takenHand 1 s with
  | some h => finish s (adoptEdition h s)
  | none => .next s

/-- AMEND_GROUPS (R86). -/
def amendGroups (h : Hand) (s : State) : State :=
  if !h.fits 12 8 4 then refuseField s
  else if field h.params 0 4 = 0 || badArea s (field h.params 4 4) 192 then refuseRange s
  else if (currentSlot s).isNone then refuseState s
  else takeSlot h s

/-- AMEND_GROUPS (R86). -/
def execAmendGroups (s : State) : Result :=
  match takenHand 2 s with
  | some h => finish s (amendGroups h s)
  | none => .next s

/-- The range checks of REPOINT_TILE that both actions share (R87). -/
def repointOutside (h : Hand) : Bool :=
  field h.params 0 4 == 0 || (field h.params 4 1 != 1 && field h.params 4 1 != 2) || 63 < field h.params 5 1
    || 15 < field h.params 6 1

/-- The range checks of SET: the exponent and the tile (R87). -/
def repointTileOutside (h : Hand) (s : State) : Bool :=
  let exponent := signed 8 (field h.params 7 1)
  exponent < -24 || 8 < exponent || tileAddressFails s (field h.params 8 4)

/-- REPOINT_TILE with SET, or with an action that is neither SET nor REMOVE (R87). -/
def repointTileSet (h : Hand) (s : State) : State :=
  if !h.fits 16 12 4 then refuseField s
  else if repointOutside h || repointTileOutside h s then refuseRange s
  else if (currentSlot s).isNone then refuseState s
  else takeSlot h s

/-- REPOINT_TILE with REMOVE: address and exponent must be zero (R87). -/
def repointTileRemove (h : Hand) (s : State) : State :=
  if !h.fits 16 12 4 || !zeroField h.params 7 5 then refuseField s
  else if repointOutside h then refuseRange s
  else if (currentSlot s).isNone then refuseState s
  else takeSlot h s

/-- The action of a REPOINT_TILE is REMOVE (12.3). -/
def Hand.removes (h : Hand) : Bool := field h.params 4 1 == 2

/-- REPOINT_TILE_SET (R87, R88). -/
def execRepointTileSet (s : State) : Result :=
  match takenHand 3 s with
  | some h => if h.removes then .next s else finish s (repointTileSet h s)
  | none => .next s

/-- REPOINT_TILE_REMOVE (R87, R88). -/
def execRepointTileRemove (s : State) : Result :=
  match takenHand 3 s with
  | some h => if h.removes then finish s (repointTileRemove h s) else .next s
  | none => .next s

/-- RETIRE_RANGE (R94). -/
def retireRange (h : Hand) (s : State) : State :=
  if !h.fits 12 8 4 then refuseField s
  else if field h.params 4 4 = 0 || !inXm (field h.params 0 4) (field h.params 4 4) then refuseRange s
  else judgeRetire h s

/-- RETIRE_RANGE (R94). -/
def execRetireRange (s : State) : Result :=
  match takenHand 4 s with
  | some h => finish s (retireRange h s)
  | none => .next s

/-! ### Stream directives (R18 to R21, R32) -/

/-- The configuration a SET_STREAM carries (12.3). -/
def parseStream (h : Hand) : StreamConfig where
  link := field h.params 1 1
  tag := field h.params 2 2
  base := field h.params 4 2
  count := field h.params 6 2
  segments := field h.params 8 1
  substitution := if field h.params 9 1 = 1 then .last else .zero
  mandatory := field h.params 10 1 == 1
  cutTimeout := field h.params 11 1
  allowance := field h.params 12 2

/-- The fields lie in the ranges of the table of 2.1, with their codes defined (R18 check 4). -/
def streamInRange (h : Hand) : Bool :=
  let c := parseStream h
  1 ≤ c.tag && c.tag ≤ 4095 && c.link ≤ 7 && c.base ≤ 16383 && 1 ≤ c.count && c.count ≤ 16384 && 1 ≤ c.segments
    && c.segments ≤ 64 && field h.params 9 1 ≤ 1 && field h.params 10 1 ≤ 1 && c.allowance ≤ 16384 && 1 ≤ c.cutTimeout
    && c.base + c.count ≤ Config.slopePositions

/-- Two configurations share a position or a tag. -/
def StreamConfig.clashes (c d : StreamConfig) : Bool := overlaps c.base c.count d.base d.count || c.tag == d.tag

/-- The configuration clashes with an enabled stream other than the named one (R18 check 5). -/
def clashesEnabled (i : Fin 16) (c : StreamConfig) (s : State) : Bool :=
  (allFin 16).any fun j => j != i && s.sau.streams[j].enabled && c.clashes s.sau.streams[j].config

/-- SET_STREAM of a stream 0 to 15 (R18). -/
def setStream (i : Fin 16) (h : Hand) (s : State) : State :=
  if isRunning s && s.sau.streams[i].enabled then refuseState s
  else if !streamInRange h || clashesEnabled i (parseStream h) s then refuseRange s
  else done 0 (mapStream i (fun x => { x with config := parseStream h }) s)

/-- The stream number of a SET_STREAM (12.3). -/
def Hand.stream (h : Hand) : Nat := field h.params 0 1

/-- SET_STREAM (R18): stream number 255 is the link form. -/
def setStreamForm (h : Hand) (s : State) : State :=
  if !h.fits 20 14 6 then refuseField s
  else if p : h.stream < 16 then setStream ⟨h.stream, p⟩ h s
  else refuseRange s

/-- SET_STREAM (R18). -/
def execSetStream (s : State) : Result :=
  match takenHand 5 s with
  | some h => if h.stream = 255 then .next s else finish s (setStreamForm h s)
  | none => .next s

/-- SET_STREAM with stream number 255 (R19). Where a parameter that must be zero is not and the link or the flag is out of range too, R19
gives no order: REFUSED_FIELD comes first (log 41). -/
def setAsideFlag (h : Hand) (s : State) : State :=
  if !h.fits 20 14 6 || !zeroField h.params 2 7 || !zeroField h.params 10 4 then refuseField s
  else if p : field h.params 1 1 < 8 then
    if 1 < field h.params 9 1 then refuseRange s
    else
      done 0 { s with sau := { s.sau with
        asideFlags := s.sau.asideFlags.set (field h.params 1 1) (field h.params 9 1 == 1) p } }
  else refuseRange s

/-- SET_ASIDE_FLAG (R19). -/
def execSetAsideFlag (s : State) : Result :=
  match takenHand 5 s with
  | some h => if h.stream = 255 then finish s (setAsideFlag h s) else .next s
  | none => .next s

/-- The streams of a mask. -/
def streamsIn (mask : Nat) : List (Fin 16) := (allFin 16).filter fun i => maskHas mask i.val

/-- Two streams of a set clash (R20). -/
def anyClash (set : List (Fin 16)) (s : State) : Bool :=
  set.any fun i => set.any fun j => i != j && s.sau.streams[i].config.clashes s.sau.streams[j].config

/-- The state an enabled stream enters (R20). -/
def enabledState (s : State) : StreamState := if isRunning s then .seeking else .standby

/-- A DISABLED stream is enabled; one already enabled keeps its state (R20). -/
def enableStream (s : State) (i : Fin 16) : State :=
  if s.sau.streams[i].enabled then s
  else enterState i (enabledState s) (mapStream i (fun x => { x with enabled := true }) s)

/-- ENABLE_STREAMS (R20). -/
def enableStreams (h : Hand) (s : State) : State :=
  let set := streamsIn (field h.params 0 2)
  if !h.fits 4 2 2 then refuseField s
  else if set.any fun i => s.sau.streams[i].config.count == 0 then refuseState s
  else if anyClash ((allFin 16).filter fun i => s.sau.streams[i].enabled || set.contains i) s then refuseRange s
  else done 0 (set.foldl enableStream s)

/-- ENABLE_STREAMS (R20). -/
def execEnableStreams (s : State) : Result :=
  match takenHand 6 s with
  | some h => finish s (enableStreams h s)
  | none => .next s

/-- A stream is disabled (R21). -/
def disableStream (s : State) (i : Fin 16) : State :=
  leaveFor i .disabled (mapStream i (fun x => { x with enabled := false }) s)

/-- DISABLE_STREAMS (R21). -/
def disableStreams (h : Hand) (s : State) : State :=
  if !h.fits 4 2 2 then refuseField s else done 0 ((streamsIn (field h.params 0 2)).foldl disableStream s)

/-- DISABLE_STREAMS (R21). -/
def execDisableStreams (s : State) : Result :=
  match takenHand 7 s with
  | some h => finish s (disableStreams h s)
  | none => .next s

/-- The counters of the streams of a mask become 0 (R32). -/
def clearCounters (mask : Nat) (s : State) : State :=
  (streamsIn mask).foldl (fun s i => mapStream i (fun x => { x with counters := .replicate 11 0 }) s) s

/-- A port's four counts become 0 (R15). -/
def Port.clear (p : Port) : Port := { p with crcErrors := 0, codingErrors := 0, oversize := 0, foreign := 0 }

/-- The counts of the links of a mask become 0 (R15, R32). -/
def clearLinks (mask : Nat) (s : State) : State :=
  ((allFin 8).filter fun l => maskHas mask l.val).foldl (fun s l => mapPort l Port.clear s) s

/-- CLEAR_STREAM_ERRORS (R32), with the report of its completion (R36). -/
def clearStreamErrors (h : Hand) (s : State) : State :=
  if !h.fits 4 3 1 then refuseField s
  else done 0 (oweStreamReport (clearLinks (field h.params 2 1) (clearCounters (field h.params 0 2) s)))

/-- CLEAR_STREAM_ERRORS (R32). -/
def execClearStreamErrors (s : State) : Result :=
  match takenHand 15 s with
  | some h => finish s (clearStreamErrors h s)
  | none => .next s

/-! ### SET_PACE (R38, R39) -/

/-- Check 2 of R38. -/
def paceOutside (h : Hand) : Bool :=
  let period := field h.params 2 2
  let margin := field h.params 4 2
  let deadline := field h.params 6 2
  15 < field h.params 0 1 || period < 50 || 20000 < period || margin < 1 || 1000 < margin || deadline < 10 || 5000 < deadline

/-- The pace stream, period and margin are those in force (R38 check 3). -/
def samePace (h : Hand) (s : State) : Bool :=
  s.fck.stream.val == field h.params 0 1 && s.fck.period == field h.params 2 2 && s.fck.margin == field h.params 4 2

/-- The pace configuration takes the four values (R38); in RUNNING only the deadline differs (R39). -/
def takePaceSettings (h : Hand) (s : State) : State :=
  { s with fck := { s.fck with
      stream := Fin.ofNat 16 (field h.params 0 1), period := field h.params 2 2, margin := field h.params 4 2
      deadline := field h.params 6 2, configured := true } }

/-- SET_PACE (R38, R39). -/
def setPace (h : Hand) (s : State) : State :=
  if !h.fits 12 8 4 || !zeroField h.params 1 1 then refuseField s
  else if paceOutside h then refuseRange s
  else if isRunning s && !samePace h s then refuseState s
  else done 0 (takePaceSettings h s)

/-- SET_PACE (R38). -/
def execSetPace (s : State) : Result :=
  match takenHand 8 s with
  | some h => finish s (setPace h s)
  | none => .next s

/-! ### Vectors read from Exchange Memory (R117, R126, R137) -/

/-- The first value of a vector that is −32768. -/
def badValue (vs : List Int) : Option Nat := vs.findIdx? fun v => v == -32768

/-- A vector of 1,024 values has been read: FAILED_MEMORY, FAILED_CHECK, or its use (R117, R137). The rules give the two failures no order: that
the values are checked when the whole vector has been read, so that FAILED_MEMORY wins, is the model's choice (log 51). -/
def vectorRead (j : ReadJob) (use : List Int → State → State) (s : State) : State :=
  match j.failed with
  | some offset => endHand codeFailedMemory (BitVec.ofNat 32 offset) (raise .memoryError s)
  | none =>
    let vs := int16s 1024 j.bytes
    match badValue vs with
    | some a => endHand codeFailedCheck (checkDetail 1 a) s
    | none => use vs s

/-! ### The safe shape and the output (R137 to R139) -/

/-- LOAD_SAFE_SHAPE (R137). -/
def loadSafeShape (h : Hand) (s : State) : State :=
  if !h.fits 8 6 2 then refuseField s
  else if 1 < field h.params 4 1 || 1 < field h.params 5 1 || badArea s (field h.params 0 4) 2048 then refuseRange s
  else occupy .vector (field h.params 0 4) 2048 s

/-- LOAD_SAFE_SHAPE (R137). -/
def execLoadSafeShape (s : State) : Result :=
  match takenHand 9 s with
  | some h => finish s (loadSafeShape h s)
  | none => .next s

/-- The Safe Shape Store takes the values, with the hold action and auto-resume (R137). -/
def installShape (h : Hand) (vs : List Int) (s : State) : State :=
  done 0
    { s with cou := { s.cou with
        safeShape := Store.writeAll 0 [] 0 vs
        shapeLoaded := true
        action := if field h.params 4 1 = 1 then .safe else .freeze
        autoResume := field h.params 5 1 == 1 } }

/-- SAFE_SHAPE_READ_DONE (R137). -/
def execSafeShapeReadDone (s : State) : Result :=
  match workingHand [9] s, duReturned .vector s with
  | some h, some j => finish s (vectorRead j (installShape h) s)
  | _, _ => .next s

/-- The causes are cleared and the output is LIVE, with the runs and consecutive misses 0 (R138). -/
def resumeCou (s : State) : State :=
  setOutput .live {}
    (mapLinks (fun l => { l with consecutive := 0 }) { s with cou := { s.cou with saturationRun := 0, voidRun := 0 } })

/-- RESUME_OUTPUT (R138). -/
def resumeOutput (h : Hand) (s : State) : State :=
  if !h.fits 4 0 4 then refuseField s
  else if !isRunning s || s.cou.level = .asserted then refuseState s
  else done (BitVec.ofNat 32 s.cou.causes.byte) (resumeCou s)

/-- RESUME_OUTPUT (R138). -/
def execResumeOutput (s : State) : Result :=
  match takenHand 10 s with
  | some h => finish s (resumeOutput h s)
  | none => .next s

/-- HOLD_OUTPUT (R139). -/
def holdOutput (h : Hand) (s : State) : State :=
  if !h.fits 4 0 4 then refuseField s
  else if !isRunning s then refuseState s
  else done 0 (addCause .directive s)

/-- HOLD_OUTPUT (R139). -/
def execHoldOutput (s : State) : Result :=
  match takenHand 11 s with
  | some h => couFinish s (holdOutput h s)
  | none => .next s

/-! ### Probe directives (R123, R126) -/

/-- Check 2 of R123. -/
def cycleOutside (r : CopyRequest) (s : State) : Bool :=
  16 < r.entries
    || (r.entries != 0 && (r.length < 1 || 1024 < r.length || badArea s r.table (8 * r.entries)))

/-- SET_PROBE_CYCLE (R123). -/
def setProbeCycle (h : Hand) (s : State) : State :=
  let r := copyRequest h
  if !h.fits 8 5 1 || (r.entries == 0 && (r.table != 0 || r.length != 0)) then refuseField s
  else if cycleOutside r s then refuseRange s
  else joinProbe h s

/-- SET_PROBE_CYCLE (R123). -/
def execSetProbeCycle (s : State) : Result :=
  match takenHand 12 s with
  | some h => finish s (setProbeCycle h s)
  | none => .next s

/-- The frame count of an INJECT_PROBE (12.3): 0 is a cancel. -/
def Hand.frames (h : Hand) : Nat := field h.params 8 2

/-- INJECT_PROBE with a frame count that is not 0 (R126). -/
def injectProbe (h : Hand) (s : State) : State :=
  let length := field h.params 4 2
  if !h.fits 12 10 2 then refuseField s
  else if length < 1 || 1024 < length || badArea s (field h.params 0 4) (2 * length) then refuseRange s
  else if !isRunning s then refuseState s
  else
    match s.pru.injection with
    | some i => endHand codeRefusedBusy (BitVec.ofNat 32 i.left) s
    | none => occupy .vector (field h.params 0 4) (2 * length) s

/-- INJECT_PROBE (R126). -/
def execInjectProbe (s : State) : Result :=
  match takenHand 13 s with
  | some h => if h.frames = 0 then .next s else finish s (injectProbe h s)
  | none => .next s

/-- The active injection becomes inactive, and a supply from it is no longer in force (R126). -/
def cancelInjection (s : State) : State :=
  mapPru (fun p => Pru.overrule { p with injection := none } ProbeSource.isInjection) s

/-- INJECT_PROBE with frame count 0 (R126). -/
def injectProbeCancel (h : Hand) (s : State) : State :=
  if !h.fits 12 10 2 || !zeroField h.params 0 8 then refuseField s
  else if !isRunning s then refuseState s
  else
    match s.pru.injection with
    | some i => done (BitVec.ofNat 32 i.left) (cancelInjection s)
    | none => done 0 s

/-- INJECT_PROBE_CANCEL (R126). -/
def execInjectProbeCancel (s : State) : Result :=
  match takenHand 13 s with
  | some h => if h.frames = 0 then finish s (injectProbeCancel h s) else .next s
  | none => .next s

/-- The injection of a pattern that has been read (R126). -/
def injectionOf (h : Hand) (j : ReadJob) : Injection where
  pattern := int16s (field h.params 4 2) j.bytes
  amplitude := field16 h.params 6
  left := h.frames

/-- The injection becomes active (R126). -/
def installInjection (h : Hand) (j : ReadJob) (s : State) : State :=
  done 0 (mapPru (fun p => { p with injection := some (injectionOf h j) }) s)

/-- The pattern of an injection has been read (R126). -/
def patternReturned (h : Hand) (j : ReadJob) (s : State) : State :=
  match j.failed with
  | some offset => endHand codeFailedMemory (BitVec.ofNat 32 offset) (raise .memoryError s)
  | none => installInjection h j s

/-- INJECT_PATTERN_READ_DONE (R126). -/
def execInjectPatternReadDone (s : State) : Result :=
  match workingHand [13] s, duReturned .vector s with
  | some h, some j => finish s (patternReturned h j s)
  | _, _ => .next s

/-! ### RESET_INTEGRATOR (R117) -/

/-- The DU hands the engine new contents of the Integrator Store (R117). -/
def handChange (values : List Int) (s : State) : State :=
  { s with wires := { s.wires with integratorChanges := s.wires.integratorChanges ++ [{ first := 0, values := values }] } }

/-- The mode of a RESET_INTEGRATOR (12.3). -/
def Hand.mode (h : Hand) : Nat := field h.params 0 1

/-- RESET_INTEGRATOR with mode ZERO (R117). -/
def resetIntegratorZero (h : Hand) (s : State) : State :=
  if !h.fits 8 1 3 || field h.params 4 4 ≠ 0 then refuseField s
  else done 0 (handChange (List.replicate Config.actuators 0) s)

/-- RESET_INTEGRATOR_ZERO (R117). -/
def execResetIntegratorZero (s : State) : Result :=
  match takenHand 14 s with
  | some h => if h.mode = 0 then finish s (resetIntegratorZero h s) else .next s
  | none => .next s

/-- RESET_INTEGRATOR with mode VECTOR, or with a mode that is neither (R117). -/
def resetIntegratorVector (h : Hand) (s : State) : State :=
  if !h.fits 8 1 3 then refuseField s
  else if h.mode ≠ 1 || badArea s (field h.params 4 4) 2048 then refuseRange s
  else occupy .vector (field h.params 4 4) 2048 s

/-- RESET_INTEGRATOR_VECTOR (R117). -/
def execResetIntegratorVector (s : State) : Result :=
  match takenHand 14 s with
  | some h => if h.mode = 0 then .next s else finish s (resetIntegratorVector h s)
  | none => .next s

/-- INTEGRATOR_VECTOR_READ_DONE (R117). -/
def execIntegratorVectorReadDone (s : State) : Result :=
  match workingHand [14] s, duReturned .vector s with
  | some _, some j => finish s (vectorRead j (fun vs s => done 0 (handChange vs s)) s)
  | _, _ => .next s

/-! ### DRAIN and SET_TELEMETRY (R159, R168) -/

/-- DRAIN (R159). -/
def drain (h : Hand) (s : State) : State := if !h.fits 4 0 4 then refuseField s else takeDrain h s

/-- DRAIN (R159). -/
def execDrain (s : State) : Result :=
  match takenHand 16 s with
  | some h => finish s (drain h s)
  | none => .next s

/-- SET_TELEMETRY (R168). -/
def setTelemetry (h : Hand) (s : State) : State :=
  if !h.fits 4 2 2 then refuseField s
  else
    done (s.rpu.decimation.setWidth 32)
      { s with rpu := { s.rpu with
          decimation := BitVec.ofNat 16 (field h.params 0 2), decimationCounter := 0, statusOwed := true } }

/-- SET_TELEMETRY (R168). -/
def execSetTelemetry (s : State) : Result :=
  match takenHand 17 s with
  | some h => finish s (setTelemetry h s)
  | none => .next s

end Sys2Proof.Machine
end

