-- ==== Sys2Proof/Machine/RunControl.lean ====
section
/-!
DEFINITION. Run control (11): LOAD_ANCHOR, START, STOP, the end of DRAINING, resets and the end of initialisation.
-/
namespace Sys2Proof.Machine

/-- A refused run command changes the last run refusal and nothing else (11.4). -/
def refuseRun (c : RunRefusal) (s : State) : State := { s with run := { s.run with refusal := c } }

/-- A change of run state by an accepted command (11.4). -/
def enterRun (r : RunState) (s : State) : State :=
  raise .runChange { s with run := { s.run with state := r, refusal := .none } }

/-! ### LOAD_ANCHOR (R175) -/

/-- LOAD_ANCHOR is taken in HALTED: the 256 bytes are read as DU reads (R175, log 24). -/
def loadAnchor (s : State) : State :=
  if s.run.state = .halted && !s.run.busy && !s.run.initialising then
    duRead .anchor 0 256 { s with run := { s.run with busy := true, refusal := .none } }
  else refuseRun .wrongState s

/-- LOAD_ANCHOR (R175). -/
def execLoadAnchor (s : State) : Result := finish s (loadAnchor s)

/-- The record was not taken: the part stays HALTED (R175). -/
def anchorInvalid (s : State) : State :=
  { s with run := { s.run with busy := false, refusal := .anchorInvalid }, du := { s.du with job := none } }

/-- The scan timer is armed for one scan interval (R149). -/
def armScan (a : Anchor) (s : State) : State := { s with du := { s.du with scanTimer := some (s.time + micros a.interval) } }

/-- The Directive Unit takes its strip settings (R149). -/
def Du.load (a : Anchor) : Du :=
  { expected := some a.firstTicket, takenThrough := some (a.firstTicket - 1), settledThrough := some (a.firstTicket - 1) }

/-- A valid record is taken as one event (R175). It sets the last run refusal to NONE, so that a WRONG_STATE recorded while the read was
busy does not survive (log 24). -/
def takeAnchor (a : Anchor) (s : State) : State :=
  enterRun .ready
    (armScan a
      { s with
        run := { s.run with busy := false, anchor := some a }
        du := Du.load a
        sau := { s.sau with nextSlot := 0, holding := [] }
        rpu := { s.rpu with statusOwed := true, streamOwed := true, nextSnapshot := 0, handed := 0 } })

/-- The Anchor Record has been read (R175). -/
def anchorRead (j : ReadJob) (s : State) : State :=
  if j.failed.isSome then anchorInvalid (raise .memoryError s)
  else if validAnchor j.bytes then takeAnchor (parseAnchor j.bytes) s
  else anchorInvalid s

/-- ANCHOR_READ_DONE (R175). -/
def execAnchorReadDone (s : State) : Result :=
  match s.run.state, s.run.busy, duReturned .anchor s with
  | .halted, true, some j => finish s (anchorRead j s)
  | _, _, _ => .next s

/-! ### START (R176) -/

/-- The three conditions of START (R176). -/
def startReady (s : State) : Bool :=
  (currentSlot s).isSome && s.fck.configured && s.sau.streams[s.fck.stream].enabled

/-- Segments of an earlier run still on their way to Frame Assembly are judged as in READY (R21, R24). -/
def takeHandedAll (s : State) : State :=
  s.wires.handed.foldl (fun s h => placeHanded h s) { s with wires := { s.wires with handed := [] } }

/-- Outcomes of an earlier run still on their way are counted (R26). -/
def takeReturnedAll (s : State) : State :=
  s.wires.returned.foldl (fun s r => takeReturned r s) { s with wires := { s.wires with returned := [] } }

/-- What else was on its way of an earlier run is gone, a confirmation the SAU awaits among it (log 9, log 23). -/
def forgetRun (s : State) : State :=
  { s with
    sau := { s.sau with streams := s.sau.streams.map fun x => { x with awaiting := false } }
    wires := { s.wires with
      lockedExits := [], paceReports := [], misinserts := [], reframeRequest := false, reframeConfirmed := false
      frameStarts := [], probeNotices := [], guardReports := [], integratorChanges := [], safeRequests := [] } }

/-- What an earlier run left on its way is taken, or gone (log 9). -/
def settleRun (s : State) : State := forgetRun (takeReturnedAll (takeHandedAll s))

/-- Every STANDBY stream seeks (R22). -/
def startStreams (s : State) : State :=
  (allFin 16).foldl (fun s i => if s.sau.streams[i].state = .standby then enterState i .seeking s else s) s

/-- The start values of the Frame Clock, Frame Assembly, the Integrator Store and the Probe Unit (R37, R73, R116, R121). -/
def startBlocks (s : State) : State :=
  { s with
    fck := { s.fck with pace := .paced, lastStarted := none, flywheel := none, reframing := false }
    fau := { s.fau with lastDispatched := none, base := none, lastGood := [] }
    rce := { s.rce with integrator := if s.cou.shapeLoaded then s.cou.safeShape else [] }
    pru := { s.pru with position := cycleStart s.pru.cycle, injection := none, supply := none } }

/-- START accepted (R176). -/
def beginRun (e : Edition) (s : State) : State := enterRun .running (startCou e.links (startBlocks (startStreams s)))

/-- START is accepted: READY, and the three conditions hold (R176). -/
def startAccepted (s : State) : Bool := s.run.state == .ready && !s.run.initialising && startReady s

/-- What an accepted START finds: what an earlier run left on its way has been taken (log 9). -/
def beforeStart (s : State) : State := if startAccepted s then sendMsi s (settleRun s) else s

/-- START (R176). -/
def start (s : State) : State :=
  if s.run.state = .ready && !s.run.initialising then
    match currentSlot s with
    | some (_, e) => if startReady s then beginRun e s else refuseRun .notConfigured s
    | none => refuseRun .notConfigured s
  else refuseRun .wrongState s

/-- START (R176). -/
def execStart (s : State) : Result := finishAfter s (beforeStart s) (start (beforeStart s))

/-! ### The end of DRAINING (R177) -/

/-- Run control has the engine IDLE: no frame dispatched to it, and its IDLE report taken (R177). -/
def engineIdleAtRun (s : State) : Bool :=
  s.rce.state == .idle && s.wires.handover.isNone && !s.wires.idleToRun

/-- Run control has the links quiet (R177). -/
def linksQuietAtRun (s : State) : Bool := linksQuiet s && !s.wires.linksQuiet

/-- The scan timer is armed when DRAINING ends (R149). -/
def armScanAgain (s : State) : State :=
  match s.run.anchor with
  | some a => armScan a s
  | none => s

/-- DRAINING ends (R177). -/
def endDraining (s : State) : State :=
  let s' := armScanAgain (quietCou s)
  raise .runChange { s' with run := { s'.run with state := .ready } }

/-- Run control has both conditions for the end of DRAINING (R177). -/
def drained (s : State) : Bool := engineIdleAtRun s && linksQuietAtRun s

/-- What the end of DRAINING finds: guard reports still on their way have been taken (log 9). -/
def beforeEnd (before s : State) : State := if drained s then sendMsi before (takeGuards s) else s

/-- DRAINING ends when both conditions hold (R177). -/
def drainingCheck (s : State) : State := if s.run.state = .draining && drained s then endDraining s else s

/-- Run control has taken a report: DRAINING may end (R177). -/
def runReport (before s : State) : Result :=
  if s.run.state = .draining then
    let first := beforeEnd before s
    finishAfter before first (drainingCheck first)
  else finish before s

/-- RUN_CONTROL_IDLE_REPORT (R113, R177). -/
def execRunControlIdleReport (s : State) : Result :=
  if s.wires.idleToRun then runReport s { s with wires := { s.wires with idleToRun := false } } else .next s

/-- LINKS_QUIET_REPORT (R131, R177). -/
def execLinksQuietReport (s : State) : Result :=
  if s.wires.linksQuiet then runReport s { s with wires := { s.wires with linksQuiet := false } } else .next s

/-! ### STOP (R177) -/

/-- A copy's success that the Probe Unit has taken before STOP ends its directive DONE; a failure it has reported and the DU has
not taken is dropped (R125, R160, log 21). -/
def takeSuccess (e : OwnerEnd) (s : State) : State :=
  if e.code == codeDone && endsEntry e s then endEntry e s else s

/-- The ends on their way at STOP. No room they make is given to a directive that waits: STOP ends it (R160). -/
def takeOwnerEnds (s : State) : State :=
  s.wires.ownerEnds.foldl (fun s e => takeSuccess e s) { s with wires := { s.wires with ownerEnds := [] } }

/-- Every enabled stream is STANDBY; nothing is reported to Frame Assembly (R22). -/
def stopStreams (s : State) : State :=
  (allFin 16).foldl (fun s i => if s.sau.streams[i].enabled then enterState i .standby s else s) s

/-- ABANDONED is written for tickets in order; the last write settles them all (R160, log 21). Its detail is 0 for DRAIN too, for which
chapter 9 gives none (log 44). -/
def abandonTickets (all : List Ticket) : List Ticket → State → State
  | [], s => s
  | [t], s => placeOutcome t codeAbandoned 0 all s
  | t :: ts, s => abandonTickets all ts (placeOutcome t codeAbandoned 0 [] s)

/-- The tickets STOP ends: the Deferred List, then the directive in hand (R160). -/
def openTickets (s : State) : List Ticket :=
  s.du.deferred.map Deferred.ticket ++ (s.du.hand.map Hand.ticket).toList

/-- A slot read in flight at STOP is completed and its data discarded (R160, log 25). -/
def Access.stale (a : Access) : Access := if a.purpose = .slot then { a with purpose := .stale } else a

/-- Reads of dropped work are withdrawn at STOP; a slot read runs on to no one (log 25). -/
def dropReads (s : State) : State :=
  let s' := withdrawDu (fun p => p == .load || p == .vector || p == .copy) s
  { s' with arb := { s'.arb with du := s'.arb.du.map Access.stale } }

/-- The Directive Unit stops scanning and ends its work (R160). -/
def stopDu (s : State) : State :=
  let s' := dropReads (abandonTickets (openTickets s) (openTickets s) s)
  { s' with du := { s'.du with scanTimer := none, activity := .resting, hand := none, job := none, deferred := [] } }

/-- A LOADING slot becomes EMPTY (R89). -/
def Slot.unload : Slot → Slot
  | .loading _ => .empty
  | x => x

/-- STOP in the engine's slots, the Probe Unit and the Frame Clock (R37, R89, R125). -/
def stopBlocks (s : State) : State :=
  { s with
    fck := { s.fck with flywheel := none }
    rce := { s.rce with slotA := s.rce.slotA.unload, slotB := s.rce.slotB.unload, load := none }
    pru := { s.pru with staging := none, waiting := [], job := none } }

/-- STOP accepted (R177). -/
def beginDraining (s : State) : State :=
  drainingCheck (enterRun .draining (stopBlocks (stopDu (abandonWaiting (stopStreams (takeOwnerEnds s))))))

/-- What STOP finds: where DRAINING ends at once, the guard reports still on their way have been taken (log 9). -/
def beforeStop (s : State) : State :=
  if s.run.state = .running && !s.run.initialising then beforeEnd s s else s

/-- STOP (R177). -/
def stop (s : State) : State :=
  if s.run.state = .running && !s.run.initialising then beginDraining s else refuseRun .wrongState s

/-- STOP (R177). -/
def execStop (s : State) : Result := finishAfter s (beforeStop s) (stop (beforeStop s))

/-! ### Resets (R178) -/

/-- A Stream Table entry after a Part Reset (R22). -/
def Stream.partReset (x : Stream) : Stream :=
  { enabled := x.enabled, config := x.config, state := if x.enabled then .standby else .disabled }

/-- A sensor link port after a reset: DOWN with its counts 0 (R1, R15, R16). -/
def Port.reset (p : Port) : Port := { rx := p.rx.restart }

/-- The Part Reset of every block (R178). What it keeps: XM, the time base, ATTENTION_MASK and the PCI Express configuration, the
Stream Table and aside flags, the Safe Shape Store with its settings, and host accesses (log 17). -/
def resetBlocks (s : State) : State :=
  { s with
    corrected := 0
    arb := { host := s.arb.host }
    run := { initialising := s.run.initialising }
    page := { s.page with attention := 0 }
    ports := s.ports.map Port.reset
    sau := { streams := s.sau.streams.map Stream.partReset, asideFlags := s.sau.asideFlags }
    fck := {}
    fau := {}
    rce := {}
    watch := []
    pru := {}
    cou := s.cou.partReset
    du := {}
    rpu := {}
    wires := {} }

/-- A Part Reset; the interlock is sampled afresh (R132, R178). -/
def partReset (s : State) : State := beginRelease (resetBlocks s)

/-- PART_RESET, the run command: refused while the initialising flag is set (11.4, R178). -/
def partResetCommand (s : State) : State := if s.run.initialising then refuseRun .wrongState s else partReset s

/-- PART_RESET (R178). -/
def execPartReset (s : State) : Result := finish s (partResetCommand s)

/-- FUNCTION_LEVEL_RESET is taken as a Part Reset (R178). -/
def execFunctionLevelReset (s : State) : Result := finish s (partReset s)

/-- A Full Reset, with the initialising flag it leaves (R17, R130, R178, log 16, log 17). -/
def fullReset (initialising : Bool) (s : State) : State :=
  let s' := resetBlocks s
  beginRelease
    { s' with
      arb := {}
      host := { s'.host with partialRead := [] }
      run := { initialising := initialising }
      page := { s'.page with mask := 0 }
      time := 0
      sau := {}
      cou := s.cou.fullReset }

/-- POWER_ON: a Full Reset, and power-on initialisation begins (R172, R178). -/
def execPowerOn (s : State) : Result := finish s (fullReset true s)

/-- FUNDAMENTAL_RESET: a Full Reset that leaves XM as it stands and the flag clear (R172, R178). -/
def execFundamentalReset (s : State) : Result := finish s (fullReset false s)

/-- HOT_RESET: a Full Reset that leaves XM as it stands and the flag clear (R172, R178). -/
def execHotReset (s : State) : Result := finish s (fullReset false s)

/-- Initialisation has written zero with good ECC into every granule, and the flag clears (R172). -/
def endInitialisation (s : State) : State :=
  beginRelease { s with xm := [], ecc := [], run := { s.run with initialising := false } }

/-- INITIALISATION_END (R172). -/
def execInitialisationEnd (s : State) : Result :=
  if s.run.initialising then finish s (endInitialisation s) else .next s

end Sys2Proof.Machine
end

