-- ==== Sys2Proof/Machine/Registers.lean ====
section
/-!
DEFINITION. The register page (12.7, R170, R171, R181): whole writes, everything else, and reads.
-/
namespace Sys2Proof.Machine

/-- A whole write to RUN is one run command (11.4, R181). Of a value that is no command, written while initialising, 11.4 gives both WRONG_STATE
and UNKNOWN_COMMAND and no order: WRONG_STATE is the model's choice (log 48). -/
def runWrite (v : BitVec 32) (s : State) : State :=
  if s.run.initialising then refuseRun .wrongState s
  else if v = 1 then loadAnchor s
  else if v = 2 then start s
  else if v = 3 then stop s
  else if v = 4 then partReset s
  else refuseRun .unknownCommand s

/-- What a whole write to RUN finds: START and STOP first take what is on its way (log 9). -/
def beforeRunWrite (v : BitVec 32) (s : State) : State :=
  if v = 2 then beforeStart s else if v = 3 then beforeStop s else s

/-- UNKNOWN_COMMAND: a whole write to RUN of a value that is not one of the four commands (R181). -/
def execUnknownCommand (value : BitVec 32) (s : State) : Result :=
  finishAfter s (beforeRunWrite value s) (runWrite value (beforeRunWrite value s))

/-- A host write to ATTENTION clears the flags the value names (R170, R181). -/
def attentionWrite (v : BitVec 32) (s : State) : State :=
  { s with page := { s.page with attention := s.page.attention &&& ~~~(v.setWidth 14) } }

/-- ATTENTION_WRITE (R170). -/
def execAttentionWrite (value : BitVec 32) (s : State) : Result := finish s (attentionWrite value s)

/-- ATTENTION_MASK is written whole (R170, R181). -/
def maskWrite (v : BitVec 32) (s : State) : State := { s with page := { s.page with mask := v.setWidth 14 } }

/-- ATTENTION_MASK_WRITE (R170, R171). -/
def execAttentionMaskWrite (value : BitVec 32) (s : State) : Result := finish s (maskWrite value s)

/-- A write into the register page: whole writes of RUN, ATTENTION and ATTENTION_MASK act, and every other is discarded (R181). One wider
than a word, which R181 leaves open where it covers whole registers, is discarded too (log 45). -/
def pageWrite (offset : Nat) (bytes : List Byte) (s : State) : State :=
  if bytes.length = 4 then
    let v : BitVec 32 := BitVec.ofNat 32 (leNat bytes)
    if offset = 4 then runWrite v s
    else if offset = 8 then attentionWrite v s
    else if offset = 12 then maskWrite v s
    else s
  else s

/-- What a write into the register page finds. -/
def beforePageWrite (offset : Nat) (bytes : List Byte) (s : State) : State :=
  if bytes.length = 4 ∧ offset = 4 then beforeRunWrite (BitVec.ofNat 32 (leNat bytes)) s else s

/-- REGISTER_WRITE_OTHER (R181). -/
def execRegisterWriteOther (offset : Nat) (bytes : List Byte) (s : State) : Result :=
  finishAfter s (beforePageWrite offset bytes s) (pageWrite offset bytes (beforePageWrite offset bytes s))

/-! ### Reads of the page (12.7, R181); they change nothing, and the table has no row for them -/

/-- PART_ID: part number, stepping, vendor code (12.7, log 27). -/
def partId : BitVec 32 := 0x5A#8 ++ Config.steppingByte ++ 0x3240#16

/-- RUN as it reads (12.7). -/
def runWord (r : Run) : BitVec 32 :=
  BitVec.ofNat 32 (r.state.code + 16 * r.initialising.toNat + 32 * r.busy.toNat + 256 * r.refusal.code)

/-- The 32-bit word at a word index of the page: 0 at every other offset (R181). -/
def pageWord (s : State) (index : Nat) : BitVec 32 :=
  match index with
  | 0 => partId
  | 1 => runWord s.run
  | 2 => s.page.attention.setWidth 32
  | 3 => s.page.mask.setWidth 32
  | _ => 0

/-- A byte of the page. -/
def pageByte (s : State) (offset : Nat) : Byte := (pageWord s (offset / 4)).extractLsb' (8 * (offset % 4)) 8

/-- A read of the page returns the bytes it covers (R181). That one wider than a word, which R181 leaves open, returns those of every register
it covers is the model's choice (log 45). -/
def pageRead (s : State) (offset n : Nat) : List Byte := (List.range n).map fun k => pageByte s (offset + k)

end Sys2Proof.Machine
end

