-- ==== Sys2Proof/Machine/Dispatch.lean ====
section
/-!
DEFINITION. One arm per command: a direct call of its meaning.
-/
namespace Sys2Proof.Machine

def exec (i : Instr) (s : State) : Host.Outcome State Fault Refusal :=
  match i with
  | .powerOn => Sys2Proof.Machine.execPowerOn s
  | .fundamentalReset => Sys2Proof.Machine.execFundamentalReset s
  | .hotReset => Sys2Proof.Machine.execHotReset s
  | .functionLevelReset => Sys2Proof.Machine.execFunctionLevelReset s
  | .initialisationEnd => Sys2Proof.Machine.execInitialisationEnd s
  | .loadAnchor => Sys2Proof.Machine.execLoadAnchor s
  | .anchorReadDone => Sys2Proof.Machine.execAnchorReadDone s
  | .start => Sys2Proof.Machine.execStart s
  | .stop => Sys2Proof.Machine.execStop s
  | .partReset => Sys2Proof.Machine.execPartReset s
  | .unknownCommand value => Sys2Proof.Machine.execUnknownCommand value s
  | .attentionWrite value => Sys2Proof.Machine.execAttentionWrite value s
  | .attentionMaskWrite value => Sys2Proof.Machine.execAttentionMaskWrite value s
  | .registerWriteOther offset bytes => Sys2Proof.Machine.execRegisterWriteOther offset bytes s
  | .hostXmRead offset length => Sys2Proof.Machine.execHostXmRead offset length s
  | .hostXmWrite offset bytes => Sys2Proof.Machine.execHostXmWrite offset bytes s
  | .granuleGrant met => Sys2Proof.Machine.execGranuleGrant met s
  | .signalLoss link => Sys2Proof.Machine.execSignalLoss link s
  | .sensorBlock link sync payload => Sys2Proof.Machine.execSensorBlock link sync payload s
  | .packetAdmission link => Sys2Proof.Machine.execPacketAdmission link s
  | .asideWordReadDone => Sys2Proof.Machine.execAsideWordReadDone s
  | .asideSlotWritten => Sys2Proof.Machine.execAsideSlotWritten s
  | .segmentPlacement stream => Sys2Proof.Machine.execSegmentPlacement stream s
  | .segmentOutcome stream => Sys2Proof.Machine.execSegmentOutcome stream s
  | .cutTimerExpiry stream => Sys2Proof.Machine.execCutTimerExpiry stream s
  | .lockedExitReport order => Sys2Proof.Machine.execLockedExitReport order s
  | .paceReport => Sys2Proof.Machine.execPaceReport s
  | .flywheelExpiry => Sys2Proof.Machine.execFlywheelExpiry s
  | .misinsertReport => Sys2Proof.Machine.execMisinsertReport s
  | .reframeRequest => Sys2Proof.Machine.execReframeRequest s
  | .reframeConfirmation => Sys2Proof.Machine.execReframeConfirmation s
  | .frameStartTake => Sys2Proof.Machine.execFrameStartTake s
  | .deadlineExpiry record => Sys2Proof.Machine.execDeadlineExpiry record s
  | .engineIdleReport => Sys2Proof.Machine.execEngineIdleReport s
  | .frameTake => Sys2Proof.Machine.execFrameTake s
  | .tileReadDone => Sys2Proof.Machine.execTileReadDone s
  | .tileMemoryError => Sys2Proof.Machine.execTileMemoryError s
  | .taintReport => Sys2Proof.Machine.execTaintReport s
  | .streamingEnd => Sys2Proof.Machine.execStreamingEnd s
  | .probeRequest => Sys2Proof.Machine.execProbeRequest s
  | .frameCompletion late => Sys2Proof.Machine.execFrameCompletion late s
  | .commitNotice => Sys2Proof.Machine.execCommitNotice s
  | .completionWithoutCommit => Sys2Proof.Machine.execCompletionWithoutCommit s
  | .guardReport => Sys2Proof.Machine.execGuardReport s
  | .integratorChange => Sys2Proof.Machine.execIntegratorChange s
  | .safeShapeRequest => Sys2Proof.Machine.execSafeShapeRequest s
  | .commandPacketComplete link => Sys2Proof.Machine.execCommandPacketComplete link s
  | .safePacketComplete link => Sys2Proof.Machine.execSafePacketComplete link s
  | .trailerEnd link => Sys2Proof.Machine.execTrailerEnd link s
  | .mirrorSignalLoss link => Sys2Proof.Machine.execMirrorSignalLoss link s
  | .mirrorBlock link sync payload => Sys2Proof.Machine.execMirrorBlock link sync payload s
  | .acceptTimeout link => Sys2Proof.Machine.execAcceptTimeout link s
  | .interlockAssertion => Sys2Proof.Machine.execInterlockAssertion s
  | .interlockInputsReleased => Sys2Proof.Machine.execInterlockInputsReleased s
  | .interlockRelease => Sys2Proof.Machine.execInterlockRelease s
  | .linksQuietReport => Sys2Proof.Machine.execLinksQuietReport s
  | .runControlIdleReport => Sys2Proof.Machine.execRunControlIdleReport s
  | .scanTimerExpiry => Sys2Proof.Machine.execScanTimerExpiry s
  | .slotReadReturn => Sys2Proof.Machine.execSlotReadReturn s
  | .adoptEdition => Sys2Proof.Machine.execAdoptEdition s
  | .amendGroups => Sys2Proof.Machine.execAmendGroups s
  | .repointTileSet => Sys2Proof.Machine.execRepointTileSet s
  | .repointTileRemove => Sys2Proof.Machine.execRepointTileRemove s
  | .retireRange => Sys2Proof.Machine.execRetireRange s
  | .setStream => Sys2Proof.Machine.execSetStream s
  | .setAsideFlag => Sys2Proof.Machine.execSetAsideFlag s
  | .enableStreams => Sys2Proof.Machine.execEnableStreams s
  | .disableStreams => Sys2Proof.Machine.execDisableStreams s
  | .setPace => Sys2Proof.Machine.execSetPace s
  | .loadSafeShape => Sys2Proof.Machine.execLoadSafeShape s
  | .resumeOutput => Sys2Proof.Machine.execResumeOutput s
  | .holdOutput => Sys2Proof.Machine.execHoldOutput s
  | .setProbeCycle => Sys2Proof.Machine.execSetProbeCycle s
  | .injectProbe => Sys2Proof.Machine.execInjectProbe s
  | .injectProbeCancel => Sys2Proof.Machine.execInjectProbeCancel s
  | .resetIntegratorZero => Sys2Proof.Machine.execResetIntegratorZero s
  | .resetIntegratorVector => Sys2Proof.Machine.execResetIntegratorVector s
  | .clearStreamErrors => Sys2Proof.Machine.execClearStreamErrors s
  | .drain => Sys2Proof.Machine.execDrain s
  | .setTelemetry => Sys2Proof.Machine.execSetTelemetry s
  | .editionLoadReadDone => Sys2Proof.Machine.execEditionLoadReadDone s
  | .safeShapeReadDone => Sys2Proof.Machine.execSafeShapeReadDone s
  | .integratorVectorReadDone => Sys2Proof.Machine.execIntegratorVectorReadDone s
  | .injectPatternReadDone => Sys2Proof.Machine.execInjectPatternReadDone s
  | .probeCopyReadDone => Sys2Proof.Machine.execProbeCopyReadDone s
  | .ownerEndReport => Sys2Proof.Machine.execOwnerEndReport s
  | .slotReleaseReport => Sys2Proof.Machine.execSlotReleaseReport s
  | .recordFreedReport => Sys2Proof.Machine.execRecordFreedReport s
  | .drainIdleReport => Sys2Proof.Machine.execDrainIdleReport s
  | .telemetryWrittenReport => Sys2Proof.Machine.execTelemetryWrittenReport s
  | .outcomeWriteDone => Sys2Proof.Machine.execOutcomeWriteDone s
  | .writerItemEnd => Sys2Proof.Machine.execWriterItemEnd s
  | .signalPresent link => Sys2Proof.Machine.execSignalPresent link s
  | .mirrorSignalPresent link => Sys2Proof.Machine.execMirrorSignalPresent link s
  | .interlockReleaseInterrupted => Sys2Proof.Machine.execInterlockReleaseInterrupted s

end Sys2Proof.Machine
end

