-- ==== Sys2Proof/Machine/Step.lean ====
section
/-!
DEFINITION. One step of the part: the command at the front of the queue, or, with an empty queue, a microsecond of the time base.
-/
namespace Sys2Proof.Machine

/-- The state with a queue of waiting commands. -/
def State.withPending (s : State) (q : List Instr) : State := { s with pending := q }

/-- One microsecond passes: the time base counts in every run state (R178, log 3). -/
def State.tick (s : State) : State := { s with time := s.time + 1 }

/-- One step: take the command at the front of the queue; on an empty queue the time base counts (log 1, log 3). -/
def step (s : State) : Host.Outcome State Fault Refusal :=
  match s.pending with
  | [] => .next s.tick
  | i :: rest => exec i (s.withPending rest)

/-- The state with the command a table word spells at the front of its queue; no word spells one (Decode). -/
def State.withFetchWord (s : State) (nbits w : Nat) : State :=
  match decodeTableWord nbits w with
  | some i => s.withPending (i :: s.pending)
  | none => s

end Sys2Proof.Machine
end

