-- ==== Sys2Proof/Safety.lean ====
section
/-!
DEFINITION. The vocabulary of the statements: what stops a step, which parts of the state a step may change, how a directive ends,
and the laws of the manual that every step keeps.
-/
namespace Sys2Proof.Machine

/-! ### Stops -/

/-- The outcome is a next state: neither a fault nor a refusal. -/
def goesOn (o : Host.Outcome State Fault Refusal) : Prop := ∃ t, o = .next t

/-! ### Parts of the state -/

/-- The parts a step can change one by one. -/
inductive Part where
  | xm
  | ecc
  | corrected
  | duQueue
  | rpuQueue
  | sauQueue
  | hostQueue
  | turn
  | host
  | run
  | attention
  | mask
  | msiEnabled
  | msi
  | time
  | ports
  | sau
  | fck
  | fau
  | rce
  | watch
  | pru
  | cou
  | du
  | rpu
  | wires
  | pending
  deriving DecidableEq, Repr

/-- A part is as it was. -/
def Part.Same (s t : State) : Part → Prop
  | .xm => t.xm = s.xm
  | .ecc => t.ecc = s.ecc
  | .corrected => t.corrected = s.corrected
  | .duQueue => t.arb.du = s.arb.du
  | .rpuQueue => t.arb.rpu = s.arb.rpu
  | .sauQueue => t.arb.sau = s.arb.sau
  | .hostQueue => t.arb.host = s.arb.host
  | .turn => t.arb.tileRun = s.arb.tileRun ∧ t.arb.pointer = s.arb.pointer
  | .host => t.host = s.host
  | .run => t.run = s.run
  | .attention => t.page.attention = s.page.attention
  | .mask => t.page.mask = s.page.mask
  | .msiEnabled => t.page.msiEnabled = s.page.msiEnabled
  | .msi => t.page.msiSent = s.page.msiSent
  | .time => t.time = s.time
  | .ports => t.ports = s.ports
  | .sau => t.sau = s.sau
  | .fck => t.fck = s.fck
  | .fau => t.fau = s.fau
  | .rce => t.rce = s.rce
  | .watch => t.watch = s.watch
  | .pru => t.pru = s.pru
  | .cou => t.cou = s.cou
  | .du => t.du = s.du
  | .rpu => t.rpu = s.rpu
  | .wires => t.wires = s.wires
  | .pending => t.pending = s.pending

/-- Nothing changes but the parts listed. -/
structure OnlyChanges (ps : List Part) (s t : State) : Prop where
  same : ∀ p, p ∉ ps → p.Same s t

/-- What the Report Unit and the endpoint may do in any step: owe and begin rewrites, send a message (R163, R164, R169, R171). -/
def reportParts : List Part := [.rpu, .rpuQueue, .msi]

/-- Nothing changes but the parts listed and what the reports of a step may change. -/
abbrev Touches (ps : List Part) (s t : State) : Prop := OnlyChanges (ps ++ reportParts) s t

/-- The parts a command may change, beside what the reports of a step may change (`reportParts`). -/
def commandParts : Instr → List Part
  | .powerOn | .fundamentalReset | .hotReset =>
    [.corrected, .duQueue, .rpuQueue, .sauQueue, .hostQueue, .turn, .host, .run, .attention, .mask, .time, .ports, .sau, .fck,
      .fau, .rce, .watch, .pru, .cou, .du, .rpu, .wires]
  | .functionLevelReset | .partReset =>
    [.corrected, .duQueue, .rpuQueue, .sauQueue, .turn, .run, .attention, .ports, .sau, .fck, .fau, .rce, .watch, .pru, .cou,
      .du, .rpu, .wires]
  | .initialisationEnd => [.xm, .ecc, .run, .cou]
  | .loadAnchor => [.run, .du, .duQueue]
  | .anchorReadDone => [.run, .du, .sau, .attention]
  | .start => [.run, .attention, .sau, .wires, .fck, .fau, .rce, .pru, .cou]
  | .stop => [.run, .attention, .sau, .wires, .fck, .fau, .rce, .pru, .cou, .du, .duQueue]
  | .unknownCommand _ => [.run]
  | .attentionWrite _ => [.attention]
  | .attentionMaskWrite _ => [.mask]
  | .registerWriteOther _ _ => []
  | .hostXmRead _ _ => [.host, .hostQueue]
  | .hostXmWrite _ _ => [.hostQueue]
  | .granuleGrant _ =>
    [.xm, .ecc, .corrected, .duQueue, .sauQueue, .hostQueue, .turn, .host, .attention, .rce, .pru, .du, .wires]
  | .signalLoss _ | .sensorBlock _ _ _ => [.ports, .wires, .attention]
  | .signalPresent _ => [.ports]
  | .packetAdmission _ => [.sau, .sauQueue, .attention, .ports, .wires]
  | .asideWordReadDone | .asideSlotWritten => [.sau, .sauQueue, .attention, .wires]
  | .segmentPlacement _ | .frameStartTake | .deadlineExpiry _ | .lockedExitReport _ => [.fau, .wires, .sau, .attention]
  | .segmentOutcome _ | .cutTimerExpiry _ => [.sau, .wires, .attention]
  | .paceReport => [.fck, .wires]
  | .flywheelExpiry => [.fck, .wires, .attention]
  | .misinsertReport => [.sau, .fck, .wires, .attention]
  | .reframeRequest | .engineIdleReport => [.fau, .wires]
  | .reframeConfirmation => [.sau, .fck, .wires]
  | .frameTake => [.rce, .fau, .wires, .du, .duQueue, .pru]
  | .tileReadDone | .taintReport | .integratorChange | .safeShapeRequest => [.rce, .wires]
  | .tileMemoryError => [.rce, .wires, .attention]
  | .streamingEnd => [.rce, .fau, .wires]
  | .probeRequest => [.rce, .pru, .wires]
  | .frameCompletion _ => [.rce, .watch, .cou, .wires, .attention]
  | .commitNotice | .completionWithoutCommit => [.pru, .wires]
  | .guardReport | .commandPacketComplete _ | .safePacketComplete _ | .trailerEnd _ | .mirrorBlock _ _ _ | .acceptTimeout _ =>
    [.cou, .wires, .attention]
  | .mirrorSignalLoss _ => [.cou, .attention]
  | .mirrorSignalPresent _ | .interlockInputsReleased | .interlockRelease | .interlockReleaseInterrupted => [.cou]
  | .interlockAssertion => [.cou, .wires, .attention]
  | .linksQuietReport | .runControlIdleReport => [.run, .attention, .cou, .wires, .du]
  | .scanTimerExpiry | .retireRange | .setTelemetry | .loadSafeShape | .injectProbe | .resetIntegratorVector => [.du, .duQueue]
  | .slotReadReturn => [.du, .duQueue, .attention]
  | .adoptEdition | .amendGroups | .repointTileSet | .repointTileRemove => [.du, .duQueue, .rce, .watch]
  | .editionLoadReadDone => [.du, .duQueue, .rce, .watch, .attention]
  | .setStream | .setAsideFlag | .enableStreams => [.du, .duQueue, .sau]
  | .disableStreams => [.du, .duQueue, .sau, .wires]
  | .clearStreamErrors => [.du, .duQueue, .sau, .ports]
  | .setPace => [.du, .duQueue, .fck]
  | .resumeOutput => [.du, .duQueue, .cou]
  | .holdOutput => [.du, .duQueue, .cou, .wires, .attention]
  | .safeShapeReadDone => [.du, .duQueue, .cou, .attention]
  | .setProbeCycle => [.du, .duQueue, .pru, .wires]
  | .injectProbeCancel => [.du, .duQueue, .pru]
  | .injectPatternReadDone => [.du, .duQueue, .pru, .attention]
  | .resetIntegratorZero | .drain => [.du, .duQueue, .wires]
  | .integratorVectorReadDone => [.du, .duQueue, .wires, .attention]
  | .probeCopyReadDone => [.pru, .wires, .duQueue, .attention]
  | .ownerEndReport | .recordFreedReport | .drainIdleReport | .telemetryWrittenReport => [.du, .duQueue, .pru, .wires]
  | .slotReleaseReport => [.du, .duQueue, .rce, .watch, .pru, .wires]
  | .outcomeWriteDone => [.du, .wires, .attention]
  | .writerItemEnd => [.wires]

/-! ### Grants (R174) -/

/-- The claimant some places after one in the cyclic order of the rotation. -/
def turnAfter (c : Claimant) : Nat → Claimant
  | 0 => c
  | n + 1 => (turnAfter c n).next

/-- A rotation claimant has an access waiting. -/
def anyWaits (s : State) : Prop := ∃ c, s.arb.waiting c ≠ []

/-- The next grant is a rotation grant of the access `a` of claimant `c`: the engine has no read waiting or has had its 32 in a row,
and no claimant at or after the rotation pointer and before `c` waits. -/
structure GrantsTo (s : State) (c : Claimant) (a : Access) (rest : List Access) : Prop where
  taints : s.wires.taints = []
  tile : nextTileRead s = none ∨ Config.tileGrantLimit ≤ s.arb.tileRun
  waiting : s.arb.waiting c = a :: rest
  first : ∃ n, n < 4 ∧ c = turnAfter s.arb.pointer n ∧ ∀ m, m < n → s.arb.waiting (turnAfter s.arb.pointer m) = []

/-! ### Links and packets (R1 to R14, R145, R179, R180) -/

/-- A port has become `p`, and every other port is as it was. -/
def PortIs (l : Fin 8) (p : Port) (s t : State) : Prop := t.ports[l] = p ∧ ∀ m : Fin 8, m ≠ l → t.ports[m] = s.ports[m]

/-- A port after a block with a valid sync word that ends no packet: its reception state, its open packet, and whether the block
is a coding error (R4, R5). -/
def Port.after (r : Reception) (packet : List Byte) (error : Bool) (p : Port) : Port :=
  { p with
    rx := { p.rx with badSync := 0, reception := r, packet := packet }
    codingErrors := if error then latch p.codingErrors else p.codingErrors }

/-- A receiver that takes blocks one after another, with all its events. -/
def Receiver.takeAll : List Block → Receiver → Receiver × List LineEvent
  | [], r => (r, [])
  | b :: bs, r =>
    let x := r.take b.1 b.2
    let y := x.1.takeAll bs
    (y.1, x.2 ++ y.2)

/-- A slope segment as a sensor sends it (12.2). -/
def Segment.bytes (g : Segment) : List Byte :=
  sealed (leBytes 2 (g.tag + 4096) ++ leBytes 2 g.frame.toNat ++ leBytes 1 g.index ++ leBytes 1 g.count ++ leBytes 2 g.first
    ++ leBytes 2 g.slopes.length ++ leBytes 2 g.invalid.toNat ++ (g.slopes.map int16Bytes).flatten)

/-- The fields of a slope segment lie in their ranges (1.5). -/
structure Segment.InRange (g : Segment) : Prop where
  tag : 1 ≤ g.tag ∧ g.tag ≤ 4095
  index : g.index ≤ 63
  count : 1 ≤ g.count ∧ g.count ≤ 64
  first : g.first ≤ 16383
  length : 1 ≤ g.slopes.length ∧ g.slopes.length ≤ 512
  slopes : ∀ v ∈ g.slopes, -32768 ≤ v ∧ v ≤ 32767

/-- An accept token as a drive electronics unit sends it (12.2). -/
def Token.bytes (k : Token) : List Byte :=
  sealed (leBytes 2 3 ++ leBytes 2 k.kind.code ++ leBytes 2 k.number.toNat ++ leBytes 2 (if k.ok then 1 else 2))

/-! ### Streams (02) -/

/-- A stream has become `x`; every other stream, and all else of the Stream Admission Unit but the last stream to wrap, is as it
was. -/
structure StreamIs (i : Fin 16) (x : Stream) (s t : State) : Prop where
  stream : t.sau.streams[i] = x
  others : ∀ j : Fin 16, j ≠ i → t.sau.streams[j] = s.sau.streams[j]
  rest : t.sau = { s.sau with streams := t.sau.streams, lastWrapped := t.sau.lastWrapped }

/-- A stream with counters raised (R29). -/
def Stream.plus (cs : List Counter) (x : Stream) : Stream := cs.foldl Stream.bump x

/-- Two configurations share a slope position or a tag (R18, R20). -/
def Clashes (c d : StreamConfig) : Prop :=
  (∃ p, (c.base ≤ p ∧ p < c.base + c.count) ∧ d.base ≤ p ∧ p < d.base + d.count) ∨ c.tag = d.tag

/-- Counters of a stream have been raised: where one of them stood at 65535, COUNTER_WRAP is raised and the stream is the last wrapped
one; otherwise neither changes (R30). -/
structure WrapsNamed (i : Fin 16) (cs : List Counter) (s t : State) : Prop where
  wrapped : (∃ c ∈ cs, s.sau.streams[i].counter c = 65535) → attentionHas .counterWrap t = true ∧ t.sau.lastWrapped = i
  same : (∀ c ∈ cs, s.sau.streams[i].counter c ≠ 65535) →
    attentionHas .counterWrap t = attentionHas .counterWrap s ∧ t.sau.lastWrapped = s.sau.lastWrapped

/-- The tag a classified packet is matched by: none for a non-segment packet (R8, R23). -/
def PacketClass.tag? : PacketClass → Option Nat
  | .segment g => some g.tag
  | .shapeFault tag => some tag
  | .nonSegment => none

/-- The segment a packet carries: none for a shape fault (R10). -/
def PacketClass.segment? : PacketClass → Option Segment
  | .segment g => some g
  | _ => none

/-- The arrival is a slope segment whose tag is that of this enabled stream (R23, R24). -/
def Matches (s : State) (a : Arrival) (i : Fin 16) : Prop :=
  s.sau.streams[i].enabled = true ∧ a.kind.tag? = some s.sau.streams[i].config.tag

/-- The oldest arrival of a link, with the arrivals that stay (R14). -/
abbrev NextArrival (l : Fin 8) (s : State) (a : Arrival) (rest : List Arrival) : Prop :=
  takeFirst (fun a => a.link == l) s.wires.arrivals = some (a, rest)

/-! ### Frame Assembly (R61 to R68) -/

/-- Each enabled stream whose void count of a closed record exceeds its allowance has counted a void frame; where a count stood at
65535, COUNTER_WRAP is raised and the highest-numbered such stream is the last wrapped one (R30, R31, R65, log 40). -/
structure VoidFramesCounted (y : Record) (s t : State) : Prop where
  counts : ∀ i : Fin 16, t.sau.streams[i] =
    if s.sau.streams[i].enabled = true ∧ s.sau.streams[i].config.allowance < y.voidCounts[i] then
      s.sau.streams[i].plus [.voidFrames]
    else s.sau.streams[i]
  rest : t.sau = { s.sau with streams := t.sau.streams, lastWrapped := t.sau.lastWrapped }
  wrapped : ∀ i : Fin 16, t.sau.streams[i] ≠ s.sau.streams[i] → s.sau.streams[i].counter .voidFrames = 65535 →
    (∀ j : Fin 16, i < j → t.sau.streams[j] ≠ s.sau.streams[j] → s.sau.streams[j].counter .voidFrames ≠ 65535) →
    attentionHas .counterWrap t = true ∧ t.sau.lastWrapped = i
  same : (∀ i : Fin 16, t.sau.streams[i] ≠ s.sau.streams[i] → s.sau.streams[i].counter .voidFrames ≠ 65535) →
    attentionHas .counterWrap t = attentionHas .counterWrap s ∧ t.sau.lastWrapped = s.sau.lastWrapped

/-- The place of a record's frame number after the ordering base (R52). -/
def Fau.place (u : Fau) (r : Fin 4) : Nat := Frame.ahead u.records[r].frame (u.base.getD 0)

/-- The newest CLOSED record (R67). -/
def NewestClosed (r : Fin 4) (u : Fau) : Prop :=
  u.records[r].state = .closed ∧ ∀ q : Fin 4, q ≠ r → u.records[q].state = .closed → u.place q < u.place r

/-- A record that a dispatch of `r` frees: the other CLOSED ones, and the OPEN ones not within 8 after it (R67). -/
def FreedBy (r : Fin 4) (u : Fau) (q : Fin 4) : Prop :=
  q ≠ r ∧ (u.records[q].state = .closed
    ∨ (u.records[q].state = .opened ∧ Frame.newerBy 8 u.records[q].frame u.records[r].frame = false))

/-- The record `r` has been dispatched from the Frame Table `u`, and handed to the engine: the other CLOSED records are skipped, the
OPEN ones not within 8 after it abandoned, each reported freed once behind the messages `w`, and it becomes the last dispatched frame and
the ordering base (R66 to R68, R74). -/
structure Dispatched (r : Fin 4) (u : Fau) (w : Wires) (t : State) : Prop where
  itself : t.fau.records[r] = { u.records[r] with state := .dispatched }
  freed : ∀ q, FreedBy r u q → t.fau.records[q] = {}
  others : ∀ q, q ≠ r → ¬ FreedBy r u q → t.fau.records[q] = u.records[q]
  last : t.fau.lastDispatched = some u.records[r].frame ∧ t.fau.base = some u.records[r].frame
  lastGood : t.fau.lastGood = u.lastGood
  dispatched : t.fau.dispatched = u.dispatched + 1
  overrun : t.fau.overrun = u.overrun
  voided : t.fau.voided = if u.records[r].void then u.voided + 1 else u.voided
  skipped : t.fau.skipped = u.skipped
    + BitVec.ofNat 32 ((allFin 4).filter fun q => q ≠ r && u.records[q].state == .closed).length
  abandoned : t.fau.abandoned = u.abandoned + BitVec.ofNat 32 ((allFin 4).filter fun q =>
    u.records[q].state == .opened && !Frame.newerBy 8 u.records[q].frame u.records[r].frame).length
  handed : ∃ freed : List (Fin 4), freed.Nodup ∧ (∀ q, q ∈ freed ↔ FreedBy r u q) ∧ t.wires =
    { w with
      recordsFreed := w.recordsFreed ++ freed
      handover := some
        { record := r, frame := u.records[r].frame, started := u.records[r].started.getD 0
          closed := u.records[r].closeTime.getD 0, cause := u.records[r].cause.getD .complete, void := u.records[r].void
          voidCounts := u.records[r].voidCounts } }

/-- The record `r`, as `x`, closes in the Frame Table `u`, with the messages `w` on their way: the void frames are counted, and with the
engine IDLE the newest CLOSED record is dispatched at once (R64 to R67). -/
structure Closes (r : Fin 4) (x : Record) (cause : CloseCause) (u : Fau) (w : Wires) (s t : State) : Prop where
  counted : VoidFramesCounted (x.close cause s.time s.sau.streams) s t
  messages : t.wires = { w with recordsFreed := t.wires.recordsFreed, handover := t.wires.handover }
  waits : engineIdleAtFau s = false → t.wires = w
    ∧ t.fau = { u with records := tweak s.fau.records r fun _ => x.close cause s.time s.sau.streams }
  goes : engineIdleAtFau s = true → ∀ q,
    NewestClosed q { u with records := tweak s.fau.records r fun _ => x.close cause s.time s.sau.streams } →
    Dispatched q { u with records := tweak s.fau.records r fun _ => x.close cause s.time s.sau.streams } w t

/-! ### Command output (R130, R143, R146) -/

/-- The links' quiet report of a step of the COU, beside what else the step does to the messages (R131). -/
def quietNoted (s t : State) : Bool := s.wires.linksQuiet || (linksQuiet t && !linksQuiet s)

/-- A packet in transmission has been cut off at a block boundary: the transmitter is in its abort trailer, and what it has sent has
grown by the first blocks of the packet, the START at least, and by no byte of the check code (R180). How many is a free value
(log 39). -/
structure CutOff (p : Packet) (l l' : MirrorLink) : Prop where
  trailer : l'.tx = .trailer
  sent : ∃ n, 1 ≤ n ∧ 8 * n + 3 ≤ p.bytes.length ∧ l'.line = l.line ++ (wireBlocks p.bytes).take n

/-- A hold cause has joined the set: while QUIET nothing changes; otherwise the output is HELD, and going HELD from LIVE raises HELD
and discards every waiting command packet (R130, R143). -/
structure CauseJoined (c : HoldCause) (s t : State) : Prop where
  quiet : s.cou.output = .quiet → t.cou.output = .quiet ∧ t.cou.causes = s.cou.causes
  joined : s.cou.output ≠ .quiet → t.cou.output = .held ∧ t.cou.causes = s.cou.causes.add c
  raised : s.cou.output = .live → attentionHas .held t = true ∧ ∀ l : Fin 4, t.cou.links[l].waitingCommand = none
  same : s.cou.output ≠ .live → attentionHas .held t = attentionHas .held s

/-- A link's counts of a miss of a kind (R146). -/
def LinkCounts.missed (m : Miss) (c : LinkCounts) : LinkCounts :=
  { c with
    misses := c.misses + 1
    timeouts := if m = .timeout then c.timeouts + 1 else c.timeouts
    rejections := if m = .rejected then c.rejections + 1 else c.rejections
    supersedes := if m = .superseded then c.supersedes + 1 else c.supersedes }

/-- A mirror link when the output goes HELD from LIVE: its waiting command packet is discarded and counted as dropped; otherwise it
stays (R143, R148). -/
def MirrorLink.whenHeld (goesHeld : Bool) (x : MirrorLink) : MirrorLink :=
  if goesHeld && x.waitingCommand.isSome then
    { x with waitingCommand := none, counts := { x.counts with dropped := x.counts.dropped + 1 } }
  else x

/-- DRIVER_FAULT has been raised and the cause DRIVER has joined the set; of the other attention causes only HELD may be raised (R130,
R146). -/
structure DriverHolds (s t : State) : Prop where
  raised : attentionHas .driverFault t = true
  others : ∀ c, c ≠ .driverFault → c ≠ .held → attentionHas c t = attentionHas c s
  joined : CauseJoined .driver s t

/-- The window of a link, of this kind, has closed as a miss; a command window at the miss limit adds DRIVER and raises DRIVER_FAULT
(R146). The receiver of the link is as the step leaves it. -/
structure Missed (l : Fin 4) (kind : PacketKind) (m : Miss) (s t : State) : Prop where
  safe : kind = .safe → t.page = s.page ∧ t.cou = { s.cou with
    links := tweak s.cou.links l fun x => { x with window := .idle, counts := x.counts.missed m, rx := t.cou.links[l].rx } }
  below : kind = .command → min 15 (s.cou.links[l].consecutive + 1) < missLimit s → t.page = s.page ∧ t.cou = { s.cou with
    links := tweak s.cou.links l fun x =>
      { x with
        window := .idle, counts := x.counts.missed m, rx := t.cou.links[l].rx, consecutive := min 15 (x.consecutive + 1) } }
  limit : kind = .command → missLimit s ≤ min 15 (s.cou.links[l].consecutive + 1) →
    let x := s.cou.links[l]
    let y := { x with
      window := .idle, counts := x.counts.missed m, rx := t.cou.links[l].rx, consecutive := min 15 (x.consecutive + 1) }
    DriverHolds s t
      ∧ t.cou = { s.cou with links := t.cou.links, output := t.cou.output, causes := t.cou.causes }
      ∧ t.cou.links[l] = y.whenHeld (s.cou.output = .live)
      ∧ ∀ k : Fin 4, k ≠ l → t.cou.links[k] = s.cou.links[k].whenHeld (s.cou.output = .live)

/-! ### Directives -/

/-- A directive of a kind is in hand, passed to its owner, with the anchor and the expected ticket there are (R153). -/
structure InHand (s : State) (a : Anchor) (next : Ticket) (h : Hand) (kind : Nat) : Prop where
  anchor : s.run.anchor = some a
  expected : s.du.expected = some next
  hand : s.du.hand = some h
  taken : h.phase = .taken
  kind : h.kind = kind

/-- The parameter length is a kind's, and its reserved bytes are zero (12.3). -/
def Hand.Fits (h : Hand) (length reserved count : Nat) : Prop :=
  h.length = length ∧ ∀ k, reserved ≤ k → k < reserved + count → h.params.getD k 0 = 0

/-- The directive in hand has ended with a final outcome, and the read of the next slot is placed (R151, R154, R156). -/
structure Ended (a : Anchor) (next : Ticket) (h : Hand) (code : Nat) (detail : BitVec 32) (s t : State) : Prop where
  du : t.du = { s.du with
    hand := none, activity := .reading, job := some (newJob .slot (slotOffset a next) 128) }
  queue : t.arb.du = s.arb.du
    ++ writeAccesses (.outcome [h.ticket]) (slotOffset a h.ticket + 8) (outcomeBytes code detail)
    ++ readAccesses .slot (slotOffset a next) 128

/-- The outcome writes of a ticket that ends DONE with detail 0, and settles it (R154, R155). -/
def doneWrites (a : Anchor) (k : Ticket) : List Access :=
  writeAccesses (.outcome [k]) (slotOffset a k + 8) (outcomeBytes 2 0)

/-- The directive in hand has begun to read its data (R156). -/
structure Occupied (h : Hand) (p : Purpose) (address size : Nat) (s t : State) : Prop where
  du : t.du = { s.du with
    hand := some { h with phase := .working }, activity := .executing, job := some (newJob p address size) }
  queue : t.arb.du = s.arb.du ++ readAccesses p address size

/-- The directive in hand has joined the Deferred List with PENDING, and the read of the next slot is placed, with `more` behind it
(R158). -/
structure JoinedList (a : Anchor) (next : Ticket) (h : Hand) (work : DeferredWork) (more : List Access) (s t : State) : Prop where
  du : t.du = { s.du with
    deferred := s.du.deferred ++ [{ ticket := h.ticket, work := work }]
    hand := none, activity := .reading, job := some (newJob .slot (slotOffset a next) 128) }
  queue : t.arb.du = s.arb.du
    ++ writeAccesses (.outcome []) (slotOffset a h.ticket + 8) (outcomeBytes codePending 0)
    ++ readAccesses .slot (slotOffset a next) 128 ++ more

/-- The edition number of the CURRENT slot, and of the RETAINED one; 0 where there is none (R97). -/
def currentNumber (s : State) : BitVec 32 := ((currentSlot s).map fun x => x.2.number).getD 0

def retainedNumber (s : State) : BitVec 32 :=
  match s.rce.slotA, s.rce.slotB with
  | .retained e, _ => e.number
  | _, .retained e => e.number
  | _, _ => 0

/-- A slot is CURRENT, LOADING, RETAINED. -/
def Slot.isCurrent : Slot → Prop
  | .current _ => True
  | _ => False

def Slot.isLoading : Slot → Prop
  | .loading _ => True
  | _ => False

def Slot.isRetained : Slot → Prop
  | .retained _ => True
  | _ => False

/-- An address that is not a multiple of 64, or an area that does not lie wholly within XM or that overlaps a fixed area (11.3). -/
def BadArea (s : State) (address size : Nat) : Prop :=
  address % 64 ≠ 0 ∨ 2147483648 < address + size ∨ ∃ x ∈ fixedAreas s, overlaps address size x.1 x.2 = true

/-- The directive in hand waits, for a free Edition Slot or for room in the Deferred List, and nothing is placed (R157). -/
structure Waits (p : HandPhase) (h : Hand) (s t : State) : Prop where
  du : t.du = { s.du with activity := .waiting, hand := some { h with phase := p } }
  queue : t.arb.du = s.arb.du

/-- The Directive Unit reads on for the directive in hand (R82). -/
structure ReadsOn (p : Purpose) (address size : Nat) (s t : State) : Prop where
  du : t.du = { s.du with job := some (newJob p address size) }
  queue : t.arb.du = s.arb.du ++ readAccesses p address size

/-- All of the engine stays but the Edition Slots and the load in progress (R79, R84, R85). -/
def EngineKept (s t : State) : Prop :=
  t.rce = { s.rce with slotA := t.rce.slotA, slotB := t.rce.slotB, load := t.rce.load }

/-- A slot has become CURRENT with an edition; the slot that was CURRENT is RETAINED while it carries the in-use mark, else EMPTY; the
Range Watch map is that of the slots, and no load is in progress (R78, R84, R90). -/
structure Switched (i : SlotId) (e : Edition) (s t : State) : Prop where
  engine : EngineKept s t
  current : slotOf t i = .current e
  old : ∀ k d, k ≠ i → slotOf s k = .current d → slotOf t k = if s.rce.inUse = some k then .retained d else .empty
  others : ∀ k, k ≠ i → ¬ (slotOf s k).isCurrent → slotOf t k = slotOf s k
  watch : t.watch = watchMap t.rce.slotA t.rce.slotB
  load : t.rce.load = none

/-- A load has failed: its slot is EMPTY, no load is in progress, and the other slot, the engine and the Range Watch map stay (R85). -/
structure LoadFailed (i : SlotId) (s t : State) : Prop where
  engine : EngineKept s t
  slot : slotOf t i = .empty
  others : ∀ k, k ≠ i → slotOf t k = slotOf s k
  load : t.rce.load = none
  watch : t.watch = s.watch

/-- The directive in hand and its owner at work on the read that has returned (R156). -/
structure Working (s : State) (a : Anchor) (next : Ticket) (h : Hand) (p : Purpose) (j : ReadJob) : Prop where
  anchor : s.run.anchor = some a
  expected : s.du.expected = some next
  hand : s.du.hand = some h
  phase : h.phase = .working
  job : s.du.job = some j
  purpose : j.purpose = p
  complete : j.left = 0

/-! ### Adoption directives (R79, R81 to R88) -/

/-- A group table row passes check 5 of R83. -/
def GroupRow.InRange (r : GroupRow) : Prop :=
  r.leak ≤ 65536 ∧ (-32767 ≤ r.low ∧ r.low ≤ 32767) ∧ (-32767 ≤ r.high ∧ r.high ≤ 32767) ∧ r.low ≤ r.high
    ∧ 1 ≤ r.slew ∧ r.slew ≤ 65534

/-- Entry `n` of an edition's output map fails check 6 of R83: its range ends beyond the actuators, or shares one with an earlier used
entry (log 20). -/
def Edition.EntryFails (e : Edition) (n : Fin 4) : Prop :=
  0 < e.links.map[n].count ∧ (e.actuatorCount < e.links.map[n].first + e.links.map[n].count
    ∨ ∃ m : Fin 4, m < n ∧ ∃ x,
        (e.links.map[n].first ≤ x ∧ x < e.links.map[n].first + e.links.map[n].count)
          ∧ e.links.map[m].first ≤ x ∧ x < e.links.map[m].first + e.links.map[m].count)

/-- The settings of an edition pass check 7 of R83. -/
def Edition.SettingsInRange (e : Edition) : Prop :=
  e.guards.saturationLimit ≤ 1024 ∧ (1 ≤ e.guards.saturationFrames ∧ e.guards.saturationFrames ≤ 255)
    ∧ (1 ≤ e.guards.voidFrames ∧ e.guards.voidFrames ≤ 255) ∧ (20 ≤ e.links.timeout ∧ e.links.timeout ≤ 2000)
    ∧ 1 ≤ e.links.missLimit ∧ e.links.missLimit ≤ 15

/-- An Edition Record fails a check of 1 to 7, with an index: that of the row for check 5, of the entry for check 6, else 0 (R83). -/
def RecordFails (s : State) (e : Edition) (l : Load) : Nat → Nat → Prop
  | 1, 0 => e.number = 0
  | 2, 0 => e.slopeCount < 1 ∨ 16384 < e.slopeCount ∨ e.actuatorCount < 1 ∨ 1024 < e.actuatorCount
  | 3, 0 => 1024 < l.tileCount
  | 4, 0 => BadArea s l.tileList (16 * l.tileCount) ∨ BadArea s l.referenceAt (2 * e.slopeCount)
      ∨ BadArea s l.groupMapAt e.actuatorCount
  | 5, g => ∃ r : Fin 16, r.val = g ∧ ¬ e.groups[r].InRange
  | 6, n => ∃ m : Fin 4, m.val = n ∧ e.EntryFails m
  | 7, 0 => ¬ e.SettingsInRange
  | _, _ => False

/-- ADOPT_EDITION has taken a slot: it is LOADING, and the Edition Record is being read (R81, R82). -/
structure AdoptBegun (h : Hand) (i : SlotId) (s t : State) : Prop where
  engine : EngineKept s t
  reads : Occupied h .load (field h.params 0 4) 256 s t
  slot : slotOf t i = .loading {}
  others : ∀ k, k ≠ i → slotOf t k = slotOf s k
  load : t.rce.load = some { slot := i, phase := .record }

/-- AMEND_GROUPS has taken a slot: it holds a copy of the CURRENT edition with the new number, and the group table is being read (R86). -/
structure AmendBegun (h : Hand) (i : SlotId) (e : Edition) (s t : State) : Prop where
  engine : EngineKept s t
  reads : Occupied h .load (field h.params 4 4) 192 s t
  slot : slotOf t i = .loading { e with number := BitVec.ofNat 32 (field h.params 0 4) }
  others : ∀ k, k ≠ i → slotOf t k = slotOf s k
  load : t.rce.load = some { slot := i, phase := .groupTable }

/-- What REPOINT_TILE with SET brings with the slot it has taken: check 8, check 11, or the copy with its entry set and unmarked is
CURRENT (R83, R88, R93). -/
structure TileSet (a : Anchor) (next : Ticket) (h : Hand) (i : SlotId) (e : Edition) (s t : State) : Prop where
  beyond : e.slopeCount ≤ 256 * field h.params 5 1 ∨ e.actuatorCount ≤ 64 * field h.params 6 1 →
    LoadFailed i s t ∧ Ended a next h 10 (checkDetail 8 0) s t
  promised : ∀ k, 256 * field h.params 5 1 < e.slopeCount → 64 * field h.params 6 1 < e.actuatorCount →
    retiring s (field h.params 8 4) = some k → LoadFailed i s t ∧ Ended a next h 8 k s t
  set : 256 * field h.params 5 1 < e.slopeCount → 64 * field h.params 6 1 < e.actuatorCount →
    retiring s (field h.params 8 4) = none → Ended a next h 2 e.number s t
      ∧ Switched i
        { e with
          number := BitVec.ofNat 32 (field h.params 0 4)
          directory := Store.insert e.directory (64 * field h.params 6 1 + field h.params 5 1)
            { address := field h.params 8 4, exponent := signed 8 (field h.params 7 1), taint := false } } s t

/-- What REPOINT_TILE with REMOVE brings with the slot it has taken: check 13, or the copy without the entry is CURRENT (R88). -/
structure TileRemoved (a : Anchor) (next : Ticket) (h : Hand) (i : SlotId) (e : Edition) (s t : State) : Prop where
  absent : Store.find? e.directory (64 * field h.params 6 1 + field h.params 5 1) = none →
    LoadFailed i s t ∧ Ended a next h 10 (checkDetail 13 0) s t
  removed : Store.find? e.directory (64 * field h.params 6 1 + field h.params 5 1) ≠ none → Ended a next h 2 e.number s t
    ∧ Switched i
      { e with
        number := BitVec.ofNat 32 (field h.params 0 4)
        directory := Store.erase e.directory (64 * field h.params 6 1 + field h.params 5 1) } s t

/-! ### Deferred kinds (R94, R123, R157 to R159) -/

/-- The range of a RETIRE_RANGE holds a tile of the edition (R94). -/
def RangeNamed (h : Hand) (e : Edition) : Prop :=
  ∃ d ∈ e.directory, field h.params 0 4 / 32768 ≤ d.2.address / 32768
    ∧ d.2.address / 32768 ≤ (field h.params 0 4 + field h.params 4 4 - 1) / 32768

/-- A RETIRE_RANGE whose range lies in Exchange Memory is refused, done, deferred, or waits for room (R94, R157). -/
structure RetireJudged (a : Anchor) (next : Ticket) (h : Hand) (s t : State) : Prop where
  inUse : ∀ i e, currentSlot s = some (i, e) → RangeNamed h e → Ended a next h 7 e.number s t
  unused : (∀ i e, slotOf s i = .retained e ∨ slotOf s i = .current e → ¬ RangeNamed h e) → Ended a next h 2 0 s t
  joins : (∀ i e, currentSlot s = some (i, e) → ¬ RangeNamed h e) → (∃ i e, slotOf s i = .retained e ∧ RangeNamed h e) →
    s.du.deferred.length < 4 → JoinedList a next h
      (.retire (field h.params 0 4 / 32768) ((field h.params 0 4 + field h.params 4 4 - 1) / 32768)) [] s t
  waits : (∀ i e, currentSlot s = some (i, e) → ¬ RangeNamed h e) → (∃ i e, slotOf s i = .retained e ∧ RangeNamed h e) →
    4 ≤ s.du.deferred.length → Waits .needsRoom h s t

/-- A SET_PROBE_CYCLE has joined the Deferred List and the Probe Unit's waiting copies: behind a copy in progress it waits; else it
begins its own, and one with no entries ends at once with the cycle empty (R123, R124). -/
structure ProbeJoined (a : Anchor) (next : Ticket) (h : Hand) (s t : State) : Prop where
  joins : ∃ more, JoinedList a next h .probeCycle more s t
  queued : s.pru.staging.isSome = true → JoinedList a next h .probeCycle [] s t ∧ t.wires = s.wires
    ∧ t.pru = { s.pru with waiting := s.pru.waiting ++
        [{ ticket := h.ticket, table := field h.params 0 4, entries := field h.params 4 1, length := field h.params 6 2 }] }
  empties : s.pru.staging = none → s.pru.waiting = [] → field h.params 4 1 = 0 → JoinedList a next h .probeCycle [] s t
    ∧ t.wires = { s.wires with ownerEnds := s.wires.ownerEnds ++ [{ ticket := h.ticket, code := 2, detail := 0 }] }
    ∧ t.pru = { s.pru with
        cycle := [], length := none, position := none, staging := none, job := none
        supply := s.pru.supply.map fun x => if x.source.isCycle then { x with inForce := false } else x }
  begins : s.pru.staging = none → s.pru.waiting = [] → field h.params 4 1 ≠ 0 → t.wires = s.wires
    ∧ JoinedList a next h .probeCycle (readAccesses .copy (field h.params 0 4) 8) s t
    ∧ t.pru = { s.pru with
        staging := some { request :=
          { ticket := h.ticket, table := field h.params 0 4, entries := field h.params 4 1, length := field h.params 6 2 } }
        job := some (newJob .copy (field h.params 0 4) 8) }

/-- With no copy in progress in `u`, the copies that wait have been taken up: the oldest begins with the read of its first table entry, and
ones with no entries before it end at once with the cycle empty (R123, R124, log 33). -/
def CopiesRun : List CopyRequest → State → State → Prop
  | [], u, t => t.pru = { u.pru with waiting := [] } ∧ t.wires = u.wires ∧ t.arb.du = u.arb.du
  | r :: rest, u, t =>
    (r.entries ≠ 0 → t.wires = u.wires ∧ t.arb.du = u.arb.du ++ readAccesses .copy r.table 8
        ∧ t.pru = { u.pru with
            waiting := rest, staging := some { request := r }, job := some (newJob .copy r.table 8) })
      ∧ (r.entries = 0 → CopiesRun rest
          { u with
            wires := { u.wires with ownerEnds := u.wires.ownerEnds ++ [{ ticket := r.ticket, code := 2, detail := 0 }] }
            pru := { u.pru with
              cycle := [], length := none, position := none, staging := none, job := none
              supply := u.pru.supply.map fun x => if x.source.isCycle then { x with inForce := false } else x } } t)

/-- No frame is dispatched, and the Directive Unit has taken the engine's IDLE report (R159, log 26). -/
def EngineAtRest (s : State) : Prop := s.rce.state = .idle ∧ s.wires.handover = none ∧ s.wires.idleToDu = false

/-- The telemetry record of a completion is written, or its set dropped, and the Directive Unit knows it (R159, R165). -/
def KnownWritten (s : State) (n : Nat) : Prop := (∀ x ∈ s.rpu.holding, x.number ≠ n) ∧ n ∉ s.wires.telemetryWritten

/-- The entry is no DRAIN that a step's news would move on. -/
def DrainStays (s : State) (d : Deferred) : Prop :=
  ∀ x, d.work = .drain x →
    (∃ r set missed, x = .records (r :: set) missed) ∨ x = .idle ∨ ∃ n, x = .written (some n) ∧ ¬ KnownWritten s n

/-- The entry's work is a DRAIN's. -/
def DeferredWork.isDrain : DeferredWork → Bool
  | .drain _ => true
  | _ => false

/-- A DRAIN is done at once, deferred with the first condition that does not hold, or waits for room (R157, R159). -/
structure DrainJudged (a : Anchor) (next : Ticket) (h : Hand) (s t : State) : Prop where
  done : (∀ r : Fin 4, s.fau.records[r].state = .free) → EngineAtRest s → s.rpu.handed = 0 ∨ KnownWritten s s.rpu.handed →
    Ended a next h 2 0 s t
  records : ∀ set : List Nat, set = ((List.finRange 4).filter fun r : Fin 4 => decide (s.fau.records[r].state ≠ .free)).map Fin.val →
    set ≠ [] → s.du.deferred.length < 4 → JoinedList a next h (.drain (.records set false)) [] s t
  idle : (∀ r : Fin 4, s.fau.records[r].state = .free) → ¬ EngineAtRest s → s.du.deferred.length < 4 →
    JoinedList a next h (.drain .idle) [] s t
  written : (∀ r : Fin 4, s.fau.records[r].state = .free) → EngineAtRest s → s.rpu.handed ≠ 0 → ¬ KnownWritten s s.rpu.handed →
    s.du.deferred.length < 4 → JoinedList a next h (.drain (.written (some s.rpu.handed))) [] s t
  waits : (∃ r : Fin 4, s.fau.records[r].state ≠ .free) ∨ ¬ EngineAtRest s
      ∨ (s.rpu.handed ≠ 0 ∧ ¬ KnownWritten s s.rpu.handed) → 4 ≤ s.du.deferred.length → Waits .needsRoom h s t

/-- The Directive Unit has come to `s`, with room or without, and `t` is what becomes of the directive in hand: one that waits for room,
and finds it, is judged again (R157). -/
structure RoomTaken (a : Anchor) (s t : State) : Prop where
  same : (∀ h, s.du.hand = some h → h.phase = .needsRoom → 4 ≤ s.du.deferred.length) →
    t.du = s.du ∧ t.arb.du = s.arb.du ∧ t.pru = s.pru ∧ t.wires = s.wires
  retire : ∀ h next, s.du.hand = some h → h.phase = .needsRoom → s.du.expected = some next → s.du.deferred.length < 4 →
    h.kind = 4 → t.pru = s.pru ∧ t.wires = s.wires ∧ RetireJudged a next h s t
  probe : ∀ h next, s.du.hand = some h → h.phase = .needsRoom → s.du.expected = some next → s.du.deferred.length < 4 →
    h.kind = 12 → ProbeJoined a next h s t
  drain : ∀ h next, s.du.hand = some h → h.phase = .needsRoom → s.du.expected = some next → s.du.deferred.length < 4 →
    h.kind = 16 → s.wires.recordsFreed = [] → (∀ d ∈ s.du.deferred, DrainStays s d) →
    t.pru = s.pru ∧ t.wires = s.wires ∧ DrainJudged a next h s t

/-- With the messages `w` on their way, the telemetry record of a completion is written, or its set dropped (R159, R165). -/
def WrittenIn (s : State) (w : Wires) (n : Nat) : Prop := (∀ x ∈ s.rpu.holding, x.number ≠ n) ∧ n ∉ w.telemetryWritten

/-- A DRAIN that finds the engine IDLE waits for the record of the last completion, or is done (R159); none is a DRAIN that has ended. -/
structure LastAwaited (s : State) (w : Wires) (d : Deferred) (x : Option Deferred) : Prop where
  ends : s.rpu.handed = 0 ∨ WrittenIn s w s.rpu.handed → x = none
  waits : s.rpu.handed ≠ 0 → ¬ WrittenIn s w s.rpu.handed → x = some { d with work := .drain (.written (some s.rpu.handed)) }

/-- The Deferred List after news of a DRAIN: `g` says what becomes of each entry, none where it has ended. Other kinds stay, DRAINs that
wait for a record end with it, those that are done have DONE written in list order, and the room goes on (R157 to R159). -/
structure DrainsMoved (a : Anchor) (w : Wires) (g : Deferred → Option Deferred) (s t : State) : Prop where
  others : ∀ d ∈ s.du.deferred, d.work.isDrain = false → g d = some d
  done : ∀ d ∈ s.du.deferred, d.work = .drain (.written none) → g d = none
  written : ∀ d ∈ s.du.deferred, ∀ n, d.work = .drain (.written (some n)) →
    (WrittenIn s w n → g d = none) ∧ (¬ WrittenIn s w n → g d = some d)
  room : RoomTaken a
    { s with
      wires := w
      du := { s.du with deferred := s.du.deferred.filterMap g }
      arb := { s.arb with du := s.arb.du ++ (s.du.deferred.filter fun d => (g d).isNone).flatMap fun d => doneWrites a d.ticket } } t

/-! ### The Part Status Block and the Stream Report (R16, R36, R163, R164, R169, 12.6) -/

/-- The count after a count, or the serial after a serial: one higher, and never 0 (R164, R166, R169). -/
def risen (c : BitVec 32) : BitVec 32 := if c + 1 = 0 then 1 else c + 1

/-- The fields of the Part Status Block before its mirror link sections, by their offsets, as the state holds them (12.6). -/
structure StatusFields (s : State) (body : List Byte) : Prop where
  length : body.length = 1016
  run : field (zeros 4 ++ body) 4 1 = s.run.state.code ∧ field (zeros 4 ++ body) 5 1 = s.run.refusal.code
  pace : field (zeros 4 ++ body) 6 1 = s.fck.pace.code
  output : field (zeros 4 ++ body) 7 1 = s.cou.output.code ∧ field (zeros 4 ++ body) 8 1 = s.cou.causes.byte
    ∧ field (zeros 4 ++ body) 9 1 = s.cou.level.code
  last : field (zeros 4 ++ body) 10 1 = s.fau.lastDispatched.isSome.toNat
    ∧ field (zeros 4 ++ body) 12 2 = (s.fau.lastDispatched.getD 0).toNat
  wrapped : field (zeros 4 ++ body) 11 1 = s.sau.lastWrapped.val
  decimation : field (zeros 4 ++ body) 14 2 = s.rpu.decimation.toNat
  time : field (zeros 4 ++ body) 16 8 = s.time.toNat
  through : field (zeros 4 ++ body) 24 4 = (s.du.takenThrough.getD 0).toNat
    ∧ field (zeros 4 ++ body) 28 4 = (s.du.settledThrough.getD 0).toNat
  deferred : field (zeros 4 ++ body) 32 1 = s.du.deferred.length
    ∧ (∀ (k : Nat) (d : Deferred), s.du.deferred[k]? = some d → field (zeros 4 ++ body) (36 + 8 * k) 4 = d.ticket.toNat
        ∧ field (zeros 4 ++ body) (40 + 8 * k) 2 = d.work.kind ∧ field (zeros 4 ++ body) (42 + 8 * k) 2 = 0)
    ∧ ∀ k, s.du.deferred.length ≤ k → k < 4 → field (zeros 4 ++ body) (36 + 8 * k) 8 = 0
  editions : field (zeros 4 ++ body) 68 4 = (currentNumber s).toNat ∧ field (zeros 4 ++ body) 72 4 = (retainedNumber s).toNat
  totals : field (zeros 4 ++ body) 76 4 = s.fau.dispatched.toNat ∧ field (zeros 4 ++ body) 80 4 = s.fau.skipped.toNat
    ∧ field (zeros 4 ++ body) 84 4 = s.fau.abandoned.toNat ∧ field (zeros 4 ++ body) 88 4 = s.fau.overrun.toNat
    ∧ field (zeros 4 ++ body) 92 4 = s.fau.voided.toNat ∧ field (zeros 4 ++ body) 96 4 = s.fck.reframes.toNat
  errors : field (zeros 4 ++ body) 100 4 = s.rce.tileErrors.toNat ∧ field (zeros 4 ++ body) 104 4 = s.corrected.toNat
  overruns : field (zeros 4 ++ body) 108 4 = s.sau.overruns.toNat
  telemetry : field (zeros 4 ++ body) 112 4 = s.rpu.serial.toNat ∧ field (zeros 4 ++ body) 116 4 = s.rpu.dropped.toNat
  links : ∀ l : Fin 4,
    let x := s.cou.links[l]
    let at' := fun k : Nat => field (zeros 4 ++ body) (128 + 48 * l + 4 * k) 4
    at' 0 = x.counts.commands.toNat ∧ at' 1 = x.counts.safes.toNat ∧ at' 2 = x.counts.aborted.toNat
      ∧ at' 3 = x.counts.dropped.toNat ∧ at' 4 = x.counts.accepted.toNat ∧ at' 5 = x.counts.misses.toNat
      ∧ at' 6 = x.counts.timeouts.toNat ∧ at' 7 = x.counts.rejections.toNat ∧ at' 8 = x.counts.supersedes.toNat
      ∧ at' 9 = x.counts.stray.toNat ∧ at' 10 = x.counts.bad.toNat ∧ at' 11 = x.consecutive % 256
  reserved : ∀ k, (33 ≤ k ∧ k < 36) ∨ (120 ≤ k ∧ k < 128) ∨ 320 ≤ k → (zeros 4 ++ body).getD k 0 = 0

/-- The fields of the Stream Report by their offsets, as the state holds them (12.6). -/
structure StreamReportFields (s : State) (body : List Byte) : Prop where
  length : body.length = 4088
  streams : ∀ i : Fin 16,
    let x := s.sau.streams[i]
    let at' := fun offset n : Nat => field (zeros 4 ++ body) (64 + 64 * i + offset) n
    (at' 0 1 = x.state.code ∧ at' 1 1 = x.enabled.toNat)
      ∧ (at' 2 2 = x.config.tag % 65536 ∧ at' 4 1 = x.config.link % 256 ∧ at' 5 1 = x.config.substitution.code
        ∧ at' 6 1 = x.config.mandatory.toNat ∧ at' 7 1 = x.config.cutTimeout % 256 ∧ at' 8 2 = x.config.base % 65536
        ∧ at' 10 2 = x.config.count % 65536 ∧ at' 12 1 = x.config.segments % 256 ∧ at' 13 1 = 0
        ∧ at' 14 2 = x.config.allowance % 65536)
      ∧ (at' 16 2 = (x.counter .received).toNat ∧ at' 18 2 = (x.counter .placed).toNat
        ∧ at' 20 2 = (x.counter .duplicate).toNat ∧ at' 22 2 = (x.counter .late).toNat
        ∧ at' 24 2 = (x.counter .misinserted).toNat ∧ at' 26 2 = (x.counter .malformed).toNat
        ∧ at' 28 2 = (x.counter .seekingDiscards).toNat ∧ at' 30 2 = (x.counter .misrouted).toNat
        ∧ at' 32 2 = (x.counter .idleDiscards).toNat ∧ at' 34 2 = (x.counter .voidFrames).toNat
        ∧ at' 36 2 = (x.counter .cutEvents).toNat)
      ∧ (at' 38 2 = 0 ∧ at' 40 8 = x.changed.toNat ∧ at' 48 8 = 0 ∧ at' 56 8 = 0)
  links : ∀ l : Fin 8,
    let x := s.ports[l]
    let at' := fun offset n : Nat => field (zeros 4 ++ body) (1088 + 24 * l + offset) n
    at' 0 1 = x.rx.link.code ∧ at' 1 1 = s.sau.asideFlags[l].toNat ∧ at' 2 2 = x.crcErrors.toNat
      ∧ at' 4 2 = x.codingErrors.toNat ∧ at' 6 2 = x.oversize.toNat ∧ at' 8 2 = x.foreign.toNat ∧ at' 10 6 = 0
      ∧ at' 16 8 = x.changed.toNat
  reserved : ∀ k, (4 ≤ k ∧ k < 64) ∨ 1280 ≤ k → (zeros 4 ++ body).getD k 0 = 0

/-- The writer has taken a Stream Report rewrite: the update count has risen, and the leading count, the fields as they stand and the
trailing count are placed in this order (R169). -/
structure StreamReportTaken (a : Anchor) (s t : State) : Prop where
  writer : t.rpu.writer = .streamReport ∧ t.rpu.streamOwed = false
  count : t.rpu.streamCount = risen s.rpu.streamCount
  writes : ∃ body, StreamReportFields t body ∧ t.arb.rpu = s.arb.rpu
    ++ writeAccesses .report a.streamReport (leBytes 4 t.rpu.streamCount.toNat)
    ++ writeAccesses .report (a.streamReport + 4) body
    ++ writeAccesses .report (a.streamReport + 4092) (leBytes 4 t.rpu.streamCount.toNat)

/-- The writer has taken a Part Status Block rewrite: the update count has risen, and the leading count, the fields as they stand and
the trailing count are placed in this order (R164). The block has room for the four entries of the Deferred List (`TicketLaw`). -/
structure StatusTaken (a : Anchor) (s t : State) : Prop where
  writer : t.rpu.writer = .status ∧ t.rpu.statusOwed = false
  count : t.rpu.statusCount = risen s.rpu.statusCount
  writes : t.du.deferred.length ≤ 4 → ∃ body, StatusFields t body ∧ t.arb.rpu = s.arb.rpu
    ++ writeAccesses .report a.statusBlock (leBytes 4 t.rpu.statusCount.toNat)
    ++ writeAccesses .report (a.statusBlock + 4) body
    ++ writeAccesses .report (a.statusBlock + 1020) (leBytes 4 t.rpu.statusCount.toNat)

/-- A Part Status Block rewrite is owed after the step, or has been begun in it (R163, R164). -/
def StatusOwed (s t : State) : Prop :=
  t.rpu.statusOwed = true ∨ (t.rpu.writer = .status ∧ t.rpu.statusCount = risen s.rpu.statusCount)

/-- A Stream Report rewrite is owed after the step, or has been begun in it (R163, R169). -/
def StreamReportOwed (s t : State) : Prop :=
  t.rpu.streamOwed = true ∨ (t.rpu.writer = .streamReport ∧ t.rpu.streamCount = risen s.rpu.streamCount)

/-- No block has reported a change of a field the Part Status Block holds. The time base makes no rewrite owed, and the telemetry serial
does so when its record is sealed (10.3, R164, R166, log 32). -/
structure StatusSame (s t : State) : Prop where
  run : t.run.state = s.run.state ∧ t.run.refusal = s.run.refusal
  pace : t.fck.pace = s.fck.pace ∧ t.fck.reframes = s.fck.reframes
  output : t.cou.output = s.cou.output ∧ t.cou.causes = s.cou.causes ∧ t.cou.level = s.cou.level
  last : t.fau.lastDispatched = s.fau.lastDispatched
  wrapped : t.sau.lastWrapped = s.sau.lastWrapped ∧ t.sau.overruns = s.sau.overruns
  through : t.du.takenThrough = s.du.takenThrough ∧ t.du.settledThrough = s.du.settledThrough
  deferred : (t.du.deferred.map fun d => (d.ticket, d.work.kind)) = s.du.deferred.map fun d => (d.ticket, d.work.kind)
  editions : currentNumber t = currentNumber s ∧ retainedNumber t = retainedNumber s
  totals : t.fau.dispatched = s.fau.dispatched ∧ t.fau.skipped = s.fau.skipped ∧ t.fau.abandoned = s.fau.abandoned
    ∧ t.fau.overrun = s.fau.overrun ∧ t.fau.voided = s.fau.voided
  errors : t.rce.tileErrors = s.rce.tileErrors ∧ t.corrected = s.corrected
  telemetry : t.rpu.decimation = s.rpu.decimation ∧ t.rpu.dropped = s.rpu.dropped
  links : ∀ l : Fin 4, t.cou.links[l].counts = s.cou.links[l].counts ∧ t.cou.links[l].consecutive = s.cou.links[l].consecutive

/-- No stream has changed its state, and no sensor link (R36, R169). -/
structure StreamReportSame (s t : State) : Prop where
  streams : ∀ i : Fin 16, t.sau.streams[i].state = s.sau.streams[i].state
  links : ∀ l : Fin 8, t.ports[l].rx.link = s.ports[l].rx.link

/-! ### Telemetry and snapshots (R166, R167, 12.6) -/

/-- The bytes of a telemetry record that follow its serial, by the record's offsets; `snapshot` is the entry written for the frame. -/
structure TelemetryFields (set : TelemetrySet) (snapshot : Option Nat) (body : List Byte) : Prop where
  length : body.length = 508
  frame : field (zeros 4 ++ body) 4 2 = set.handed.frame.toNat
  cause : field (zeros 4 ++ body) 6 1 = set.handed.cause.code
  result : field (zeros 4 ++ body) 7 1 = set.result.code
  edition : field (zeros 4 ++ body) 8 4 = set.edition.toNat
  times : field (zeros 4 ++ body) 12 8 = set.handed.started.toNat ∧ field (zeros 4 ++ body) 20 8 = set.handed.closed.toNat
    ∧ field (zeros 4 ++ body) 28 8 = set.completed.toNat
  voidCounts : ∀ i : Fin 16, field (zeros 4 ++ body) (36 + 2 * i) 2 = set.handed.voidCounts[i] % 65536
  saturated : field (zeros 4 ++ body) 68 2 = set.saturated % 65536
  voidActuators : field (zeros 4 ++ body) 70 2 = set.voidActuators % 65536
  memoryErrors : field (zeros 4 ++ body) 72 2 = set.memoryErrors % 65536
  source : field (zeros 4 ++ body) 74 1 = set.source.code
  entry : field (zeros 4 ++ body) 75 1 = set.source.entry % 256
  output : field (zeros 4 ++ body) 76 1 = set.output.code
  causes : field (zeros 4 ++ body) 77 1 = set.causes.byte
  snapshot : field (zeros 4 ++ body) 78 2 = snapshot.getD 65535 % 65536
  reserved : ∀ k, 80 ≤ k → (zeros 4 ++ body).getD k 0 = 0

/-- The bytes 4 to 31 of a snapshot entry, by the entry's offsets. -/
structure SnapshotFields (set : TelemetrySet) (head : List Byte) : Prop where
  length : head.length = 28
  frame : field (zeros 4 ++ head) 4 2 = set.handed.frame.toNat
  result : field (zeros 4 ++ head) 6 1 = set.result.code
  edition : field (zeros 4 ++ head) 8 4 = set.edition.toNat
  counts : field (zeros 4 ++ head) 12 2 = set.slopeCount % 65536 ∧ field (zeros 4 ++ head) 14 2 = set.actuatorCount % 65536
  residual : field (zeros 4 ++ head) 16 2 = (set.residual.map List.length).getD 0 % 65536
  reserved : (zeros 4 ++ head).getD 7 0 = 0 ∧ ∀ k, 18 ≤ k → (zeros 4 ++ head).getD k 0 = 0

/-- The writer takes a snapshot with the set it takes next (R167). -/
def SnapshotDue (u : Rpu) : Prop := u.decimation ≠ 0 ∧ u.decimationCounter + 1 = u.decimation.toNat

/-- The writes of a set's record are placed behind `before`: invalidate, body, seal; `entry` is the snapshot entry it names (R166). -/
def RecordPlaced (a : Anchor) (set : TelemetrySet) (entry : Option Nat) (before : List Access) (t : State) : Prop :=
  let at' := a.telemetryOffset + 512 * (t.rpu.serial.toNat % a.telemetryCount)
  ∃ body, TelemetryFields set entry body
    ∧ t.arb.rpu = before ++ writeAccesses .report at' (zeros 4) ++ writeAccesses .report (at' + 4) body
        ++ writeAccesses .report at' (leBytes 4 t.rpu.serial.toNat)

/-- The writes of a set's snapshot entry are placed behind `before`: the serial 0, the contents, the serial that seals it (R167). -/
def SnapshotPlaced (a : Anchor) (set : TelemetrySet) (entry : Nat) (before : List Access) (t : State) : Prop :=
  let at' := a.snapshotOffset + 65536 * entry
  ∃ head, SnapshotFields set head
    ∧ t.arb.rpu = before ++ writeAccesses .report at' (zeros 4) ++ writeAccesses .report (at' + 4) head
        ++ writeAccesses .report (at' + 32) ((set.residual.getD []).flatMap int16Bytes)
        ++ writeAccesses .report (at' + 32800) (set.outputs.flatMap int16Bytes)
        ++ writeAccesses .snapshotSeal at' (leBytes 4 t.rpu.serial.toNat)

/-- The writer has taken a telemetry set: the serial has risen, never to 0; the decimation counter has counted it; and the writes of the
next snapshot entry are placed where one is due, those of the record where none is (R166, R167). `s` is the state whose Report Unit it
finds. -/
structure TelemetryTaken (a : Anchor) (set : TelemetrySet) (s t : State) : Prop where
  serial : t.rpu.serial = risen s.rpu.serial
  entry : t.rpu.nextSnapshot = s.rpu.nextSnapshot
  plain : ¬ SnapshotDue s.rpu → t.rpu.writer = .telemetry
    ∧ t.rpu.decimationCounter = (if s.rpu.decimation = 0 then 0 else s.rpu.decimationCounter + 1)
    ∧ RecordPlaced a set none s.arb.rpu t
  snapshot : SnapshotDue s.rpu → t.rpu.writer = .snapshot ∧ t.rpu.decimationCounter = 0
    ∧ SnapshotPlaced a set s.rpu.nextSnapshot s.arb.rpu t

/-- The snapshot entry of the set in hand has been sealed: the next snapshot entry advances, and the writes of the record, which names the
entry, are placed behind `before` (R166, R167). -/
structure SnapshotSealed (a : Anchor) (set : TelemetrySet) (before : List Access) (s t : State) : Prop where
  writer : t.rpu.writer = .telemetry
  advances : t.rpu.nextSnapshot = if s.rpu.nextSnapshot + 1 < a.snapshotCount then s.rpu.nextSnapshot + 1 else 0
  keeps : t.rpu.serial = s.rpu.serial ∧ t.rpu.holding = s.rpu.holding ∧ t.rpu.decimationCounter = s.rpu.decimationCounter
  record : RecordPlaced a set (some s.rpu.nextSnapshot) before t

/-! ### Laws every step keeps -/

/-- Exchange Memory is in its canonical form (log 5). -/
def MemoryLaw (s : State) : Prop := Memory.wf s.xm = true

/-- The part is RUNNING or DRAINING. -/
def RunState.active (r : RunState) : Prop := r = .running ∨ r = .draining

/-- The output state is HELD exactly when the hold cause set is not empty and the part is RUNNING or DRAINING, and QUIET exactly
when it is not RUNNING or DRAINING (R130, 8.1). -/
structure HoldLaw (s : State) : Prop where
  held : s.cou.output = .held ↔ s.cou.causes.any = true ∧ s.run.state.active
  quiet : s.cou.output = .quiet ↔ ¬ s.run.state.active
  quietCauses : s.cou.output = .quiet → s.cou.causes = {}

/-- At most one slot is CURRENT, at most one LOADING, and a slot is RETAINED only while the engine streams or concludes a frame that
began with it (R78). -/
structure SlotLaw (s : State) : Prop where
  oneCurrent : ¬ (s.rce.slotA.isCurrent ∧ s.rce.slotB.isCurrent)
  oneLoading : ¬ (s.rce.slotA.isLoading ∧ s.rce.slotB.isLoading)
  retained : ∀ i, (slotOf s i).isRetained → s.rce.inUse = some i ∧ s.rce.state ≠ .idle

/-- What the steps need beside `SlotLaw` to keep it: the LOADING slot is the slot of the load in progress, a load belongs to the
adoption in hand (R81), the mark goes with the frame, the Range Watch map is that of the slots (R90), and a HALTED part has no
directive and no load. -/
structure LoadLaw (s : State) : Prop where
  loading : ∀ i, (slotOf s i).isLoading ↔ s.rce.load.map Load.slot = some i
  working : s.rce.load.isSome → ∃ h, s.du.hand = some h ∧ h.phase = .working ∧ (h.kind = 1 ∨ h.kind = 2)
  idle : s.rce.state = .idle → s.rce.inUse = none
  watch : s.watch = watchMap s.rce.slotA s.rce.slotB
  halted : s.run.state = .halted → s.du.expected = none ∧ s.du.hand = none

/-- Settled-through is one below the oldest taken and unsettled ticket, or taken-through, and the Deferred List has at most four
entries (R155, R158). -/
structure TicketLaw (s : State) : Prop where
  settled : s.du.settledThrough = settledValue s.du
  room : s.du.deferred.length ≤ Config.listRoom

/-- With an anchor loaded an idle writer has no item waiting; an idle writer has no write waiting; one with a snapshot entry in hand has the
set, and the write that seals the entry (R163, R167). -/
structure WriterLaw (s : State) : Prop where
  waits : s.run.anchor.isSome = true → s.rpu.writer = .idle →
    s.rpu.holding = [] ∧ s.rpu.streamOwed = false ∧ s.rpu.statusOwed = false
  placed : s.rpu.writer = .idle → s.arb.rpu = []
  seals : s.rpu.writer = .snapshot → s.run.anchor.isSome = true ∧ s.rpu.holding ≠ []
    ∧ ∃ x ∈ s.arb.rpu, x.purpose = .snapshotSeal ∧ x.data.isSome = true

/-- A stream is DISABLED exactly when its enabled flag is clear, and its cut timer runs only in SEEKING and LOCKED (2.1, R20, R21,
R28). -/
structure StreamLaw (s : State) : Prop where
  disabled : ∀ i : Fin 16, s.sau.streams[i].state = .disabled ↔ s.sau.streams[i].enabled = false
  timer : ∀ i : Fin 16, s.sau.streams[i].timer.isSome →
    s.sau.streams[i].state = .seeking ∨ s.sau.streams[i].state = .locked

/-- The ranges of enabled streams never overlap, and no two enabled streams carry the same tag (2.1). -/
def DisjointStreams (s : State) : Prop :=
  ∀ i j : Fin 16, i ≠ j → s.sau.streams[i].enabled = true → s.sau.streams[j].enabled = true →
    s.sau.streams[i].config.clashes s.sau.streams[j].config = false

/-- Each stream's received count is the sum of its five outcomes and its seeking discards, modulo 65536 (R29). -/
def CountLaw (s : State) : Prop :=
  ∀ i : Fin 16, s.sau.streams[i].counter .received = s.sau.streams[i].counter .placed + s.sau.streams[i].counter .duplicate
    + s.sau.streams[i].counter .late + s.sau.streams[i].counter .misinserted + s.sau.streams[i].counter .malformed
    + s.sau.streams[i].counter .seekingDiscards

/-- No two records that are not FREE carry the same frame number (R51). -/
def DistinctFrames (s : State) : Prop :=
  ∀ i j : Fin 4, i ≠ j → s.fau.records[i].state ≠ .free → s.fau.records[j].state ≠ .free →
    s.fau.records[i].frame ≠ s.fau.records[j].frame

/-- At most one record is DISPATCHED (R51). What the steps need beside that: it is the record on its way to the engine, which is IDLE,
or the one the engine streams. -/
structure DispatchLaw (s : State) : Prop where
  one : ∀ i j : Fin 4, s.fau.records[i].state = .dispatched → s.fau.records[j].state = .dispatched → i = j
  owned : ∀ i : Fin 4, s.fau.records[i].state = .dispatched → (∃ h, s.wires.handover = some h ∧ h.record = i)
    ∨ (s.rce.state = .streaming ∧ ∃ f, s.rce.frame = some f ∧ f.handed.record = i)
  onItsWay : s.wires.handover.isSome = true → s.rce.state = .idle

end Sys2Proof.Machine
end

