-- ==== Sys2Proof/Certificates/Slice0/Obligations.lean ====
section
/-!
DEFINITION. The statements for the provers, in the order of the manual; OBLIGATIONS.json lists them.
-/
open Sys2Proof Sys2Proof.Machine

/-! ### The queue, time, and what a command may change -/

/-- A step takes the command at the front of the queue and runs it on the state with the queue's rest (log 1); with no command waiting,
one microsecond of the time base passes and nothing else changes (R178; that an empty queue lets time pass is the model's choice,
log 3). -/
def Obligations.StepTakesTheFront : Prop :=
  (∀ (c : Instr) (rest : List Instr) (s : State), s.pending = c :: rest → step s = exec c (s.withPending rest))
  ∧ (∀ s : State, s.pending = [] → ∃ t, step s = .next t ∧ OnlyChanges [.time] s t ∧ t.time = s.time + 1)

/-- A well-formed command goes on in every state, and changes only the parts `commandParts` lists for it, beside what the reports of
a step may change: the Report Unit, its writes, and the count of messages. That a command whose event has not come about goes on and
does nothing, that none changes the queue, that only a Full Reset changes the time base, and that none enables or disables MSI, is the
model's choice (log 2, log 1, log 3, log 7). -/
def Obligations.EveryCommandChangesOnlyItsParts : Prop :=
  ∀ (c : Instr) (s : State), c.wellFormed = true → ∃ t, exec c s = .next t ∧ Touches (commandParts c) s t
    ∧ t.pending = s.pending ∧ t.page.msiEnabled = s.page.msiEnabled
    ∧ (c ≠ .powerOn → c ≠ .fundamentalReset → c ≠ .hotReset → t.time = s.time)

/-! ### Reset values and resets (R172, R178) -/

/-- The state after power-on, where the tables of the chapters give it. -/
def Obligations.PowerOnValues : Prop :=
  let s := State.reset
  (s.run.state = .halted ∧ s.run.initialising = true ∧ s.run.busy = false ∧ s.run.refusal = .none ∧ s.run.anchor = none)
    ∧ ((∀ a, readByte s a = 0) ∧ s.corrected = 0 ∧ s.arb.tileRun = 0 ∧ s.arb.pointer = .du)
    ∧ (s.page.attention = 0 ∧ s.page.mask = 0 ∧ s.time = 0)
    ∧ (∀ l : Fin 8, s.ports[l].rx.link = .down ∧ s.ports[l].rx.badSync = 0 ∧ s.ports[l].crcErrors = 0
        ∧ s.ports[l].codingErrors = 0 ∧ s.ports[l].oversize = 0 ∧ s.ports[l].foreign = 0 ∧ s.ports[l].changed = 0
        ∧ s.sau.asideFlags[l] = false)
    ∧ (∀ i : Fin 16, s.sau.streams[i].enabled = false ∧ s.sau.streams[i].state = .disabled ∧ s.sau.streams[i].config = {}
        ∧ s.sau.streams[i].misinserts = 0 ∧ s.sau.streams[i].timer = none ∧ s.sau.streams[i].changed = 0
        ∧ ∀ c, s.sau.streams[i].counter c = 0)
    ∧ (s.sau.nextSlot = 0 ∧ s.sau.holding = [] ∧ s.sau.overruns = 0 ∧ s.sau.lastWrapped = 0)
    ∧ (s.fck.period = 0 ∧ s.fck.margin = 0 ∧ s.fck.deadline = 0 ∧ s.fck.configured = false ∧ s.fck.pace = .paced
        ∧ s.fck.lastStarted = none ∧ s.fck.flywheel = none ∧ s.fck.reframing = false ∧ s.fck.reframes = 0 ∧ s.fck.stream = 0)
    ∧ ((∀ r : Fin 4, s.fau.records[r].state = .free) ∧ s.fau.lastDispatched = none ∧ (∀ p, Store.read 0 s.fau.lastGood p = 0)
        ∧ s.fau.base = none ∧ s.fau.dispatched = 0 ∧ s.fau.skipped = 0 ∧ s.fau.abandoned = 0 ∧ s.fau.overrun = 0
        ∧ s.fau.voided = 0)
    ∧ (s.rce.slotA = .empty ∧ s.rce.slotB = .empty ∧ s.rce.inUse = none ∧ s.rce.state = .idle ∧ s.rce.frame = none
        ∧ (∀ a, Store.read 0 s.rce.integrator a = 0) ∧ s.rce.tileErrors = 0 ∧ s.watch = [])
    ∧ (s.pru.cycle = [] ∧ s.pru.length = none ∧ s.pru.position = none ∧ s.pru.injection = none ∧ s.pru.staging = none
        ∧ s.pru.supply = none)
    ∧ (s.cou.output = .quiet ∧ s.cou.causes = {} ∧ s.cou.level = .asserted ∧ s.cou.shapeLoaded = false
        ∧ (∀ a, Store.read 0 s.cou.safeShape a = 0) ∧ s.cou.action = .freeze ∧ s.cou.autoResume = false ∧ s.cou.safeSerial = 0
        ∧ (∀ a, Store.read 0 s.cou.lastEmitted a = 0) ∧ s.cou.settings = none ∧ s.cou.saturationRun = 0 ∧ s.cou.voidRun = 0
        ∧ ∀ l : Fin 4, s.cou.links[l].counts = {} ∧ s.cou.links[l].consecutive = 0 ∧ s.cou.links[l].window = .idle
            ∧ s.cou.links[l].tx = .idle ∧ s.cou.links[l].waitingSafe = none ∧ s.cou.links[l].waitingCommand = none
            ∧ s.cou.links[l].rx.link = .down)
    ∧ (s.du.expected = none ∧ s.du.takenThrough = none ∧ s.du.settledThrough = none ∧ s.du.scanTimer = none
        ∧ s.du.activity = .resting ∧ s.du.torn = 0 ∧ s.du.tornMemory = 0 ∧ s.du.hand = none ∧ s.du.deferred = [])
    ∧ (s.rpu.statusCount = 0 ∧ s.rpu.streamCount = 0 ∧ s.rpu.serial = 0 ∧ s.rpu.dropped = 0 ∧ s.rpu.decimation = 0
        ∧ s.rpu.decimationCounter = 0 ∧ s.rpu.holding = [])

/-- What a Part Reset and a Full Reset have in common: every block but those R178 names takes its reset values, and packets on the
mirror links are cut off: a transmitter that was sending is left in its abort trailer (log 19), and what it has sent stands. What a
Part Reset keeps; what a Full Reset sets in addition, with the initialising flag each kind leaves (log 16, log 17). Accesses placed and
not yet granted are withdrawn (R161, R163), those of the host at a Full Reset alone (log 17), and no message between blocks is left on
its way (log 18). Every receiver hunts again, DOWN with no run of good or bad sync words; at which boundary it begins and what it holds of
reception then is the model's choice (log 14). The end of initialisation: every byte of XM is 0 with good ECC, the flag is clear, and
the release interval begins where the pair reads released (log 15). That a reset does not enable or disable MSI is the model's choice
(log 7) (R1, R2, R17, R22, R130, R132, R145, R172, R178). -/
def Obligations.ResetsAndInitialisation : Prop :=
  let hunts := fun r : Receiver =>
    ({ link := .down, reception := .discarding, packet := [], badSync := 0, goodRun := 0, boundary := 0, signal := r.signal } : Receiver)
  (∀ (c : Instr) (s : State),
    c = .powerOn ∨ c = .fundamentalReset ∨ c = .hotReset ∨ c = .functionLevelReset ∨ (c = .partReset ∧ s.run.initialising = false) →
    ∃ t, exec c s = .next t
      ∧ t.run.state = .halted ∧ t.run.busy = false ∧ t.run.refusal = .none ∧ t.run.anchor = none
      ∧ t.xm = s.xm ∧ t.ecc = s.ecc ∧ t.corrected = 0 ∧ t.arb.tileRun = 0 ∧ t.arb.pointer = .du
      ∧ t.arb.du = [] ∧ t.arb.rpu = [] ∧ t.arb.sau = [] ∧ t.wires = {}
      ∧ t.page.attention = 0 ∧ t.page.msiSent = s.page.msiSent ∧ t.page.msiEnabled = s.page.msiEnabled
      ∧ (∀ l : Fin 8, t.ports[l].rx = hunts s.ports[l].rx ∧ t.ports[l].crcErrors = 0
          ∧ t.ports[l].codingErrors = 0 ∧ t.ports[l].oversize = 0 ∧ t.ports[l].foreign = 0 ∧ t.ports[l].changed = 0)
      ∧ t.sau.nextSlot = 0 ∧ t.sau.holding = [] ∧ t.sau.step = .idle ∧ t.sau.overruns = 0 ∧ t.sau.lastWrapped = 0
      ∧ t.fck = {} ∧ t.fau = {} ∧ t.rce = {} ∧ t.watch = [] ∧ t.pru = {} ∧ t.du = {} ∧ t.rpu = {}
      ∧ t.cou.output = .quiet ∧ t.cou.causes = {} ∧ t.cou.level = .asserted ∧ t.cou.safeSerial = 0 ∧ t.cou.settings = none
      ∧ t.cou.saturationRun = 0 ∧ t.cou.voidRun = 0 ∧ t.cou.lastEmitted = []
      ∧ ∀ l : Fin 4, t.cou.links[l].counts = {} ∧ t.cou.links[l].consecutive = 0 ∧ t.cou.links[l].window = .idle
          ∧ t.cou.links[l].waitingSafe = none ∧ t.cou.links[l].waitingCommand = none
          ∧ t.cou.links[l].rx = hunts s.cou.links[l].rx
          ∧ (t.cou.links[l].tx = .idle ↔ s.cou.links[l].tx = .idle)
          ∧ (t.cou.links[l].tx = .idle ∨ t.cou.links[l].tx = .trailer)
          ∧ (∀ p, s.cou.links[l].tx = .sending p → CutOff p s.cou.links[l] t.cou.links[l])
          ∧ ((∀ p, s.cou.links[l].tx ≠ .sending p) → t.cou.links[l].line = s.cou.links[l].line))
  ∧ (∀ (c : Instr) (s : State), c = .functionLevelReset ∨ (c = .partReset ∧ s.run.initialising = false) →
    ∃ t, exec c s = .next t
      ∧ t.run.initialising = s.run.initialising ∧ t.time = s.time ∧ t.page.mask = s.page.mask
      ∧ t.sau.asideFlags = s.sau.asideFlags ∧ t.arb.host = s.arb.host ∧ t.host = s.host
      ∧ t.cou.safeShape = s.cou.safeShape ∧ t.cou.shapeLoaded = s.cou.shapeLoaded ∧ t.cou.action = s.cou.action
      ∧ t.cou.autoResume = s.cou.autoResume
      ∧ ∀ i : Fin 16, t.sau.streams[i].enabled = s.sau.streams[i].enabled
          ∧ t.sau.streams[i].config = s.sau.streams[i].config
          ∧ t.sau.streams[i].state = (if s.sau.streams[i].enabled then .standby else .disabled)
          ∧ t.sau.streams[i].misinserts = 0 ∧ t.sau.streams[i].awaiting = false ∧ t.sau.streams[i].timer = none
          ∧ t.sau.streams[i].changed = 0 ∧ ∀ k, t.sau.streams[i].counter k = 0)
  ∧ (∀ (c : Instr) (s : State), c = .powerOn ∨ c = .fundamentalReset ∨ c = .hotReset →
    ∃ t, exec c s = .next t
      ∧ t.run.initialising = decide (c = .powerOn) ∧ t.time = 0 ∧ t.page.mask = 0 ∧ t.arb.host = []
      ∧ t.host = { s.host with partialRead := [] }
      ∧ t.sau = {} ∧ t.cou.safeShape = [] ∧ t.cou.shapeLoaded = false ∧ t.cou.action = .freeze ∧ t.cou.autoResume = false)
  ∧ (∀ s : State, s.run.initialising = true → ∃ t, exec .initialisationEnd s = .next t
    ∧ (∀ a, readByte t a = 0) ∧ t.ecc = [] ∧ t.run = { s.run with initialising := false }
    ∧ t.cou = { s.cou with
        release := if s.cou.input = .released ∧ s.cou.level = .asserted ∧ s.cou.release = none then some (s.time + 100)
          else s.cou.release }
    ∧ Touches [.xm, .ecc, .run, .cou] s t)

/-! ### The register page (R170, R171, R181) -/

/-- Attention: raising, clearing, reading, the mask, and resets (R170). -/
def Obligations.AttentionRegisters : Prop :=
  (∀ (c d : Cause) (s : State), attentionHas d (raise c s) = (decide (d = c) || attentionHas d s))
    ∧ (∀ (v : BitVec 32) (s : State), ∃ t, exec (.attentionWrite v) s = .next t ∧ Touches [.attention] s t
        ∧ ∀ c : Cause, attentionHas c t = (attentionHas c s && !v.getLsbD c.bit))
    ∧ (∀ (s : State) (c : Cause), (pageWord s 2).getLsbD c.bit = attentionHas c s)
    ∧ (∀ (v : BitVec 32) (s : State), ∃ t, exec (.attentionMaskWrite v) s = .next t ∧ Touches [.mask] s t
        ∧ t.page.msiEnabled = s.page.msiEnabled ∧ ∀ k, k < 14 → t.page.mask.getLsbD k = v.getLsbD k
        ∧ (pageWord t 3).getLsbD k = v.getLsbD k)
    ∧ (∀ (c : Instr) (s : State), c = .powerOn ∨ c = .fundamentalReset ∨ c = .hotReset → ∃ t, exec c s = .next t
        ∧ t.page.attention = 0 ∧ t.page.mask = 0)
    ∧ (∀ (c : Instr) (s : State), c = .functionLevelReset ∨ (c = .partReset ∧ s.run.initialising = false) →
        ∃ t, exec c s = .next t ∧ t.page.attention = 0 ∧ t.page.mask = s.page.mask)

/-- An event sends one message exactly when a flag goes from clear to set in it while its mask flag is set and MSI is enabled (R171). A
step is one event, but for START, which first takes the outcomes of an earlier run (COUNTER_WRAP), and for the steps that end DRAINING,
which first take the guard reports on their way (HELD): there the earlier event's flag sends a message of its own. That these steps
take an earlier event, and that nothing a command does enables or disables MSI, is the model's choice (log 9, log 7). -/
def Obligations.MessageOnClearToSet : Prop :=
  ∀ (c : Instr) (s t : State), c.wellFormed = true → exec c s = .next t →
    let flags : BitVec 14 :=
      match c with
      | .start => Cause.counterWrap.flag
      | .stop | .runControlIdleReport | .linksQuietReport => Cause.held.flag
      | _ => 0
    let first := s.page.attention ||| (t.page.attention &&& flags)
    let news := fun (before after : BitVec 14) =>
      ∃ k, k < 14 ∧ before.getLsbD k = false ∧ after.getLsbD k = true ∧ t.page.mask.getLsbD k = true
    let sent := fun (before after : BitVec 14) (n : Nat) =>
      (s.page.msiEnabled = true ∧ news before after → n = 1) ∧ (¬ (s.page.msiEnabled = true ∧ news before after) → n = 0)
    t.page.msiEnabled = s.page.msiEnabled
      ∧ ∃ m n, sent s.page.attention first m ∧ sent first t.page.attention n ∧ t.page.msiSent = s.page.msiSent + m + n

/-- The register page: reads of PART_ID, RUN, the undefined bits and every other offset; a read returns the bytes it covers, and one wider
than a word those of every register, the model's choice (log 45); discarded writes change nothing; an unknown command is refused, and
that it is WRONG_STATE while initialising is the model's choice (log 48) (R181, 11.4). -/
def Obligations.RegisterPageAccesses : Prop :=
  (∀ s : State, (pageWord s 0).extractLsb' 0 16 = 0x3240#16 ∧ (pageWord s 0).extractLsb' 24 8 = 0x5A#8)
    ∧ (∀ s : State, (pageWord s 1).toNat = s.run.state.code + 16 * s.run.initialising.toNat + 32 * s.run.busy.toNat
        + 256 * s.run.refusal.code)
    ∧ (∀ (s : State) (k : Nat), 14 ≤ k → (pageWord s 2).getLsbD k = false ∧ (pageWord s 3).getLsbD k = false)
    ∧ (∀ (s : State) (n : Nat), 4 ≤ n → pageWord s n = 0)
    ∧ (∀ (s : State) (offset n k : Nat), k < n →
        (pageRead s offset n)[k]? = some ((pageWord s ((offset + k) / 4)).extractLsb' (8 * ((offset + k) % 4)) 8))
    ∧ (∀ (s : State) (offset : Nat) (bytes : List Byte), isOtherWrite offset bytes = true →
        ∃ t, exec (.registerWriteOther offset bytes) s = .next t ∧ Touches [] s t)
    ∧ (∀ (s : State) (v : BitVec 32), v ≠ 1 → v ≠ 2 → v ≠ 3 → v ≠ 4 →
        ∃ t, exec (.unknownCommand v) s = .next t ∧ Touches [.run] s t
          ∧ t.run = { s.run with refusal := if s.run.initialising then .wrongState else .unknownCommand })

/-! ### Exchange Memory (R91, R172 to R174) -/

/-- The granule accesses of an access cover its bytes once, in ascending order, each within one granule. A host access within the window
joins the arbiter behind those before it; while initialising, a read is answered all-ones and a write is discarded; an access outside
the window stops by name (R172; the stop is the model's, log 35). -/
def Obligations.HostWindow : Prop :=
  (∀ (p : Purpose) (a : Nat) (bs : List Byte) (n : Nat),
    ((writeAccesses p a bs).map fun x => x.data.getD []).flatten = bs
      ∧ (writeAccesses p a bs).flatMap (fun x => List.range' (32 * x.granule + x.lo) x.len) = List.range' a bs.length
      ∧ (∀ x ∈ writeAccesses p a bs, 0 < x.len ∧ x.lo + x.len ≤ 32 ∧ x.purpose = p ∧ (x.data.getD []).length = x.len)
      ∧ (readAccesses p a n).flatMap (fun x => List.range' (32 * x.granule + x.lo) x.len) = List.range' a n
      ∧ ∀ x ∈ readAccesses p a n, 0 < x.len ∧ x.lo + x.len ≤ 32 ∧ x.purpose = p ∧ x.data = none)
  ∧ (∀ (s : State) (offset n : Nat) (bs : List Byte),
    (inWindow offset n = true → s.run.initialising = false →
        ∃ t as, exec (.hostXmRead offset n) s = .next t ∧ Touches [.hostQueue] s t ∧ t.arb.host = s.arb.host ++ as
          ∧ as.map (fun x => { x with purpose := .stale }) = readAccesses .stale offset n
          ∧ as.map Access.purpose = List.replicate (as.length - 1) (.hostRead false) ++ [.hostRead true])
      ∧ (inWindow offset n = true → s.run.initialising = true →
        ∃ t, exec (.hostXmRead offset n) s = .next t ∧ Touches [.host] s t
          ∧ t.host = { s.host with replies := s.host.replies ++ [List.replicate n 0xFF] })
      ∧ (inWindow offset bs.length = true → s.run.initialising = false →
        ∃ t, exec (.hostXmWrite offset bs) s = .next t ∧ Touches [.hostQueue] s t
          ∧ t.arb.host = s.arb.host ++ writeAccesses .hostWrite offset bs)
      ∧ (inWindow offset bs.length = true → s.run.initialising = true →
        ∃ t, exec (.hostXmWrite offset bs) s = .next t ∧ Touches [] s t)
      ∧ (inWindow offset n = false → exec (.hostXmRead offset n) s = .fault .outsideWindow)
      ∧ (inWindow offset bs.length = false → exec (.hostXmWrite offset bs) s = .fault .outsideWindow))

/-- The arbiter's choice, the tile grant run and the rotation pointer (R174); what a granted tile read takes from its granule, and how
the engine's order goes on: to the next granule or entry, or past the whole column block at an error, as soon as it is granted
(R100, R104, R173, log 36). A rotation grant takes the access alone, but for the waiting accesses of a load, vector or copy read that
fails (log 25). That a grant with nothing waiting does nothing is the model's choice (log 2). -/
def Obligations.ArbiterGrants : Prop :=
  ∀ (met : CellError) (s : State), s.wires.taints = [] →
    (∀ (key granule : Nat) (d : Descriptor), nextTileRead s = some (key, granule) → descriptorInUse key s = some d →
      ¬ anyWaits s ∨ s.arb.tileRun < 32 →
      let g := d.address / 32 + granule
      let bad := met = .uncorrectable ∨ Store.find? s.ecc g = some .uncorrectable
      let data := if bad then none else some (readBytes s (32 * g) 32)
      ∃ t f, exec (.granuleGrant met) s = .next t
        ∧ t.wires = { s.wires with
            tileReturns := s.wires.tileReturns ++ [{ key := key, granule := granule, data := data }] }
        ∧ t.xm = s.xm ∧ (∀ x, x ≠ g → Store.find? t.ecc x = Store.find? s.ecc x)
        ∧ t.corrected = (if ¬ bad ∧ (met = .correctable ∨ Store.find? s.ecc g = some .corrected)
            then s.corrected + 1 else s.corrected)
        ∧ s.rce.frame = some f ∧ f.plan.head? = some key ∧ f.cursor = granule
        ∧ (bad → t.rce = { s.rce with
            frame := some { f with plan := f.plan.filter fun k => k / 64 != key / 64, cursor := 0 } })
        ∧ (¬ bad → granule + 1 < 1024 → t.rce = { s.rce with frame := some { f with cursor := granule + 1 } })
        ∧ (¬ bad → 1024 ≤ granule + 1 → t.rce = { s.rce with frame := some { f with cursor := 0, plan := f.plan.tail } })
        ∧ (anyWaits s → t.arb.tileRun = s.arb.tileRun + 1) ∧ (¬ anyWaits s → t.arb.tileRun = 0)
        ∧ t.arb.pointer = s.arb.pointer ∧ t.arb.du = s.arb.du ∧ t.arb.sau = s.arb.sau ∧ t.arb.host = s.arb.host
        ∧ s.arb.rpu <+: t.arb.rpu)
    ∧ (∀ (c : Claimant) (a : Access) (rest : List Access), GrantsTo s c a rest →
      ∃ t, exec (.granuleGrant met) s = .next t ∧ t.wires.tileReturns = s.wires.tileReturns
        ∧ t.arb.tileRun = 0 ∧ t.arb.pointer = c.next
        ∧ (c = .sau → t.arb.sau = rest) ∧ (c ≠ .sau → t.arb.sau = s.arb.sau)
        ∧ (c = .host → t.arb.host = rest) ∧ (c ≠ .host → t.arb.host = s.arb.host)
        ∧ (c = .rpu → rest <+: t.arb.rpu) ∧ (c ≠ .rpu → s.arb.rpu <+: t.arb.rpu)
        ∧ (let waits := if c = .du then rest else s.arb.du
          let fails := a.data = none ∧ (met = .uncorrectable ∨ Store.find? s.ecc a.granule = some .uncorrectable)
            ∧ (a.purpose = .load ∨ a.purpose = .vector ∨ a.purpose = .copy)
          (¬ fails → t.arb.du = waits)
            ∧ (fails → t.arb.du = waits.filter fun x => decide (x.purpose ≠ a.purpose))))
    ∧ (nextTileRead s = none → ¬ anyWaits s → ∃ t, exec (.granuleGrant met) s = .next t ∧ Touches [.wires] s t
        ∧ t.wires = s.wires)

/-- A granted write, of whatever claimant: the bytes it covers take the data and every other byte keeps its value; a whole granule
clears an error; a write of part of a granule that meets an uncorrectable error is discarded and raises MEMORY_ERROR (R173). An outcome
write, stored or discarded, is reported to the Directive Unit with the tickets it settles (R154); the write of an aside slot's occupied
word to the Stream Admission Unit (R34); the write that seals a snapshot entry has the next snapshot entry advance and the set's record
follow (R167); any other write of theirs is reported to no one. -/
def Obligations.GrantedWriteStores : Prop :=
  ∀ (met : CellError) (s : State) (c : Claimant) (a : Access) (rest : List Access) (bs : List Byte),
    GrantsTo s c a rest → a.data = some bs → bs.length = a.len → a.lo + a.len ≤ 32 →
    let lost := a.len < 32 ∧ (met = .uncorrectable ∨ Store.find? s.ecc a.granule = some .uncorrectable)
    ∃ t, exec (.granuleGrant met) s = .next t
      ∧ (¬ lost → Store.find? t.ecc a.granule = none
          ∧ ∀ x, readByte t x
              = if 32 * a.granule + a.lo ≤ x ∧ x < 32 * a.granule + a.lo + a.len then bs.getD (x - (32 * a.granule + a.lo)) 0
                else readByte s x)
      ∧ (lost → t.xm = s.xm ∧ Store.find? t.ecc a.granule = some .uncorrectable ∧ attentionHas .memoryError t = true)
      ∧ (∀ g, g ≠ a.granule → Store.find? t.ecc g = Store.find? s.ecc g)
      ∧ t.corrected = (if a.len < 32 ∧ ¬ lost ∧ (met = .correctable ∨ Store.find? s.ecc a.granule = some .corrected)
          then s.corrected + 1 else s.corrected)
      ∧ (∀ ts, a.purpose = .outcome ts →
          t.wires = { s.wires with outcomesWritten := s.wires.outcomesWritten ++ (if ts = [] then [] else [ts]) })
      ∧ (a.purpose = .asideSeal → t.wires = { s.wires with asideSealed := true })
      ∧ (a.purpose = .asideBody ∨ a.purpose = .report ∨ a.purpose = .snapshotSeal → t.wires = s.wires)
      ∧ ∀ k set more, a.purpose = .snapshotSeal → s.run.anchor = some k → s.rpu.writer = .snapshot →
          s.rpu.holding = set :: more → SnapshotSealed k set (if c = .rpu then rest else s.arb.rpu) s t

/-- A granted host read returns the bytes as they stand, or all-ones with MEMORY_ERROR on an uncorrectable error; a granted read of
the Directive Unit joins its read in progress; a read of the Probe Unit's copy joins the copy's, and its error withdraws the rest
(R124); a read of an aside slot's occupied word says clear, set or failed (R34); a corrected error is counted; no read changes memory
(R172, R173). That the granules of a load, vector or copy read still to be granted are withdrawn at the grant that meets the error is the
model's reading (log 25). A slot read that STOP left in flight reaches no one, and that its error raises nothing is the model's choice
(log 50). -/
def Obligations.GrantedReadReturns : Prop :=
  ∀ (met : CellError) (s : State) (c : Claimant) (a : Access) (rest : List Access), GrantsTo s c a rest → a.data = none →
    let bad := met = .uncorrectable ∨ Store.find? s.ecc a.granule = some .uncorrectable
    let bytes := readBytes s (32 * a.granule + a.lo) a.len
    ∃ t, exec (.granuleGrant met) s = .next t ∧ t.xm = s.xm
      ∧ t.corrected = (if ¬ bad ∧ (met = .correctable ∨ Store.find? s.ecc a.granule = some .corrected)
          then s.corrected + 1 else s.corrected)
      ∧ (∀ last, a.purpose = .hostRead last →
          let got := s.host.partialRead ++ (if bad then List.replicate a.len 0xFF else bytes)
          (bad → attentionHas .memoryError t = true) ∧ (¬ bad → t.page.attention = s.page.attention)
            ∧ t.host = if last then { partialRead := [], replies := s.host.replies ++ [got] }
                else { s.host with partialRead := got })
      ∧ (∀ j, s.du.job = some j → j.purpose = a.purpose → a.purpose = .slot ∨ a.purpose = .anchor ∨ a.purpose = .load
            ∨ a.purpose = .vector →
          (¬ bad → t.du = { s.du with job := some { j with left := j.left - 1, bytes := j.bytes ++ bytes } })
            ∧ (bad →
              let left := if a.purpose = .load ∨ a.purpose = .vector then 0 else j.left - 1
              t.du = { s.du with job := some { j with left := left, failed := some (j.failed.getD (32 * a.granule)) } }))
      ∧ (a.purpose = .asideWord → t.wires = { s.wires with
          asideWord := some (if bad then .failed else if ∀ b ∈ bytes, b = 0 then .clear else .set) })
      ∧ (a.purpose = .copy → ∀ j, s.pru.job = some j →
          (¬ bad → t.pru = { s.pru with job := some { j with left := j.left - 1, bytes := j.bytes ++ bytes } })
            ∧ (bad → t.pru = { s.pru with job := some { j with left := 0, failed := some (j.failed.getD (32 * a.granule)) } }
                ∧ ∀ x ∈ t.arb.du, x.purpose ≠ .copy))
      ∧ (a.purpose = .stale → t.page.attention = s.page.attention ∧ t.du = s.du ∧ t.pru = s.pru ∧ t.host = s.host
          ∧ t.wires = s.wires)

/-- A granted host write into a granule that a tile of the CURRENT or RETAINED slot lies in raises LIVE_WRITE, marks every
descriptor of either slot there as tainted, and reports each of them and no other; all else of the slots and the engine stays. One into
any other granule does none of this (R91, R105). -/
def Obligations.HostWriteTaints : Prop :=
  ∀ (met : CellError) (s : State) (a : Access) (rest : List Access) (bs : List Byte),
    GrantsTo s .host a rest → a.data = some bs → a.purpose = .hostWrite →
    let tile := watchGranule (32 * a.granule)
    let inTile := fun d : Descriptor => decide (watchGranule d.address = tile)
    let taint := fun e : Edition =>
      { e with directory := e.directory.map fun x => (x.1, { x.2 with taint := x.2.taint || inTile x.2 }) }
    let watched := fun slot : Slot => match slot with
      | .current e => .current (taint e)
      | .retained e => .retained (taint e)
      | x => x
    let reports := fun (i : SlotId) (slot : Slot) => match slot with
      | .current e | .retained e => (e.directory.filter fun x => inTile x.2).map fun x => ({ slot := i, key := x.1 } : TaintReport)
      | _ => []
    ∃ t, exec (.granuleGrant met) s = .next t
      ∧ (Store.find? s.watch tile = none → t.rce = s.rce ∧ t.wires = s.wires ∧ attentionHas .liveWrite t = attentionHas .liveWrite s)
      ∧ (∀ w, Store.find? s.watch tile = some w →
          attentionHas .liveWrite t = true
            ∧ t.rce = { s.rce with slotA := watched s.rce.slotA, slotB := watched s.rce.slotB }
            ∧ t.wires = { s.wires with taints := s.wires.taints ++ reports .a s.rce.slotA ++ reports .b s.rce.slotB })

/-! ### Run control (R175 to R177) -/

/-- Run commands in states that do not take them, or while initialising, are refused with WRONG_STATE, and START in READY without a
CURRENT slot, a pace configuration or an enabled pace stream with NOT_CONFIGURED; a refusal changes nothing else (11.4, R176). -/
def Obligations.RunCommandsRefused : Prop :=
  (∀ (c : Instr) (s : State),
    (c = .loadAnchor ∧ (s.run.state ≠ .halted ∨ s.run.busy = true ∨ s.run.initialising = true))
      ∨ (c = .start ∧ (s.run.state ≠ .ready ∨ s.run.initialising = true))
      ∨ (c = .stop ∧ (s.run.state ≠ .running ∨ s.run.initialising = true))
      ∨ (c = .partReset ∧ s.run.initialising = true) →
    ∃ t, exec c s = .next t ∧ Touches [.run] s t ∧ t.run = { s.run with refusal := .wrongState })
  ∧ ∀ s : State, s.run.state = .ready → s.run.initialising = false →
    currentSlot s = none ∨ s.fck.configured = false ∨ s.sau.streams[s.fck.stream].enabled = false →
    ∃ t, exec .start s = .next t ∧ Touches [.run] s t ∧ t.run = { s.run with refusal := .notConfigured }

/-- LOAD_ANCHOR in HALTED reads the first 256 bytes of XM as reads of the Directive Unit, with the busy flag set. An invalid record leaves
the part HALTED with ANCHOR_INVALID; a valid one makes it READY and gives the Directive Unit, the SAU and the Report Unit their
settings (R35, R149, R164, R169, R175). That the last run refusal is NONE from the acceptance on, and again when the record is taken, is
the model's reading (log 24). -/
def Obligations.AnchorLoading : Prop :=
  (∀ s : State, s.run.state = .halted → s.run.busy = false → s.run.initialising = false →
    ∃ t, exec .loadAnchor s = .next t ∧ Touches [.run, .du, .duQueue] s t
      ∧ t.run = { s.run with busy := true, refusal := .none }
      ∧ t.du = { s.du with job := some { purpose := .anchor, left := 8, bytes := [], failed := none } }
      ∧ t.arb.du = s.arb.du ++ (List.range 8).map fun k =>
          { granule := k, lo := 0, len := 32, data := none, purpose := .anchor })
  ∧ (∀ (s : State) (j : ReadJob), s.run.state = .halted → s.run.busy = true → s.du.job = some j → j.purpose = .anchor → j.left = 0 →
    (j.failed = none → validAnchor j.bytes = true → ∃ t, exec .anchorReadDone s = .next t
      ∧ Touches [.run, .du, .sau, .attention] s t
      ∧ t.run = { s.run with state := .ready, busy := false, refusal := .none, anchor := some (parseAnchor j.bytes) }
      ∧ attentionHas .runChange t = true
      ∧ t.du.expected = some (parseAnchor j.bytes).firstTicket
      ∧ t.du.takenThrough = some ((parseAnchor j.bytes).firstTicket - 1)
      ∧ t.du.settledThrough = some ((parseAnchor j.bytes).firstTicket - 1)
      ∧ t.du.scanTimer = some (s.time + BitVec.ofNat 64 (parseAnchor j.bytes).interval)
      ∧ t.du.activity = .resting ∧ t.du.torn = 0 ∧ t.du.tornMemory = 0 ∧ t.du.hand = none ∧ t.du.deferred = []
      ∧ t.sau = { s.sau with nextSlot := 0, holding := [] }
      ∧ t.rpu.nextSnapshot = 0 ∧ t.rpu.statusOwed = true ∧ (t.rpu.streamOwed = true ∨ t.rpu.writer = .streamReport))
    ∧ (j.failed.isSome = true ∨ validAnchor j.bytes = false → ∃ t, exec .anchorReadDone s = .next t
      ∧ Touches [.run, .du, .attention] s t
      ∧ t.run = { s.run with busy := false, refusal := .anchorInvalid } ∧ t.du = { s.du with job := none }
      ∧ attentionHas .memoryError t = (attentionHas .memoryError s || j.failed.isSome)
      ∧ ∀ c, c ≠ .memoryError → attentionHas c t = attentionHas c s))

/-- Fields are little-endian, and the fields of the Anchor Record lie at their offsets (12.1, 12.5). When a record is valid: the reserved
fields, the counts and the scan interval, and the areas (R175, 11.3). -/
def Obligations.AnchorValidity : Prop :=
  (∀ (bs : List Byte) (o : Nat),
    let byte := fun k => (bs.getD k 0).toNat
    field bs o 1 = byte o ∧ field bs o 2 = byte o + 256 * byte (o + 1)
      ∧ field bs o 4 = byte o + 256 * byte (o + 1) + 65536 * byte (o + 2) + 16777216 * byte (o + 3))
  ∧ (∀ bs : List Byte, parseAnchor bs =
      { stripOffset := field bs 0 4, slots := field bs 4 2, firstTicket := BitVec.ofNat 32 (field bs 8 4)
        interval := field bs 12 2, telemetryOffset := field bs 16 4, telemetryCount := field bs 20 4
        snapshotOffset := field bs 24 4, snapshotCount := field bs 28 2, streamReport := field bs 32 4
        statusBlock := field bs 36 4, asideOffset := field bs 40 4, asideCount := field bs 44 2 })
  ∧ ∀ bs : List Byte, bs.length = 256 →
    let a := parseAnchor bs
    let areas := (0, 4096) :: [(a.stripOffset, a.slots * 128), (a.telemetryOffset, a.telemetryCount * 512),
      (a.snapshotOffset, a.snapshotCount * 65536), (a.streamReport, 4096), (a.statusBlock, 1024),
      (a.asideOffset, a.asideCount * 2048)]
    (validAnchor bs = true ↔
      (∀ k, k < 256 → (6 ≤ k ∧ k < 8) ∨ (14 ≤ k ∧ k < 16) ∨ (30 ≤ k ∧ k < 32) ∨ 46 ≤ k → bs.getD k 0 = 0)
        ∧ ((∃ n, a.slots = 2 ^ n) ∧ 16 ≤ a.slots ∧ a.slots ≤ 1024) ∧ (10 ≤ a.interval ∧ a.interval ≤ 10000)
        ∧ ((∃ n, a.telemetryCount = 2 ^ n) ∧ 16 ≤ a.telemetryCount ∧ a.telemetryCount ≤ 65536)
        ∧ (2 ≤ a.snapshotCount ∧ a.snapshotCount ≤ 256) ∧ (8 ≤ a.asideCount ∧ a.asideCount ≤ 256)
        ∧ (∀ x ∈ areas, x.1 % 4096 = 0 ∧ x.1 + x.2 ≤ 2147483648)
        ∧ areas.Pairwise fun x y => x.1 + x.2 ≤ y.1 ∨ y.1 + y.2 ≤ x.1)

/-- START in READY with its three conditions: every block takes its start values (R22, R37, R73, R116, R121, R130, R131, R176). -/
def Obligations.StartTakesStartValues : Prop :=
  ∀ (s : State) (i : SlotId) (e : Edition), s.run.state = .ready → s.run.initialising = false → currentSlot s = some (i, e) →
    s.fck.configured = true → s.sau.streams[s.fck.stream].enabled = true →
    let start := fun a => if s.cou.shapeLoaded then Store.read 0 s.cou.safeShape a else 0
    ∃ t, exec .start s = .next t
      ∧ t.run = { s.run with state := .running, refusal := .none } ∧ attentionHas .runChange t = true
      ∧ (∀ k : Fin 16, s.sau.streams[k].state = .standby → t.sau.streams[k].state = .seeking
          ∧ t.sau.streams[k].timer = some (s.time + BitVec.ofNat 64 (1000 * s.sau.streams[k].config.cutTimeout))
          ∧ t.sau.streams[k].misinserts = 0 ∧ t.sau.streams[k].changed = s.time
          ∧ t.sau.streams[k].stay = s.sau.streams[k].stay + 1)
      ∧ t.fck = { s.fck with pace := .paced, lastStarted := none, flywheel := none, reframing := false }
      ∧ t.fau = { s.fau with lastDispatched := none, base := none, lastGood := [] }
      ∧ (∀ a, Store.read 0 t.rce.integrator a = start a)
      ∧ t.rce = { s.rce with integrator := t.rce.integrator }
      ∧ t.pru = { s.pru with position := cycleStart s.pru.cycle, injection := none, supply := none }
      ∧ t.cou.settings = some e.links ∧ (∀ a, Store.read 0 t.cou.lastEmitted a = start a)
      ∧ t.cou.saturationRun = 0 ∧ t.cou.voidRun = 0
      ∧ (s.cou.level = .released → t.cou.output = .live ∧ t.cou.causes = {} ∧ t.cou.safeSerial = s.cou.safeSerial
          ∧ ∀ l : Fin 4, t.cou.links[l] = s.cou.links[l].clear l)
      ∧ (s.cou.level = .asserted → t.cou.output = .held ∧ t.cou.causes = { interlock := true }
          ∧ attentionHas .held t = true
          ∧ (s.cou.action = .freeze → t.cou.safeSerial = s.cou.safeSerial
              ∧ ∀ l : Fin 4, t.cou.links[l] = s.cou.links[l].clear l)
          ∧ (s.cou.action = .safe → t.cou.safeSerial = s.cou.safeSerial + 1
              ∧ ∀ l : Fin 4, t.cou.links[l]
                = if e.links.map[l].count = 0 then s.cou.links[l].clear l
                  else { s.cou.links[l].clear l with
                    tx := .sending ({
                      kind := .safe, number := s.cou.safeSerial + 1, first := e.links.map[l].first
                      values := (List.range e.links.map[l].count).map fun n =>
                        Store.read 0 s.cou.safeShape (e.links.map[l].first + n) } : Packet) }))
      ∧ t.du = s.du

/-- STOP in RUNNING: every block acts as its rule states, and the part is DRAINING, or READY at once when the engine is IDLE and the links
are quiet. A SET_PROBE_CYCLE whose copy has succeeded ends DONE with the new cycle in force; everything else that is open ends
ABANDONED in ticket order, and a failure still on its way is dropped; the last of the ABANDONED writes settles all their tickets
(log 21). That the detail of ABANDONED is 0 is the model's choice for the kinds whose rules state none (log 44), and that a link is
quiet in its abort trailer is its choice too (log 52). DRAINING ends at the report that completes the two conditions, and at no other (R22, R37, R72, R89, R125, R131,
R149, R160, R177). -/
def Obligations.StopAndDraining : Prop :=
  let quieted := fun s : State =>
    { s.cou with output := .quiet, causes := {}, saturationRun := 0, voidRun := 0, links := .ofFn fun l => s.cou.links[l].clear l }
  (∀ (s : State) (a : Anchor), s.run.state = .running → s.run.initialising = false → s.run.anchor = some a →
    let ends := engineIdleAtRun s && linksQuietAtRun s
    let listed := s.du.deferred.map Deferred.ticket
    let succeeded := fun k : Ticket => s.wires.ownerEnds.any fun e => e.ticket == k && e.code == 2
    let abandoned := listed.filter (fun k => !succeeded k) ++ (s.du.hand.map Hand.ticket).toList
    let freed := recordsIn RecordState.waits s
    let running := (s.arb.du.filter fun x => !(x.purpose == .load || x.purpose == .vector || x.purpose == .copy)).map
      fun x => if x.purpose = .slot then { x with purpose := .stale } else x
    let writes := fun (k : Ticket) (settles : List Ticket) (code : Nat) (detail : BitVec 32) =>
      writeAccesses (.outcome settles) (slotOffset a k + 8) (outcomeBytes code detail)
    ∃ t, exec .stop s = .next t
      ∧ t.run = { s.run with state := if ends then .ready else .draining, refusal := .none }
      ∧ attentionHas .runChange t = true
      ∧ (∀ k : Fin 16, s.sau.streams[k].enabled = true → t.sau.streams[k].state = .standby ∧ t.sau.streams[k].timer = none
          ∧ t.sau.streams[k].misinserts = 0 ∧ t.sau.streams[k].config = s.sau.streams[k].config
          ∧ t.sau.streams[k].counters = s.sau.streams[k].counters
          ∧ (s.sau.streams[k].state ≠ .standby → t.sau.streams[k].changed = s.time
            ∧ t.sau.streams[k].stay = s.sau.streams[k].stay + 1))
      ∧ (∀ k : Fin 16, s.sau.streams[k].enabled = false → t.sau.streams[k] = s.sau.streams[k])
      ∧ t.sau = { s.sau with streams := t.sau.streams }
      ∧ t.fck = { s.fck with flywheel := none }
      ∧ (∀ r : Fin 4, t.fau.records[r] = if s.fau.records[r].state.waits then {} else s.fau.records[r])
      ∧ t.fau = { s.fau with records := t.fau.records, abandoned := s.fau.abandoned + BitVec.ofNat 32 freed.length }
      ∧ t.wires = { s.wires with
          ownerEnds := [], recordsFreed := s.wires.recordsFreed ++ freed
          guardReports := if ends then [] else s.wires.guardReports }
      ∧ t.du = { s.du with
          hand := none, deferred := [], activity := .resting, job := none
          scanTimer := if ends then some (s.time + BitVec.ofNat 64 a.interval) else none }
      ∧ (∃ es : List OwnerEnd, es.Sublist s.wires.ownerEnds ∧ (∀ e ∈ es, e.code = 2 ∧ e.ticket ∈ listed)
          ∧ (es.map OwnerEnd.ticket).Nodup ∧ (∀ k ∈ listed, succeeded k = true → k ∈ es.map OwnerEnd.ticket)
          ∧ t.arb.du = running ++ es.flatMap (fun e => writes e.ticket [e.ticket] 2 e.detail)
              ++ abandoned.dropLast.flatMap (fun k => writes k [] 13 0)
              ++ abandoned.getLast?.toList.flatMap (fun k => writes k abandoned 13 0))
      ∧ t.pru = { s.pru with staging := none, waiting := [], job := none }
      ∧ t.rce = { s.rce with slotA := s.rce.slotA.unload, slotB := s.rce.slotB.unload, load := none }
      ∧ (ends = false → t.cou = s.cou) ∧ (ends = true → t.cou = quieted s))
  ∧ (∀ (c : Instr) (s : State), s.run.state = .draining →
    (c = .runControlIdleReport ∧ s.wires.idleToRun = true) ∨ (c = .linksQuietReport ∧ s.wires.linksQuiet = true) →
    let both := s.rce.state = .idle ∧ s.wires.handover = none ∧ linksQuiet s = true
      ∧ (c = .runControlIdleReport → s.wires.linksQuiet = false) ∧ (c = .linksQuietReport → s.wires.idleToRun = false)
    let wires := if c = .runControlIdleReport then { s.wires with idleToRun := false } else { s.wires with linksQuiet := false }
    ∃ t, exec c s = .next t
      ∧ (¬ both → Touches [.wires] s t ∧ t.wires = wires)
      ∧ (both → t.wires = { wires with guardReports := [] } ∧ t.cou = quieted s
          ∧ t.run = { s.run with state := .ready } ∧ attentionHas .runChange t = true
          ∧ (∀ l : Fin 4, t.cou.links[l].tx = .idle ∧ t.cou.links[l].waitingSafe = none
              ∧ t.cou.links[l].waitingCommand = none ∧ t.cou.links[l].window = .idle ∧ t.cou.links[l].consecutive = 0)
          ∧ t.du = { s.du with scanTimer := match s.run.anchor with
              | some a => some (s.time + BitVec.ofNat 64 a.interval)
              | none => s.du.scanTimer }))

/-! ### Sensor links (R1 to R16, R179, R180) -/

/-- A block at a port: held while initialising; hunting while DOWN; a bad sync word while UP. The signal detector of a sensor link and of a
mirror link (R1 to R3, R5, R145). -/
def Obligations.SensorPortAlignment : Prop :=
  (∀ (l : Fin 8) (sync : BitVec 2) (payload : BitVec 64) (s : State),
    let p := s.ports[l]
    let good := sync = 1 ∨ sync = 2
    (s.run.initialising = true → exec (.sensorBlock l sync payload) s = .next s)
      ∧ (s.run.initialising = false → p.rx.link = .down → ∃ t, exec (.sensorBlock l sync payload) s = .next t
        ∧ Touches [.ports] s t
        ∧ (p.rx.signal = false → PortIs l { p with rx := { p.rx with goodRun := 0 } } s t)
        ∧ (p.rx.signal = true → good → p.rx.goodRun < 63 →
            PortIs l { p with rx := { p.rx with goodRun := p.rx.goodRun + 1 } } s t)
        ∧ (p.rx.signal = true → good → 63 ≤ p.rx.goodRun → PortIs l
            { p with
              rx := { p.rx with link := .up, badSync := 0, goodRun := 0, reception := .discarding, packet := [] }
              changed := s.time } s t)
        ∧ (p.rx.signal = true → ¬ good →
            PortIs l { p with rx := { p.rx with goodRun := 0, boundary := p.rx.boundary + 1 } } s t))
      ∧ (s.run.initialising = false → p.rx.link = .up → ¬ good → ∃ t, exec (.sensorBlock l sync payload) s = .next t
        ∧ Touches [.ports, .attention] s t
        ∧ (p.rx.badSync < 15 → t.page.attention = s.page.attention ∧ PortIs l
            { p with
              rx := { p.rx with
                badSync := p.rx.badSync + 1
                reception := if p.rx.reception = .inPacket then .discarding else p.rx.reception
                packet := if p.rx.reception = .inPacket then [] else p.rx.packet }
              codingErrors := latch p.codingErrors } s t)
        ∧ (15 ≤ p.rx.badSync → attentionHas .linkDown t = true ∧ (∀ c, c ≠ .linkDown → attentionHas c t = attentionHas c s)
            ∧ PortIs l
              { p with
                rx := { p.rx with
                  link := .down, badSync := p.rx.badSync + 1, goodRun := 0, reception := .discarding, packet := [] }
                codingErrors := latch p.codingErrors
                changed := s.time } s t)))
  ∧ ((∀ (l : Fin 8) (s : State),
    let p := s.ports[l]
    (∃ t, exec (.signalPresent l) s = .next t ∧ Touches [.ports] s t ∧ PortIs l { p with rx := { p.rx with signal := true } } s t)
      ∧ ∃ t, exec (.signalLoss l) s = .next t ∧ Touches [.ports, .attention] s t
        ∧ (p.rx.link = .down → t.page.attention = s.page.attention
            ∧ PortIs l { p with rx := { p.rx with signal := false, goodRun := 0 } } s t)
        ∧ (p.rx.link = .up → attentionHas .linkDown t = true ∧ (∀ c, c ≠ .linkDown → attentionHas c t = attentionHas c s)
            ∧ PortIs l
              { p with
                rx := { p.rx with signal := false, link := .down, goodRun := 0, reception := .discarding, packet := [] }
                changed := s.time } s t))
  ∧ ∀ (l : Fin 4) (s : State),
    let x := s.cou.links[l]
    (∃ t, exec (.mirrorSignalPresent l) s = .next t ∧ Touches [.cou] s t
        ∧ t.cou = { s.cou with links := tweak s.cou.links l fun x => { x with rx := { x.rx with signal := true } } })
      ∧ ∃ t, exec (.mirrorSignalLoss l) s = .next t ∧ Touches [.cou] s t
        ∧ (∀ m : Fin 4, m ≠ l → t.cou.links[m] = s.cou.links[m])
        ∧ (x.rx.link = .down → t.cou.links[l] = { x with rx := { x.rx with signal := false, goodRun := 0 } })
        ∧ (x.rx.link = .up → t.cou.links[l] =
            { x with
              rx := { x.rx with signal := false, link := .down, goodRun := 0, reception := .discarding, packet := [] }
              counts := { x.counts with
                bad := if x.rx.reception = .inPacket then x.counts.bad + 1 else x.counts.bad } }))

/-- Packet reception at an UP port, block by block: the table of R4, unknown types (R5) and oversize packets (R6). A packet that
becomes oversize with its TERMINATE leaves the port in BETWEEN (the model's choice, log 13). -/
def Obligations.SensorPortReception : Prop :=
  ∀ (l : Fin 8) (sync : BitVec 2) (payload : BitVec 64) (s : State),
    let p := s.ports[l]
    let type := (payload.extractLsb' 0 8).toNat
    let bytes := (List.range 8).map fun k => payload.extractLsb' (8 * k) 8
    let oversized : Port → Port := fun q => { q with oversize := latch p.oversize }
    s.run.initialising = false → p.rx.link = .up → sync = 1 ∨ sync = 2 →
    ∃ t, exec (.sensorBlock l sync payload) s = .next t ∧ Touches [.ports, .wires] s t
      ∧ (¬ (sync = 2 ∧ 48 ≤ type ∧ type ≤ 55 ∧ p.rx.reception = .inPacket) → t.wires = s.wires)
      ∧ (sync = 2 → type = 32 → PortIs l (p.after .inPacket (bytes.drop 1) (p.rx.reception = .inPacket)) s t)
      ∧ (sync = 1 → p.rx.reception = .between → PortIs l (p.after .discarding [] true) s t)
      ∧ (sync = 1 → p.rx.reception = .inPacket → p.rx.packet.length + 8 ≤ 2032 →
          PortIs l (p.after .inPacket (p.rx.packet ++ bytes) false) s t)
      ∧ (sync = 1 → p.rx.reception = .inPacket → 2032 < p.rx.packet.length + 8 →
          PortIs l (oversized (p.after .discarding [] false)) s t)
      ∧ (sync = 1 → p.rx.reception = .discarding → PortIs l (p.after .discarding p.rx.packet false) s t)
      ∧ (sync = 2 → type = 16 → PortIs l (p.after .between [] (p.rx.reception = .inPacket)) s t)
      ∧ (sync = 2 → 48 ≤ type → type ≤ 55 → p.rx.reception = .between →
          PortIs l (p.after .between p.rx.packet true) s t)
      ∧ (sync = 2 → 48 ≤ type → type ≤ 55 → p.rx.reception = .discarding → PortIs l (p.after .between [] false) s t)
      ∧ (sync = 2 → 48 ≤ type → type ≤ 55 → p.rx.reception = .inPacket → 2032 < p.rx.packet.length + (type - 48) →
          PortIs l (oversized (p.after .between [] false)) s t ∧ t.wires = s.wires)
      ∧ (sync = 2 → type ≠ 16 → type ≠ 32 → ¬ (48 ≤ type ∧ type ≤ 55) → p.rx.reception = .inPacket →
          PortIs l (p.after .discarding [] true) s t)
      ∧ (sync = 2 → type ≠ 16 → type ≠ 32 → ¬ (48 ≤ type ∧ type ≤ 55) → p.rx.reception ≠ .inPacket →
          PortIs l (p.after p.rx.reception p.rx.packet true) s t)

/-- The checks when a packet completes: a bad check code is a CRC error, filler is dropped, and every other packet is handed on with its
link, its arrival time, its bytes and its classification by kind and shape, a segment field by field; of its flags bit 0 alone counts
(R7 to R14, 12.2). -/
def Obligations.PacketEndChecks : Prop :=
  (∀ (l : Fin 8) (payload : BitVec 64) (s : State),
    let p := s.ports[l]
    let type := (payload.extractLsb' 0 8).toNat
    let all := p.rx.packet ++ (((List.range 8).map fun k => payload.extractLsb' (8 * k) 8).drop 1).take (type - 48)
    let bad := leNat (all.drop (all.length - 4)) ≠ (crc32 (all.take (all.length - 4))).toNat
    let tag := leNat (all.take 2) % 4096
    s.run.initialising = false → p.rx.link = .up → 48 ≤ type → type ≤ 55 → p.rx.reception = .inPacket → 7 ≤ all.length →
    all.length ≤ 2032 →
    ∃ t, exec (.sensorBlock l 2 payload) s = .next t ∧ Touches [.ports, .wires] s t
      ∧ (bad → PortIs l { p.after .between [] false with crcErrors := latch p.crcErrors } s t ∧ t.wires = s.wires)
      ∧ (¬ bad → PortIs l (p.after .between [] false) s t)
      ∧ (¬ bad → tag = 0 → t.wires = s.wires)
      ∧ (¬ bad → tag ≠ 0 → t.wires =
          { s.wires with
            arrivals := s.wires.arrivals ++ [{ link := l, time := s.time, bytes := all, kind := classify all }] })
      ∧ ∀ c : BitVec 16, (latch c).toNat = min 65535 (c.toNat + 1))
  ∧ (∀ bs : List Byte,
    let kind := leNat (bs.take 2) / 4096
    let n := leNat ((bs.drop 8).take 2)
    let shape := 16 ≤ bs.length ∧ 1 ≤ n ∧ n ≤ 512 ∧ bs.length = 16 + 2 * n
    (kind ≠ 1 → classify bs = .nonSegment)
      ∧ (kind = 1 → ¬ shape → classify bs = .shapeFault (leNat (bs.take 2) % 4096))
      ∧ (kind = 1 → shape → ∃ g, classify bs = .segment g ∧ g.tag = leNat (bs.take 2) % 4096
          ∧ g.frame.toNat = leNat ((bs.drop 2).take 2) ∧ g.index = leNat ((bs.drop 4).take 1)
          ∧ g.count = leNat ((bs.drop 5).take 1) ∧ g.first = leNat ((bs.drop 6).take 2)
          ∧ g.invalid = (leNat ((bs.drop 10).take 2)).testBit 0 ∧ g.slopes.length = n
          ∧ ∀ k, k < n → g.slopes[k]? = some (signed 16 (leNat ((bs.drop (12 + 2 * k)).take 2)))))

/-- A packet sent as a mirror transmitter sends it is received whole, and one cut off by an abort trailer is a coding error and is
discarded (R4, R180). -/
def Obligations.SentPacketsAreReceived : Prop :=
  ∀ (r : Receiver) (bs : List Byte), r.link = .up → r.reception ≠ .inPacket → 7 ≤ bs.length → bs.length ≤ 2032 →
    r.takeAll (wireBlocks bs) = ({ r with badSync := 0, reception := .between, packet := [] }, [.complete bs])
      ∧ ∀ n, 0 < n → n < (wireBlocks bs).length →
        (r.takeAll ((wireBlocks bs).take n ++ [abortTrailer])).2 = [.codingError, .discarded]

/-- Every slope segment in its ranges is read as it was sent, every slope value among them, and every accept token; a check code
that was appended is good (R9, R11, R145, R179, 12.2). -/
def Obligations.PacketsAreReadAsSent : Prop :=
  (∀ bs : List Byte, goodCheckCode (sealed bs) = true ∧ (sealed bs).length = bs.length + 4)
    ∧ (∀ g : Segment, g.InRange → packetTag g.bytes = g.tag ∧ classify g.bytes = .segment g
        ∧ g.bytes.length = 16 + 2 * g.slopes.length)
    ∧ ∀ k : Token, parseToken k.bytes = some k ∧ k.bytes.length = 12

/-! ### Streams (R23 to R36) -/

/-- A packet that matches no enabled stream is foreign: it joins the aside holding list of a link whose flag is set while an anchor is
loaded, or is dropped with ASIDE_OVERRUN when 4 are there, or is counted and discarded. The word of the next slot decides whether the
packet at the head is written, its fields first and its word last, or dropped with ASIDE_OVERRUN; a written one raises ASIDE_ARRIVAL
and the next slot is tried for the next packet (R8, R23, R33, R34, R173). -/
def Obligations.AsideQueue : Prop :=
  (∀ (l : Fin 8) (s : State) (a : Arrival) (rest : List Arrival), NextArrival l s a rest → (∀ i, ¬ Matches s a i) →
    ∃ t, exec (.packetAdmission l) s = .next t ∧ t.wires = { s.wires with arrivals := rest }
      ∧ (s.sau.asideFlags[a.link] = false ∨ s.run.anchor = none → Touches [.ports, .wires] s t
          ∧ PortIs a.link { s.ports[a.link] with foreign := latch s.ports[a.link].foreign } s t)
      ∧ ∀ anchor, s.sau.asideFlags[a.link] = true → s.run.anchor = some anchor →
          let joined := s.sau.holding ++ [{ link := a.link, time := a.time, bytes := a.bytes }]
          (4 ≤ s.sau.holding.length → Touches [.sau, .attention, .wires] s t ∧ attentionHas .asideOverrun t = true
              ∧ t.sau = { s.sau with overruns := s.sau.overruns + 1 })
            ∧ (s.sau.holding.length < 4 → s.sau.step ≠ .idle → Touches [.sau, .wires] s t
                ∧ t.sau = { s.sau with holding := joined })
            ∧ (s.sau.holding.length < 4 → s.sau.step = .idle → Touches [.sau, .sauQueue, .wires] s t
                ∧ t.sau = { s.sau with holding := joined, step := .reading }
                ∧ t.arb.sau = s.arb.sau ++ readAccesses .asideWord (anchor.asideOffset + 2048 * s.sau.nextSlot) 4))
  ∧ ((∀ (s : State) (a : Anchor) (p : AsidePacket) (rest : List AsidePacket), s.run.anchor = some a → s.sau.holding = p :: rest →
    s.wires.asideWord = some .clear →
    let slot := a.asideOffset + 2048 * s.sau.nextSlot
    let body := leBytes 2 p.bytes.length ++ leBytes 1 p.link.val ++ [0] ++ leBytes 8 p.time.toNat ++ p.bytes
    ∃ t, exec .asideWordReadDone s = .next t ∧ Touches [.sau, .sauQueue, .wires] s t
      ∧ t.sau = { s.sau with step := .writing } ∧ t.wires = { s.wires with asideWord := none }
      ∧ t.arb.sau = s.arb.sau ++ (writeAccesses .asideBody (slot + 4) body ++ writeAccesses .asideSeal slot (leBytes 4 1)))
  ∧ (∀ (s : State) (a : Anchor) (w : WordRead), s.run.anchor = some a → s.wires.asideWord = some w → w ≠ .clear →
    let rest := s.sau.holding.tail
    ∃ t, exec .asideWordReadDone s = .next t ∧ Touches [.sau, .sauQueue, .wires, .attention] s t
      ∧ attentionHas .asideOverrun t = true ∧ (w = .failed → attentionHas .memoryError t = true)
      ∧ t.wires = { s.wires with asideWord := none }
      ∧ t.sau = { s.sau with
          overruns := s.sau.overruns + 1, holding := rest, step := if rest = [] then .idle else .reading }
      ∧ t.arb.sau = s.arb.sau
          ++ (if rest = [] then [] else readAccesses .asideWord (a.asideOffset + 2048 * s.sau.nextSlot) 4))
  ∧ ∀ (s : State) (a : Anchor), s.run.anchor = some a → s.wires.asideSealed = true →
    let rest := s.sau.holding.tail
    let next := if s.sau.nextSlot + 1 < a.asideCount then s.sau.nextSlot + 1 else 0
    ∃ t, exec .asideSlotWritten s = .next t ∧ Touches [.sau, .sauQueue, .wires, .attention] s t
      ∧ attentionHas .asideArrival t = true ∧ t.wires = { s.wires with asideSealed := false }
      ∧ t.sau = { s.sau with nextSlot := next, holding := rest, step := if rest = [] then .idle else .reading }
      ∧ t.arb.sau = s.arb.sau
          ++ (if rest = [] then [] else readAccesses .asideWord (a.asideOffset + 2048 * next) 4))

/-- A slope segment whose tag matches an enabled stream: misrouted, or discarded while the part is not RUNNING, and then only counted; or
received by the stream's state, and only then with the cut timer restarted. Each counter rises by one and wraps, no other changes,
and a wrap of any of them, of the received counter too, names the stream and raises COUNTER_WRAP (R24, R25, R28 to R30). -/
def Obligations.SegmentAdmission : Prop :=
  (∀ (l : Fin 8) (s : State) (a : Arrival) (rest : List Arrival) (i : Fin 16), NextArrival l s a rest → Matches s a i →
    (∀ j, Matches s a j → j = i) →
    let x := s.sau.streams[i]
    let wires := { s.wires with arrivals := rest }
    let timer := some (s.time + BitVec.ofNat 64 (1000 * x.config.cutTimeout))
    let opens := ∃ g, a.kind.segment? = some g ∧ g.index = 0
    let seeking := if x.state = .cut then
      { x with state := .seeking, changed := s.time, stay := x.stay + 1, misinserts := 0, timer := timer }
      else { x with timer := timer }
    ∃ t, exec (.packetAdmission l) s = .next t ∧ Touches [.sau, .wires, .attention] s t
      ∧ (x.config.link ≠ a.link.val → t.wires = wires ∧ StreamIs i (x.plus [.misrouted]) s t ∧ WrapsNamed i [.misrouted] s t)
      ∧ (x.config.link = a.link.val → s.run.state ≠ .running → t.wires = wires ∧ StreamIs i (x.plus [.idleDiscards]) s t
          ∧ WrapsNamed i [.idleDiscards] s t)
      ∧ (x.config.link = a.link.val → s.run.state = .running →
          (x.state = .locked → StreamIs i { x with timer := timer } s t ∧ WrapsNamed i [] s t ∧ t.wires =
              { wires with handed := s.wires.handed
                  ++ [{ stream := i, fromLocked := true, stay := x.stay, segment := a.kind.segment? }] })
            ∧ (x.state = .seeking ∨ x.state = .cut → opens → StreamIs i seeking s t ∧ WrapsNamed i [] s t ∧ t.wires =
              { wires with handed := s.wires.handed
                  ++ [{ stream := i, fromLocked := false, stay := seeking.stay, segment := a.kind.segment? }] })
            ∧ (x.state = .seeking ∨ x.state = .cut → ¬ opens →
                StreamIs i (seeking.plus [.received, .seekingDiscards]) s t ∧ t.wires = wires
                  ∧ WrapsNamed i [.received, .seekingDiscards] s t)))
  ∧ ((∀ (x : Stream) (c d : Counter), (x.plus [c]).counter d = if d = c then x.counter d + 1 else x.counter d)
    ∧ ∀ (l : Fin 8) (s : State) (a : Arrival) (rest : List Arrival) (i : Fin 16), NextArrival l s a rest → Matches s a i →
      (∀ j, Matches s a j → j = i) → s.sau.streams[i].config.link ≠ a.link.val →
      let wraps := s.sau.streams[i].counter .misrouted = 65535
      ∃ t, exec (.packetAdmission l) s = .next t
        ∧ (wraps → attentionHas .counterWrap t = true ∧ t.sau.lastWrapped = i)
        ∧ (¬ wraps → t.page.attention = s.page.attention ∧ t.sau.lastWrapped = s.sau.lastWrapped))

/-- An outcome is counted, a placed one of the pace stream is passed to the Frame Clock, a SEEKING stream locks on a placed one, and a
second misinserted one in a row takes a LOCKED stream to SEEKING, or is reported to the Frame Clock for the pace stream, whose
outcomes from then on move nothing of a LOCKED stream until the confirmation (log 23). The received and the outcome counter are raised
together, and a wrap of either raises COUNTER_WRAP. A cut timer that has reached its expiry cuts the stream; before that nothing
happens (R26 to R30, R41, R63; the row before its time, log 4). A stream that has left the state it handed a segment over in keeps its
state, though it be in that state again (R26). -/
def Obligations.OutcomesAndCuts : Prop :=
  (∀ (i : Fin 16) (s : State) (r : Returned) (rest : List Returned),
    takeFirst (fun r => r.stream == i) s.wires.returned = some (r, rest) →
    let x := s.sau.streams[i]
    let y := x.plus [.received, r.judgement.counter]
    let pace := s.fck.configured = true ∧ s.fck.stream = i
    let counted := r.fromLocked = true ∧ x.state = .locked ∧ x.stay = r.stay ∧ x.awaiting = false
    let locks := r.fromLocked = false ∧ x.state = .seeking ∧ x.stay = r.stay ∧ r.judgement = .placed
    let wires := { s.wires with
      returned := rest
      paceReports := if r.judgement = .placed ∧ pace then s.wires.paceReports ++ [r.frame] else s.wires.paceReports }
    ∃ t, exec (.segmentOutcome i) s = .next t ∧ Touches [.sau, .wires, .attention] s t
      ∧ WrapsNamed i [.received, r.judgement.counter] s t
      ∧ (counted → r.judgement ≠ .misinserted → t.wires = wires ∧ StreamIs i { y with misinserts := 0 } s t)
      ∧ (counted → r.judgement = .misinserted → x.misinserts = 0 → t.wires = wires
          ∧ StreamIs i { y with misinserts := 1 } s t)
      ∧ (counted → r.judgement = .misinserted → x.misinserts ≠ 0 → pace →
          t.wires = { wires with misinserts := s.wires.misinserts ++ [i] }
            ∧ StreamIs i { y with misinserts := 2, awaiting := true } s t)
      ∧ (counted → r.judgement = .misinserted → x.misinserts ≠ 0 → ¬ pace →
          t.wires = { wires with
              lockedExits := if s.run.state = .running then s.wires.lockedExits ++ [i] else s.wires.lockedExits }
            ∧ StreamIs i
              { y with
                state := .seeking, changed := s.time, stay := x.stay + 1, misinserts := 0
                timer := some (s.time + BitVec.ofNat 64 (1000 * x.config.cutTimeout)) } s t)
      ∧ (locks → t.wires = wires
          ∧ StreamIs i { y with state := .locked, changed := s.time, stay := x.stay + 1, misinserts := 0 } s t)
      ∧ (¬ counted → ¬ locks → t.wires = wires ∧ StreamIs i y s t))
  ∧ (∀ (i : Fin 16) (s : State) (e : Time),
    let x := s.sau.streams[i]
    x.timer = some e → x.state = .seeking ∨ x.state = .locked →
    (Time.reached s.time e = false → exec (.cutTimerExpiry i) s = .next s)
      ∧ (Time.reached s.time e = true → ∃ t, exec (.cutTimerExpiry i) s = .next t ∧ Touches [.sau, .wires, .attention] s t
        ∧ attentionHas .streamCut t = true ∧ WrapsNamed i [.cutEvents] s t
        ∧ StreamIs i
          { x.plus [.cutEvents] with
            state := .cut, changed := s.time, stay := x.stay + 1, timer := none } s t
        ∧ t.wires = { s.wires with
            lockedExits := if x.state = .locked ∧ s.run.state = .running then s.wires.lockedExits ++ [i]
              else s.wires.lockedExits }))

/-! ### The Frame Clock (R40 to R49) -/

/-- Pace reports: a frame newer than last started is started and the flywheel re-armed; in COASTING any report ends coasting; one taken
while the part is not RUNNING is ignored. The flywheel starts the next frame when it expires, is re-armed for one period from its
expiry, and turns PACED to COASTING with PACE_LOST (R40 to R46); that its row does nothing before is the model's choice (log 4). -/
def Obligations.PaceAndFlywheel : Prop :=
  (∀ (s : State) (f : Frame) (rest : List Frame), s.wires.paceReports = f :: rest →
    let starts := s.fck.lastStarted = none ∨ ∃ l, s.fck.lastStarted = some l ∧ Frame.newer f l = true
    let armed := some (s.time + BitVec.ofNat 64 (s.fck.period + s.fck.margin))
    let wires := { s.wires with paceReports := rest }
    ∃ t, exec .paceReport s = .next t ∧ Touches [.fck, .wires] s t
      ∧ (s.run.state ≠ .running → t.fck = s.fck ∧ t.wires = wires)
      ∧ (s.run.state = .running → starts →
          t.fck = { s.fck with lastStarted := some f, flywheel := armed, pace := .paced }
            ∧ t.wires = { wires with
                frameStarts := s.wires.frameStarts ++ [{ frame := f, time := s.time, deadline := s.fck.deadline }] })
      ∧ (s.run.state = .running → ¬ starts → s.fck.pace = .paced → t.fck = s.fck ∧ t.wires = wires)
      ∧ (s.run.state = .running → ¬ starts → s.fck.pace = .coasting →
          t.fck = { s.fck with flywheel := armed, pace := .paced } ∧ t.wires = wires))
  ∧ (∀ (s : State) (e : Time) (l : Frame), s.fck.flywheel = some e → s.fck.lastStarted = some l →
    (Time.reached s.time e = false ∨ s.run.state ≠ .running → exec .flywheelExpiry s = .next s)
      ∧ (Time.reached s.time e = true → s.run.state = .running → ∃ t, exec .flywheelExpiry s = .next t
        ∧ Touches [.fck, .wires, .attention] s t
        ∧ t.fck = { s.fck with
            lastStarted := some (l + 1), flywheel := some (e + BitVec.ofNat 64 s.fck.period), pace := .coasting }
        ∧ t.wires = { s.wires with
            frameStarts := s.wires.frameStarts ++ [{ frame := l + 1, time := s.time, deadline := s.fck.deadline }] }
        ∧ attentionHas .paceLost t = (attentionHas .paceLost s || decide (s.fck.pace = .paced))
        ∧ ∀ c, c ≠ .paceLost → attentionHas c t = attentionHas c s))

/-- The reframe, from the misinsert report of the pace stream to its confirmation (R27, R48, R49, R71). With the
confirmation it is awaited no more, and the stream seeks if it is LOCKED, as it stands then (the model's choice,
log 38), with its exit reported to Frame Assembly in RUNNING (R21); that the reframe count wraps is log 42. -/
def Obligations.ReframeSteps : Prop :=
  (∀ (s : State) (i : Fin 16) (rest : List (Fin 16)), s.wires.misinserts = i :: rest →
    let x := s.sau.streams[i]
    let wires := { s.wires with misinserts := rest }
    let exits := if x.state = .locked ∧ s.run.state = .running then s.wires.lockedExits ++ [i] else s.wires.lockedExits
    ∃ t, exec .misinsertReport s = .next t
      ∧ (s.run.state = .running → s.fck.reframing = false → Touches [.fck, .wires, .attention] s t
          ∧ attentionHas .reframe t = true
          ∧ t.fck = { s.fck with
              lastStarted := none, pace := .coasting, flywheel := none, reframing := true, reframes := s.fck.reframes + 1 }
          ∧ t.wires = { wires with reframeRequest := true })
      ∧ (s.run.state ≠ .running ∨ s.fck.reframing = true → Touches [.sau, .wires] s t
          ∧ t.wires = { wires with lockedExits := exits }
          ∧ StreamIs i
            (if x.state = .locked then
              { x with
                state := .seeking, changed := s.time, stay := x.stay + 1, misinserts := 0, awaiting := false
                timer := some (s.time + BitVec.ofNat 64 (1000 * x.config.cutTimeout)) } else { x with awaiting := false }) s t))
  ∧ (∀ s : State, s.wires.reframeRequest = true → ∃ t, exec .reframeRequest s = .next t ∧ Touches [.fau, .wires] s t
      ∧ (∀ r : Fin 4, t.fau.records[r] = if s.fau.records[r].state.waits then {} else s.fau.records[r])
      ∧ t.fau = { s.fau with
          records := t.fau.records, lastDispatched := none, base := none
          abandoned := s.fau.abandoned + BitVec.ofNat 32 (recordsIn RecordState.waits s).length }
      ∧ t.wires = { s.wires with
          reframeRequest := false, reframeConfirmed := true
          recordsFreed := s.wires.recordsFreed ++ recordsIn RecordState.waits s })
  ∧ ∀ s : State, s.wires.reframeConfirmed = true →
    let i := s.fck.stream
    let x := s.sau.streams[i]
    ∃ t, exec .reframeConfirmation s = .next t ∧ Touches [.sau, .fck, .wires] s t
      ∧ t.fck = { s.fck with reframing := false }
      ∧ t.wires = { s.wires with
          reframeConfirmed := false
          lockedExits := if x.state = .locked ∧ s.run.state = .running then s.wires.lockedExits ++ [i] else s.wires.lockedExits }
      ∧ (x.state = .locked → StreamIs i
          { x with
            state := .seeking, changed := s.time, stay := x.stay + 1, misinserts := 0, awaiting := false
            timer := some (s.time + BitVec.ofNat 64 (1000 * x.config.cutTimeout)) } s t)
      ∧ (x.state ≠ .locked → StreamIs i { x with awaiting := false } s t) ∧ t.sau.lastWrapped = s.sau.lastWrapped

/-! ### Frame Assembly (R50 to R74) -/

/-- A placed segment writes its values, or the void code where it carries the frame-invalid flag, and its index joins the record's received
set. It is placed in the OPEN record of its frame, with the completion check where the frame has started, and the newest CLOSED record
goes to the engine at once when it is IDLE; or it is placed in a record opened for it, with an eviction where none is FREE (R12, R51,
R52, R55, R56, R58, R62, R66). Of several streams whose void-frames counts wrap at the close, the highest-numbered is named: the model's
choice (log 40). -/
def Obligations.SegmentsPlaced : Prop :=
  (∀ (i : Fin 16) (base : Nat) (g : Segment) (x : Record),
    let y := x.place i base g
    let from' := base + g.first
    y = { x with slopes := y.slopes, received := y.received }
      ∧ (∀ p, Store.find? y.slopes p =
          if from' ≤ p ∧ p < from' + g.slopes.length then some (if g.invalid then -32768 else g.slopes.getD (p - from') 0)
          else Store.find? x.slopes p)
      ∧ (∀ k, k ∈ y.received[i] ↔ k = g.index ∨ k ∈ x.received[i])
      ∧ ∀ j : Fin 16, j ≠ i → y.received[j] = x.received[j])
  ∧ (∀ (i : Fin 16) (s : State) (h : Handed) (rest : List Handed) (g : Segment),
    takeFirst (fun h => h.stream == i) s.wires.handed = some (h, rest) → h.segment = some g →
    let c := s.sau.streams[i].config
    g.count = c.segments → g.index < c.segments → g.first + g.slopes.length ≤ c.count → s.run.state = .running →
    (∀ l, s.fau.lastDispatched = some l → Frame.newerBy 8 g.frame l = true) →
    let wires := { s.wires with
      handed := rest
      returned := s.wires.returned
        ++ [{ stream := i, fromLocked := h.fromLocked, stay := h.stay, judgement := .placed, frame := g.frame }] }
    ∃ t, exec (.segmentPlacement i) s = .next t
      ∧ (∀ r, recordOf g.frame s = some r → s.fau.records[r].state = .opened → g.index ∉ s.fau.records[r].received[i] →
          let x := s.fau.records[r].place i c.base g
          (x.started = none ∨ complete x s.sau.streams = false → Touches [.fau, .wires] s t ∧ t.wires = wires
              ∧ t.fau = { s.fau with records := tweak s.fau.records r fun _ => x })
            ∧ (x.started.isSome = true → complete x s.sau.streams = true → Closes r x .complete s.fau wires s t))
      ∧ ((∀ r : Fin 4, s.fau.records[r].state ≠ .free → s.fau.records[r].frame ≠ g.frame) → ∀ r : Fin 4,
          let x : Record := ({ state := .opened, frame := g.frame } : Record).place i c.base g
          let opened := { s.fau with
            records := tweak s.fau.records r fun _ => x, base := some (s.fau.base.getD (g.frame - 1)) }
          (s.fau.records[r].state = .free → (∀ q : Fin 4, q < r → s.fau.records[q].state ≠ .free) → Touches [.fau, .wires] s t
              ∧ t.fau = opened ∧ t.wires = wires)
            ∧ ((∀ q : Fin 4, s.fau.records[q].state ≠ .free) → s.fau.records[r].state.waits = true →
              (∀ q : Fin 4, q ≠ r → s.fau.records[q].state.waits = true → placeOf r s < placeOf q s) →
              Touches [.fau, .wires, .attention] s t ∧ attentionHas .frameOverrun t = true
                ∧ t.fau = { opened with overrun := s.fau.overrun + 1 }
                ∧ t.wires = { wires with recordsFreed := s.wires.recordsFreed ++ [r] })))

/-- The placement judgements that change no record: malformed, late, duplicate and misinserted, in their order (R53, R54, R56, R57). -/
def Obligations.SegmentsNotPlaced : Prop :=
  ∀ (i : Fin 16) (s : State) (h : Handed) (rest : List Handed),
    takeFirst (fun h => h.stream == i) s.wires.handed = some (h, rest) →
    let c := s.sau.streams[i].config
    let returns := fun (j : Judgement) (f : Frame) => { s.wires with
      handed := rest
      returned := s.wires.returned
        ++ [{ stream := i, fromLocked := h.fromLocked, stay := h.stay, judgement := j, frame := f }] }
    let malformed := fun g : Segment => g.count ≠ c.segments ∨ c.segments ≤ g.index ∨ c.count < g.first + g.slopes.length
    let old := fun g : Segment => s.run.state ≠ .running
      ∨ ∃ l, s.fau.lastDispatched = some l ∧ Frame.newer g.frame l = false
    let far := fun g : Segment => ∃ l, s.fau.lastDispatched = some l ∧ Frame.newerBy 8 g.frame l = false
    ∃ t, exec (.segmentPlacement i) s = .next t
      ∧ (h.segment = none → Touches [.wires] s t ∧ t.wires = returns .malformed 0)
      ∧ ∀ g, h.segment = some g →
        (malformed g → Touches [.wires] s t ∧ t.wires = returns .malformed g.frame)
          ∧ (¬ malformed g → old g → Touches [.wires] s t ∧ t.wires = returns .late g.frame)
          ∧ (¬ malformed g → ¬ old g → (∀ r : Fin 4, s.fau.records[r].state ≠ .free → s.fau.records[r].frame ≠ g.frame) → far g →
              Touches [.wires] s t ∧ t.wires = returns .misinserted g.frame)
          ∧ ∀ r, recordOf g.frame s = some r → ¬ malformed g → ¬ old g →
              (s.fau.records[r].state ≠ .opened → Touches [.wires] s t ∧ t.wires = returns .late g.frame)
                ∧ (s.fau.records[r].state = .opened → g.index ∈ s.fau.records[r].received[i] →
                    Touches [.wires] s t ∧ t.wires = returns .duplicate g.frame)

/-- A frame start event starts the OPEN record of its frame, or one opened for it, in place of the oldest where none is FREE, and its
deadline runs from the event; a record that is complete, or whose deadline is past, closes at once, and the newest CLOSED record goes to
the engine if it is IDLE. The event is ignored for an old frame, a frame too far ahead, and a frame already started or closed (R52,
R58, R60, R61, R66). Of several streams whose void-frames counts wrap at the close, the highest-numbered is named: the model's choice
(log 40). -/
def Obligations.FrameStarts : Prop :=
  ∀ (s : State) (e : FrameStart) (rest : List FrameStart), s.wires.frameStarts = e :: rest →
    let expiry := e.time + BitVec.ofNat 64 e.deadline
    let ignored := s.run.state ≠ .running ∨ ∃ l, s.fau.lastDispatched = some l ∧ Frame.newerBy 8 e.frame l = false
    let none' := ∀ r : Fin 4, s.fau.records[r].state ≠ .free → s.fau.records[r].frame ≠ e.frame
    let wires := { s.wires with frameStarts := rest }
    ∃ t, exec .frameStartTake s = .next t ∧ Touches [.fau, .wires, .sau, .attention] s t
      ∧ (none' → ignored → t.fau = s.fau ∧ t.wires = wires)
      ∧ (∀ l, s.fau.lastDispatched = some l → Frame.newer e.frame l = false → t.fau = s.fau ∧ t.wires = wires)
      ∧ (∀ r, recordOf e.frame s = some r → s.fau.records[r].state ≠ .opened ∨ s.fau.records[r].started.isSome = true →
          t.fau = s.fau ∧ t.wires = wires)
      ∧ (∀ r, recordOf e.frame s = some r → s.fau.records[r].state = .opened → s.fau.records[r].started = none →
          s.run.state = .running → (∀ l, s.fau.lastDispatched = some l → Frame.newer e.frame l = true) →
          let x := { s.fau.records[r] with started := some e.time, deadline := some expiry }
          (complete x s.sau.streams = false → Time.reached s.time expiry = false →
              t.fau = { s.fau with records := tweak s.fau.records r fun _ => x } ∧ t.wires = wires)
            ∧ (complete x s.sau.streams = true → Closes r x .complete s.fau wires s t)
            ∧ (complete x s.sau.streams = false → Time.reached s.time expiry = true → Closes r x .deadline s.fau wires s t))
      ∧ (none' → ¬ ignored → ∀ r : Fin 4,
          let x : Record := { state := .opened, frame := e.frame, started := some e.time, deadline := some expiry }
          let based := { s.fau with base := some (s.fau.base.getD (e.frame - 1)) }
          let evicted := { based with overrun := s.fau.overrun + 1 }
          let opens := fun (fau : Fau) (w : Wires) =>
            (complete x s.sau.streams = false → Time.reached s.time expiry = false →
              t.fau = { fau with records := tweak s.fau.records r fun _ => x } ∧ t.wires = w)
              ∧ (complete x s.sau.streams = true → Closes r x .complete fau w s t)
              ∧ (complete x s.sau.streams = false → Time.reached s.time expiry = true → Closes r x .deadline fau w s t)
          (s.fau.records[r].state = .free → (∀ q : Fin 4, q < r → s.fau.records[q].state ≠ .free) → opens based wires)
            ∧ ((∀ q : Fin 4, s.fau.records[q].state ≠ .free) → s.fau.records[r].state.waits = true →
              (∀ q : Fin 4, q ≠ r → s.fau.records[q].state.waits = true → placeOf r s < placeOf q s) →
              attentionHas .frameOverrun t = true
                ∧ opens evicted { wires with recordsFreed := s.wires.recordsFreed ++ [r] }))

/-- What closing a frame gathers: the stream map, the slopes that stay, the void counts, the void verdict (R64, R65). -/
def Obligations.FrameClosing : Prop :=
  ∀ (cause : CloseCause) (now : Time) (streams : Vector Stream 16) (x : Record), Store.rising x.slopes = true →
    let y := x.close cause now streams
    let inRange := fun (i : Fin 16) (p : Nat) =>
      streams[i].config.base ≤ p ∧ p < streams[i].config.base + streams[i].config.count
    y.state = .closed ∧ y.frame = x.frame ∧ y.started = x.started ∧ y.cause = some cause ∧ y.closeTime = some now
      ∧ (∀ i : Fin 16, streams[i].enabled = false → y.streamMap[i] = none ∧ y.voidCounts[i] = 0)
      ∧ (∀ i : Fin 16, streams[i].enabled = true →
          y.streamMap[i] = some
            { base := streams[i].config.base, count := streams[i].config.count
              substitution := streams[i].config.substitution, mandatory := streams[i].config.mandatory
              allowance := streams[i].config.allowance, locked := decide (streams[i].state = .locked) }
            ∧ y.voidCounts[i] = ((List.range streams[i].config.count).filter fun k =>
                ((Store.find? y.slopes (streams[i].config.base + k)).getD (-32768)) == -32768).length)
      ∧ (∀ p v, Store.find? y.slopes p = some v ↔ Store.find? x.slopes p = some v
          ∧ ∃ i : Fin 16, streams[i].enabled = true ∧ streams[i].state = .locked ∧ inRange i p)
      ∧ (y.void = true ↔ ∃ i : Fin 16, streams[i].enabled = true ∧ streams[i].config.mandatory = true
          ∧ streams[i].config.allowance < y.voidCounts[i])

/-- A started OPEN record closes with cause DEADLINE once its deadline is reached, each stream over its allowance counts a void frame, with
COUNTER_WRAP where that wraps, and the newest CLOSED record goes to the engine at once when it is IDLE. At a report that a stream has
left LOCKED every record whose frame is now complete closes, whatever order they are checked in (R30, R31, R61 to R63, R65, R66;
the row before its time, log 4; which of several wrapped streams stands, log 40). -/
def Obligations.RecordsClose : Prop :=
  (∀ (r : Fin 4) (s : State) (e : Time), s.fau.records[r].state = .opened → s.fau.records[r].deadline = some e →
    (Time.reached s.time e = false → exec (.deadlineExpiry r) s = .next s)
      ∧ (Time.reached s.time e = true → ∃ t, exec (.deadlineExpiry r) s = .next t
        ∧ Touches [.fau, .wires, .sau, .attention] s t
        ∧ Closes r s.fau.records[r] .deadline s.fau s.wires s t))
  ∧ (∀ (order : List (Fin 4)) (s : State) (i : Fin 16) (rest : List (Fin 16)), s.wires.lockedExits = i :: rest →
    ∃ t, exec (.lockedExitReport order) s = .next t ∧ Touches [.fau, .wires, .sau, .attention] s t
      ∧ t.wires.lockedExits = rest
      ∧ (engineIdleAtFau s = false → t.wires = { s.wires with lockedExits := rest }
          ∧ ∀ r : Fin 4, t.fau.records[r] =
            if complete s.fau.records[r] s.sau.streams then s.fau.records[r].close .complete s.time s.sau.streams
            else s.fau.records[r])
      ∧ (∀ r : Fin 4, complete s.fau.records[r] s.sau.streams = true →
          (∀ q : Fin 4, q ≠ r → complete s.fau.records[q] s.sau.streams = false) →
          Closes r s.fau.records[r] .complete s.fau { s.wires with lockedExits := rest } s t)
      ∧ ((∀ r : Fin 4, complete s.fau.records[r] s.sau.streams = false) → t.fau = s.fau))

/-- The engine's IDLE report dispatches the newest CLOSED record; the other CLOSED ones are skipped, OPEN ones not within 8 after it
are abandoned, and the record is handed to the engine (R66 to R68, R74). -/
def Obligations.DispatchOnIdle : Prop :=
  ∀ s : State, s.wires.idleToFau = true →
    let closed := recordsIn (· == .closed) s
    ∃ t, exec .engineIdleReport s = .next t ∧ Touches [.fau, .wires] s t ∧ t.wires.idleToFau = false
      ∧ (closed = [] ∨ s.rce.state ≠ .idle ∨ s.wires.handover.isSome = true → t.fau = s.fau
          ∧ t.wires = { s.wires with idleToFau := false })
      ∧ (s.rce.state = .idle → s.wires.handover = none → ∀ r, NewestClosed r s.fau → Dispatched r s.fau { s.wires with idleToFau := false } t)

/-! ### The Reconstruction Engine (R69, R70, R99 to R119) -/

/-- Frame Assembly's answer for a position: its slope, or what the covering stream substitutes. The engine takes a dispatched frame with
the CURRENT slot: its void blocks, its reads in order, its residuals; a void frame reads nothing, is released, with its good slopes learned
by the Last-Good store, and concludes with every actuator void (R69, R70, R99 to R101, R110). An IDLE report to the Directive Unit
still on its way is taken first. That the residuals are formed in this step (log 11), that the results of a void frame read Last
Emitted in this step, or late at completion (log 12), and that the IDLE report is taken first (log 9), is the model's choice. -/
def Obligations.FrameTaken : Prop :=
  (∀ (x : Record) (lastGood : Store Int) (p : Nat),
    (∀ v, Store.find? x.slopes p = some v → v ≠ -32768 → answer x lastGood p = .slope v)
      ∧ (Store.find? x.slopes p = none ∨ Store.find? x.slopes p = some (-32768) →
        ((∀ (i : Fin 16) (m : MapEntry), x.streamMap[i] = some m → ¬ (m.base ≤ p ∧ p < m.base + m.count)) →
            answer x lastGood p = .residualZero)
          ∧ ∀ (i : Fin 16) (m : MapEntry), x.streamMap[i] = some m → m.base ≤ p → p < m.base + m.count →
            (∀ (j : Fin 16) (n : MapEntry), x.streamMap[j] = some n → n.base ≤ p → p < n.base + n.count → j = i) →
            (m.substitution = .zero → answer x lastGood p = .residualZero)
              ∧ (m.substitution = .last → answer x lastGood p = .lastGood (Store.read 0 lastGood p))))
  ∧ (∀ (s : State) (h : Handover) (i : SlotId) (e : Edition),
    s.wires.handover = some h → currentSlot s = some (i, e) → s.rce.state = .idle → s.wires.taints = [] →
    let x := s.fau.records[h.record]
    ∃ (t u : State) (f : FrameContext), exec .frameTake s = .next t
      ∧ (s.wires.idleToDu = false → u = s) ∧ (s.wires.idleToDu = true → exec .drainIdleReport s = .next u)
      ∧ (t.du = u.du ∧ t.arb.du = u.arb.du ∧ t.pru = u.pru)
      ∧ t.wires = { u.wires with
          handover := none
          recordsFreed := if h.void = true ∧ x.state = .dispatched then u.wires.recordsFreed ++ [h.record]
            else u.wires.recordsFreed }
      ∧ t.rce = { s.rce with inUse := some i, frame := some f, state := if h.void then .concluding else .streaming }
      ∧ (f.handed = h ∧ f.accumulators = [] ∧ f.memoryErrors = 0 ∧ f.probe = none ∧ f.source = .none ∧ f.changes = []
          ∧ f.cursor = 0)
      ∧ (∀ c, c ∈ f.voidBlocks ↔ ∃ d ∈ e.directory, d.2.taint = true ∧ d.1 / 64 = c)
      ∧ (h.void = false → Touches [.rce, .wires, .du, .duQueue, .pru] s t
          ∧ f.plan = (e.directory.map Prod.fst).filter (fun key => decide (key / 64 ∉ f.voidBlocks))
          ∧ f.residual = (List.range e.slopeCount).map fun p =>
              match answer x s.fau.lastGood p with
              | .slope v => max (-32768) (min 32767 (v - e.reference.getD p 0))
              | .lastGood v => max (-32768) (min 32767 (v - e.reference.getD p 0))
              | .residualZero => 0)
      ∧ (h.void = true → Touches [.rce, .fau, .wires, .du, .duQueue, .pru] s t ∧ f.plan = [] ∧ f.residual = []
          ∧ (x.state ≠ .dispatched → t.fau = s.fau)
          ∧ (x.state = .dispatched → t.fau = { s.fau with records := t.fau.records, lastGood := t.fau.lastGood }
            ∧ t.fau.records[h.record] = {} ∧ (∀ q : Fin 4, q ≠ h.record → t.fau.records[q] = s.fau.records[q])
            ∧ (Store.rising x.slopes = true → ∀ p, Store.read 0 t.fau.lastGood p =
                match Store.find? x.slopes p with
                | some v => if v = -32768 then Store.read 0 s.fau.lastGood p else v
                | none => Store.read 0 s.fau.lastGood p))
          ∧ f.results = (List.range e.actuatorCount).map fun a =>
              { candidate := none, output := (e.row a).clamp (Store.read 0 s.cou.lastEmitted a), clampedCandidate := false
                clampedOutput := false }))

/-- The data of a granted tile read join the accumulators of their sixteen actuators exactly; those of a void block and of actuators
at or above A contribute nothing (R100, R102, 12.4). -/
def Obligations.TileDataAccumulate : Prop :=
  ∀ (s : State) (ret : TileReturn) (rest : List TileReturn) (bs : List Byte) (d : Descriptor) (f : FrameContext),
    s.wires.tileReturns = ret :: rest → ret.data = some bs → bs.length = 32 → descriptorInUse ret.key s = some d →
    s.rce.frame = some f →
    let element := fun k : Nat => signed 16 (leNat ((bs.drop (2 * k)).take 2))
    let res := f.residual.getD (256 * (ret.key % 64) + ret.granule / 4) 0
    let first := 64 * (ret.key / 64) + 16 * (ret.granule % 4)
    ∃ (t : State) (g : FrameContext), exec .tileReadDone s = .next t ∧ Touches [.rce, .wires] s t
      ∧ t.wires = { s.wires with tileReturns := rest } ∧ t.rce = { s.rce with frame := some g }
      ∧ g = { f with accumulators := g.accumulators }
      ∧ (ret.key / 64 ∈ f.voidBlocks → g = f)
      ∧ (ret.key / 64 ∉ f.voidBlocks → ∀ a, Store.read 0 g.accumulators a =
          if first ≤ a ∧ a < first + 16 ∧ a < (editionInUse s).actuatorCount then
            Store.read 0 f.accumulators a + element (a - first) * res * 2 ^ (d.exponent + 24).toNat
          else Store.read 0 f.accumulators a)

/-- A tile memory error voids the column block for the frame, is counted and raises MEMORY_ERROR; a taint report voids the column
block of a descriptor of the slot in use not yet read while STREAMING, and does nothing otherwise. The order of the reads goes on with the
next granule of the entry at its head, or with the first of a new one; all else of the frame stays (R100, R104, R105). -/
def Obligations.ColumnBlocksVoided : Prop :=
  let voided := fun (c : Nat) (f g : FrameContext) =>
    let plan := f.plan.filter fun key => decide (key / 64 ≠ c)
    (∀ b, b ∈ g.voidBlocks ↔ b = c ∨ b ∈ f.voidBlocks)
      ∧ g = { f with
          voidBlocks := g.voidBlocks, plan := plan, memoryErrors := g.memoryErrors
          cursor := if plan.head? = f.plan.head? then f.cursor else 0 }
  (∀ (s : State) (ret : TileReturn) (rest : List TileReturn) (f : FrameContext),
    s.wires.tileReturns = ret :: rest → ret.data = none → s.rce.frame = some f →
    ∃ (t : State) (g : FrameContext), exec .tileMemoryError s = .next t ∧ Touches [.rce, .wires, .attention] s t
      ∧ attentionHas .memoryError t = true ∧ t.wires = { s.wires with tileReturns := rest }
      ∧ t.rce = { s.rce with frame := some g, tileErrors := s.rce.tileErrors + 1 }
      ∧ voided (ret.key / 64) f g ∧ g.memoryErrors = f.memoryErrors + 1)
  ∧ ∀ (s : State) (k : TaintReport) (rest : List TaintReport), s.wires.taints = k :: rest →
    ∃ t, exec .taintReport s = .next t ∧ Touches [.rce, .wires] s t ∧ t.wires = { s.wires with taints := rest }
      ∧ (s.rce.state ≠ .streaming ∨ s.rce.inUse ≠ some k.slot → t.rce = s.rce)
      ∧ ∀ f, s.rce.frame = some f →
          (k.key ∉ f.plan → t.rce = s.rce)
            ∧ (s.rce.state = .streaming → s.rce.inUse = some k.slot → k.key ∈ f.plan → ∃ g,
                t.rce = { s.rce with frame := some g } ∧ voided (k.key / 64) f g ∧ g.memoryErrors = f.memoryErrors)

/-- STREAMING ends when no read is left and all data are taken: the increments are formed, the Last-Good slopes are learned and the
record becomes FREE; that the row does nothing until then is the model's choice (log 2) (R70, R102, R103). -/
def Obligations.StreamingEnds : Prop :=
  ∀ (s : State) (f : FrameContext), s.rce.state = .streaming → s.rce.frame = some f →
    let r := f.handed.record
    let x := s.fau.records[r]
    (f.plan ≠ [] ∨ s.wires.tileReturns ≠ [] → exec .streamingEnd s = .next s)
      ∧ (f.plan = [] → s.wires.tileReturns = [] → ∃ t, exec .streamingEnd s = .next t ∧ Touches [.rce, .fau, .wires] s t
        ∧ t.rce = { s.rce with
            state := .concluding
            frame := some { f with
              increments := (List.range (editionInUse s).actuatorCount).map fun a =>
                if a / 64 ∈ f.voidBlocks then none
                else some (max (-2147483647) (min 2147483647 (roundRatio (Store.read 0 f.accumulators a) (2 ^ 39)))) } }
        ∧ (x.state = .dispatched → t.fau.records[r] = {} ∧ (∀ q : Fin 4, q ≠ r → t.fau.records[q] = s.fau.records[q])
            ∧ t.wires = { s.wires with recordsFreed := s.wires.recordsFreed ++ [r] }
            ∧ (Store.rising x.slopes = true → ∀ p, Store.read 0 t.fau.lastGood p =
                match Store.find? x.slopes p with
                | some v => if v = -32768 then Store.read 0 s.fau.lastGood p else v
                | none => Store.read 0 s.fau.lastGood p)))

/-- Rounding to the nearest integer, ties away from zero. The result of an actuator: candidate, probe, slew limit, clamps and saturation
marks; a void actuator has its Last Emitted value, clamped; and every output lies within its group's limits (00, R107 to R110). -/
def Obligations.ActuatorResults : Prop :=
  (∀ (n : Int) (d : Nat), 0 < d →
    2 * (d * roundRatio n d - n).natAbs ≤ d
      ∧ (2 * (d * roundRatio n d - n).natAbs = d → n.natAbs < (d * roundRatio n d).natAbs))
  ∧ (∀ (g : GroupRow) (c le u probe : Int),
    let clamp := fun v : Int => if v < g.low then g.low else if g.high < v then g.high else v
    let raw := roundRatio (g.leak * c + 4 * g.gain * u) 65536
    let o := clamp raw + probe
    let slewed := if g.slew < o - le then le + g.slew else if o - le < -g.slew then le - g.slew else o
    let x := actuatorResult g c le (some u) probe
    let v := actuatorResult g c le none probe
    (x.candidate = some (clamp raw) ∧ x.output = clamp slewed
        ∧ (x.saturated = true ↔ clamp raw ≠ raw ∨ clamp slewed ≠ slewed))
      ∧ (v.candidate = none ∧ v.output = clamp le ∧ v.saturated = false)
      ∧ (g.low ≤ g.high → g.low ≤ x.output ∧ x.output ≤ g.high ∧ g.low ≤ v.output ∧ v.output ≤ g.high))

/-- The probe request of a frame that is not void: the Probe Unit supplies the values of the source in force, an active injection, else
the cycle entry at the cycle position, else none, and records it, and every actuator's result is formed; it is made once (R106 to
R108, R122; Last Emitted is read here, or late at completion, log 12). That the row does nothing for a void frame, or a second time,
is the model's choice (log 2). -/
def Obligations.ProbeSupplied : Prop :=
  ∀ (s : State) (f : FrameContext), s.rce.state = .concluding → s.rce.frame = some f →
    let e := editionInUse s
    let answers := fun (source : ProbeSource) (pattern : List Int) (amplitude : Int) =>
      let value := fun a : Nat => roundRatio (amplitude * pattern.getD a 0) 32768
      ∃ t g, exec .probeRequest s = .next t ∧ Touches [.rce, .pru, .wires] s t
        ∧ t.pru = { s.pru with supply := some { source := source, inForce := true } }
        ∧ t.rce = { s.rce with frame := some g } ∧ g = { f with probe := g.probe, source := source, results := g.results }
        ∧ g.probe = some ((List.range e.actuatorCount).map value)
        ∧ g.results = (List.range e.actuatorCount).map fun a =>
            actuatorResult (e.row a) (Store.read 0 s.rce.integrator a) (Store.read 0 s.cou.lastEmitted a)
              (f.increments.getD a none) (value a)
    (f.handed.void = true ∨ f.probe.isSome = true → exec .probeRequest s = .next s)
      ∧ (f.handed.void = false → f.probe = none → s.wires.probeNotices = [] →
        (∀ i, s.pru.injection = some i → answers .injection i.pattern i.amplitude)
          ∧ (∀ n left x, s.pru.injection = none → s.pru.position = some (n, left) → s.pru.cycle[n]? = some x →
              answers (.cycle n) x.pattern x.amplitude)
          ∧ (s.pru.injection = none → s.pru.cycle = [] → answers .none [] 0))

/-- The completion of a frame (R111, R112): its result by the output state; the commit and the packets of a COMMITTED frame alone; the
notice, the telemetry set, which an idle writer takes at once (R163), the guard report, and then every pending change of the store, in the
order taken (R118); the engine is IDLE and says so (R113). The Last Emitted Vector stays until a packet completes (R147). That the telemetry
dropped count wraps is log 42. -/
def Obligations.FrameCompletes : Prop :=
  ∀ (late : List (Fin 1024)) (s : State) (f : FrameContext), s.rce.state = .concluding → s.rce.frame = some f →
    f.handed.void = true ∨ f.probe.isSome = true → s.wires.guardReports = [] →
    let e := editionInUse s
    let rs := f.results.zipIdx.map fun x => if ∃ a ∈ late, a.val = x.2 then resultOf s e f x.2 else x.1
    let result : FrameResult :=
      if f.handed.void then .void else if s.cou.output = .live then .committed else .heldOpenLoop
    let saturated := (rs.filter ActuatorResult.saturated).length
    ∃ t set, exec (.frameCompletion late) s = .next t
      ∧ (t.rce.state = .idle ∧ t.rce.inUse = none ∧ t.rce.frame = none ∧ t.rce.tileErrors = s.rce.tileErrors
          ∧ t.rce.load = s.rce.load)
      ∧ (t.wires.idleToFau = true ∧ t.wires.idleToRun = true ∧ t.wires.idleToDu = true)
      ∧ t.wires.probeNotices = s.wires.probeNotices ++ [decide (result = .committed)]
      ∧ t.wires.guardReports = [{ saturated := saturated, void := f.handed.void, settings := e.guards }]
      ∧ (result ≠ .committed → t.cou = s.cou)
      ∧ (result = .committed → t.cou = { s.cou with settings := some e.links, links := t.cou.links }
          ∧ ∀ l : Fin 4, t.cou.links[l] = if e.links.map[l].count = 0 then s.cou.links[l] else
              s.cou.links[l].pass
                { kind := .command, number := f.handed.frame, first := e.links.map[l].first
                  values := ((rs.map ActuatorResult.output).drop e.links.map[l].first).take e.links.map[l].count })
      ∧ (∀ a,
          let decided := match rs[a]? with
            | some x => if result = .committed then x.candidate.getD (Store.read 0 s.rce.integrator a)
                else Store.read 0 s.rce.integrator a
            | none => Store.read 0 s.rce.integrator a
          Store.read 0 t.rce.integrator a = f.changes.foldl (fun v c =>
            if c.first ≤ a ∧ a < c.first + c.values.length then c.values.getD (a - c.first) 0 else v) decided)
      ∧ (set.slopeCount = e.slopeCount ∧ set.actuatorCount = e.actuatorCount)
      ∧ (set.handed = f.handed ∧ set.edition = e.number ∧ set.completed = s.time ∧ set.result = result
          ∧ set.output = s.cou.output ∧ set.causes = s.cou.causes ∧ set.saturated = saturated
          ∧ set.memoryErrors = f.memoryErrors ∧ set.source = f.source ∧ set.outputs = rs.map ActuatorResult.output
          ∧ set.residual = (if f.handed.void then none else some f.residual)
          ∧ set.voidActuators = if f.handed.void then e.actuatorCount else
              ((List.range e.actuatorCount).filter fun a => decide (a / 64 ∈ f.voidBlocks)).length)
      ∧ (s.rpu.holding.length < 4 → t.rpu.holding = s.rpu.holding ++ [set] ∧ t.rpu.dropped = s.rpu.dropped)
      ∧ (4 ≤ s.rpu.holding.length → t.rpu.holding = s.rpu.holding ∧ t.rpu.dropped = s.rpu.dropped + 1
          ∧ set.number ∈ t.wires.telemetryWritten)
      ∧ ∀ a, s.run.anchor = some a → s.rpu.writer = .idle → s.rpu.holding = [] → TelemetryTaken a set s t

/-- At the end of a frame the slot in use loses its mark: a CURRENT one stays, a RETAINED one becomes EMPTY, leaves the Range Watch map and
is reported released. A change of the Integrator Store is applied at once, or joins the frame's pending changes while it concludes,
and these are applied at completion, after the commit, in the order taken: of those that reach an actuator the last one stands,
whatever the frame's result (R78, R90, R112, R113, R117 to R119). -/
def Obligations.SlotsAndStoreAtCompletion : Prop :=
  (∀ (late : List (Fin 1024)) (s : State) (f : FrameContext) (i : SlotId), s.rce.state = .concluding → s.rce.frame = some f →
    f.handed.void = true ∨ f.probe.isSome = true → s.rce.inUse = some i →
    ∃ t, exec (.frameCompletion late) s = .next t
      ∧ (∀ k, k ≠ i → slotOf t k = slotOf s k)
      ∧ ((∃ e, slotOf s i = .retained e) → slotOf t i = .empty ∧ t.wires.slotRelease = true
          ∧ t.watch = watchMap t.rce.slotA t.rce.slotB)
      ∧ (¬ (∃ e, slotOf s i = .retained e) → slotOf t i = slotOf s i ∧ t.watch = s.watch
          ∧ t.wires.slotRelease = s.wires.slotRelease))
  ∧ (let written := fun (c : StoreChange) (m : Store Int) (a : Nat) =>
    if c.first ≤ a ∧ a < c.first + c.values.length then c.values.getD (a - c.first) 0 else Store.read 0 m a
  (∀ (cmd : Instr) (s : State) (c : StoreChange) (rest : List StoreChange),
    (cmd = .integratorChange ∧ s.wires.integratorChanges = c :: rest)
      ∨ (cmd = .safeShapeRequest ∧ s.wires.safeRequests = c :: rest) →
    ∃ t, exec cmd s = .next t ∧ Touches [.rce, .wires] s t
      ∧ (cmd = .integratorChange → t.wires = { s.wires with integratorChanges := rest })
      ∧ (cmd = .safeShapeRequest → t.wires = { s.wires with safeRequests := rest })
      ∧ (s.rce.state ≠ .concluding → t.rce = { s.rce with integrator := t.rce.integrator }
          ∧ ∀ a, Store.read 0 t.rce.integrator a = written c s.rce.integrator a)
      ∧ ∀ f, s.rce.state = .concluding → s.rce.frame = some f →
          t.rce = { s.rce with frame := some { f with changes := f.changes ++ [c] } })
  ∧ (∀ (late : List (Fin 1024)) (s : State) (f : FrameContext) (c : StoreChange), s.rce.state = .concluding →
    s.rce.frame = some { f with changes := [c] } → f.handed.void = true →
    ∃ t, exec (.frameCompletion late) s = .next t
      ∧ ∀ a, Store.read 0 t.rce.integrator a = written c s.rce.integrator a)
  ∧ ∀ (late : List (Fin 1024)) (s : State) (f : FrameContext) (before after : List StoreChange) (c : StoreChange),
    s.rce.state = .concluding → s.rce.frame = some f → f.handed.void = true ∨ f.probe.isSome = true →
    f.changes = before ++ c :: after →
    ∃ t, exec (.frameCompletion late) s = .next t
      ∧ ∀ a, c.first ≤ a → a < c.first + c.values.length →
          (∀ d ∈ after, ¬ (d.first ≤ a ∧ a < d.first + d.values.length)) →
          Store.read 0 t.rce.integrator a = c.values.getD (a - c.first) 0)

/-! ### Command output (R130 to R147) -/

/-- A completed command or safe packet: its blocks have been sent and line fill after them, the Last Emitted values, the counts, the
safe-shape request, its own acceptance window, and the head of the waiting list begins; the end of an abort trailer, with at least
one IDLE block after it, begins it too (R119, R135, R143, R144, R147, R180; a run of IDLE blocks is written once, log 29, and what an
IDLE block holds after its type byte is a free value, log 53). -/
def Obligations.PacketsComplete : Prop :=
  (∀ l n, (idleBlock l n).1 = 2 ∧ (idleBlock l n).2.extractLsb' 0 8 = 0x10) ∧
  let begun := fun x : MirrorLink => match x.waitingSafe, x.waitingCommand with
    | some p, _ => { x with tx := .sending p, waitingSafe := none }
    | none, some p => { x with tx := .sending p, waitingCommand := none }
    | none, none => { x with tx := .idle }
  (∀ (l : Fin 4) (s : State) (p : Packet) (cmd : Instr), s.cou.links[l].tx = .sending p →
    (cmd = .commandPacketComplete l ∧ p.kind = .command) ∨ (cmd = .safePacketComplete l ∧ p.kind = .safe) →
    let x := s.cou.links[l]
    let window := .awaiting p.kind p.number (s.time + BitVec.ofNat 64 ((s.cou.settings.map LinkSettings.timeout).getD 0))
    let sent := fun line : List Block => line ++ (wireBlocks p.bytes ++ [idleBlock l line.length])
    let counted := fun c : LinkCounts =>
      if p.kind = .command then { c with commands := c.commands + 1 } else { c with safes := c.safes + 1 }
    ∃ t, exec cmd s = .next t ∧ Touches [.cou, .wires, .attention] s t
      ∧ (∀ a, Store.read 0 t.cou.lastEmitted a = if p.first ≤ a ∧ a < p.first + p.values.length
          then p.values.getD (a - p.first) 0 else Store.read 0 s.cou.lastEmitted a)
      ∧ t.wires = { s.wires with
          linksQuiet := quietNoted s t
          safeRequests := if p.kind = .safe then s.wires.safeRequests ++ [{ first := p.first, values := p.values }]
            else s.wires.safeRequests }
      ∧ t.cou.links[l].window = window ∧ t.cou.links[l].line = sent x.line
      ∧ (x.window = .idle → t.page.attention = s.page.attention
          ∧ t.cou = { s.cou with
              lastEmitted := t.cou.lastEmitted
              links := tweak s.cou.links l fun x => begun
                { x with window := window, counts := counted x.counts, line := sent x.line } })
      ∧ (∀ k n e, x.window = .awaiting k n e →
          let consecutive := if k = .command then min 15 (x.consecutive + 1) else x.consecutive
          let y := { x with counts := (counted x.counts).missed .superseded, consecutive := consecutive }
          let limit := k = .command ∧ missLimit s ≤ consecutive
          (¬ limit → t.page.attention = s.page.attention
              ∧ t.cou = { s.cou with
                  lastEmitted := t.cou.lastEmitted
                  links := tweak s.cou.links l fun _ => begun { y with window := window, line := sent x.line } })
            ∧ (limit → DriverHolds s t
              ∧ t.cou = { s.cou with
                  lastEmitted := t.cou.lastEmitted, links := t.cou.links, output := t.cou.output, causes := t.cou.causes }
              ∧ t.cou.links[l] = begun { y.whenHeld (s.cou.output = .live) with window := window, line := sent x.line }
              ∧ ∀ m : Fin 4, m ≠ l → t.cou.links[m] = s.cou.links[m].whenHeld (s.cou.output = .live))))
  ∧ ∀ (l : Fin 4) (s : State), s.cou.links[l].tx = .trailer →
    let ended := fun x : MirrorLink => begun { x with line := x.line ++ [(2, 0x48), idleBlock l x.line.length] }
    ∃ t, exec (.trailerEnd l) s = .next t ∧ Touches [.cou, .wires] s t
      ∧ t.wires = { s.wires with linksQuiet := quietNoted s t }
      ∧ t.cou = { s.cou with links := tweak s.cou.links l ended }

/-- A mirror link receiver takes a block: a discarded packet and one that is no accept token are bad; a token is accepted, rejected or
stray by the acceptance window. An AWAITING window whose expiry is reached times out; that the row does nothing before is the model's
choice (log 4, log 2) (R145, R146; which packets are no accept token, log 31). -/
def Obligations.AcceptTokens : Prop :=
  (∀ (l : Fin 4) (sync : BitVec 2) (payload : BitVec 64) (s : State),
    let x := s.cou.links[l]
    let y := x.rx.take sync payload
    let becomes := fun (f : MirrorLink → MirrorLink) (t : State) =>
      t.page = s.page ∧ t.cou = { s.cou with links := tweak s.cou.links l fun x => f { x with rx := y.1 } }
    let counted := fun (f : LinkCounts → LinkCounts) (x : MirrorLink) => { x with counts := f x.counts }
    let stray := counted fun c => { c with stray := c.stray + 1 }
    let bad := counted fun c => { c with bad := c.bad + 1 }
    (s.run.initialising = true → exec (.mirrorBlock l sync payload) s = .next s)
      ∧ (s.run.initialising = false → ∃ t, exec (.mirrorBlock l sync payload) s = .next t
        ∧ Touches [.cou, .wires, .attention] s t ∧ t.cou.links[l].rx = y.1
        ∧ (.discarded ∈ y.2 → becomes bad t)
        ∧ (.discarded ∉ y.2 → (∀ bs, .complete bs ∉ y.2) → becomes id t)
        ∧ ∀ bs, y.2 = [.complete bs] →
          (parseToken bs = none → becomes bad t)
            ∧ ∀ k, parseToken bs = some k →
              (x.window = .idle → becomes stray t)
                ∧ ∀ kind number e, x.window = .awaiting kind number e →
                  (kind ≠ k.kind ∨ number ≠ k.number → becomes stray t)
                    ∧ (kind = k.kind → number = k.number → k.ok = true →
                        becomes (fun x => { x with
                          window := .idle, consecutive := if kind = .command then 0 else x.consecutive
                          counts := { x.counts with accepted := x.counts.accepted + 1 } }) t)
                    ∧ (kind = k.kind → number = k.number → k.ok = false → Missed l kind .rejected s t)))
  ∧ ∀ (l : Fin 4) (s : State) (kind : PacketKind) (number : BitVec 16) (e : Time),
    s.cou.links[l].window = .awaiting kind number e →
    (Time.reached s.time e = false → exec (.acceptTimeout l) s = .next s)
      ∧ (Time.reached s.time e = true → ∃ t, exec (.acceptTimeout l) s = .next t ∧ Touches [.cou, .wires, .attention] s t
        ∧ t.cou.links[l].rx = s.cou.links[l].rx ∧ Missed l kind .timeout s t)

/-- The interlock: an assertion taken in LIVE or HELD holds the output, cuts off the command packets and applies the hold action; the
release interval begins, is interrupted, and ends in a release, which lets go of a hold or leaves it to the host (R132 to R134, R136,
R180). That the release row does nothing before the interval has passed is the model's choice (log 4, log 2); how much of a packet
is sent before it is cut off is a free value (log 39). -/
def Obligations.InterlockEvents : Prop :=
  (∀ s : State, ∃ t, exec .interlockAssertion s = .next t ∧ Touches [.cou, .wires, .attention] s t
    ∧ t.cou.level = .asserted ∧ t.cou.input = .asserted ∧ t.cou.release = none
    ∧ (s.cou.level = .asserted ∨ s.cou.output = .quiet → t.page.attention = s.page.attention
        ∧ t.cou = { s.cou with level := .asserted, input := .asserted, release := none })
    ∧ (s.cou.level = .released → s.cou.output ≠ .quiet → CauseJoined .interlock s t
        ∧ (∀ c, c ≠ .held → attentionHas c t = attentionHas c s)
        ∧ t.wires = { s.wires with linksQuiet := quietNoted s t }
        ∧ t.cou = { s.cou with
            level := .asserted, input := .asserted, release := none
            output := .held, causes := s.cou.causes.add .interlock, links := t.cou.links
            safeSerial := if s.cou.action = .safe then s.cou.safeSerial + 1 else s.cou.safeSerial }
        ∧ ∀ l : Fin 4,
          let x := s.cou.links[l]
          let y := t.cou.links[l]
          let cut := ∃ p, x.tx = .sending p ∧ p.kind = .command
          y = { x with
              waitingCommand := none, tx := y.tx, line := y.line, cuts := y.cuts, waitingSafe := y.waitingSafe
              counts := { x.counts with
                dropped := if x.waitingCommand.isSome then x.counts.dropped + 1 else x.counts.dropped
                aborted := y.counts.aborted } }
            ∧ (cut → y.tx = .trailer ∧ y.counts.aborted = x.counts.aborted + 1)
            ∧ (∀ p, x.tx = .sending p → p.kind = .command → CutOff p x y)
            ∧ (¬ cut → y.counts.aborted = x.counts.aborted ∧ y.line = x.line ∧ y.cuts = x.cuts)
            ∧ (s.cou.action = .freeze ∨ s.cou.settings = none ∨ (∃ g, s.cou.settings = some g ∧ g.map[l].count = 0) →
                y.waitingSafe = x.waitingSafe ∧ (¬ cut → y.tx = x.tx))
            ∧ ∀ e settings, s.cou.action = .safe → s.cou.settings = some settings → settings.map[l] = e → e.count ≠ 0 →
              let packet := { kind := .safe, number := s.cou.safeSerial + 1, first := e.first
                              values := (List.range e.count).map fun n => Store.read 0 s.cou.safeShape (e.first + n) }
              (x.tx = .idle → y.tx = .sending packet ∧ y.waitingSafe = x.waitingSafe)
                ∧ (x.tx ≠ .idle → y.waitingSafe = some packet ∧ (¬ cut → y.tx = x.tx))))
  ∧ (∀ s : State, ∃ t, exec .interlockInputsReleased s = .next t ∧ Touches [.cou] s t
      ∧ t.cou = { s.cou with
          input := .released
          release := if s.cou.level = .asserted ∧ s.cou.release = none ∧ s.run.initialising = false
            then some (s.time + 100) else s.cou.release })
  ∧ (∀ (s : State) (e : Time), s.cou.release = some e → ∃ t, exec .interlockReleaseInterrupted s = .next t ∧ Touches [.cou] s t
      ∧ t.cou = { s.cou with input := .asserted, release := none })
  ∧ ∀ (s : State) (e : Time), s.cou.release = some e →
    let left := { s.cou.causes with interlock := false }
    (Time.reached s.time e = false → exec .interlockRelease s = .next s)
      ∧ (Time.reached s.time e = true → ∃ t, exec .interlockRelease s = .next t ∧ Touches [.cou] s t
        ∧ (s.cou.output ≠ .held → t.cou = { s.cou with level := .released, release := none })
        ∧ (s.cou.output = .held → s.cou.autoResume = false → t.cou =
            { s.cou with level := .released, release := none, causes := { left with directive := true } })
        ∧ (s.cou.output = .held → s.cou.autoResume = true → t.cou = { s.cou with
            level := .released, release := none, causes := left
            output := if left.guardSaturation ∨ left.guardVoid ∨ left.driver ∨ left.directive then .held else .live }))

/-- A guard report moves the two runs and adds their causes; in QUIET it is only taken. A LIVE output that a cause holds discards the command
packets that wait, each counted as dropped; all else of the unit stays (R130, R140, R141, R143, R148). A count within the limit sets the
saturation run to 0: that of a void frame is 0 (R110), and none exceeds 1,024. -/
def Obligations.GuardReports : Prop :=
  ∀ (s : State) (g : GuardReport) (rest : List GuardReport), s.wires.guardReports = g :: rest →
    let sat := if g.settings.saturationLimit < g.saturated then min 255 (s.cou.saturationRun + 1) else 0
    let void := if g.void then min 255 (s.cou.voidRun + 1) else 0
    let satHolds := g.settings.saturationFrames ≤ sat
    let voidHolds := g.settings.voidFrames ≤ void
    let holds := satHolds ∨ voidHolds
    ∃ t, exec .guardReport s = .next t ∧ Touches [.cou, .wires, .attention] s t
      ∧ t.wires = { s.wires with guardReports := rest, linksQuiet := quietNoted s t }
      ∧ (s.cou.output = .quiet → t.cou = s.cou ∧ t.page.attention = s.page.attention)
      ∧ (s.cou.output ≠ .quiet → t.cou = { s.cou with
            saturationRun := sat, voidRun := void
            output := if holds then .held else s.cou.output
            causes := { s.cou.causes with
              guardSaturation := s.cou.causes.guardSaturation || decide satHolds
              guardVoid := s.cou.causes.guardVoid || decide voidHolds }
            links := s.cou.links.map (MirrorLink.whenHeld (s.cou.output = .live ∧ holds)) }
          ∧ (g.saturated ≤ g.settings.saturationLimit → t.cou.saturationRun = 0)
          ∧ (attentionHas .held t = true ↔ attentionHas .held s = true ∨ (s.cou.output = .live ∧ holds))
          ∧ ∀ c, c ≠ .held → attentionHas c t = attentionHas c s)

/-! ### The Directive Unit (R150 to R160) -/

/-- The scan timer is re-armed from its expiry and begins a scan at a RESTING unit. What a slot that has been read brings: a torn read,
the eighth of which ends the ticket; a ticket that is not the expected one; the two checks common to all kinds; or a directive in hand
(R151 to R153, R155). That an expiry before its time does nothing is the model's choice (log 4), and so is detail 0 of the REFUSED_FIELD
of an excessive length (log 44). -/
def Obligations.ScanAndSlots : Prop :=
  (∀ (s : State) (a : Anchor) (e : Time), s.du.scanTimer = some e → s.run.anchor = some a →
    (Time.reached s.time e = false → exec .scanTimerExpiry s = .next s)
      ∧ (Time.reached s.time e = true → ∃ t, exec .scanTimerExpiry s = .next t ∧ Touches [.du, .duQueue] s t
        ∧ (s.du.activity ≠ .resting → t.arb.du = s.arb.du
            ∧ t.du = { s.du with scanTimer := some (e + BitVec.ofNat 64 a.interval) })
        ∧ ∀ k, s.du.activity = .resting → s.du.expected = some k → t.arb.du = s.arb.du ++ readAccesses .slot (slotOffset a k) 128
          ∧ t.du = { s.du with
              scanTimer := some (e + BitVec.ofNat 64 a.interval), activity := .reading
              job := some (newJob .slot (slotOffset a k) 128) }))
  ∧ ∀ (s : State) (a : Anchor) (t : Ticket) (j : ReadJob), s.run.anchor = some a → s.du.expected = some t → s.du.hand = none →
    s.du.job = some j → j.purpose = .slot → j.left = 0 →
    let ticket : Ticket := BitVec.ofNat 32 (leNat (j.bytes.take 4))
    let kind := leNat ((j.bytes.drop 4).take 2)
    let length := leNat ((j.bytes.drop 6).take 2)
    let code := (crc32 (j.bytes.take 8 ++ (j.bytes.drop 16).take 108)).toNat
    let torn := j.failed.isSome = true ∨ (ticket = t ∧ leNat ((j.bytes.drop 124).take 4) ≠ code)
    let errors := s.du.tornMemory + j.failed.isSome.toNat
    let took := { s.du with
      takenThrough := some t, expected := some (t + 1), unsettled := s.du.unsettled ++ [t], torn := 0, tornMemory := 0
      settledThrough := some ((s.du.unsettled ++ [t]).headD t - 1) }
    let refused := fun (code : Nat) (detail : BitVec 32) (u : State) =>
      u.du = { took with activity := .reading, job := some (newJob .slot (slotOffset a (t + 1)) 128) }
        ∧ u.arb.du = s.arb.du ++ writeAccesses (.outcome [t]) (slotOffset a t + 8) (outcomeBytes code detail)
            ++ readAccesses .slot (slotOffset a (t + 1)) 128
    ∃ u, exec .slotReadReturn s = .next u ∧ Touches [.du, .duQueue, .attention] s u
      ∧ (j.failed.isSome = true → attentionHas .memoryError u = true)
      ∧ (j.failed.isSome = false → u.page.attention = s.page.attention)
      ∧ (torn → s.du.torn < 7 → u.arb.du = s.arb.du
          ∧ u.du = { s.du with activity := .resting, job := none, torn := s.du.torn + 1, tornMemory := errors })
      ∧ (torn → 7 ≤ s.du.torn → refused 12 (BitVec.ofNat 32 errors) u)
      ∧ (¬ torn → ticket ≠ t → u.arb.du = s.arb.du
          ∧ u.du = { s.du with activity := .resting, job := none, torn := 0, tornMemory := 0 })
      ∧ (¬ torn → ticket = t → kind < 1 ∨ 17 < kind → refused 3 (BitVec.ofNat 32 kind) u)
      ∧ (¬ torn → ticket = t → 1 ≤ kind → kind ≤ 17 → 108 < length → refused 4 0 u)
      ∧ (¬ torn → ticket = t → 1 ≤ kind → kind ≤ 17 → length ≤ 108 → u.arb.du = s.arb.du ∧ u.du = { took with
          activity := .executing, job := none
          hand := some { ticket := t, kind := kind, length := length, params := (j.bytes.drop 16).take 108, phase := .taken } })

/-- A directive whose parameter length is not its kind's, or whose reserved bytes are not zero, is refused with REFUSED_FIELD, whatever
its kind, and changes nothing else (R18 to R21, R32, R38, R81, R86, R87, R94, R117, R123, R126, R137 to R139, R159, R168). That its detail
is 0 is the model's choice where the kind's rule states none (log 44). -/
def Obligations.MalformedDirectives : Prop :=
  ∀ (s : State) (a : Anchor) (next : Ticket) (h : Hand) (cmd : Instr) (kind length reserved count : Nat),
    (cmd, kind, length, reserved, count) ∈
      [(.adoptEdition, 1, 8, 4, 4), (.amendGroups, 2, 12, 8, 4), (.repointTileSet, 3, 16, 12, 4), (.repointTileRemove, 3, 16, 12, 4),
        (.retireRange, 4, 12, 8, 4), (.setStream, 5, 20, 14, 6), (.setAsideFlag, 5, 20, 14, 6), (.enableStreams, 6, 4, 2, 2),
        (.disableStreams, 7, 4, 2, 2), (.setPace, 8, 12, 8, 4), (.loadSafeShape, 9, 8, 6, 2), (.resumeOutput, 10, 4, 0, 4),
        (.holdOutput, 11, 4, 0, 4), (.setProbeCycle, 12, 8, 5, 1), (.injectProbe, 13, 12, 10, 2),
        (.injectProbeCancel, 13, 12, 10, 2), (.resetIntegratorZero, 14, 8, 1, 3), (.resetIntegratorVector, 14, 8, 1, 3),
        (.clearStreamErrors, 15, 4, 3, 1), (.drain, 16, 4, 0, 4), (.setTelemetry, 17, 4, 2, 2)] →
    InHand s a next h kind → ¬ h.Fits length reserved count →
    (kind = 3 → (cmd = .repointTileRemove ↔ field h.params 4 1 = 2)) → (kind = 5 → (cmd = .setAsideFlag ↔ field h.params 0 1 = 255)) →
    (kind = 13 → (cmd = .injectProbeCancel ↔ field h.params 8 2 = 0)) →
    (kind = 14 → (cmd = .resetIntegratorZero ↔ field h.params 0 1 = 0)) →
    ∃ t, exec cmd s = .next t ∧ Touches [.du, .duQueue] s t ∧ Ended a next h 4 0 s t

/-- The stream directives and SET_PACE, field by field (R18 to R21, R32, R36, R38, R39, 12.3). Where SET_ASIDE_FLAG fails both of R19's checks,
the order of the two is the model's choice (log 41), and so are the details 0 of these outcomes (log 44). -/
def Obligations.StreamDirectives : Prop :=
  (∀ (s : State) (a : Anchor) (next : Ticket) (h : Hand), InHand s a next h 5 → h.Fits 20 14 6 → field h.params 0 1 ≠ 255 →
    let c : StreamConfig :=
      { link := field h.params 1 1, tag := field h.params 2 2, base := field h.params 4 2, count := field h.params 6 2
        segments := field h.params 8 1, substitution := if field h.params 9 1 = 1 then .last else .zero
        mandatory := decide (field h.params 10 1 = 1), cutTimeout := field h.params 11 1, allowance := field h.params 12 2 }
    let outside := c.tag < 1 ∨ 4095 < c.tag ∨ 7 < c.link ∨ 16383 < c.base ∨ c.count < 1 ∨ 16384 < c.count ∨ c.segments < 1
      ∨ 64 < c.segments ∨ 1 < field h.params 9 1 ∨ 1 < field h.params 10 1 ∨ 16384 < c.allowance ∨ c.cutTimeout < 1
      ∨ 16384 < c.base + c.count
    let clash := fun i : Nat => ∃ j : Fin 16, j.val ≠ i ∧ s.sau.streams[j].enabled = true ∧ Clashes c s.sau.streams[j].config
    ∃ t, exec .setStream s = .next t ∧ Touches [.du, .duQueue, .sau] s t
      ∧ (15 < field h.params 0 1 → t.sau = s.sau ∧ Ended a next h 5 0 s t)
      ∧ ∀ i : Fin 16, field h.params 0 1 = i.val →
        let busy := s.run.state = .running ∧ s.sau.streams[i].enabled = true
        (busy → t.sau = s.sau ∧ Ended a next h 6 0 s t)
          ∧ (¬ busy → outside ∨ clash i.val → t.sau = s.sau ∧ Ended a next h 5 0 s t)
          ∧ (¬ busy → ¬ outside → ¬ clash i.val → StreamIs i { s.sau.streams[i] with config := c } s t
              ∧ Ended a next h 2 0 s t))
  ∧ (∀ (s : State) (a : Anchor) (next : Ticket) (h : Hand), InHand s a next h 5 → h.Fits 20 14 6 → field h.params 0 1 = 255 →
    let zero := ∀ k, (2 ≤ k ∧ k < 9) ∨ (10 ≤ k ∧ k < 14) → h.params.getD k 0 = 0
    ∃ t, exec .setAsideFlag s = .next t ∧ Touches [.du, .duQueue, .sau] s t
      ∧ (¬ zero → t.sau = s.sau ∧ Ended a next h 4 0 s t)
      ∧ (zero → 7 < field h.params 1 1 ∨ 1 < field h.params 9 1 → t.sau = s.sau ∧ Ended a next h 5 0 s t)
      ∧ ∀ l : Fin 8, zero → field h.params 1 1 = l.val → field h.params 9 1 ≤ 1 → Ended a next h 2 0 s t
          ∧ t.sau = { s.sau with asideFlags := s.sau.asideFlags.set l.val (decide (field h.params 9 1 = 1)) })
  ∧ (∀ (s : State) (a : Anchor) (next : Ticket) (h : Hand), InHand s a next h 6 → h.Fits 4 2 2 →
    let inMask := fun i : Fin 16 => (field h.params 0 2).testBit i.val = true
    let after := fun i : Fin 16 => s.sau.streams[i].enabled = true ∨ inMask i
    let unset := ∃ i, inMask i ∧ s.sau.streams[i].config.count = 0
    let clash := ∃ i j, i ≠ j ∧ after i ∧ after j ∧ Clashes s.sau.streams[i].config s.sau.streams[j].config
    ∃ t, exec .enableStreams s = .next t ∧ Touches [.du, .duQueue, .sau] s t
      ∧ (unset → t.sau = s.sau ∧ Ended a next h 6 0 s t) ∧ (¬ unset → clash → t.sau = s.sau ∧ Ended a next h 5 0 s t)
      ∧ (¬ unset → ¬ clash → Ended a next h 2 0 s t ∧ t.sau = { s.sau with streams := t.sau.streams } ∧ ∀ i : Fin 16,
          let x := s.sau.streams[i]
          let y := t.sau.streams[i]
          let entered : StreamState := if s.run.state = .running then .seeking else .standby
          (¬ inMask i ∨ x.enabled = true → y = x)
            ∧ (inMask i → x.enabled = false → y =
                { x with
                  enabled := true, state := entered, misinserts := 0
                  changed := if x.state = entered then x.changed else s.time
                  stay := if x.state = entered then x.stay else x.stay + 1
                  timer := if s.run.state = .running then some (s.time + BitVec.ofNat 64 (1000 * x.config.cutTimeout))
                    else none })))
  ∧ (∀ (s : State) (a : Anchor) (next : Ticket) (h : Hand), InHand s a next h 7 → h.Fits 4 2 2 →
    let inMask := fun i : Fin 16 => (field h.params 0 2).testBit i.val = true
    let exits := (List.finRange 16).filter fun i : Fin 16 =>
      decide (inMask i ∧ s.sau.streams[i].state = .locked ∧ s.run.state = .running)
    ∃ t, exec .disableStreams s = .next t ∧ Touches [.du, .duQueue, .sau, .wires] s t ∧ Ended a next h 2 0 s t
      ∧ t.sau = { s.sau with streams := t.sau.streams }
      ∧ (∀ i : Fin 16, ¬ inMask i → t.sau.streams[i] = s.sau.streams[i])
      ∧ (∀ i : Fin 16, inMask i → t.sau.streams[i] =
          { s.sau.streams[i] with
            enabled := false, state := .disabled, misinserts := 0, timer := none
            changed := if s.sau.streams[i].state = .disabled then s.sau.streams[i].changed else s.time
            stay := if s.sau.streams[i].state = .disabled then s.sau.streams[i].stay else s.sau.streams[i].stay + 1 })
      ∧ t.wires = { s.wires with lockedExits := s.wires.lockedExits ++ exits })
  ∧ (∀ (s : State) (a : Anchor) (next : Ticket) (h : Hand), InHand s a next h 15 → h.Fits 4 3 1 →
    ∃ t, exec .clearStreamErrors s = .next t ∧ Touches [.du, .duQueue, .sau, .ports] s t ∧ Ended a next h 2 0 s t
      ∧ StreamReportOwed s t
      ∧ t.sau = { s.sau with streams := t.sau.streams }
      ∧ (∀ i : Fin 16, t.sau.streams[i] = if (field h.params 0 2).testBit i.val then
          { s.sau.streams[i] with counters := .replicate 11 0 } else s.sau.streams[i])
      ∧ ∀ l : Fin 8, t.ports[l] = if (field h.params 2 1).testBit l.val then
          { s.ports[l] with crcErrors := 0, codingErrors := 0, oversize := 0, foreign := 0 } else s.ports[l])
  ∧ ∀ (s : State) (a : Anchor) (next : Ticket) (h : Hand), InHand s a next h 8 → h.Fits 12 8 4 →
    let period := field h.params 2 2
    let margin := field h.params 4 2
    let deadline := field h.params 6 2
    let outside := 15 < field h.params 0 1 ∨ period < 50 ∨ 20000 < period ∨ margin < 1 ∨ 1000 < margin ∨ deadline < 10
      ∨ 5000 < deadline
    let differs := s.run.state = .running
      ∧ (s.fck.stream.val ≠ field h.params 0 1 ∨ s.fck.period ≠ period ∨ s.fck.margin ≠ margin)
    ∃ t, exec .setPace s = .next t ∧ Touches [.du, .duQueue, .fck] s t
      ∧ (h.params.getD 1 0 ≠ 0 → t.fck = s.fck ∧ Ended a next h 4 0 s t)
      ∧ (h.params.getD 1 0 = 0 → outside → t.fck = s.fck ∧ Ended a next h 5 0 s t)
      ∧ (h.params.getD 1 0 = 0 → ¬ outside → differs → t.fck = s.fck ∧ Ended a next h 6 0 s t)
      ∧ (h.params.getD 1 0 = 0 → ¬ outside → ¬ differs → Ended a next h 2 0 s t ∧ t.fck =
          { s.fck with
            stream := Fin.ofNat 16 (field h.params 0 1), period := period, margin := margin, deadline := deadline
            configured := true })

/-- RESUME_OUTPUT, HOLD_OUTPUT and SET_TELEMETRY (R138, R139, R168). The details 0 of their refusals and of HOLD_OUTPUT are the model's
choice (log 44). -/
def Obligations.OutputDirectives : Prop :=
  (∀ (s : State) (a : Anchor) (next : Ticket) (h : Hand), InHand s a next h 10 → h.Fits 4 0 4 →
    let refused := s.run.state ≠ .running ∨ s.cou.level = .asserted
    ∃ t, exec .resumeOutput s = .next t ∧ Touches [.du, .duQueue, .cou] s t
      ∧ (refused → t.cou = s.cou ∧ Ended a next h 6 0 s t)
      ∧ (¬ refused → Ended a next h 2 (BitVec.ofNat 32 s.cou.causes.byte) s t
          ∧ t.cou = { s.cou with
              output := .live, causes := {}, saturationRun := 0, voidRun := 0
              links := s.cou.links.map fun l => { l with consecutive := 0 } }))
  ∧ (∀ (s : State) (a : Anchor) (next : Ticket) (h : Hand), InHand s a next h 11 → h.Fits 4 0 4 →
    ∃ t, exec .holdOutput s = .next t ∧ Touches [.du, .duQueue, .cou, .wires, .attention] s t
      ∧ (s.run.state ≠ .running → t.cou = s.cou ∧ t.page.attention = s.page.attention ∧ Ended a next h 6 0 s t)
      ∧ (s.run.state = .running → Ended a next h 2 0 s t ∧ CauseJoined .directive s t
          ∧ (∀ c, c ≠ .held → attentionHas c t = attentionHas c s)
          ∧ t.wires = { s.wires with linksQuiet := quietNoted s t }
          ∧ (s.cou.output = .quiet → t.cou = s.cou)
          ∧ (s.cou.output ≠ .quiet → t.cou = { s.cou with
              output := .held, causes := s.cou.causes.add .directive
              links := s.cou.links.map (MirrorLink.whenHeld (s.cou.output = .live)) })))
  ∧ ∀ (s : State) (a : Anchor) (next : Ticket) (h : Hand), InHand s a next h 17 → h.Fits 4 2 2 →
    ∃ t, exec .setTelemetry s = .next t ∧ Touches [.du, .duQueue] s t
      ∧ Ended a next h 2 (s.rpu.decimation.setWidth 32) s t
      ∧ t.rpu.decimation = BitVec.ofNat 16 (field h.params 0 2) ∧ t.rpu.nextSnapshot = s.rpu.nextSnapshot
      ∧ StatusOwed s t ∧ (s.rpu.writer ≠ .idle ∨ s.rpu.holding = [] → t.rpu.decimationCounter = 0)

/-- ADOPT_EDITION, AMEND_GROUPS and REPOINT_TILE: refused, waiting for a free slot, begun, or switched at once (R79, R81, R84 to R88,
R93). -/
def Obligations.AdoptionDirectives : Prop :=
  (∀ (s : State) (a : Anchor) (next : Ticket) (h : Hand), InHand s a next h 1 → h.Fits 8 4 4 →
    let bad := BadArea s (field h.params 0 4) 256
    ∃ t, exec .adoptEdition s = .next t ∧ Touches [.du, .duQueue, .rce] s t
      ∧ (bad → t.rce = s.rce ∧ Ended a next h 5 0 s t)
      ∧ (¬ bad → (∀ i, slotOf s i ≠ .empty) → t.rce = s.rce ∧ Waits .needsSlot h s t)
      ∧ ∀ i, ¬ bad → freeSlot s = some i → AdoptBegun h i s t)
  ∧ (∀ (s : State) (a : Anchor) (next : Ticket) (h : Hand), InHand s a next h 2 → h.Fits 12 8 4 →
    let number := field h.params 0 4
    let bad := number = 0 ∨ BadArea s (field h.params 4 4) 192
    ∃ t, exec .amendGroups s = .next t ∧ Touches [.du, .duQueue, .rce] s t
      ∧ (bad → t.rce = s.rce ∧ Ended a next h 5 0 s t)
      ∧ (¬ bad → currentSlot s = none → t.rce = s.rce ∧ Ended a next h 6 0 s t)
      ∧ ∀ c e, ¬ bad → currentSlot s = some (c, e) →
          ((∀ i, slotOf s i ≠ .empty) → t.rce = s.rce ∧ Waits .needsSlot h s t)
            ∧ ∀ i, freeSlot s = some i → AmendBegun h i e s t)
  ∧ ∀ (s : State) (a : Anchor) (next : Ticket) (h : Hand), InHand s a next h 3 → h.Fits 16 12 4 →
    let number := field h.params 0 4
    let action := field h.params 4 1
    let row := field h.params 5 1
    let column := field h.params 6 1
    let exponent := signed 8 (field h.params 7 1)
    let address := field h.params 8 4
    let outside := number = 0 ∨ (action ≠ 1 ∧ action ≠ 2) ∨ 63 < row ∨ 15 < column
    let badTile := exponent < -24 ∨ 8 < exponent ∨ address % 32768 ≠ 0 ∨ BadArea s address 32768
    (action ≠ 2 → ∃ t, exec .repointTileSet s = .next t ∧ Touches [.du, .duQueue, .rce, .watch] s t
      ∧ (outside ∨ badTile → t.rce = s.rce ∧ t.watch = s.watch ∧ Ended a next h 5 0 s t)
      ∧ (¬ (outside ∨ badTile) → currentSlot s = none → t.rce = s.rce ∧ t.watch = s.watch ∧ Ended a next h 6 0 s t)
      ∧ ∀ c e, ¬ (outside ∨ badTile) → currentSlot s = some (c, e) →
          ((∀ i, slotOf s i ≠ .empty) → t.rce = s.rce ∧ t.watch = s.watch ∧ Waits .needsSlot h s t)
            ∧ ∀ i, freeSlot s = some i → TileSet a next h i e s t)
      ∧ (action = 2 → ∃ t, exec .repointTileRemove s = .next t ∧ Touches [.du, .duQueue, .rce, .watch] s t
        ∧ ((∃ k, 7 ≤ k ∧ k < 12 ∧ h.params.getD k 0 ≠ 0) → t.rce = s.rce ∧ t.watch = s.watch ∧ Ended a next h 4 0 s t)
        ∧ ((∀ k, 7 ≤ k → k < 12 → h.params.getD k 0 = 0) →
          (outside → t.rce = s.rce ∧ t.watch = s.watch ∧ Ended a next h 5 0 s t)
            ∧ (¬ outside → currentSlot s = none → t.rce = s.rce ∧ t.watch = s.watch ∧ Ended a next h 6 0 s t)
            ∧ ∀ c e, ¬ outside → currentSlot s = some (c, e) →
              ((∀ i, slotOf s i ≠ .empty) → t.rce = s.rce ∧ t.watch = s.watch ∧ Waits .needsSlot h s t)
                ∧ ∀ i, freeSlot s = some i → TileRemoved a next h i e s t))

/-- The Edition Record and the group table as they are read, field by field (12.4); which of checks 1 to 7 of R83 fails first, and with
which index (that check 6 names the higher of two entries that overlap is the model's reading, log 20, and what check 4 asks of the address of
a tile list of 0 entries its choice, log 46); and the reads of a load and of an AMEND_GROUPS, each with its checks, to the switch or the
failure (R82 to R86, R93). That the reference vector is read before the group map is its choice too (log 47). -/
def Obligations.EditionLoads : Prop :=
  (∀ (slot : SlotId) (bs : List Byte),
    let at' := fun offset n : Nat => leNat ((bs.drop offset).take n)
    let e := parseEdition bs
    let l := parseLoad slot bs
    (e.number = BitVec.ofNat 32 (at' 0 4) ∧ e.slopeCount = at' 4 2 ∧ e.actuatorCount = at' 6 2 ∧ e.directory = []
      ∧ e.reference = [] ∧ e.groupMap = [])
    ∧ (l.slot = slot ∧ l.tileList = at' 8 4 ∧ l.tileCount = at' 12 2 ∧ l.referenceAt = at' 16 4 ∧ l.groupMapAt = at' 20 4)
    ∧ (e.guards.saturationLimit = at' 24 2 ∧ e.guards.saturationFrames = at' 26 1 ∧ e.guards.voidFrames = at' 27 1
      ∧ e.links.timeout = at' 28 2 ∧ e.links.missLimit = at' 30 1)
    ∧ (∀ n : Fin 4, e.links.map[n].first = at' (32 + 4 * n) 2 ∧ e.links.map[n].count = at' (34 + 4 * n) 2)
    ∧ e.groups = parseGroups (bs.drop 48)
    ∧ ∀ g : Fin 16, (parseGroups bs)[g] =
        { gain := signed 16 (at' (12 * g) 2), leak := at' (12 * g + 2) 4, low := signed 16 (at' (12 * g + 6) 2)
          high := signed 16 (at' (12 * g + 8) 2), slew := at' (12 * g + 10) 2 })
  ∧ (∀ (s : State) (e : Edition) (l : Load),
    (recordCheck s e l = none ↔ ∀ check index, ¬ RecordFails s e l check index)
      ∧ ∀ check index, recordCheck s e l = some (check, index) ↔ RecordFails s e l check index
          ∧ ∀ c k, c < check ∨ (c = check ∧ k < index) → ¬ RecordFails s e l c k)
  ∧ ∀ (s : State) (a : Anchor) (next : Ticket) (h : Hand) (j : ReadJob) (l : Load) (e : Edition),
    Working s a next h .load j → s.rce.load = some l → slotOf s l.slot = .loading e →
    let shown := ((currentSlot s).map fun x => x.2.number).getD 0
    let fails := fun (check index : Nat) (t : State) =>
      LoadFailed l.slot s t ∧ Ended a next h 10 (checkDetail check index) s t
    let goesOn := fun (l' : Load) (e' : Edition) (address size : Nat) (t : State) =>
      slotOf t l.slot = .loading e' ∧ (∀ k, k ≠ l.slot → slotOf t k = slotOf s k) ∧ t.watch = s.watch ∧ t.rce.load = some l'
        ∧ EngineKept s t ∧ ReadsOn .load address size s t
    let vectors := fun (l' : Load) (e' : Edition) (n : Nat) (t : State) =>
      (n < l'.tileCount → goesOn { l' with phase := .tile n } e' (l'.tileList + 16 * n) 16 t)
        ∧ (l'.tileCount ≤ n → goesOn { l' with phase := .reference } e' l'.referenceAt (2 * e'.slopeCount) t)
    ∃ t, exec .editionLoadReadDone s = .next t ∧ Touches [.du, .duQueue, .rce, .watch, .attention] s t
      ∧ (∀ offset, j.failed = some offset → attentionHas .memoryError t = true ∧ LoadFailed l.slot s t
          ∧ Ended a next h 11 (BitVec.ofNat 32 offset) s t)
      ∧ (j.failed = none → t.page.attention = s.page.attention)
      ∧ (j.failed = none → l.phase = .record →
          (∀ check index, recordCheck s (parseEdition j.bytes) (parseLoad l.slot j.bytes) = some (check, index) →
              fails check index t)
            ∧ (recordCheck s (parseEdition j.bytes) (parseLoad l.slot j.bytes) = none →
              vectors (parseLoad l.slot j.bytes) (parseEdition j.bytes) 0 t))
      ∧ (∀ n, j.failed = none → l.phase = .tile n →
          let row := field j.bytes 0 1
          let column := field j.bytes 1 1
          let exponent := signed 8 (field j.bytes 2 1)
          let address := field j.bytes 4 4
          let check8 := 63 < row ∨ e.slopeCount ≤ 256 * row ∨ 15 < column ∨ e.actuatorCount ≤ 64 * column ∨ exponent < -24
            ∨ 8 < exponent
          let check9 := address % 32768 ≠ 0 ∨ BadArea s address 32768
          let check10 := Store.find? e.directory (64 * column + row) ≠ none
          (check8 → fails 8 n t) ∧ (¬ check8 → check9 → fails 9 n t) ∧ (¬ check8 → ¬ check9 → check10 → fails 10 n t)
            ∧ (∀ k, ¬ check8 → ¬ check9 → ¬ check10 → retiring s address = some k → LoadFailed l.slot s t
              ∧ Ended a next h 8 k s t)
            ∧ (¬ check8 → ¬ check9 → ¬ check10 → retiring s address = none →
              vectors l { e with directory := Store.insert e.directory (64 * column + row)
                                  { address := address, exponent := exponent, taint := false } } (n + 1) t))
      ∧ (j.failed = none → l.phase = .reference → goesOn { l with phase := .groupMap }
          { e with reference := int16s e.slopeCount j.bytes } l.groupMapAt e.actuatorCount t)
      ∧ (j.failed = none → l.phase = .groupMap →
          (∀ n, (j.bytes.map BitVec.toNat).findIdx? (fun g => 15 < g) = some n → fails 12 n t)
            ∧ ((∀ b ∈ j.bytes, b.toNat ≤ 15) → Ended a next h 2 shown s t
              ∧ Switched l.slot { e with groupMap := j.bytes.map BitVec.toNat } s t))
      ∧ (j.failed = none → l.phase = .groupTable →
          let groups := parseGroups j.bytes
          (∀ g : Fin 16, ¬ groups[g].InRange → (∀ k, k < g → groups[k].InRange) → fails 5 g t)
            ∧ ∀ c old, (∀ g : Fin 16, groups[g].InRange) → currentSlot s = some (c, old) → Ended a next h 2 shown s t
              ∧ Switched l.slot (carryTaints old { e with groups := groups }) s t)

/-- RETIRE_RANGE and DRAIN are done at once, refused, deferred or wait for room; their ends, and those the Probe Unit reports, take
their entries off the Deferred List. The room is given to a directive that waits for it, which is judged again, and a free slot to an
adoption that waits for one (R79, R94, R95, R123, R157 to R159). That an end comes with the slot release is the model's reading
(log 37); when a DRAIN finds the engine IDLE is that of log 26, where the reads of a SET_PROBE_CYCLE's copy stand that of log 43, and
detail 0 of a PENDING DRAIN that of log 44. -/
def Obligations.DeferredDirectives : Prop :=
  (∀ (s : State) (a : Anchor) (next : Ticket) (h : Hand), InHand s a next h 4 → h.Fits 12 8 4 →
    let outside := field h.params 4 4 = 0 ∨ 2147483648 < field h.params 0 4 + field h.params 4 4
    ∃ t, exec .retireRange s = .next t ∧ Touches [.du, .duQueue] s t ∧ (outside → Ended a next h 5 0 s t)
      ∧ (¬ outside → RetireJudged a next h s t))
  ∧ (∀ (s : State) (a : Anchor) (next : Ticket) (h : Hand), InHand s a next h 16 → h.Fits 4 0 4 → s.wires.recordsFreed = [] →
    (∀ d ∈ s.du.deferred, DrainStays s d) →
    ∃ t, exec .drain s = .next t ∧ Touches [.du, .duQueue, .wires] s t ∧ t.wires = s.wires ∧ DrainJudged a next h s t)
  ∧ (∀ (s : State) (a : Anchor) (p : Deferred → Bool), s.run.anchor = some a → s.wires.slotRelease = true →
    (∀ d ∈ s.du.deferred, p d = true ↔ ∃ first last, d.work = .retire first last
      ∧ ∀ i e, slotOf s i = .current e ∨ slotOf s i = .retained e →
        ∀ x ∈ e.directory, ¬ (first ≤ x.2.address / 32768 ∧ x.2.address / 32768 ≤ last)) →
    let u := { s with
      wires := { s.wires with slotRelease := false }
      du := { s.du with deferred := s.du.deferred.filter fun d => !p d }
      arb := { s.arb with du := s.arb.du ++ (s.du.deferred.filter p).flatMap fun d => doneWrites a d.ticket } }
    ∃ t, exec .slotReleaseReport s = .next t ∧ Touches [.du, .duQueue, .rce, .watch, .pru, .wires] s t
      ∧ ((∀ h, s.du.hand = some h → h.phase ≠ .needsSlot) → t.rce = s.rce ∧ t.watch = s.watch ∧ RoomTaken a u t)
      ∧ ∀ h, s.du.hand = some h → h.phase = .needsSlot → t.pru = s.pru ∧ t.wires = u.wires
        ∧ (freeSlot s = none → t.rce = s.rce ∧ t.watch = s.watch ∧ Waits .needsSlot h u t)
        ∧ ∀ i, freeSlot s = some i →
          (h.kind = 1 → t.watch = s.watch ∧ AdoptBegun h i u t)
            ∧ ∀ c e next, currentSlot s = some (c, e) → s.du.expected = some next →
              (h.kind = 2 → t.watch = s.watch ∧ AmendBegun h i e u t)
                ∧ (h.kind = 3 → field h.params 4 1 ≠ 2 → TileSet a next h i e u t)
                ∧ (h.kind = 3 → field h.params 4 1 = 2 → TileRemoved a next h i e u t))
  ∧ (∀ (s : State) (a : Anchor) (e : OwnerEnd) (rest : List OwnerEnd), s.run.anchor = some a → s.wires.ownerEnds = e :: rest →
    let u := { s with
      wires := { s.wires with ownerEnds := rest }
      du := { s.du with deferred := s.du.deferred.filter fun d => decide (d.ticket ≠ e.ticket) }
      arb := { s.arb with
        du := s.arb.du ++ writeAccesses (.outcome [e.ticket]) (slotOffset a e.ticket + 8) (outcomeBytes e.code e.detail) } }
    ∃ t, exec .ownerEndReport s = .next t ∧ Touches [.du, .duQueue, .pru, .wires] s t
      ∧ ((∃ d ∈ s.du.deferred, d.ticket = e.ticket) → RoomTaken a u t)
      ∧ ((∀ d ∈ s.du.deferred, d.ticket ≠ e.ticket) → Touches [.wires] s t ∧ t.wires = u.wires))
  ∧ ∀ (s : State) (a : Anchor), s.run.anchor = some a →
    (∀ r rest, s.wires.recordsFreed = r :: rest →
      let w := { s.wires with recordsFreed := rest }
      ∃ t g, exec .recordFreedReport s = .next t ∧ Touches [.du, .duQueue, .pru, .wires] s t ∧ DrainsMoved a w g s t
        ∧ (∀ d ∈ s.du.deferred, d.work = .drain .idle → g d = some d)
        ∧ ∀ d ∈ s.du.deferred, ∀ set missed, d.work = .drain (.records set missed) →
          let left := set.filter (· != r.val)
          (left ≠ [] → g d = some { d with work := .drain (.records left missed) })
            ∧ (left = [] → missed = true ∨ ¬ EngineAtRest s → g d = some { d with work := .drain .idle })
            ∧ (left = [] → missed = false → EngineAtRest s → LastAwaited s w d (g d)))
      ∧ (s.wires.idleToDu = true →
        let w := { s.wires with idleToDu := false }
        ∃ t g, exec .drainIdleReport s = .next t ∧ Touches [.du, .duQueue, .pru, .wires] s t ∧ DrainsMoved a w g s t
          ∧ (∀ d ∈ s.du.deferred, d.work = .drain .idle → LastAwaited s w d (g d))
          ∧ ∀ d ∈ s.du.deferred, ∀ set missed, d.work = .drain (.records set missed) → set ≠ [] → g d = some { d with
              work := .drain (.records set (missed || decide (∀ r ∈ set, ∃ x ∈ s.wires.recordsFreed, x.val = r))) })
      ∧ ∀ n rest, s.wires.telemetryWritten = n :: rest →
        let w := { s.wires with telemetryWritten := rest }
        ∃ t g, exec .telemetryWrittenReport s = .next t ∧ Touches [.du, .duQueue, .pru, .wires] s t ∧ DrainsMoved a w g s t
          ∧ (∀ d ∈ s.du.deferred, d.work = .drain .idle → g d = some d)
          ∧ ∀ d ∈ s.du.deferred, ∀ set missed, d.work = .drain (.records set missed) → set ≠ [] → g d = some d


/-- LOAD_SAFE_SHAPE, INJECT_PROBE and RESET_INTEGRATOR: refused, or reading their vector; and what the vector that has been read
brings (R117, R126, R137). The details 0 of LOAD_SAFE_SHAPE and RESET_INTEGRATOR are the model's choice (log 44). -/
def Obligations.VectorDirectives : Prop :=
  (∀ (s : State) (a : Anchor) (next : Ticket) (h : Hand), InHand s a next h 9 → h.Fits 8 6 2 →
    let outside := 1 < field h.params 4 1 ∨ 1 < field h.params 5 1 ∨ BadArea s (field h.params 0 4) 2048
    ∃ t, exec .loadSafeShape s = .next t ∧ Touches [.du, .duQueue] s t ∧ (outside → Ended a next h 5 0 s t)
      ∧ (¬ outside → Occupied h .vector (field h.params 0 4) 2048 s t))
  ∧ (∀ (s : State) (a : Anchor) (next : Ticket) (h : Hand), InHand s a next h 13 → h.Fits 12 10 2 → field h.params 8 2 ≠ 0 →
    let length := field h.params 4 2
    let outside := length < 1 ∨ 1024 < length ∨ BadArea s (field h.params 0 4) (2 * length)
    ∃ t, exec .injectProbe s = .next t ∧ Touches [.du, .duQueue] s t ∧ (outside → Ended a next h 5 0 s t)
      ∧ (¬ outside → s.run.state ≠ .running → Ended a next h 6 0 s t)
      ∧ (∀ i, ¬ outside → s.run.state = .running → s.pru.injection = some i → Ended a next h 9 (BitVec.ofNat 32 i.left) s t)
      ∧ (¬ outside → s.run.state = .running → s.pru.injection = none →
          Occupied h .vector (field h.params 0 4) (2 * length) s t))
  ∧ (∀ (s : State) (a : Anchor) (next : Ticket) (h : Hand), InHand s a next h 14 → h.Fits 8 1 3 →
    let mode := field h.params 0 1
    let address := field h.params 4 4
    (mode = 0 → ∃ t, exec .resetIntegratorZero s = .next t ∧ Touches [.du, .duQueue, .wires] s t
        ∧ (address ≠ 0 → t.wires = s.wires ∧ Ended a next h 4 0 s t)
        ∧ (address = 0 → Ended a next h 2 0 s t ∧ t.wires = { s.wires with
            integratorChanges := s.wires.integratorChanges ++ [{ first := 0, values := List.replicate 1024 0 }] }))
      ∧ (mode ≠ 0 → ∃ t, exec .resetIntegratorVector s = .next t ∧ Touches [.du, .duQueue] s t
        ∧ (mode ≠ 1 ∨ BadArea s address 2048 → Ended a next h 5 0 s t)
        ∧ (mode = 1 → ¬ BadArea s address 2048 → Occupied h .vector address 2048 s t)))
  ∧ ∀ (s : State) (a : Anchor) (next : Ticket) (h : Hand) (j : ReadJob), Working s a next h .vector j →
    let values := int16s 1024 j.bytes
    let failed := fun t : State => ∀ offset, j.failed = some offset → attentionHas .memoryError t = true
      ∧ t.cou = s.cou ∧ t.pru = s.pru ∧ t.wires = s.wires ∧ Ended a next h 11 (BitVec.ofNat 32 offset) s t
    let checked := fun t : State => ∀ k, j.failed = none → values[k]? = some (-32768) →
      (∀ m, m < k → values[m]? ≠ some (-32768)) → t.cou = s.cou ∧ t.wires = s.wires
        ∧ Ended a next h 10 (checkDetail 1 k) s t
    (h.kind = 9 → ∃ t, exec .safeShapeReadDone s = .next t ∧ Touches [.du, .duQueue, .cou, .attention] s t ∧ failed t ∧ checked t
        ∧ (j.failed = none → (∀ v ∈ values, v ≠ -32768) → Ended a next h 2 0 s t
          ∧ (∀ k, Store.read 0 t.cou.safeShape k = values.getD k 0)
          ∧ t.cou = { s.cou with
              safeShape := t.cou.safeShape, shapeLoaded := true
              action := if field h.params 4 1 = 1 then .safe else .freeze
              autoResume := decide (field h.params 5 1 = 1) }))
      ∧ (h.kind = 14 → ∃ t, exec .integratorVectorReadDone s = .next t ∧ Touches [.du, .duQueue, .wires, .attention] s t
        ∧ failed t ∧ checked t
        ∧ (j.failed = none → (∀ v ∈ values, v ≠ -32768) → Ended a next h 2 0 s t ∧ t.wires = { s.wires with
            integratorChanges := s.wires.integratorChanges ++ [{ first := 0, values := values }] }))
      ∧ (h.kind = 13 → ∃ t, exec .injectPatternReadDone s = .next t ∧ Touches [.du, .duQueue, .pru, .attention] s t
        ∧ failed t
        ∧ (j.failed = none → Ended a next h 2 0 s t ∧ t.pru = { s.pru with
            injection := some
              { pattern := int16s (field h.params 4 2) j.bytes, amplitude := signed 16 (field h.params 6 2)
                left := field h.params 8 2 } }))

/-! ### The Probe Unit (R121 to R128) -/

/-- The notices of the engine, the cancel of an injection, SET_PROBE_CYCLE, and the copy of its table, entry by entry, with the copies that
wait their turn behind it (R123, R124, R126 to R129). Where the copy's reads stand among the Directive Unit's is the model's choice
(log 43); that the next copy begins in the step that ends the one before is its reading (log 33). -/
def Obligations.ProbeUnit : Prop :=
  (∀ (cmd : Instr) (s : State) (committed : Bool) (rest : List Bool), s.wires.probeNotices = committed :: rest →
    cmd = (if committed then .commitNotice else .completionWithoutCommit) →
    let advances := fun x : ProbeSource => committed = true ∧ s.pru.supply = some { source := x, inForce := true }
    ∃ t, exec cmd s = .next t ∧ Touches [.pru, .wires] s t ∧ t.wires = { s.wires with probeNotices := rest }
      ∧ t.pru.supply = none
      ∧ (¬ advances .injection → (∀ n, ¬ advances (.cycle n)) → t.pru = { s.pru with supply := none })
      ∧ (∀ i, advances .injection → s.pru.injection = some i → t.pru =
          { s.pru with supply := none, injection := if 1 < i.left then some { i with left := i.left - 1 } else none })
      ∧ ∀ m n left, advances (.cycle m) → s.pru.position = some (n, left) → t.pru =
          { s.pru with
            supply := none
            position := if 1 < left then some (n, left - 1)
              else
                let next := if n + 1 < s.pru.cycle.length then n + 1 else 0
                some (next, (s.pru.cycle[next]?.map CycleEntry.frames).getD 0) })
  ∧ (∀ (s : State) (a : Anchor) (next : Ticket) (h : Hand), InHand s a next h 13 → h.Fits 12 10 2 → field h.params 8 2 = 0 →
    let zero := ∀ k, k < 8 → h.params.getD k 0 = 0
    ∃ t, exec .injectProbeCancel s = .next t ∧ Touches [.du, .duQueue, .pru] s t
      ∧ (¬ zero → t.pru = s.pru ∧ Ended a next h 4 0 s t)
      ∧ (zero → s.run.state ≠ .running → t.pru = s.pru ∧ Ended a next h 6 0 s t)
      ∧ (zero → s.run.state = .running → s.pru.injection = none → t.pru = s.pru ∧ Ended a next h 2 0 s t)
      ∧ ∀ i, zero → s.run.state = .running → s.pru.injection = some i → Ended a next h 2 (BitVec.ofNat 32 i.left) s t
          ∧ t.pru = { s.pru with
              injection := none
              supply := s.pru.supply.map fun x => if x.source = .injection then { x with inForce := false } else x })
  ∧ (∀ (s : State) (a : Anchor) (next : Ticket) (h : Hand), InHand s a next h 12 → h.Fits 8 5 1 →
    let table := field h.params 0 4
    let entries := field h.params 4 1
    let length := field h.params 6 2
    let emptyButSet := entries = 0 ∧ (table ≠ 0 ∨ length ≠ 0)
    let outside := 16 < entries ∨ (entries ≠ 0 ∧ (length < 1 ∨ 1024 < length ∨ BadArea s table (8 * entries)))
    let good := ¬ emptyButSet ∧ ¬ outside
    ∃ t, exec .setProbeCycle s = .next t ∧ Touches [.du, .duQueue, .pru, .wires] s t
      ∧ (emptyButSet → t.pru = s.pru ∧ Ended a next h 4 0 s t)
      ∧ (¬ emptyButSet → outside → t.pru = s.pru ∧ Ended a next h 5 0 s t)
      ∧ (good → 4 ≤ s.du.deferred.length → t.pru = s.pru ∧ Waits .needsRoom h s t)
      ∧ (good → s.du.deferred.length < 4 → ProbeJoined a next h s t))
  ∧ ∀ (s : State) (g : Staging) (j : ReadJob), s.pru.staging = some g → s.pru.job = some j → j.left = 0 →
    let index := g.copied.length
    let address := field j.bytes 0 4
    let frames := field j.bytes 6 2
    let bad := BadArea s address (2 * g.request.length)
    let ends := fun (code : Nat) (detail : BitVec 32) (pru : Pru) (t : State) => CopiesRun s.pru.waiting
      { s with
        pru := { pru with staging := none, job := none }
        wires := { s.wires with
          ownerEnds := s.wires.ownerEnds ++ [{ ticket := g.request.ticket, code := code, detail := detail }] } } t
    let fails := fun (code : Nat) (detail : BitVec 32) (t : State) => ends code detail s.pru t
    ∃ t, exec .probeCopyReadDone s = .next t ∧ Touches [.pru, .wires, .duQueue, .attention] s t
      ∧ (∀ offset, j.failed = some offset → attentionHas .memoryError t = true ∧ fails 11 (BitVec.ofNat 32 offset) t)
      ∧ (j.failed = none → g.entry = none →
          (bad → fails 10 (checkDetail 1 index) t) ∧ (¬ bad → frames = 0 → fails 10 (checkDetail 2 index) t)
            ∧ (¬ bad → frames ≠ 0 → t.wires = s.wires
              ∧ t.arb.du = s.arb.du ++ readAccesses .copy address (2 * g.request.length)
              ∧ t.pru = { s.pru with
                  staging := some { g with entry := some (signed 16 (field j.bytes 4 2), frames) }
                  job := some (newJob .copy address (2 * g.request.length)) }))
      ∧ ∀ amplitude n, j.failed = none → g.entry = some (amplitude, n) →
          let copied := g.copied ++ [{ pattern := int16s g.request.length j.bytes, amplitude := amplitude, frames := n }]
          let nextEntry := g.request.table + 8 * (index + 1)
          (index + 1 < g.request.entries → t.wires = s.wires ∧ t.arb.du = s.arb.du ++ readAccesses .copy nextEntry 8
              ∧ t.pru = { s.pru with
                  staging := some { request := g.request, copied := copied }, job := some (newJob .copy nextEntry 8) })
            ∧ (g.request.entries ≤ index + 1 → ends 2 0
                { s.pru with
                  cycle := copied, length := some g.request.length
                  position := some (0, (copied.head?.map CycleEntry.frames).getD 0)
                  supply := s.pru.supply.map fun x => if x.source.isCycle then { x with inForce := false } else x } t)

/-! ### Outcomes and reports (R155, R163 to R169) -/

/-- Performed outcome writes settle their tickets, and SETTLED is raised when settled-through moves; the end of a writer's item, a
sealed telemetry record among them, and the next item in its order of choice, with all it writes: a snapshot entry where one is due (its
record follows the seal, O10), a telemetry record, a Stream Report, a Part Status Block, field by field (R155, R163, R164, R166, R167,
R169, 12.6). When a step makes a rewrite owed: by a change of what the reports hold and by nothing else but LOAD_ANCHOR, the end of an
item, SET_TELEMETRY and CLEAR_STREAM_ERRORS; and that an idle writer takes its next item in the step that makes one wait (R16, R36, R50,
R163, R164, R169). That an item with writes still waiting, or its record still to come, does not end (log 2), and that all writes of an
entry, a record or a block are placed at once (log 49), is the model's choice; that the net change of a step counts is its reading
(log 32). -/
def Obligations.OutcomesAndReports : Prop :=
  (∀ (s : State) (ts : List Ticket) (rest : List (List Ticket)), s.wires.outcomesWritten = ts :: rest →
    let open' := s.du.unsettled.filter fun t => decide (t ∉ ts)
    let settled := match open' with
      | [] => s.du.takenThrough
      | t :: _ => some (t - 1)
    ∃ t, exec .outcomeWriteDone s = .next t ∧ Touches [.du, .wires, .attention] s t
      ∧ t.wires = { s.wires with outcomesWritten := rest }
      ∧ t.du = { s.du with unsettled := open', settledThrough := settled }
      ∧ (attentionHas .settled t = true ↔ attentionHas .settled s = true ∨ settled ≠ s.du.settledThrough))
  ∧ (∀ (s : State) (a : Anchor), s.run.anchor = some a → s.rpu.writer ≠ .idle →
    let ends := s.arb.rpu = [] ∧ s.rpu.writer ≠ .snapshot
    (¬ ends → exec .writerItemEnd s = .next s)
      ∧ (ends → ∃ t, exec .writerItemEnd s = .next t ∧ Touches [.wires] s t
        ∧ t.rpu.nextSnapshot = s.rpu.nextSnapshot
        ∧ (∀ set more, s.rpu.writer = .telemetry → s.rpu.holding = set :: more →
            t.rpu.holding = more
              ∧ t.wires = { s.wires with telemetryWritten := s.wires.telemetryWritten ++ [set.number] }
              ∧ (more = [] → t.rpu.statusOwed = true ∧ StreamReportTaken a s t)
              ∧ ∀ next others, more = next :: others → t.rpu.statusOwed = true ∧ t.rpu.streamOwed = true
                  ∧ TelemetryTaken a next s t)
        ∧ (s.rpu.writer = .streamReport ∨ s.rpu.writer = .status → t.wires = s.wires ∧ t.rpu.holding = s.rpu.holding
          ∧ (∀ set more, s.rpu.holding = set :: more → TelemetryTaken a set s t)
          ∧ (s.rpu.holding = [] → s.rpu.streamOwed = true → StreamReportTaken a s t)
          ∧ (s.rpu.holding = [] → s.rpu.streamOwed = false → s.rpu.statusOwed = true → StatusTaken a s t)
          ∧ (s.rpu.holding = [] → s.rpu.streamOwed = false → s.rpu.statusOwed = false → t.rpu.writer = .idle
              ∧ t.arb.rpu = []))))
  ∧ (∀ (c : Instr) (s t : State) (a : Anchor), c.wellFormed = true → exec c s = .next t → t.run.anchor = some a →
    (¬ StatusSame s t → StatusOwed s t)
      ∧ (StatusOwed s t → s.rpu.statusOwed = true ∨ ¬ StatusSame s t
          ∨ c ∈ [.anchorReadDone, .writerItemEnd, .setTelemetry])
      ∧ (¬ StreamReportSame s t → StreamReportOwed s t)
      ∧ (StreamReportOwed s t → s.rpu.streamOwed = true ∨ ¬ StreamReportSame s t
          ∨ c ∈ [.anchorReadDone, .writerItemEnd, .clearStreamErrors])
      ∧ (WriterLaw s → s.rpu.writer = .idle →
          (t.rpu.holding ≠ [] → t.rpu.writer = .snapshot ∨ t.rpu.writer = .telemetry)
            ∧ (t.rpu.holding = [] → StreamReportOwed s t → StreamReportTaken a s t)
            ∧ (t.rpu.holding = [] → ¬ StreamReportOwed s t → StatusOwed s t → StatusTaken a s t)
            ∧ (t.rpu.holding = [] → ¬ StreamReportOwed s t → ¬ StatusOwed s t → t.rpu.writer = .idle ∧ t.arb.rpu = [])))

/-! ### Laws every step keeps -/

/-- Every step keeps Exchange Memory in its canonical form. -/
def Obligations.StepsKeepMemory : Prop := ∀ s t : State, MemoryLaw s → step s = .next t → MemoryLaw t

/-- Every step keeps the law of the output state and the hold causes (R130). -/
def Obligations.StepsKeepHold : Prop :=
  ∀ s t : State, HoldLaw s → step s = .next t → HoldLaw t

/-- Every step keeps the law of the Edition Slots (R78, R81, R90). -/
def Obligations.StepsKeepSlots : Prop :=
  ∀ s t : State, SlotLaw s → LoadLaw s → step s = .next t → SlotLaw t ∧ LoadLaw t

/-- Every step keeps the laws of the streams, of their counters, of the records, of the tickets and of the writer (2.1, R20, R21, R28, R29,
R51, R155, R158, R163). -/
def Obligations.StepsKeepTables : Prop :=
  (∀ s t : State, StreamLaw s → step s = .next t → StreamLaw t)
    ∧ (∀ s t : State, DisjointStreams s → step s = .next t → DisjointStreams t)
    ∧ (∀ s t : State, CountLaw s → step s = .next t → CountLaw t)
    ∧ (∀ s t : State, DistinctFrames s → step s = .next t → DistinctFrames t)
    ∧ (∀ s t : State, DispatchLaw s → step s = .next t → DispatchLaw t)
    ∧ (∀ s t : State, TicketLaw s → step s = .next t → TicketLaw t)
    ∧ ∀ s t : State, WriterLaw s → step s = .next t → WriterLaw t

/-- The state after power-on obeys every one of these laws. -/
def Obligations.LawsHoldAtReset : Prop :=
  let s := State.reset
  MemoryLaw s ∧ HoldLaw s ∧ SlotLaw s ∧ LoadLaw s ∧ StreamLaw s ∧ DisjointStreams s ∧ CountLaw s ∧ DistinctFrames s ∧ DispatchLaw s
    ∧ TicketLaw s ∧ WriterLaw s
end

