-- ==== Sys2Proof/Laws/State.lean ====
section
/-!
SUPPORT. One lemma per field for each of the small updates the meanings are built of: what the update makes of the field it
changes, and that it leaves every other field.
-/
namespace Sys2Proof.Machine

/-! ### Tables -/

@[simp] theorem getElem_tweak {α : Type} {n : Nat} (v : Vector α n) (i : Fin n) (f : α → α) (j : Nat) (h : j < n) :
    (tweak v i f)[j] = if i.val = j then f v[j] else v[j] := by
  simp only [tweak, Vector.getElem_set]
  split
  · next e => subst e; rfl
  · rfl

theorem getElem_tweak_same {α : Type} {n : Nat} (v : Vector α n) (i : Fin n) (f : α → α) : (tweak v i f)[i] = f v[i] := by
  simp

theorem getElem_tweak_other {α : Type} {n : Nat} (v : Vector α n) {i j : Fin n} (h : i ≠ j) (f : α → α) :
    (tweak v i f)[j] = v[j] := by
  simp [Fin.val_inj, h]

/-! ### The queue -/

@[simp] theorem withPending_xm (s : State) (q : List Instr) : (s.withPending q).xm = s.xm := rfl
@[simp] theorem withPending_ecc (s : State) (q : List Instr) : (s.withPending q).ecc = s.ecc := rfl
@[simp] theorem withPending_corrected (s : State) (q : List Instr) : (s.withPending q).corrected = s.corrected := rfl
@[simp] theorem withPending_arb (s : State) (q : List Instr) : (s.withPending q).arb = s.arb := rfl
@[simp] theorem withPending_host (s : State) (q : List Instr) : (s.withPending q).host = s.host := rfl
@[simp] theorem withPending_run (s : State) (q : List Instr) : (s.withPending q).run = s.run := rfl
@[simp] theorem withPending_page (s : State) (q : List Instr) : (s.withPending q).page = s.page := rfl
@[simp] theorem withPending_time (s : State) (q : List Instr) : (s.withPending q).time = s.time := rfl
@[simp] theorem withPending_ports (s : State) (q : List Instr) : (s.withPending q).ports = s.ports := rfl
@[simp] theorem withPending_sau (s : State) (q : List Instr) : (s.withPending q).sau = s.sau := rfl
@[simp] theorem withPending_fck (s : State) (q : List Instr) : (s.withPending q).fck = s.fck := rfl
@[simp] theorem withPending_fau (s : State) (q : List Instr) : (s.withPending q).fau = s.fau := rfl
@[simp] theorem withPending_rce (s : State) (q : List Instr) : (s.withPending q).rce = s.rce := rfl
@[simp] theorem withPending_watch (s : State) (q : List Instr) : (s.withPending q).watch = s.watch := rfl
@[simp] theorem withPending_pru (s : State) (q : List Instr) : (s.withPending q).pru = s.pru := rfl
@[simp] theorem withPending_cou (s : State) (q : List Instr) : (s.withPending q).cou = s.cou := rfl
@[simp] theorem withPending_du (s : State) (q : List Instr) : (s.withPending q).du = s.du := rfl
@[simp] theorem withPending_rpu (s : State) (q : List Instr) : (s.withPending q).rpu = s.rpu := rfl
@[simp] theorem withPending_wires (s : State) (q : List Instr) : (s.withPending q).wires = s.wires := rfl
@[simp] theorem withPending_pending (s : State) (q : List Instr) : (s.withPending q).pending = q := rfl

/-! ### Updates -/

@[simp] theorem raise_xm (c : Cause) (s : State) : (raise c s).xm = s.xm := rfl
@[simp] theorem raise_ecc (c : Cause) (s : State) : (raise c s).ecc = s.ecc := rfl
@[simp] theorem raise_corrected (c : Cause) (s : State) : (raise c s).corrected = s.corrected := rfl
@[simp] theorem raise_arb (c : Cause) (s : State) : (raise c s).arb = s.arb := rfl
@[simp] theorem raise_host (c : Cause) (s : State) : (raise c s).host = s.host := rfl
@[simp] theorem raise_run (c : Cause) (s : State) : (raise c s).run = s.run := rfl
@[simp] theorem raise_page (c : Cause) (s : State) :
    (raise c s).page = { s.page with attention := s.page.attention ||| c.flag } := rfl
@[simp] theorem raise_time (c : Cause) (s : State) : (raise c s).time = s.time := rfl
@[simp] theorem raise_ports (c : Cause) (s : State) : (raise c s).ports = s.ports := rfl
@[simp] theorem raise_sau (c : Cause) (s : State) : (raise c s).sau = s.sau := rfl
@[simp] theorem raise_fck (c : Cause) (s : State) : (raise c s).fck = s.fck := rfl
@[simp] theorem raise_fau (c : Cause) (s : State) : (raise c s).fau = s.fau := rfl
@[simp] theorem raise_rce (c : Cause) (s : State) : (raise c s).rce = s.rce := rfl
@[simp] theorem raise_watch (c : Cause) (s : State) : (raise c s).watch = s.watch := rfl
@[simp] theorem raise_pru (c : Cause) (s : State) : (raise c s).pru = s.pru := rfl
@[simp] theorem raise_cou (c : Cause) (s : State) : (raise c s).cou = s.cou := rfl
@[simp] theorem raise_du (c : Cause) (s : State) : (raise c s).du = s.du := rfl
@[simp] theorem raise_rpu (c : Cause) (s : State) : (raise c s).rpu = s.rpu := rfl
@[simp] theorem raise_wires (c : Cause) (s : State) : (raise c s).wires = s.wires := rfl
@[simp] theorem raise_pending (c : Cause) (s : State) : (raise c s).pending = s.pending := rfl

@[simp] theorem placeDu_xm (as : List Access) (s : State) : (placeDu as s).xm = s.xm := rfl
@[simp] theorem placeDu_ecc (as : List Access) (s : State) : (placeDu as s).ecc = s.ecc := rfl
@[simp] theorem placeDu_corrected (as : List Access) (s : State) : (placeDu as s).corrected = s.corrected := rfl
@[simp] theorem placeDu_arb (as : List Access) (s : State) : (placeDu as s).arb = { s.arb with du := s.arb.du ++ as } := rfl
@[simp] theorem placeDu_host (as : List Access) (s : State) : (placeDu as s).host = s.host := rfl
@[simp] theorem placeDu_run (as : List Access) (s : State) : (placeDu as s).run = s.run := rfl
@[simp] theorem placeDu_page (as : List Access) (s : State) : (placeDu as s).page = s.page := rfl
@[simp] theorem placeDu_time (as : List Access) (s : State) : (placeDu as s).time = s.time := rfl
@[simp] theorem placeDu_ports (as : List Access) (s : State) : (placeDu as s).ports = s.ports := rfl
@[simp] theorem placeDu_sau (as : List Access) (s : State) : (placeDu as s).sau = s.sau := rfl
@[simp] theorem placeDu_fck (as : List Access) (s : State) : (placeDu as s).fck = s.fck := rfl
@[simp] theorem placeDu_fau (as : List Access) (s : State) : (placeDu as s).fau = s.fau := rfl
@[simp] theorem placeDu_rce (as : List Access) (s : State) : (placeDu as s).rce = s.rce := rfl
@[simp] theorem placeDu_watch (as : List Access) (s : State) : (placeDu as s).watch = s.watch := rfl
@[simp] theorem placeDu_pru (as : List Access) (s : State) : (placeDu as s).pru = s.pru := rfl
@[simp] theorem placeDu_cou (as : List Access) (s : State) : (placeDu as s).cou = s.cou := rfl
@[simp] theorem placeDu_du (as : List Access) (s : State) : (placeDu as s).du = s.du := rfl
@[simp] theorem placeDu_rpu (as : List Access) (s : State) : (placeDu as s).rpu = s.rpu := rfl
@[simp] theorem placeDu_wires (as : List Access) (s : State) : (placeDu as s).wires = s.wires := rfl
@[simp] theorem placeDu_pending (as : List Access) (s : State) : (placeDu as s).pending = s.pending := rfl

@[simp] theorem placeRpu_xm (as : List Access) (s : State) : (placeRpu as s).xm = s.xm := rfl
@[simp] theorem placeRpu_ecc (as : List Access) (s : State) : (placeRpu as s).ecc = s.ecc := rfl
@[simp] theorem placeRpu_corrected (as : List Access) (s : State) : (placeRpu as s).corrected = s.corrected := rfl
@[simp] theorem placeRpu_arb (as : List Access) (s : State) :
    (placeRpu as s).arb = { s.arb with rpu := s.arb.rpu ++ as } := rfl
@[simp] theorem placeRpu_host (as : List Access) (s : State) : (placeRpu as s).host = s.host := rfl
@[simp] theorem placeRpu_run (as : List Access) (s : State) : (placeRpu as s).run = s.run := rfl
@[simp] theorem placeRpu_page (as : List Access) (s : State) : (placeRpu as s).page = s.page := rfl
@[simp] theorem placeRpu_time (as : List Access) (s : State) : (placeRpu as s).time = s.time := rfl
@[simp] theorem placeRpu_ports (as : List Access) (s : State) : (placeRpu as s).ports = s.ports := rfl
@[simp] theorem placeRpu_sau (as : List Access) (s : State) : (placeRpu as s).sau = s.sau := rfl
@[simp] theorem placeRpu_fck (as : List Access) (s : State) : (placeRpu as s).fck = s.fck := rfl
@[simp] theorem placeRpu_fau (as : List Access) (s : State) : (placeRpu as s).fau = s.fau := rfl
@[simp] theorem placeRpu_rce (as : List Access) (s : State) : (placeRpu as s).rce = s.rce := rfl
@[simp] theorem placeRpu_watch (as : List Access) (s : State) : (placeRpu as s).watch = s.watch := rfl
@[simp] theorem placeRpu_pru (as : List Access) (s : State) : (placeRpu as s).pru = s.pru := rfl
@[simp] theorem placeRpu_cou (as : List Access) (s : State) : (placeRpu as s).cou = s.cou := rfl
@[simp] theorem placeRpu_du (as : List Access) (s : State) : (placeRpu as s).du = s.du := rfl
@[simp] theorem placeRpu_rpu (as : List Access) (s : State) : (placeRpu as s).rpu = s.rpu := rfl
@[simp] theorem placeRpu_wires (as : List Access) (s : State) : (placeRpu as s).wires = s.wires := rfl
@[simp] theorem placeRpu_pending (as : List Access) (s : State) : (placeRpu as s).pending = s.pending := rfl

@[simp] theorem placeSau_xm (as : List Access) (s : State) : (placeSau as s).xm = s.xm := rfl
@[simp] theorem placeSau_ecc (as : List Access) (s : State) : (placeSau as s).ecc = s.ecc := rfl
@[simp] theorem placeSau_corrected (as : List Access) (s : State) : (placeSau as s).corrected = s.corrected := rfl
@[simp] theorem placeSau_arb (as : List Access) (s : State) :
    (placeSau as s).arb = { s.arb with sau := s.arb.sau ++ as } := rfl
@[simp] theorem placeSau_host (as : List Access) (s : State) : (placeSau as s).host = s.host := rfl
@[simp] theorem placeSau_run (as : List Access) (s : State) : (placeSau as s).run = s.run := rfl
@[simp] theorem placeSau_page (as : List Access) (s : State) : (placeSau as s).page = s.page := rfl
@[simp] theorem placeSau_time (as : List Access) (s : State) : (placeSau as s).time = s.time := rfl
@[simp] theorem placeSau_ports (as : List Access) (s : State) : (placeSau as s).ports = s.ports := rfl
@[simp] theorem placeSau_sau (as : List Access) (s : State) : (placeSau as s).sau = s.sau := rfl
@[simp] theorem placeSau_fck (as : List Access) (s : State) : (placeSau as s).fck = s.fck := rfl
@[simp] theorem placeSau_fau (as : List Access) (s : State) : (placeSau as s).fau = s.fau := rfl
@[simp] theorem placeSau_rce (as : List Access) (s : State) : (placeSau as s).rce = s.rce := rfl
@[simp] theorem placeSau_watch (as : List Access) (s : State) : (placeSau as s).watch = s.watch := rfl
@[simp] theorem placeSau_pru (as : List Access) (s : State) : (placeSau as s).pru = s.pru := rfl
@[simp] theorem placeSau_cou (as : List Access) (s : State) : (placeSau as s).cou = s.cou := rfl
@[simp] theorem placeSau_du (as : List Access) (s : State) : (placeSau as s).du = s.du := rfl
@[simp] theorem placeSau_rpu (as : List Access) (s : State) : (placeSau as s).rpu = s.rpu := rfl
@[simp] theorem placeSau_wires (as : List Access) (s : State) : (placeSau as s).wires = s.wires := rfl
@[simp] theorem placeSau_pending (as : List Access) (s : State) : (placeSau as s).pending = s.pending := rfl

@[simp] theorem placeHost_xm (as : List Access) (s : State) : (placeHost as s).xm = s.xm := rfl
@[simp] theorem placeHost_ecc (as : List Access) (s : State) : (placeHost as s).ecc = s.ecc := rfl
@[simp] theorem placeHost_corrected (as : List Access) (s : State) : (placeHost as s).corrected = s.corrected := rfl
@[simp] theorem placeHost_arb (as : List Access) (s : State) :
    (placeHost as s).arb = { s.arb with host := s.arb.host ++ as } := rfl
@[simp] theorem placeHost_host (as : List Access) (s : State) : (placeHost as s).host = s.host := rfl
@[simp] theorem placeHost_run (as : List Access) (s : State) : (placeHost as s).run = s.run := rfl
@[simp] theorem placeHost_page (as : List Access) (s : State) : (placeHost as s).page = s.page := rfl
@[simp] theorem placeHost_time (as : List Access) (s : State) : (placeHost as s).time = s.time := rfl
@[simp] theorem placeHost_ports (as : List Access) (s : State) : (placeHost as s).ports = s.ports := rfl
@[simp] theorem placeHost_sau (as : List Access) (s : State) : (placeHost as s).sau = s.sau := rfl
@[simp] theorem placeHost_fck (as : List Access) (s : State) : (placeHost as s).fck = s.fck := rfl
@[simp] theorem placeHost_fau (as : List Access) (s : State) : (placeHost as s).fau = s.fau := rfl
@[simp] theorem placeHost_rce (as : List Access) (s : State) : (placeHost as s).rce = s.rce := rfl
@[simp] theorem placeHost_watch (as : List Access) (s : State) : (placeHost as s).watch = s.watch := rfl
@[simp] theorem placeHost_pru (as : List Access) (s : State) : (placeHost as s).pru = s.pru := rfl
@[simp] theorem placeHost_cou (as : List Access) (s : State) : (placeHost as s).cou = s.cou := rfl
@[simp] theorem placeHost_du (as : List Access) (s : State) : (placeHost as s).du = s.du := rfl
@[simp] theorem placeHost_rpu (as : List Access) (s : State) : (placeHost as s).rpu = s.rpu := rfl
@[simp] theorem placeHost_wires (as : List Access) (s : State) : (placeHost as s).wires = s.wires := rfl
@[simp] theorem placeHost_pending (as : List Access) (s : State) : (placeHost as s).pending = s.pending := rfl

@[simp] theorem withdrawDu_xm (p : Purpose → Bool) (s : State) : (withdrawDu p s).xm = s.xm := rfl
@[simp] theorem withdrawDu_ecc (p : Purpose → Bool) (s : State) : (withdrawDu p s).ecc = s.ecc := rfl
@[simp] theorem withdrawDu_corrected (p : Purpose → Bool) (s : State) : (withdrawDu p s).corrected = s.corrected := rfl
@[simp] theorem withdrawDu_arb (p : Purpose → Bool) (s : State) :
    (withdrawDu p s).arb = { s.arb with du := s.arb.du.filter fun a => !p a.purpose } := rfl
@[simp] theorem withdrawDu_host (p : Purpose → Bool) (s : State) : (withdrawDu p s).host = s.host := rfl
@[simp] theorem withdrawDu_run (p : Purpose → Bool) (s : State) : (withdrawDu p s).run = s.run := rfl
@[simp] theorem withdrawDu_page (p : Purpose → Bool) (s : State) : (withdrawDu p s).page = s.page := rfl
@[simp] theorem withdrawDu_time (p : Purpose → Bool) (s : State) : (withdrawDu p s).time = s.time := rfl
@[simp] theorem withdrawDu_ports (p : Purpose → Bool) (s : State) : (withdrawDu p s).ports = s.ports := rfl
@[simp] theorem withdrawDu_sau (p : Purpose → Bool) (s : State) : (withdrawDu p s).sau = s.sau := rfl
@[simp] theorem withdrawDu_fck (p : Purpose → Bool) (s : State) : (withdrawDu p s).fck = s.fck := rfl
@[simp] theorem withdrawDu_fau (p : Purpose → Bool) (s : State) : (withdrawDu p s).fau = s.fau := rfl
@[simp] theorem withdrawDu_rce (p : Purpose → Bool) (s : State) : (withdrawDu p s).rce = s.rce := rfl
@[simp] theorem withdrawDu_watch (p : Purpose → Bool) (s : State) : (withdrawDu p s).watch = s.watch := rfl
@[simp] theorem withdrawDu_pru (p : Purpose → Bool) (s : State) : (withdrawDu p s).pru = s.pru := rfl
@[simp] theorem withdrawDu_cou (p : Purpose → Bool) (s : State) : (withdrawDu p s).cou = s.cou := rfl
@[simp] theorem withdrawDu_du (p : Purpose → Bool) (s : State) : (withdrawDu p s).du = s.du := rfl
@[simp] theorem withdrawDu_rpu (p : Purpose → Bool) (s : State) : (withdrawDu p s).rpu = s.rpu := rfl
@[simp] theorem withdrawDu_wires (p : Purpose → Bool) (s : State) : (withdrawDu p s).wires = s.wires := rfl
@[simp] theorem withdrawDu_pending (p : Purpose → Bool) (s : State) : (withdrawDu p s).pending = s.pending := rfl

@[simp] theorem setTileRun_xm (n : Nat) (s : State) : (setTileRun n s).xm = s.xm := rfl
@[simp] theorem setTileRun_ecc (n : Nat) (s : State) : (setTileRun n s).ecc = s.ecc := rfl
@[simp] theorem setTileRun_corrected (n : Nat) (s : State) : (setTileRun n s).corrected = s.corrected := rfl
@[simp] theorem setTileRun_arb (n : Nat) (s : State) : (setTileRun n s).arb = { s.arb with tileRun := n } := rfl
@[simp] theorem setTileRun_host (n : Nat) (s : State) : (setTileRun n s).host = s.host := rfl
@[simp] theorem setTileRun_run (n : Nat) (s : State) : (setTileRun n s).run = s.run := rfl
@[simp] theorem setTileRun_page (n : Nat) (s : State) : (setTileRun n s).page = s.page := rfl
@[simp] theorem setTileRun_time (n : Nat) (s : State) : (setTileRun n s).time = s.time := rfl
@[simp] theorem setTileRun_ports (n : Nat) (s : State) : (setTileRun n s).ports = s.ports := rfl
@[simp] theorem setTileRun_sau (n : Nat) (s : State) : (setTileRun n s).sau = s.sau := rfl
@[simp] theorem setTileRun_fck (n : Nat) (s : State) : (setTileRun n s).fck = s.fck := rfl
@[simp] theorem setTileRun_fau (n : Nat) (s : State) : (setTileRun n s).fau = s.fau := rfl
@[simp] theorem setTileRun_rce (n : Nat) (s : State) : (setTileRun n s).rce = s.rce := rfl
@[simp] theorem setTileRun_watch (n : Nat) (s : State) : (setTileRun n s).watch = s.watch := rfl
@[simp] theorem setTileRun_pru (n : Nat) (s : State) : (setTileRun n s).pru = s.pru := rfl
@[simp] theorem setTileRun_cou (n : Nat) (s : State) : (setTileRun n s).cou = s.cou := rfl
@[simp] theorem setTileRun_du (n : Nat) (s : State) : (setTileRun n s).du = s.du := rfl
@[simp] theorem setTileRun_rpu (n : Nat) (s : State) : (setTileRun n s).rpu = s.rpu := rfl
@[simp] theorem setTileRun_wires (n : Nat) (s : State) : (setTileRun n s).wires = s.wires := rfl
@[simp] theorem setTileRun_pending (n : Nat) (s : State) : (setTileRun n s).pending = s.pending := rfl

@[simp] theorem setLoad_xm (l : Option Load) (s : State) : (setLoad l s).xm = s.xm := rfl
@[simp] theorem setLoad_ecc (l : Option Load) (s : State) : (setLoad l s).ecc = s.ecc := rfl
@[simp] theorem setLoad_corrected (l : Option Load) (s : State) : (setLoad l s).corrected = s.corrected := rfl
@[simp] theorem setLoad_arb (l : Option Load) (s : State) : (setLoad l s).arb = s.arb := rfl
@[simp] theorem setLoad_host (l : Option Load) (s : State) : (setLoad l s).host = s.host := rfl
@[simp] theorem setLoad_run (l : Option Load) (s : State) : (setLoad l s).run = s.run := rfl
@[simp] theorem setLoad_page (l : Option Load) (s : State) : (setLoad l s).page = s.page := rfl
@[simp] theorem setLoad_time (l : Option Load) (s : State) : (setLoad l s).time = s.time := rfl
@[simp] theorem setLoad_ports (l : Option Load) (s : State) : (setLoad l s).ports = s.ports := rfl
@[simp] theorem setLoad_sau (l : Option Load) (s : State) : (setLoad l s).sau = s.sau := rfl
@[simp] theorem setLoad_fck (l : Option Load) (s : State) : (setLoad l s).fck = s.fck := rfl
@[simp] theorem setLoad_fau (l : Option Load) (s : State) : (setLoad l s).fau = s.fau := rfl
@[simp] theorem setLoad_rce (l : Option Load) (s : State) : (setLoad l s).rce = { s.rce with load := l } := rfl
@[simp] theorem setLoad_watch (l : Option Load) (s : State) : (setLoad l s).watch = s.watch := rfl
@[simp] theorem setLoad_pru (l : Option Load) (s : State) : (setLoad l s).pru = s.pru := rfl
@[simp] theorem setLoad_cou (l : Option Load) (s : State) : (setLoad l s).cou = s.cou := rfl
@[simp] theorem setLoad_du (l : Option Load) (s : State) : (setLoad l s).du = s.du := rfl
@[simp] theorem setLoad_rpu (l : Option Load) (s : State) : (setLoad l s).rpu = s.rpu := rfl
@[simp] theorem setLoad_wires (l : Option Load) (s : State) : (setLoad l s).wires = s.wires := rfl
@[simp] theorem setLoad_pending (l : Option Load) (s : State) : (setLoad l s).pending = s.pending := rfl

@[simp] theorem mapRce_xm (f : Rce → Rce) (s : State) : (mapRce f s).xm = s.xm := rfl
@[simp] theorem mapRce_ecc (f : Rce → Rce) (s : State) : (mapRce f s).ecc = s.ecc := rfl
@[simp] theorem mapRce_corrected (f : Rce → Rce) (s : State) : (mapRce f s).corrected = s.corrected := rfl
@[simp] theorem mapRce_arb (f : Rce → Rce) (s : State) : (mapRce f s).arb = s.arb := rfl
@[simp] theorem mapRce_host (f : Rce → Rce) (s : State) : (mapRce f s).host = s.host := rfl
@[simp] theorem mapRce_run (f : Rce → Rce) (s : State) : (mapRce f s).run = s.run := rfl
@[simp] theorem mapRce_page (f : Rce → Rce) (s : State) : (mapRce f s).page = s.page := rfl
@[simp] theorem mapRce_time (f : Rce → Rce) (s : State) : (mapRce f s).time = s.time := rfl
@[simp] theorem mapRce_ports (f : Rce → Rce) (s : State) : (mapRce f s).ports = s.ports := rfl
@[simp] theorem mapRce_sau (f : Rce → Rce) (s : State) : (mapRce f s).sau = s.sau := rfl
@[simp] theorem mapRce_fck (f : Rce → Rce) (s : State) : (mapRce f s).fck = s.fck := rfl
@[simp] theorem mapRce_fau (f : Rce → Rce) (s : State) : (mapRce f s).fau = s.fau := rfl
@[simp] theorem mapRce_rce (f : Rce → Rce) (s : State) : (mapRce f s).rce = f s.rce := rfl
@[simp] theorem mapRce_watch (f : Rce → Rce) (s : State) : (mapRce f s).watch = s.watch := rfl
@[simp] theorem mapRce_pru (f : Rce → Rce) (s : State) : (mapRce f s).pru = s.pru := rfl
@[simp] theorem mapRce_cou (f : Rce → Rce) (s : State) : (mapRce f s).cou = s.cou := rfl
@[simp] theorem mapRce_du (f : Rce → Rce) (s : State) : (mapRce f s).du = s.du := rfl
@[simp] theorem mapRce_rpu (f : Rce → Rce) (s : State) : (mapRce f s).rpu = s.rpu := rfl
@[simp] theorem mapRce_wires (f : Rce → Rce) (s : State) : (mapRce f s).wires = s.wires := rfl
@[simp] theorem mapRce_pending (f : Rce → Rce) (s : State) : (mapRce f s).pending = s.pending := rfl

@[simp] theorem mapPru_xm (f : Pru → Pru) (s : State) : (mapPru f s).xm = s.xm := rfl
@[simp] theorem mapPru_ecc (f : Pru → Pru) (s : State) : (mapPru f s).ecc = s.ecc := rfl
@[simp] theorem mapPru_corrected (f : Pru → Pru) (s : State) : (mapPru f s).corrected = s.corrected := rfl
@[simp] theorem mapPru_arb (f : Pru → Pru) (s : State) : (mapPru f s).arb = s.arb := rfl
@[simp] theorem mapPru_host (f : Pru → Pru) (s : State) : (mapPru f s).host = s.host := rfl
@[simp] theorem mapPru_run (f : Pru → Pru) (s : State) : (mapPru f s).run = s.run := rfl
@[simp] theorem mapPru_page (f : Pru → Pru) (s : State) : (mapPru f s).page = s.page := rfl
@[simp] theorem mapPru_time (f : Pru → Pru) (s : State) : (mapPru f s).time = s.time := rfl
@[simp] theorem mapPru_ports (f : Pru → Pru) (s : State) : (mapPru f s).ports = s.ports := rfl
@[simp] theorem mapPru_sau (f : Pru → Pru) (s : State) : (mapPru f s).sau = s.sau := rfl
@[simp] theorem mapPru_fck (f : Pru → Pru) (s : State) : (mapPru f s).fck = s.fck := rfl
@[simp] theorem mapPru_fau (f : Pru → Pru) (s : State) : (mapPru f s).fau = s.fau := rfl
@[simp] theorem mapPru_rce (f : Pru → Pru) (s : State) : (mapPru f s).rce = s.rce := rfl
@[simp] theorem mapPru_watch (f : Pru → Pru) (s : State) : (mapPru f s).watch = s.watch := rfl
@[simp] theorem mapPru_pru (f : Pru → Pru) (s : State) : (mapPru f s).pru = f s.pru := rfl
@[simp] theorem mapPru_cou (f : Pru → Pru) (s : State) : (mapPru f s).cou = s.cou := rfl
@[simp] theorem mapPru_du (f : Pru → Pru) (s : State) : (mapPru f s).du = s.du := rfl
@[simp] theorem mapPru_rpu (f : Pru → Pru) (s : State) : (mapPru f s).rpu = s.rpu := rfl
@[simp] theorem mapPru_wires (f : Pru → Pru) (s : State) : (mapPru f s).wires = s.wires := rfl
@[simp] theorem mapPru_pending (f : Pru → Pru) (s : State) : (mapPru f s).pending = s.pending := rfl

@[simp] theorem mapFrame_xm (g : FrameContext → FrameContext) (s : State) : (mapFrame g s).xm = s.xm := rfl
@[simp] theorem mapFrame_ecc (g : FrameContext → FrameContext) (s : State) : (mapFrame g s).ecc = s.ecc := rfl
@[simp] theorem mapFrame_corrected (g : FrameContext → FrameContext) (s : State) :
    (mapFrame g s).corrected = s.corrected := rfl
@[simp] theorem mapFrame_arb (g : FrameContext → FrameContext) (s : State) : (mapFrame g s).arb = s.arb := rfl
@[simp] theorem mapFrame_host (g : FrameContext → FrameContext) (s : State) : (mapFrame g s).host = s.host := rfl
@[simp] theorem mapFrame_run (g : FrameContext → FrameContext) (s : State) : (mapFrame g s).run = s.run := rfl
@[simp] theorem mapFrame_page (g : FrameContext → FrameContext) (s : State) : (mapFrame g s).page = s.page := rfl
@[simp] theorem mapFrame_time (g : FrameContext → FrameContext) (s : State) : (mapFrame g s).time = s.time := rfl
@[simp] theorem mapFrame_ports (g : FrameContext → FrameContext) (s : State) : (mapFrame g s).ports = s.ports := rfl
@[simp] theorem mapFrame_sau (g : FrameContext → FrameContext) (s : State) : (mapFrame g s).sau = s.sau := rfl
@[simp] theorem mapFrame_fck (g : FrameContext → FrameContext) (s : State) : (mapFrame g s).fck = s.fck := rfl
@[simp] theorem mapFrame_fau (g : FrameContext → FrameContext) (s : State) : (mapFrame g s).fau = s.fau := rfl
@[simp] theorem mapFrame_rce (g : FrameContext → FrameContext) (s : State) :
    (mapFrame g s).rce = { s.rce with frame := s.rce.frame.map g } := rfl
@[simp] theorem mapFrame_watch (g : FrameContext → FrameContext) (s : State) : (mapFrame g s).watch = s.watch := rfl
@[simp] theorem mapFrame_pru (g : FrameContext → FrameContext) (s : State) : (mapFrame g s).pru = s.pru := rfl
@[simp] theorem mapFrame_cou (g : FrameContext → FrameContext) (s : State) : (mapFrame g s).cou = s.cou := rfl
@[simp] theorem mapFrame_du (g : FrameContext → FrameContext) (s : State) : (mapFrame g s).du = s.du := rfl
@[simp] theorem mapFrame_rpu (g : FrameContext → FrameContext) (s : State) : (mapFrame g s).rpu = s.rpu := rfl
@[simp] theorem mapFrame_wires (g : FrameContext → FrameContext) (s : State) : (mapFrame g s).wires = s.wires := rfl
@[simp] theorem mapFrame_pending (g : FrameContext → FrameContext) (s : State) : (mapFrame g s).pending = s.pending := rfl

@[simp] theorem mapStream_xm (i : Fin 16) (f : Stream → Stream) (s : State) : (mapStream i f s).xm = s.xm := rfl
@[simp] theorem mapStream_ecc (i : Fin 16) (f : Stream → Stream) (s : State) : (mapStream i f s).ecc = s.ecc := rfl
@[simp] theorem mapStream_corrected (i : Fin 16) (f : Stream → Stream) (s : State) :
    (mapStream i f s).corrected = s.corrected := rfl
@[simp] theorem mapStream_arb (i : Fin 16) (f : Stream → Stream) (s : State) : (mapStream i f s).arb = s.arb := rfl
@[simp] theorem mapStream_host (i : Fin 16) (f : Stream → Stream) (s : State) : (mapStream i f s).host = s.host := rfl
@[simp] theorem mapStream_run (i : Fin 16) (f : Stream → Stream) (s : State) : (mapStream i f s).run = s.run := rfl
@[simp] theorem mapStream_page (i : Fin 16) (f : Stream → Stream) (s : State) : (mapStream i f s).page = s.page := rfl
@[simp] theorem mapStream_time (i : Fin 16) (f : Stream → Stream) (s : State) : (mapStream i f s).time = s.time := rfl
@[simp] theorem mapStream_ports (i : Fin 16) (f : Stream → Stream) (s : State) : (mapStream i f s).ports = s.ports := rfl
@[simp] theorem mapStream_sau (i : Fin 16) (f : Stream → Stream) (s : State) :
    (mapStream i f s).sau = { s.sau with streams := tweak s.sau.streams i f } := rfl
@[simp] theorem mapStream_fck (i : Fin 16) (f : Stream → Stream) (s : State) : (mapStream i f s).fck = s.fck := rfl
@[simp] theorem mapStream_fau (i : Fin 16) (f : Stream → Stream) (s : State) : (mapStream i f s).fau = s.fau := rfl
@[simp] theorem mapStream_rce (i : Fin 16) (f : Stream → Stream) (s : State) : (mapStream i f s).rce = s.rce := rfl
@[simp] theorem mapStream_watch (i : Fin 16) (f : Stream → Stream) (s : State) : (mapStream i f s).watch = s.watch := rfl
@[simp] theorem mapStream_pru (i : Fin 16) (f : Stream → Stream) (s : State) : (mapStream i f s).pru = s.pru := rfl
@[simp] theorem mapStream_cou (i : Fin 16) (f : Stream → Stream) (s : State) : (mapStream i f s).cou = s.cou := rfl
@[simp] theorem mapStream_du (i : Fin 16) (f : Stream → Stream) (s : State) : (mapStream i f s).du = s.du := rfl
@[simp] theorem mapStream_rpu (i : Fin 16) (f : Stream → Stream) (s : State) : (mapStream i f s).rpu = s.rpu := rfl
@[simp] theorem mapStream_wires (i : Fin 16) (f : Stream → Stream) (s : State) : (mapStream i f s).wires = s.wires := rfl
@[simp] theorem mapStream_pending (i : Fin 16) (f : Stream → Stream) (s : State) :
    (mapStream i f s).pending = s.pending := rfl

@[simp] theorem mapPort_xm (l : Fin 8) (f : Port → Port) (s : State) : (mapPort l f s).xm = s.xm := rfl
@[simp] theorem mapPort_ecc (l : Fin 8) (f : Port → Port) (s : State) : (mapPort l f s).ecc = s.ecc := rfl
@[simp] theorem mapPort_corrected (l : Fin 8) (f : Port → Port) (s : State) : (mapPort l f s).corrected = s.corrected := rfl
@[simp] theorem mapPort_arb (l : Fin 8) (f : Port → Port) (s : State) : (mapPort l f s).arb = s.arb := rfl
@[simp] theorem mapPort_host (l : Fin 8) (f : Port → Port) (s : State) : (mapPort l f s).host = s.host := rfl
@[simp] theorem mapPort_run (l : Fin 8) (f : Port → Port) (s : State) : (mapPort l f s).run = s.run := rfl
@[simp] theorem mapPort_page (l : Fin 8) (f : Port → Port) (s : State) : (mapPort l f s).page = s.page := rfl
@[simp] theorem mapPort_time (l : Fin 8) (f : Port → Port) (s : State) : (mapPort l f s).time = s.time := rfl
@[simp] theorem mapPort_ports (l : Fin 8) (f : Port → Port) (s : State) : (mapPort l f s).ports = tweak s.ports l f := rfl
@[simp] theorem mapPort_sau (l : Fin 8) (f : Port → Port) (s : State) : (mapPort l f s).sau = s.sau := rfl
@[simp] theorem mapPort_fck (l : Fin 8) (f : Port → Port) (s : State) : (mapPort l f s).fck = s.fck := rfl
@[simp] theorem mapPort_fau (l : Fin 8) (f : Port → Port) (s : State) : (mapPort l f s).fau = s.fau := rfl
@[simp] theorem mapPort_rce (l : Fin 8) (f : Port → Port) (s : State) : (mapPort l f s).rce = s.rce := rfl
@[simp] theorem mapPort_watch (l : Fin 8) (f : Port → Port) (s : State) : (mapPort l f s).watch = s.watch := rfl
@[simp] theorem mapPort_pru (l : Fin 8) (f : Port → Port) (s : State) : (mapPort l f s).pru = s.pru := rfl
@[simp] theorem mapPort_cou (l : Fin 8) (f : Port → Port) (s : State) : (mapPort l f s).cou = s.cou := rfl
@[simp] theorem mapPort_du (l : Fin 8) (f : Port → Port) (s : State) : (mapPort l f s).du = s.du := rfl
@[simp] theorem mapPort_rpu (l : Fin 8) (f : Port → Port) (s : State) : (mapPort l f s).rpu = s.rpu := rfl
@[simp] theorem mapPort_wires (l : Fin 8) (f : Port → Port) (s : State) : (mapPort l f s).wires = s.wires := rfl
@[simp] theorem mapPort_pending (l : Fin 8) (f : Port → Port) (s : State) : (mapPort l f s).pending = s.pending := rfl

@[simp] theorem mapRecord_xm (r : Fin 4) (f : Record → Record) (s : State) : (mapRecord r f s).xm = s.xm := rfl
@[simp] theorem mapRecord_ecc (r : Fin 4) (f : Record → Record) (s : State) : (mapRecord r f s).ecc = s.ecc := rfl
@[simp] theorem mapRecord_corrected (r : Fin 4) (f : Record → Record) (s : State) :
    (mapRecord r f s).corrected = s.corrected := rfl
@[simp] theorem mapRecord_arb (r : Fin 4) (f : Record → Record) (s : State) : (mapRecord r f s).arb = s.arb := rfl
@[simp] theorem mapRecord_host (r : Fin 4) (f : Record → Record) (s : State) : (mapRecord r f s).host = s.host := rfl
@[simp] theorem mapRecord_run (r : Fin 4) (f : Record → Record) (s : State) : (mapRecord r f s).run = s.run := rfl
@[simp] theorem mapRecord_page (r : Fin 4) (f : Record → Record) (s : State) : (mapRecord r f s).page = s.page := rfl
@[simp] theorem mapRecord_time (r : Fin 4) (f : Record → Record) (s : State) : (mapRecord r f s).time = s.time := rfl
@[simp] theorem mapRecord_ports (r : Fin 4) (f : Record → Record) (s : State) : (mapRecord r f s).ports = s.ports := rfl
@[simp] theorem mapRecord_sau (r : Fin 4) (f : Record → Record) (s : State) : (mapRecord r f s).sau = s.sau := rfl
@[simp] theorem mapRecord_fck (r : Fin 4) (f : Record → Record) (s : State) : (mapRecord r f s).fck = s.fck := rfl
@[simp] theorem mapRecord_fau (r : Fin 4) (f : Record → Record) (s : State) :
    (mapRecord r f s).fau = { s.fau with records := tweak s.fau.records r f } := rfl
@[simp] theorem mapRecord_rce (r : Fin 4) (f : Record → Record) (s : State) : (mapRecord r f s).rce = s.rce := rfl
@[simp] theorem mapRecord_watch (r : Fin 4) (f : Record → Record) (s : State) : (mapRecord r f s).watch = s.watch := rfl
@[simp] theorem mapRecord_pru (r : Fin 4) (f : Record → Record) (s : State) : (mapRecord r f s).pru = s.pru := rfl
@[simp] theorem mapRecord_cou (r : Fin 4) (f : Record → Record) (s : State) : (mapRecord r f s).cou = s.cou := rfl
@[simp] theorem mapRecord_du (r : Fin 4) (f : Record → Record) (s : State) : (mapRecord r f s).du = s.du := rfl
@[simp] theorem mapRecord_rpu (r : Fin 4) (f : Record → Record) (s : State) : (mapRecord r f s).rpu = s.rpu := rfl
@[simp] theorem mapRecord_wires (r : Fin 4) (f : Record → Record) (s : State) : (mapRecord r f s).wires = s.wires := rfl
@[simp] theorem mapRecord_pending (r : Fin 4) (f : Record → Record) (s : State) : (mapRecord r f s).pending = s.pending := rfl

@[simp] theorem mapLink_xm (l : Fin 4) (f : MirrorLink → MirrorLink) (s : State) : (mapLink l f s).xm = s.xm := rfl
@[simp] theorem mapLink_ecc (l : Fin 4) (f : MirrorLink → MirrorLink) (s : State) : (mapLink l f s).ecc = s.ecc := rfl
@[simp] theorem mapLink_corrected (l : Fin 4) (f : MirrorLink → MirrorLink) (s : State) :
    (mapLink l f s).corrected = s.corrected := rfl
@[simp] theorem mapLink_arb (l : Fin 4) (f : MirrorLink → MirrorLink) (s : State) : (mapLink l f s).arb = s.arb := rfl
@[simp] theorem mapLink_host (l : Fin 4) (f : MirrorLink → MirrorLink) (s : State) : (mapLink l f s).host = s.host := rfl
@[simp] theorem mapLink_run (l : Fin 4) (f : MirrorLink → MirrorLink) (s : State) : (mapLink l f s).run = s.run := rfl
@[simp] theorem mapLink_page (l : Fin 4) (f : MirrorLink → MirrorLink) (s : State) : (mapLink l f s).page = s.page := rfl
@[simp] theorem mapLink_time (l : Fin 4) (f : MirrorLink → MirrorLink) (s : State) : (mapLink l f s).time = s.time := rfl
@[simp] theorem mapLink_ports (l : Fin 4) (f : MirrorLink → MirrorLink) (s : State) : (mapLink l f s).ports = s.ports := rfl
@[simp] theorem mapLink_sau (l : Fin 4) (f : MirrorLink → MirrorLink) (s : State) : (mapLink l f s).sau = s.sau := rfl
@[simp] theorem mapLink_fck (l : Fin 4) (f : MirrorLink → MirrorLink) (s : State) : (mapLink l f s).fck = s.fck := rfl
@[simp] theorem mapLink_fau (l : Fin 4) (f : MirrorLink → MirrorLink) (s : State) : (mapLink l f s).fau = s.fau := rfl
@[simp] theorem mapLink_rce (l : Fin 4) (f : MirrorLink → MirrorLink) (s : State) : (mapLink l f s).rce = s.rce := rfl
@[simp] theorem mapLink_watch (l : Fin 4) (f : MirrorLink → MirrorLink) (s : State) : (mapLink l f s).watch = s.watch := rfl
@[simp] theorem mapLink_pru (l : Fin 4) (f : MirrorLink → MirrorLink) (s : State) : (mapLink l f s).pru = s.pru := rfl
@[simp] theorem mapLink_cou (l : Fin 4) (f : MirrorLink → MirrorLink) (s : State) :
    (mapLink l f s).cou = { s.cou with links := tweak s.cou.links l f } := rfl
@[simp] theorem mapLink_du (l : Fin 4) (f : MirrorLink → MirrorLink) (s : State) : (mapLink l f s).du = s.du := rfl
@[simp] theorem mapLink_rpu (l : Fin 4) (f : MirrorLink → MirrorLink) (s : State) : (mapLink l f s).rpu = s.rpu := rfl
@[simp] theorem mapLink_wires (l : Fin 4) (f : MirrorLink → MirrorLink) (s : State) : (mapLink l f s).wires = s.wires := rfl
@[simp] theorem mapLink_pending (l : Fin 4) (f : MirrorLink → MirrorLink) (s : State) :
    (mapLink l f s).pending = s.pending := rfl

@[simp] theorem mapLinks_xm (f : MirrorLink → MirrorLink) (s : State) : (mapLinks f s).xm = s.xm := rfl
@[simp] theorem mapLinks_ecc (f : MirrorLink → MirrorLink) (s : State) : (mapLinks f s).ecc = s.ecc := rfl
@[simp] theorem mapLinks_corrected (f : MirrorLink → MirrorLink) (s : State) : (mapLinks f s).corrected = s.corrected := rfl
@[simp] theorem mapLinks_arb (f : MirrorLink → MirrorLink) (s : State) : (mapLinks f s).arb = s.arb := rfl
@[simp] theorem mapLinks_host (f : MirrorLink → MirrorLink) (s : State) : (mapLinks f s).host = s.host := rfl
@[simp] theorem mapLinks_run (f : MirrorLink → MirrorLink) (s : State) : (mapLinks f s).run = s.run := rfl
@[simp] theorem mapLinks_page (f : MirrorLink → MirrorLink) (s : State) : (mapLinks f s).page = s.page := rfl
@[simp] theorem mapLinks_time (f : MirrorLink → MirrorLink) (s : State) : (mapLinks f s).time = s.time := rfl
@[simp] theorem mapLinks_ports (f : MirrorLink → MirrorLink) (s : State) : (mapLinks f s).ports = s.ports := rfl
@[simp] theorem mapLinks_sau (f : MirrorLink → MirrorLink) (s : State) : (mapLinks f s).sau = s.sau := rfl
@[simp] theorem mapLinks_fck (f : MirrorLink → MirrorLink) (s : State) : (mapLinks f s).fck = s.fck := rfl
@[simp] theorem mapLinks_fau (f : MirrorLink → MirrorLink) (s : State) : (mapLinks f s).fau = s.fau := rfl
@[simp] theorem mapLinks_rce (f : MirrorLink → MirrorLink) (s : State) : (mapLinks f s).rce = s.rce := rfl
@[simp] theorem mapLinks_watch (f : MirrorLink → MirrorLink) (s : State) : (mapLinks f s).watch = s.watch := rfl
@[simp] theorem mapLinks_pru (f : MirrorLink → MirrorLink) (s : State) : (mapLinks f s).pru = s.pru := rfl
@[simp] theorem mapLinks_cou (f : MirrorLink → MirrorLink) (s : State) :
    (mapLinks f s).cou = { s.cou with links := s.cou.links.map f } := rfl
@[simp] theorem mapLinks_du (f : MirrorLink → MirrorLink) (s : State) : (mapLinks f s).du = s.du := rfl
@[simp] theorem mapLinks_rpu (f : MirrorLink → MirrorLink) (s : State) : (mapLinks f s).rpu = s.rpu := rfl
@[simp] theorem mapLinks_wires (f : MirrorLink → MirrorLink) (s : State) : (mapLinks f s).wires = s.wires := rfl
@[simp] theorem mapLinks_pending (f : MirrorLink → MirrorLink) (s : State) : (mapLinks f s).pending = s.pending := rfl

@[simp] theorem mapLinksAt_xm (f : Fin 4 → MirrorLink → MirrorLink) (s : State) : (mapLinksAt f s).xm = s.xm := rfl
@[simp] theorem mapLinksAt_ecc (f : Fin 4 → MirrorLink → MirrorLink) (s : State) : (mapLinksAt f s).ecc = s.ecc := rfl
@[simp] theorem mapLinksAt_corrected (f : Fin 4 → MirrorLink → MirrorLink) (s : State) :
    (mapLinksAt f s).corrected = s.corrected := rfl
@[simp] theorem mapLinksAt_arb (f : Fin 4 → MirrorLink → MirrorLink) (s : State) : (mapLinksAt f s).arb = s.arb := rfl
@[simp] theorem mapLinksAt_host (f : Fin 4 → MirrorLink → MirrorLink) (s : State) : (mapLinksAt f s).host = s.host := rfl
@[simp] theorem mapLinksAt_run (f : Fin 4 → MirrorLink → MirrorLink) (s : State) : (mapLinksAt f s).run = s.run := rfl
@[simp] theorem mapLinksAt_page (f : Fin 4 → MirrorLink → MirrorLink) (s : State) : (mapLinksAt f s).page = s.page := rfl
@[simp] theorem mapLinksAt_time (f : Fin 4 → MirrorLink → MirrorLink) (s : State) : (mapLinksAt f s).time = s.time := rfl
@[simp] theorem mapLinksAt_ports (f : Fin 4 → MirrorLink → MirrorLink) (s : State) : (mapLinksAt f s).ports = s.ports := rfl
@[simp] theorem mapLinksAt_sau (f : Fin 4 → MirrorLink → MirrorLink) (s : State) : (mapLinksAt f s).sau = s.sau := rfl
@[simp] theorem mapLinksAt_fck (f : Fin 4 → MirrorLink → MirrorLink) (s : State) : (mapLinksAt f s).fck = s.fck := rfl
@[simp] theorem mapLinksAt_fau (f : Fin 4 → MirrorLink → MirrorLink) (s : State) : (mapLinksAt f s).fau = s.fau := rfl
@[simp] theorem mapLinksAt_rce (f : Fin 4 → MirrorLink → MirrorLink) (s : State) : (mapLinksAt f s).rce = s.rce := rfl
@[simp] theorem mapLinksAt_watch (f : Fin 4 → MirrorLink → MirrorLink) (s : State) : (mapLinksAt f s).watch = s.watch := rfl
@[simp] theorem mapLinksAt_pru (f : Fin 4 → MirrorLink → MirrorLink) (s : State) : (mapLinksAt f s).pru = s.pru := rfl
@[simp] theorem mapLinksAt_cou (f : Fin 4 → MirrorLink → MirrorLink) (s : State) :
    (mapLinksAt f s).cou = { s.cou with links := Vector.ofFn fun i => f i s.cou.links[i] } := rfl
@[simp] theorem mapLinksAt_du (f : Fin 4 → MirrorLink → MirrorLink) (s : State) : (mapLinksAt f s).du = s.du := rfl
@[simp] theorem mapLinksAt_rpu (f : Fin 4 → MirrorLink → MirrorLink) (s : State) : (mapLinksAt f s).rpu = s.rpu := rfl
@[simp] theorem mapLinksAt_wires (f : Fin 4 → MirrorLink → MirrorLink) (s : State) : (mapLinksAt f s).wires = s.wires := rfl
@[simp] theorem mapLinksAt_pending (f : Fin 4 → MirrorLink → MirrorLink) (s : State) :
    (mapLinksAt f s).pending = s.pending := rfl

@[simp] theorem setOutput_xm (o : OutputState) (c : HoldCauses) (s : State) : (setOutput o c s).xm = s.xm := rfl
@[simp] theorem setOutput_ecc (o : OutputState) (c : HoldCauses) (s : State) : (setOutput o c s).ecc = s.ecc := rfl
@[simp] theorem setOutput_corrected (o : OutputState) (c : HoldCauses) (s : State) :
    (setOutput o c s).corrected = s.corrected := rfl
@[simp] theorem setOutput_arb (o : OutputState) (c : HoldCauses) (s : State) : (setOutput o c s).arb = s.arb := rfl
@[simp] theorem setOutput_host (o : OutputState) (c : HoldCauses) (s : State) : (setOutput o c s).host = s.host := rfl
@[simp] theorem setOutput_run (o : OutputState) (c : HoldCauses) (s : State) : (setOutput o c s).run = s.run := rfl
@[simp] theorem setOutput_page (o : OutputState) (c : HoldCauses) (s : State) : (setOutput o c s).page = s.page := rfl
@[simp] theorem setOutput_time (o : OutputState) (c : HoldCauses) (s : State) : (setOutput o c s).time = s.time := rfl
@[simp] theorem setOutput_ports (o : OutputState) (c : HoldCauses) (s : State) : (setOutput o c s).ports = s.ports := rfl
@[simp] theorem setOutput_sau (o : OutputState) (c : HoldCauses) (s : State) : (setOutput o c s).sau = s.sau := rfl
@[simp] theorem setOutput_fck (o : OutputState) (c : HoldCauses) (s : State) : (setOutput o c s).fck = s.fck := rfl
@[simp] theorem setOutput_fau (o : OutputState) (c : HoldCauses) (s : State) : (setOutput o c s).fau = s.fau := rfl
@[simp] theorem setOutput_rce (o : OutputState) (c : HoldCauses) (s : State) : (setOutput o c s).rce = s.rce := rfl
@[simp] theorem setOutput_watch (o : OutputState) (c : HoldCauses) (s : State) : (setOutput o c s).watch = s.watch := rfl
@[simp] theorem setOutput_pru (o : OutputState) (c : HoldCauses) (s : State) : (setOutput o c s).pru = s.pru := rfl
@[simp] theorem setOutput_cou (o : OutputState) (c : HoldCauses) (s : State) :
    (setOutput o c s).cou = { s.cou with output := o, causes := c } := rfl
@[simp] theorem setOutput_du (o : OutputState) (c : HoldCauses) (s : State) : (setOutput o c s).du = s.du := rfl
@[simp] theorem setOutput_rpu (o : OutputState) (c : HoldCauses) (s : State) : (setOutput o c s).rpu = s.rpu := rfl
@[simp] theorem setOutput_wires (o : OutputState) (c : HoldCauses) (s : State) : (setOutput o c s).wires = s.wires := rfl
@[simp] theorem setOutput_pending (o : OutputState) (c : HoldCauses) (s : State) :
    (setOutput o c s).pending = s.pending := rfl

@[simp] theorem setInterlock_xm (l i : InterlockLevel) (r : Option Time) (s : State) : (setInterlock l i r s).xm = s.xm := rfl
@[simp] theorem setInterlock_ecc (l i : InterlockLevel) (r : Option Time) (s : State) :
    (setInterlock l i r s).ecc = s.ecc := rfl
@[simp] theorem setInterlock_corrected (l i : InterlockLevel) (r : Option Time) (s : State) :
    (setInterlock l i r s).corrected = s.corrected := rfl
@[simp] theorem setInterlock_arb (l i : InterlockLevel) (r : Option Time) (s : State) :
    (setInterlock l i r s).arb = s.arb := rfl
@[simp] theorem setInterlock_host (l i : InterlockLevel) (r : Option Time) (s : State) :
    (setInterlock l i r s).host = s.host := rfl
@[simp] theorem setInterlock_run (l i : InterlockLevel) (r : Option Time) (s : State) :
    (setInterlock l i r s).run = s.run := rfl
@[simp] theorem setInterlock_page (l i : InterlockLevel) (r : Option Time) (s : State) :
    (setInterlock l i r s).page = s.page := rfl
@[simp] theorem setInterlock_time (l i : InterlockLevel) (r : Option Time) (s : State) :
    (setInterlock l i r s).time = s.time := rfl
@[simp] theorem setInterlock_ports (l i : InterlockLevel) (r : Option Time) (s : State) :
    (setInterlock l i r s).ports = s.ports := rfl
@[simp] theorem setInterlock_sau (l i : InterlockLevel) (r : Option Time) (s : State) :
    (setInterlock l i r s).sau = s.sau := rfl
@[simp] theorem setInterlock_fck (l i : InterlockLevel) (r : Option Time) (s : State) :
    (setInterlock l i r s).fck = s.fck := rfl
@[simp] theorem setInterlock_fau (l i : InterlockLevel) (r : Option Time) (s : State) :
    (setInterlock l i r s).fau = s.fau := rfl
@[simp] theorem setInterlock_rce (l i : InterlockLevel) (r : Option Time) (s : State) :
    (setInterlock l i r s).rce = s.rce := rfl
@[simp] theorem setInterlock_watch (l i : InterlockLevel) (r : Option Time) (s : State) :
    (setInterlock l i r s).watch = s.watch := rfl
@[simp] theorem setInterlock_pru (l i : InterlockLevel) (r : Option Time) (s : State) :
    (setInterlock l i r s).pru = s.pru := rfl
@[simp] theorem setInterlock_cou (l i : InterlockLevel) (r : Option Time) (s : State) :
    (setInterlock l i r s).cou = { s.cou with level := l, input := i, release := r } := rfl
@[simp] theorem setInterlock_du (l i : InterlockLevel) (r : Option Time) (s : State) : (setInterlock l i r s).du = s.du := rfl
@[simp] theorem setInterlock_rpu (l i : InterlockLevel) (r : Option Time) (s : State) :
    (setInterlock l i r s).rpu = s.rpu := rfl
@[simp] theorem setInterlock_wires (l i : InterlockLevel) (r : Option Time) (s : State) :
    (setInterlock l i r s).wires = s.wires := rfl
@[simp] theorem setInterlock_pending (l i : InterlockLevel) (r : Option Time) (s : State) :
    (setInterlock l i r s).pending = s.pending := rfl

@[simp] theorem setPhase_xm (p : HandPhase) (a : Activity) (s : State) : (setPhase p a s).xm = s.xm := rfl
@[simp] theorem setPhase_ecc (p : HandPhase) (a : Activity) (s : State) : (setPhase p a s).ecc = s.ecc := rfl
@[simp] theorem setPhase_corrected (p : HandPhase) (a : Activity) (s : State) :
    (setPhase p a s).corrected = s.corrected := rfl
@[simp] theorem setPhase_arb (p : HandPhase) (a : Activity) (s : State) : (setPhase p a s).arb = s.arb := rfl
@[simp] theorem setPhase_host (p : HandPhase) (a : Activity) (s : State) : (setPhase p a s).host = s.host := rfl
@[simp] theorem setPhase_run (p : HandPhase) (a : Activity) (s : State) : (setPhase p a s).run = s.run := rfl
@[simp] theorem setPhase_page (p : HandPhase) (a : Activity) (s : State) : (setPhase p a s).page = s.page := rfl
@[simp] theorem setPhase_time (p : HandPhase) (a : Activity) (s : State) : (setPhase p a s).time = s.time := rfl
@[simp] theorem setPhase_ports (p : HandPhase) (a : Activity) (s : State) : (setPhase p a s).ports = s.ports := rfl
@[simp] theorem setPhase_sau (p : HandPhase) (a : Activity) (s : State) : (setPhase p a s).sau = s.sau := rfl
@[simp] theorem setPhase_fck (p : HandPhase) (a : Activity) (s : State) : (setPhase p a s).fck = s.fck := rfl
@[simp] theorem setPhase_fau (p : HandPhase) (a : Activity) (s : State) : (setPhase p a s).fau = s.fau := rfl
@[simp] theorem setPhase_rce (p : HandPhase) (a : Activity) (s : State) : (setPhase p a s).rce = s.rce := rfl
@[simp] theorem setPhase_watch (p : HandPhase) (a : Activity) (s : State) : (setPhase p a s).watch = s.watch := rfl
@[simp] theorem setPhase_pru (p : HandPhase) (a : Activity) (s : State) : (setPhase p a s).pru = s.pru := rfl
@[simp] theorem setPhase_cou (p : HandPhase) (a : Activity) (s : State) : (setPhase p a s).cou = s.cou := rfl
@[simp] theorem setPhase_du (p : HandPhase) (a : Activity) (s : State) :
    (setPhase p a s).du = { s.du with activity := a, hand := s.du.hand.map fun h => { h with phase := p } } := rfl
@[simp] theorem setPhase_rpu (p : HandPhase) (a : Activity) (s : State) : (setPhase p a s).rpu = s.rpu := rfl
@[simp] theorem setPhase_wires (p : HandPhase) (a : Activity) (s : State) : (setPhase p a s).wires = s.wires := rfl
@[simp] theorem setPhase_pending (p : HandPhase) (a : Activity) (s : State) : (setPhase p a s).pending = s.pending := rfl

@[simp] theorem duRead_xm (p : Purpose) (a n : Nat) (s : State) : (duRead p a n s).xm = s.xm := rfl
@[simp] theorem duRead_ecc (p : Purpose) (a n : Nat) (s : State) : (duRead p a n s).ecc = s.ecc := rfl
@[simp] theorem duRead_corrected (p : Purpose) (a n : Nat) (s : State) : (duRead p a n s).corrected = s.corrected := rfl
@[simp] theorem duRead_arb (p : Purpose) (a n : Nat) (s : State) :
    (duRead p a n s).arb = { s.arb with du := s.arb.du ++ readAccesses p a n } := rfl
@[simp] theorem duRead_host (p : Purpose) (a n : Nat) (s : State) : (duRead p a n s).host = s.host := rfl
@[simp] theorem duRead_run (p : Purpose) (a n : Nat) (s : State) : (duRead p a n s).run = s.run := rfl
@[simp] theorem duRead_page (p : Purpose) (a n : Nat) (s : State) : (duRead p a n s).page = s.page := rfl
@[simp] theorem duRead_time (p : Purpose) (a n : Nat) (s : State) : (duRead p a n s).time = s.time := rfl
@[simp] theorem duRead_ports (p : Purpose) (a n : Nat) (s : State) : (duRead p a n s).ports = s.ports := rfl
@[simp] theorem duRead_sau (p : Purpose) (a n : Nat) (s : State) : (duRead p a n s).sau = s.sau := rfl
@[simp] theorem duRead_fck (p : Purpose) (a n : Nat) (s : State) : (duRead p a n s).fck = s.fck := rfl
@[simp] theorem duRead_fau (p : Purpose) (a n : Nat) (s : State) : (duRead p a n s).fau = s.fau := rfl
@[simp] theorem duRead_rce (p : Purpose) (a n : Nat) (s : State) : (duRead p a n s).rce = s.rce := rfl
@[simp] theorem duRead_watch (p : Purpose) (a n : Nat) (s : State) : (duRead p a n s).watch = s.watch := rfl
@[simp] theorem duRead_pru (p : Purpose) (a n : Nat) (s : State) : (duRead p a n s).pru = s.pru := rfl
@[simp] theorem duRead_cou (p : Purpose) (a n : Nat) (s : State) : (duRead p a n s).cou = s.cou := rfl
@[simp] theorem duRead_du (p : Purpose) (a n : Nat) (s : State) :
    (duRead p a n s).du = { s.du with job := some (newJob p a n) } := rfl
@[simp] theorem duRead_rpu (p : Purpose) (a n : Nat) (s : State) : (duRead p a n s).rpu = s.rpu := rfl
@[simp] theorem duRead_wires (p : Purpose) (a n : Nat) (s : State) : (duRead p a n s).wires = s.wires := rfl
@[simp] theorem duRead_pending (p : Purpose) (a n : Nat) (s : State) : (duRead p a n s).pending = s.pending := rfl

@[simp] theorem takeTicket_xm (t : Ticket) (s : State) : (takeTicket t s).xm = s.xm := rfl
@[simp] theorem takeTicket_ecc (t : Ticket) (s : State) : (takeTicket t s).ecc = s.ecc := rfl
@[simp] theorem takeTicket_corrected (t : Ticket) (s : State) : (takeTicket t s).corrected = s.corrected := rfl
@[simp] theorem takeTicket_arb (t : Ticket) (s : State) : (takeTicket t s).arb = s.arb := rfl
@[simp] theorem takeTicket_host (t : Ticket) (s : State) : (takeTicket t s).host = s.host := rfl
@[simp] theorem takeTicket_run (t : Ticket) (s : State) : (takeTicket t s).run = s.run := rfl
@[simp] theorem takeTicket_page (t : Ticket) (s : State) : (takeTicket t s).page = s.page := rfl
@[simp] theorem takeTicket_time (t : Ticket) (s : State) : (takeTicket t s).time = s.time := rfl
@[simp] theorem takeTicket_ports (t : Ticket) (s : State) : (takeTicket t s).ports = s.ports := rfl
@[simp] theorem takeTicket_sau (t : Ticket) (s : State) : (takeTicket t s).sau = s.sau := rfl
@[simp] theorem takeTicket_fck (t : Ticket) (s : State) : (takeTicket t s).fck = s.fck := rfl
@[simp] theorem takeTicket_fau (t : Ticket) (s : State) : (takeTicket t s).fau = s.fau := rfl
@[simp] theorem takeTicket_rce (t : Ticket) (s : State) : (takeTicket t s).rce = s.rce := rfl
@[simp] theorem takeTicket_watch (t : Ticket) (s : State) : (takeTicket t s).watch = s.watch := rfl
@[simp] theorem takeTicket_pru (t : Ticket) (s : State) : (takeTicket t s).pru = s.pru := rfl
@[simp] theorem takeTicket_cou (t : Ticket) (s : State) : (takeTicket t s).cou = s.cou := rfl
@[simp] theorem takeTicket_rpu (t : Ticket) (s : State) : (takeTicket t s).rpu = s.rpu := rfl
@[simp] theorem takeTicket_wires (t : Ticket) (s : State) : (takeTicket t s).wires = s.wires := rfl
@[simp] theorem takeTicket_pending (t : Ticket) (s : State) : (takeTicket t s).pending = s.pending := rfl

@[simp] theorem refuseRun_xm (c : RunRefusal) (s : State) : (refuseRun c s).xm = s.xm := rfl
@[simp] theorem refuseRun_ecc (c : RunRefusal) (s : State) : (refuseRun c s).ecc = s.ecc := rfl
@[simp] theorem refuseRun_corrected (c : RunRefusal) (s : State) : (refuseRun c s).corrected = s.corrected := rfl
@[simp] theorem refuseRun_arb (c : RunRefusal) (s : State) : (refuseRun c s).arb = s.arb := rfl
@[simp] theorem refuseRun_host (c : RunRefusal) (s : State) : (refuseRun c s).host = s.host := rfl
@[simp] theorem refuseRun_run (c : RunRefusal) (s : State) : (refuseRun c s).run = { s.run with refusal := c } := rfl
@[simp] theorem refuseRun_page (c : RunRefusal) (s : State) : (refuseRun c s).page = s.page := rfl
@[simp] theorem refuseRun_time (c : RunRefusal) (s : State) : (refuseRun c s).time = s.time := rfl
@[simp] theorem refuseRun_ports (c : RunRefusal) (s : State) : (refuseRun c s).ports = s.ports := rfl
@[simp] theorem refuseRun_sau (c : RunRefusal) (s : State) : (refuseRun c s).sau = s.sau := rfl
@[simp] theorem refuseRun_fck (c : RunRefusal) (s : State) : (refuseRun c s).fck = s.fck := rfl
@[simp] theorem refuseRun_fau (c : RunRefusal) (s : State) : (refuseRun c s).fau = s.fau := rfl
@[simp] theorem refuseRun_rce (c : RunRefusal) (s : State) : (refuseRun c s).rce = s.rce := rfl
@[simp] theorem refuseRun_watch (c : RunRefusal) (s : State) : (refuseRun c s).watch = s.watch := rfl
@[simp] theorem refuseRun_pru (c : RunRefusal) (s : State) : (refuseRun c s).pru = s.pru := rfl
@[simp] theorem refuseRun_cou (c : RunRefusal) (s : State) : (refuseRun c s).cou = s.cou := rfl
@[simp] theorem refuseRun_du (c : RunRefusal) (s : State) : (refuseRun c s).du = s.du := rfl
@[simp] theorem refuseRun_rpu (c : RunRefusal) (s : State) : (refuseRun c s).rpu = s.rpu := rfl
@[simp] theorem refuseRun_wires (c : RunRefusal) (s : State) : (refuseRun c s).wires = s.wires := rfl
@[simp] theorem refuseRun_pending (c : RunRefusal) (s : State) : (refuseRun c s).pending = s.pending := rfl

@[simp] theorem enterRun_xm (r : RunState) (s : State) : (enterRun r s).xm = s.xm := rfl
@[simp] theorem enterRun_ecc (r : RunState) (s : State) : (enterRun r s).ecc = s.ecc := rfl
@[simp] theorem enterRun_corrected (r : RunState) (s : State) : (enterRun r s).corrected = s.corrected := rfl
@[simp] theorem enterRun_arb (r : RunState) (s : State) : (enterRun r s).arb = s.arb := rfl
@[simp] theorem enterRun_host (r : RunState) (s : State) : (enterRun r s).host = s.host := rfl
@[simp] theorem enterRun_run (r : RunState) (s : State) :
    (enterRun r s).run = { s.run with state := r, refusal := .none } := rfl
@[simp] theorem enterRun_page (r : RunState) (s : State) :
    (enterRun r s).page = { s.page with attention := s.page.attention ||| Cause.runChange.flag } := rfl
@[simp] theorem enterRun_time (r : RunState) (s : State) : (enterRun r s).time = s.time := rfl
@[simp] theorem enterRun_ports (r : RunState) (s : State) : (enterRun r s).ports = s.ports := rfl
@[simp] theorem enterRun_sau (r : RunState) (s : State) : (enterRun r s).sau = s.sau := rfl
@[simp] theorem enterRun_fck (r : RunState) (s : State) : (enterRun r s).fck = s.fck := rfl
@[simp] theorem enterRun_fau (r : RunState) (s : State) : (enterRun r s).fau = s.fau := rfl
@[simp] theorem enterRun_rce (r : RunState) (s : State) : (enterRun r s).rce = s.rce := rfl
@[simp] theorem enterRun_watch (r : RunState) (s : State) : (enterRun r s).watch = s.watch := rfl
@[simp] theorem enterRun_pru (r : RunState) (s : State) : (enterRun r s).pru = s.pru := rfl
@[simp] theorem enterRun_cou (r : RunState) (s : State) : (enterRun r s).cou = s.cou := rfl
@[simp] theorem enterRun_du (r : RunState) (s : State) : (enterRun r s).du = s.du := rfl
@[simp] theorem enterRun_rpu (r : RunState) (s : State) : (enterRun r s).rpu = s.rpu := rfl
@[simp] theorem enterRun_wires (r : RunState) (s : State) : (enterRun r s).wires = s.wires := rfl
@[simp] theorem enterRun_pending (r : RunState) (s : State) : (enterRun r s).pending = s.pending := rfl

end Sys2Proof.Machine
end

