-- ==== Sys2Proof/Laws/Reports.lean ====
section
/-!
SUPPORT. What follows a command's effect within its step (Machine/Reports): it changes the count of messages, the Report Unit and
the writes it has placed, and nothing else.
-/
namespace Sys2Proof.Machine

/-- The writer's next item changes the Report Unit and its queue of writes. -/
theorem kickWriter_shape (s : State) : ∃ r q, kickWriter s = { s with rpu := r, arb := { s.arb with rpu := q } } := by
  unfold kickWriter
  split
  · split
    · exact ⟨_, _, rfl⟩
    · split
      · exact ⟨_, _, rfl⟩
      · split
        · exact ⟨_, _, rfl⟩
        · exact ⟨s.rpu, s.arb.rpu, rfl⟩
  · exact ⟨s.rpu, s.arb.rpu, rfl⟩

/-- The seal of a snapshot entry changes the Report Unit, and adds to its queue of writes. -/
theorem sealSnapshot_shape (s : State) :
    ∃ r q, sealSnapshot s = { s with rpu := r, arb := { s.arb with rpu := s.arb.rpu ++ q } } := by
  unfold sealSnapshot
  split
  · exact ⟨_, _, rfl⟩
  · exact ⟨s.rpu, [], by simp⟩

theorem oweStatus_shape (before after : State) : ∃ r, oweStatus before after = { after with rpu := r } := by
  unfold oweStatus
  split
  · exact ⟨_, rfl⟩
  · exact ⟨after.rpu, rfl⟩

theorem oweStreams_shape (before after : State) : ∃ r, oweStreams before after = { after with rpu := r } := by
  unfold oweStreams
  split
  · exact ⟨_, rfl⟩
  · exact ⟨after.rpu, rfl⟩

/-- The messages sent by a step with a given effect (R171). -/
def messages (before after : State) : Nat :=
  if after.page.msiEnabled && (after.page.attention &&& ~~~before.page.attention &&& after.page.mask) != 0 then 1 else 0

theorem sendMsi_shape (before after : State) :
    sendMsi before after = { after with page := { after.page with msiSent := after.page.msiSent + messages before after } } := by
  unfold sendMsi messages
  split <;> rfl

/-- All that the reports of a step change. -/
theorem settle_shape (before after : State) : ∃ r q, settle before after =
    { after with
      page := { after.page with msiSent := after.page.msiSent + messages before after }
      rpu := r
      arb := { after.arb with rpu := q } } := by
  obtain ⟨r1, h1⟩ := oweStatus_shape before (sendMsi before after)
  obtain ⟨r2, h2⟩ := oweStreams_shape before { sendMsi before after with rpu := r1 }
  obtain ⟨r3, q, h3⟩ := kickWriter_shape { sendMsi before after with rpu := r2 }
  refine ⟨r3, q, ?_⟩
  unfold settle
  rw [h1, h2, h3, sendMsi_shape]

theorem settle_touches (before after : State) : OnlyChanges reportParts after (settle before after) := by
  obtain ⟨r, q, h⟩ := settle_shape before after
  rw [h]
  refine ⟨fun p hp => ?_⟩
  cases p <;> first | exact absurd (by decide) hp | exact rfl | exact ⟨rfl, rfl⟩

@[simp] theorem settle_xm (b s : State) : (settle b s).xm = s.xm := by
  obtain ⟨r, q, h⟩ := settle_shape b s; rw [h]

@[simp] theorem settle_ecc (b s : State) : (settle b s).ecc = s.ecc := by
  obtain ⟨r, q, h⟩ := settle_shape b s; rw [h]

@[simp] theorem settle_corrected (b s : State) : (settle b s).corrected = s.corrected := by
  obtain ⟨r, q, h⟩ := settle_shape b s; rw [h]

@[simp] theorem settle_host (b s : State) : (settle b s).host = s.host := by
  obtain ⟨r, q, h⟩ := settle_shape b s; rw [h]

@[simp] theorem settle_run (b s : State) : (settle b s).run = s.run := by
  obtain ⟨r, q, h⟩ := settle_shape b s; rw [h]

@[simp] theorem settle_time (b s : State) : (settle b s).time = s.time := by
  obtain ⟨r, q, h⟩ := settle_shape b s; rw [h]

@[simp] theorem settle_ports (b s : State) : (settle b s).ports = s.ports := by
  obtain ⟨r, q, h⟩ := settle_shape b s; rw [h]

@[simp] theorem settle_sau (b s : State) : (settle b s).sau = s.sau := by
  obtain ⟨r, q, h⟩ := settle_shape b s; rw [h]

@[simp] theorem settle_fck (b s : State) : (settle b s).fck = s.fck := by
  obtain ⟨r, q, h⟩ := settle_shape b s; rw [h]

@[simp] theorem settle_fau (b s : State) : (settle b s).fau = s.fau := by
  obtain ⟨r, q, h⟩ := settle_shape b s; rw [h]

@[simp] theorem settle_rce (b s : State) : (settle b s).rce = s.rce := by
  obtain ⟨r, q, h⟩ := settle_shape b s; rw [h]

@[simp] theorem settle_watch (b s : State) : (settle b s).watch = s.watch := by
  obtain ⟨r, q, h⟩ := settle_shape b s; rw [h]

@[simp] theorem settle_pru (b s : State) : (settle b s).pru = s.pru := by
  obtain ⟨r, q, h⟩ := settle_shape b s; rw [h]

@[simp] theorem settle_cou (b s : State) : (settle b s).cou = s.cou := by
  obtain ⟨r, q, h⟩ := settle_shape b s; rw [h]

@[simp] theorem settle_du (b s : State) : (settle b s).du = s.du := by
  obtain ⟨r, q, h⟩ := settle_shape b s; rw [h]

@[simp] theorem settle_wires (b s : State) : (settle b s).wires = s.wires := by
  obtain ⟨r, q, h⟩ := settle_shape b s; rw [h]

@[simp] theorem settle_pending (b s : State) : (settle b s).pending = s.pending := by
  obtain ⟨r, q, h⟩ := settle_shape b s; rw [h]

@[simp] theorem settle_arb_du (b s : State) : (settle b s).arb.du = s.arb.du := by
  obtain ⟨r, q, h⟩ := settle_shape b s; rw [h]

@[simp] theorem settle_arb_sau (b s : State) : (settle b s).arb.sau = s.arb.sau := by
  obtain ⟨r, q, h⟩ := settle_shape b s; rw [h]

@[simp] theorem settle_arb_host (b s : State) : (settle b s).arb.host = s.arb.host := by
  obtain ⟨r, q, h⟩ := settle_shape b s; rw [h]

@[simp] theorem settle_arb_tileRun (b s : State) : (settle b s).arb.tileRun = s.arb.tileRun := by
  obtain ⟨r, q, h⟩ := settle_shape b s; rw [h]

@[simp] theorem settle_arb_pointer (b s : State) : (settle b s).arb.pointer = s.arb.pointer := by
  obtain ⟨r, q, h⟩ := settle_shape b s; rw [h]

@[simp] theorem settle_page_attention (b s : State) : (settle b s).page.attention = s.page.attention := by
  obtain ⟨r, q, h⟩ := settle_shape b s; rw [h]

@[simp] theorem settle_page_mask (b s : State) : (settle b s).page.mask = s.page.mask := by
  obtain ⟨r, q, h⟩ := settle_shape b s; rw [h]

@[simp] theorem settle_page_msiEnabled (b s : State) : (settle b s).page.msiEnabled = s.page.msiEnabled := by
  obtain ⟨r, q, h⟩ := settle_shape b s; rw [h]

@[simp] theorem settle_msiSent (b s : State) : (settle b s).page.msiSent = s.page.msiSent + messages b s := by
  obtain ⟨r, q, h⟩ := settle_shape b s; rw [h]

/-- A step with a given effect goes on. -/
@[simp] theorem finish_next (b s t : State) : finish b s = .next t ↔ settle b s = t := by
  simp [finish]

end Sys2Proof.Machine
end

