-- ==== Sys2Proof/Laws/Frame.lean ====
section
/-!
SUPPORT. What each shared operation may change, said once: OnlyChanges lists the parts.
-/
namespace Sys2Proof.Machine

theorem OnlyChanges.refl (ps : List Part) (s : State) : OnlyChanges ps s s := by
  refine ⟨fun p _ => ?_⟩
  cases p <;> first | exact rfl | exact ⟨rfl, rfl⟩

theorem Part.Same.trans {p : Part} {s t u : State} (h : p.Same s t) (k : p.Same t u) : p.Same s u := by
  cases p <;> first | exact Eq.trans k h | exact ⟨Eq.trans k.1 h.1, Eq.trans k.2 h.2⟩

theorem OnlyChanges.trans {ps : List Part} {s t u : State} (h : OnlyChanges ps s t) (k : OnlyChanges ps t u) :
    OnlyChanges ps s u := ⟨fun p hp => (h.same p hp).trans (k.same p hp)⟩

theorem OnlyChanges.mono {ps qs : List Part} {s t : State} (h : OnlyChanges ps s t) (sub : ∀ p, p ∈ ps → p ∈ qs) :
    OnlyChanges qs s t := ⟨fun p hp => h.same p fun m => hp (sub p m)⟩

/-- A fold of operations that each change only some parts changes only those. -/
theorem OnlyChanges.foldl {α : Type} {ps : List Part} {f : State → α → State} (h : ∀ s a, OnlyChanges ps s (f s a))
    (as : List α) (s : State) : OnlyChanges ps s (as.foldl f s) := by
  induction as generalizing s with
  | nil => exact .refl ps s
  | cons a as ih => exact (h s a).trans (ih (f s a))

/-- A step with a given effect touches what the effect changes. -/
theorem OnlyChanges.settle {ps : List Part} {s e : State} (b : State) (h : OnlyChanges ps s e) :
    Touches ps s (settle b e) :=
  (h.mono fun _ m => List.mem_append_left _ m).trans
    ((settle_touches b e).mono fun _ m => List.mem_append_right _ m)

/-- A step that has first taken an earlier event touches what the two of them change. -/
theorem OnlyChanges.settleAfter {ps : List Part} {s first e : State} (b : State) (h : OnlyChanges (ps ++ reportParts) s first)
    (k : OnlyChanges ps first e) : Touches ps s (Sys2Proof.Machine.settle b e) :=
  h.trans (OnlyChanges.settle b k)

/-! ### Plain updates -/

theorem sendMsi_only (b s : State) : OnlyChanges [.msi] s (sendMsi b s) := by
  unfold sendMsi; split
  · refine ⟨fun p hp => ?_⟩; cases p <;> first | exact absurd (by decide) hp | exact rfl | exact ⟨rfl, rfl⟩
  · exact .refl _ s

theorem raise_only (c : Cause) (s : State) : OnlyChanges [.attention] s (raise c s) := by
  refine ⟨fun p hp => ?_⟩; cases p <;> first | exact absurd (by decide) hp | exact rfl | exact ⟨rfl, rfl⟩

theorem raiseIf_only (b : Bool) (c : Cause) (s : State) : OnlyChanges [.attention] s (raiseIf b c s) := by
  unfold raiseIf; split
  · exact raise_only c s
  · exact .refl _ s

theorem placeDu_only (as : List Access) (s : State) : OnlyChanges [.duQueue] s (placeDu as s) := by
  refine ⟨fun p hp => ?_⟩; cases p <;> first | exact absurd (by decide) hp | exact rfl | exact ⟨rfl, rfl⟩

theorem duRead_only (q : Purpose) (a n : Nat) (s : State) : OnlyChanges [.du, .duQueue] s (duRead q a n s) := by
  refine ⟨fun p hp => ?_⟩; cases p <;> first | exact absurd (by decide) hp | exact rfl | exact ⟨rfl, rfl⟩

theorem setPhase_only (q : HandPhase) (a : Activity) (s : State) : OnlyChanges [.du] s (setPhase q a s) := by
  refine ⟨fun p hp => ?_⟩; cases p <;> first | exact absurd (by decide) hp | exact rfl | exact ⟨rfl, rfl⟩

theorem takeTicket_only (t : Ticket) (s : State) : OnlyChanges [.du] s (takeTicket t s) := by
  refine ⟨fun p hp => ?_⟩; cases p <;> first | exact absurd (by decide) hp | exact rfl | exact ⟨rfl, rfl⟩

theorem mapStream_only (i : Fin 16) (f : Stream → Stream) (s : State) : OnlyChanges [.sau] s (mapStream i f s) := by
  refine ⟨fun p hp => ?_⟩; cases p <;> first | exact absurd (by decide) hp | exact rfl | exact ⟨rfl, rfl⟩

theorem mapPort_only (i : Fin 8) (f : Port → Port) (s : State) : OnlyChanges [.ports] s (mapPort i f s) := by
  refine ⟨fun p hp => ?_⟩; cases p <;> first | exact absurd (by decide) hp | exact rfl | exact ⟨rfl, rfl⟩

theorem mapRecord_only (i : Fin 4) (f : Record → Record) (s : State) : OnlyChanges [.fau] s (mapRecord i f s) := by
  refine ⟨fun p hp => ?_⟩; cases p <;> first | exact absurd (by decide) hp | exact rfl | exact ⟨rfl, rfl⟩

theorem mapRce_only (f : Rce → Rce) (s : State) : OnlyChanges [.rce] s (mapRce f s) := by
  refine ⟨fun p hp => ?_⟩; cases p <;> first | exact absurd (by decide) hp | exact rfl | exact ⟨rfl, rfl⟩

theorem mapFrame_only (f : FrameContext → FrameContext) (s : State) : OnlyChanges [.rce] s (mapFrame f s) := by
  refine ⟨fun p hp => ?_⟩; cases p <;> first | exact absurd (by decide) hp | exact rfl | exact ⟨rfl, rfl⟩

theorem mapPru_only (f : Pru → Pru) (s : State) : OnlyChanges [.pru] s (mapPru f s) := by
  refine ⟨fun p hp => ?_⟩; cases p <;> first | exact absurd (by decide) hp | exact rfl | exact ⟨rfl, rfl⟩

theorem mapLink_only (i : Fin 4) (f : MirrorLink → MirrorLink) (s : State) : OnlyChanges [.cou] s (mapLink i f s) := by
  refine ⟨fun p hp => ?_⟩; cases p <;> first | exact absurd (by decide) hp | exact rfl | exact ⟨rfl, rfl⟩

theorem mapLinks_only (f : MirrorLink → MirrorLink) (s : State) : OnlyChanges [.cou] s (mapLinks f s) := by
  refine ⟨fun p hp => ?_⟩; cases p <;> first | exact absurd (by decide) hp | exact rfl | exact ⟨rfl, rfl⟩

theorem mapLinksAt_only (f : Fin 4 → MirrorLink → MirrorLink) (s : State) : OnlyChanges [.cou] s (mapLinksAt f s) := by
  refine ⟨fun p hp => ?_⟩; cases p <;> first | exact absurd (by decide) hp | exact rfl | exact ⟨rfl, rfl⟩

theorem setOutput_only (o : OutputState) (c : HoldCauses) (s : State) : OnlyChanges [.cou] s (setOutput o c s) := by
  refine ⟨fun p hp => ?_⟩; cases p <;> first | exact absurd (by decide) hp | exact rfl | exact ⟨rfl, rfl⟩

theorem setInterlock_only (l i : InterlockLevel) (r : Option Time) (s : State) :
    OnlyChanges [.cou] s (setInterlock l i r s) := by
  refine ⟨fun p hp => ?_⟩; cases p <;> first | exact absurd (by decide) hp | exact rfl | exact ⟨rfl, rfl⟩

theorem setSlot_only (i : SlotId) (x : Slot) (s : State) : OnlyChanges [.rce] s (setSlot i x s) := by
  refine ⟨fun p hp => ?_⟩; cases i <;> cases p <;> first | exact absurd (by decide) hp | exact rfl | exact ⟨rfl, rfl⟩

theorem setLoad_only (l : Option Load) (s : State) : OnlyChanges [.rce] s (setLoad l s) := by
  refine ⟨fun p hp => ?_⟩; cases p <;> first | exact absurd (by decide) hp | exact rfl | exact ⟨rfl, rfl⟩

theorem rebuildWatch_only (s : State) : OnlyChanges [.watch] s (rebuildWatch s) := by
  refine ⟨fun p hp => ?_⟩; cases p <;> first | exact absurd (by decide) hp | exact rfl | exact ⟨rfl, rfl⟩

theorem writeBytes_only (a : Nat) (bs : List Byte) (s : State) : OnlyChanges [.xm] s (writeBytes s a bs) := by
  refine ⟨fun p hp => ?_⟩; cases p <;> first | exact absurd (by decide) hp | exact rfl | exact ⟨rfl, rfl⟩

theorem emit_only (q : Packet) (s : State) : OnlyChanges [.cou] s (emit q s) := by
  refine ⟨fun p hp => ?_⟩; cases p <;> first | exact absurd (by decide) hp | exact rfl | exact ⟨rfl, rfl⟩

/-! ### The Directive Unit -/

theorem placeOutcome_only (t : Ticket) (c : Nat) (d : BitVec 32) (ts : List Ticket) (s : State) :
    OnlyChanges [.duQueue] s (placeOutcome t c d ts s) := by
  unfold placeOutcome; split
  · exact .refl _ s
  · exact placeDu_only _ s

theorem finalOutcome_only (t : Ticket) (c : Nat) (d : BitVec 32) (s : State) :
    OnlyChanges [.duQueue] s (finalOutcome t c d s) := placeOutcome_only t c d [t] s

theorem readExpected_only (s : State) : OnlyChanges [.du, .duQueue] s (readExpected s) := by
  unfold readExpected; split
  · refine OnlyChanges.trans ?_ (duRead_only ..)
    refine ⟨fun p hp => ?_⟩; cases p <;> first | exact absurd (by decide) hp | exact rfl | exact ⟨rfl, rfl⟩
  · exact .refl _ s

theorem endHand_only (c : Nat) (d : BitVec 32) (s : State) : OnlyChanges [.du, .duQueue] s (endHand c d s) := by
  unfold endHand; split
  · exact .refl _ s
  · refine OnlyChanges.trans ?_ (readExpected_only _)
    refine OnlyChanges.trans ?_ ((finalOutcome_only ..).mono (by decide))
    refine ⟨fun p hp => ?_⟩; cases p <;> first | exact absurd (by decide) hp | exact rfl | exact ⟨rfl, rfl⟩

theorem occupy_only (q : Purpose) (a n : Nat) (s : State) : OnlyChanges [.du, .duQueue] s (occupy q a n s) :=
  ((setPhase_only ..).mono (by decide)).trans (duRead_only ..)

theorem joinList_only (h : Hand) (w : DeferredWork) (s : State) : OnlyChanges [.du, .duQueue] s (joinList h w s) := by
  simp only [joinList]
  refine OnlyChanges.trans ((placeOutcome_only h.ticket codePending 0 [] s).mono (by decide))
    (OnlyChanges.trans ?_ (readExpected_only _))
  refine ⟨fun p hp => ?_⟩; cases p <;> first | exact absurd (by decide) hp | exact rfl | exact ⟨rfl, rfl⟩

theorem deferOrWait_only (h : Hand) (w : DeferredWork) (s : State) :
    OnlyChanges [.du, .duQueue] s (deferOrWait h w s) := by
  unfold deferOrWait; split
  · exact joinList_only h w s
  · exact (setPhase_only ..).mono (by decide)

theorem endAll_only (ds : List Deferred) (s : State) :
    OnlyChanges [.duQueue] s (ds.foldl (fun s d => finalOutcome d.ticket codeDone 0 s) s) := by
  refine OnlyChanges.foldl (fun s d => ?_) ds s
  exact finalOutcome_only ..

theorem endEntries_only (q : Deferred → Bool) (s : State) : OnlyChanges [.du, .duQueue] s (endEntries q s) := by
  refine ((endAll_only (s.du.deferred.filter q) s).mono (by decide)).trans ⟨fun p hp => ?_⟩
  cases p <;> first | exact absurd (by decide) hp | exact rfl | exact ⟨rfl, rfl⟩

theorem judgeRetire_only (h : Hand) (s : State) : OnlyChanges [.du, .duQueue] s (judgeRetire h s) := by
  simp only [judgeRetire]; split
  · exact endHand_only ..
  · split
    · exact deferOrWait_only ..
    · exact endHand_only ..

theorem mapDrains_only (f : DrainStage → DrainStage) (s : State) : OnlyChanges [.du] s (mapDrains f s) := by
  refine ⟨fun p hp => ?_⟩; cases p <;> first | exact absurd (by decide) hp | exact rfl | exact ⟨rfl, rfl⟩

theorem advanceDrains_only (s : State) : OnlyChanges [.du, .duQueue] s (advanceDrains s) :=
  ((mapDrains_only ..).mono (by decide)).trans (endEntries_only ..)

/-! ### The Command Output Unit -/

theorem addCause_only (c : HoldCause) (s : State) : OnlyChanges [.cou, .attention] s (addCause c s) := by
  unfold addCause; split
  · exact .refl _ s
  · exact (setOutput_only ..).mono (by decide)
  · exact OnlyChanges.trans ((setOutput_only ..).mono (by decide))
      (OnlyChanges.trans ((mapLinks_only ..).mono (by decide)) ((raise_only ..).mono (by decide)))

theorem passSafePackets_only (s : State) : OnlyChanges [.cou] s (passSafePackets s) := by
  unfold passSafePackets
  refine OnlyChanges.foldl (fun s l => ?_) _ s
  split
  · exact mapLink_only ..
  · exact .refl _ s

theorem holdAction_only (s : State) : OnlyChanges [.cou] s (holdAction s) := by
  unfold holdAction; split
  · exact .refl _ s
  · refine OnlyChanges.trans ?_ (passSafePackets_only _)
    refine ⟨fun p hp => ?_⟩; cases p <;> first | exact absurd (by decide) hp | exact rfl | exact ⟨rfl, rfl⟩

theorem miss_only (l : Fin 4) (m : Miss) (s : State) : OnlyChanges [.cou, .attention] s (miss l m s) := by
  simp only [miss]; split
  · split
    · exact OnlyChanges.trans ((mapLink_only ..).mono (by decide)) (OnlyChanges.trans ((mapLink_only ..).mono (by decide))
        (OnlyChanges.trans (addCause_only ..) ((raise_only ..).mono (by decide))))
    · exact OnlyChanges.trans ((mapLink_only ..).mono (by decide)) ((mapLink_only ..).mono (by decide))
  · exact (mapLink_only ..).mono (by decide)

theorem openWindow_only (l : Fin 4) (k : PacketKind) (n : BitVec 16) (s : State) :
    OnlyChanges [.cou, .attention] s (openWindow l k n s) := by
  simp only [openWindow]; split
  · exact (mapLink_only ..).mono (by decide)
  · exact (miss_only ..).trans ((mapLink_only ..).mono (by decide))

theorem takeVector_only (f : Frame) (o : List Int) (x : LinkSettings) (s : State) :
    OnlyChanges [.cou] s (takeVector f o x s) := by
  unfold takeVector
  refine OnlyChanges.trans ?_ (OnlyChanges.foldl (fun s l => ?_) _ _)
  · refine ⟨fun p hp => ?_⟩; cases p <;> first | exact absurd (by decide) hp | exact rfl | exact ⟨rfl, rfl⟩
  · split
    · exact mapLink_only ..
    · exact .refl _ s

theorem takeGuard_only (g : GuardReport) (s : State) : OnlyChanges [.cou, .attention] s (takeGuard g s) := by
  unfold takeGuard; split
  · exact .refl _ s
  · have h : OnlyChanges [.cou, .attention] s
        { s with cou := { s.cou with
            saturationRun := guardRun (g.settings.saturationLimit < g.saturated) s.cou.saturationRun
            voidRun := guardRun g.void s.cou.voidRun } } := by
      refine ⟨fun p hp => ?_⟩; cases p <;> first | exact absurd (by decide) hp | exact rfl | exact ⟨rfl, rfl⟩
    simp only [countGuards]
    split <;> split
    · exact h.trans ((addCause_only ..).trans (addCause_only ..))
    · exact h.trans (addCause_only ..)
    · exact h.trans (addCause_only ..)
    · exact h

theorem takeToken_only (l : Fin 4) (t : Token) (s : State) : OnlyChanges [.cou, .attention] s (takeToken l t s) := by
  unfold takeToken; split
  · split
    · split
      · exact (mapLink_only ..).mono (by decide)
      · exact miss_only ..
    · exact (mapLink_only ..).mono (by decide)
  · exact (mapLink_only ..).mono (by decide)

/-! ### Streams and frames -/

theorem raiseCounters_only (i : Fin 16) (cs : List Counter) (s : State) :
    OnlyChanges [.sau, .attention] s (raiseCounters i cs s) := by
  simp only [raiseCounters]; split
  · refine OnlyChanges.trans ((mapStream_only i (fun x => cs.foldl Stream.bump x) s).mono (by decide))
      (OnlyChanges.trans ?_ ((raise_only ..).mono (by decide)))
    refine ⟨fun p hp => ?_⟩; cases p <;> first | exact absurd (by decide) hp | exact rfl | exact ⟨rfl, rfl⟩
  · exact (mapStream_only ..).mono (by decide)

theorem reportExit_only (i : Fin 16) (s : State) : OnlyChanges [.wires] s (reportExit i s) := by
  unfold reportExit; split
  · refine ⟨fun p hp => ?_⟩; cases p <;> first | exact absurd (by decide) hp | exact rfl | exact ⟨rfl, rfl⟩
  · exact .refl _ s

theorem leaveFor_only (i : Fin 16) (x : StreamState) (s : State) : OnlyChanges [.sau, .wires] s (leaveFor i x s) :=
  ((reportExit_only ..).mono (by decide)).trans ((mapStream_only ..).mono (by decide))

theorem freeRecord_only (r : Fin 4) (s : State) : OnlyChanges [.fau, .wires] s (freeRecord r s) := by
  refine ⟨fun p hp => ?_⟩; cases p <;> first | exact absurd (by decide) hp | exact rfl | exact ⟨rfl, rfl⟩

theorem freeAll_only {count : State → State} (h : ∀ s, OnlyChanges [.fau] s (count s)) (rs : List (Fin 4)) (s : State) :
    OnlyChanges [.fau, .wires] s (freeAll count rs s) :=
  OnlyChanges.foldl (fun s r => (freeRecord_only r s).trans ((h _).mono (by decide))) rs s

theorem countAbandoned_only (s : State) : OnlyChanges [.fau] s (countAbandoned s) := by
  refine ⟨fun p hp => ?_⟩; cases p <;> first | exact absurd (by decide) hp | exact rfl | exact ⟨rfl, rfl⟩

theorem countSkipped_only (s : State) : OnlyChanges [.fau] s (countSkipped s) := by
  refine ⟨fun p hp => ?_⟩; cases p <;> first | exact absurd (by decide) hp | exact rfl | exact ⟨rfl, rfl⟩

theorem abandonWaiting_only (s : State) : OnlyChanges [.fau, .wires] s (abandonWaiting s) :=
  freeAll_only countAbandoned_only _ s

theorem dispatch_only (r : Fin 4) (s : State) : OnlyChanges [.fau, .wires] s (dispatch r s) := by
  have h1 := (mapRecord_only r (fun y => { y with state := .dispatched }) s).mono (qs := [.fau, .wires]) (by decide)
  have h2 := h1.trans (freeAll_only countSkipped_only
    ((recordsIn (· == .closed) s).filter fun q => q != r) _)
  have h3 := h2.trans (freeAll_only countAbandoned_only
    ((recordsIn (· == .opened) s).filter fun q =>
      !Frame.newerBy Config.openAhead s.fau.records[q].frame s.fau.records[r].frame) _)
  refine h3.trans ⟨fun p hp => ?_⟩
  cases p <;> first | exact absurd (by decide) hp | exact rfl | exact ⟨rfl, rfl⟩

theorem dispatchCheck_only (s : State) : OnlyChanges [.fau, .wires] s (dispatchCheck s) := by
  unfold dispatchCheck; split
  · split
    · exact dispatch_only ..
    · exact .refl _ s
  · exact .refl _ s

theorem countVoidFrames_only (s : State) (x : Record) : OnlyChanges [.sau, .attention] s (countVoidFrames s x) := by
  unfold countVoidFrames
  refine OnlyChanges.foldl (fun s i => ?_) _ s
  split
  · split
    · exact raiseCounters_only ..
    · exact .refl _ s
  · exact .refl _ s

theorem closeRecord_only (r : Fin 4) (c : CloseCause) (s : State) :
    OnlyChanges [.fau, .wires, .sau, .attention] s (closeRecord r c s) :=
  ((mapRecord_only ..).mono (by decide)).trans
    (((countVoidFrames_only ..).mono (by decide)).trans ((dispatchCheck_only _).mono (by decide)))

theorem completionCheck_only (r : Fin 4) (s : State) :
    OnlyChanges [.fau, .wires, .sau, .attention] s (completionCheck r s) := by
  unfold completionCheck; split
  · exact closeRecord_only ..
  · exact .refl _ s

theorem release_only (r : Fin 4) (s : State) : OnlyChanges [.fau, .wires] s (release r s) := by
  unfold release; split
  · refine OnlyChanges.trans ?_ (freeRecord_only ..)
    refine ⟨fun p hp => ?_⟩; cases p <;> first | exact absurd (by decide) hp | exact rfl | exact ⟨rfl, rfl⟩
  · exact .refl _ s

end Sys2Proof.Machine
end

