-- ==== Sys2Proof/Laws/Effects.lean ====
section
/-!
SUPPORT. What each command's effect may change (the vocabulary of Laws/Frame), block by block.
-/
namespace Sys2Proof.Machine

/-! ### One field replaced -/

theorem with_xm_only (x : List Host.Cell) (s : State) : OnlyChanges [.xm] s { s with xm := x } := by
  refine ⟨fun p hp => ?_⟩; cases p <;> first | exact absurd (by decide) hp | exact rfl | exact ⟨rfl, rfl⟩

theorem with_ecc_only (x : Store EccMark) (s : State) : OnlyChanges [.ecc] s { s with ecc := x } := by
  refine ⟨fun p hp => ?_⟩; cases p <;> first | exact absurd (by decide) hp | exact rfl | exact ⟨rfl, rfl⟩

theorem with_corrected_only (x : BitVec 32) (s : State) : OnlyChanges [.corrected] s { s with corrected := x } := by
  refine ⟨fun p hp => ?_⟩; cases p <;> first | exact absurd (by decide) hp | exact rfl | exact ⟨rfl, rfl⟩

theorem with_host_only (x : HostSide) (s : State) : OnlyChanges [.host] s { s with host := x } := by
  refine ⟨fun p hp => ?_⟩; cases p <;> first | exact absurd (by decide) hp | exact rfl | exact ⟨rfl, rfl⟩

theorem with_run_only (x : Run) (s : State) : OnlyChanges [.run] s { s with run := x } := by
  refine ⟨fun p hp => ?_⟩; cases p <;> first | exact absurd (by decide) hp | exact rfl | exact ⟨rfl, rfl⟩

theorem with_time_only (x : Time) (s : State) : OnlyChanges [.time] s { s with time := x } := by
  refine ⟨fun p hp => ?_⟩; cases p <;> first | exact absurd (by decide) hp | exact rfl | exact ⟨rfl, rfl⟩

theorem with_ports_only (x : Vector Port 8) (s : State) : OnlyChanges [.ports] s { s with ports := x } := by
  refine ⟨fun p hp => ?_⟩; cases p <;> first | exact absurd (by decide) hp | exact rfl | exact ⟨rfl, rfl⟩

theorem with_sau_only (x : Sau) (s : State) : OnlyChanges [.sau] s { s with sau := x } := by
  refine ⟨fun p hp => ?_⟩; cases p <;> first | exact absurd (by decide) hp | exact rfl | exact ⟨rfl, rfl⟩

theorem with_fck_only (x : Fck) (s : State) : OnlyChanges [.fck] s { s with fck := x } := by
  refine ⟨fun p hp => ?_⟩; cases p <;> first | exact absurd (by decide) hp | exact rfl | exact ⟨rfl, rfl⟩

theorem with_fau_only (x : Fau) (s : State) : OnlyChanges [.fau] s { s with fau := x } := by
  refine ⟨fun p hp => ?_⟩; cases p <;> first | exact absurd (by decide) hp | exact rfl | exact ⟨rfl, rfl⟩

theorem with_rce_only (x : Rce) (s : State) : OnlyChanges [.rce] s { s with rce := x } := by
  refine ⟨fun p hp => ?_⟩; cases p <;> first | exact absurd (by decide) hp | exact rfl | exact ⟨rfl, rfl⟩

theorem with_watch_only (x : Store Watched) (s : State) : OnlyChanges [.watch] s { s with watch := x } := by
  refine ⟨fun p hp => ?_⟩; cases p <;> first | exact absurd (by decide) hp | exact rfl | exact ⟨rfl, rfl⟩

theorem with_pru_only (x : Pru) (s : State) : OnlyChanges [.pru] s { s with pru := x } := by
  refine ⟨fun p hp => ?_⟩; cases p <;> first | exact absurd (by decide) hp | exact rfl | exact ⟨rfl, rfl⟩

theorem with_cou_only (x : Cou) (s : State) : OnlyChanges [.cou] s { s with cou := x } := by
  refine ⟨fun p hp => ?_⟩; cases p <;> first | exact absurd (by decide) hp | exact rfl | exact ⟨rfl, rfl⟩

theorem with_du_only (x : Du) (s : State) : OnlyChanges [.du] s { s with du := x } := by
  refine ⟨fun p hp => ?_⟩; cases p <;> first | exact absurd (by decide) hp | exact rfl | exact ⟨rfl, rfl⟩

theorem with_rpu_only (x : Rpu) (s : State) : OnlyChanges [.rpu] s { s with rpu := x } := by
  refine ⟨fun p hp => ?_⟩; cases p <;> first | exact absurd (by decide) hp | exact rfl | exact ⟨rfl, rfl⟩

theorem with_wires_only (x : Wires) (s : State) : OnlyChanges [.wires] s { s with wires := x } := by
  refine ⟨fun p hp => ?_⟩; cases p <;> first | exact absurd (by decide) hp | exact rfl | exact ⟨rfl, rfl⟩


/-! ### Exchange Memory -/

theorem takeTaint_only (t : TaintReport) (s : State) : OnlyChanges [.rce] s (takeTaint t s) := by
  unfold takeTaint; split
  · exact mapFrame_only ..
  · exact .refl _ s

theorem takeTaints_only (s : State) : OnlyChanges [.rce, .wires] s (takeTaints s) :=
  ((OnlyChanges.foldl (fun s t => takeTaint_only t s) s.wires.taints s).mono (by decide)).trans
    ((with_wires_only _ _).mono (by decide))

theorem meetError_only (met : CellError) (g : Nat) (s : State) : OnlyChanges [.ecc] s (meetError met g s) := by
  unfold meetError; split
  · exact .refl _ s
  · exact with_ecc_only _ s

theorem readGranule_only (a : Access) (s : State) : OnlyChanges [.corrected] s (readGranule a s).2 := by
  simp only [readGranule]; split
  · exact .refl _ s
  · exact with_corrected_only _ s
  · exact .refl _ s

theorem storeGranule_only (a : Access) (bs : List Byte) (s : State) : OnlyChanges [.xm, .ecc] s (storeGranule a bs s) :=
  ((with_ecc_only (Store.erase s.ecc a.granule) s).mono (by decide)).trans ((writeBytes_only _ _ _).mono (by decide))

theorem writeGranule_only (a : Access) (bs : List Byte) (s : State) :
    OnlyChanges [.xm, .ecc, .corrected, .attention] s (writeGranule a bs s) := by
  unfold writeGranule; split
  · exact (storeGranule_only ..).mono (by decide)
  · split
    · exact (storeGranule_only ..).mono (by decide)
    · exact ((with_corrected_only (s.corrected + 1) s).mono (by decide)).trans ((storeGranule_only ..).mono (by decide))
    · exact (raise_only ..).mono (by decide)

theorem watchWrite_only (g : Nat) (s : State) : OnlyChanges [.rce, .wires, .attention] s (watchWrite g s) := by
  simp only [watchWrite]; split
  · exact .refl _ s
  · refine OnlyChanges.trans ?_ ((raise_only ..).mono (by decide))
    refine ⟨fun p hp => ?_⟩; cases p <;> first | exact absurd (by decide) hp | exact rfl | exact ⟨rfl, rfl⟩

theorem mapDuJob_only (p : Purpose) (f : ReadJob → ReadJob) (s : State) : OnlyChanges [.du] s (mapDuJob p f s) :=
  with_du_only _ s

theorem mapCopyJob_only (f : ReadJob → ReadJob) (s : State) : OnlyChanges [.pru] s (mapCopyJob f s) := with_pru_only _ s

theorem withdrawDu_only (p : Purpose → Bool) (s : State) : OnlyChanges [.duQueue] s (withdrawDu p s) := by
  refine ⟨fun p hp => ?_⟩; cases p <;> first | exact absurd (by decide) hp | exact rfl | exact ⟨rfl, rfl⟩

theorem hostReturn_only (l : Bool) (bs : List Byte) (s : State) : OnlyChanges [.host] s (hostReturn l bs s) := by
  simp only [hostReturn]; split <;> exact with_host_only _ s

/-- What a performed access may change beside its queue (R173). -/
def accessParts : List Part :=
  [.xm, .ecc, .corrected, .attention, .rce, .wires, .du, .pru, .host, .duQueue, .rpu, .rpuQueue]

theorem deliver_only (a : Access) (bs : List Byte) (s : State) : OnlyChanges accessParts s (deliver a bs s) := by
  unfold deliver; split
  all_goals first
    | exact (mapDuJob_only ..).mono (by decide)
    | exact (mapCopyJob_only ..).mono (by decide)
    | exact (with_wires_only _ s).mono (by decide)
    | exact (hostReturn_only ..).mono (by decide)
    | exact .refl _ s

theorem deliverError_only (a : Access) (s : State) : OnlyChanges accessParts s (deliverError a s) := by
  unfold deliverError; split
  all_goals first
    | exact (mapDuJob_only ..).mono (by decide)
    | exact ((mapDuJob_only ..).mono (by decide)).trans ((withdrawDu_only ..).mono (by decide))
    | exact ((mapCopyJob_only ..).mono (by decide)).trans ((withdrawDu_only ..).mono (by decide))
    | exact (with_wires_only _ s).mono (by decide)
    | exact ((raise_only ..).mono (by decide)).trans ((hostReturn_only ..).mono (by decide))
    | exact .refl _ s

theorem sealSnapshot_only (s : State) : OnlyChanges [.rpu, .rpuQueue] s (sealSnapshot s) := by
  unfold sealSnapshot; split
  · refine ⟨fun p hp => ?_⟩; cases p <;> first | exact absurd (by decide) hp | exact rfl | exact ⟨rfl, rfl⟩
  · exact .refl _ s

theorem written_only (a : Access) (s : State) : OnlyChanges accessParts s (written a s) := by
  unfold written; split
  all_goals first
    | exact (watchWrite_only ..).mono (by decide)
    | exact (with_wires_only _ s).mono (by decide)
    | exact (sealSnapshot_only s).mono (by decide)
    | exact .refl _ s

theorem perform_only (a : Access) (s : State) : OnlyChanges accessParts s (perform a s) := by
  unfold perform; split
  · have h := (readGranule_only a s).mono (qs := accessParts) (by decide)
    split
    · rename_i e; rw [e] at h; exact h.trans (deliver_only ..)
    · rename_i e; rw [e] at h; exact h.trans (deliverError_only ..)
  · exact ((writeGranule_only ..).mono (by decide)).trans (written_only ..)

/-- What a grant may change. -/
def grantParts : List Part := accessParts ++ [.sauQueue, .hostQueue, .turn]

theorem grantRotation_only (met : CellError) (s : State) : OnlyChanges grantParts s (grantRotation met s) := by
  unfold grantRotation; split
  · exact .refl _ s
  · split
    · exact .refl _ s
    · refine OnlyChanges.trans ?_ ((perform_only ..).mono (by decide))
      refine OnlyChanges.trans ?_ ((meetError_only ..).mono (by decide))
      refine ⟨fun p hp => ?_⟩; cases p <;> first | exact absurd (by decide) hp | exact rfl | exact ⟨rfl, rfl⟩

theorem grantTile_only (met : CellError) (k g : Nat) (s : State) : OnlyChanges grantParts s (grantTile met k g s) := by
  simp only [grantTile]; split
  · exact (mapFrame_only ..).mono (by decide)
  · refine OnlyChanges.trans ?_ ((mapFrame_only ..).mono (by decide))
    refine OnlyChanges.trans ?_ ((with_wires_only _ _).mono (by decide))
    exact ((meetError_only ..).mono (by decide)).trans ((readGranule_only ..).mono (by decide))

theorem setTileRun_only (n : Nat) (s : State) : OnlyChanges [.turn] s (setTileRun n s) := by
  refine ⟨fun p hp => ?_⟩; cases p <;> first | exact absurd (by decide) hp | exact rfl | exact ⟨rfl, rfl⟩

theorem grant_only (met : CellError) (s : State) : OnlyChanges grantParts s (grant met s) := by
  unfold grant; split
  · exact grantRotation_only ..
  · split
    · exact ((setTileRun_only ..).mono (by decide)).trans (grantTile_only ..)
    · split
      · exact ((setTileRun_only ..).mono (by decide)).trans (grantTile_only ..)
      · exact grantRotation_only ..

theorem placeHost_only (as : List Access) (s : State) : OnlyChanges [.hostQueue] s (placeHost as s) := by
  refine ⟨fun p hp => ?_⟩; cases p <;> first | exact absurd (by decide) hp | exact rfl | exact ⟨rfl, rfl⟩

theorem placeSau_only (as : List Access) (s : State) : OnlyChanges [.sauQueue] s (placeSau as s) := by
  refine ⟨fun p hp => ?_⟩; cases p <;> first | exact absurd (by decide) hp | exact rfl | exact ⟨rfl, rfl⟩

theorem hostRead_only (o n : Nat) (s : State) : OnlyChanges [.host, .hostQueue] s (hostRead o n s) := by
  unfold hostRead; split
  · exact (with_host_only _ s).mono (by decide)
  · exact (placeHost_only ..).mono (by decide)

theorem hostWrite_only (o : Nat) (bs : List Byte) (s : State) : OnlyChanges [.hostQueue] s (hostWrite o bs s) := by
  unfold hostWrite; split
  · exact .refl _ s
  · exact placeHost_only ..

/-! ### Ports and streams -/

theorem handOn_only (l : Fin 8) (bs : List Byte) (s : State) : OnlyChanges [.wires] s (handOn l bs s) := with_wires_only _ s

theorem packetEnd_only (l : Fin 8) (bs : List Byte) (s : State) : OnlyChanges [.ports, .wires] s (packetEnd l bs s) := by
  unfold packetEnd; split
  · exact (mapPort_only ..).mono (by decide)
  · split
    · exact .refl _ s
    · exact (handOn_only ..).mono (by decide)

theorem portEvent_only (l : Fin 8) (s : State) (e : LineEvent) :
    OnlyChanges [.ports, .wires, .attention] s (portEvent l s e) := by
  unfold portEvent; split
  all_goals first
    | exact (mapPort_only ..).mono (by decide)
    | exact (packetEnd_only ..).mono (by decide)
    | exact ((mapPort_only ..).mono (by decide)).trans ((raise_only ..).mono (by decide))
    | exact .refl _ s

theorem portStep_only (l : Fin 8) (x : Receiver × List LineEvent) (s : State) :
    OnlyChanges [.ports, .wires, .attention] s (portStep l x s) :=
  ((mapPort_only ..).mono (by decide)).trans (OnlyChanges.foldl (fun s e => portEvent_only l s e) _ _)

theorem enterState_only (i : Fin 16) (x : StreamState) (s : State) : OnlyChanges [.sau] s (enterState i x s) :=
  mapStream_only ..

theorem beginAside_only (s : State) : OnlyChanges [.sau, .sauQueue] s (beginAside s) := by
  unfold beginAside; split
  · exact ((with_sau_only _ s).mono (by decide)).trans ((placeSau_only ..).mono (by decide))
  · exact .refl _ s

theorem asideOverrun_only (s : State) : OnlyChanges [.sau, .attention] s (asideOverrun s) :=
  ((with_sau_only _ s).mono (by decide)).trans ((raise_only ..).mono (by decide))

theorem joinAside_only (a : Arrival) (s : State) : OnlyChanges [.sau, .sauQueue, .attention] s (joinAside a s) := by
  simp only [joinAside]; split
  · exact (asideOverrun_only ..).mono (by decide)
  · split
    · exact ((with_sau_only _ s).mono (by decide)).trans ((beginAside_only ..).mono (by decide))
    · exact (with_sau_only _ s).mono (by decide)

theorem leaveAside_only (s : State) : OnlyChanges [.sau, .sauQueue] s (leaveAside s) :=
  ((with_sau_only _ s).mono (by decide)).trans (beginAside_only _)

theorem asideWordRead_only (w : WordRead) (s : State) :
    OnlyChanges [.sau, .sauQueue, .attention] s (asideWordRead w s) := by
  unfold asideWordRead; split
  · split
    · exact ((with_sau_only _ s).mono (by decide)).trans ((placeSau_only ..).mono (by decide))
    · exact .refl _ s
  · exact ((asideOverrun_only ..).mono (by decide)).trans ((leaveAside_only ..).mono (by decide))
  · exact ((asideOverrun_only ..).mono (by decide)).trans
      (((raise_only ..).mono (by decide)).trans ((leaveAside_only ..).mono (by decide)))

theorem advanceSlot_only (s : State) : OnlyChanges [.sau] s (advanceSlot s) := by
  unfold advanceSlot; split
  · exact .refl _ s
  · exact with_sau_only _ s

theorem foreignPacket_only (a : Arrival) (s : State) :
    OnlyChanges [.sau, .sauQueue, .attention, .ports] s (foreignPacket a s) := by
  unfold foreignPacket; split
  · exact (joinAside_only ..).mono (by decide)
  · exact (mapPort_only ..).mono (by decide)

theorem handOver_only (i : Fin 16) (b : Bool) (g : Option Segment) (s : State) :
    OnlyChanges [.wires] s (handOver i b g s) := with_wires_only _ s

theorem seekingSegment_only (i : Fin 16) (g : Option Segment) (s : State) :
    OnlyChanges [.sau, .attention, .wires] s (seekingSegment i g s) := by
  unfold seekingSegment; split
  · split
    · exact (handOver_only ..).mono (by decide)
    · exact (raiseCounters_only ..).mono (by decide)
  · exact (raiseCounters_only ..).mono (by decide)

theorem receivedSegment_only (i : Fin 16) (g : Option Segment) (s : State) :
    OnlyChanges [.sau, .attention, .wires] s (receivedSegment i g s) := by
  simp only [receivedSegment]; split
  · exact ((mapStream_only ..).mono (by decide)).trans ((handOver_only ..).mono (by decide))
  · exact ((mapStream_only ..).mono (by decide)).trans (seekingSegment_only ..)
  · exact ((mapStream_only ..).mono (by decide)).trans
      (((enterState_only ..).mono (by decide)).trans (seekingSegment_only ..))
  · exact .refl _ s

theorem admitSegment_only (i : Fin 16) (l : Fin 8) (g : Option Segment) (s : State) :
    OnlyChanges [.sau, .attention, .wires] s (admitSegment i l g s) := by
  unfold admitSegment; split
  · exact (raiseCounters_only ..).mono (by decide)
  · split
    · exact (raiseCounters_only ..).mono (by decide)
    · exact receivedSegment_only ..

theorem admitArrival_only (a : Arrival) (s : State) :
    OnlyChanges [.sau, .sauQueue, .attention, .ports, .wires] s (admitArrival a s) := by
  unfold admitArrival; split
  · exact (foreignPacket_only ..).mono (by decide)
  all_goals
    split
    · exact (foreignPacket_only ..).mono (by decide)
    · exact (admitSegment_only ..).mono (by decide)

theorem secondMisinsert_only (i : Fin 16) (s : State) : OnlyChanges [.sau, .wires] s (secondMisinsert i s) := by
  simp only [secondMisinsert]; split
  · exact ((mapStream_only ..).mono (by decide)).trans ((with_wires_only _ _).mono (by decide))
  · exact leaveFor_only ..

theorem outcomeMove_only (r : Returned) (s : State) : OnlyChanges [.sau, .wires] s (outcomeMove r s) := by
  simp only [outcomeMove]; split
  · exact .refl _ s
  · split
    · split
      · exact .refl _ s
      · split
        · split
          · exact (mapStream_only ..).mono (by decide)
          · exact secondMisinsert_only ..
        · exact (mapStream_only ..).mono (by decide)
    · split
      · exact (enterState_only ..).mono (by decide)
      · exact .refl _ s

theorem passToClock_only (r : Returned) (s : State) : OnlyChanges [.wires] s (passToClock r s) := by
  unfold passToClock; split
  · exact with_wires_only _ s
  · exact .refl _ s

theorem takeReturned_only (r : Returned) (s : State) : OnlyChanges [.sau, .wires, .attention] s (takeReturned r s) :=
  ((raiseCounters_only ..).mono (by decide)).trans
    (((outcomeMove_only ..).mono (by decide)).trans ((passToClock_only ..).mono (by decide)))

theorem cutStream_only (i : Fin 16) (s : State) : OnlyChanges [.sau, .wires, .attention] s (cutStream i s) :=
  ((leaveFor_only ..).mono (by decide)).trans
    (((raiseCounters_only ..).mono (by decide)).trans ((raise_only ..).mono (by decide)))

theorem reframeDone_only (i : Fin 16) (s : State) : OnlyChanges [.sau, .wires] s (reframeDone i s) := by
  simp only [reframeDone]; split
  · exact ((mapStream_only ..).mono (by decide)).trans (leaveFor_only ..)
  · exact (mapStream_only ..).mono (by decide)

/-! ### The Frame Clock -/

theorem issueStart_only (f : Frame) (s : State) : OnlyChanges [.fck, .wires] s (issueStart f s) := by
  refine ⟨fun p hp => ?_⟩; cases p <;> first | exact absurd (by decide) hp | exact rfl | exact ⟨rfl, rfl⟩

theorem armPaced_only (s : State) : OnlyChanges [.fck] s (armPaced s) := with_fck_only _ s

theorem setPaceState_only (p : PaceState) (s : State) : OnlyChanges [.fck] s (setPaceState p s) := with_fck_only _ s

theorem takePace_only (f : Frame) (s : State) : OnlyChanges [.fck, .wires] s (takePace f s) := by
  unfold takePace; split
  · exact (issueStart_only ..).trans ((armPaced_only _).mono (by decide))
  · exact .refl _ s
  · exact (issueStart_only ..).trans (((armPaced_only _).mono (by decide)).trans ((setPaceState_only ..).mono (by decide)))
  · exact ((armPaced_only _).mono (by decide)).trans ((setPaceState_only ..).mono (by decide))

theorem expireFlywheel_only (e : Time) (l : Frame) (s : State) :
    OnlyChanges [.fck, .wires, .attention] s (expireFlywheel e l s) := by
  have h : OnlyChanges [.fck, .wires, .attention] s
      (issueStart (l + 1) { s with fck := { s.fck with flywheel := some (e + micros s.fck.period) } }) :=
    ((with_fck_only _ s).mono (by decide)).trans ((issueStart_only ..).mono (by decide))
  simp only [expireFlywheel]; split
  · exact h.trans (((setPaceState_only ..).mono (by decide)).trans ((raise_only ..).mono (by decide)))
  · exact h

theorem beginReframe_only (s : State) : OnlyChanges [.fck, .wires, .attention] s (beginReframe s) := by
  refine OnlyChanges.trans ?_ ((raise_only ..).mono (by decide))
  refine ⟨fun p hp => ?_⟩; cases p <;> first | exact absurd (by decide) hp | exact rfl | exact ⟨rfl, rfl⟩

/-! ### Frame Assembly -/

theorem evict_only (r : Fin 4) (s : State) : OnlyChanges [.fau, .wires, .attention] s (evict r s) :=
  ((freeRecord_only ..).mono (by decide)).trans
    (((with_fau_only _ _).mono (by decide)).trans ((raise_only ..).mono (by decide)))

theorem makeRoom_only (s : State) : OnlyChanges [.fau, .wires, .attention] s (makeRoom s) := by
  unfold makeRoom; split
  · split
    · exact evict_only ..
    · exact .refl _ s
  · exact .refl _ s

theorem openRecord_only (f : Frame) (s : State) : OnlyChanges [.fau, .wires, .attention] s (openRecord f s).2 := by
  simp only [openRecord]; split
  · exact makeRoom_only s
  · exact (makeRoom_only s).trans (((mapRecord_only ..).mono (by decide)).trans ((with_fau_only _ _).mono (by decide)))

/-- What Frame Assembly's work on a frame may change. -/
def assemblyParts : List Part := [.fau, .wires, .sau, .attention]

theorem judgeSegment_only (i : Fin 16) (g : Segment) (s : State) : OnlyChanges assemblyParts s (judgeSegment i g s).2 := by
  simp only [judgeSegment]
  split
  · exact .refl _ s
  · split
    · exact .refl _ s
    · split
      · split
        · exact .refl _ s
        · split
          · exact .refl _ s
          · dsimp only
            split
            · exact ((mapRecord_only ..).mono (by decide)).trans ((completionCheck_only ..).mono (by decide))
            · exact (mapRecord_only ..).mono (by decide)
      · split
        · have h := (openRecord_only g.frame s).mono (qs := assemblyParts) (by decide)
          split
          · rename_i e; rw [e] at h; exact h.trans ((mapRecord_only ..).mono (by decide))
          · rename_i e; rw [e] at h; exact h
        · exact .refl _ s

theorem placeHanded_only (h : Handed) (s : State) : OnlyChanges assemblyParts s (placeHanded h s) := by
  simp only [placeHanded]
  refine OnlyChanges.trans ?_ ((with_wires_only _ _).mono (by decide))
  split
  · exact .refl _ s
  · exact judgeSegment_only ..

theorem startRecord_only (r : Fin 4) (e : FrameStart) (s : State) : OnlyChanges assemblyParts s (startRecord r e s) := by
  have h := ((mapRecord_only r (fun x => { x with started := some e.time, deadline := some (e.time + micros e.deadline) }) s).mono
      (qs := assemblyParts) (by decide)).trans ((completionCheck_only r _).mono (by decide))
  simp only [startRecord]; split
  · exact h.trans ((closeRecord_only ..).mono (by decide))
  · exact h

theorem takeStart_only (e : FrameStart) (s : State) : OnlyChanges assemblyParts s (takeStart e s) := by
  unfold takeStart
  split
  · exact .refl _ s
  · split
    · split
      · exact startRecord_only ..
      · exact .refl _ s
    · split
      · have h := (openRecord_only e.frame s).mono (qs := assemblyParts) (by decide)
        split
        · rename_i x; rw [x] at h; exact h.trans (startRecord_only ..)
        · rename_i x; rw [x] at h; exact h
      · exact .refl _ s

theorem checkAll_only (order : List (Fin 4)) (s : State) : OnlyChanges assemblyParts s (checkAll order s) :=
  OnlyChanges.foldl (fun s r => (completionCheck_only r s).mono (by decide)) _ s

/-! ### The Probe Unit -/

theorem takeNotices_only (s : State) : OnlyChanges [.pru, .wires] s (takeNotices s) := by
  refine ⟨fun p hp => ?_⟩; cases p <;> first | exact absurd (by decide) hp | exact rfl | exact ⟨rfl, rfl⟩

theorem reportEnd_only (t : Ticket) (c : Nat) (d : BitVec 32) (s : State) :
    OnlyChanges [.wires] s (reportEnd t c d s) := with_wires_only _ s

theorem copySuccess_only (r : CopyRequest) (c : List CycleEntry) (s : State) :
    OnlyChanges [.pru, .wires] s (copySuccess r c s) :=
  ((mapPru_only ..).mono (by decide)).trans ((reportEnd_only ..).mono (by decide))

/-- What the Probe Unit's copy may change. -/
def copyParts : List Part := [.pru, .wires, .duQueue]

theorem copyRead_only (a n : Nat) (s : State) : OnlyChanges copyParts s (copyRead a n s) := by
  refine ⟨fun p hp => ?_⟩; cases p <;> first | exact absurd (by decide) hp | exact rfl | exact ⟨rfl, rfl⟩

theorem readTableEntry_only (g : Staging) (s : State) : OnlyChanges copyParts s (readTableEntry g s) :=
  ((mapPru_only ..).mono (by decide)).trans (copyRead_only ..)

theorem runCopies_only (rs : List CopyRequest) (s : State) : OnlyChanges copyParts s (runCopies rs s) := by
  induction rs generalizing s with
  | nil => exact (mapPru_only ..).mono (by decide)
  | cons r rest ih =>
    unfold runCopies; split
    · exact ((copySuccess_only ..).mono (by decide)).trans (ih _)
    · exact ((mapPru_only ..).mono (by decide)).trans (readTableEntry_only ..)

theorem enqueueCopy_only (r : CopyRequest) (s : State) : OnlyChanges copyParts s (enqueueCopy r s) := by
  unfold enqueueCopy; split
  · exact (mapPru_only ..).mono (by decide)
  · exact runCopies_only ..

theorem copyFail_only (r : CopyRequest) (c : Nat) (d : BitVec 32) (s : State) :
    OnlyChanges copyParts s (copyFail r c d s) :=
  ((mapPru_only ..).mono (by decide)).trans (((reportEnd_only ..).mono (by decide)).trans (runCopies_only ..))

theorem patternRead_only (g : Staging) (a : Int) (n : Nat) (bs : List Byte) (s : State) :
    OnlyChanges copyParts s (patternRead g a n bs s) := by
  simp only [patternRead]; split
  · exact readTableEntry_only ..
  · exact ((copySuccess_only ..).mono (by decide)).trans (runCopies_only ..)

theorem tableEntryRead_only (g : Staging) (bs : List Byte) (s : State) :
    OnlyChanges copyParts s (tableEntryRead g bs s) := by
  simp only [tableEntryRead]; split
  · exact copyFail_only ..
  · split
    · exact copyFail_only ..
    · exact ((mapPru_only ..).mono (by decide)).trans (copyRead_only ..)

theorem copyReturned_only (g : Staging) (j : ReadJob) (s : State) :
    OnlyChanges (copyParts ++ [.attention]) s (copyReturned g j s) := by
  unfold copyReturned; split
  · exact ((raise_only ..).mono (by decide)).trans ((copyFail_only ..).mono (by decide))
  · split
    · exact (tableEntryRead_only ..).mono (by decide)
    · exact (patternRead_only ..).mono (by decide)

/-! ### Editions -/

/-- What a load or a switch may change. -/
def loadParts : List Part := [.du, .duQueue, .rce, .watch]

theorem retireCurrent_only (s : State) : OnlyChanges [.rce] s (retireCurrent s) := by
  unfold retireCurrent; split
  · exact .refl _ s
  · exact setSlot_only ..

theorem switchTo_only (i : SlotId) (e : Edition) (s : State) : OnlyChanges loadParts s (switchTo i e s) := by
  refine OnlyChanges.trans ?_ ((endHand_only ..).mono (by decide))
  refine OnlyChanges.trans ?_ ((rebuildWatch_only _).mono (by decide))
  exact ((retireCurrent_only s).mono (by decide)).trans
    (((setSlot_only ..).mono (by decide)).trans ((setLoad_only ..).mono (by decide)))

theorem failLoad_only (i : SlotId) (c : Nat) (d : BitVec 32) (s : State) : OnlyChanges loadParts s (failLoad i c d s) :=
  ((setSlot_only ..).mono (by decide)).trans
    (((setLoad_only ..).mono (by decide)).trans ((endHand_only ..).mono (by decide)))

theorem failCheck_only (i : SlotId) (c n : Nat) (s : State) : OnlyChanges loadParts s (failCheck i c n s) :=
  failLoad_only ..

theorem repointSet_only (h : Hand) (i : SlotId) (s : State) : OnlyChanges loadParts s (repointSet h i s) := by
  simp only [repointSet]; split
  · exact .refl _ s
  · split
    · exact failCheck_only ..
    · split
      · exact failLoad_only ..
      · exact switchTo_only ..

theorem repointRemove_only (h : Hand) (i : SlotId) (s : State) : OnlyChanges loadParts s (repointRemove h i s) := by
  simp only [repointRemove]; split
  · exact .refl _ s
  · split
    · exact failCheck_only ..
    · exact switchTo_only ..

theorem beginAdopt_only (h : Hand) (i : SlotId) (s : State) : OnlyChanges loadParts s (beginAdopt h i s) :=
  ((setSlot_only ..).mono (by decide)).trans
    (((setLoad_only ..).mono (by decide)).trans ((occupy_only ..).mono (by decide)))

theorem beginAmend_only (h : Hand) (i : SlotId) (s : State) : OnlyChanges loadParts s (beginAmend h i s) := by
  unfold beginAmend; split
  · exact .refl _ s
  · exact ((setSlot_only ..).mono (by decide)).trans
      (((setLoad_only ..).mono (by decide)).trans ((occupy_only ..).mono (by decide)))

theorem beginLoad_only (h : Hand) (i : SlotId) (s : State) : OnlyChanges loadParts s (beginLoad h i s) := by
  unfold beginLoad; split
  · exact beginAdopt_only ..
  · split
    · exact beginAmend_only ..
    · split
      · exact repointRemove_only ..
      · exact repointSet_only ..

theorem takeSlot_only (h : Hand) (s : State) : OnlyChanges loadParts s (takeSlot h s) := by
  unfold takeSlot; split
  · exact beginLoad_only ..
  · exact (setPhase_only ..).mono (by decide)

theorem loadRead_only (l : Load) (a n : Nat) (s : State) : OnlyChanges loadParts s (loadRead l a n s) :=
  ((setLoad_only ..).mono (by decide)).trans ((duRead_only ..).mono (by decide))

theorem readTileEntry_only (l : Load) (e : Edition) (n : Nat) (s : State) :
    OnlyChanges loadParts s (readTileEntry l e n s) := by
  unfold readTileEntry; split
  · exact loadRead_only ..
  · exact loadRead_only ..

theorem recordRead_only (i : SlotId) (bs : List Byte) (s : State) : OnlyChanges loadParts s (recordRead i bs s) := by
  simp only [recordRead]; split
  · exact failCheck_only ..
  · exact ((setSlot_only ..).mono (by decide)).trans (readTileEntry_only ..)

theorem tileEntryRead_only (l : Load) (n : Nat) (e : Edition) (bs : List Byte) (s : State) :
    OnlyChanges loadParts s (tileEntryRead l n e bs s) := by
  simp only [tileEntryRead]
  split
  · exact failCheck_only ..
  · split
    · exact failCheck_only ..
    · split
      · exact failCheck_only ..
      · split
        · exact failLoad_only ..
        · exact ((setSlot_only ..).mono (by decide)).trans (readTileEntry_only ..)

theorem referenceRead_only (l : Load) (e : Edition) (bs : List Byte) (s : State) :
    OnlyChanges loadParts s (referenceRead l e bs s) :=
  ((setSlot_only ..).mono (by decide)).trans (loadRead_only ..)

theorem groupMapRead_only (l : Load) (e : Edition) (bs : List Byte) (s : State) :
    OnlyChanges loadParts s (groupMapRead l e bs s) := by
  simp only [groupMapRead]; split
  · exact failCheck_only ..
  · exact switchTo_only ..

theorem groupTableRead_only (l : Load) (e : Edition) (bs : List Byte) (s : State) :
    OnlyChanges loadParts s (groupTableRead l e bs s) := by
  simp only [groupTableRead]; split
  · exact failCheck_only ..
  · split
    · exact switchTo_only ..
    · exact switchTo_only ..

theorem loadBytes_only (l : Load) (e : Edition) (bs : List Byte) (s : State) :
    OnlyChanges loadParts s (loadBytes l e bs s) := by
  unfold loadBytes; split
  · exact recordRead_only ..
  · exact tileEntryRead_only ..
  · exact referenceRead_only ..
  · exact groupMapRead_only ..
  · exact groupTableRead_only ..

/-! ### The Directive Unit -/

/-- What the end of a deferred entry, and the directives it lets go on, may change. -/
def retryParts : List Part := [.du, .duQueue, .pru, .wires]

theorem joinProbe_only (h : Hand) (s : State) : OnlyChanges retryParts s (joinProbe h s) := by
  unfold joinProbe; split
  · exact ((joinList_only ..).mono (by decide)).trans ((enqueueCopy_only ..).mono (by decide))
  · exact (setPhase_only ..).mono (by decide)

theorem absorbFreed_only (s : State) : OnlyChanges [.du, .duQueue, .wires] s (absorbFreed s) := by
  have h : OnlyChanges [.du] s (s.wires.recordsFreed.foldl (fun s r => mapDrains (DrainStage.freed r) s) s) :=
    OnlyChanges.foldl (fun s r => mapDrains_only _ s) _ s
  exact (h.mono (by decide)).trans (((with_wires_only _ _).mono (by decide)).trans ((advanceDrains_only _).mono (by decide)))

theorem takeDrain_only (h : Hand) (s : State) : OnlyChanges [.du, .duQueue, .wires] s (takeDrain h s) := by
  simp only [takeDrain]; split
  · exact (absorbFreed_only s).trans ((endHand_only ..).mono (by decide))
  · exact (absorbFreed_only s).trans ((deferOrWait_only ..).mono (by decide))

theorem judgeAgain_only (h : Hand) (s : State) : OnlyChanges retryParts s (judgeAgain h s) := by
  unfold judgeAgain; split
  · exact (judgeRetire_only ..).mono (by decide)
  · split
    · exact joinProbe_only ..
    · exact (takeDrain_only ..).mono (by decide)

theorem retryRoom_only (s : State) : OnlyChanges retryParts s (retryRoom s) := by
  unfold retryRoom; split
  · split
    · exact judgeAgain_only ..
    · exact .refl _ s
  · exact .refl _ s

theorem retrySlot_only (s : State) : OnlyChanges loadParts s (retrySlot s) := by
  unfold retrySlot; split
  · split
    · exact takeSlot_only ..
    · exact .refl _ s
  · exact .refl _ s

theorem restWith_only (a b : Nat) (s : State) : OnlyChanges [.du] s (restWith a b s) := with_du_only _ s

theorem refuseTorn_only (t : Ticket) (n : Nat) (s : State) : OnlyChanges [.du, .duQueue] s (refuseTorn t n s) :=
  ((takeTicket_only ..).mono (by decide)).trans (((finalOutcome_only ..).mono (by decide)).trans (readExpected_only _))

theorem tornRead_only (t : Ticket) (m : Bool) (s : State) :
    OnlyChanges [.du, .duQueue, .attention] s (tornRead t m s) := by
  simp only [tornRead]; split
  · exact ((raiseIf_only ..).mono (by decide)).trans ((restWith_only ..).mono (by decide))
  · exact ((raiseIf_only ..).mono (by decide)).trans ((refuseTorn_only ..).mono (by decide))

theorem takeDirective_only (t : Ticket) (bs : List Byte) (s : State) :
    OnlyChanges [.du, .duQueue] s (takeDirective t bs s) := by
  simp only [takeDirective]; split
  · exact ((takeTicket_only ..).mono (by decide)).trans (((finalOutcome_only ..).mono (by decide)).trans (readExpected_only _))
  · split
    · exact ((takeTicket_only ..).mono (by decide)).trans (((finalOutcome_only ..).mono (by decide)).trans (readExpected_only _))
    · exact ((takeTicket_only ..).mono (by decide)).trans ((with_du_only _ _).mono (by decide))

theorem judgeSlot_only (t : Ticket) (j : ReadJob) (s : State) :
    OnlyChanges [.du, .duQueue, .attention] s (judgeSlot t j s) := by
  unfold judgeSlot; split
  · exact tornRead_only ..
  · split
    · exact (restWith_only ..).mono (by decide)
    · split
      · exact (takeDirective_only ..).mono (by decide)
      · exact tornRead_only ..

theorem endEntry_only (e : OwnerEnd) (s : State) : OnlyChanges [.du, .duQueue] s (endEntry e s) :=
  ((finalOutcome_only ..).mono (by decide)).trans ((with_du_only _ _).mono (by decide))

theorem takeOwnerEnd_only (e : OwnerEnd) (s : State) : OnlyChanges retryParts s (takeOwnerEnd e s) := by
  unfold takeOwnerEnd; split
  · exact ((endEntry_only ..).mono (by decide)).trans (retryRoom_only _)
  · exact .refl _ s

theorem takeRelease_only (s : State) : OnlyChanges (loadParts ++ retryParts) s (takeRelease s) :=
  ((endEntries_only ..).mono (by decide)).trans
    (((retrySlot_only _).mono (by decide)).trans ((retryRoom_only _).mono (by decide)))

theorem settleDrains_only (s : State) : OnlyChanges retryParts s (settleDrains s) :=
  ((advanceDrains_only _).mono (by decide)).trans (retryRoom_only _)

theorem takeIdleAtDu_only (s : State) : OnlyChanges retryParts s (takeIdleAtDu s) :=
  ((with_wires_only _ s).mono (by decide)).trans (((mapDrains_only ..).mono (by decide)).trans (settleDrains_only _))

theorem settleTickets_only (ts : List Ticket) (s : State) : OnlyChanges [.du, .attention] s (settleTickets ts s) :=
  ((with_du_only _ s).mono (by decide)).trans ((raiseIf_only ..).mono (by decide))

/-! ### Command output -/

theorem noteQuiet_only (b s : State) : OnlyChanges [.wires] s (noteQuiet b s) := by
  unfold noteQuiet; split
  · exact with_wires_only _ s
  · exact .refl _ s

theorem requestSafeShape_only (q : Packet) (s : State) : OnlyChanges [.wires] s (requestSafeShape q s) := with_wires_only _ s

theorem commandSent_only (l : Fin 4) (q : Packet) (s : State) : OnlyChanges [.cou, .attention] s (commandSent l q s) :=
  ((emit_only ..).mono (by decide)).trans
    (((mapLink_only ..).mono (by decide)).trans ((openWindow_only ..).trans ((mapLink_only ..).mono (by decide))))

theorem safeSent_only (l : Fin 4) (q : Packet) (s : State) : OnlyChanges [.cou, .attention, .wires] s (safeSent l q s) :=
  ((emit_only ..).mono (by decide)).trans
    (((mapLink_only ..).mono (by decide)).trans (((requestSafeShape_only ..).mono (by decide)).trans
      (((openWindow_only ..).mono (by decide)).trans ((mapLink_only ..).mono (by decide)))))

theorem takeGuards_only (s : State) : OnlyChanges [.cou, .attention, .wires] s (takeGuards s) :=
  ((OnlyChanges.foldl (fun s g => takeGuard_only g s) s.wires.guardReports s).mono (by decide)).trans
    ((with_wires_only _ _).mono (by decide))

theorem badToken_only (l : Fin 4) (s : State) : OnlyChanges [.cou] s (badToken l s) := mapLink_only ..

theorem mirrorEvent_only (l : Fin 4) (s : State) (e : LineEvent) : OnlyChanges [.cou, .attention] s (mirrorEvent l s e) := by
  unfold mirrorEvent; split
  · exact (badToken_only ..).mono (by decide)
  · split
    · exact takeToken_only ..
    · exact (badToken_only ..).mono (by decide)
  · exact .refl _ s

theorem mirrorStep_only (l : Fin 4) (x : Receiver × List LineEvent) (s : State) :
    OnlyChanges [.cou, .attention] s (mirrorStep l x s) :=
  ((mapLink_only ..).mono (by decide)).trans (OnlyChanges.foldl (fun s e => mirrorEvent_only l s e) _ _)

theorem assertion_only (s : State) : OnlyChanges [.cou, .attention] s (assertion s) :=
  (addCause_only ..).trans (((mapLinksAt_only ..).mono (by decide)).trans ((holdAction_only _).mono (by decide)))

theorem assertInterlock_only (s : State) : OnlyChanges [.cou, .attention] s (assertInterlock s) := by
  simp only [assertInterlock]; split
  · exact ((setInterlock_only ..).mono (by decide)).trans (assertion_only _)
  · exact (setInterlock_only ..).mono (by decide)

theorem beginRelease_only (s : State) : OnlyChanges [.cou] s (beginRelease s) := by
  unfold beginRelease; split
  · exact with_cou_only _ s
  · exact .refl _ s

theorem releaseHold_only (s : State) : OnlyChanges [.cou] s (releaseHold s) := by
  simp only [releaseHold]; split
  · exact setOutput_only ..
  · exact setOutput_only ..

theorem releaseInterlock_only (s : State) : OnlyChanges [.cou] s (releaseInterlock s) := by
  simp only [releaseInterlock]; split
  · exact (setInterlock_only ..).trans (releaseHold_only _)
  · exact setInterlock_only ..

theorem startCou_only (x : LinkSettings) (s : State) : OnlyChanges [.cou, .attention] s (startCou x s) := by
  have h : OnlyChanges [.cou, .attention] s (mapLinksAt MirrorLink.clear
      { s with cou := { s.cou with
          settings := some x, saturationRun := 0, voidRun := 0
          lastEmitted := if s.cou.shapeLoaded then s.cou.safeShape else [] } }) :=
    ((with_cou_only _ s).mono (by decide)).trans ((mapLinksAt_only ..).mono (by decide))
  simp only [startCou]; split
  · exact h.trans ((setOutput_only ..).mono (by decide))
  · exact h.trans (((setOutput_only ..).mono (by decide)).trans
      (((raise_only ..).mono (by decide)).trans ((holdAction_only _).mono (by decide))))

theorem quietCou_only (s : State) : OnlyChanges [.cou] s (quietCou s) :=
  ((with_cou_only _ s).trans (mapLinksAt_only ..)).trans (setOutput_only ..)

/-! ### The engine -/

theorem takeVoid_only (f : FrameContext) (e : Edition) (s : State) :
    OnlyChanges [.rce, .fau, .wires] s (takeVoid f e s) :=
  ((mapRce_only ..).mono (by decide)).trans ((release_only ..).mono (by decide))

theorem takeFrame_only (h : Handover) (i : SlotId) (e : Edition) (s : State) :
    OnlyChanges [.rce, .fau, .wires] s (takeFrame h i e s) := by
  have k : OnlyChanges [.rce, .fau, .wires] s
      (mapRce (fun r => { r with inUse := some i }) { s with wires := { s.wires with handover := none } }) :=
    ((with_wires_only _ s).mono (by decide)).trans ((mapRce_only ..).mono (by decide))
  simp only [takeFrame]; split
  · exact k.trans (takeVoid_only ..)
  · exact k.trans ((mapRce_only ..).mono (by decide))

theorem beforeFrame_only (s : State) : OnlyChanges (retryParts ++ [.rce]) s (beforeFrame s) := by
  unfold beforeFrame; split
  · exact ((takeIdleAtDu_only s).mono (by decide)).trans ((takeTaints_only _).mono (by decide))
  · exact (takeTaints_only _).mono (by decide)

theorem takeTile_only (t : TileReturn) (bs : List Byte) (s : State) : OnlyChanges [.rce] s (takeTile t bs s) := by
  unfold takeTile; split
  · exact .refl _ s
  · exact mapFrame_only ..

theorem takeTileError_only (t : TileReturn) (s : State) : OnlyChanges [.rce, .attention] s (takeTileError t s) :=
  ((mapFrame_only ..).mono (by decide)).trans (((mapRce_only ..).mono (by decide)).trans ((raise_only ..).mono (by decide)))

theorem endStreaming_only (f : FrameContext) (s : State) : OnlyChanges [.rce, .fau, .wires] s (endStreaming f s) :=
  ((mapRce_only ..).mono (by decide)).trans ((release_only ..).mono (by decide))

theorem supplyProbe_only (f : FrameContext) (s : State) : OnlyChanges [.rce, .pru] s (supplyProbe f s) := by
  refine ⟨fun p hp => ?_⟩; cases p <;> first | exact absurd (by decide) hp | exact rfl | exact ⟨rfl, rfl⟩

theorem applyChange_only (c : StoreChange) (s : State) : OnlyChanges [.rce] s (applyChange c s) := mapRce_only ..

theorem takeChange_only (c : StoreChange) (s : State) : OnlyChanges [.rce] s (takeChange c s) := by
  unfold takeChange; split
  · exact mapFrame_only ..
  · exact applyChange_only ..

theorem commitFrame_only (f : FrameContext) (e : Edition) (rs : List ActuatorResult) (s : State) :
    OnlyChanges [.rce, .cou] s (commitFrame f e rs s) :=
  ((mapRce_only ..).mono (by decide)).trans ((takeVector_only ..).mono (by decide))

theorem handTelemetry_only (t : TelemetrySet) (s : State) : OnlyChanges [.rpu, .wires] s (handTelemetry t s) := by
  simp only [handTelemetry]; split
  · exact (with_rpu_only _ s).mono (by decide)
  · refine ⟨fun p hp => ?_⟩; cases p <;> first | exact absurd (by decide) hp | exact rfl | exact ⟨rfl, rfl⟩

theorem noticeProbe_only (b : Bool) (s : State) : OnlyChanges [.wires] s (noticeProbe b s) := with_wires_only _ s

theorem reportGuards_only (g : GuardReport) (s : State) : OnlyChanges [.wires] s (reportGuards g s) := with_wires_only _ s

theorem releaseSlot_only (i : SlotId) (s : State) : OnlyChanges [.rce, .watch, .wires] s (releaseSlot i s) := by
  simp only [releaseSlot]; split
  · exact ((setSlot_only ..).mono (by decide)).trans
      (((rebuildWatch_only _).mono (by decide)).trans ((with_wires_only _ _).mono (by decide)))
  · exact .refl _ s

theorem endFrame_only (s : State) : OnlyChanges [.rce, .watch, .wires] s (endFrame s) := by
  simp only [endFrame]
  refine OnlyChanges.trans ?_ ((with_wires_only _ _).mono (by decide))
  have h : OnlyChanges [.rce, .watch, .wires] s (mapRce (fun r => { r with inUse := none, frame := none, state := .idle }) s) :=
    (mapRce_only ..).mono (by decide)
  split
  · exact h.trans (releaseSlot_only ..)
  · exact h

/-- What the completion of a frame may change. -/
def completionParts : List Part := [.rce, .cou, .rpu, .wires, .watch]

theorem completeFrame_only (late : List (Fin 1024)) (f : FrameContext) (s : State) :
    OnlyChanges completionParts s (completeFrame late f s) := by
  have h1 : OnlyChanges completionParts s
      (if decideResult f.handed.void s.cou.output = .committed then
        commitFrame f (editionInUse s) (rereadLate late (editionInUse s) f s) s else s) := by
    split
    · exact (commitFrame_only ..).mono (by decide)
    · exact .refl _ s
  simp only [completeFrame]
  refine OnlyChanges.trans ?_ ((endFrame_only _).mono (by decide))
  refine OnlyChanges.trans ?_ (OnlyChanges.foldl (fun s c => (applyChange_only c s).mono (by decide)) _ _)
  exact h1.trans (((noticeProbe_only ..).mono (by decide)).trans
    (((handTelemetry_only ..).mono (by decide)).trans ((reportGuards_only ..).mono (by decide))))

/-! ### Directives -/

/-- What the end of the directive in hand may change. -/
def handParts : List Part := [.du, .duQueue]

theorem done_only (d : BitVec 32) (s : State) : OnlyChanges handParts s (done d s) := endHand_only ..

theorem refuseField_only (s : State) : OnlyChanges handParts s (refuseField s) := endHand_only ..

theorem refuseRange_only (s : State) : OnlyChanges handParts s (refuseRange s) := endHand_only ..

theorem refuseState_only (s : State) : OnlyChanges handParts s (refuseState s) := endHand_only ..

theorem adoptEdition_only (h : Hand) (s : State) : OnlyChanges loadParts s (adoptEdition h s) := by
  unfold adoptEdition; split
  · exact (refuseField_only _).mono (by decide)
  · split
    · exact (refuseRange_only _).mono (by decide)
    · exact takeSlot_only ..

theorem amendGroups_only (h : Hand) (s : State) : OnlyChanges loadParts s (amendGroups h s) := by
  unfold amendGroups; split
  · exact (refuseField_only _).mono (by decide)
  · split
    · exact (refuseRange_only _).mono (by decide)
    · split
      · exact (refuseState_only _).mono (by decide)
      · exact takeSlot_only ..

theorem repointTileSet_only (h : Hand) (s : State) : OnlyChanges loadParts s (repointTileSet h s) := by
  unfold repointTileSet; split
  · exact (refuseField_only _).mono (by decide)
  · split
    · exact (refuseRange_only _).mono (by decide)
    · split
      · exact (refuseState_only _).mono (by decide)
      · exact takeSlot_only ..

theorem repointTileRemove_only (h : Hand) (s : State) : OnlyChanges loadParts s (repointTileRemove h s) := by
  unfold repointTileRemove; split
  · exact (refuseField_only _).mono (by decide)
  · split
    · exact (refuseRange_only _).mono (by decide)
    · split
      · exact (refuseState_only _).mono (by decide)
      · exact takeSlot_only ..

theorem retireRange_only (h : Hand) (s : State) : OnlyChanges handParts s (retireRange h s) := by
  unfold retireRange; split
  · exact refuseField_only _
  · split
    · exact refuseRange_only _
    · exact judgeRetire_only ..

theorem setStream_only (i : Fin 16) (h : Hand) (s : State) : OnlyChanges (handParts ++ [.sau]) s (setStream i h s) := by
  unfold setStream; split
  · exact (refuseState_only _).mono (by decide)
  · split
    · exact (refuseRange_only _).mono (by decide)
    · exact ((mapStream_only ..).mono (by decide)).trans ((done_only ..).mono (by decide))

theorem setStreamForm_only (h : Hand) (s : State) : OnlyChanges (handParts ++ [.sau]) s (setStreamForm h s) := by
  unfold setStreamForm; split
  · exact (refuseField_only _).mono (by decide)
  · split
    · exact setStream_only ..
    · exact (refuseRange_only _).mono (by decide)

theorem setAsideFlag_only (h : Hand) (s : State) : OnlyChanges (handParts ++ [.sau]) s (setAsideFlag h s) := by
  unfold setAsideFlag; split
  · exact (refuseField_only _).mono (by decide)
  · split
    · split
      · exact (refuseRange_only _).mono (by decide)
      · exact ((with_sau_only _ s).mono (by decide)).trans ((done_only ..).mono (by decide))
    · exact (refuseRange_only _).mono (by decide)

theorem enableStream_only (s : State) (i : Fin 16) : OnlyChanges [.sau] s (enableStream s i) := by
  unfold enableStream; split
  · exact .refl _ s
  · exact (mapStream_only ..).trans (enterState_only ..)

theorem enableStreams_only (h : Hand) (s : State) : OnlyChanges (handParts ++ [.sau]) s (enableStreams h s) := by
  simp only [enableStreams]; split
  · exact (refuseField_only _).mono (by decide)
  · split
    · exact (refuseState_only _).mono (by decide)
    · split
      · exact (refuseRange_only _).mono (by decide)
      · exact ((OnlyChanges.foldl (fun s i => enableStream_only s i) _ s).mono (by decide)).trans
          ((done_only ..).mono (by decide))

theorem disableStream_only (s : State) (i : Fin 16) : OnlyChanges [.sau, .wires] s (disableStream s i) :=
  ((mapStream_only ..).mono (by decide)).trans (leaveFor_only ..)

theorem disableStreams_only (h : Hand) (s : State) : OnlyChanges (handParts ++ [.sau, .wires]) s (disableStreams h s) := by
  unfold disableStreams; split
  · exact (refuseField_only _).mono (by decide)
  · exact ((OnlyChanges.foldl (fun s i => disableStream_only s i) _ s).mono (by decide)).trans ((done_only ..).mono (by decide))

theorem clearCounters_only (m : Nat) (s : State) : OnlyChanges [.sau] s (clearCounters m s) :=
  OnlyChanges.foldl (fun s i => mapStream_only i _ s) _ s

theorem clearLinks_only (m : Nat) (s : State) : OnlyChanges [.ports] s (clearLinks m s) :=
  OnlyChanges.foldl (fun s l => mapPort_only l _ s) _ s

theorem clearStreamErrors_only (h : Hand) (s : State) :
    OnlyChanges (handParts ++ [.sau, .ports, .rpu]) s (clearStreamErrors h s) := by
  unfold clearStreamErrors; split
  · exact (refuseField_only _).mono (by decide)
  · exact ((clearCounters_only ..).mono (by decide)).trans (((clearLinks_only ..).mono (by decide)).trans
      (((with_rpu_only _ _).mono (by decide)).trans ((done_only ..).mono (by decide))))

theorem setPace_only (h : Hand) (s : State) : OnlyChanges (handParts ++ [.fck]) s (setPace h s) := by
  unfold setPace; split
  · exact (refuseField_only _).mono (by decide)
  · split
    · exact (refuseRange_only _).mono (by decide)
    · split
      · exact (refuseState_only _).mono (by decide)
      · exact ((with_fck_only _ s).mono (by decide)).trans ((done_only ..).mono (by decide))

theorem vectorRead_only {ps : List Part} {use : List Int → State → State} (hu : ∀ vs s, OnlyChanges ps s (use vs s))
    (sub : ∀ p, p ∈ handParts ++ [.attention] → p ∈ ps) (j : ReadJob) (s : State) :
    OnlyChanges ps s (vectorRead j use s) := by
  simp only [vectorRead]; split
  · exact (((raise_only ..).mono (qs := handParts ++ [.attention]) (by decide)).trans
      ((endHand_only ..).mono (by decide))).mono sub
  · split
    · exact ((endHand_only ..).mono (qs := handParts ++ [.attention]) (by decide)).mono sub
    · exact hu ..

theorem loadSafeShape_only (h : Hand) (s : State) : OnlyChanges handParts s (loadSafeShape h s) := by
  unfold loadSafeShape; split
  · exact refuseField_only _
  · split
    · exact refuseRange_only _
    · exact occupy_only ..

theorem installShape_only (h : Hand) (vs : List Int) (s : State) : OnlyChanges (handParts ++ [.cou]) s (installShape h vs s) :=
  ((with_cou_only _ s).mono (by decide)).trans ((done_only ..).mono (by decide))

theorem resumeCou_only (s : State) : OnlyChanges [.cou] s (resumeCou s) :=
  ((with_cou_only _ s).trans (mapLinks_only ..)).trans (setOutput_only ..)

theorem resumeOutput_only (h : Hand) (s : State) : OnlyChanges (handParts ++ [.cou]) s (resumeOutput h s) := by
  unfold resumeOutput; split
  · exact (refuseField_only _).mono (by decide)
  · split
    · exact (refuseState_only _).mono (by decide)
    · exact ((resumeCou_only s).mono (by decide)).trans ((done_only ..).mono (by decide))

theorem holdOutput_only (h : Hand) (s : State) : OnlyChanges (handParts ++ [.cou, .attention]) s (holdOutput h s) := by
  unfold holdOutput; split
  · exact (refuseField_only _).mono (by decide)
  · split
    · exact (refuseState_only _).mono (by decide)
    · exact ((addCause_only ..).mono (by decide)).trans ((done_only ..).mono (by decide))

theorem setProbeCycle_only (h : Hand) (s : State) : OnlyChanges retryParts s (setProbeCycle h s) := by
  simp only [setProbeCycle]; split
  · exact (refuseField_only _).mono (by decide)
  · split
    · exact (refuseRange_only _).mono (by decide)
    · exact joinProbe_only ..

theorem injectProbe_only (h : Hand) (s : State) : OnlyChanges handParts s (injectProbe h s) := by
  simp only [injectProbe]; split
  · exact refuseField_only _
  · split
    · exact refuseRange_only _
    · split
      · exact refuseState_only _
      · split
        · exact endHand_only ..
        · exact occupy_only ..

theorem cancelInjection_only (s : State) : OnlyChanges [.pru] s (cancelInjection s) := mapPru_only ..

theorem injectProbeCancel_only (h : Hand) (s : State) : OnlyChanges (handParts ++ [.pru]) s (injectProbeCancel h s) := by
  unfold injectProbeCancel; split
  · exact (refuseField_only _).mono (by decide)
  · split
    · exact (refuseState_only _).mono (by decide)
    · split
      · exact ((cancelInjection_only s).mono (by decide)).trans ((done_only ..).mono (by decide))
      · exact (done_only ..).mono (by decide)

theorem patternReturned_only (h : Hand) (j : ReadJob) (s : State) :
    OnlyChanges (handParts ++ [.pru, .attention]) s (patternReturned h j s) := by
  unfold patternReturned; split
  · exact ((raise_only ..).mono (by decide)).trans ((endHand_only ..).mono (by decide))
  · exact ((mapPru_only ..).mono (by decide)).trans ((done_only ..).mono (by decide))

theorem handChange_only (vs : List Int) (s : State) : OnlyChanges [.wires] s (handChange vs s) := with_wires_only _ s

theorem resetIntegratorZero_only (h : Hand) (s : State) :
    OnlyChanges (handParts ++ [.wires]) s (resetIntegratorZero h s) := by
  unfold resetIntegratorZero; split
  · exact (refuseField_only _).mono (by decide)
  · exact ((handChange_only ..).mono (by decide)).trans ((done_only ..).mono (by decide))

theorem resetIntegratorVector_only (h : Hand) (s : State) : OnlyChanges handParts s (resetIntegratorVector h s) := by
  unfold resetIntegratorVector; split
  · exact refuseField_only _
  · split
    · exact refuseRange_only _
    · exact occupy_only ..

theorem drain_only (h : Hand) (s : State) : OnlyChanges (handParts ++ [.wires]) s (drain h s) := by
  unfold drain; split
  · exact (refuseField_only _).mono (by decide)
  · exact (takeDrain_only ..).mono (by decide)

theorem setTelemetry_only (h : Hand) (s : State) : OnlyChanges (handParts ++ [.rpu]) s (setTelemetry h s) := by
  unfold setTelemetry; split
  · exact (refuseField_only _).mono (by decide)
  · exact ((with_rpu_only _ s).mono (by decide)).trans ((done_only ..).mono (by decide))

/-! ### Run control -/

theorem refuseRun_only (c : RunRefusal) (s : State) : OnlyChanges [.run] s (refuseRun c s) := with_run_only _ s

theorem enterRun_only (r : RunState) (s : State) : OnlyChanges [.run, .attention] s (enterRun r s) :=
  ((with_run_only _ s).mono (by decide)).trans ((raise_only ..).mono (by decide))

theorem loadAnchor_only (s : State) : OnlyChanges [.run, .du, .duQueue] s (loadAnchor s) := by
  unfold loadAnchor; split
  · exact ((with_run_only _ s).mono (by decide)).trans ((duRead_only ..).mono (by decide))
  · exact (refuseRun_only ..).mono (by decide)

theorem anchorInvalid_only (s : State) : OnlyChanges [.run, .du] s (anchorInvalid s) := by
  refine ⟨fun p hp => ?_⟩; cases p <;> first | exact absurd (by decide) hp | exact rfl | exact ⟨rfl, rfl⟩

theorem takeAnchor_only (a : Anchor) (s : State) : OnlyChanges [.run, .du, .sau, .rpu, .attention] s (takeAnchor a s) := by
  refine ⟨fun p hp => ?_⟩; cases p <;> first | exact absurd (by decide) hp | exact rfl | exact ⟨rfl, rfl⟩

theorem anchorRead_only (j : ReadJob) (s : State) :
    OnlyChanges [.run, .du, .sau, .rpu, .attention] s (anchorRead j s) := by
  unfold anchorRead; split
  · exact ((raise_only ..).mono (by decide)).trans ((anchorInvalid_only _).mono (by decide))
  · split
    · exact takeAnchor_only ..
    · exact (anchorInvalid_only _).mono (by decide)

theorem takeHandedAll_only (s : State) : OnlyChanges assemblyParts s (takeHandedAll s) :=
  ((with_wires_only _ s).mono (by decide)).trans (OnlyChanges.foldl (fun s h => placeHanded_only h s) s.wires.handed _)

theorem takeReturnedAll_only (s : State) : OnlyChanges [.sau, .wires, .attention] s (takeReturnedAll s) :=
  ((with_wires_only _ s).mono (by decide)).trans (OnlyChanges.foldl (fun s r => takeReturned_only r s) s.wires.returned _)

theorem forgetRun_only (s : State) : OnlyChanges [.sau, .wires] s (forgetRun s) := by
  refine ⟨fun p hp => ?_⟩; cases p <;> first | exact absurd (by decide) hp | exact rfl | exact ⟨rfl, rfl⟩

theorem settleRun_only (s : State) : OnlyChanges assemblyParts s (settleRun s) :=
  (takeHandedAll_only s).trans
    (((takeReturnedAll_only _).mono (by decide)).trans ((forgetRun_only _).mono (by decide)))

theorem startStreams_only (s : State) : OnlyChanges [.sau] s (startStreams s) := by
  refine OnlyChanges.foldl (fun s i => ?_) _ s
  split
  · exact enterState_only ..
  · exact .refl _ s

theorem startBlocks_only (s : State) : OnlyChanges [.fck, .fau, .rce, .pru] s (startBlocks s) := by
  refine ⟨fun p hp => ?_⟩; cases p <;> first | exact absurd (by decide) hp | exact rfl | exact ⟨rfl, rfl⟩

/-- What START may change. -/
def startParts : List Part := [.run, .attention, .sau, .wires, .fck, .fau, .rce, .pru, .cou]

theorem beginRun_only (e : Edition) (s : State) : OnlyChanges startParts s (beginRun e s) :=
  ((startStreams_only _).mono (by decide)).trans (((startBlocks_only _).mono (by decide)).trans
    (((startCou_only ..).mono (by decide)).trans ((enterRun_only ..).mono (by decide))))

theorem beforeStart_only (s : State) : OnlyChanges (startParts ++ reportParts) s (beforeStart s) := by
  unfold beforeStart; split
  · exact ((settleRun_only s).mono (by decide)).trans ((sendMsi_only ..).mono (by decide))
  · exact .refl _ s

theorem start_only (s : State) : OnlyChanges startParts s (start s) := by
  unfold start; split
  · split
    · split
      · exact beginRun_only ..
      · exact (refuseRun_only ..).mono (by decide)
    · exact (refuseRun_only ..).mono (by decide)
  · exact (refuseRun_only ..).mono (by decide)

theorem armScan_only (a : Anchor) (s : State) : OnlyChanges [.du] s (armScan a s) := with_du_only _ s

theorem armScanAgain_only (s : State) : OnlyChanges [.du] s (armScanAgain s) := by
  unfold armScanAgain; split
  · exact armScan_only ..
  · exact .refl _ s

/-- What the end of DRAINING may change. -/
def drainedParts : List Part := [.run, .attention, .cou, .wires, .du]

theorem endDraining_only (s : State) : OnlyChanges drainedParts s (endDraining s) :=
  ((quietCou_only _).mono (by decide)).trans (((armScanAgain_only _).mono (by decide)).trans
    (((with_run_only _ _).mono (by decide)).trans ((raise_only ..).mono (by decide))))

theorem beforeEnd_only (b s : State) : OnlyChanges (drainedParts ++ reportParts) s (beforeEnd b s) := by
  unfold beforeEnd; split
  · exact ((takeGuards_only s).mono (by decide)).trans ((sendMsi_only ..).mono (by decide))
  · exact .refl _ s

theorem drainingCheck_only (s : State) : OnlyChanges drainedParts s (drainingCheck s) := by
  unfold drainingCheck; split
  · exact endDraining_only s
  · exact .refl _ s

theorem takeSuccess_only (e : OwnerEnd) (s : State) : OnlyChanges [.du, .duQueue] s (takeSuccess e s) := by
  unfold takeSuccess; split
  · exact endEntry_only ..
  · exact .refl _ s

theorem takeOwnerEnds_only (s : State) : OnlyChanges [.du, .duQueue, .wires] s (takeOwnerEnds s) :=
  ((with_wires_only _ s).mono (by decide)).trans
    ((OnlyChanges.foldl (fun s e => takeSuccess_only e s) s.wires.ownerEnds _).mono (by decide))

theorem stopStreams_only (s : State) : OnlyChanges [.sau] s (stopStreams s) := by
  refine OnlyChanges.foldl (fun s i => ?_) _ s
  split
  · exact enterState_only ..
  · exact .refl _ s

theorem abandonTickets_only (all ts : List Ticket) (s : State) : OnlyChanges [.duQueue] s (abandonTickets all ts s) := by
  induction ts generalizing s with
  | nil => exact .refl _ s
  | cons t ts ih =>
    cases ts with
    | nil => exact placeOutcome_only ..
    | cons u us => exact (placeOutcome_only ..).trans (ih _)

theorem dropReads_only (s : State) : OnlyChanges [.duQueue] s (dropReads s) := by
  refine ⟨fun p hp => ?_⟩; cases p <;> first | exact absurd (by decide) hp | exact rfl | exact ⟨rfl, rfl⟩

theorem stopDu_only (s : State) : OnlyChanges [.du, .duQueue] s (stopDu s) :=
  ((abandonTickets_only ..).mono (by decide)).trans (((dropReads_only _).mono (by decide)).trans
    ((with_du_only _ _).mono (by decide)))

theorem stopBlocks_only (s : State) : OnlyChanges [.fck, .rce, .pru] s (stopBlocks s) := by
  refine ⟨fun p hp => ?_⟩; cases p <;> first | exact absurd (by decide) hp | exact rfl | exact ⟨rfl, rfl⟩

/-- What STOP may change. -/
def stopParts : List Part :=
  [.run, .attention, .sau, .wires, .fck, .fau, .rce, .pru, .cou, .du, .duQueue]

theorem beginDraining_only (s : State) : OnlyChanges stopParts s (beginDraining s) :=
  ((takeOwnerEnds_only s).mono (by decide)).trans (((stopStreams_only _).mono (by decide)).trans
    (((abandonWaiting_only _).mono (by decide)).trans (((stopDu_only _).mono (by decide)).trans
      (((stopBlocks_only _).mono (by decide)).trans (((enterRun_only ..).mono (by decide)).trans
        ((drainingCheck_only _).mono (by decide)))))))

theorem beforeStop_only (s : State) : OnlyChanges (stopParts ++ reportParts) s (beforeStop s) := by
  unfold beforeStop; split
  · exact (beforeEnd_only s s).mono (by decide)
  · exact .refl _ s

theorem stop_only (s : State) : OnlyChanges stopParts s (stop s) := by
  unfold stop; split
  · exact beginDraining_only s
  · exact (refuseRun_only ..).mono (by decide)

/-- What a reset keeps is all but these. -/
def resetParts : List Part :=
  [.corrected, .duQueue, .rpuQueue, .sauQueue, .turn, .run, .attention, .ports, .sau, .fck, .fau, .rce, .watch, .pru, .cou,
    .du, .rpu, .wires]

theorem resetBlocks_only (s : State) : OnlyChanges resetParts s (resetBlocks s) := by
  refine ⟨fun p hp => ?_⟩; cases p <;> first | exact absurd (by decide) hp | exact rfl | exact ⟨rfl, rfl⟩

theorem partReset_only (s : State) : OnlyChanges resetParts s (partReset s) :=
  (resetBlocks_only s).trans ((beginRelease_only _).mono (by decide))

theorem partResetCommand_only (s : State) : OnlyChanges resetParts s (partResetCommand s) := by
  unfold partResetCommand; split
  · exact (refuseRun_only ..).mono (by decide)
  · exact partReset_only s

theorem fullReset_only (b : Bool) (s : State) :
    OnlyChanges (resetParts ++ [.hostQueue, .host, .mask, .time]) s (fullReset b s) := by
  refine OnlyChanges.trans ?_ ((beginRelease_only _).mono (by decide))
  refine ⟨fun p hp => ?_⟩; cases p <;> first | exact absurd (by decide) hp | exact rfl | exact ⟨rfl, rfl⟩

theorem endInitialisation_only (s : State) : OnlyChanges [.xm, .ecc, .run, .cou] s (endInitialisation s) := by
  refine OnlyChanges.trans ?_ ((beginRelease_only _).mono (by decide))
  refine ⟨fun p hp => ?_⟩; cases p <;> first | exact absurd (by decide) hp | exact rfl | exact ⟨rfl, rfl⟩

/-! ### The register page -/

theorem attentionWrite_only (v : BitVec 32) (s : State) : OnlyChanges [.attention] s (attentionWrite v s) := by
  refine ⟨fun p hp => ?_⟩; cases p <;> first | exact absurd (by decide) hp | exact rfl | exact ⟨rfl, rfl⟩

theorem maskWrite_only (v : BitVec 32) (s : State) : OnlyChanges [.mask] s (maskWrite v s) := by
  refine ⟨fun p hp => ?_⟩; cases p <;> first | exact absurd (by decide) hp | exact rfl | exact ⟨rfl, rfl⟩

/-! ### The Report Unit -/

theorem endItem_only (s : State) : OnlyChanges [.rpu, .wires] s (endItem s) := by
  unfold endItem; split
  · refine ⟨fun p hp => ?_⟩; cases p <;> first | exact absurd (by decide) hp | exact rfl | exact ⟨rfl, rfl⟩
  · exact (with_rpu_only _ s).mono (by decide)

end Sys2Proof.Machine
end

