-- ==== Sys2Proof/Laws/DirectiveUnit.lean ====
section
/-!
SUPPORT. What the Directive Unit's shared operations do to the directive in hand, the scan and the waiting accesses (R151, R154, R156
to R158): one lemma per operation.
-/
namespace Sys2Proof.Machine

/-- An outcome write places its accesses, and nothing else. -/
theorem placeOutcome_eq {s : State} {a : Anchor} (h : s.run.anchor = some a) (t : Ticket) (code : Nat) (detail : BitVec 32)
    (ts : List Ticket) : placeOutcome t code detail ts s =
      placeDu (writeAccesses (.outcome ts) (slotOffset a t + 8) (outcomeBytes code detail)) s := by
  simp [placeOutcome, h]

/-- With a strip and an expected ticket, the read of its slot is placed. -/
theorem readExpected_eq {s : State} {a : Anchor} {t : Ticket} (h : s.run.anchor = some a) (k : s.du.expected = some t) :
    readExpected s = duRead .slot (slotOffset a t) 128 { s with du := { s.du with activity := .reading } } := by
  simp [readExpected, h, k]

/-- The directive in hand ends: its outcome is written and the next slot is read. -/
theorem endHand_eq {s : State} {a : Anchor} {next : Ticket} {h : Hand} (ha : s.run.anchor = some a)
    (hn : s.du.expected = some next) (hh : s.du.hand = some h) (code : Nat) (detail : BitVec 32) :
    endHand code detail s =
      { s with
        du := { s.du with hand := none, activity := .reading, job := some (newJob .slot (slotOffset a next) 128) }
        arb := { s.arb with du := (s.arb.du
          ++ writeAccesses (.outcome [h.ticket]) (slotOffset a h.ticket + 8) (outcomeBytes code detail)
          ++ readAccesses .slot (slotOffset a next) 128) } } := by
  simp [endHand, hh, finalOutcome, placeOutcome, ha, placeDu, readExpected, hn, duRead]

/-- The end of the directive in hand, within a step whose other effects leave the Directive Unit as it was. -/
theorem ended_of_endHand {s u b : State} {a : Anchor} {next : Ticket} {h : Hand} (ha : s.run.anchor = some a)
    (hn : s.du.expected = some next) (hh : s.du.hand = some h) (hr : u.run = s.run) (hd : u.du = s.du)
    (hq : u.arb.du = s.arb.du) (code : Nat) (detail : BitVec 32) :
    Ended a next h code detail s (settle b (endHand code detail u)) := by
  have e := endHand_eq (s := u) (a := a) (next := next) (h := h) (by rw [hr]; exact ha) (by rw [hd]; exact hn)
    (by rw [hd]; exact hh) code detail
  constructor
  · simp [e, hd]
  · have q := (settle_touches b (endHand code detail u)).same .duQueue (by decide)
    exact Eq.trans q (by simp [e, hq])

/-- An occupying directive begins its read. -/
theorem occupied_of_occupy {s u b : State} {h : Hand} (hh : s.du.hand = some h) (hd : u.du = s.du)
    (hq : u.arb.du = s.arb.du) (p : Purpose) (address size : Nat) :
    Occupied h p address size s (settle b (occupy p address size u)) := by
  constructor
  · simp [occupy, duRead, placeDu, setPhase, hd, hh]
  · have q := (settle_touches b (occupy p address size u)).same .duQueue (by decide)
    exact Eq.trans q (by simp [occupy, duRead, placeDu, setPhase, hq])

/-- A directive that waits places nothing. -/
theorem waits_of_setPhase {s u b : State} {h : Hand} (hh : s.du.hand = some h) (hd : u.du = s.du)
    (hq : u.arb.du = s.arb.du) (p : HandPhase) : Waits p h s (settle b (setPhase p .waiting u)) := by
  constructor
  · simp [setPhase, hd, hh]
  · have q := (settle_touches b (setPhase p .waiting u)).same .duQueue (by decide)
    exact Eq.trans q (by simp [setPhase, hq])

/-- The directive in hand joins the Deferred List, and the next slot is read. -/
theorem joinList_eq {s : State} {a : Anchor} {next : Ticket} {h : Hand} (ha : s.run.anchor = some a)
    (hn : s.du.expected = some next) (work : DeferredWork) :
    joinList h work s =
      { s with
        du := { s.du with
          deferred := s.du.deferred ++ [{ ticket := h.ticket, work := work }]
          hand := none, activity := .reading, job := some (newJob .slot (slotOffset a next) 128) }
        arb := { s.arb with du := (s.arb.du
          ++ writeAccesses (.outcome []) (slotOffset a h.ticket + 8) (outcomeBytes codePending 0)
          ++ readAccesses .slot (slotOffset a next) 128) } } := by
  simp [joinList, placeOutcome, ha, placeDu, readExpected, hn, duRead]

/-- The directive in hand of a kind, passed to its owner and not yet carried out. -/
theorem takenHand_eq {s : State} {a : Anchor} {next : Ticket} {h : Hand} {kind : Nat} (k : InHand s a next h kind) :
    takenHand kind s = some h := by
  simp [takenHand, k.hand, k.taken, k.kind]

/-- The directive in hand whose owner is at work, and its read that has returned. -/
theorem workingHand_eq {s : State} {a : Anchor} {next : Ticket} {h : Hand} {p : Purpose} {j : ReadJob}
    (k : Working s a next h p j) : workingHand [h.kind] s = some h ∧ duReturned p s = some j := by
  refine ⟨?_, ?_⟩
  · simp [workingHand, k.hand, k.phase]
  · simp [duReturned, k.job, k.purpose, ReadJob.complete, k.complete]

/-- The bytes of a field range are all zero. -/
theorem zeroField_iff (bs : List Byte) (o n : Nat) :
    zeroField bs o n = true ↔ ∀ k, o ≤ k → k < o + n → bs.getD k 0 = 0 := by
  simp only [zeroField, List.all_eq_true]
  constructor
  · intro z k hk hn
    rcases Nat.lt_or_ge k bs.length with l | l
    · have m : bs[k] ∈ (bs.drop o).take n := by
        rw [List.mem_take_iff_getElem]
        exact ⟨k - o, by simp; omega, by simp; congr 1; omega⟩
      have e := z _ m
      rw [List.getD_eq_getElem?_getD, List.getElem?_eq_getElem l]; simpa using e
    · rw [List.getD_eq_getElem?_getD, List.getElem?_eq_none l]; rfl
  · intro z x m
    rw [List.mem_take_iff_getElem] at m
    obtain ⟨i, hi, rfl⟩ := m
    simp at hi
    have e := z (o + i) (by omega) (by omega)
    rw [List.getD_eq_getElem?_getD, List.getElem?_eq_getElem (by omega)] at e
    simpa using e

/-- The checks of the length and the reserved bytes. -/
theorem fits_iff (h : Hand) (length reserved count : Nat) :
    h.fits length reserved count = true ↔ h.Fits length reserved count := by
  simp [Hand.fits, Hand.Fits, zeroField_iff]

/-- An area lies wholly within XM. -/
theorem inXm_iff (offset size : Nat) : inXm offset size = true ↔ offset + size ≤ 2147483648 := decide_eq_true_iff

/-- The checks of an area the host names. -/
theorem badArea_iff (s : State) (address size : Nat) : badArea s address size = true ↔ BadArea s address size := by
  have h : inXm address size = false ↔ 2147483648 < address + size := by
    rw [← Bool.not_eq_true, inXm_iff]; omega
  simp [badArea, BadArea, goodArea, onFixedArea, h]

end Sys2Proof.Machine
end

