-- ==== Sys2Proof/Laws/Tables.lean ====
section
/-!
SUPPORT. Small lemmas of the tables, the taking of messages, the check code and the waiting of streams by tag.
-/
namespace Sys2Proof.Machine

/-! ### Tables -/

/-- A table entry after one entry is changed. -/
theorem tweak_get {α : Type} {n : Nat} (v : Vector α n) (i j : Fin n) (f : α → α) :
    (tweak v i f)[j] = if j = i then f v[i] else v[j] := by
  simp only [tweak, Fin.getElem_fin, Vector.getElem_set]
  by_cases h : j = i
  · subst h; simp
  · have k : i.val ≠ j.val := fun e => h (Fin.ext e.symm)
    simp [h, k]

/-- Two changes of one entry are one. -/
theorem tweak_tweak {α : Type} {n : Nat} (v : Vector α n) (i : Fin n) (f g : α → α) :
    tweak (tweak v i f) i g = tweak v i fun x => g (f x) := by
  simp [tweak, Vector.set_set]

theorem mem_allFin {n : Nat} (i : Fin n) : i ∈ allFin n := List.mem_finRange i

/-- Changing every entry once, in turn, where the change of one entry depends on that entry only. -/
theorem foldl_tweak {α : Type} {n : Nat} (f : α → α) (is : List (Fin n)) (nd : is.Nodup) (v : Vector α n) (j : Fin n) :
    (is.foldl (fun v i => tweak v i f) v)[j] = if j ∈ is then f v[j] else v[j] := by
  induction is generalizing v with
  | nil => simp
  | cons i is ih =>
    obtain ⟨hi, hn⟩ := List.nodup_cons.mp nd
    simp only [List.foldl_cons]
    rw [ih hn, tweak_get]
    by_cases h : j = i
    · subst h; simp [hi]
    · simp [h]

/-! ### Messages -/

/-- The element that is taken satisfies the predicate, and the rest keeps its order. -/
theorem takeFirst_some {α : Type} {p : α → Bool} {l : List α} {x : α} {rest : List α}
    (h : takeFirst p l = some (x, rest)) : p x = true ∧ ∃ a b, l = a ++ x :: b ∧ rest = a ++ b ∧ ∀ y ∈ a, p y = false := by
  induction l generalizing rest with
  | nil => simp [takeFirst] at h
  | cons y l ih =>
    unfold takeFirst at h
    split at h
    · next q => cases h; exact ⟨q, [], l, rfl, rfl, by simp⟩
    · next q =>
      cases e : takeFirst p l with
      | none => simp [e] at h
      | some r =>
        simp [e] at h
        obtain ⟨rfl, rfl⟩ := h
        obtain ⟨px, a, b, e1, e2, e3⟩ := ih e
        refine ⟨px, y :: a, b, by simp [e1], by simp [e2], ?_⟩
        intro z hz
        rcases List.mem_cons.mp hz with rfl | hz
        · simpa using q
        · exact e3 z hz

/-- The only element that satisfies a predicate is the one that is found. -/
theorem find_unique {α : Type} (p : α → Bool) (l : List α) (x : α) (h : x ∈ l) (hp : p x = true)
    (u : ∀ y, p y = true → y = x) : l.find? p = some x := by
  cases e : l.find? p with
  | none => exact absurd hp (by simpa using List.find?_eq_none.mp e x h)
  | some y => rw [u y (List.find?_some e)]

/-- The one enabled stream of a tag. -/
theorem streamOfTag_some (tag : Nat) (s : State) (i : Fin 16) (h : s.sau.streams[i].enabled = true)
    (k : s.sau.streams[i].config.tag = tag)
    (u : ∀ j : Fin 16, s.sau.streams[j].enabled = true → s.sau.streams[j].config.tag = tag → j = i) :
    streamOfTag tag s = some i := by
  refine find_unique _ _ i (mem_allFin i) (by simp only [Fin.getElem_fin] at h k ⊢; simp [h, k]) fun j hj => ?_
  simp only [Bool.and_eq_true, beq_iff_eq] at hj
  exact u j hj.1 hj.2

/-- No enabled stream has the tag. -/
theorem streamOfTag_none (tag : Nat) (s : State)
    (u : ∀ j : Fin 16, ¬ (s.sau.streams[j].enabled = true ∧ s.sau.streams[j].config.tag = tag)) : streamOfTag tag s = none := by
  refine List.find?_eq_none.mpr fun j _ => ?_
  have := u j
  simpa using this

/-! ### The check code (R179) -/

/-- The register after the bytes is the fold of its bytes: the match in `crcOver` changes nothing. -/
theorem crcOver_eq_foldl (bs : List Byte) (reg : BitVec 32) : crcOver bs reg = bs.foldl crcByte reg := by
  induction bs generalizing reg with
  | nil => rfl
  | cons b bs ih =>
    simp only [crcOver, List.foldl_cons]
    split
    · next h => rw [ih]; congr 1; exact (BitVec.eq_of_toNat_eq (by simpa using h)).symm
    · next n h => rw [ih]; congr 1; exact BitVec.eq_of_toNat_eq (by simp only [BitVec.toNat_ofNat]; have := (crcByte reg b).isLt; omega)

/-- Little-endian bytes have the length asked for, and give the number back. -/
theorem leBytes_length (n v : Nat) : (leBytes n v).length = n := by
  induction n generalizing v with
  | zero => rfl
  | succ n ih => simp [leBytes, ih]

theorem leNat_leBytes (n v : Nat) (h : v < 256 ^ n) : leNat (leBytes n v) = v := by
  induction n generalizing v with
  | zero => simp [leBytes, leNat] at h ⊢; omega
  | succ n ih =>
    have k : v / 256 < 256 ^ n := by
      rw [Nat.pow_succ] at h
      exact Nat.div_lt_of_lt_mul (by omega)
    simp only [leBytes, leNat, ih _ k, BitVec.toNat_ofNat]
    omega

/-- Bytes followed by their check code pass the check (R7, R179). -/
theorem goodCheckCode_sealed (bs : List Byte) : goodCheckCode (sealed bs) = true := by
  have l := leBytes_length 4 (crc32 bs).toNat
  have e : (sealed bs).length - 4 = bs.length := by simp [sealed, l]
  have n : leNat (leBytes 4 (crc32 bs).toNat) = (crc32 bs).toNat := leNat_leBytes 4 _ (crc32 bs).isLt
  simp only [goodCheckCode, e]
  simp [sealed, l, n]

end Sys2Proof.Machine
end

