-- ==== Sys2Proof/Laws/Layouts.lean ====
section
/-!
SUPPORT. The layouts of the Part Status Block and of the Stream Report (12.6): how a field is read from bytes written one after
another, and that the bodies the writer places hold the fields their structures name.
-/
namespace Sys2Proof.Machine

/-! ### Reading a field of bytes written one after another -/

/-- The little-endian bytes of a value, read back, are the value modulo their range. -/
theorem leNat_leBytes_mod (n v : Nat) : leNat (leBytes n v) = v % 256 ^ n := by
  induction n generalizing v with
  | zero => simp [leBytes, leNat, Nat.mod_one]
  | succ n ih =>
    rw [leBytes, leNat, ih, BitVec.toNat_ofNat, show (2 : Nat) ^ 8 = 256 from rfl, Nat.pow_succ, Nat.mul_comm (256 ^ n),
      Nat.mod_mul]

theorem zeros_length (n : Nat) : (zeros n).length = n := List.length_replicate ..

theorem leNat_zeros (n : Nat) : leNat (zeros n) = 0 := by
  induction n with
  | zero => rfl
  | succ n ih => unfold zeros at ih ⊢; rw [List.replicate_succ, leNat, ih]; rfl

/-- A field behind some bytes. -/
theorem field_append (xs ys : List Byte) (o n : Nat) (h : xs.length ≤ o) :
    field (xs ++ ys) o n = field ys (o - xs.length) n := by
  unfold field; rw [List.drop_append, List.drop_eq_nil_of_le h, List.nil_append]

theorem field_after_leBytes (n v o m : Nat) (xs : List Byte) (h : n ≤ o) :
    field (leBytes n v ++ xs) o m = field xs (o - n) m := by
  rw [field_append _ _ _ _ (by rw [leBytes_length]; exact h), leBytes_length]

theorem field_after_zeros (n o m : Nat) (xs : List Byte) (h : n ≤ o) : field (zeros n ++ xs) o m = field xs (o - n) m := by
  rw [field_append _ _ _ _ (by rw [zeros_length]; exact h), zeros_length]

/-- The field that stands first. -/
theorem field_leBytes_mod (n v : Nat) (ys : List Byte) : field (leBytes n v ++ ys) 0 n = v % 256 ^ n := by
  unfold field
  rw [List.drop_zero, List.take_left' (leBytes_length n v), leNat_leBytes_mod]

theorem field_leBytes (n v : Nat) (h : v < 256 ^ n) (xs : List Byte) : field (leBytes n v ++ xs) 0 n = v := by
  rw [field_leBytes_mod, Nat.mod_eq_of_lt h]

theorem field_leBytes_toNat {w : Nat} (n : Nat) (x : BitVec w) (h : w = 8 * n) (xs : List Byte) :
    field (leBytes n x.toNat ++ xs) 0 n = x.toNat := by
  subst h
  refine field_leBytes _ _ ?_ _
  have b := x.isLt
  rwa [Nat.pow_mul] at b

/-- A field within zeros. -/
theorem field_zeros (m n o : Nat) (ys : List Byte) (h : o + n ≤ m) : field (zeros m ++ ys) o n = 0 := by
  have e : ((zeros m ++ ys).drop o).take n = zeros n := by
    rw [List.drop_append_of_le_length (by rw [zeros_length]; omega)]
    unfold zeros
    rw [List.drop_replicate, List.take_append_of_le_length (by rw [List.length_replicate]; omega), List.take_replicate]
    congr 1; omega
  unfold field
  rw [e, leNat_zeros]

theorem getD_append (xs ys : List Byte) (k : Nat) (h : xs.length ≤ k) :
    (xs ++ ys).getD k 0 = ys.getD (k - xs.length) 0 := by
  simp [List.getD_eq_getElem?_getD, List.getElem?_append_right h]

theorem getD_after_leBytes (n v k : Nat) (xs : List Byte) (h : n ≤ k) : (leBytes n v ++ xs).getD k 0 = xs.getD (k - n) 0 := by
  rw [getD_append _ _ _ (by rw [leBytes_length]; exact h), leBytes_length]

theorem getD_after_zeros (n k : Nat) (xs : List Byte) (h : n ≤ k) : (zeros n ++ xs).getD k 0 = xs.getD (k - n) 0 := by
  rw [getD_append _ _ _ (by rw [zeros_length]; exact h), zeros_length]

theorem getD_zeros (n k : Nat) : (zeros n).getD k 0 = 0 := by
  unfold zeros; rw [List.getD_eq_getElem?_getD, List.getElem?_replicate]; split <;> rfl

theorem getD_in_zeros (n k : Nat) (xs : List Byte) (h : k < n) : (zeros n ++ xs).getD k 0 = 0 := by
  rw [List.getD_eq_getElem?_getD, List.getElem?_append_left (by rw [zeros_length]; exact h), ← List.getD_eq_getElem?_getD,
    getD_zeros]

/-- Entries of one width, one after another. -/
theorem flatten_length {α} (f : α → List Byte) (w : Nat) (h : ∀ x, (f x).length = w) (xs : List α) :
    ((xs.map f).flatten).length = w * xs.length := by
  induction xs with
  | nil => simp
  | cons x xs ih =>
    simp only [List.map_cons, List.flatten_cons, List.length_append, h, ih, List.length_cons, Nat.mul_succ]; omega

/-- A field of one of several entries of one width. -/
theorem field_entry {α} (f : α → List Byte) (w : Nat) (h : ∀ x, (f x).length = w) (xs : List α) (ys : List Byte)
    (k o n : Nat) (x : α) (e : xs[k]? = some x) (b : o + n ≤ w) :
    field ((xs.map f).flatten ++ ys) (w * k + o) n = field (f x) o n := by
  induction xs generalizing k with
  | nil => simp at e
  | cons z zs ih =>
    simp only [List.map_cons, List.flatten_cons, List.append_assoc]
    cases k with
    | zero =>
      simp at e; subst e
      unfold field
      rw [Nat.mul_zero, Nat.zero_add, List.drop_append_of_le_length (by rw [h]; omega),
        List.take_append_of_le_length (by simp [h]; omega)]
    | succ k =>
      rw [field_append _ _ _ _ (by rw [h, Nat.mul_succ]; omega), h,
        show w * (k + 1) + o - w = w * k + o by rw [Nat.mul_succ]; omega]
      exact ih k (by simpa using e)

/-! ### The Part Status Block -/

theorem linkSection_length (x : LinkCounts × Nat) : (linkSection x).length = 48 := by
  simp [linkSection, count4, leBytes_length, zeros_length]

/-- One entry of the Deferred List as the block shows it. -/
def deferredEntry (d : Ticket × Nat) : List Byte := leBytes 4 d.1.toNat ++ leBytes 2 d.2 ++ zeros 2

theorem deferredEntry_length (d : Ticket × Nat) : (deferredEntry d).length = 8 := by
  simp [deferredEntry, leBytes_length, zeros_length]

theorem deferredField_eq (ds : List (Ticket × Nat)) :
    deferredField ds = (ds.map deferredEntry).flatten ++ zeros (32 - ((ds.map deferredEntry).flatten).length) := rfl

theorem deferredField_length (ds : List (Ticket × Nat)) (h : ds.length ≤ 4) : (deferredField ds).length = 32 := by
  rw [deferredField_eq, List.length_append, flatten_length deferredEntry 8 deferredEntry_length, zeros_length]; omega

theorem holdCauses_byte_lt (c : HoldCauses) : c.byte < 256 ^ 1 := by
  obtain ⟨a, b, c, d, e⟩ := c; revert a b c d e; decide

theorem toNat_lt (b : Bool) : b.toNat < 256 ^ 1 := by cases b <;> decide

theorem work_kind_lt (w : DeferredWork) : w.kind < 256 ^ 2 := by cases w <;> simp [DeferredWork.kind]

theorem retainedNumber_eq (s : State) : ((retainedEdition s).map Edition.number).getD 0 = retainedNumber s := by
  unfold retainedEdition retainedNumber
  cases s.rce.slotA <;> cases s.rce.slotB <;> rfl

/-- The link section of a link's counts, part by part. -/
theorem linkSection_eq (x : LinkCounts × Nat) : linkSection x =
    leBytes 4 x.1.commands.toNat ++ (leBytes 4 x.1.safes.toNat ++ (leBytes 4 x.1.aborted.toNat
      ++ (leBytes 4 x.1.dropped.toNat ++ (leBytes 4 x.1.accepted.toNat ++ (leBytes 4 x.1.misses.toNat
      ++ (leBytes 4 x.1.timeouts.toNat ++ (leBytes 4 x.1.rejections.toNat ++ (leBytes 4 x.1.supersedes.toNat
      ++ (leBytes 4 x.1.stray.toNat ++ (leBytes 4 x.1.bad.toNat ++ (leBytes 1 x.2 ++ zeros 3))))))))))) := by
  simp only [linkSection, count4, List.map_cons, List.map_nil, List.flatten_cons, List.flatten_nil, List.append_assoc,
    List.nil_append]

/-- The body of the block, part by part. -/
theorem statusBody_eq (s : State) : statusBody (statusView s) s.time =
    leBytes 1 s.run.state.code ++ (leBytes 1 s.run.refusal.code ++ (leBytes 1 s.fck.pace.code ++ (leBytes 1 s.cou.output.code
      ++ (leBytes 1 s.cou.causes.byte ++ (leBytes 1 s.cou.level.code ++ (leBytes 1 s.fau.lastDispatched.isSome.toNat
      ++ (leBytes 1 s.sau.lastWrapped.val ++ (leBytes 2 (s.fau.lastDispatched.getD 0).toNat
      ++ (leBytes 2 s.rpu.decimation.toNat ++ (leBytes 8 s.time.toNat ++ (leBytes 4 (s.du.takenThrough.getD 0).toNat
      ++ (leBytes 4 (s.du.settledThrough.getD 0).toNat ++ (leBytes 1 s.du.deferred.length ++ (zeros 3
      ++ (deferredField (statusView s).deferred ++ (leBytes 4 (currentNumber s).toNat ++ (leBytes 4 (retainedNumber s).toNat
      ++ (leBytes 4 s.fau.dispatched.toNat ++ (leBytes 4 s.fau.skipped.toNat ++ (leBytes 4 s.fau.abandoned.toNat
      ++ (leBytes 4 s.fau.overrun.toNat ++ (leBytes 4 s.fau.voided.toNat ++ (leBytes 4 s.fck.reframes.toNat
      ++ (leBytes 4 s.rce.tileErrors.toNat ++ (leBytes 4 s.corrected.toNat ++ (leBytes 4 s.sau.overruns.toNat
      ++ (leBytes 4 s.rpu.serial.toNat ++ (leBytes 4 s.rpu.dropped.toNat ++ (zeros 8
      ++ (((statusView s).links.map linkSection).flatten ++ zeros 700)))))))))))))))))))))))))))))) := by
  have l : (statusView s).deferred.length = s.du.deferred.length := by simp [statusView]
  have tot : (statusView s).totals = [s.fau.dispatched, s.fau.skipped, s.fau.abandoned, s.fau.overrun, s.fau.voided,
    s.fck.reframes] := rfl
  rw [← retainedNumber_eq]
  unfold statusBody
  rw [l, tot]
  simp only [List.append_assoc, List.map_cons, List.map_nil, List.flatten_cons, List.flatten_nil, List.nil_append, ticketField,
    count4]
  rfl

/-- The body of the block holds the fields of the state (12.6). -/
theorem statusFields (s : State) (h : s.du.deferred.length ≤ 4) : StatusFields s (statusBody (statusView s) s.time) := by
  have cl : (statusView s).links.length = 4 := by simp [statusView]
  have dl : (statusView s).deferred.length = s.du.deferred.length := by simp [statusView]
  have k1 : s.run.state.code < 256 ^ 1 := by cases s.run.state <;> decide
  have k2 : s.run.refusal.code < 256 ^ 1 := by cases s.run.refusal <;> decide
  have k3 : s.fck.pace.code < 256 ^ 1 := by cases s.fck.pace <;> decide
  have k4 : s.cou.output.code < 256 ^ 1 := by cases s.cou.output <;> decide
  have k5 : s.cou.level.code < 256 ^ 1 := by cases s.cou.level <;> decide
  have k6 : s.sau.lastWrapped.val < 256 ^ 1 := by have := s.sau.lastWrapped.isLt; omega
  have k7 : s.du.deferred.length < 256 ^ 1 := by omega
  obtain ⟨A, hA⟩ : ∃ A, A = deferredField (statusView s).deferred := ⟨_, rfl⟩
  obtain ⟨B, hB⟩ : ∃ B, B = ((statusView s).links.map linkSection).flatten := ⟨_, rfl⟩
  have lA : A.length = 32 := by rw [hA]; exact deferredField_length _ (by rw [dl]; exact h)
  have lB : B.length = 192 := by rw [hB, flatten_length linkSection 48 linkSection_length, cl]
  have fA : ∀ (o m : Nat) (xs : List Byte), 32 ≤ o → field (A ++ xs) o m = field xs (o - 32) m := fun o m xs ho => by
    rw [field_append _ _ _ _ (by rw [lA]; exact ho), lA]
  have gA : ∀ (k : Nat) (xs : List Byte), 32 ≤ k → (A ++ xs).getD k 0 = xs.getD (k - 32) 0 := fun k xs hk => by
    rw [getD_append _ _ _ (by rw [lA]; exact hk), lA]
  have gB : ∀ (k : Nat) (xs : List Byte), 192 ≤ k → (B ++ xs).getD k 0 = xs.getD (k - 192) 0 := fun k xs hk => by
    rw [getD_append _ _ _ (by rw [lB]; exact hk), lB]
  have e := statusBody_eq s
  rw [← hA, ← hB] at e
  have links : ∀ (l : Fin 4) (k : Nat), k < 12 → field (zeros 4 ++ statusBody (statusView s) s.time) (128 + 48 * l + 4 * k) 4
      = field (linkSection (s.cou.links[l].counts, s.cou.links[l].consecutive)) (4 * k) 4 := by
    intro l k hk
    have el : ((statusView s).links)[l.val]? = some (s.cou.links[l].counts, s.cou.links[l].consecutive) := by simp [statusView]
    rw [e, ← field_entry linkSection 48 linkSection_length _ (zeros 700) _ (4 * k) 4 _ el (by omega), ← hB]
    repeat first
      | rw [field_after_leBytes _ _ _ _ _ (by omega)] | rw [field_after_zeros _ _ _ _ (by omega)] | rw [fA _ _ _ (by omega)]
    generalize zeros 700 = Z
    exact congrArg (fun o => field (B ++ Z) o 4) (by omega)
  have list : ∀ (k : Nat) (d : Deferred) (o m : Nat), s.du.deferred[k]? = some d → o + m ≤ 8 →
      field (zeros 4 ++ statusBody (statusView s) s.time) (36 + 8 * k + o) m
        = field (deferredEntry (d.ticket, d.work.kind)) o m := by
    intro k d o m hk ho
    have kl : k < 4 := by have := (List.getElem?_eq_some_iff.1 hk).1; omega
    have ek : ((statusView s).deferred)[k]? = some (d.ticket, d.work.kind) := by simp [statusView, hk]
    rw [e]
    repeat first | rw [field_after_leBytes _ _ _ _ _ (by omega)] | rw [field_after_zeros _ _ _ _ (by omega)]
    rw [hA, deferredField_eq, List.append_assoc, ← field_entry deferredEntry 8 deferredEntry_length _ _ _ o m _ ek ho]
    exact congrArg (fun o => field _ o m) (by omega)
  constructor
  case length => rw [e]; simp only [List.length_append, leBytes_length, zeros_length, lA, lB]
  case links =>
    intro l
    refine ⟨?_, ?_, ?_, ?_, ?_, ?_, ?_, ?_, ?_, ?_, ?_, ?_⟩
    all_goals (dsimp only; rw [links l _ (by omega), linkSection_eq])
    all_goals repeat rw [field_after_leBytes _ _ _ _ _ (by omega)]
    case refine_12 => unfold field; simp [leBytes, zeros, leNat]
    all_goals rw [field_leBytes_toNat _ _ (by rfl)]
  case deferred =>
    refine ⟨?_, fun k d hk => ⟨?_, ?_, ?_⟩, fun k lk kl => ?_⟩
    · rw [e]
      repeat first | rw [field_after_leBytes _ _ _ _ _ (by omega)] | rw [field_after_zeros _ _ _ _ (by omega)]
      rw [field_leBytes _ _ k7]
    · rw [← Nat.add_zero (36 + 8 * k), list k d 0 4 hk (by omega), deferredEntry, List.append_assoc,
        field_leBytes_toNat _ _ (by rfl)]
    · rw [show 40 + 8 * k = 36 + 8 * k + 4 by omega, list k d 4 2 hk (by omega), deferredEntry, List.append_assoc,
        field_after_leBytes _ _ _ _ _ (by omega)]
      exact field_leBytes _ _ (work_kind_lt _) _
    · rw [show 42 + 8 * k = 36 + 8 * k + 6 by omega, list k d 6 2 hk (by omega), deferredEntry, List.append_assoc,
        field_after_leBytes _ _ _ _ _ (by omega), field_after_leBytes _ _ _ _ _ (by omega), ← List.append_nil (zeros 2)]
      exact field_zeros _ _ _ _ (by omega)
    · have n := flatten_length deferredEntry 8 deferredEntry_length (statusView s).deferred
      rw [e]
      repeat first | rw [field_after_leBytes _ _ _ _ _ (by omega)] | rw [field_after_zeros _ _ _ _ (by omega)]
      rw [hA, deferredField_eq, List.append_assoc, field_append _ _ _ _ (by omega)]
      exact field_zeros _ _ _ _ (by omega)
  case reserved =>
    intro k hk
    rw [e]
    rcases hk with ⟨a, b⟩ | ⟨a, b⟩ | a
    all_goals repeat first
      | rw [getD_after_leBytes _ _ _ _ (by omega)] | rw [getD_after_zeros _ _ _ (by omega)] | rw [gA _ _ (by omega)]
      | rw [gB _ _ (by omega)]
    · exact getD_in_zeros _ _ _ (by omega)
    · exact getD_in_zeros _ _ _ (by omega)
    · exact getD_zeros ..
  all_goals rw [e]
  all_goals try refine ⟨?_, ?_, ?_, ?_, ?_, ?_⟩
  all_goals try refine ⟨?_, ?_, ?_⟩
  all_goals try refine ⟨?_, ?_⟩
  all_goals repeat first
    | rw [field_after_leBytes _ _ _ _ _ (by omega)] | rw [field_after_zeros _ _ _ _ (by omega)] | rw [fA _ _ _ (by omega)]
  all_goals first
    | rw [field_leBytes_toNat _ _ (by rfl)] | rw [field_leBytes _ _ k1] | rw [field_leBytes _ _ k2] | rw [field_leBytes _ _ k3]
    | rw [field_leBytes _ _ k4] | rw [field_leBytes _ _ k5] | rw [field_leBytes _ _ k6]
    | rw [field_leBytes _ _ (holdCauses_byte_lt _)] | rw [field_leBytes _ _ (toNat_lt _)]

/-! ### The Stream Report -/

theorem counters_length (x : Stream) : ((x.counters.toList.map fun c => leBytes 2 c.toNat).flatten).length = 22 := by
  rw [flatten_length (fun c : BitVec 16 => leBytes 2 c.toNat) 2 (by simp [leBytes_length])]; simp

theorem streamEntry_length (x : Stream) : (streamEntry x).length = 64 := by
  simp only [streamEntry, List.length_append, leBytes_length, zeros_length, counters_length]

theorem linkEntry_length (p : Port) (b : Bool) : (linkEntry p b).length = 24 := by
  simp only [linkEntry, List.length_append, leBytes_length, zeros_length]

/-- The body of the report holds the fields of the state (12.6). -/
theorem streamReportFields (s : State) : StreamReportFields s (streamReportBody s) := by
  obtain ⟨X, hX⟩ : ∃ X, X = (s.sau.streams.toList.map streamEntry).flatten := ⟨_, rfl⟩
  obtain ⟨Y, hY⟩ : ∃ Y, Y = ((allFin 8).map fun l => linkEntry s.ports[l] s.sau.asideFlags[l]).flatten := ⟨_, rfl⟩
  have lX : X.length = 1024 := by rw [hX, flatten_length streamEntry 64 streamEntry_length]; simp
  have lY : Y.length = 192 := by
    rw [hY, flatten_length (fun l : Fin 8 => linkEntry s.ports[l] s.sau.asideFlags[l]) 24 (fun l => linkEntry_length _ _)]; rfl
  have e : zeros 4 ++ streamReportBody s = zeros 4 ++ (zeros 60 ++ (X ++ (Y ++ zeros 2812))) := by
    rw [hX, hY]; unfold streamReportBody; simp only [List.append_assoc]
  constructor
  case length =>
    have l := congrArg List.length e
    simp only [List.length_append, zeros_length, lX, lY] at l; omega
  case reserved =>
    intro k hk
    rw [e]
    rcases hk with ⟨a, b⟩ | a
    all_goals repeat first | rw [getD_after_zeros _ _ _ (by omega)] | rw [getD_append _ _ _ (by omega)]
    · exact getD_in_zeros _ _ _ (by omega)
    · exact getD_zeros ..
  case streams =>
    intro i
    have el : (s.sau.streams.toList)[i.val]? = some s.sau.streams[i] := by simp
    have entry : ∀ o n, o + n ≤ 64 → field (zeros 4 ++ streamReportBody s) (64 + 64 * i + o) n
        = field (streamEntry s.sau.streams[i]) o n := by
      intro o n ho
      rw [e, ← field_entry streamEntry 64 streamEntry_length _ (Y ++ zeros 2812) _ o n _ el ho, ← hX]
      repeat rw [field_after_zeros _ _ _ _ (by omega)]
      generalize Y ++ zeros 2812 = Z
      exact congrArg (fun o => field _ o n) (by omega)
    have counts : ∀ (c : Counter) o, o = 16 + 2 * c.index.val →
        field (streamEntry s.sau.streams[i]) o 2 = (s.sau.streams[i].counter c).toNat := by
      intro c o ho
      have b := c.index.isLt
      have el : (s.sau.streams[i].counters.toList)[c.index.val]? = some (s.sau.streams[i].counter c) := by simp [Stream.counter]
      unfold streamEntry; simp only [List.append_assoc]
      repeat rw [field_after_leBytes _ _ _ _ _ (by omega)]
      rw [field_after_zeros _ _ _ _ (by omega), field_after_leBytes _ _ _ _ _ (by omega),
        show o - 1 - 1 - 2 - 1 - 1 - 1 - 1 - 2 - 2 - 1 - 1 - 2 = 2 * c.index.val + 0 by omega,
        field_entry (fun c : BitVec 16 => leBytes 2 c.toNat) 2 (by simp [leBytes_length]) _ _ _ 0 2 _ el (by omega),
        ← List.append_nil (leBytes 2 _)]
      exact field_leBytes _ _ (BitVec.isLt _) _
    have k1 : ∀ c : StreamState, c.code < 256 ^ 1 := fun c => by cases c <;> decide
    have k2 : ∀ c : Substitution, c.code < 256 ^ 1 := fun c => by cases c <;> decide
    dsimp only
    refine ⟨⟨?_, ?_⟩, ⟨?_, ?_, ?_, ?_, ?_, ?_, ?_, ?_, ?_, ?_⟩, ⟨?_, ?_, ?_, ?_, ?_, ?_, ?_, ?_, ?_, ?_, ?_⟩,
      ?_, ?_, ?_, ?_⟩
    all_goals rw [entry _ _ (by omega)]
    case refine_13 => exact counts .received _ rfl
    case refine_14 => exact counts .placed _ rfl
    case refine_15 => exact counts .duplicate _ rfl
    case refine_16 => exact counts .late _ rfl
    case refine_17 => exact counts .misinserted _ rfl
    case refine_18 => exact counts .malformed _ rfl
    case refine_19 => exact counts .seekingDiscards _ rfl
    case refine_20 => exact counts .misrouted _ rfl
    case refine_21 => exact counts .idleDiscards _ rfl
    case refine_22 => exact counts .voidFrames _ rfl
    case refine_23 => exact counts .cutEvents _ rfl
    all_goals (unfold streamEntry; simp only [List.append_assoc])
    all_goals repeat first
      | rw [field_after_leBytes _ _ _ _ _ (by omega)] | rw [field_after_zeros _ _ _ _ (by omega)]
      | rw [field_append _ _ _ _ ((counters_length _).le.trans (by omega)), counters_length]
    all_goals first
      | rw [field_leBytes_toNat _ _ (by rfl)] | rw [field_leBytes _ _ (k1 _)] | rw [field_leBytes _ _ (toNat_lt _)]
      | rw [field_leBytes _ _ (k2 _)] | rw [field_zeros _ _ _ _ (by omega)]
      | rw [← List.append_nil (zeros 16), field_zeros _ _ _ _ (by omega)] | exact field_leBytes_mod _ _ _
  case links =>
    intro l
    have el : (allFin 8)[l.val]? = some l := by revert l; decide
    have entry : ∀ o n, o + n ≤ 24 → field (zeros 4 ++ streamReportBody s) (1088 + 24 * l + o) n
        = field (linkEntry s.ports[l] s.sau.asideFlags[l]) o n := by
      intro o n ho
      rw [e, ← field_entry (fun l : Fin 8 => linkEntry s.ports[l] s.sau.asideFlags[l]) 24 (fun l => linkEntry_length _ _) _
        (zeros 2812) _ o n _ el ho, ← hY]
      repeat first | rw [field_after_zeros _ _ _ _ (by omega)] | rw [field_append X _ _ _ (by omega), lX]
      generalize zeros 2812 = Z
      exact congrArg (fun o => field _ o n) (by omega)
    have k1 : ∀ c : LinkState, c.code < 256 ^ 1 := fun c => by cases c <;> decide
    dsimp only
    refine ⟨?_, ?_, ?_, ?_, ?_, ?_, ?_, ?_⟩
    all_goals rw [entry _ _ (by omega)]
    all_goals (unfold linkEntry; simp only [List.append_assoc])
    all_goals repeat first
      | rw [field_after_leBytes _ _ _ _ _ (by omega)] | rw [field_after_zeros _ _ _ _ (by omega)]
    all_goals first
      | rw [field_leBytes_toNat _ _ (by rfl)] | rw [field_leBytes _ _ (k1 _)] | rw [field_leBytes _ _ (toNat_lt _)]
      | rw [field_zeros _ _ _ _ (by omega)] | rw [← List.append_nil (leBytes 8 _), field_leBytes_toNat _ _ (by rfl)]

/-! ### Telemetry records and snapshot entries -/

theorem source_code_lt (x : ProbeSource) : x.code < 256 ^ 1 := by cases x <;> simp [ProbeSource.code]

/-- The body of a record holds the fields of the set (12.6). -/
theorem telemetryFields (x : TelemetrySet) (n : Option Nat) : TelemetryFields x n (telemetryBody x n) := by
  have k1 : x.handed.cause.code < 256 ^ 1 := by cases x.handed.cause <;> decide
  have k2 : x.result.code < 256 ^ 1 := by cases x.result <;> decide
  have k3 : x.output.code < 256 ^ 1 := by cases x.output <;> decide
  obtain ⟨V, hV⟩ : ∃ V, V = (x.handed.voidCounts.toList.map (leBytes 2)).flatten := ⟨_, rfl⟩
  have lV : V.length = 32 := by rw [hV, flatten_length (leBytes 2) 2 (fun _ => leBytes_length ..)]; simp
  have fV : ∀ (o m : Nat) (xs : List Byte), 32 ≤ o → field (V ++ xs) o m = field xs (o - 32) m := fun o m xs ho => by
    rw [field_append _ _ _ _ (by rw [lV]; exact ho), lV]
  have gV : ∀ (k : Nat) (xs : List Byte), 32 ≤ k → (V ++ xs).getD k 0 = xs.getD (k - 32) 0 := fun k xs hk => by
    rw [getD_append _ _ _ (by rw [lV]; exact hk), lV]
  have e : telemetryBody x n = leBytes 2 x.handed.frame.toNat ++ (leBytes 1 x.handed.cause.code ++ (leBytes 1 x.result.code
      ++ (leBytes 4 x.edition.toNat ++ (leBytes 8 x.handed.started.toNat ++ (leBytes 8 x.handed.closed.toNat
      ++ (leBytes 8 x.completed.toNat ++ (V ++ (leBytes 2 x.saturated ++ (leBytes 2 x.voidActuators ++ (leBytes 2 x.memoryErrors
      ++ (leBytes 1 x.source.code ++ (leBytes 1 x.source.entry ++ (leBytes 1 x.output.code ++ (leBytes 1 x.causes.byte
      ++ (leBytes 2 (n.getD 0xFFFF) ++ zeros 432))))))))))))))) := by
    rw [hV]; simp only [telemetryBody, List.append_assoc]
  constructor
  case length => rw [e]; simp only [List.length_append, leBytes_length, zeros_length, lV]
  case reserved =>
    intro k hk
    rw [e]
    repeat first
      | rw [getD_after_leBytes _ _ _ _ (by omega)] | rw [getD_after_zeros _ _ _ (by omega)] | rw [gV _ _ (by omega)]
    exact getD_zeros ..
  case voidCounts =>
    intro i
    have ei : (x.handed.voidCounts.toList)[i.val]? = some x.handed.voidCounts[i] := by simp
    rw [e]
    repeat first
      | rw [field_after_leBytes _ _ _ _ _ (by omega)] | rw [field_after_zeros _ _ _ _ (by omega)]
    have h := field_entry (leBytes 2) 2 (fun _ => leBytes_length ..) x.handed.voidCounts.toList
      (leBytes 2 x.saturated ++ (leBytes 2 x.voidActuators ++ (leBytes 2 x.memoryErrors
      ++ (leBytes 1 x.source.code ++ (leBytes 1 x.source.entry ++ (leBytes 1 x.output.code ++ (leBytes 1 x.causes.byte
      ++ (leBytes 2 (n.getD 0xFFFF) ++ zeros 432)))))))) i.val 0 2 _ ei (by omega)
    rw [← hV, ← List.append_nil (leBytes 2 x.handed.voidCounts[i]), field_leBytes_mod] at h
    generalize leBytes 2 x.saturated ++ _ = Z at h ⊢
    rw [← show (256 : Nat) ^ 2 = 65536 from rfl, ← h]
    exact congrArg (fun o => field (V ++ Z) o 2) (by omega)
  all_goals rw [e]
  all_goals try refine ⟨?_, ?_, ?_⟩
  all_goals repeat first
    | rw [field_after_leBytes _ _ _ _ _ (by omega)] | rw [field_after_zeros _ _ _ _ (by omega)] | rw [fV _ _ _ (by omega)]
  all_goals first
    | rw [field_leBytes_toNat _ _ (by rfl)] | rw [field_leBytes _ _ k1] | rw [field_leBytes _ _ k2] | rw [field_leBytes _ _ k3]
    | rw [field_leBytes _ _ (source_code_lt _)] | rw [field_leBytes _ _ (holdCauses_byte_lt _)] | exact field_leBytes_mod ..

/-- The fields of a snapshot entry that follow its serial. -/
def snapshotHead (x : TelemetrySet) : List Byte :=
  leBytes 2 x.handed.frame.toNat ++ leBytes 1 x.result.code ++ zeros 1 ++ leBytes 4 x.edition.toNat
    ++ leBytes 2 x.slopeCount ++ leBytes 2 x.actuatorCount ++ leBytes 2 ((x.residual.map List.length).getD 0) ++ zeros 14

/-- They are those of the set (12.6). -/
theorem snapshotFields (x : TelemetrySet) : SnapshotFields x (snapshotHead x) := by
  have k : x.result.code < 256 ^ 1 := by cases x.result <;> decide
  have e : snapshotHead x = leBytes 2 x.handed.frame.toNat ++ (leBytes 1 x.result.code ++ (zeros 1 ++ (leBytes 4 x.edition.toNat
    ++ (leBytes 2 x.slopeCount ++ (leBytes 2 x.actuatorCount ++ (leBytes 2 ((x.residual.map List.length).getD 0) ++ zeros 14))))))
    := by simp only [snapshotHead, List.append_assoc]
  constructor
  case length => rw [e]; simp only [List.length_append, leBytes_length, zeros_length]
  case reserved =>
    refine ⟨?_, fun n hn => ?_⟩
    · rw [e]
      repeat first | rw [getD_after_leBytes _ _ _ _ (by omega)] | rw [getD_after_zeros _ _ _ (by omega)]
      exact getD_in_zeros _ _ _ (by omega)
    · rw [e]
      repeat first | rw [getD_after_leBytes _ _ _ _ (by omega)] | rw [getD_after_zeros _ _ _ (by omega)]
      exact getD_zeros ..
  all_goals rw [e]
  all_goals try refine ⟨?_, ?_⟩
  all_goals repeat first
    | rw [field_after_leBytes _ _ _ _ _ (by omega)] | rw [field_after_zeros _ _ _ _ (by omega)]
  all_goals first
    | rw [field_leBytes_toNat _ _ (by rfl)] | rw [field_leBytes _ _ k] | exact field_leBytes_mod ..

end Sys2Proof.Machine
end

