-- ==== Sys2Proof/Laws/Store.lean ====
section
/-!
SUPPORT. Sparse stores: what a write makes of every read, and that every operation keeps the canonical form.
-/
namespace Sys2Proof.Machine.Store

variable {α : Type}

theorem find?_insert (m : Store α) (a b : Nat) (v : α) :
    find? (insert m a v) b = if b = a then some v else find? m b := by
  induction m with
  | nil => simp [insert, find?]
  | cons x m ih =>
    obtain ⟨k, w⟩ := x
    simp only [insert]
    split
    · rfl
    · split
      · next h => subst h; simp only [find?]; split <;> rfl
      · next h =>
        simp only [find?, ih]
        split
        · next hb => subst hb; simp [Ne.symm h]
        · rfl

theorem find?_erase (m : Store α) (a b : Nat) : find? (erase m a) b = if b = a then none else find? m b := by
  induction m with
  | nil => simp [erase, find?]
  | cons x m ih =>
    obtain ⟨k, w⟩ := x
    simp only [erase]
    split
    · next h =>
      subst h
      simp only [find?, ih]
      split
      · rfl
      · rfl
    · next h =>
      simp only [find?, ih]
      split
      · next hb => subst hb; simp [Ne.symm h]
      · rfl

section
variable [DecidableEq α]

/-- What a write makes of every read. -/
theorem read_write (d : α) (m : Store α) (a b : Nat) (v : α) :
    read d (write d m a v) b = if b = a then v else read d m b := by
  unfold read write
  split
  · next h => rw [find?_erase]; split <;> simp [h]
  · rw [find?_insert]; split <;> rfl

/-- What a run of writes makes of every read. -/
theorem read_writeAll (d : α) (m : Store α) (a b : Nat) (vs : List α) :
    read d (writeAll d m a vs) b = if a ≤ b then (vs[b - a]?).getD (read d m b) else read d m b := by
  induction vs generalizing m a with
  | nil => simp [writeAll]
  | cons v vs ih =>
    simp only [writeAll, ih, read_write]
    rcases Nat.lt_trichotomy b a with h | h | h
    · simp [show ¬ a ≤ b by omega, show ¬ a + 1 ≤ b by omega, show b ≠ a by omega]
    · subst h; simp [show ¬ b + 1 ≤ b by omega]
    · have e : b - a = (b - (a + 1)) + 1 := by omega
      simp [show a ≤ b by omega, show a + 1 ≤ b by omega, show b ≠ a by omega, e]

theorem read_writeAll_outside (d : α) (m : Store α) (a b : Nat) (vs : List α) (h : b < a ∨ a + vs.length ≤ b) :
    read d (writeAll d m a vs) b = read d m b := by
  rw [read_writeAll]
  split
  · have : vs[b - a]? = none := by rw [List.getElem?_eq_none_iff]; omega
    simp [this]
  · rfl

end

/-! ### The canonical form -/

/-- Every key of a store is above a bound. -/
def above (k : Nat) (m : Store α) : Prop := ∀ e ∈ m, k < e.1

theorem rising_cons (k : Nat) (v : α) (m : Store α) : rising ((k, v) :: m) = true ↔ above k m ∧ rising m = true := by
  induction m generalizing k v with
  | nil => simp [rising, above]
  | cons x m ih =>
    obtain ⟨k', v'⟩ := x
    rw [rising, Bool.and_eq_true, decide_eq_true_eq, ih]
    constructor
    · rintro ⟨h, ha, hr⟩
      refine ⟨?_, ha, hr⟩
      intro e he
      rcases List.mem_cons.mp he with rfl | he
      · exact h
      · exact Nat.lt_trans h (ha e he)
    · rintro ⟨ha, hb, hr⟩
      exact ⟨ha _ (List.mem_cons_self ..), hb, hr⟩

theorem mem_insert {m : Store α} {a : Nat} {v : α} {e : Nat × α} (h : e ∈ insert m a v) : e = (a, v) ∨ e ∈ m := by
  induction m with
  | nil => simpa [insert] using h
  | cons x m ih =>
    obtain ⟨k, w⟩ := x
    simp only [insert] at h
    split at h
    · rcases List.mem_cons.mp h with h | h
      · exact .inl h
      · exact .inr h
    · split at h
      · rcases List.mem_cons.mp h with h | h
        · exact .inl h
        · exact .inr (List.mem_cons_of_mem _ h)
      · rcases List.mem_cons.mp h with h | h
        · exact .inr (h ▸ List.mem_cons_self ..)
        · rcases ih h with h | h
          · exact .inl h
          · exact .inr (List.mem_cons_of_mem _ h)

theorem mem_erase {m : Store α} {a : Nat} {e : Nat × α} (h : e ∈ erase m a) : e ∈ m := by
  induction m with
  | nil => simp [erase] at h
  | cons x m ih =>
    obtain ⟨k, w⟩ := x
    simp only [erase] at h
    split at h
    · exact List.mem_cons_of_mem _ (ih h)
    · rcases List.mem_cons.mp h with h | h
      · exact h ▸ List.mem_cons_self ..
      · exact List.mem_cons_of_mem _ (ih h)

theorem rising_insert {m : Store α} (a : Nat) (v : α) (h : rising m = true) : rising (insert m a v) = true := by
  induction m with
  | nil => rfl
  | cons x m ih =>
    obtain ⟨k, w⟩ := x
    obtain ⟨ha, hr⟩ := (rising_cons k w m).mp h
    simp only [insert]
    split
    · next hk =>
      refine (rising_cons ..).mpr ⟨?_, h⟩
      intro e he
      rcases List.mem_cons.mp he with rfl | he
      · exact hk
      · exact Nat.lt_trans hk (ha e he)
    · split
      · next hk => subst hk; exact (rising_cons ..).mpr ⟨ha, hr⟩
      · next h1 h2 =>
        refine (rising_cons ..).mpr ⟨?_, ih hr⟩
        intro e he
        rcases mem_insert he with rfl | he
        · show k < a; omega
        · exact ha e he

theorem rising_erase {m : Store α} (a : Nat) (h : rising m = true) : rising (erase m a) = true := by
  induction m with
  | nil => rfl
  | cons x m ih =>
    obtain ⟨k, w⟩ := x
    obtain ⟨ha, hr⟩ := (rising_cons k w m).mp h
    simp only [erase]
    split
    · exact ih hr
    · exact (rising_cons ..).mpr ⟨fun e he => ha e (mem_erase he), ih hr⟩

section
variable [DecidableEq α]

theorem wf_iff (d : α) (m : Store α) : wf d m = true ↔ rising m = true ∧ ∀ e ∈ m, e.2 ≠ d := by
  simp [wf]

/-- A write keeps the canonical form. -/
theorem wf_write (d : α) {m : Store α} (a : Nat) (v : α) (h : wf d m = true) : wf d (write d m a v) = true := by
  obtain ⟨hr, hd⟩ := (wf_iff d m).mp h
  unfold write
  split
  · exact (wf_iff ..).mpr ⟨rising_erase a hr, fun e he => hd e (mem_erase he)⟩
  · next hv =>
    refine (wf_iff ..).mpr ⟨rising_insert a v hr, fun e he => ?_⟩
    rcases mem_insert he with rfl | he
    · exact hv
    · exact hd e he

/-- A run of writes keeps the canonical form. -/
theorem wf_writeAll (d : α) {m : Store α} (a : Nat) (vs : List α) (h : wf d m = true) :
    wf d (writeAll d m a vs) = true := by
  induction vs generalizing m a with
  | nil => exact h
  | cons v vs ih => exact ih (a + 1) (wf_write d a v h)

end

theorem find?_of_above {m : Store α} {k : Nat} (h : above k m) : find? m k = none := by
  induction m with
  | nil => rfl
  | cons x m ih =>
    have h1 : k < x.1 := h x (List.mem_cons_self ..)
    have h2 : k ≠ x.1 := by omega
    have := ih fun e he => h e (List.mem_cons_of_mem _ he)
    obtain ⟨k', v⟩ := x
    simp_all [find?]

end Sys2Proof.Machine.Store
end

