-- ==== Sys2Proof/Laws/Memory.lean ====
section
/-!
SUPPORT. Exchange Memory and the arbiter: every memory operation keeps the canonical form (log 5), what a byte reads after a write,
the granule pieces of an access, the grant of a rotation claimant, and cell errors (R172 to R174).
-/
namespace Sys2Proof.Machine

/-! ### Bytes -/

/-- A write of bytes keeps the canonical form of memory. -/
theorem writeBytes_keeps_wf (s : State) (a : Nat) (bs : List Byte) (h : Memory.wf s.xm = true) :
    Memory.wf (writeBytes s a bs).xm = true := Store.wf_writeAll 0 a bs h

/-- The memory after power-on is in its canonical form. -/
theorem reset_memory_wf : Memory.wf State.reset.xm = true := rfl

/-- A byte after a write: the data where the write covers it, else as it was. -/
theorem readByte_writeBytes (s : State) (a b : Nat) (bs : List Byte) :
    readByte (writeBytes s a bs) b = if a ≤ b ∧ b < a + bs.length then bs.getD (b - a) 0 else readByte s b := by
  have h := Store.read_writeAll 0 s.xm a b bs
  unfold readByte writeBytes Memory.read at *
  simp only [h]
  by_cases ha : a ≤ b <;> by_cases hb : b < a + bs.length
  · have : b - a < bs.length := by omega
    simp [ha, hb, List.getD, this]
  · have : bs.length ≤ b - a := by omega
    simp [ha, hb, this]
  · simp [ha]
  · simp [ha]

/-- A stored granule keeps the canonical form. -/
theorem storeGranule_keeps_wf (a : Access) (bs : List Byte) (s : State) (h : Memory.wf s.xm = true) :
    Memory.wf (storeGranule a bs s).xm = true := Store.wf_writeAll 0 _ bs h

/-- A granule write keeps the canonical form, whether it is stored or discarded. -/
theorem writeGranule_keeps_wf (a : Access) (bs : List Byte) (s : State) (h : Memory.wf s.xm = true) :
    Memory.wf (writeGranule a bs s).xm = true := by
  unfold writeGranule
  split
  · exact storeGranule_keeps_wf a bs s h
  · split
    · exact storeGranule_keeps_wf a bs s h
    · exact storeGranule_keeps_wf a bs (countCorrected s) h
    · exact h

/-- What a write brings about leaves memory and its marks alone, and clears no memory error. -/
theorem written_memory (a : Access) (s : State) :
    (written a s).xm = s.xm ∧ (written a s).ecc = s.ecc ∧ (written a s).corrected = s.corrected ∧
      (attentionHas .memoryError s = true → attentionHas .memoryError (written a s) = true) := by
  unfold written
  split <;> try exact ⟨rfl, rfl, rfl, id⟩
  · simp only [watchWrite]; split
    · exact ⟨rfl, rfl, rfl, id⟩
    · refine ⟨rfl, rfl, rfl, ?_⟩
      intro h
      simp [attentionHas, raise] at h ⊢
      exact .inl h
  · obtain ⟨r, q, h⟩ := sealSnapshot_shape s
    rw [h]; exact ⟨rfl, rfl, rfl, id⟩

/-- What a read brings its claimant leaves memory alone. -/
theorem deliver_xm (a : Access) (bs : List Byte) (s : State) : (deliver a bs s).xm = s.xm := by
  unfold deliver; split <;> first | rfl | (unfold hostReturn; split <;> rfl)

theorem deliverError_xm (a : Access) (s : State) : (deliverError a s).xm = s.xm := by
  unfold deliverError; split <;> first | rfl | (unfold hostReturn; split <;> rfl)

theorem readGranule_xm (a : Access) (s : State) : (readGranule a s).2.xm = s.xm := by
  simp only [readGranule]; split <;> rfl

/-- One granule access keeps the canonical form. -/
theorem perform_keeps_wf (a : Access) (s : State) (h : Memory.wf s.xm = true) : Memory.wf (perform a s).xm = true := by
  have e := readGranule_xm a s
  unfold perform
  split
  · split
    · next q => rw [q] at e; rw [deliver_xm, e]; exact h
    · next q => rw [q] at e; rw [deliverError_xm, e]; exact h
  · rw [(written_memory ..).1]; exact writeGranule_keeps_wf _ _ s h

/-! ### The granule pieces of an access (R172) -/

/-- Consecutive runs of numbers make one run. -/
theorem range'_flat (b : Nat → Nat) (h : ∀ k, b k ≤ b (k+1)) (n : Nat) :
    (List.range n).flatMap (fun k => List.range' (b k) (b (k+1) - b k)) = List.range' (b 0) (b n - b 0) := by
  induction n with
  | zero => simp
  | succ n ih =>
    have mono : b 0 ≤ b n := by
      clear ih; induction n with
      | zero => exact le_rfl
      | succ n ih2 => exact le_trans ih2 (h n)
    rw [List.range_succ, List.flatMap_append, ih]
    have := h n
    simp only [List.flatMap_cons, List.flatMap_nil, List.append_nil]
    have e : b n = b 0 + (b n - b 0) := by omega
    conv_lhs => rw [show List.range' (b n) (b (n+1) - b n) = List.range' (b 0 + (b n - b 0)) (b (n+1) - b n) by rw [← e]]
    rw [List.range'_append_1]
    congr 1; omega

/-- Where piece k of an access begins. -/
def cutAt (a len k : Nat) : Nat := if k = 0 then a else min (a + len) (32 * (a / 32 + k))

theorem pieces_eq (a len : Nat) (h : 0 < len) : pieces a len =
   (List.range ((a + len - 1) / 32 - a / 32 + 1)).map fun k => (a / 32 + k, cutAt a len k - 32 * (a/32 + k), cutAt a len (k+1) - cutAt a len k) := by
  unfold pieces; rw [if_neg (by omega)]
  refine List.map_congr_left fun k hk => ?_
  have hk : k < (a + len - 1) / 32 - a / 32 + 1 := List.mem_range.mp hk
  have h0 : a / 32 * 32 ≤ a := Nat.div_mul_le_self a 32
  have h1 : a < a / 32 * 32 + 32 := by omega
  have : 32 * (a/32 + k) < a + len := by omega
  simp only [cutAt]
  by_cases z : k = 0
  · subst z; simp; try (constructor <;> omega)
  · simp [z]
    have : a ≤ 32 * (a/32+k) := by omega
    refine ⟨?_, ?_⟩ <;> omega

theorem cut_mono (a len k : Nat) : cutAt a len k ≤ cutAt a len (k+1) := by
  unfold cutAt; by_cases z : k = 0
  · subst z; simp; omega
  · simp [z]

/-- The pieces of an access cover its bytes once, in ascending order. -/
theorem pieces_offsets (a len : Nat) :
    (pieces a len).flatMap (fun x => List.range' (32 * x.1 + x.2.1) x.2.2) = List.range' a len := by
  by_cases h : len = 0
  · subst h; simp [pieces]
  · have h : 0 < len := by omega
    rw [pieces_eq a len h, List.flatMap_map]
    have e := range'_flat (cutAt a len) (cut_mono a len) ((a + len - 1) / 32 - a / 32 + 1)
    have c0 : cutAt a len 0 = a := by simp [cutAt]
    have cn : cutAt a len ((a + len - 1) / 32 - a / 32 + 1) = a + len := by
      simp [cutAt]; omega
    rw [c0, cn, Nat.add_sub_cancel_left] at e
    rw [← e]
    refine List.flatMap_congr ?_ 
    intro k hk
    have hk : k < (a + len - 1) / 32 - a / 32 + 1 := List.mem_range.mp hk
    have : 32 * (a/32+k) ≤ cutAt a len k := by
      unfold cutAt; by_cases z : k = 0
      · subst z; simp; omega
      · simp [z]; omega
    show List.range' (32 * (a / 32 + k) + (cutAt a len k - 32 * (a / 32 + k))) (cutAt a len (k+1) - cutAt a len k) = _
    congr 1; omega

/-- Each piece lies within its granule and within the access. -/
theorem pieces_mem (a len : Nat) (x : Nat × Nat × Nat) (h : x ∈ pieces a len) :
    0 < x.2.2 ∧ x.2.1 + x.2.2 ≤ 32 ∧ a ≤ 32 * x.1 + x.2.1 ∧ 32 * x.1 + x.2.1 + x.2.2 ≤ a + len := by
  unfold pieces at h; split at h
  · simp at h
  · simp only [List.mem_map, List.mem_range] at h
    obtain ⟨k, hk, rfl⟩ := h
    have h0 : a / 32 * 32 ≤ a := Nat.div_mul_le_self a 32
    have h1 : a < a / 32 * 32 + 32 := by omega
    refine ⟨?_, ?_, ?_, ?_⟩ <;> simp only <;> omega

/-- The data of the pieces of an access, joined, are the data of the access. -/
theorem take_drop_flat (bs : List Byte) (a : Nat) : ∀ (ps : List (Nat × Nat × Nat)) (k : Nat),
   ps.flatMap (fun x => List.range' (32 * x.1 + x.2.1) x.2.2) = List.range' (a + k) (bs.length - k) → k ≤ bs.length →
   (∀ x ∈ ps, 0 < x.2.2) →
   (ps.map fun x => (bs.drop (32 * x.1 + x.2.1 - a)).take x.2.2).flatten = bs.drop k
  | [], k, h, hk, _ => by
    simp at h
    simp; omega
  | x :: ps, k, h, hk, pos => by
    have p := pos x (by simp)
    simp only [List.flatMap_cons] at h
    have hl := congrArg List.length h
    simp at hl
    obtain ⟨n, e⟩ : ∃ n, x.2.2 = n + 1 := ⟨x.2.2 - 1, by omega⟩
    have e1 : 32 * x.1 + x.2.1 = a + k := by
      have : bs.length - k = (bs.length - k - 1) + 1 := by omega
      rw [e, this, List.range'_succ, List.range'_succ, List.cons_append] at h
      exact (List.cons.inj h).1
    have h2 : ps.flatMap (fun x => List.range' (32 * x.1 + x.2.1) x.2.2) = List.range' (a + (k + x.2.2)) (bs.length - (k + x.2.2)) := by
      have : List.range' (a + k) (bs.length - k) = List.range' (a+k) x.2.2 ++ List.range' (a + (k + x.2.2)) (bs.length - (k + x.2.2)) := by
        rw [← Nat.add_assoc, List.range'_append_1]; congr 1; omega
      rw [e1, this] at h
      exact List.append_cancel_left h
    have ih := take_drop_flat bs a ps (k + x.2.2) h2 (by omega) (fun y hy => pos y (by simp [hy]))
    simp only [List.map_cons, List.flatten_cons, ih, e1, Nat.add_sub_cancel_left]
    rw [← List.drop_drop, List.take_append_drop]

/-! ### The arbiter (R174) -/

/-- The rotation picks the claimant of `GrantsTo`. -/
theorem rotation_of {s : State} {c : Claimant} {a : Access} {rest : List Access} (h : GrantsTo s c a rest) : s.arb.rotation = some c := by
  obtain ⟨n, hn, hc, hm⟩ := h.first
  have hw := h.waiting
  unfold Arbiter.rotation
  have : n = 0 ∨ n = 1 ∨ n = 2 ∨ n = 3 := by omega
  rcases this with rfl | rfl | rfl | rfl
  · simp only [turnAfter] at hc; subst hc; simp [hw]
  · have h0 := hm 0 (by omega); simp only [turnAfter] at hc h0; subst hc; simp [hw, h0]
  · have h0 := hm 0 (by omega); have h1 := hm 1 (by omega); simp only [turnAfter] at hc h0 h1; subst hc; simp [hw, h0, h1]
  · have h0 := hm 0 (by omega); have h1 := hm 1 (by omega); have h2 := hm 2 (by omega); simp only [turnAfter] at hc h0 h1 h2; subst hc; simp [hw, h0, h1, h2]

/-- With no taint report on its way there is nothing to take. -/
theorem takeTaints_nil {s : State} (h : s.wires.taints = []) : takeTaints s = s := by
  obtain ⟨a1, a2, a3, a4, a5, a6, a7, a8, a9, a10, a11, a12, a13, a14, a15, a16, a17, a18, w, q⟩ := s
  obtain ⟨b1, b2, b3, b4, b5, b6, b7, b8, b9, b10, b11, b12, b13, b14, b15, b16, b17, b18, b19, b20, b21, b22, b23, b24, b25, b26⟩ := w
  simp only at h; subst h; rfl

/-- A rotation grant performs the access, and the pointer moves past the claimant. -/
theorem grant_of (met : CellError) {s : State} {c : Claimant} {a : Access} {rest : List Access} (h : GrantsTo s c a rest) :
    exec (.granuleGrant met) s = .next (settle s (perform a (meetError met a.granule { s with arb := { (s.arb.setWaiting c rest) with pointer := c.next, tileRun := 0 } }))) := by
  have r := rotation_of h
  have g : grantRotation met s = perform a (meetError met a.granule { s with arb := { (s.arb.setWaiting c rest) with pointer := c.next, tileRun := 0 } }) := by
    unfold grantRotation; rw [r]; simp only; rw [h.waiting]
  have : grant met s = grantRotation met s := by
    unfold grant
    rcases h.tile with t | t
    · rw [t]
    · split
      · rfl
      · rw [if_neg (by simp [r]), if_neg (by omega)]
  simp [exec, execGranuleGrant, takeTaints_nil h.taints, this, g, finish]

/-- The reports of a step only add to the Report Unit's waiting accesses. -/
theorem settle_rpuQueue (b s : State) : s.arb.rpu <+: (settle b s).arb.rpu := by
  unfold settle
  have h1 : ∀ u v : State, (sendMsi u v).arb = v.arb := by intro u v; unfold sendMsi; split <;> rfl
  have h2 : ∀ u v : State, (oweStatus u v).arb = v.arb := by intro u v; unfold oweStatus; split <;> rfl
  have h3 : ∀ u v : State, (oweStreams u v).arb = v.arb := by intro u v; unfold oweStreams; split <;> rfl
  have h4 : ∀ u : State, u.arb.rpu <+: (kickWriter u).arb.rpu := by
    intro u; unfold kickWriter
    split
    · split
      · exact List.prefix_append _ _
      · split
        · exact List.prefix_append _ _
        · split
          · exact List.prefix_append _ _
          · exact List.prefix_rfl
    · exact List.prefix_rfl
  have := h4 (oweStreams b (oweStatus b (sendMsi b s)))
  rwa [h3, h2, h1] at this

theorem meetError_arb (m g) (s : State) : (meetError m g s).arb = s.arb := by unfold meetError; split <;> rfl
theorem meetError_wires (m g) (s : State) : (meetError m g s).wires = s.wires := by unfold meetError; split <;> rfl

/-- An access leaves the queues alone, but for DU reads withdrawn at an error and the writes of a record behind its snapshot entry's seal. -/
theorem perform_queue (a : Access) (s : State) : (perform a s).wires.tileReturns = s.wires.tileReturns ∧ (perform a s).arb.tileRun = s.arb.tileRun ∧ (perform a s).arb.pointer = s.arb.pointer ∧
   (perform a s).arb.sau = s.arb.sau ∧ (perform a s).arb.host = s.arb.host ∧ s.arb.rpu <+: (perform a s).arb.rpu ∧ (perform a s).arb.du.Sublist s.arb.du := by
  have hr : ∀ c m, (raise c m).arb = m.arb ∧ (raise c m).wires = m.wires := fun _ _ => ⟨rfl, rfl⟩
  unfold perform
  split
  · have k1 : (readGranule a s).2.arb = s.arb ∧ (readGranule a s).2.wires = s.wires := by
      simp only [readGranule]; split <;> exact ⟨rfl, rfl⟩
    split
    · rename_i e; rw [e] at k1; obtain ⟨k1, k2⟩ := k1; simp only at k1 k2; rw [← k1, ← k2]
      unfold deliver; split <;> try exact ⟨rfl, rfl, rfl, rfl, rfl, List.prefix_rfl, List.Sublist.refl _⟩
      unfold hostReturn; split <;> exact ⟨rfl, rfl, rfl, rfl, rfl, List.prefix_rfl, List.Sublist.refl _⟩
    · rename_i e; rw [e] at k1; obtain ⟨k1, k2⟩ := k1; simp only at k1 k2; rw [← k1, ← k2]
      unfold deliverError; split <;> try exact ⟨rfl, rfl, rfl, rfl, rfl, List.prefix_rfl, List.Sublist.refl _⟩
      · exact ⟨rfl, rfl, rfl, rfl, rfl, List.prefix_rfl, List.filter_sublist⟩
      · exact ⟨rfl, rfl, rfl, rfl, rfl, List.prefix_rfl, List.filter_sublist⟩
      · exact ⟨rfl, rfl, rfl, rfl, rfl, List.prefix_rfl, List.filter_sublist⟩
      · unfold hostReturn; split <;> exact ⟨rfl, rfl, rfl, rfl, rfl, List.prefix_rfl, List.Sublist.refl _⟩
  · rename_i bs _
    have k1 : (writeGranule a bs s).arb = s.arb ∧ (writeGranule a bs s).wires = s.wires := by
      unfold writeGranule; split
      · exact ⟨rfl, rfl⟩
      · split <;> exact ⟨rfl, rfl⟩
    obtain ⟨k1, k2⟩ := k1; rw [← k1, ← k2]
    unfold written; split <;> try exact ⟨rfl, rfl, rfl, rfl, rfl, List.prefix_rfl, List.Sublist.refl _⟩
    · simp only [watchWrite]; split <;> exact ⟨rfl, rfl, rfl, rfl, rfl, List.prefix_rfl, List.Sublist.refl _⟩
    · obtain ⟨r, q, h⟩ := sealSnapshot_shape (writeGranule a bs s)
      rw [h]; exact ⟨rfl, rfl, rfl, rfl, rfl, List.prefix_append _ _, List.Sublist.refl _⟩

/-- The rotation picks none exactly when no claimant waits. -/
theorem rotation_none (s : State) : s.arb.rotation = none ↔ ¬ anyWaits s := by
  unfold Arbiter.rotation anyWaits
  simp only [List.find?_eq_none, List.mem_cons, List.not_mem_nil, or_false]
  constructor
  · rintro h ⟨c, hc⟩
    have : ∀ d, s.arb.waiting d = [] := by
      intro d
      have h := h d (by cases s.arb.pointer <;> cases d <;> simp [Claimant.next])
      simpa using h
    exact hc (this c)
  · intro h c _
    by_contra k
    exact h ⟨c, by simpa using k⟩

/-! ### Cell errors (R173) -/

/-- The mark of a granule after a cell error is met. -/
theorem meetError_find (met : CellError) (g : Nat) (s : State) (x : Nat) :
    Store.find? (meetError met g s).ecc x = if x = g then worse (Store.find? s.ecc g) met else Store.find? s.ecc x := by
  unfold meetError
  cases e : worse (Store.find? s.ecc g) met with
  | none =>
    simp only
    split
    · rename_i h; subst h
      cases met <;> cases k : Store.find? s.ecc x with
      | none => simp [worse, k] at e ⊢
      | some m => cases m <;> simp [worse, k] at e ⊢
    · rfl
  | some m => simp only [Store.find?_insert]

/-- When the mark after a cell error is uncorrectable, corrected, absent. -/
theorem worse_bad (o : Option EccMark) (met : CellError) : worse o met = some .uncorrectable ↔ met = .uncorrectable ∨ o = some .uncorrectable := by
  cases met <;> cases o with
  | none => simp [worse]
  | some m => cases m <;> simp [worse]

theorem worse_corr (o : Option EccMark) (met : CellError) : worse o met = some .corrected ↔ ¬ (met = .uncorrectable ∨ o = some .uncorrectable) ∧ (met = .correctable ∨ o = some .corrected) := by
  cases met <;> cases o with
  | none => simp [worse]
  | some m => cases m <;> simp [worse]

theorem worse_none (o : Option EccMark) (met : CellError) : worse o met = none ↔ met = .none ∧ o = none := by
  cases met <;> cases o with
  | none => simp [worse]
  | some m => cases m <;> simp [worse]

theorem meetError_other (m : CellError) (g : Nat) (s : State) : meetError m g s = { s with ecc := (meetError m g s).ecc } := by
  unfold meetError; split <;> rfl

/-! ### Stores -/

/-- An entry of a store whose values are mapped. -/
theorem Store.find?_map {α : Type} (f : α → α) (m : Store α) (k : Nat) : Store.find? (m.map fun d => (d.1, f d.2)) k = (Store.find? m k).map f := by
  induction m with
  | nil => rfl
  | cons x m ih => simp only [List.map_cons, Store.find?]; split <;> simp_all

/-- An entry that is found is listed. -/
theorem Store.find?_mem {α : Type} {m : Store α} {k : Nat} {v : α} (h : Store.find? m k = some v) : (k, v) ∈ m := by
  induction m with
  | nil => simp [Store.find?] at h
  | cons x m ih =>
    obtain ⟨a, b⟩ := x
    simp only [Store.find?] at h
    split at h
    · rename_i e; subst e; cases h; simp
    · exact List.mem_cons_of_mem _ (ih h)

end Sys2Proof.Machine
end

