-- ==== Sys2Proof/Laws/Writer.lean ====
section
/-!
SUPPORT. What the Report Unit does within a step (10.2, 10.3): when the two rewrites are owed, and which item an idle writer takes.
-/
namespace Sys2Proof.Machine

/-! ### What makes a rewrite owed -/

theorem nextCount_eq (c : BitVec 32) : nextCount c = risen c := rfl

/-- A count moves when it rises. -/
theorem ne_risen (c : BitVec 32) : c ≠ risen c := by
  unfold risen
  split
  · rename_i h; intro k; rw [k] at h; revert h; decide
  · intro k
    have h := congrArg (fun x => x - c) k
    simp [BitVec.add_comm c 1#32] at h

/-- The fields of the block beside its serial, which is no change that a block reports (10.3). -/
def reportedStatus (s : State) : StatusView := { statusView s with serial := 0 }

theorem statusSame_iff (s t : State) : StatusSame s t ↔ reportedStatus t = reportedStatus s := by
  unfold reportedStatus statusView
  simp only [StatusView.mk.injEq, retainedNumber_eq]
  constructor
  · rintro ⟨⟨a1, a2⟩, ⟨b1, b2⟩, ⟨c1, c2, c3⟩, d, ⟨e1, e2⟩, ⟨f1, f2⟩, g, ⟨h1, h2⟩, ⟨i1, i2, i3, i4, i5⟩, ⟨j1, j2⟩,
      ⟨k1, k2⟩, l⟩
    refine ⟨a1, a2, b1, c1, c2, c3, d, e1, k1, f1, f2, g, h1, h2, ?_, j1, j2, e2, trivial, k2, ?_⟩
    · rw [i1, i2, i3, i4, i5, b2]
    · apply List.ext_getElem?
      intro n
      simp only [List.getElem?_map, Vector.getElem?_toList]
      by_cases hn : n < 4
      · have h := l ⟨n, hn⟩
        simp only [Fin.getElem_fin] at h
        simp [hn, h]
      · simp [hn]
  · rintro ⟨a1, a2, b1, c1, c2, c3, d, e1, k1, f1, f2, g, h1, h2, i, j1, j2, e2, _, k2, l⟩
    simp at i
    refine ⟨⟨a1, a2⟩, ⟨b1, i.2.2.2.2.2⟩, ⟨c1, c2, c3⟩, d, ⟨e1, e2⟩, ⟨f1, f2⟩, g, ⟨h1, h2⟩,
      ⟨i.1, i.2.1, i.2.2.1, i.2.2.2.1, i.2.2.2.2.1⟩, ⟨j1, j2⟩, ⟨k1, k2⟩, fun n => ?_⟩
    have h := congrArg (fun x : List (LinkCounts × Nat) => x[n.val]?) l
    simpa using h

theorem streamReportSame_iff (s t : State) : StreamReportSame s t ↔ reportedStates t = reportedStates s := by
  unfold reportedStates
  rw [Prod.mk.injEq]
  constructor
  · rintro ⟨a, b⟩
    constructor
    · apply List.ext_getElem?; intro n
      by_cases hn : n < 16
      · have h := a ⟨n, hn⟩; simp only [Fin.getElem_fin] at h; simp [hn, h]
      · simp [hn]
    · apply List.ext_getElem?; intro n
      by_cases hn : n < 8
      · have h := b ⟨n, hn⟩; simp only [Fin.getElem_fin] at h; simp [hn, h]
      · simp [hn]
  · intro h
    constructor
    · intro n; have e := congrArg (fun x : List StreamState => x[n.val]?) h.1; simpa using e
    · intro n; have e := congrArg (fun x : List LinkState => x[n.val]?) h.2; simpa using e

theorem oweStatus_eq (b e : State) : oweStatus b e = { e with rpu := { e.rpu with
    statusOwed := e.rpu.statusOwed || (e.run.anchor.isSome && decide (statusView b ≠ statusView e)) } } := by
  unfold oweStatus
  cases e.run.anchor.isSome && decide (statusView b ≠ statusView e) <;> simp

theorem oweStreams_eq (b e : State) : oweStreams b e = { e with rpu := { e.rpu with
    streamOwed := e.rpu.streamOwed || (e.run.anchor.isSome && decide (reportedStates b ≠ reportedStates e)) } } := by
  unfold oweStreams
  cases e.run.anchor.isSome && decide (reportedStates b ≠ reportedStates e) <;> simp

/-- A step with a given effect: the rewrites it owes, and the writer's next item behind them. -/
theorem settle_eq (b e : State) : ∃ page status stream,
    settle b e = kickWriter { e with page := page, rpu := { e.rpu with statusOwed := status, streamOwed := stream } }
      ∧ status = (e.rpu.statusOwed || (e.run.anchor.isSome && decide (statusView b ≠ statusView e)))
      ∧ stream = (e.rpu.streamOwed || (e.run.anchor.isSome && decide (reportedStates b ≠ reportedStates e))) := by
  unfold settle
  rw [sendMsi_shape, oweStatus_eq, oweStreams_eq]
  exact ⟨_, _, _, rfl, rfl, rfl⟩

/-- The writer's order of choice (R163): nothing while an item is in hand; else the oldest telemetry set, a Stream Report, a Part Status
Block, or nothing. -/
theorem kickWriter_cases (u : State) (a : Anchor) (h : u.run.anchor = some a) :
    (u.rpu.writer ≠ .idle ∧ kickWriter u = u)
      ∨ (u.rpu.writer = .idle ∧ ∃ x xs, u.rpu.holding = x :: xs ∧ kickWriter u = takeTelemetry a x u)
      ∨ (u.rpu.writer = .idle ∧ u.rpu.holding = [] ∧ u.rpu.streamOwed = true ∧ kickWriter u = takeStreamReport a u)
      ∨ (u.rpu.writer = .idle ∧ u.rpu.holding = [] ∧ u.rpu.streamOwed = false ∧ u.rpu.statusOwed = true
        ∧ kickWriter u = takeStatus a u)
      ∨ (u.rpu.writer = .idle ∧ u.rpu.holding = [] ∧ u.rpu.streamOwed = false ∧ u.rpu.statusOwed = false
        ∧ kickWriter u = u) := by
  unfold kickWriter
  rw [h]
  by_cases w : u.rpu.writer = .idle
  · rw [w]; dsimp only
    cases hh : u.rpu.holding with
    | cons x xs => exact .inr (.inl ⟨rfl, x, xs, rfl, rfl⟩)
    | nil =>
      cases hs : u.rpu.streamOwed <;> cases ht : u.rpu.statusOwed <;> simp
  · refine .inl ⟨w, ?_⟩
    split
    · rename_i q; exact absurd q w
    · rfl

/-- A Stream Report that the writer takes holds the fields of the state (R169). -/
theorem takeStreamReport_taken (a : Anchor) (u : State) : StreamReportTaken a u (takeStreamReport a u) :=
  ⟨⟨rfl, rfl⟩, rfl, streamReportBody u, streamReportFields (takeStreamReport a u), by
    show u.arb.rpu ++ _ = _
    simp only [List.append_assoc]; rfl⟩

/-- A Part Status Block that the writer takes holds the fields of the state (R164). -/
theorem takeStatus_taken (a : Anchor) (u : State) : StatusTaken a u (takeStatus a u) :=
  ⟨⟨rfl, rfl⟩, rfl, fun le => ⟨statusBody (statusView u) u.time, statusFields (takeStatus a u) le, by
    show u.arb.rpu ++ _ = _
    simp only [List.append_assoc]; rfl⟩⟩

/-- A record whose writes are placed holds the fields of its set (R166). -/
theorem recordWrites_placed (a : Anchor) (x : TelemetrySet) (n : Option Nat) (u : State) :
    RecordPlaced a x n u.arb.rpu (placeRpu (recordWrites a u.rpu.serial x n) u) :=
  ⟨telemetryBody x n, telemetryFields x n, by
    show u.arb.rpu ++ _ = _
    simp only [recordWrites, List.append_assoc]; rfl⟩

/-- A snapshot entry whose writes are placed holds the fields of its set (R167). -/
theorem snapshotWrites_placed (a : Anchor) (x : TelemetrySet) (n : Nat) (u : State) :
    SnapshotPlaced a x n u.arb.rpu (placeRpu (snapshotWrites a n u.rpu.serial x) u) :=
  ⟨snapshotHead x, snapshotFields x, by
    show u.arb.rpu ++ _ = _
    simp only [snapshotWrites, List.append_assoc, List.flatMap]; rfl⟩

theorem snapshotDue_iff (r : Rpu) : SnapshotDue r ↔ (r.decimation != 0
    && (if r.decimation = 0 then 0 else r.decimationCounter + 1) == r.decimation.toNat) = true := by
  unfold SnapshotDue
  by_cases h : r.decimation = 0
  · simp [h]
  · rw [if_neg h]; simp

/-- What the writer does when it takes a telemetry set (R166, R167). -/
theorem takeTelemetry_taken (a : Anchor) (x : TelemetrySet) (u : State) : TelemetryTaken a x u (takeTelemetry a x u) := by
  constructor
  · rfl
  · rfl
  · intro h
    rw [snapshotDue_iff] at h
    have e := Bool.eq_false_iff.2 h
    unfold takeTelemetry
    simp only [e, Bool.false_eq_true, if_false]
    exact ⟨rfl, rfl, recordWrites_placed a x none { u with rpu := { u.rpu with
      serial := nextCount u.rpu.serial, writer := .telemetry
      decimationCounter := if u.rpu.decimation = 0 then 0 else u.rpu.decimationCounter + 1 } }⟩
  · intro h
    rw [snapshotDue_iff] at h
    unfold takeTelemetry
    simp only [h, if_true]
    exact ⟨rfl, rfl, snapshotWrites_placed a x u.rpu.nextSnapshot { u with rpu := { u.rpu with
      serial := nextCount u.rpu.serial, decimationCounter := 0, writer := .snapshot } }⟩

/-- What the seal of a snapshot entry brings about (R167): nothing where no entry is in hand. -/
theorem sealSnapshot_sealed (a : Anchor) (x : TelemetrySet) (xs : List TelemetrySet) (u : State) (h : u.run.anchor = some a)
    (w : u.rpu.writer = .snapshot) (e : u.rpu.holding = x :: xs) : SnapshotSealed a x u.arb.rpu u (sealSnapshot u) := by
  unfold sealSnapshot
  simp only [h, w, e]
  exact ⟨rfl, rfl, ⟨rfl, e.symm, rfl⟩, recordWrites_placed a x (some u.rpu.nextSnapshot) { u with rpu := { u.rpu with
    nextSnapshot := nextSnapshotAfter a u.rpu.nextSnapshot, writer := .telemetry } }⟩

end Sys2Proof.Machine
end

