-- ==== Sys2Proof/Tests/Slice0.lean ====
section
/-!
SUPPORT. Small checks of the model, and for every statement with hypotheses a state and operands that meet them: for each clause, at
a boundary of its range where it has one. A theorem `test_<command>` looks at one step; `test_meets_<statement>` shows hypotheses met.
-/
namespace Sys2Proof.Tests
open Sys2Proof Sys2Proof.Machine

set_option Elab.async false

/-! ### Small states -/

/-- The state after a command that goes on, else the state before it. -/
def after (c : Instr) (s : State) : State :=
  match exec c s with
  | .next t => t
  | _ => s

/-- The command goes on. -/
def goes (c : Instr) (s : State) : Bool :=
  match exec c s with
  | .next _ => true
  | _ => false

/-- The command leaves the state as it is. -/
def stays (c : Instr) (s : State) : Bool := goes c s && decide (after c s = s)

/-- The command stops outside the window. -/
def outside (c : Instr) (s : State) : Bool :=
  match exec c s with
  | .fault .outsideWindow => true
  | _ => false

/-- A valid anchor: a strip of 16 slots at 4096, and the areas after it. -/
def anchor : Anchor where
  stripOffset := 4096
  slots := 16
  firstTicket := 5
  interval := 10
  telemetryOffset := 8192
  telemetryCount := 16
  snapshotOffset := 16384
  snapshotCount := 2
  streamReport := 147456
  statusBlock := 151552
  asideOffset := 155648
  asideCount := 8

/-- Initialisation is over. -/
def halted : State := { State.reset with run := {} }

/-- An edition of one tile, 256 slopes and 16 actuators. -/
def edition : Edition where
  number := 7
  slopeCount := 256
  actuatorCount := 16
  directory := [(0, { address := 1048576, exponent := 0, taint := false })]
  reference := List.replicate 256 0
  groupMap := List.replicate 16 0
  links := { map := .replicate 4 { first := 0, count := 1 }, timeout := 100, missLimit := 2 }
  guards := { saturationLimit := 0, saturationFrames := 1, voidFrames := 1 }

/-- A stream 0 on link 0. -/
def stream0 (st : StreamState) : Stream where
  enabled := true
  config := { tag := 1, link := 0, base := 0, count := 1, segments := 1, cutTimeout := 1 }
  state := st

/-- READY, with a CURRENT slot, a pace configuration, and stream 0 the enabled pace stream. -/
def ready : State :=
  { halted with
    run := { state := .ready, anchor := some anchor }
    sau := { streams := tweak (.replicate 16 {}) 0 fun _ => stream0 .standby }
    fck := { period := 100, margin := 10, deadline := 50, configured := true }
    rce := { slotA := .current edition }
    watch := watchMap (.current edition) .empty
    du := { expected := some 6, takenThrough := some 5, settledThrough := some 4, unsettled := [5] } }

/-- RUNNING with a LIVE output. -/
def running : State :=
  { ready with
    run := { state := .running, anchor := some anchor }
    cou := { ready.cou with output := .live, level := .released, input := .released, settings := some edition.links }
    sau := { streams := tweak (.replicate 16 {}) 0 fun _ => { stream0 .locked with timer := some 0 } } }

/-- A directive in hand. -/
def hand (kind length : Nat) (params : List Byte) (phase : HandPhase := .taken) : Hand :=
  { ticket := 5, kind := kind, length := length, params := params ++ zeros (108 - params.length), phase := phase }

/-- A part with a directive in hand. -/
def holding (h : Hand) (s : State) : State := { s with du := { s.du with activity := .executing, hand := some h } }

/-- A part with a read that has returned. -/
def returned (p : Purpose) (bytes : List Byte) (s : State) : State :=
  { s with du := { s.du with job := some { purpose := p, left := 0, bytes := bytes, failed := none } } }

/-! ### Commands that are not well-formed (WellFormed) -/

theorem test_illformed_unknownCommand : (Instr.unknownCommand 4).wellFormed = false := by decide +kernel
theorem test_illformed_registerWriteOther : (Instr.registerWriteOther 8 [1, 0, 0, 0]).wellFormed = false := by decide +kernel
theorem test_illformed_registerWriteOther_page : (Instr.registerWriteOther 4094 [1, 0, 0]).wellFormed = false := by decide +kernel
theorem test_illformed_hostXmRead : (Instr.hostXmRead 2147483647 2).wellFormed = false := by decide +kernel
theorem test_illformed_hostXmWrite : (Instr.hostXmWrite 0 []).wellFormed = false := by decide +kernel
theorem test_illformed_lockedExitReport : (Instr.lockedExitReport [0, 1, 2, 2]).wellFormed = false := by decide +kernel
theorem test_illformed_frameCompletion : (Instr.frameCompletion [3, 3]).wellFormed = false := by decide +kernel
theorem test_outside_read : outside (.hostXmRead 2147483647 2) halted = true := by decide +kernel
theorem test_outside_write : outside (.hostXmWrite 0 []) halted = true := by decide +kernel

/-! ### Words, check codes, rounding -/

theorem test_crc32 : crc32 [0x31, 0x32, 0x33, 0x34, 0x35, 0x36, 0x37, 0x38, 0x39] = 0xCBF43926 := by decide +kernel
theorem test_fields : leNat [0x34, 0x12] = 0x1234 ∧ leBytes 2 0x1234 = [0x34, 0x12] := by decide +kernel
theorem test_no_word_spells_a_command : decodeTableWord 8 0 = none := rfl

/-! ### The queue, resets, the register page -/

theorem test_step_front : ({ halted with pending := [.loadAnchor, .stop] } : State).pending = .loadAnchor :: [.stop] := rfl
theorem test_step_empty : halted.pending = [] := rfl
theorem test_meets_EveryCommandChangesOnlyItsParts : (Instr.hostXmRead 2147483647 1).wellFormed = true := by decide +kernel
theorem test_meets_Resets : halted.run.initialising = false ∧ State.reset.run.initialising = true := by decide +kernel
theorem test_meets_MessageOnClearToSet :
    (Instr.loadAnchor).wellFormed = true ∧ goes .loadAnchor halted = true
      ∧ (after (.signalLoss 0) { halted with
          page := { mask := 2, msiEnabled := true }
          ports := tweak halted.ports 0 fun p => { p with rx := { p.rx with link := .up, signal := true } } }).page.msiSent = 1 := by
  decide +kernel
theorem test_meets_RegisterPageAccesses :
    isOtherWrite 4 [1, 0, 0] = true ∧ isOtherWrite 4092 [0, 0, 0, 0] = true ∧ ((5 : BitVec 32) ≠ 1 ∧ (5 : BitVec 32) ≠ 4) := by
  decide +kernel
/-- A LIVE part that drains, with a guard report over its limit on its way and both conditions for the end of DRAINING. -/
def drainsWithGuard (s : State) : State := { s with
  page := { mask := 0x3FFF, msiEnabled := true }
  run := { s.run with state := .draining }
  wires := { idleToRun := true, guardReports := [{ saturated := 1, void := false, settings := edition.guards }] } }

theorem test_meets_MessageOnClearToSet_twice :
    (after .runControlIdleReport (drainsWithGuard running)).page.msiSent = 2
      ∧ attentionHas .held (after .runControlIdleReport (drainsWithGuard running)) = true
      ∧ (after .runControlIdleReport { drainsWithGuard running with wires := { idleToRun := true } }).page.msiSent = 1 := by
  decide +kernel
theorem test_partReset : (after .partReset running).run = {} ∧ (after .partReset running).sau.streams[0].state = .standby := by decide +kernel
/-- Accesses that wait and a report on its way are gone after a reset; those of the host after a Full Reset alone. -/
theorem test_meets_ResetsAndInitialisation_withdrawn :
    let read : Access := { granule := 1, lo := 0, len := 4, data := none, purpose := .stale }
    let s : State := { running with arb := { du := [read], rpu := [read], sau := [read], host := [read] }, wires := { idleToDu := true } }
    (after .partReset s).arb = { host := [read] } ∧ (after .partReset s).wires = {}
      ∧ (after .hotReset s).arb = {} ∧ (after .hotReset s).wires = {} := by decide +kernel
/-- A receiver that is UP and in a packet hunts again, and the end of initialisation begins the release interval. -/
theorem test_meets_ResetsAndInitialisation_hunts :
    let s : State := { running with
      ports := tweak running.ports 3 fun p => { p with
        rx := { p.rx with link := .up, reception := .inPacket, packet := [1], badSync := 7, goodRun := 9, boundary := 5, signal := true } } }
    let reset : State := { State.reset with cou := { State.reset.cou with input := .released } }
    (after .partReset s).ports[3].rx = { signal := true } ∧ (after .initialisationEnd reset).cou.release = some 100
      ∧ (after .initialisationEnd State.reset).cou = State.reset.cou := by decide +kernel
theorem test_powerOn : (after .powerOn running).run.initialising = true ∧ (after .powerOn running).sau = {} := by decide +kernel
theorem test_initialisationEnd : (after .initialisationEnd State.reset).run.initialising = false := by decide +kernel
theorem test_attentionWrite :
    (after (.attentionWrite 1) { halted with page := { attention := 3 } }).page.attention = 2 := by decide +kernel
theorem test_attentionMaskWrite : (after (.attentionMaskWrite 0xFFFFFFFF) halted).page.mask = 0x3FFF := by decide +kernel
theorem test_unknownCommand : (after (.unknownCommand 5) halted).run.refusal = .unknownCommand := by decide +kernel

/-! ### Exchange Memory -/

/-- A host write of 2 bytes waits. -/
def hostAccess : Access := { granule := 1, lo := 0, len := 2, data := some [1, 2], purpose := .hostWrite }

/-- A host write into the tile of the CURRENT slot waits. -/
def tileAccess : Access := { granule := 32768, lo := 0, len := 32, data := some (List.replicate 32 1), purpose := .hostWrite }

/-- A whole granule read of the host waits. -/
def readAccess : Access := { granule := 1, lo := 0, len := 32, data := none, purpose := .hostRead true }

/-- The only access waiting is the host's. -/
theorem grantsHost (s : State) (a : Access) (t : s.wires.taints = []) (n : nextTileRead s = none) (d : s.arb.du = []) (r : s.arb.rpu = [])
    (u : s.arb.sau = []) (p : s.arb.pointer = .du) (h : s.arb.host = [a]) : GrantsTo s .host a [] where
  taints := t
  tile := .inl n
  waiting := h
  first := ⟨3, by decide, by simp [turnAfter, p, Claimant.next], fun m hm => by
    have : m = 0 ∨ m = 1 ∨ m = 2 := by omega
    rcases this with rfl | rfl | rfl <;> simp [turnAfter, p, Claimant.next, Arbiter.waiting, d, r, u]⟩

def waitingHost (a : Access) (s : State) : State := { s with arb := { host := [a] } }

theorem test_meets_HostWindow :
    inWindow 2147483647 1 = true ∧ inWindow 2147483647 2 = false ∧ inWindow 0 0 = false
      ∧ State.reset.run.initialising = true ∧ halted.run.initialising = false := by decide +kernel
theorem test_meets_GrantsTo : GrantsTo (waitingHost hostAccess ready) .host hostAccess [] :=
  grantsHost _ _ rfl rfl rfl rfl rfl rfl rfl
theorem test_meets_ArbiterGrants_tile :
    let s : State := { running with rce := { running.rce with
      state := .streaming, inUse := some .a
      frame := some { handed := { record := 0, frame := 0, started := 0, closed := 0, cause := .complete, void := false,
                                  voidCounts := .replicate 16 0 }, plan := [0], cursor := 1023 } } }
    nextTileRead s = some (0, 1023) ∧ (descriptorInUse 0 s).isSome = true ∧ s.arb.tileRun < 32
      ∧ (after (.granuleGrant .none) s).wires.tileReturns.length = 1 := by decide +kernel
/-- The engine streams slot A with the tile of key 0 still to read. -/
def streams (cursor : Nat) (plan : List Nat) : State :=
  { running with rce := { running.rce with
      state := .streaming, inUse := some .a
      frame := some { handed := { record := 0, frame := 0, started := 0, closed := 0, cause := .complete, void := false,
                                  voidCounts := .replicate 16 0 }, plan := plan, cursor := cursor } } }

theorem test_meets_ArbiterGrants_cursor :
    let plan := fun c s => ((after (.granuleGrant c) s).rce.frame.map fun f => (f.plan, f.cursor))
    let data := fun c s => (after (.granuleGrant c) s).wires.tileReturns.map fun x => x.data.isSome
    plan .none (streams 0 [0, 1]) = some ([0, 1], 1) ∧ plan .none (streams 1023 [0, 1]) = some ([1], 0)
      ∧ plan .uncorrectable (streams 5 [0, 1]) = some ([], 0) ∧ data .none (streams 0 [0]) = [true]
      ∧ data .uncorrectable (streams 0 [0]) = [false]
      ∧ (after (.granuleGrant .correctable) (streams 0 [0])).corrected = 1 := by decide +kernel
theorem test_meets_ArbiterGrants_none : nextTileRead ready = none ∧ (∀ c, ready.arb.waiting c = []) := by
  refine ⟨by decide, fun c => by cases c <;> decide⟩
theorem test_meets_GrantedWriteStores :
    hostAccess.data = some [1, 2] ∧ hostAccess.lo + hostAccess.len ≤ 32
      ∧ (after (.granuleGrant .none) (waitingHost hostAccess ready)).xm = [(32, 1), (33, 2)] := by decide +kernel
theorem test_meets_GrantedWriteStores_lost :
    (after (.granuleGrant .uncorrectable) (waitingHost hostAccess ready)).xm = []
      ∧ attentionHas .memoryError (after (.granuleGrant .uncorrectable) (waitingHost hostAccess ready)) = true := by decide +kernel
theorem test_meets_GrantedReadReturns : GrantsTo (waitingHost readAccess ready) .host readAccess [] ∧ readAccess.data = none :=
  ⟨grantsHost _ _ rfl rfl rfl rfl rfl rfl rfl, rfl⟩
theorem test_meets_GrantedReadReturns_job :
    (returned .slot [] ready).du.job.map ReadJob.purpose = some .slot := by decide +kernel
/-- The access waits at the Directive Unit, first in the rotation. -/
def waitingDu (a : Access) (s : State) : State := { s with arb := { du := [a] } }

theorem grantsDu (s : State) (a : Access) (t : s.wires.taints = []) (n : nextTileRead s = none) :
    GrantsTo (waitingDu a s) .du a [] where
  taints := t
  tile := .inl n
  waiting := rfl
  first := ⟨0, by decide, rfl, fun m hm => by omega⟩

/-- A write of the whole granule 1, and a read of its first four bytes. -/
def writeOf (p : Purpose) : Access := { granule := 1, lo := 0, len := 32, data := some (zeros 32), purpose := p }
def readOf (p : Purpose) : Access := { granule := 1, lo := 0, len := 4, data := none, purpose := p }

theorem test_meets_GrantedWriteStores_reports :
    GrantsTo (waitingDu (writeOf (.outcome [5])) ready) .du (writeOf (.outcome [5])) []
      ∧ (after (.granuleGrant .none) (waitingDu (writeOf (.outcome [5])) ready)).wires.outcomesWritten = [[5]]
      ∧ (after (.granuleGrant .none) (waitingDu (writeOf (.outcome [])) ready)).wires.outcomesWritten = []
      ∧ (after (.granuleGrant .none) { ready with arb := { sau := [writeOf .asideSeal] } }).wires.asideSealed = true
      ∧ (after (.granuleGrant .none) { ready with arb := { sau := [writeOf .asideBody] } }).wires.asideSealed = false :=
  ⟨grantsDu _ _ rfl rfl, by decide +kernel⟩
theorem test_meets_GrantedReadReturns_aside :
    let on := fun c (s : State) => (after (.granuleGrant c) { s with arb := { sau := [readOf .asideWord] } }).wires.asideWord
    on .none ready = some .clear ∧ on .none { ready with xm := [(35, 1)] } = some .set ∧ on .none { ready with xm := [(36, 1)] } = some .clear
      ∧ on .uncorrectable ready = some .failed := by decide +kernel
theorem test_meets_GrantedReadReturns_copy :
    let s : State := waitingDu (readOf .copy) { ready with pru := { job := some (newJob .copy 32 4) } }
    let job := fun c => (after (.granuleGrant c) s).pru.job.map fun j => (j.left, j.bytes.length, j.failed)
    job .none = some (0, 4, none) ∧ job .uncorrectable = some (0, 0, some 32) := by decide +kernel
/-- A slot read that meets an error runs on, one granule the less; a load read ends there, and its waiting granules leave alone. -/
theorem test_meets_GrantedReadReturns_errors :
    let on := fun p q c =>
      let s : State := { ready with
        du := { ready.du with job := some { purpose := p, left := 4, bytes := [], failed := none } }
        arb := { du := [readOf p, readOf p, readOf q] } }
      let t := after (.granuleGrant c) s
      (t.du.job.map ReadJob.left, t.du.job.bind ReadJob.failed, t.arb.du.map Access.purpose)
    on .slot .copy .uncorrectable = (some 3, some 32, [.slot, .copy])
      ∧ on .load .copy .uncorrectable = (some 0, some 32, [.copy]) ∧ on .load .copy .none = (some 3, none, [.load, .copy]) := by
  decide +kernel
/-- A slot read that STOP left in flight meets an uncorrectable error: no flag rises. -/
theorem test_meets_GrantedReadReturns_stale :
    GrantsTo (waitingDu (readOf .stale) ready) .du (readOf .stale) [] ∧ (readOf .stale).data = none
      ∧ (after (.granuleGrant .uncorrectable) (waitingDu (readOf .stale) ready)).page.attention = 0 :=
  ⟨grantsDu _ _ rfl rfl, rfl, by decide +kernel⟩
theorem test_meets_HostWriteTaints :
    GrantsTo (waitingHost tileAccess ready) .host tileAccess []
      ∧ (Store.find? ready.watch (watchGranule (32 * tileAccess.granule))).isSome = true
      ∧ (Store.find? ready.watch (watchGranule (32 * hostAccess.granule))) = none :=
  ⟨grantsHost _ _ rfl rfl rfl rfl rfl rfl rfl, by decide, by decide⟩
theorem test_liveWrite : attentionHas .liveWrite (after (.granuleGrant .none) (waitingHost tileAccess ready)) = true := by decide +kernel
/-- Both slots hold the tile: both descriptors are tainted and reported, and a slot that is EMPTY stays. -/
theorem test_meets_HostWriteTaints_reports :
    let on := fun b : Slot =>
      (after (.granuleGrant .none) (waitingHost tileAccess { ready with rce := { ready.rce with slotB := b } }))
    let report := fun i => ({ slot := i, key := 0 } : TaintReport)
    let tainted : Edition := { edition with directory := [(0, { address := 1048576, exponent := 0, taint := true })] }
    ((on .empty).wires.taints = [report .a] ∧ (on .empty).rce = { ready.rce with slotA := .current tainted })
      ∧ (on (.retained edition)).wires.taints = [report .a, report .b] ∧ (on (.loading edition)).wires.taints = [report .a]
      ∧ (on (.loading edition)).rce.slotB = .loading edition := by decide +kernel

/-! ### Run control -/

/-- A valid Anchor Record: that of `anchor`. -/
def record : List Byte :=
  leBytes 4 4096 ++ leBytes 2 16 ++ zeros 2 ++ leBytes 4 5 ++ leBytes 2 10 ++ zeros 2
    ++ leBytes 4 8192 ++ leBytes 4 16 ++ leBytes 4 16384 ++ leBytes 2 2 ++ zeros 2
    ++ leBytes 4 147456 ++ leBytes 4 151552 ++ leBytes 4 155648 ++ leBytes 2 8 ++ zeros 210

/-- HALTED with the anchor's read returned. -/
def anchorReturned (bs : List Byte) : State := returned .anchor bs { halted with run := { busy := true } }

theorem test_meets_RunCommandsRefused :
    ready.run.state ≠ .halted ∧ halted.run.state ≠ .ready ∧ ready.run.state ≠ .running ∧ State.reset.run.initialising = true := by
  decide +kernel
theorem test_meets_RunCommandsRefused_notConfigured :
    ready.run.state = .ready ∧ ready.run.initialising = false
      ∧ currentSlot { ready with rce := {} } = none ∧ ({ ready with fck := {} } : State).fck.configured = false
      ∧ ({ ready with sau := {} } : State).sau.streams[ready.fck.stream].enabled = false := by decide +kernel
theorem test_meets_AnchorLoading : halted.run.state = .halted ∧ halted.run.busy = false ∧ halted.run.initialising = false := by decide +kernel
theorem test_meets_AnchorLoading_valid :
    record.length = 256 ∧ validAnchor record = true ∧ parseAnchor record = anchor
      ∧ (after .anchorReadDone (anchorReturned record)).run.state = .ready := by decide +kernel
theorem test_meets_AnchorLoading_invalid :
    validAnchor (record.set 6 1) = false
      ∧ (after .anchorReadDone (anchorReturned (record.set 6 1))).run.refusal = .anchorInvalid := by decide +kernel
theorem test_meets_StartTakesStartValues :
    ready.run.state = .ready ∧ currentSlot ready = some (.a, edition) ∧ ready.fck.configured = true
      ∧ ready.sau.streams[ready.fck.stream].enabled = true ∧ (after .start ready).run.state = .running
      ∧ (after .start ready).cou.output = .held := by decide +kernel
theorem test_meets_StartTakesStartValues_live :
    ({ ready with cou := { ready.cou with level := .released } } : State).cou.level = .released
      ∧ (after .start { ready with cou := { ready.cou with level := .released } }).cou.output = .live := by decide +kernel
theorem test_meets_StopAndDraining :
    running.run.state = .running ∧ running.run.anchor = some anchor ∧ running.wires.ownerEnds = []
      ∧ (after .stop running).run.state = .ready := by decide +kernel
theorem test_meets_StopAndDraining_waits :
    let s : State := { running with run := { running.run with state := .draining }, wires := { idleToRun := true, linksQuiet := true } }
    (after .runControlIdleReport s).run.state = .draining
      ∧ (after .linksQuietReport (after .runControlIdleReport s)).run.state = .ready := by decide +kernel

/-- RUNNING with entries of tickets 2 and 3 pending, and the Probe Unit's report of ticket 2 on its way. -/
def stopping (code : Nat) : State :=
  { running with
    du := { running.du with deferred := [{ ticket := 2, work := .probeCycle }, { ticket := 3, work := .probeCycle }] }
    wires := { ownerEnds := [{ ticket := 2, code := code, detail := 0 }] } }

/-- The tickets of the outcome writes, and their codes. -/
def outcomesPlaced (s : State) : List (Nat × Nat) :=
  s.arb.du.filterMap fun a => match a.purpose with
    | .outcome _ => some (a.granule, field (a.data.getD []) 0 2)
    | _ => none

theorem test_meets_StopAndDraining_ends :
    outcomesPlaced (after .stop (stopping 2)) = [(136, 2), (140, 13)]
      ∧ outcomesPlaced (after .stop (stopping 11)) = [(136, 13), (140, 13)] := by decide +kernel
/-- The last ABANDONED write settles all of their tickets, and a record that is freed is reported. -/
theorem test_meets_StopAndDraining_settles :
    let settles := fun s : State => (after .stop s).arb.du.map Access.purpose
    let opened : State := { stopping 11 with fau := { running.fau with
      records := .ofFn fun r => if r = 2 then { state := .opened } else {} } }
    settles (stopping 2) = [.outcome [2], .outcome [3]] ∧ settles (stopping 11) = [.outcome [], .outcome [2, 3]]
      ∧ (after .stop opened).wires = { recordsFreed := [2] } ∧ (after .stop opened).fau.abandoned = 1 := by decide +kernel

/-! ### Sensor links -/

/-- A port that is UP. -/
def up (l : Fin 8) (x : Reception) (packet : List Byte) (s : State) : State :=
  { s with ports := tweak s.ports l fun p => { p with rx := { p.rx with link := .up, reception := x, packet := packet, signal := true } } }

theorem test_meets_SensorPortAlignment :
    let s : State := { halted with ports := tweak halted.ports 0 fun p => { p with rx := { p.rx with signal := true, goodRun := 63 } } }
    (after (.sensorBlock 0 1 0) s).ports[0].rx.link = .up
      ∧ (after (.sensorBlock 0 0 0) s).ports[0].rx.boundary = 1 ∧ stays (.sensorBlock 0 1 0) State.reset = true := by decide +kernel
theorem test_meets_SensorPortAlignment_down :
    let s : State := up 0 .inPacket [1] halted
    let s' : State := { s with ports := tweak s.ports 0 fun p => { p with rx := { p.rx with badSync := 15 } } }
    (after (.sensorBlock 0 3 0) s').ports[0].rx.link = .down ∧ (after (.sensorBlock 0 3 0) s).ports[0].rx.link = .up
      ∧ (after (.signalLoss 0) s).ports[0].rx.link = .down ∧ (after (.signalPresent 1) s).ports[1].rx.signal = true := by decide +kernel
theorem test_meets_SensorPortReception :
    (after (.sensorBlock 0 2 0x20) (up 0 .between [] halted)).ports[0].rx.reception = .inPacket
      ∧ (after (.sensorBlock 0 1 0) (up 0 .between [] halted)).ports[0].codingErrors = 1
      ∧ (after (.sensorBlock 0 2 0x10) (up 0 .inPacket [1] halted)).ports[0].rx.reception = .between
      ∧ (after (.sensorBlock 0 2 0x30) (up 0 .discarding [] halted)).ports[0].rx.reception = .between
      ∧ (after (.sensorBlock 0 2 0x38) (up 0 .inPacket [1] halted)).ports[0].rx.reception = .discarding := by decide +kernel
theorem test_meets_SensorPortReception_oversize :
    (after (.sensorBlock 0 1 0) (up 0 .inPacket (zeros 2025) halted)).ports[0].oversize = 1
      ∧ (after (.sensorBlock 0 1 0) (up 0 .inPacket (zeros 2024) halted)).ports[0].oversize = 0 := by decide +kernel
theorem test_meets_PacketEndChecks :
    (after (.sensorBlock 0 2 0x30) (up 0 .inPacket (sealed [1, 0, 0]) halted)).wires.arrivals.length = 1
      ∧ (after (.sensorBlock 0 2 0x30) (up 0 .inPacket (sealed [0, 0, 0]) halted)).wires.arrivals = []
      ∧ (after (.sensorBlock 0 2 0x37) (up 0 .inPacket (sealed [1, 0, 0]) halted)).ports[0].crcErrors = 1 := by decide +kernel
/-- A packet of kind 1, tag 2, frame 3, index 4 of 5, first 6 and one slope -1: of the flags bit 0 alone makes it invalid. -/
theorem test_meets_PacketEndChecks_fields :
    let bytes := fun flags : Byte => [2, 0x10, 3, 0, 4, 5, 6, 0, 1, 0, flags, 0, 0xFF, 0xFF, 0, 0, 0, 0]
    let g := fun invalid : Bool => PacketClass.segment
      { tag := 2, frame := 3, index := 4, count := 5, first := 6, invalid := invalid, slopes := [-1] }
    classify (bytes 0xFE) = g false ∧ classify (bytes 0xFF) = g true
      ∧ classify ((bytes 0).set 8 2) = .shapeFault 2 ∧ classify ((bytes 0).set 1 0x20) = .nonSegment := by decide +kernel
theorem test_meets_SentPacketsAreReceived :
    let r : Receiver := { link := .up, reception := .between }
    r.reception ≠ .inPacket ∧ (zeros 7).length = 7 ∧ (r.takeAll (wireBlocks (zeros 7))).2 = [.complete (zeros 7)]
      ∧ (r.takeAll ((wireBlocks (zeros 7)).take 1 ++ [abortTrailer])).2 = [.codingError, .discarded] := by decide +kernel

/-- A slope segment of one slope. -/
def segment (tag : Nat) (index : Nat) : Segment :=
  { tag := tag, frame := 9, index := index, count := 1, first := 0, invalid := false, slopes := [-32768] }

theorem test_meets_PacketsAreReadAsSent : (segment 4095 63).InRange where
  tag := by decide +kernel
  index := by decide +kernel
  count := by decide +kernel
  first := by decide +kernel
  length := by decide +kernel
  slopes := by decide +kernel
theorem test_segmentBytes : classify (segment 4095 63).bytes = .segment (segment 4095 63) := by decide +kernel

/-! ### Streams -/

/-- An arrival on link 0. -/
def arrival (k : PacketClass) : Arrival := { link := 0, time := 3, bytes := [1, 2], kind := k }

/-- An arrival waits at the SAU. -/
def arrived (k : PacketClass) (s : State) : State := { s with wires := { s.wires with arrivals := [arrival k] } }

theorem test_meets_NextArrival (k : PacketClass) (s : State) : NextArrival 0 (arrived k s) (arrival k) [] := by
  simp [NextArrival, takeFirst, arrived, arrival]
theorem test_meets_AsideQueue_foreign : ∀ i, ¬ Matches running (arrival .nonSegment) i := fun _ h => nomatch h.2
theorem test_meets_AsideQueue_join :
    let s : State := { running with sau := { running.sau with asideFlags := .replicate 8 true } }
    s.sau.asideFlags[(arrival .nonSegment).link] = true ∧ s.run.anchor = some anchor
      ∧ (after (.packetAdmission 0) (arrived .nonSegment s)).sau.step = .reading
      ∧ (after (.packetAdmission 0) (arrived .nonSegment running)).ports[0].foreign = 1 := by decide +kernel
theorem test_meets_AsideQueue_words :
    let s : State := { running with
      sau := { running.sau with holding := [{ link := 0, time := 0, bytes := [1] }], step := .reading, nextSlot := 7 } }
    (after .asideWordReadDone { s with wires := { asideWord := some .clear } }).sau.step = .writing
      ∧ (after .asideWordReadDone { s with wires := { asideWord := some .set } }).sau.overruns = 1
      ∧ attentionHas .memoryError (after .asideWordReadDone { s with wires := { asideWord := some .failed } }) = true
      ∧ (after .asideSlotWritten { s with wires := { asideSealed := true } }).sau.nextSlot = 0 := by decide +kernel
/-- Only stream 0 is enabled. -/
theorem only0 : ∀ j : Fin 16, running.sau.streams[j].enabled = true → j = 0 := by decide +kernel
theorem tag0 : running.sau.streams[(0 : Fin 16)].enabled = true ∧ running.sau.streams[(0 : Fin 16)].config.tag = 1 := by decide +kernel
theorem test_meets_SegmentAdmission (seg : Segment) (h : seg.tag = 1) :
    Matches running (arrival (.segment seg)) 0 ∧ ∀ j, Matches running (arrival (.segment seg)) j → j = 0 := by
  refine ⟨⟨tag0.1, ?_⟩, fun j k => only0 j k.1⟩
  rw [tag0.2, show (arrival (.segment seg)).kind.tag? = some seg.tag from rfl, h]
theorem test_meets_SegmentAdmission_states :
    let s := fun st => { running with sau := { running.sau with streams := tweak running.sau.streams 0 fun x => { x with state := st } } }
    (after (.packetAdmission 0) (arrived (.segment (segment 1 0)) running)).wires.handed.length = 1
      ∧ (after (.packetAdmission 0) (arrived (.segment (segment 1 0)) (s .cut))).sau.streams[0].state = .seeking
      ∧ (after (.packetAdmission 0) (arrived (.segment (segment 1 1)) (s .seeking))).sau.streams[0].counter .seekingDiscards = 1
      ∧ (after (.packetAdmission 0) (arrived (.segment (segment 1 0)) ready)).sau.streams[0].counter .idleDiscards = 1 := by decide +kernel
theorem test_meets_SegmentAdmission_wrap :
    let s : State := { running with sau := { running.sau with
      streams := tweak running.sau.streams 0 fun x => { x with
        config := { x.config with link := 1 }, counters := .replicate 11 65535 } } }
    s.sau.streams[0].counter .misrouted = 65535
      ∧ attentionHas .counterWrap (after (.packetAdmission 0) (arrived (.segment (segment 1 0)) s)) = true := by decide +kernel

theorem test_meets_SegmentAdmission_wraps :
    let s := fun st => { running with sau := { running.sau with
      streams := tweak running.sau.streams 0 fun x => { x with state := st, counters := .replicate 11 65535 } } }
    let wraps := fun g (s : State) => attentionHas .counterWrap (after (.packetAdmission 0) (arrived (.segment g) s))
    wraps (segment 1 1) (s .seeking) = true ∧ wraps (segment 1 0) (s .seeking) = false ∧ wraps (segment 1 0) (s .locked) = false
      ∧ wraps (segment 1 0) { s .standby with run := ready.run } = true := by decide +kernel

/-- An outcome waits at the SAU. -/
def outcome (j : Judgement) (s : State) : State :=
  { s with wires := { s.wires with returned := [{ stream := 0, fromLocked := true, stay := 0, judgement := j, frame := 9 }] } }

/-- RUNNING with stream 0 as `f` leaves it. -/
def withStream (f : Stream → Stream) (s : State) : State := { s with sau := { s.sau with streams := tweak s.sau.streams 0 f } }

theorem test_meets_OutcomesAndCuts :
    (after (.segmentOutcome 0) (outcome .placed running)).wires.paceReports = [9]
      ∧ (after (.segmentOutcome 0) (outcome .misinserted running)).sau.streams[0].misinserts = 1
      ∧ (after (.segmentOutcome 0) (outcome .misinserted (withStream (fun x => { x with misinserts := 1 }) running))).wires.misinserts = [0]
      ∧ (after (.segmentOutcome 0) (outcome .misinserted { withStream (fun x => { x with misinserts := 1 }) running with
          fck := {} })).sau.streams[0].state = .seeking := by decide +kernel
/-- While the confirmation is awaited no outcome of a LOCKED stream moves its count or locks it anew. -/
theorem test_meets_OutcomesAndCuts_awaiting :
    let s := fun j n => outcome j (withStream (fun x => { x with misinserts := n, awaiting := true }) running)
    (after (.segmentOutcome 0) (s .misinserted 0)).sau.streams[0].misinserts = 0
      ∧ (after (.segmentOutcome 0) (s .misinserted 1)).wires.misinserts = []
      ∧ (after (.segmentOutcome 0) (s .placed 2)).sau.streams[0].misinserts = 2
      ∧ (after (.segmentOutcome 0) (outcome .misinserted (withStream (fun x => { x with misinserts := 1 }) running))).sau.streams[0].awaiting
        = true := by decide +kernel
theorem test_meets_OutcomesAndCuts_wraps :
    let s := withStream (fun x => { x with counters := .replicate 11 65535 }) running
    attentionHas .counterWrap (after (.segmentOutcome 0) (outcome .late s)) = true
      ∧ (after (.segmentOutcome 0) (outcome .late s)).sau.streams[0].counter .received = 0
      ∧ attentionHas .counterWrap (after (.cutTimerExpiry 0) s) = true
      ∧ attentionHas .counterWrap (after (.segmentOutcome 0) (outcome .late running)) = false := by decide +kernel
theorem test_meets_OutcomesAndCuts_locks :
    (after (.segmentOutcome 0)
      { withStream (fun x => { x with state := .seeking }) running with
        wires := { returned := [{ stream := 0, fromLocked := false, stay := 0, judgement := .placed, frame := 9 }] } }).sau.streams[0].state
      = .locked := by decide +kernel
/-- A stream that has left the state it handed a segment over in and is in it again is only counted. -/
theorem test_meets_OutcomesAndCuts_left :
    let on := fun (j : Judgement) (n : Nat) => after (.segmentOutcome 0) (outcome j (withStream (fun x => { x with stay := n, misinserts := 1 }) running))
    let seeks := fun n => (after (.segmentOutcome 0) { withStream (fun x => { x with state := .seeking, stay := n }) running with
        wires := { returned := [{ stream := 0, fromLocked := false, stay := 0, judgement := .placed, frame := 9 }] } }).sau.streams[0]
    ((on .placed 0).sau.streams[0].misinserts = 0 ∧ (on .placed 2).sau.streams[0].misinserts = 1
        ∧ (on .placed 2).sau.streams[0].counter .placed = 1)
      ∧ (seeks 0).state = .locked ∧ (seeks 2).state = .seeking ∧ (seeks 2).counter .placed = 1 := by decide +kernel
theorem test_meets_OutcomesAndCuts_timer :
    running.sau.streams[0].timer = some 0 ∧ Time.reached running.time 0 = true
      ∧ (after (.cutTimerExpiry 0) running).sau.streams[0].state = .cut
      ∧ stays (.cutTimerExpiry 0) (withStream (fun x => { x with timer := some 1 }) running) = true := by decide +kernel

/-! ### The Frame Clock -/

theorem test_meets_PaceAndFlywheel :
    let s : State := { running with wires := { paceReports := [9] } }
    let old : State := { s with fck := { s.fck with lastStarted := some 9, pace := .coasting, flywheel := some 0 } }
    (after .paceReport s).fck.lastStarted = some 9 ∧ (after .paceReport old).fck.pace = .paced
      ∧ Frame.newer 9 9 = false ∧ (after .flywheelExpiry old).fck.lastStarted = some 10
      ∧ (after .paceReport { s with run := ready.run }).fck = s.fck := by decide +kernel
theorem test_meets_ReframeSteps :
    let s : State := { running with wires := { misinserts := [0] } }
    (after .misinsertReport s).fck.reframing = true
      ∧ (after .misinsertReport { s with run := ready.run }).sau.streams[0].state = .seeking
      ∧ (after .reframeRequest (after .misinsertReport s)).wires.reframeConfirmed = true
      ∧ (after .reframeConfirmation { running with wires := { reframeConfirmed := true } }).sau.streams[0].state = .seeking := by decide +kernel
theorem test_meets_ReframeSteps_awaiting :
    let s : State := withStream (fun x => { x with state := .cut, awaiting := true }) { running with wires := { reframeConfirmed := true } }
    (after .reframeConfirmation s).sau.streams[0].awaiting = false ∧ (after .reframeConfirmation s).sau.streams[0].state = .cut
      ∧ (after .start (withStream (fun x => { x with awaiting := true }) ready)).sau.streams[0].awaiting = false := by decide +kernel
theorem test_meets_ReframeSteps_exits :
    let s : State := { running with wires := { reframeConfirmed := true } }
    (after .reframeConfirmation s).wires.lockedExits = [0]
      ∧ (after .reframeConfirmation { s with run := ready.run }).wires.lockedExits = [] := by decide +kernel

/-! ### Frame Assembly -/

/-- A segment of stream 0 waits at Frame Assembly. -/
def handed (g : Option Segment) (s : State) : State :=
  { s with wires := { s.wires with handed := [{ stream := 0, fromLocked := true, stay := 0, segment := g }] } }

/-- Records of frames 9 and on, in a state, OPEN or what `f` makes of them. -/
def withRecords (n : Nat) (f : Record → Record) (s : State) : State :=
  { s with fau := { s.fau with
      base := some 8
      records := Vector.ofFn fun r => if r.val < n then f { state := .opened, frame := BitVec.ofNat 16 (9 + r.val) } else {} } }

/-- The outcomes on their way back. -/
def judgements (s : State) : List Judgement := s.wires.returned.map Returned.judgement

/-- What the placement of `segment 1 0` is judged. -/
def judged (g : Segment) (s : State) : List Judgement := judgements (after (.segmentPlacement 0) (handed (some g) s))

/-- RUNNING with the engine busy. -/
def busy : State := { running with rce := { running.rce with state := .concluding } }

theorem test_meets_SegmentsPlaced :
    let g := segment 1 0
    let c := running.sau.streams[0].config
    g.count = c.segments ∧ g.index < c.segments ∧ g.first + g.slopes.length ≤ c.count ∧ running.run.state = .running
      ∧ judged g running = [.placed] ∧ judged g (withRecords 1 id running) = [.placed]
      ∧ (after (.segmentPlacement 0) (handed (some g) running)).fau.records[0].received[0] = [0] := by decide +kernel
theorem test_meets_SegmentsPlaced_completes :
    let s := withRecords 1 (fun x => { x with started := some 0, deadline := some 5 }) busy
    recordOf 9 s = some 0 ∧ engineIdleAtFau s = false
      ∧ (after (.segmentPlacement 0) (handed (some (segment 1 0)) s)).fau.records[0].state = .closed := by decide +kernel
theorem test_meets_SegmentsPlaced_dispatches :
    let s := withRecords 1 (fun x => { x with started := some 0, deadline := some 5 }) running
    let t := after (.segmentPlacement 0) (handed (some (segment 1 0)) s)
    engineIdleAtFau s = true ∧ t.fau.records[0].state = .dispatched ∧ t.fau.lastDispatched = some 9
      ∧ t.wires.handover.map Handover.frame = some 9 := by decide +kernel
theorem test_meets_SegmentsPlaced_evicts :
    let s := withRecords 4 (fun x => { x with frame := x.frame + 1 }) running
    (after (.segmentPlacement 0) (handed (some (segment 1 0)) s)).fau.overrun = 1
      ∧ placeOf 0 s < placeOf 1 s ∧ placeOf 0 s < placeOf 2 s ∧ placeOf 0 s < placeOf 3 s := by decide +kernel
theorem test_meets_SegmentsNotPlaced :
    let dispatched := fun f => { running with fau := { running.fau with lastDispatched := some f } }
    judgements (after (.segmentPlacement 0) (handed none running)) = [.malformed]
      ∧ judged { segment 1 0 with count := 2 } running = [.malformed] ∧ judged (segment 1 0) (dispatched 9) = [.late]
      ∧ judged (segment 1 0) (dispatched 8) = [.placed] ∧ judged (segment 1 0) (dispatched 1) = [.placed]
      ∧ judged (segment 1 0) (dispatched 0) = [.misinserted] ∧ judged (segment 1 0) ready = [.late]
      ∧ judged (segment 1 0) (withRecords 1 (Record.place 0 0 (segment 1 0)) running) = [.duplicate]
      ∧ judged (segment 1 0) (withRecords 1 (fun x => { x with state := .closed }) running) = [.late] := by decide +kernel

/-- A start of frame 9 waits, its deadline 50 microseconds on. -/
def starting (s : State) : State := { s with wires := { s.wires with frameStarts := [{ frame := 9, time := 0, deadline := 50 }] } }

theorem test_meets_FrameStarts :
    (after .frameStartTake (starting running)).fau.records[0].deadline = some 50
      ∧ (after .frameStartTake (starting (withRecords 1 id running))).fau.records[0].deadline = some 50
      ∧ (after .frameStartTake (starting { withRecords 1 id busy with time := 50 })).fau.records[0].cause = some .deadline
      ∧ (after .frameStartTake (starting (withRecords 1 (Record.place 0 0 (segment 1 0)) busy))).fau.records[0].cause = some .complete
      ∧ (after .frameStartTake (starting (withRecords 1 (fun x => { x with state := .closed }) busy))).fau.records[0].started = none
      ∧ (after .frameStartTake (starting ready)).fau = ready.fau
      ∧ (after .frameStartTake (starting { running with fau := { lastDispatched := some 9 } })).fau = { lastDispatched := some 9 } := by
  decide +kernel
theorem test_meets_FrameStarts_evicts :
    let s := starting (withRecords 4 (fun x => { x with frame := x.frame + 1 }) running)
    placeOf 0 s < placeOf 1 s ∧ placeOf 0 s < placeOf 2 s ∧ placeOf 0 s < placeOf 3 s
      ∧ (after .frameStartTake s).fau.records[0].frame = 9 ∧ (after .frameStartTake s).fau.overrun = 1
      ∧ (after .frameStartTake s).wires.recordsFreed = [0] ∧ attentionHas .frameOverrun (after .frameStartTake s) = true := by
  decide +kernel
theorem test_meets_FrameStarts_dispatches :
    let s := starting (withRecords 1 (Record.place 0 0 (segment 1 0)) running)
    let late := { starting (withRecords 1 id running) with time := 50 }
    (after .frameStartTake s).fau.records[0].state = .dispatched
      ∧ (after .frameStartTake late).wires.handover.map Handover.cause = some .deadline := by decide +kernel
theorem test_meets_FrameClosing : Store.rising (Record.place 0 0 (segment 1 0) {}).slopes = true := by decide
theorem test_meets_RecordsClose :
    let s := withRecords 1 (fun x => { x with started := some 0, deadline := some 0 }) busy
    s.fau.records[0].state = .opened ∧ s.fau.records[0].deadline = some 0 ∧ Time.reached s.time 0 = true
      ∧ Time.reached s.time 1 = false ∧ engineIdleAtFau s = false
      ∧ (after (.deadlineExpiry 0) s).fau.records[0].void = false ∧ (after (.deadlineExpiry 0) s).fau.records[0].voidCounts[0] = 1
      ∧ (after (.deadlineExpiry 0) s).sau.streams[0].counter .voidFrames = 1 := by decide +kernel
theorem test_meets_RecordsClose_dispatches :
    let s := withRecords 2 (fun x => { x with started := some 0, deadline := some 0 }) running
    let wraps := withStream (fun x => { x with counters := .replicate 11 65535 }) s
    engineIdleAtFau s = true ∧ (after (.deadlineExpiry 0) s).fau.records[0].state = .dispatched
      ∧ (after (.deadlineExpiry 0) s).fau.records[1].state = .opened
      ∧ (after (.deadlineExpiry 1) { withRecords 2 (fun x => { x with state := .closed, started := some 0, deadline := some 0 }) running with
          wires := { idleToFau := true } }).fau.records[0].state = .closed
      ∧ attentionHas .counterWrap (after (.deadlineExpiry 0) wraps) = true
      ∧ attentionHas .counterWrap (after (.deadlineExpiry 0) s) = false := by decide +kernel
theorem test_meets_NewestClosed :
    NewestClosed 1 (withRecords 2 (fun x => { x with state := .closed }) running).fau :=
  ⟨by decide +kernel, fun q h => by
    have : ∀ q : Fin 4, q ≠ 1 → (withRecords 2 (fun x => { x with state := .closed }) running).fau.records[q].state = .closed →
      (withRecords 2 (fun x => { x with state := .closed }) running).fau.place q
        < (withRecords 2 (fun x => { x with state := .closed }) running).fau.place 1 := by decide +kernel
    exact this q h⟩
theorem test_meets_RecordsClose_exit :
    let s := withRecords 1 (fun x => Record.place 0 0 (segment 1 0) { x with started := some 0 }) busy
    (after (.lockedExitReport [3, 2, 1, 0]) { s with wires := { s.wires with lockedExits := [1] } }).fau.records[0].state = .closed := by
  decide +kernel
theorem test_meets_DispatchOnIdle :
    let s := withRecords 2 (fun x => { x with state := .closed }) { running with wires := { idleToFau := true } }
    placeOf 0 s < placeOf 1 s ∧ (after .engineIdleReport s).fau.lastDispatched = some 10
      ∧ (after .engineIdleReport s).fau.skipped = 1
      ∧ (after .engineIdleReport { running with wires := { idleToFau := true } }).fau = running.fau := by decide +kernel

/-! ### The engine -/

/-- The frame dispatched from record 0. -/
def handover (void : Bool) : Handover :=
  { record := 0, frame := 9, started := 0, closed := 0, cause := .complete, void := void, voidCounts := .replicate 16 0 }

/-- A frame context. -/
def context (void : Bool) : FrameContext where
  handed := handover void
  residual := List.replicate 256 2
  increments := List.replicate 16 (some 0)

/-- RUNNING, with the engine on a frame of slot A. -/
def onFrame (state : EngineState) (f : FrameContext) (s : State) : State :=
  { withRecords 1 (fun x => { x with state := .dispatched }) s with
    rce := { s.rce with state := state, inUse := some .a, frame := some f } }

/-- RUNNING, with a dispatched frame on its way. -/
def dispatched (void : Bool) : State :=
  { withRecords 1 (fun x => { x with state := .dispatched }) running with wires := { handover := some (handover void) } }

theorem test_meets_FrameTaken :
    currentSlot (dispatched false) = some (.a, edition) ∧ (dispatched false).rce.state = .idle
      ∧ (after .frameTake (dispatched false)).rce.state = .streaming
      ∧ (after .frameTake (dispatched true)).rce.state = .concluding
      ∧ (after .frameTake (dispatched true)).fau.records[0].state = .free := by decide +kernel
theorem test_meets_FrameTaken_void :
    let x : Record := { state := .dispatched, slopes := [(0, 7), (1, -32768)] }
    let s : State := { withRecords 1 (fun _ => x) running with wires := { handover := some (handover true), idleToDu := true } }
    Store.rising x.slopes = true ∧ (after .frameTake s).wires = { recordsFreed := [0] }
      ∧ (after .frameTake s).fau.lastGood = [(0, 7)] ∧ s.fau.records[0].state = .dispatched
      ∧ (after .frameTake { s with fau := {} }).fau = {} := by decide +kernel
theorem test_meets_FrameTaken_answers :
    let entry : MapEntry := { base := 0, count := 2, substitution := .last, mandatory := false, allowance := 0, locked := true }
    let x : Record := { slopes := [(0, 7), (1, -32768)], streamMap := (Vector.replicate 16 none).set 0 (some entry) }
    answer x [(1, 5)] 0 = .slope 7 ∧ answer x [(1, 5)] 1 = .lastGood 5 ∧ answer x [(1, 5)] 2 = .residualZero := by decide
theorem test_meets_TileDataAccumulate :
    let bs := leBytes 2 3 ++ zeros 28 ++ leBytes 2 65535
    let s := onFrame .streaming (context false) { running with wires := { tileReturns := [{ key := 0, granule := 1020, data := some bs }] } }
    bs.length = 32 ∧ (descriptorInUse 0 s).isSome = true
      ∧ ((after .tileReadDone s).rce.frame.map FrameContext.accumulators) = some [(0, 6 * 2 ^ 24), (15, -2 * 2 ^ 24)] := by
  decide +kernel
theorem test_meets_ColumnBlocksVoided :
    let f := { context false with plan := [0] }
    let s := onFrame .streaming f { running with wires := { tileReturns := [{ key := 0, granule := 0, data := none }] } }
    let s' := onFrame .streaming f { running with wires := { taints := [{ slot := .a, key := 0 }] } }
    ((after .tileMemoryError s).rce.frame.map FrameContext.voidBlocks) = some [0] ∧ (after .tileMemoryError s).rce.tileErrors = 1
      ∧ ((after .taintReport s').rce.frame.map FrameContext.voidBlocks) = some [0]
      ∧ (after .taintReport { s' with rce := { s'.rce with state := .concluding } }).rce.frame = some f := by decide +kernel
/-- The order of the reads goes on where it was, unless the entry at its head is in the voided block. -/
theorem test_meets_ColumnBlocksVoided_cursor :
    let on := fun plan key =>
      let f := { context false with plan := plan, cursor := 9 }
      (after .taintReport (onFrame .streaming f { running with wires := { taints := [{ slot := .a, key := key }] } })).rce.frame
    on [0, 1, 64] 64 = some { context false with plan := [0, 1], cursor := 9, voidBlocks := [1] }
      ∧ on [0, 1, 64] 1 = some { context false with plan := [64], cursor := 0, voidBlocks := [0] } := by decide +kernel
theorem test_meets_StreamingEnds :
    let s := onFrame .streaming { context false with accumulators := [(0, 2 ^ 38)] } running
    ((after .streamingEnd s).rce.frame.map fun f => f.increments.head?) = some (some (some 1))
      ∧ (after .streamingEnd s).fau.records[0].state = .free
      ∧ stays .streamingEnd (onFrame .streaming { context false with plan := [0] } running) = true := by decide +kernel
theorem test_rounding : roundRatio 3 2 = 2 ∧ roundRatio (-3) 2 = -2 ∧ roundRatio (-1) 3 = 0 := by decide
theorem test_meets_ActuatorResults :
    let g : GroupRow := { gain := 16384, leak := 65536, low := -10, high := 10, slew := 3 }
    g.low ≤ g.high ∧ (actuatorResult g 4 0 (some 5) 0).candidate = some 9 ∧ (actuatorResult g 4 0 (some 5) 0).output = 3
      ∧ (actuatorResult g 4 0 (some 7) 0).saturated = true ∧ (actuatorResult g 4 20 none 0).output = 10 := by decide
theorem test_meets_ProbeSupplied :
    let s := onFrame .concluding (context false) running
    (after .probeRequest s).pru.supply = some { source := .none, inForce := true }
      ∧ stays .probeRequest (onFrame .concluding { context false with probe := some [] } running) = true
      ∧ stays .probeRequest (onFrame .concluding (context true) running) = true := by decide +kernel

theorem test_meets_ProbeSupplied_sources :
    let supply := fun (p : Pru) => (after .probeRequest (onFrame .concluding (context false) { running with pru := p })).pru.supply.map
      Supply.source
    let cycle : Pru := { cycle := [{ pattern := [1], amplitude := 1, frames := 2 }], length := some 1, position := some (0, 2) }
    let both : Pru := { cycle with injection := some { pattern := [1], amplitude := 1, left := 1 } }
    supply cycle = some (.cycle 0) ∧ supply both = some .injection ∧ supply {} = some .none := by decide +kernel
theorem test_meets_ProbeSupplied_values :
    let p : Pru := { injection := some { pattern := [2, -2], amplitude := 16384, left := 1 } }
    let t := after .probeRequest (onFrame .concluding (context false) { running with pru := p })
    (t.rce.frame.bind fun f => f.probe.map fun v => v.take 3) = some [1, -1, 0] := by decide +kernel

/-- The results of a frame of sixteen actuators. -/
def results : List ActuatorResult :=
  List.replicate 16 { candidate := some 4, output := 5, clampedCandidate := false, clampedOutput := true }

/-- RUNNING, at the completion of a frame. -/
def completing (void : Bool) (s : State) : State :=
  onFrame .concluding { context void with probe := some (List.replicate 16 0), results := results } s

/-- RUNNING and HELD. -/
def held : State := { running with cou := { running.cou with output := .held, causes := { directive := true } } }

theorem test_meets_FrameCompletes :
    let t := after (.frameCompletion []) (completing false running)
    (t.rce.state = .idle ∧ Store.read 0 t.rce.integrator 15 = 4 ∧ Store.read 0 t.rce.integrator 16 = 0
        ∧ t.cou.links[0].tx = .sending { kind := .command, number := 9, first := 0, values := [5] })
      ∧ (after (.frameCompletion [0]) (completing false held)).cou.links = held.cou.links
      ∧ (after (.frameCompletion []) (completing true running)).wires.probeNotices = [false]
      ∧ (after (.frameCompletion []) (completing false held)).rce.integrator = [] := by decide +kernel
theorem test_meets_FrameCompletes_dropped :
    let s := completing true running
    let set := (after (.frameCompletion []) s).rpu.holding
    set.length = 1 ∧ (after (.frameCompletion [])
      { s with rpu := { s.rpu with holding := (List.replicate 4 set).flatten } }).rpu.dropped = 1 := by decide +kernel
theorem test_meets_FrameCompletes_record :
    (completing true running).rpu.writer = .idle
      ∧ (after (.frameCompletion []) (completing true running)).rpu.writer = .telemetry := by decide +kernel
theorem test_meets_SlotsAndStoreAtCompletion :
    let s := completing true running
    let retained : State := { s with rce := { s.rce with slotA := .retained edition } }
    (after (.frameCompletion []) s).rce.slotA = .current edition ∧ (after (.frameCompletion []) retained).rce.slotA = .empty
      ∧ (after (.frameCompletion []) retained).wires.slotRelease = true := by decide +kernel
theorem test_meets_StoreChanges :
    let c : StoreChange := { first := 1, values := [2, 3] }
    let s : State := { running with wires := { integratorChanges := [c], safeRequests := [c] } }
    (after .integratorChange s).rce.integrator = [(1, 2), (2, 3)] ∧ (after .safeShapeRequest s).rce.integrator = [(1, 2), (2, 3)]
      ∧ ((after .integratorChange { onFrame .concluding (context true) s with wires := s.wires }).rce.frame.map
          FrameContext.changes) = some [c]
      ∧ (after (.frameCompletion []) (onFrame .concluding { context true with changes := [c] } running)).rce.integrator
        = [(1, 2), (2, 3)] := by decide +kernel

/-- The changes of a COMMITTED frame are applied after its commit, in the order taken. -/
theorem test_meets_StoreChanges_committed :
    let f := { context false with
      probe := some (List.replicate 16 0), results := results
      changes := [{ first := 1, values := [2, 3] }, { first := 2, values := [7] }] }
    let t := after (.frameCompletion []) (onFrame .concluding f running)
    Store.read 0 t.rce.integrator 0 = 4 ∧ Store.read 0 t.rce.integrator 1 = 2 ∧ Store.read 0 t.rce.integrator 2 = 7
      ∧ Store.read 0 t.rce.integrator 3 = 4 := by decide +kernel

/-! ### Command output -/

/-- A mirror link as `f` leaves it. -/
def onLink (f : MirrorLink → MirrorLink) (s : State) : State := { s with cou := { s.cou with links := tweak s.cou.links 0 f } }

/-- A packet of one value. -/
def packet (k : PacketKind) : Packet := { kind := k, number := 9, first := 0, values := [5] }

/-- A command packet is awaiting its token, until the time given. -/
def awaiting (k : PacketKind) (e : Time) (x : MirrorLink) : MirrorLink := { x with window := .awaiting k 9 e }

theorem test_meets_PacketsComplete :
    let s := fun k => onLink (fun x => { x with tx := .sending (packet k), waitingSafe := some (packet .safe) }) running
    (after (.commandPacketComplete 0) (s .command)).cou.lastEmitted = [(0, 5)]
      ∧ (after (.commandPacketComplete 0) (s .command)).cou.links[0].tx = .sending (packet .safe)
      ∧ (after (.safePacketComplete 0) (s .safe)).wires.safeRequests = [{ first := 0, values := [5] }]
      ∧ (after (.commandPacketComplete 0) (onLink (awaiting .command 100) (s .command))).cou.links[0].counts.supersedes = 1
      ∧ (after (.trailerEnd 0) (onLink (fun x => { x with tx := .trailer }) running)).cou.links[0].tx = .idle := by decide +kernel
theorem test_meets_PacketsComplete_line :
    let on := fun c x => (after c (onLink (fun y => { y with tx := x }) running)).cou.links[0].line
    on (.commandPacketComplete 0) (.sending (packet .command)) = wireBlocks (packet .command).bytes ++ [idleBlock 0 0]
      ∧ on (.trailerEnd 0) .trailer = [(2, 0x48), idleBlock 0 0] ∧ (packet .command).bytes.length = 14
      ∧ (wireBlocks (packet .command).bytes).length = 2 := ⟨rfl, rfl, by decide +kernel, by decide +kernel⟩
theorem test_meets_PacketsComplete_limit :
    let s := onLink (fun x => { awaiting .command 100 x with tx := .sending (packet .command), consecutive := 1 }) running
    missLimit s = 2 ∧ (after (.commandPacketComplete 0) s).cou.output = .held
      ∧ attentionHas .driverFault (after (.commandPacketComplete 0) s) = true := by decide +kernel
/-- The packet that waits on link 1 is discarded where the limit holds a LIVE output, and stays where it does not. -/
def waiting1 (s : State) : State :=
  { s with cou := { s.cou with links := tweak s.cou.links 1 fun x => { x with waitingCommand := some (packet .command) } } }
theorem test_meets_PacketsComplete_misses :
    let s := fun k n => waiting1 (onLink (fun x =>
      { awaiting k 100 x with tx := .sending (packet .command), consecutive := n }) running)
    let on := fun k n => (after (.commandPacketComplete 0) (s k n)).cou.links
    ((on .command 1)[0].consecutive = 2 ∧ (on .command 1)[0].counts.commands = 1 ∧ (on .command 1)[1].counts.dropped = 1
        ∧ (on .command 1)[1].waitingCommand = none)
      ∧ ((on .command 0)[0].consecutive = 1 ∧ (on .command 0)[1].counts.dropped = 0)
      ∧ (on .safe 1)[0].consecutive = 1 ∧ (on .safe 1)[0].counts.supersedes = 1 := by decide +kernel

/-- A mirror link whose receiver has all of a packet but its TERMINATE of seven bytes, and that block's payload. -/
def receiving (bs : List Byte) (f : MirrorLink → MirrorLink) (s : State) : State :=
  onLink (fun x => { f x with rx := { x.rx with link := .up, reception := .inPacket, packet := bs.take 5 } }) s
def lastBlock (bs : List Byte) : BitVec 64 := BitVec.ofNat 64 (leNat (0x37 :: bs.drop 5))

/-- A token for the awaited packet. -/
def token (ok : Bool) : List Byte := Token.bytes { kind := .command, number := 9, ok := ok }

theorem test_meets_AcceptTokens :
    let on := fun (bs : List Byte) f => (after (.mirrorBlock 0 2 (lastBlock bs)) (receiving bs f running)).cou.links[0]
    (on (token true) (awaiting .command 5)).counts.accepted = 1 ∧ (on (token false) (awaiting .command 5)).counts.rejections = 1
      ∧ (on (token true) (awaiting .safe 5)).counts.stray = 1 ∧ (on (token true) id).counts.stray = 1
      ∧ (on (zeros 12) id).counts.bad = 1 ∧ stays (.mirrorBlock 0 1 0) State.reset = true := by decide +kernel
theorem test_meets_AcceptTokens_discarded :
    (after (.mirrorBlock 0 2 0x48) (receiving (token true) id running)).cou.links[0].counts.bad = 1
      ∧ (after (.mirrorBlock 0 2 0x10) (receiving (token true) id running)).cou.links[0].counts.bad = 1 := by decide +kernel
theorem test_meets_AcceptTokens_timeout :
    (after (.acceptTimeout 0) (onLink (awaiting .command 0) running)).cou.links[0].consecutive = 1
      ∧ (after (.acceptTimeout 0) (onLink (awaiting .safe 0) running)).cou.links[0].consecutive = 0
      ∧ stays (.acceptTimeout 0) (onLink (awaiting .command 1) running) = true := by decide +kernel
theorem test_meets_AcceptTokens_limit :
    let s := waiting1 (onLink (fun x => { awaiting .command 0 x with consecutive := 1 }) running)
    missLimit s = 2 ∧ (after (.acceptTimeout 0) s).cou.links[0].counts.timeouts = 1
      ∧ (after (.acceptTimeout 0) s).cou.links[1].counts.dropped = 1 ∧ (after (.acceptTimeout 0) s).cou.causes = { driver := true } := by
  decide +kernel
theorem test_meets_InterlockEvents :
    let s := onLink (fun x => { x with tx := .sending (packet .command), waitingCommand := some (packet .command) }) running
    let safe : State := { s with cou := { s.cou with action := .safe } }
    ((after .interlockAssertion s).cou.output = .held ∧ (after .interlockAssertion s).cou.links[0].tx = .trailer
        ∧ (after .interlockAssertion s).cou.links[0].counts.dropped = 1)
      ∧ (after .interlockAssertion safe).cou.links[0].waitingSafe = some { kind := .safe, number := 1, first := 0, values := [0] }
      ∧ (after .interlockAssertion ready).cou.output = .quiet
      ∧ running.cou.settings = some edition.links ∧ edition.links.map[0].count ≠ 0 := by decide +kernel
/-- FREEZE keeps a waiting safe packet, and SAFE sends nothing on a link whose entry has no actuators. -/
theorem test_meets_InterlockEvents_links :
    let s := onLink (fun x => { x with tx := .sending (packet .safe), waitingSafe := some (packet .safe) }) running
    let none' : State := { s with cou := { s.cou with
      action := .safe, settings := some { edition.links with map := edition.links.map.set 0 { first := 0, count := 0 } } } }
    let link := fun s : State => (after .interlockAssertion s).cou.links[0]
    (link s = s.cou.links[0] ∧ link none' = s.cou.links[0])
      ∧ (after .interlockAssertion none').cou.safeSerial = 1 ∧ (after .interlockAssertion s).cou.safeSerial = 0
      ∧ (after .interlockAssertion none').cou.links[1].tx = .sending { kind := .safe, number := 1, first := 0, values := [0] } := by
  decide +kernel
/-- A packet that is cut off has its START on the line, and none of its check code: of 14 bytes the first seven alone. -/
theorem test_cutOff (n : Nat) : 1 ≤ blocksBeforeCut 14 n ∧ 8 * blocksBeforeCut 14 n + 3 ≤ 14 := by
  simp [blocksBeforeCut, Nat.mod_one]
theorem test_meets_ResetsAndInitialisation_cut :
    let s := onLink (fun x => { x with tx := .sending (packet .safe) }) running
    (after .partReset s).cou.links[0].tx = .trailer ∧ (after .partReset running).cou.links[0].line = [] := by decide +kernel
theorem test_meets_InterlockEvents_release :
    let a := after .interlockInputsReleased (after .interlockAssertion running)
    let b : State := { a with time := 100 }
    let auto : State := { b with cou := { b.cou with autoResume := true } }
    a.cou.release = some 100 ∧ stays .interlockRelease { a with time := 99 } = true
      ∧ (after .interlockRelease b).cou.causes = { directive := true } ∧ (after .interlockRelease auto).cou.output = .live
      ∧ (after .interlockReleaseInterrupted a).cou.release = none
      ∧ (after .interlockRelease { b with cou := { b.cou with output := .quiet } }).cou.output = .quiet := by decide +kernel
theorem test_meets_GuardReports :
    let g := fun n void => { running with wires := { guardReports := [{ saturated := n, void := void, settings := edition.guards }] } }
    (after .guardReport (g 1 false)).cou.output = .held ∧ (after .guardReport (g 0 false)).cou.output = .live
      ∧ (after .guardReport (g 0 true)).cou.causes = { guardVoid := true }
      ∧ (after .guardReport { ready with wires := (g 1 true).wires }).cou = ready.cou := by decide +kernel
/-- A guard that holds a LIVE output discards what waits on every link; one that joins a HELD output's causes discards nothing. -/
theorem test_meets_GuardReports_links :
    let g : GuardReport := { saturated := 1, void := false, settings := edition.guards }
    let s := waiting1 (onLink (fun x => { awaiting .command 5 x with tx := .sending (packet .command) }) running)
    let on := fun s : State => after .guardReport { s with wires := { guardReports := [g] } }
    let joined := on { s with cou := { s.cou with output := .held, causes := { directive := true } } }
    ((on s).cou.links[1].waitingCommand = none ∧ (on s).cou.links[1].counts.dropped = 1 ∧ (on s).cou.links[0] = s.cou.links[0]
        ∧ attentionHas .held (on s) = true)
      ∧ joined.cou.causes = { directive := true, guardSaturation := true } ∧ joined.cou.links = s.cou.links
      ∧ attentionHas .held joined = false
      ∧ (on (waiting1 ready)).cou = (waiting1 ready).cou := by decide +kernel

/-! ### The Directive Unit -/

/-- A slot of the strip: its bytes with a good check code. -/
def slotBytes (ticket kind length : Nat) (params : List Byte) : List Byte :=
  let head := leBytes 4 ticket ++ leBytes 2 kind ++ leBytes 2 length
  let body := params ++ zeros (108 - params.length)
  head ++ zeros 8 ++ body ++ leBytes 4 (crc32 (head ++ body)).toNat

/-- READY with a slot read returned for ticket 6. -/
def slotRead (bs : List Byte) : State := returned .slot bs ready

/-- The code of the first outcome write of the Directive Unit. -/
def codeOf (s : State) : Option Nat :=
  (s.arb.du.findSome? fun a => match a.purpose with
    | .outcome _ => some (field (a.data.getD []) 0 2)
    | _ => none)

/-- The outcome code after a command. -/
def codeAfter (c : Instr) (s : State) : Option Nat := codeOf (after c s)

theorem test_meets_ScanAndSlots_timer :
    let s : State := { ready with du := { ready.du with scanTimer := some 0 } }
    (after .scanTimerExpiry s).du.activity = .reading ∧ (after .scanTimerExpiry s).du.scanTimer = some 10
      ∧ stays .scanTimerExpiry { s with du := { s.du with scanTimer := some 1 } } = true
      ∧ (after .scanTimerExpiry (holding (hand 10 4 []) s)).du.job = none := by decide +kernel
theorem test_meets_ScanAndSlots :
    let torn := (slotBytes 6 10 4 []).set 124 0
    (after .slotReadReturn (slotRead (slotBytes 6 10 4 []))).du.hand = some { hand 10 4 [] with ticket := 6 }
      ∧ codeAfter .slotReadReturn (slotRead (slotBytes 6 18 4 [])) = some 3
      ∧ codeAfter .slotReadReturn (slotRead (slotBytes 6 0 4 [])) = some 3
      ∧ codeAfter .slotReadReturn (slotRead (slotBytes 6 17 109 [])) = some 4
      ∧ (after .slotReadReturn (slotRead (slotBytes 6 17 108 []))).du.hand.isSome = true
      ∧ (after .slotReadReturn (slotRead (slotBytes 5 10 4 []))).du.activity = .resting
      ∧ (after .slotReadReturn (slotRead torn)).du.torn = 1 := by decide +kernel
theorem test_meets_ScanAndSlots_torn :
    let s := slotRead ((slotBytes 6 10 4 []).set 124 0)
    codeAfter .slotReadReturn { s with du := { s.du with torn := 7 } } = some 12
      ∧ attentionHas .memoryError (after .slotReadReturn { s with du := { s.du with
          job := some { purpose := .slot, left := 0, bytes := [], failed := some 4096 } } }) = true := by decide +kernel

/-! ### The directives -/

theorem test_meets_MalformedDirectives :
    InHand (holding (hand 10 5 []) ready) anchor 6 (hand 10 5 []) 10 ∧ ¬ (hand 10 5 []).Fits 4 0 4
      ∧ codeAfter .resumeOutput (holding (hand 10 5 []) ready) = some 4 :=
  ⟨⟨rfl, rfl, rfl, rfl, rfl⟩, fun h => absurd h.1 (by decide), by decide +kernel⟩
theorem test_meets_MalformedDirectives_reserved :
    ¬ (hand 8 12 (zeros 11 ++ [1])).Fits 12 8 4 ∧ codeAfter .setPace (holding (hand 8 12 (zeros 11 ++ [1])) ready) = some 4 :=
  ⟨fun h => absurd (h.2 11 (by decide) (by decide)) (by decide), by decide +kernel⟩
theorem test_meets_MalformedDirectives_forms :
    codeAfter .repointTileSet (holding (hand 3 15 []) ready) = some 4
      ∧ codeAfter .repointTileRemove (holding (hand 3 15 [0, 0, 0, 0, 2]) ready) = some 4
      ∧ codeAfter .setStream (holding (hand 5 19 []) ready) = some 4
      ∧ codeAfter .setAsideFlag (holding (hand 5 19 [255]) ready) = some 4
      ∧ codeAfter .injectProbe (holding (hand 13 11 [0, 0, 0, 0, 0, 0, 0, 0, 1]) ready) = some 4
      ∧ codeAfter .injectProbeCancel (holding (hand 13 11 []) ready) = some 4
      ∧ codeAfter .resetIntegratorZero (holding (hand 14 7 []) ready) = some 4
      ∧ codeAfter .resetIntegratorVector (holding (hand 14 7 [1]) ready) = some 4 := by decide +kernel

/-- A directive in hand: its kind, its length, its parameters. -/
def has (kind length : Nat) (params : List Byte) (s : State) : State := holding (hand kind length params) s

/-- A directive in hand fits its kind. -/
theorem fits (kind length : Nat) (params : List Byte) (reserved count : Nat)
    (h : zeroField (hand kind length params).params reserved count = true) (s : State) (r : s.run.anchor = some anchor)
    (e : s.du.expected = some 6) :
    InHand (has kind length params s) anchor 6 (hand kind length params) kind
      ∧ (hand kind length params).Fits length reserved count :=
  ⟨⟨r, e, rfl, rfl, rfl⟩, rfl, (zeroField_iff _ _ _).1 h⟩

/-- The parameters of a SET_STREAM. -/
def streamParams (stream : Nat) (tag base count segments : Nat) : List Byte :=
  leBytes 1 stream ++ [0] ++ leBytes 2 tag ++ leBytes 2 base ++ leBytes 2 count ++ leBytes 1 segments ++ [1, 1, 1, 0, 64]

theorem test_meets_StreamDirectives (stream : Nat) :
    InHand (has 5 20 (streamParams stream 4095 16383 1 64) ready) anchor 6 (hand 5 20 (streamParams stream 4095 16383 1 64)) 5
      ∧ (hand 5 20 (streamParams stream 4095 16383 1 64)).Fits 20 14 6 :=
  fits 5 20 _ 14 6 (by simp [hand, streamParams, leBytes, zeroField, zeros]) ready rfl rfl
theorem test_setStream :
    let s := fun (stream : Nat) tag base count segments => has 5 20 (streamParams stream tag base count segments) ready
    codeAfter .setStream (s 15 4095 16383 1 64) = some 2 ∧ codeAfter .setStream (s 16 4095 16383 1 64) = some 5
      ∧ codeAfter .setStream (s 15 4095 16383 2 64) = some 5 ∧ codeAfter .setStream (s 15 1 16383 1 64) = some 5
      ∧ codeAfter .setStream (s 0 1 0 16384 1) = some 2
      ∧ codeAfter .setStream (has 5 20 (streamParams 0 2 2 1 1) running) = some 6 := by decide +kernel
theorem test_setAsideFlag :
    codeAfter .setAsideFlag (has 5 20 [255, 7, 0, 0, 0, 0, 0, 0, 0, 1] ready) = some 2
      ∧ codeAfter .setAsideFlag (has 5 20 [255, 8] ready) = some 5
      ∧ codeAfter .setAsideFlag (has 5 20 [255, 7, 0, 0, 0, 0, 0, 0, 0, 2] ready) = some 5
      ∧ codeAfter .setAsideFlag (has 5 20 [255, 7, 0, 0, 0, 0, 0, 0, 1] ready) = some 4 := by decide +kernel
theorem test_enableStreams :
    let two : State := { ready with sau := { ready.sau with streams := tweak ready.sau.streams 1 fun _ =>
      { stream0 .disabled with enabled := false } } }
    codeAfter .enableStreams (has 6 4 [1, 0] ready) = some 2 ∧ codeAfter .enableStreams (has 6 4 [3, 0] ready) = some 6
      ∧ codeAfter .enableStreams (has 6 4 [2, 0] two) = some 5
      ∧ (after .disableStreams (has 7 4 [1, 0] running)).wires.lockedExits = [0] := by decide +kernel
theorem test_enableStreams_time :
    let s : State := { ready with time := 9, sau := { ready.sau with streams := tweak ready.sau.streams 1 fun _ =>
      { stream0 .disabled with enabled := false, config := { (stream0 .disabled).config with tag := 2, base := 1 } } } }
    (after .enableStreams (has 6 4 [3, 0] s)).sau.streams[1].changed = 9
      ∧ (after .enableStreams (has 6 4 [3, 0] s)).sau.streams[0].changed = 0 := by decide +kernel
theorem test_clearStreamErrors :
    let s : State := { ready with
      sau := { ready.sau with streams := tweak ready.sau.streams 0 (Stream.plus [.placed]) }
      ports := tweak ready.ports 7 fun p => { p with foreign := 5 } }
    (after .clearStreamErrors (has 15 4 [1, 0, 128] s)).sau.streams[0].counter .placed = 0
      ∧ (after .clearStreamErrors (has 15 4 [1, 0, 128] s)).ports[7].foreign = 0 := by decide +kernel
theorem test_setPace :
    let p := fun stream period margin deadline => leBytes 1 stream ++ [0] ++ leBytes 2 period ++ leBytes 2 margin ++ leBytes 2 deadline
    codeAfter .setPace (has 8 12 (p 15 20000 1000 5000) ready) = some 2 ∧ codeAfter .setPace (has 8 12 (p 0 49 1 10) ready) = some 5
      ∧ codeAfter .setPace (has 8 12 (p 0 100 10 10) running) = some 2
      ∧ codeAfter .setPace (has 8 12 (p 0 100 11 10) running) = some 6
      ∧ codeAfter .setPace (has 8 12 (leBytes 2 256) ready) = some 4 := by decide +kernel
theorem test_meets_OutputDirectives :
    codeAfter .resumeOutput (has 10 4 [] held) = some 2 ∧ (after .resumeOutput (has 10 4 [] held)).cou.output = .live
      ∧ codeAfter .resumeOutput (has 10 4 [] ready) = some 6 ∧ codeAfter .holdOutput (has 11 4 [] ready) = some 6
      ∧ (after .holdOutput (has 11 4 [] running)).cou.output = .held
      ∧ (after .setTelemetry (has 17 4 [3, 0] { ready with rpu := { writer := .status } })).rpu.decimation = 3 := by decide +kernel
theorem test_meets_OutputDirectives_links :
    let s := waiting1 (onLink (fun x => { awaiting .command 5 x with tx := .sending (packet .command) }) running)
    let held : State := { s with cou := { s.cou with output := .held, causes := { driver := true } } }
    let on := fun s => (after .holdOutput (has 11 4 [] s)).cou
    ((on s).links[1].waitingCommand = none ∧ (on s).links[1].counts.dropped = 1 ∧ (on s).links[0] = s.cou.links[0])
      ∧ on held = { held.cou with causes := { driver := true, directive := true } } := by decide +kernel
theorem test_meets_OutputDirectives_idle :
    let t := after .setTelemetry (has 17 4 [3, 0] { ready with rpu := { decimationCounter := 2 } })
    t.rpu.decimationCounter = 0 ∧ t.rpu.writer = .status ∧ t.rpu.statusCount = 1 := by decide +kernel

/-- The load of slot B at a phase. -/
def loadOf (phase : LoadPhase) : Load :=
  { slot := .b, phase := phase, tileList := 2097152, tileCount := 1, referenceAt := 3145728, groupMapAt := 4194304 }

/-- The read that has returned failed at an offset. -/
def failedAt (offset : Nat) (s : State) : State :=
  { s with du := { s.du with job := s.du.job.map fun j => { j with failed := some offset } } }

/-- READY with a LOADING slot B for the directive in hand, and its read returned. -/
def loading (phase : LoadPhase) (e : Edition) (bs : List Byte) (kind : Nat := 1) : State :=
  returned .load bs (holding (hand kind 8 [] .working)
    { ready with rce := { ready.rce with slotB := .loading e, load := some (loadOf phase) } })

/-- READY with slot B in use by the engine, and so RETAINED. -/
def bothSlots : State := { ready with rce := { ready.rce with slotB := .retained edition, inUse := some .b } }

theorem test_meets_AdoptionDirectives :
    let p := leBytes 4 2097152
    (after .adoptEdition (has 1 8 p ready)).rce.slotB = .loading {}
      ∧ (after .adoptEdition (has 1 8 p bothSlots)).du.activity = .waiting
      ∧ codeAfter .adoptEdition (has 1 8 (leBytes 4 2097153) ready) = some 5
      ∧ (after .amendGroups (has 2 12 (leBytes 4 8 ++ p) ready)).rce.slotB = .loading { edition with number := 8 }
      ∧ codeAfter .amendGroups (has 2 12 (leBytes 4 0 ++ p) ready) = some 5
      ∧ codeAfter .amendGroups (has 2 12 (leBytes 4 8 ++ p) { ready with rce := {} }) = some 6
      ∧ (after .amendGroups (has 2 12 (leBytes 4 8 ++ p) bothSlots)).du.activity = .waiting := by decide +kernel

/-- The parameters of a REPOINT_TILE. -/
def repoint (action row exponent address : Nat) : List Byte :=
  leBytes 4 8 ++ leBytes 1 action ++ leBytes 1 row ++ [0] ++ leBytes 1 exponent ++ leBytes 4 address

theorem test_meets_AdoptionDirectives_set :
    let on := fun p s => codeAfter .repointTileSet (has 3 16 p s)
    on (repoint 1 0 8 2097152) ready = some 2 ∧ on (repoint 1 0 9 2097152) ready = some 5 ∧ on (repoint 3 0 8 2097152) ready = some 5
      ∧ on (repoint 1 1 8 2097152) ready = some 10 ∧ on (repoint 1 0 8 2097152) { ready with rce := {} } = some 6
      ∧ (after .repointTileSet (has 3 16 (repoint 1 0 8 2097152) bothSlots)).du.activity = .waiting := by decide +kernel
theorem test_meets_AdoptionDirectives_remove :
    let on := fun p s => codeAfter .repointTileRemove (has 3 16 p s)
    on (repoint 2 0 0 0) ready = some 2 ∧ on (repoint 2 1 0 0) ready = some 10 ∧ on (repoint 2 0 1 0) ready = some 4
      ∧ on (repoint 2 64 0 0) ready = some 5 ∧ on (repoint 2 0 0 0) { ready with rce := {} } = some 6 := by decide +kernel
theorem test_meets_AdoptionDirectives_retiring :
    let s := has 3 16 (repoint 1 0 8 2097152) { ready with du := { ready.du with deferred := [{ ticket := 3, work := .retire 64 64 }] } }
    retiring s 2097152 = some 3 ∧ codeAfter .repointTileSet s = some 8 := by decide +kernel

/-- The Edition Record of an edition like `edition`: its vectors in named places, one tile. -/
def editionRecord (number : Nat) : List Byte :=
  leBytes 4 number ++ leBytes 2 256 ++ leBytes 2 16 ++ leBytes 4 2097152 ++ leBytes 2 1 ++ zeros 2 ++ leBytes 4 3145728
    ++ leBytes 4 4194304 ++ leBytes 2 0 ++ [1, 1] ++ leBytes 2 100 ++ [2, 0] ++ leBytes 2 0 ++ leBytes 2 1 ++ zeros 12
    ++ (List.replicate 16 (leBytes 2 1 ++ leBytes 4 65536 ++ leBytes 2 0x8001 ++ leBytes 2 32767 ++ leBytes 2 1)).flatten ++ zeros 16

theorem test_meets_EditionLoads_record :
    recordCheck (loading .record {} []) (parseEdition (editionRecord 8)) (parseLoad .b (editionRecord 8)) = none
      ∧ (after .editionLoadReadDone (loading .record {} (editionRecord 8))).rce.load.map Load.phase = some (.tile 0)
      ∧ codeAfter .editionLoadReadDone (loading .record {} (editionRecord 0)) = some 10 := by decide +kernel
/-- Each check of 1 to 7 at a value that fails it, with its index. -/
theorem test_meets_EditionLoads_checks :
    let check := fun (f : Edition → Edition) (g : Load → Load) =>
      recordCheck ready (f (parseEdition (editionRecord 8))) (g (parseLoad .b (editionRecord 8)))
    let row := fun n (g : GroupRow → GroupRow) (e : Edition) => { e with groups := tweak e.groups n g }
    check (fun e => { e with number := 0 }) id = some (1, 0) ∧ check (fun e => { e with slopeCount := 16385 }) id = some (2, 0)
      ∧ check id (fun l => { l with tileCount := 1025 }) = some (3, 0) ∧ check id (fun l => { l with tileList := 1 }) = some (4, 0)
      ∧ check (row 15 fun g => { g with leak := 65537 }) id = some (5, 15)
      ∧ check (row 3 (fun g => { g with slew := 0 }) ∘ row 9 fun g => { g with low := 7, high := 6 }) id = some (5, 3)
      ∧ check (row 0 fun g => { g with slew := 65534 }) id = none
      ∧ check (fun e => { e with links := { e.links with map := .replicate 4 { first := 0, count := 1 } } }) id = some (6, 1)
      ∧ check (fun e => { e with links := { e.links with map := .replicate 4 { first := 16, count := 1 } } }) id = some (6, 0)
      ∧ check (fun e => { e with links := { e.links with missLimit := 16 } }) id = some (7, 0) := by decide +kernel
theorem test_meets_EditionLoads_tile :
    let e := { edition with directory := [] }
    let entry := fun row exponent address => leBytes 1 row ++ [0] ++ leBytes 1 exponent ++ [0] ++ leBytes 4 address ++ zeros 8
    (after .editionLoadReadDone (loading (.tile 0) e (entry 0 8 2097152))).rce.load.map Load.phase = some .reference
      ∧ codeAfter .editionLoadReadDone (loading (.tile 0) e (entry 1 8 2097152)) = some 10
      ∧ codeAfter .editionLoadReadDone (loading (.tile 0) e (entry 0 8 2097153)) = some 10
      ∧ codeAfter .editionLoadReadDone (loading (.tile 0) edition (entry 0 8 2097152)) = some 10 := by decide +kernel
theorem test_meets_EditionLoads_ends :
    (after .editionLoadReadDone (loading .reference edition (zeros 512))).rce.load.map Load.phase = some .groupMap
      ∧ (after .editionLoadReadDone (loading .groupMap edition (List.replicate 16 15))).rce.slotB
        = .current { edition with groupMap := List.replicate 16 15 }
      ∧ codeAfter .editionLoadReadDone (loading .groupMap edition (List.replicate 16 16)) = some 10
      ∧ codeAfter .editionLoadReadDone (loading .groupTable edition (zeros 192) 2) = some 10
      ∧ codeAfter .editionLoadReadDone (loading .groupTable edition ((editionRecord 8).drop 48) 2) = some 2 := by decide +kernel
theorem test_meets_EditionLoads_working :
    Working (loading .record {} []) anchor 6 (hand 1 8 [] .working) .load { purpose := .load, left := 0, bytes := [], failed := none }
      ∧ slotOf (loading .record {} []) .b = .loading {} :=
  ⟨⟨rfl, rfl, rfl, rfl, rfl, rfl, rfl⟩, rfl⟩
theorem test_meets_EditionLoads_failed :
    codeAfter .editionLoadReadDone (failedAt 2097152 (loading .record {} [])) = some 11 := by decide +kernel

/-- READY with entries of the Deferred List. -/
def deferring (ws : List DeferredWork) (s : State) : State :=
  { s with du := { s.du with deferred := ws.map fun w => { ticket := 4, work := w } } }

theorem test_meets_DeferredDirectives_retire :
    let on := fun offset size s => codeAfter .retireRange (has 4 12 (leBytes 4 offset ++ leBytes 4 size) s)
    let other : State := { bothSlots with rce := { bothSlots.rce with
      slotB := .retained { edition with directory := [(0, { address := 2097152, exponent := 0, taint := false })] } } }
    on 1048576 0 ready = some 5 ∧ on 2147483647 1 ready = some 2 ∧ on 2147483647 2 ready = some 5 ∧ on 1081343 1 ready = some 7
      ∧ on 1081344 1 ready = some 2 ∧ on 2097152 1 other = some 1
      ∧ (after .retireRange (has 4 12 (leBytes 4 2097152 ++ leBytes 4 1) (deferring (List.replicate 4 .probeCycle) other))).du.activity
        = .waiting := by decide +kernel
theorem test_meets_DeferredDirectives_drain :
    codeAfter .drain (has 16 4 [] ready) = some 2
      ∧ (after .drain (has 16 4 [] (withRecords 1 id ready))).du.deferred.map Deferred.work = [.drain (.records [0] false)]
      ∧ (after .drain (has 16 4 [] (onFrame .concluding (context true) { ready with run := running.run } |> fun s =>
          { s with fau := {} }))).du.deferred.map Deferred.work = [.drain .idle] := by decide +kernel
theorem test_meets_DeferredDirectives_reports :
    let s := fun w (ws : Wires) => { deferring [w] ready with wires := ws }
    (after .recordFreedReport (s (.drain (.records [0] false)) { recordsFreed := [0] })).du.deferred = []
      ∧ (after .recordFreedReport (s (.drain (.records [0, 1] false)) { recordsFreed := [0] })).du.deferred.length = 1
      ∧ (after .drainIdleReport (s (.drain .idle) { idleToDu := true })).du.deferred = []
      ∧ (after .telemetryWrittenReport (s (.drain (.written (some 1))) { telemetryWritten := [1] })).du.deferred = []
      ∧ (after .telemetryWrittenReport (s (.drain (.written (some 1))) { telemetryWritten := [1, 1] })).du.deferred.length = 1
      ∧ (after .slotReleaseReport (s (.retire 64 64) { slotRelease := true })).du.deferred = []
      ∧ (after .slotReleaseReport (s (.retire 32 32) { slotRelease := true })).du.deferred.length = 1
      ∧ codeAfter .ownerEndReport (s .probeCycle { ownerEnds := [{ ticket := 4, code := 2, detail := 0 }] }) = some 2 := by
  decide +kernel
theorem test_meets_DeferredDirectives_slot :
    let s : State := { holding (hand 1 8 (leBytes 4 2097152) .needsSlot) ready with
      rce := { ready.rce with slotA := .empty, slotB := .current edition }, wires := { slotRelease := true } }
    (after .slotReleaseReport s).rce.slotA = .loading {} ∧ s.du.deferred = [] := by decide +kernel
theorem test_meets_DeferredDirectives_telemetry :
    let sets := (after (.frameCompletion []) (completing true running)).rpu.holding
    let s : State := { deferring [.drain .idle] ready with wires := { idleToDu := true }, rpu := { holding := sets, handed := 1 } }
    (after .drainIdleReport s).du.deferred.map Deferred.work = [.drain (.written (some 1))]
      ∧ (after .drain (has 16 4 [] { ready with rpu := s.rpu })).du.deferred.map Deferred.work = [.drain (.written (some 1))] := by
  decide +kernel

/-- An engine's IDLE report taken before the last freed record's is missed: the next one is waited for. -/
theorem test_meets_DeferredDirectives_missed :
    let s : State := { deferring [.drain (.records [0] false)] ready with wires := { idleToDu := true, recordsFreed := [0] } }
    (after .drainIdleReport s).du.deferred.map Deferred.work = [.drain (.records [0] true)]
      ∧ (after .recordFreedReport (after .drainIdleReport s)).du.deferred.map Deferred.work = [.drain .idle]
      ∧ (after .drainIdleReport { s with wires := { idleToDu := true } }).du.deferred.map Deferred.work
        = [.drain (.records [0] false)] := by decide +kernel

/-- Two DRAINs of the list move in one step: each by its own stage, and those that are done end in list order. -/
theorem test_meets_DeferredDirectives_drains :
    let s := fun ws w => { deferring ws ready with wires := w }
    let works := fun t : State => t.du.deferred.map Deferred.work
    let freed := s [.drain (.records [0] false), .probeCycle, .drain (.records [0, 1] false)] { recordsFreed := [0] }
    works (after .recordFreedReport freed) = [.probeCycle, .drain (.records [1] false)]
      ∧ works (after .drainIdleReport (s [.drain .idle, .drain (.records [0] false)] { idleToDu := true }))
        = [.drain (.records [0] false)]
      ∧ works (after .telemetryWrittenReport (s [.drain (.written (some 1)), .drain (.written (some 1))]
          { telemetryWritten := [1] })) = []
      ∧ outcomesPlaced (after .telemetryWrittenReport (s [.drain (.written (some 1)), .drain (.written (some 1))]
          { telemetryWritten := [1] })) = [(144, 2), (144, 2)] := by decide +kernel

/-- A directive that waits for room, the list full, and the report that ends its first entry on its way. -/
def waitingRoom (kind length : Nat) (params : List Byte) (s : State) : State :=
  { holding (hand kind length params .needsRoom) s with
    du := { (holding (hand kind length params .needsRoom) s).du with
      deferred := { ticket := 1, work := .probeCycle } :: List.replicate 3 { ticket := 2, work := .probeCycle } }
    wires := { ownerEnds := [{ ticket := 1, code := 2, detail := 0 }] } }

theorem test_meets_DeferredDirectives_again :
    let last := fun (s : State) => ((after .ownerEndReport s).du.deferred.getLast?.map Deferred.ticket, (after .ownerEndReport s).du.hand)
    let retired : State := { bothSlots with rce := { bothSlots.rce with
      slotB := .retained { edition with directory := [(0, { address := 2097152, exponent := 0, taint := false })] } } }
    last (waitingRoom 12 8 (leBytes 4 2097152 ++ [1, 0, 1, 0]) ready) = (some 5, none)
      ∧ last (waitingRoom 16 4 [] (withRecords 1 id ready)) = (some 5, none)
      ∧ last (waitingRoom 4 12 (leBytes 4 2097152 ++ leBytes 4 1) retired) = (some 5, none)
      ∧ last (waitingRoom 4 12 (leBytes 4 2097152 ++ leBytes 4 1) ready) = (some 2, none) := by decide +kernel
theorem test_meets_DeferredDirectives_stays :
    DrainStays ready { ticket := 4, work := .probeCycle } ∧ DrainStays ready { ticket := 4, work := .drain .idle }
      ∧ DrainStays ready { ticket := 4, work := .drain (.records [0] true) } :=
  ⟨fun _ h => (nomatch h), fun _ h => by cases h; exact .inr (.inl rfl), fun _ h => by cases h; exact .inl ⟨0, [], true, rfl⟩⟩

/-- A slot release reaches an adoption directive that waits for a slot. -/
def waitingSlot (kind length : Nat) (params : List Byte) : State :=
  { holding (hand kind length params .needsSlot) ready with
    rce := { ready.rce with slotA := .empty, slotB := .current edition }, wires := { slotRelease := true } }

theorem test_meets_DeferredDirectives_slot_amend :
    freeSlot (waitingSlot 2 12 (leBytes 4 8 ++ leBytes 4 2097152)) = some .a
      ∧ (after .slotReleaseReport (waitingSlot 2 12 (leBytes 4 8 ++ leBytes 4 2097152))).rce.slotA = .loading { edition with number := 8 } := by
  decide +kernel
theorem test_meets_DeferredDirectives_slot_repoint :
    codeAfter .slotReleaseReport (waitingSlot 3 16 (repoint 1 0 8 2097152)) = some 2
      ∧ codeAfter .slotReleaseReport (waitingSlot 3 16 (repoint 2 1 0 0)) = some 10
      ∧ codeAfter .slotReleaseReport (waitingSlot 3 16 (repoint 2 0 0 0)) = some 2 := by decide +kernel

/-- A vector directive at work, with its read returned. -/
def vectorRead' (kind length : Nat) (params bs : List Byte) (s : State) : State :=
  returned .vector bs (holding (hand kind length params .working) s)

theorem test_meets_VectorDirectives :
    let p := leBytes 4 2097152
    (after .loadSafeShape (has 9 8 (p ++ [1, 1]) ready)).du.job.map ReadJob.left = some 64
      ∧ codeAfter .loadSafeShape (has 9 8 (p ++ [2]) ready) = some 5
      ∧ (after .injectProbe (has 13 12 (p ++ leBytes 2 1024 ++ [0, 0, 1]) running)).du.job.map ReadJob.left = some 64
      ∧ codeAfter .injectProbe (has 13 12 (p ++ leBytes 2 1025 ++ [0, 0, 1]) running) = some 5
      ∧ codeAfter .injectProbe (has 13 12 (p ++ leBytes 2 1 ++ [0, 0, 1]) ready) = some 6
      ∧ codeAfter .injectProbe (has 13 12 (p ++ leBytes 2 1 ++ [0, 0, 1])
          { running with pru := { injection := some { pattern := [1], amplitude := 1, left := 1 } } }) = some 9 := by decide +kernel
theorem test_meets_VectorDirectives_integrator :
    let p := fun mode address => leBytes 4 mode ++ leBytes 4 address
    (after .resetIntegratorZero (has 14 8 (p 0 0) ready)).wires.integratorChanges.length = 1
      ∧ codeAfter .resetIntegratorZero (has 14 8 (p 0 1) ready) = some 4
      ∧ (after .resetIntegratorVector (has 14 8 (p 1 2097152) ready)).du.job.map ReadJob.left = some 64
      ∧ codeAfter .resetIntegratorVector (has 14 8 (p 2 2097152) ready) = some 5 := by decide +kernel

/-- A vector of 1,024 values whose last is the void code. -/
def badVector : List Byte := zeros 2046 ++ [0, 0x80]

theorem test_meets_VectorDirectives_returned :
    let params := leBytes 4 2097152 ++ [1, 1]
    (after .safeShapeReadDone (vectorRead' 9 8 params ([1, 0] ++ zeros 2046) ready)).cou.safeShape = [(0, 1)]
      ∧ codeAfter .safeShapeReadDone (vectorRead' 9 8 params badVector ready) = some 10 := by decide +kernel
theorem test_meets_VectorDirectives_returned_integrator :
    (after .integratorVectorReadDone (vectorRead' 14 8 [1] (zeros 2048) ready)).wires.integratorChanges.length = 1
      ∧ codeAfter .integratorVectorReadDone (vectorRead' 14 8 [1] badVector ready) = some 10
      ∧ (after .injectPatternReadDone (vectorRead' 13 12 [0, 0, 0, 0, 1, 0, 2, 0, 3] [0, 0x80] running)).pru.injection
        = some { pattern := [-32768], amplitude := 2, left := 3 } := by decide +kernel
theorem test_meets_VectorDirectives_failed :
    codeAfter .injectPatternReadDone (failedAt 2097152 (vectorRead' 13 12 [0, 0, 0, 0, 1, 0, 2, 0, 3] [] running)) = some 11 := by decide +kernel

/-! ### The Probe Unit -/

/-- RUNNING with a cycle of one entry of two frames and an injection. -/
def probing (source : ProbeSource) (left : Nat) : State :=
  { running with pru := {
      cycle := [{ pattern := [1], amplitude := 1, frames := 2 }], length := some 1, position := some (0, left)
      injection := some { pattern := [1], amplitude := 1, left := left }, supply := some { source := source, inForce := true } } }

theorem test_meets_ProbeUnit_notices :
    let on := fun (s : State) => (after .commitNotice { s with wires := { probeNotices := [true] } }).pru
    (on (probing .injection 1)).injection = none ∧ (on (probing .injection 2)).injection.isSome = true
      ∧ (on (probing (.cycle 0) 2)).position = some (0, 1) ∧ (on (probing (.cycle 0) 1)).position = some (0, 2)
      ∧ (after .completionWithoutCommit { probing .injection 1 with wires := { probeNotices := [false] } }).pru.injection.isSome
        = true := by decide +kernel
theorem test_meets_ProbeUnit_cancel :
    (after .injectProbeCancel (has 13 12 [] (probing .injection 1))).pru.supply = some { source := .injection, inForce := false }
      ∧ codeAfter .injectProbeCancel (has 13 12 [] running) = some 2 ∧ codeAfter .injectProbeCancel (has 13 12 [] ready) = some 6
      ∧ codeAfter .injectProbeCancel (has 13 12 [0, 0, 0, 0, 0, 0, 0, 1] running) = some 4 := by decide +kernel
theorem test_meets_ProbeUnit_cycle :
    let p := fun entries length => leBytes 4 2097152 ++ leBytes 1 entries ++ [0] ++ leBytes 2 length
    (after .setProbeCycle (has 12 8 (p 16 1024) ready)).pru.staging.isSome = true
      ∧ codeAfter .setProbeCycle (has 12 8 (p 17 1024) ready) = some 5 ∧ codeAfter .setProbeCycle (has 12 8 (p 0 0) ready) = some 4
      ∧ (after .setProbeCycle (has 12 8 [] ready)).wires.ownerEnds.length = 1
      ∧ (after .setProbeCycle (has 12 8 (p 1 1) (deferring (List.replicate 4 .probeCycle) ready))).du.activity = .waiting := by
  decide +kernel

/-- READY with a copy in progress and its read returned. -/
def copying (g : Staging) (bs : List Byte) (failed : Option Nat := none) : State :=
  { ready with pru := { staging := some g, job := some { purpose := .copy, left := 0, bytes := bs, failed := failed } } }

theorem test_meets_ProbeUnit_copy :
    let g : Staging := { request := { ticket := 4, table := 2097152, entries := 2, length := 1 } }
    let entry := fun address frames => leBytes 4 address ++ leBytes 2 1 ++ leBytes 2 frames
    let second : Staging := { g with copied := [{ pattern := [1], amplitude := 1, frames := 2 }], entry := some (1, 3) }
    ((after .probeCopyReadDone (copying g (entry 3145728 1))).pru.staging.map Staging.entry) = some (some (1, 1))
      ∧ (after .probeCopyReadDone (copying g (entry 3145728 0))).pru.staging = none
      ∧ (after .probeCopyReadDone (copying g (entry 3145729 1))).wires.ownerEnds.map OwnerEnd.code = [10]
      ∧ (after .probeCopyReadDone (copying g [] (some 2097152))).wires.ownerEnds.map OwnerEnd.code = [11]
      ∧ ((after .probeCopyReadDone (copying { g with entry := some (1, 2) } [1, 0])).pru.staging.map fun x => x.copied.length) = some 1
      ∧ (after .probeCopyReadDone (copying second [1, 0])).pru.cycle.length = 2 := by decide +kernel

/-- The copies that wait: those of no entries end, and the first of some begins. -/
theorem test_meets_ProbeUnit_waiting :
    let copy : CopyRequest := { ticket := 5, table := 3145728, entries := 1, length := 1 }
    let empty : CopyRequest := { copy with ticket := 4, entries := 0 }
    let on := fun more (failed : Option Nat) =>
      let s := copying { request := { ticket := 3, table := 2097152, entries := 1, length := 1 }, entry := some (1, 2) } [1, 0] failed
      after .probeCopyReadDone { s with pru := { s.pru with waiting := more } }
    ((on [copy] none).pru.staging.map Staging.request = some copy ∧ (on [copy] none).pru.cycle.length = 1)
      ∧ ((on [empty, copy] none).pru.staging.map Staging.request = some copy ∧ (on [empty, copy] none).pru.cycle = [])
      ∧ (on [empty, copy] none).wires.ownerEnds.map OwnerEnd.ticket = [3, 4]
      ∧ (on [empty] (some 2097152)).wires.ownerEnds.map OwnerEnd.code = [11, 2] ∧ (on [empty] none).pru.waiting = [] := by
  decide +kernel

/-! ### Outcomes and reports -/

theorem test_meets_OutcomesAndReports_settled :
    let s : State := { ready with wires := { outcomesWritten := [[5]] } }
    (after .outcomeWriteDone s).du.settledThrough = some 5 ∧ attentionHas .settled (after .outcomeWriteDone s) = true := by
  decide +kernel
theorem test_meets_OutcomesAndReports_writer :
    let sets := (after (.frameCompletion []) (completing true running)).rpu.holding
    let s : State := { running with rpu := { writer := .telemetry, holding := sets, nextSnapshot := 1, serial := 0xFFFFFFFF } }
    (after .writerItemEnd s).rpu.writer = .streamReport ∧ (after .writerItemEnd s).rpu.nextSnapshot = 1
      ∧ (after .writerItemEnd { s with rpu := { s.rpu with holding := sets ++ sets } }).rpu.serial = 1
      ∧ (after .writerItemEnd { s with rpu := { s.rpu with writer := .status } }).rpu.serial = 1
      ∧ stays .writerItemEnd { s with arb := { rpu := [hostAccess] } } = true
      ∧ stays .writerItemEnd { s with rpu := { s.rpu with writer := .snapshot } } = true := by decide +kernel
/-- Behind the last telemetry set the Stream Report is written. -/
theorem test_meets_OutcomesAndReports_writer_last :
    let sets := (after (.frameCompletion []) (completing true running)).rpu.holding
    let t := after .writerItemEnd { running with rpu := { writer := .telemetry, holding := sets } }
    sets.length = 1 ∧ t.rpu.holding = [] ∧ t.rpu.statusOwed = true ∧ t.rpu.writer = .streamReport ∧ t.rpu.streamCount = 1 := by
  decide +kernel
theorem test_meets_OutcomesAndReports_writer_owed :
    let s : State := { running with rpu := { writer := .status, streamOwed := true, statusOwed := true, streamCount := 0xFFFFFFFF } }
    (after .writerItemEnd s).rpu.streamCount = 1
      ∧ (after .writerItemEnd { s with rpu := { s.rpu with streamOwed := false } }).rpu.writer = .status
      ∧ (after .writerItemEnd { s with rpu := { s.rpu with streamOwed := false, statusOwed := false } }).rpu.writer = .idle := by
  decide +kernel

/-- The writer takes a set with no snapshot due, and with one due: what it places. -/
theorem test_meets_OutcomesAndReports_taken :
    let sets := (after (.frameCompletion []) (completing true running)).rpu.holding
    let s : State := { running with rpu := { writer := .status, holding := sets, serial := 20, nextSnapshot := 1 } }
    let due : State := { s with rpu := { s.rpu with decimation := 2, decimationCounter := 1 } }
    let not' : State := { s with rpu := { s.rpu with decimation := 2 } }
    ((after .writerItemEnd s).arb.rpu.head?.map Access.granule = some ((8192 + 512 * 5) / 32)
        ∧ (after .writerItemEnd s).rpu.writer = .telemetry)
      ∧ ((after .writerItemEnd due).arb.rpu.head?.map Access.granule = some ((16384 + 65536) / 32)
        ∧ (after .writerItemEnd due).rpu.writer = .snapshot ∧ (after .writerItemEnd due).rpu.decimationCounter = 0)
      ∧ (after .writerItemEnd not').rpu.decimationCounter = 1 ∧ (after .writerItemEnd not').rpu.writer = .telemetry := by
  decide +kernel

/-- The write that seals a snapshot entry is granted: the next entry advances and wraps, and the set's record follows. -/
theorem test_meets_GrantedWriteStores_seal :
    let sets := (after (.frameCompletion []) (completing true running)).rpu.holding
    let on := fun next w =>
      let rpu : Rpu := { writer := w, holding := sets, serial := 20, nextSnapshot := next }
      after (.granuleGrant .none) { running with arb := { rpu := [writeOf .snapshotSeal] }, rpu := rpu }
    let head := fun s : State => s.arb.rpu.head?.map Access.granule
    ((on 0 .snapshot).rpu.nextSnapshot = 1 ∧ (on 0 .snapshot).rpu.writer = .telemetry
        ∧ head (on 0 .snapshot) = some ((8192 + 512 * 4) / 32))
      ∧ (on 1 .snapshot).rpu.nextSnapshot = 0 ∧ (on 1 .telemetry).arb.rpu = [] ∧ (on 1 .telemetry).rpu.nextSnapshot = 1 := by
  decide +kernel

/-- An idle writer takes a Stream Report or a Part Status Block in the step that makes one owed, and nothing where none is. -/
theorem test_meets_OutcomesAndReports_owed :
    let s : State := { running with wires := { reframeConfirmed := true } }
    WriterLaw s ∧ s.run.anchor = some anchor ∧ (Instr.reframeConfirmation).wellFormed = true
      ∧ ((after .reframeConfirmation s).sau.streams[0].state ≠ s.sau.streams[0].state
        ∧ (after .reframeConfirmation s).rpu.writer = .streamReport ∧ (after .reframeConfirmation s).rpu.streamCount = 1)
      ∧ ((after .holdOutput (has 11 4 [] running)).rpu.writer = .status
        ∧ (after .holdOutput (has 11 4 [] { running with rpu := { writer := .status } })).rpu.statusOwed = true)
      ∧ (after (.attentionMaskWrite 1) running).rpu = running.rpu := by
  refine ⟨⟨fun _ _ => ⟨rfl, rfl, rfl⟩, fun _ => rfl, fun h => nomatch h⟩, ?_⟩
  decide +kernel

/-! ### The laws -/

theorem test_meets_StepsKeep : step State.reset = .next { State.reset with time := 1 } := rfl
/-- RUNNING with its settled-through value consistent, and time about to pass. -/
def lawful : State := { running with du := { running.du with settledThrough := some 4, unsettled := [5] } }

theorem test_meets_StepsKeepMemory : MemoryLaw lawful := rfl
theorem test_meets_StepsKeepHold : HoldLaw lawful where
  held := by simp [lawful, running, ready, halted, HoldCauses.any, RunState.active, State.reset]
  quiet := by simp [lawful, running, RunState.active]
  quietCauses := fun h => by simp [lawful, running] at h
theorem test_meets_StepsKeepSlots : SlotLaw lawful where
  oneCurrent := fun h => h.2
  oneLoading := fun h => h.1
  retained := fun i h => by cases i <;> exact h.elim
theorem test_meets_StepsKeepSlots_load : LoadLaw lawful where
  loading := fun i => by cases i <;> exact ⟨fun h => h.elim, fun h => by simp [lawful, running, ready] at h⟩
  working := fun h => by simp [lawful, running, ready] at h
  idle := fun _ => rfl
  watch := rfl
  halted := fun h => by simp [lawful, running] at h
theorem test_meets_StepsKeepTables : StreamLaw lawful ∧ TicketLaw lawful where
  left := ⟨by decide +kernel, by decide +kernel⟩
  right := ⟨by decide, by decide⟩
theorem test_meets_StepsKeepTables_disjoint : DisjointStreams lawful := fun i j h a b =>
  absurd ((only0 i a).trans (only0 j b).symm) h
theorem allFree : ∀ i : Fin 4, lawful.fau.records[i].state = .free := by decide +kernel
theorem test_meets_StepsKeepTables_frames : DistinctFrames lawful := fun i _ _ a =>
  absurd (allFree i) a
theorem test_meets_StepsKeepTables_counts : CountLaw lawful := by unfold CountLaw; decide +kernel
theorem test_meets_StepsKeepTables_writer : WriterLaw lawful := ⟨fun _ _ => ⟨rfl, rfl, rfl⟩, fun _ => rfl, fun h => nomatch h⟩
theorem test_meets_StepsKeepTables_dispatch : DispatchLaw (dispatched false) where
  one := by decide +kernel
  owned := fun i h => .inl ⟨_, rfl, by
    have : ∀ i : Fin 4, (dispatched false).fau.records[i].state = .dispatched → (0 : Fin 4) = i := by decide +kernel
    exact this i h⟩
  onItsWay := fun _ => rfl
theorem test_lawful_steps : goes .stop lawful = true ∧ step lawful = .next { lawful with time := 1 } := ⟨by decide +kernel, rfl⟩

end Sys2Proof.Tests
end

/-!
The guard reports (08, 8.5: R140, R141): what joining a hold cause does to the Command Output Unit and to ATTENTION, what the end of a
step of the unit adds, and the guard report assembled from the two.
-/
namespace Sys2Proof.Machine

/-! ### ATTENTION after a raise -/

theorem Cause.bit_lt (c : Cause) : c.bit < 14 := by
  cases c <;> decide

theorem Cause.bit_injective : Function.Injective Cause.bit := by
  have inverse : Function.LeftInverse Cause.ofNat Cause.bit := by
    intro c
    cases c <;> rfl
  exact inverse.injective

theorem Cause.getLsbD_flag (c d : Cause) : d.flag.getLsbD c.bit = decide (c = d) := by
  have twoPow : d.flag = BitVec.twoPow 14 d.bit := rfl
  simp [twoPow, BitVec.getLsbD_twoPow, d.bit_lt, Cause.bit_injective.eq_iff, eq_comm]

/-- Raising a cause sets its own flag and leaves every other (R170). -/
theorem attentionHas_raise (c d : Cause) (s : State) :
    attentionHas c (raise d s) = (attentionHas c s || decide (c = d)) := by
  simp [attentionHas, Cause.getLsbD_flag]

/-! ### A mirror link when the output goes HELD -/

theorem MirrorLink.dropCommand_eq_whenHeld : MirrorLink.dropCommand = MirrorLink.whenHeld true := by
  funext ⟨_, _, waiting, _, _, _, _, _, _⟩
  cases waiting <;> rfl

theorem MirrorLink.whenHeld_false : MirrorLink.whenHeld false = id := by
  funext x
  simp [MirrorLink.whenHeld]

/-! ### A cause joins the set (R130, R143) -/

theorem addCause_cou (c : HoldCause) (s : State) (h : s.cou.output ≠ .quiet) :
    (addCause c s).cou = { s.cou with
      output := .held, causes := s.cou.causes.add c
      links := s.cou.links.map (MirrorLink.whenHeld (s.cou.output = .live)) } := by
  cases ho : s.cou.output with
  | quiet => exact absurd ho h
  | held => simp [addCause, ho, MirrorLink.whenHeld_false]
  | live => simp [addCause, ho, MirrorLink.dropCommand_eq_whenHeld]

theorem attentionHas_addCause (d : Cause) (c : HoldCause) (s : State) :
    attentionHas d (addCause c s) = (attentionHas d s || (decide (d = .held) && decide (s.cou.output = .live))) := by
  cases ho : s.cou.output with
  | quiet => simp [addCause, ho]
  | held => simp [addCause, ho, attentionHas]
  | live =>
    simp only [addCause, ho, attentionHas_raise]
    simp [attentionHas]

/-! ### The end of a step of the Command Output Unit (R131) -/

theorem linksQuiet_congr {s t : State} (h : t.cou = s.cou) : linksQuiet t = linksQuiet s := by
  unfold linksQuiet
  rw [h]

theorem noteQuiet_eq (b s : State) : noteQuiet b s =
    { s with wires := { s.wires with linksQuiet := s.wires.linksQuiet || (linksQuiet s && !linksQuiet b) } } := by
  unfold noteQuiet
  split
  next h => simp [h]
  next h => simp [h]

/-- A step of the unit with the effect `u` goes on to a state that has the unit and ATTENTION of `u`, and its messages but for the quiet
report of the links (R131). -/
theorem couFinish_spec (s u : State) : ∃ t, couFinish s u = .next t
    ∧ t.cou = u.cou ∧ t.page.attention = u.page.attention
    ∧ t.wires = { u.wires with linksQuiet := u.wires.linksQuiet || (linksQuiet t && !linksQuiet s) }
    ∧ ∀ ps, OnlyChanges ps s u → Touches (ps ++ [.wires]) s t := by
  refine ⟨settle s (noteQuiet s u), rfl, ?cou, ?attention, ?wires, ?touches⟩
  case cou => simp [noteQuiet_eq]
  case attention => simp [noteQuiet_eq]
  case wires =>
    have quiet : linksQuiet (settle s (noteQuiet s u)) = linksQuiet u := linksQuiet_congr (by simp [noteQuiet_eq])
    rw [quiet, settle_wires, noteQuiet_eq]
  case touches =>
    intro ps h
    have effect : OnlyChanges (ps ++ [.wires]) s u := h.mono fun _ m => List.mem_append_left _ m
    have noted : OnlyChanges (ps ++ [.wires]) u (noteQuiet s u) :=
      (noteQuiet_only s u).mono fun _ m => List.mem_append_right _ m
    exact (effect.trans noted).settle s

/-! ### The guards count (R140, R141) -/

/-- The saturation run after a report (R140). -/
def satRun (g : GuardReport) (s : State) : Nat :=
  if g.settings.saturationLimit < g.saturated then min 255 (s.cou.saturationRun + 1) else 0

/-- The void run after a report (R141). -/
def voidRun (g : GuardReport) (s : State) : Nat := if g.void then min 255 (s.cou.voidRun + 1) else 0

/-- The saturation run reaches its frames (R140). -/
abbrev SatHolds (g : GuardReport) (s : State) : Prop := g.settings.saturationFrames ≤ satRun g s

/-- The void run reaches its frames (R141). -/
abbrev VoidHolds (g : GuardReport) (s : State) : Prop := g.settings.voidFrames ≤ voidRun g s

/-- The unit with its two runs counted on. -/
def withRuns (g : GuardReport) (s : State) : State :=
  { s with cou := { s.cou with saturationRun := satRun g s, voidRun := voidRun g s } }

theorem countGuards_eq (g : GuardReport) (s : State) : countGuards g s =
    let s' := if SatHolds g s then addCause .guardSaturation (withRuns g s) else withRuns g s
    if VoidHolds g s then addCause .guardVoid s' else s' := by
  have sat : guardRun (g.settings.saturationLimit < g.saturated) s.cou.saturationRun = satRun g s := by
    simp only [guardRun, satRun, decide_eq_true_eq]
  have void : guardRun g.void s.cou.voidRun = voidRun g s := rfl
  simp only [countGuards, sat, void, withRuns]

theorem withRuns_cou (g : GuardReport) (s : State) :
    (withRuns g s).cou = { s.cou with saturationRun := satRun g s, voidRun := voidRun g s } := rfl

theorem addCause_withRuns_cou (c : HoldCause) (g : GuardReport) (s : State) (h : s.cou.output ≠ .quiet) :
    (addCause c (withRuns g s)).cou = { s.cou with
      saturationRun := satRun g s, voidRun := voidRun g s
      output := .held, causes := s.cou.causes.add c
      links := s.cou.links.map (MirrorLink.whenHeld (s.cou.output = .live)) } :=
  addCause_cou c (withRuns g s) h

/-- The second cause to join finds a HELD output, so only the first discards the packets that wait. -/
theorem countGuards_cou (g : GuardReport) (s : State) (h : s.cou.output ≠ .quiet) :
    (countGuards g s).cou = { s.cou with
      saturationRun := satRun g s, voidRun := voidRun g s
      output := if SatHolds g s ∨ VoidHolds g s then .held else s.cou.output
      causes := { s.cou.causes with
        guardSaturation := s.cou.causes.guardSaturation || decide (SatHolds g s)
        guardVoid := s.cou.causes.guardVoid || decide (VoidHolds g s) }
      links := s.cou.links.map (MirrorLink.whenHeld (s.cou.output = .live ∧ (SatHolds g s ∨ VoidHolds g s))) } := by
  have joined := fun c => addCause_withRuns_cou c g s h
  have held : (addCause .guardSaturation (withRuns g s)).cou.output ≠ .quiet := by simp [joined]
  rw [countGuards_eq]
  by_cases sat : SatHolds g s <;> by_cases void : VoidHolds g s
  · simp [sat, void, addCause_cou _ _ held, joined, HoldCauses.add, MirrorLink.whenHeld_false]
  · simp [sat, void, joined, HoldCauses.add]
  · simp [sat, void, joined, HoldCauses.add]
  · simp [sat, void, withRuns_cou, MirrorLink.whenHeld_false]

theorem attentionHas_countGuards (c : Cause) (g : GuardReport) (s : State) (h : s.cou.output ≠ .quiet) :
    attentionHas c (countGuards g s) = (attentionHas c s ||
      (decide (c = .held) && decide (s.cou.output = .live ∧ (SatHolds g s ∨ VoidHolds g s)))) := by
  have same : attentionHas c (withRuns g s) = attentionHas c s := rfl
  have joined := addCause_withRuns_cou .guardSaturation g s h
  have raised (d : HoldCause) : attentionHas c (addCause d (withRuns g s)) =
      (attentionHas c s || (decide (c = .held) && decide (s.cou.output = .live))) :=
    attentionHas_addCause c d (withRuns g s)
  rw [countGuards_eq]
  by_cases sat : SatHolds g s <;> by_cases void : VoidHolds g s
  · simp [sat, void, attentionHas_addCause _ _ (addCause _ _), joined, raised]
  · simp [sat, void, raised]
  · simp [sat, void, raised]
  · simp [sat, void, same]

/-! ### The report is taken -/

/-- The state with these guard reports on their way. -/
def withReports (reports : List GuardReport) (s : State) : State :=
  { s with wires := { s.wires with guardReports := reports } }

@[simp] theorem withReports_wires (reports : List GuardReport) (s : State) :
    (withReports reports s).wires = { s.wires with guardReports := reports } := rfl

theorem takeGuard_wires (g : GuardReport) (s : State) : (takeGuard g s).wires = s.wires :=
  (takeGuard_only g s).same .wires (by decide)

theorem exec_guardReport_eq {s : State} {g : GuardReport} {rest : List GuardReport} (h : s.wires.guardReports = g :: rest) :
    exec .guardReport s = couFinish s (takeGuard g (withReports rest s)) := by
  change execGuardReport s = _
  simp only [execGuardReport, h, withReports]

/-- Settles O45: the two runs count and each adds its cause (`countGuards_cou`, `attentionHas_countGuards`); the end of the step adds only
the quiet report of the links (`couFinish_spec`). -/
theorem guardReports : Obligations.GuardReports := by
  intro s g rest onItsWay
  have effect : OnlyChanges [.cou, .wires, .attention] s (takeGuard g (withReports rest s)) :=
    ((with_wires_only _ s).mono (by decide)).trans ((takeGuard_only g (withReports rest s)).mono (by decide))
  obtain ⟨t, next, cou, attention, wires, touches⟩ := couFinish_spec s (takeGuard g (withReports rest s))
  refine ⟨t, (exec_guardReport_eq onItsWay).trans next, ?touches, ?wires, ?quiet, ?counts⟩
  case touches => exact (touches _ effect).mono (by decide)
  case wires => rw [wires, takeGuard_wires, withReports_wires, quietNoted]
  case quiet =>
    intro quiet
    have only : takeGuard g (withReports rest s) = withReports rest s := if_pos quiet
    rw [only] at cou attention
    exact ⟨cou, attention⟩
  case counts =>
    intro active
    have counted : takeGuard g (withReports rest s) = countGuards g (withReports rest s) := if_neg active
    have flags : ∀ c, attentionHas c t = (attentionHas c s ||
        (decide (c = .held) && decide (s.cou.output = .live ∧ (SatHolds g s ∨ VoidHolds g s)))) := by
      intro c
      have same : attentionHas c t = attentionHas c (countGuards g (withReports rest s)) :=
        congrArg (·.getLsbD c.bit) (counted ▸ attention)
      exact same.trans (attentionHas_countGuards c g (withReports rest s) active)
    have raised : attentionHas .held t = true ↔
        attentionHas .held s = true ∨ (s.cou.output = .live ∧ (SatHolds g s ∨ VoidHolds g s)) := by
      simp [flags]
    have unit : t.cou = _ := (cou.trans (congrArg State.cou counted)).trans (countGuards_cou g (withReports rest s) active)
    refine ⟨unit, ?within, ?held, ?others⟩
    case within =>
      intro limit
      have none : satRun g s = 0 := if_neg (Nat.not_lt.mpr limit)
      exact (congrArg Cou.saturationRun unit).trans none
    case held => exact raised
    case others =>
      intro c other
      simp [flags, other]

end Sys2Proof.Machine

/-!
The attention registers (12.7: R170): ATTENTION and ATTENTION_MASK bit by bit, through a host write, a read and the resets.
-/
namespace Sys2Proof.Machine

/-! ### Host writes -/

/-- A host write clears the flags of the causes whose bit is 1. -/
theorem attentionHas_attentionWrite (c : Cause) (v : BitVec 32) (s : State) :
    attentionHas c (attentionWrite v s) = (attentionHas c s && !v.getLsbD c.bit) := by
  simp [attentionHas, attentionWrite, c.bit_lt]

theorem getLsbD_mask_maskWrite {k : Nat} (h : k < 14) (v : BitVec 32) (s : State) :
    (maskWrite v s).page.mask.getLsbD k = v.getLsbD k := by
  simp [maskWrite, h]

theorem attentionHas_settle (c : Cause) (b s : State) : attentionHas c (settle b s) = attentionHas c s := by
  simp [attentionHas]

/-! ### Reads -/

/-- Bit `k` of ATTENTION and of ATTENTION_MASK, as the page returns it. -/
theorem getLsbD_pageWord_flags {k : Nat} (h : k < 14) (s : State) :
    (pageWord s 2).getLsbD k = s.page.attention.getLsbD k ∧ (pageWord s 3).getLsbD k = s.page.mask.getLsbD k := by
  have inWord : k < 32 := by omega
  simp [pageWord, inWord]

/-! ### Resets (R178) -/

theorem beginRelease_page (s : State) :
    (beginRelease s).page.attention = s.page.attention ∧ (beginRelease s).page.mask = s.page.mask :=
  ⟨(beginRelease_only s).same .attention (by decide), (beginRelease_only s).same .mask (by decide)⟩

theorem partReset_page (s : State) :
    (partReset s).page.attention = 0 ∧ (partReset s).page.mask = s.page.mask :=
  beginRelease_page (resetBlocks s)

theorem fullReset_page (initialising : Bool) (s : State) :
    (fullReset initialising s).page.attention = 0 ∧ (fullReset initialising s).page.mask = 0 :=
  beginRelease_page _

/-- Every kind of Full Reset is `fullReset`, and POWER_ON alone leaves the initialising flag set. -/
theorem exec_fullReset {c : Instr} (h : c = .powerOn ∨ c = .fundamentalReset ∨ c = .hotReset) (s : State) :
    ∃ initialising, exec c s = .next (settle s (fullReset initialising s)) := by
  obtain rfl | rfl | rfl := h
  · exact ⟨true, rfl⟩
  · exact ⟨false, rfl⟩
  · exact ⟨false, rfl⟩

/-- Both ways to a Part Reset are `partReset`; the run command is taken only once initialisation has ended. -/
theorem exec_partReset {c : Instr} {s : State} (h : c = .functionLevelReset ∨ (c = .partReset ∧ s.run.initialising = false)) :
    exec c s = .next (settle s (partReset s)) := by
  obtain rfl | ⟨rfl, ended⟩ := h
  · rfl
  · have taken : partResetCommand s = partReset s := by simp [partResetCommand, ended]
    change finish s (partResetCommand s) = _
    rw [taken, finish]

/-- Settles O5: one law per operation on the two registers, and the end of a step (`settle`) leaves both as they are. -/
theorem attentionRegisters : Obligations.AttentionRegisters := by
  refine ⟨?raised, ?cleared, ?read, ?masked, ?fullReset, ?partReset⟩
  case raised =>
    intro c d s
    rw [attentionHas_raise, Bool.or_comm]
  case cleared =>
    intro v s
    refine ⟨settle s (attentionWrite v s), rfl, (attentionWrite_only v s).settle s, fun c => ?_⟩
    rw [attentionHas_settle, attentionHas_attentionWrite]
  case read =>
    intro s c
    exact (getLsbD_pageWord_flags c.bit_lt s).left
  case masked =>
    intro v s
    have written : ∀ k, k < 14 → (settle s (maskWrite v s)).page.mask.getLsbD k = v.getLsbD k := by
      intro k h
      rw [settle_page_mask, getLsbD_mask_maskWrite h]
    refine ⟨settle s (maskWrite v s), rfl, (maskWrite_only v s).settle s, ?enabled, fun k h => ⟨written k h, ?_⟩⟩
    case enabled => simp [maskWrite]
    exact (getLsbD_pageWord_flags h _).right.trans (written k h)
  case fullReset =>
    intro c s kind
    obtain ⟨initialising, next⟩ := exec_fullReset kind s
    obtain ⟨attention, mask⟩ := fullReset_page initialising s
    exact ⟨_, next, by rw [settle_page_attention, attention], by rw [settle_page_mask, mask]⟩
  case partReset =>
    intro c s kind
    obtain ⟨attention, mask⟩ := partReset_page s
    exact ⟨_, exec_partReset kind, by rw [settle_page_attention, attention], by rw [settle_page_mask, mask]⟩

end Sys2Proof.Machine

/-!
What every command changes (O2, O1): a command written as a register access is the command the register takes; every other command goes on
and changes only the parts listed for it (`exec_reaches`). A law that speaks of parts a command does not change is kept by it.
-/
namespace Sys2Proof.Machine

/-! ### Register accesses that are commands (R181) -/

/-- The command a whole write of a value to RUN is. -/
def runCommand (v : BitVec 32) : Instr :=
  if v = 1 then .loadAnchor else if v = 2 then .start else if v = 3 then .stop else if v = 4 then .partReset
  else .unknownCommand v

/-- The command a register access is, where the register takes one. -/
def plainCommand : Instr → Instr
  | .unknownCommand v => runCommand v
  | .registerWriteOther offset bytes =>
    let v : BitVec 32 := BitVec.ofNat 32 (leNat bytes)
    if bytes.length = 4 then
      if offset = 4 then runCommand v
      else if offset = 8 then .attentionWrite v
      else if offset = 12 then .attentionMaskWrite v
      else .registerWriteOther offset bytes
    else .registerWriteOther offset bytes
  | c => c

theorem finishAfter_self (s e : State) : finishAfter s s e = finish s e := rfl

theorem runWrite_loadAnchor (s : State) : runWrite 1 s = loadAnchor s := by
  unfold runWrite loadAnchor
  cases h : s.run.initialising <;> simp

theorem runWrite_start (s : State) : runWrite 2 s = start s := by
  unfold runWrite start
  cases h : s.run.initialising <;> simp

theorem runWrite_stop (s : State) : runWrite 3 s = stop s := by
  unfold runWrite stop
  cases h : s.run.initialising <;> simp

theorem runWrite_partReset (s : State) : runWrite 4 s = partResetCommand s := by
  unfold runWrite partResetCommand
  cases h : s.run.initialising <;> simp

/-- A whole write to RUN of any other value is refused. -/
theorem runWrite_other {v : BitVec 32} (other : v ≠ 1 ∧ v ≠ 2 ∧ v ≠ 3 ∧ v ≠ 4) (s : State) :
    runWrite v s = refuseRun (if s.run.initialising then .wrongState else .unknownCommand) s := by
  have noCommand : ¬ v = 1#32 ∧ ¬ v = 2#32 ∧ ¬ v = 3#32 ∧ ¬ v = 4#32 := other
  unfold runWrite
  cases h : s.run.initialising <;> simp [noCommand]

theorem exec_runCommand (v : BitVec 32) (s : State) : exec (runCommand v) s = execUnknownCommand v s := by
  unfold runCommand execUnknownCommand
  split
  · next h => subst h; exact congrArg (finish s) (runWrite_loadAnchor s).symm
  · split
    · next h => subst h; exact congrArg (finishAfter s (beforeStart s)) (runWrite_start _).symm
    · split
      · next h => subst h; exact congrArg (finishAfter s (beforeStop s)) (runWrite_stop _).symm
      · split
        · next h => subst h; exact congrArg (finish s) (runWrite_partReset s).symm
        · rfl

/-- A write into the register page is a command of RUN, ATTENTION or ATTENTION_MASK, or it is discarded. -/
theorem plainCommand_registerWrite (offset : Nat) (bytes : List Byte) :
    let v : BitVec 32 := BitVec.ofNat 32 (leNat bytes)
    let c := plainCommand (.registerWriteOther offset bytes)
    (c = runCommand v ∧ ∀ s, execRegisterWriteOther offset bytes s = execUnknownCommand v s)
      ∨ (c = .attentionWrite v ∧ ∀ s, execRegisterWriteOther offset bytes s = execAttentionWrite v s)
      ∨ (c = .attentionMaskWrite v ∧ ∀ s, execRegisterWriteOther offset bytes s = execAttentionMaskWrite v s)
      ∨ (c = .registerWriteOther offset bytes ∧ ∀ s, execRegisterWriteOther offset bytes s = finish s s) := by
  simp only [plainCommand, execRegisterWriteOther, pageWrite, beforePageWrite]
  by_cases word : bytes.length = 4
  · by_cases run : offset = 4
    · left; simp [word, run, execUnknownCommand]
    · by_cases attention : offset = 8
      · right; left; simp [word, attention, finishAfter_self, execAttentionWrite]
      · by_cases mask : offset = 12
        · right; right; left; simp [word, mask, finishAfter_self, execAttentionMaskWrite]
        · right; right; right; simp [word, run, attention, mask, finishAfter_self]
  · right; right; right; simp [word, finishAfter_self]

/-- A register access means what the command it is means. -/
theorem exec_plainCommand (c : Instr) (s : State) : exec (plainCommand c) s = exec c s := by
  cases c
  case unknownCommand v => exact exec_runCommand v s
  case registerWriteOther offset bytes =>
    obtain ⟨plain, same⟩ | ⟨plain, same⟩ | ⟨plain, same⟩ | ⟨plain, same⟩ := plainCommand_registerWrite offset bytes
    · rw [plain, exec_runCommand]; exact (same s).symm
    · rw [plain]; exact (same s).symm
    · rw [plain]; exact (same s).symm
    · rw [plain]
  all_goals rfl

theorem plainCommand_runCommand (v : BitVec 32) : plainCommand (runCommand v) = runCommand v := by
  unfold runCommand
  split
  · rfl
  · split
    · rfl
    · split
      · rfl
      · split
        · rfl
        · simp_all [plainCommand, runCommand]

theorem plainCommand_idem (c : Instr) : plainCommand (plainCommand c) = plainCommand c := by
  cases c
  case unknownCommand v => exact plainCommand_runCommand v
  case registerWriteOther offset bytes =>
    obtain ⟨plain, _⟩ | ⟨plain, _⟩ | ⟨plain, _⟩ | ⟨plain, _⟩ := plainCommand_registerWrite offset bytes
    · rw [plain, plainCommand_runCommand]
    · rw [plain]; rfl
    · rw [plain]; rfl
    · rw [plain, plain]
  all_goals rfl

theorem plainCommand_of_wellFormed {c : Instr} (h : c.wellFormed = true) : plainCommand c = c := by
  cases c
  case unknownCommand v => simp_all [Instr.wellFormed, plainCommand, runCommand]
  case registerWriteOther offset bytes =>
    simp only [Instr.wellFormed, isOtherWrite, ownRegister, Bool.and_eq_true, Bool.not_eq_true', Bool.and_eq_false_iff] at h
    simp only [plainCommand]
    split
    · simp_all
    · rfl
  all_goals rfl

/-- Of the commands that are no register access, the value of an unknown command is none of the four. -/
theorem unknown_of_plain {v : BitVec 32} (h : plainCommand (.unknownCommand v) = .unknownCommand v) :
    v ≠ 1 ∧ v ≠ 2 ∧ v ≠ 3 ∧ v ≠ 4 := by
  refine ⟨?_, ?_, ?_, ?_⟩ <;> rintro rfl <;> simp [plainCommand, runCommand] at h

theorem runCommand_ne_registerWrite (v : BitVec 32) (offset : Nat) (bytes : List Byte) :
    runCommand v ≠ .registerWriteOther offset bytes := by
  unfold runCommand
  split
  · nofun
  · split
    · nofun
    · split
      · nofun
      · split <;> nofun

/-- A write into the register page that is no command is discarded. -/
theorem registerWriteOther_of_plain {offset : Nat} {bytes : List Byte}
    (h : plainCommand (.registerWriteOther offset bytes) = .registerWriteOther offset bytes) (s : State) :
    execRegisterWriteOther offset bytes s = finish s s := by
  obtain ⟨plain, _⟩ | ⟨plain, _⟩ | ⟨plain, _⟩ | ⟨_, discarded⟩ := plainCommand_registerWrite offset bytes
  · exact absurd (plain.symm.trans h) (runCommand_ne_registerWrite _ _ _)
  · cases plain.symm.trans h
  · cases plain.symm.trans h
  · exact discarded s

/-! ### What an outcome reaches -/

theorem OnlyChanges.andThen {ps qs : List Part} {s t u : State} (h : OnlyChanges ps s t) (k : OnlyChanges qs t u) :
    OnlyChanges (ps ++ qs) s u :=
  (h.mono fun _ => List.mem_append_left _).trans (k.mono fun _ => List.mem_append_right _)

/-- Every part of the first list is in the second. -/
def amongParts (ps qs : List Part) : Bool := ps.all fun p => decide (p ∈ qs)

theorem OnlyChanges.among {ps qs : List Part} {s t : State} (h : OnlyChanges ps s t) (among : amongParts ps qs = true) :
    OnlyChanges qs s t :=
  h.mono fun p m => of_decide_eq_true (List.all_eq_true.mp among p m)

/-- What the effect of a command may change of the parts the reports of a step change too: the Report Unit's own events, and the message
of an earlier event (log 9). -/
def ownReportParts : Instr → List Part
  | .anchorReadDone | .frameCompletion _ | .clearStreamErrors | .setTelemetry | .writerItemEnd => [.rpu]
  | .granuleGrant _ => [.rpu, .rpuQueue]
  | .start | .stop | .linksQuietReport | .runControlIdleReport => [.msi]
  | _ => []

/-- The parts the effect of a command may change, before the reports of its step. -/
abbrev effectParts (c : Instr) : List Part := commandParts c ++ ownReportParts c

/-- The outcome is the same state, or the state the reports make of an effect that changes only these parts; a base other than the state
before is one after the message of an earlier event. -/
def Reaches (ps : List Part) (s : State) (r : Result) : Prop :=
  r = .next s ∨ ∃ p e, r = finish { s with page := p } e ∧ OnlyChanges ps s e ∧ (Part.msi ∉ ps → p = s.page)

theorem reaches_stay (ps : List Part) (s : State) : Reaches ps s (.next s) := .inl rfl

theorem reaches_finish {ps qs : List Part} {s e : State} (h : OnlyChanges ps s e) (among : amongParts ps qs = true) :
    Reaches qs s (finish s e) :=
  .inr ⟨s.page, e, rfl, h.among among, fun _ => rfl⟩

theorem reaches_finishAfter {ps qs : List Part} {s e : State} (first : State) (h : OnlyChanges ps s e)
    (among : amongParts ps qs = true) (message : qs.elem .msi = true) : Reaches qs s (finishAfter s first e) :=
  .inr ⟨first.page, e, rfl, h.among among, fun none => absurd (List.mem_of_elem_eq_true message) none⟩

theorem reaches_couFinish {ps qs : List Part} {s e : State} (h : OnlyChanges ps s e)
    (among : amongParts (ps ++ [.wires]) qs = true) : Reaches qs s (couFinish s e) :=
  reaches_finish (h.andThen (noteQuiet_only s e)) among

/-- A step touches what its effect changes. -/
theorem Reaches.touches {ps qs : List Part} {s : State} {r : Result} (h : Reaches ps s r)
    (among : amongParts ps (qs ++ reportParts) = true) : ∃ t, r = .next t ∧ Touches qs s t := by
  obtain stay | ⟨p, e, next, effect, _⟩ := h
  · exact ⟨s, stay, .refl _ s⟩
  · exact ⟨_, next, (effect.among among).trans ((settle_touches _ e).mono fun _ m => List.mem_append_right _ m)⟩

theorem with_fau_wires_only (x : Fau) (y : Wires) (s : State) : OnlyChanges [.fau, .wires] s { s with fau := x, wires := y } :=
  (with_fau_only x s).andThen (with_wires_only y _)

theorem with_fck_wires_only (x : Fck) (y : Wires) (s : State) : OnlyChanges [.fck, .wires] s { s with fck := x, wires := y } :=
  (with_fck_only x s).andThen (with_wires_only y _)

theorem with_pru_wires_only (x : Pru) (y : Wires) (s : State) : OnlyChanges [.pru, .wires] s { s with pru := x, wires := y } :=
  (with_pru_only x s).andThen (with_wires_only y _)

/-! ### Resets and run control (R172, R175 to R178) -/

theorem execInitialisationEnd_reaches (s : State) : Reaches (effectParts .initialisationEnd) s (execInitialisationEnd s) := by
  unfold execInitialisationEnd
  split
  · exact reaches_finish (endInitialisation_only s) rfl
  · exact reaches_stay _ s

theorem execAnchorReadDone_reaches (s : State) : Reaches (effectParts .anchorReadDone) s (execAnchorReadDone s) := by
  unfold execAnchorReadDone
  split
  · exact reaches_finish (anchorRead_only _ s) rfl
  · exact reaches_stay _ s

theorem execUnknownCommand_eq {v : BitVec 32} (other : v ≠ 1 ∧ v ≠ 2 ∧ v ≠ 3 ∧ v ≠ 4) (s : State) :
    execUnknownCommand v s = finish s (refuseRun (if s.run.initialising then .wrongState else .unknownCommand) s) := by
  obtain ⟨_, h2, h3, _⟩ := id other
  have first : beforeRunWrite v s = s := by simp only [beforeRunWrite, h2, h3, if_false]
  rw [execUnknownCommand, first, runWrite_other other, finishAfter_self]

theorem beforeStart_changes (s : State) : OnlyChanges (assemblyParts ++ [.msi]) s (beforeStart s) := by
  unfold beforeStart
  split
  · exact (settleRun_only s).andThen (sendMsi_only ..)
  · exact .refl _ s

theorem beforeEnd_changes (b s : State) : OnlyChanges ([.cou, .attention, .wires] ++ [.msi]) s (beforeEnd b s) := by
  unfold beforeEnd
  split
  · exact (takeGuards_only s).andThen (sendMsi_only ..)
  · exact .refl _ s

theorem beforeStop_changes (s : State) : OnlyChanges ([.cou, .attention, .wires] ++ [.msi]) s (beforeStop s) := by
  unfold beforeStop
  split
  · exact beforeEnd_changes s s
  · exact .refl _ s

theorem runReport_reaches {s u : State} (h : OnlyChanges [.wires] s u) : Reaches (drainedParts ++ [.msi]) s (runReport s u) := by
  simp only [runReport]
  split
  · exact reaches_finishAfter _ ((h.andThen (beforeEnd_changes s u)).andThen (drainingCheck_only _)) rfl rfl
  · exact reaches_finish h rfl

theorem execRunControlIdleReport_reaches (s : State) :
    Reaches (effectParts .runControlIdleReport) s (execRunControlIdleReport s) := by
  unfold execRunControlIdleReport
  split
  · exact runReport_reaches (with_wires_only _ s)
  · exact reaches_stay _ s

theorem execLinksQuietReport_reaches (s : State) : Reaches (effectParts .linksQuietReport) s (execLinksQuietReport s) := by
  unfold execLinksQuietReport
  split
  · exact runReport_reaches (with_wires_only _ s)
  · exact reaches_stay _ s

/-! ### Links and admission (01, 02) -/

theorem execSensorBlock_reaches (link : Fin 8) (sync : BitVec 2) (payload : BitVec 64) (s : State) :
    Reaches (effectParts (.sensorBlock link sync payload)) s (execSensorBlock link sync payload s) := by
  unfold execSensorBlock
  split
  · exact reaches_stay _ s
  · exact reaches_finish (portStep_only ..) rfl

theorem execPacketAdmission_reaches (link : Fin 8) (s : State) :
    Reaches (effectParts (.packetAdmission link)) s (execPacketAdmission link s) := by
  unfold execPacketAdmission
  split
  · exact reaches_stay _ s
  · exact reaches_finish ((with_wires_only _ s).andThen (admitArrival_only ..)) rfl

theorem execAsideWordReadDone_reaches (s : State) : Reaches (effectParts .asideWordReadDone) s (execAsideWordReadDone s) := by
  unfold execAsideWordReadDone
  split
  · exact reaches_stay _ s
  · exact reaches_finish ((with_wires_only _ s).andThen (asideWordRead_only ..)) rfl

theorem execAsideSlotWritten_reaches (s : State) : Reaches (effectParts .asideSlotWritten) s (execAsideSlotWritten s) := by
  unfold execAsideSlotWritten
  split
  · exact reaches_finish ((with_wires_only _ s).andThen
      ((advanceSlot_only _).andThen ((raise_only ..).andThen (leaveAside_only _)))) rfl
  · exact reaches_stay _ s

theorem execSegmentOutcome_reaches (stream : Fin 16) (s : State) :
    Reaches (effectParts (.segmentOutcome stream)) s (execSegmentOutcome stream s) := by
  unfold execSegmentOutcome
  split
  · exact reaches_stay _ s
  · exact reaches_finish ((with_wires_only _ s).andThen (takeReturned_only ..)) rfl

theorem execCutTimerExpiry_reaches (stream : Fin 16) (s : State) :
    Reaches (effectParts (.cutTimerExpiry stream)) s (execCutTimerExpiry stream s) := by
  unfold execCutTimerExpiry
  split
  · split
    · exact reaches_finish (cutStream_only ..) rfl
    · exact reaches_stay _ s
  · exact reaches_stay _ s

/-! ### The Frame Clock and Frame Assembly (03, 04) -/

theorem execPaceReport_reaches (s : State) : Reaches (effectParts .paceReport) s (execPaceReport s) := by
  unfold execPaceReport
  split
  · exact reaches_stay _ s
  · dsimp only
    split
    · exact reaches_finish ((with_wires_only _ s).andThen (takePace_only ..)) rfl
    · exact reaches_finish (with_wires_only _ s) rfl

theorem execFlywheelExpiry_reaches (s : State) : Reaches (effectParts .flywheelExpiry) s (execFlywheelExpiry s) := by
  unfold execFlywheelExpiry
  split
  · split
    · exact reaches_finish (expireFlywheel_only ..) rfl
    · exact reaches_stay _ s
  · exact reaches_stay _ s

theorem execMisinsertReport_reaches (s : State) : Reaches (effectParts .misinsertReport) s (execMisinsertReport s) := by
  unfold execMisinsertReport
  split
  · exact reaches_stay _ s
  · dsimp only
    split
    · exact reaches_finish ((with_wires_only _ s).andThen (reframeDone_only ..)) rfl
    · exact reaches_finish ((with_wires_only _ s).andThen (beginReframe_only _)) rfl

theorem execReframeRequest_reaches (s : State) : Reaches (effectParts .reframeRequest) s (execReframeRequest s) := by
  unfold execReframeRequest
  split
  · exact reaches_finish ((with_wires_only _ s).andThen
      ((abandonWaiting_only _).andThen (with_fau_wires_only _ _ _))) rfl
  · exact reaches_stay _ s

theorem execReframeConfirmation_reaches (s : State) : Reaches (effectParts .reframeConfirmation) s (execReframeConfirmation s) := by
  unfold execReframeConfirmation
  split
  · exact reaches_finish ((with_fck_wires_only _ _ s).andThen (reframeDone_only ..)) rfl
  · exact reaches_stay _ s

theorem execSegmentPlacement_reaches (stream : Fin 16) (s : State) :
    Reaches (effectParts (.segmentPlacement stream)) s (execSegmentPlacement stream s) := by
  unfold execSegmentPlacement
  split
  · exact reaches_stay _ s
  · exact reaches_finish ((with_wires_only _ s).andThen (placeHanded_only ..)) rfl

theorem execLockedExitReport_reaches (order : List (Fin 4)) (s : State) :
    Reaches (effectParts (.lockedExitReport order)) s (execLockedExitReport order s) := by
  unfold execLockedExitReport
  split
  · exact reaches_stay _ s
  · exact reaches_finish ((with_wires_only _ s).andThen (checkAll_only ..)) rfl

theorem execFrameStartTake_reaches (s : State) : Reaches (effectParts .frameStartTake) s (execFrameStartTake s) := by
  unfold execFrameStartTake
  split
  · exact reaches_stay _ s
  · exact reaches_finish ((with_wires_only _ s).andThen (takeStart_only ..)) rfl

theorem execDeadlineExpiry_reaches (record : Fin 4) (s : State) :
    Reaches (effectParts (.deadlineExpiry record)) s (execDeadlineExpiry record s) := by
  unfold execDeadlineExpiry
  split
  · split
    · exact reaches_finish (closeRecord_only ..) rfl
    · exact reaches_stay _ s
  · exact reaches_stay _ s

theorem execEngineIdleReport_reaches (s : State) : Reaches (effectParts .engineIdleReport) s (execEngineIdleReport s) := by
  unfold execEngineIdleReport
  split
  · exact reaches_finish ((with_wires_only _ s).andThen (dispatchCheck_only _)) rfl
  · exact reaches_stay _ s

/-! ### The engine and the Probe Unit (06, 07) -/

theorem execFrameTake_reaches (s : State) : Reaches (effectParts .frameTake) s (execFrameTake s) := by
  unfold execFrameTake
  split
  · exact reaches_finish ((beforeFrame_only s).andThen (takeFrame_only ..)) rfl
  · exact reaches_stay _ s

theorem execTileReadDone_reaches (s : State) : Reaches (effectParts .tileReadDone) s (execTileReadDone s) := by
  unfold execTileReadDone
  split
  · split
    · exact reaches_finish ((with_wires_only _ s).andThen (takeTile_only ..)) rfl
    · exact reaches_stay _ s
  · exact reaches_stay _ s

theorem execTileMemoryError_reaches (s : State) : Reaches (effectParts .tileMemoryError) s (execTileMemoryError s) := by
  unfold execTileMemoryError
  split
  · split
    · exact reaches_stay _ s
    · exact reaches_finish ((with_wires_only _ s).andThen (takeTileError_only ..)) rfl
  · exact reaches_stay _ s

theorem execTaintReport_reaches (s : State) : Reaches (effectParts .taintReport) s (execTaintReport s) := by
  unfold execTaintReport
  split
  · exact reaches_stay _ s
  · exact reaches_finish ((with_wires_only _ s).andThen (takeTaint_only ..)) rfl

theorem execStreamingEnd_reaches (s : State) : Reaches (effectParts .streamingEnd) s (execStreamingEnd s) := by
  unfold execStreamingEnd
  split
  · split
    · exact reaches_finish (endStreaming_only ..) rfl
    · exact reaches_stay _ s
  · exact reaches_stay _ s

theorem execProbeRequest_reaches (s : State) : Reaches (effectParts .probeRequest) s (execProbeRequest s) := by
  unfold execProbeRequest
  split
  · split
    · exact reaches_finish ((takeNotices_only s).andThen (supplyProbe_only ..)) rfl
    · exact reaches_stay _ s
  · exact reaches_stay _ s

theorem execFrameCompletion_reaches (late : List (Fin 1024)) (s : State) :
    Reaches (effectParts (.frameCompletion late)) s (execFrameCompletion late s) := by
  unfold execFrameCompletion
  split
  · split
    · exact reaches_couFinish ((takeGuards_only s).andThen (completeFrame_only ..)) rfl
    · exact reaches_stay _ s
  · exact reaches_stay _ s

theorem execIntegratorChange_reaches (s : State) : Reaches (effectParts .integratorChange) s (execIntegratorChange s) := by
  unfold execIntegratorChange
  split
  · exact reaches_stay _ s
  · exact reaches_finish ((with_wires_only _ s).andThen (takeChange_only ..)) rfl

theorem execSafeShapeRequest_reaches (s : State) : Reaches (effectParts .safeShapeRequest) s (execSafeShapeRequest s) := by
  unfold execSafeShapeRequest
  split
  · exact reaches_stay _ s
  · exact reaches_finish ((with_wires_only _ s).andThen (takeChange_only ..)) rfl

theorem noticeStep_reaches (committed : Bool) (s : State) : Reaches [.pru, .wires] s (noticeStep committed s) := by
  unfold noticeStep
  split
  · exact reaches_stay _ s
  · split
    · exact reaches_finish (with_pru_wires_only _ _ s) rfl
    · exact reaches_stay _ s

theorem execProbeCopyReadDone_reaches (s : State) : Reaches (effectParts .probeCopyReadDone) s (execProbeCopyReadDone s) := by
  unfold execProbeCopyReadDone
  split
  · split
    · exact reaches_finish (copyReturned_only ..) rfl
    · exact reaches_stay _ s
  · exact reaches_stay _ s

/-! ### The Command Output Unit (08) -/

theorem execGuardReport_reaches (s : State) : Reaches (effectParts .guardReport) s (execGuardReport s) := by
  unfold execGuardReport
  split
  · exact reaches_stay _ s
  · exact reaches_couFinish ((with_wires_only _ s).andThen (takeGuard_only ..)) rfl

theorem execCommandPacketComplete_reaches (link : Fin 4) (s : State) :
    Reaches (effectParts (.commandPacketComplete link)) s (execCommandPacketComplete link s) := by
  unfold execCommandPacketComplete
  split
  · split
    · exact reaches_couFinish (commandSent_only ..) rfl
    · exact reaches_stay _ s
  · exact reaches_stay _ s

theorem execSafePacketComplete_reaches (link : Fin 4) (s : State) :
    Reaches (effectParts (.safePacketComplete link)) s (execSafePacketComplete link s) := by
  unfold execSafePacketComplete
  split
  · split
    · exact reaches_couFinish (safeSent_only ..) rfl
    · exact reaches_stay _ s
  · exact reaches_stay _ s

theorem execTrailerEnd_reaches (link : Fin 4) (s : State) : Reaches (effectParts (.trailerEnd link)) s (execTrailerEnd link s) := by
  unfold execTrailerEnd
  split
  · exact reaches_couFinish (mapLink_only ..) rfl
  · exact reaches_stay _ s

theorem execMirrorBlock_reaches (link : Fin 4) (sync : BitVec 2) (payload : BitVec 64) (s : State) :
    Reaches (effectParts (.mirrorBlock link sync payload)) s (execMirrorBlock link sync payload s) := by
  unfold execMirrorBlock
  split
  · exact reaches_stay _ s
  · exact reaches_couFinish (mirrorStep_only ..) rfl

theorem execAcceptTimeout_reaches (link : Fin 4) (s : State) :
    Reaches (effectParts (.acceptTimeout link)) s (execAcceptTimeout link s) := by
  unfold execAcceptTimeout
  split
  · split
    · exact reaches_couFinish (miss_only ..) rfl
    · exact reaches_stay _ s
  · exact reaches_stay _ s

theorem execInterlockRelease_reaches (s : State) : Reaches (effectParts .interlockRelease) s (execInterlockRelease s) := by
  unfold execInterlockRelease
  split
  · split
    · exact reaches_finish (releaseInterlock_only s) rfl
    · exact reaches_stay _ s
  · exact reaches_stay _ s

theorem execInterlockReleaseInterrupted_reaches (s : State) :
    Reaches (effectParts .interlockReleaseInterrupted) s (execInterlockReleaseInterrupted s) := by
  unfold execInterlockReleaseInterrupted
  split
  · exact reaches_finish (with_cou_only _ s) rfl
  · exact reaches_stay _ s

/-! ### The Directive Unit (09) -/

theorem execScanTimerExpiry_reaches (s : State) : Reaches (effectParts .scanTimerExpiry) s (execScanTimerExpiry s) := by
  unfold execScanTimerExpiry
  split
  · split
    · dsimp only
      split
      · exact reaches_finish ((with_du_only _ s).andThen (readExpected_only _)) rfl
      · exact reaches_finish (with_du_only _ s) rfl
    · exact reaches_stay _ s
  · exact reaches_stay _ s

theorem execSlotReadReturn_reaches (s : State) : Reaches (effectParts .slotReadReturn) s (execSlotReadReturn s) := by
  unfold execSlotReadReturn
  split
  · exact reaches_finish (judgeSlot_only ..) rfl
  · exact reaches_stay _ s

theorem execAdoptEdition_reaches (s : State) : Reaches (effectParts .adoptEdition) s (execAdoptEdition s) := by
  unfold execAdoptEdition
  split
  · exact reaches_finish (adoptEdition_only _ s) rfl
  · exact reaches_stay _ s

theorem execAmendGroups_reaches (s : State) : Reaches (effectParts .amendGroups) s (execAmendGroups s) := by
  unfold execAmendGroups
  split
  · exact reaches_finish (amendGroups_only _ s) rfl
  · exact reaches_stay _ s

theorem execRetireRange_reaches (s : State) : Reaches (effectParts .retireRange) s (execRetireRange s) := by
  unfold execRetireRange
  split
  · exact reaches_finish (retireRange_only _ s) rfl
  · exact reaches_stay _ s

theorem execEnableStreams_reaches (s : State) : Reaches (effectParts .enableStreams) s (execEnableStreams s) := by
  unfold execEnableStreams
  split
  · exact reaches_finish (enableStreams_only _ s) rfl
  · exact reaches_stay _ s

theorem execDisableStreams_reaches (s : State) : Reaches (effectParts .disableStreams) s (execDisableStreams s) := by
  unfold execDisableStreams
  split
  · exact reaches_finish (disableStreams_only _ s) rfl
  · exact reaches_stay _ s

theorem execClearStreamErrors_reaches (s : State) : Reaches (effectParts .clearStreamErrors) s (execClearStreamErrors s) := by
  unfold execClearStreamErrors
  split
  · exact reaches_finish (clearStreamErrors_only _ s) rfl
  · exact reaches_stay _ s

theorem execSetPace_reaches (s : State) : Reaches (effectParts .setPace) s (execSetPace s) := by
  unfold execSetPace
  split
  · exact reaches_finish (setPace_only _ s) rfl
  · exact reaches_stay _ s

theorem execLoadSafeShape_reaches (s : State) : Reaches (effectParts .loadSafeShape) s (execLoadSafeShape s) := by
  unfold execLoadSafeShape
  split
  · exact reaches_finish (loadSafeShape_only _ s) rfl
  · exact reaches_stay _ s

theorem execResumeOutput_reaches (s : State) : Reaches (effectParts .resumeOutput) s (execResumeOutput s) := by
  unfold execResumeOutput
  split
  · exact reaches_finish (resumeOutput_only _ s) rfl
  · exact reaches_stay _ s

theorem execSetProbeCycle_reaches (s : State) : Reaches (effectParts .setProbeCycle) s (execSetProbeCycle s) := by
  unfold execSetProbeCycle
  split
  · exact reaches_finish (setProbeCycle_only _ s) rfl
  · exact reaches_stay _ s

theorem execDrain_reaches (s : State) : Reaches (effectParts .drain) s (execDrain s) := by
  unfold execDrain
  split
  · exact reaches_finish (drain_only _ s) rfl
  · exact reaches_stay _ s

theorem execSetTelemetry_reaches (s : State) : Reaches (effectParts .setTelemetry) s (execSetTelemetry s) := by
  unfold execSetTelemetry
  split
  · exact reaches_finish (setTelemetry_only _ s) rfl
  · exact reaches_stay _ s

theorem execHoldOutput_reaches (s : State) : Reaches (effectParts .holdOutput) s (execHoldOutput s) := by
  unfold execHoldOutput
  split
  · exact reaches_couFinish (holdOutput_only _ s) rfl
  · exact reaches_stay _ s

theorem execRepointTileSet_reaches (s : State) : Reaches (effectParts .repointTileSet) s (execRepointTileSet s) := by
  unfold execRepointTileSet
  split
  · split
    · exact reaches_stay _ s
    · exact reaches_finish (repointTileSet_only _ s) rfl
  · exact reaches_stay _ s

theorem execRepointTileRemove_reaches (s : State) : Reaches (effectParts .repointTileRemove) s (execRepointTileRemove s) := by
  unfold execRepointTileRemove
  split
  · split
    · exact reaches_finish (repointTileRemove_only _ s) rfl
    · exact reaches_stay _ s
  · exact reaches_stay _ s

theorem execSetStream_reaches (s : State) : Reaches (effectParts .setStream) s (execSetStream s) := by
  unfold execSetStream
  split
  · split
    · exact reaches_stay _ s
    · exact reaches_finish (setStreamForm_only _ s) rfl
  · exact reaches_stay _ s

theorem execSetAsideFlag_reaches (s : State) : Reaches (effectParts .setAsideFlag) s (execSetAsideFlag s) := by
  unfold execSetAsideFlag
  split
  · split
    · exact reaches_finish (setAsideFlag_only _ s) rfl
    · exact reaches_stay _ s
  · exact reaches_stay _ s

theorem execInjectProbe_reaches (s : State) : Reaches (effectParts .injectProbe) s (execInjectProbe s) := by
  unfold execInjectProbe
  split
  · split
    · exact reaches_stay _ s
    · exact reaches_finish (injectProbe_only _ s) rfl
  · exact reaches_stay _ s

theorem execInjectProbeCancel_reaches (s : State) : Reaches (effectParts .injectProbeCancel) s (execInjectProbeCancel s) := by
  unfold execInjectProbeCancel
  split
  · split
    · exact reaches_finish (injectProbeCancel_only _ s) rfl
    · exact reaches_stay _ s
  · exact reaches_stay _ s

theorem execResetIntegratorZero_reaches (s : State) : Reaches (effectParts .resetIntegratorZero) s (execResetIntegratorZero s) := by
  unfold execResetIntegratorZero
  split
  · split
    · exact reaches_finish (resetIntegratorZero_only _ s) rfl
    · exact reaches_stay _ s
  · exact reaches_stay _ s

theorem execResetIntegratorVector_reaches (s : State) :
    Reaches (effectParts .resetIntegratorVector) s (execResetIntegratorVector s) := by
  unfold execResetIntegratorVector
  split
  · split
    · exact reaches_stay _ s
    · exact reaches_finish (resetIntegratorVector_only _ s) rfl
  · exact reaches_stay _ s

theorem execEditionLoadReadDone_reaches (s : State) : Reaches (effectParts .editionLoadReadDone) s (execEditionLoadReadDone s) := by
  unfold execEditionLoadReadDone
  split
  · split
    · exact reaches_finish ((raise_only ..).andThen (failLoad_only ..)) rfl
    · exact reaches_finish (loadBytes_only ..) rfl
  · exact reaches_stay _ s

theorem execSafeShapeReadDone_reaches (s : State) : Reaches (effectParts .safeShapeReadDone) s (execSafeShapeReadDone s) := by
  unfold execSafeShapeReadDone
  split
  · exact reaches_finish (vectorRead_only (ps := handParts ++ [.attention, .cou])
      (fun vs s => (installShape_only _ vs s).mono (by decide)) (by decide) _ s) rfl
  · exact reaches_stay _ s

theorem execIntegratorVectorReadDone_reaches (s : State) :
    Reaches (effectParts .integratorVectorReadDone) s (execIntegratorVectorReadDone s) := by
  unfold execIntegratorVectorReadDone
  split
  · exact reaches_finish (vectorRead_only (ps := handParts ++ [.attention, .wires])
      (fun vs s => ((handChange_only vs s).andThen (done_only ..)).mono (by decide)) (by decide) _ s) rfl
  · exact reaches_stay _ s

theorem execInjectPatternReadDone_reaches (s : State) :
    Reaches (effectParts .injectPatternReadDone) s (execInjectPatternReadDone s) := by
  unfold execInjectPatternReadDone
  split
  · exact reaches_finish (patternReturned_only ..) rfl
  · exact reaches_stay _ s

theorem execOwnerEndReport_reaches (s : State) : Reaches (effectParts .ownerEndReport) s (execOwnerEndReport s) := by
  unfold execOwnerEndReport
  split
  · exact reaches_stay _ s
  · exact reaches_finish ((with_wires_only _ s).andThen (takeOwnerEnd_only ..)) rfl

theorem execSlotReleaseReport_reaches (s : State) : Reaches (effectParts .slotReleaseReport) s (execSlotReleaseReport s) := by
  unfold execSlotReleaseReport
  split
  · exact reaches_finish ((with_wires_only _ s).andThen (takeRelease_only _)) rfl
  · exact reaches_stay _ s

theorem execRecordFreedReport_reaches (s : State) : Reaches (effectParts .recordFreedReport) s (execRecordFreedReport s) := by
  unfold execRecordFreedReport
  split
  · exact reaches_stay _ s
  · exact reaches_finish ((with_wires_only _ s).andThen ((mapDrains_only ..).andThen (settleDrains_only _))) rfl

theorem execDrainIdleReport_reaches (s : State) : Reaches (effectParts .drainIdleReport) s (execDrainIdleReport s) := by
  unfold execDrainIdleReport
  split
  · exact reaches_finish (takeIdleAtDu_only s) rfl
  · exact reaches_stay _ s

theorem execTelemetryWrittenReport_reaches (s : State) :
    Reaches (effectParts .telemetryWrittenReport) s (execTelemetryWrittenReport s) := by
  unfold execTelemetryWrittenReport
  split
  · exact reaches_stay _ s
  · exact reaches_finish ((with_wires_only _ s).andThen (settleDrains_only _)) rfl

theorem execOutcomeWriteDone_reaches (s : State) : Reaches (effectParts .outcomeWriteDone) s (execOutcomeWriteDone s) := by
  unfold execOutcomeWriteDone
  split
  · exact reaches_stay _ s
  · exact reaches_finish ((with_wires_only _ s).andThen (settleTickets_only ..)) rfl

theorem execWriterItemEnd_reaches (s : State) : Reaches (effectParts .writerItemEnd) s (execWriterItemEnd s) := by
  unfold execWriterItemEnd
  split
  · exact reaches_finish (endItem_only s) rfl
  · exact reaches_stay _ s

/-! ### Every command -/

/-- An access of the host lies in the window; other commands make no access of their own. -/
def insideWindow : Instr → Bool
  | .hostXmRead offset n => inWindow offset n
  | .hostXmWrite offset bytes => inWindow offset bytes.length
  | _ => true

theorem insideWindow_of_wellFormed {c : Instr} (h : c.wellFormed = true) : insideWindow c = true := by
  cases c
  case hostXmRead | hostXmWrite => exact h
  all_goals rfl

theorem execHostXmRead_inside {offset n : Nat} (h : inWindow offset n = true) (s : State) :
    execHostXmRead offset n s = finish s (hostRead offset n s) := if_pos h

theorem execHostXmWrite_inside {offset : Nat} {bytes : List Byte} (h : inWindow offset bytes.length = true) (s : State) :
    execHostXmWrite offset bytes s = finish s (hostWrite offset bytes s) := if_pos h

theorem execHostXmRead_outside {offset n : Nat} (h : inWindow offset n = false) (s : State) :
    execHostXmRead offset n s = .fault .outsideWindow := if_neg (by simp [h])

theorem execHostXmWrite_outside {offset : Nat} {bytes : List Byte} (h : inWindow offset bytes.length = false) (s : State) :
    execHostXmWrite offset bytes s = .fault .outsideWindow := if_neg (by simp [h])

theorem insideWindow_of_next {c : Instr} {s t : State} (h : exec c s = .next t) : insideWindow c = true := by
  cases c
  case hostXmRead offset n =>
    cases inside : inWindow offset n with
    | true => exact inside
    | false => exact absurd ((execHostXmRead_outside inside s).symm.trans h) nofun
  case hostXmWrite offset bytes =>
    cases inside : inWindow offset bytes.length with
    | true => exact inside
    | false => exact absurd ((execHostXmWrite_outside inside s).symm.trans h) nofun
  all_goals rfl

/-- A command that is no register access and makes no access outside the window goes on, and its effect changes the parts listed for it. -/
theorem exec_reaches {c : Instr} (plain : plainCommand c = c) (inside : insideWindow c = true) (s : State) :
    Reaches (effectParts c) s (exec c s) := by
  cases c
  case unknownCommand v =>
    change Reaches _ s (execUnknownCommand v s)
    rw [execUnknownCommand_eq (unknown_of_plain plain)]
    exact reaches_finish (refuseRun_only _ s) rfl
  case registerWriteOther offset bytes =>
    change Reaches _ s (execRegisterWriteOther offset bytes s)
    rw [registerWriteOther_of_plain plain]
    exact reaches_finish (.refl [] s) rfl
  case hostXmRead offset n =>
    change Reaches _ s (execHostXmRead offset n s)
    rw [execHostXmRead_inside inside]
    exact reaches_finish (hostRead_only ..) rfl
  case hostXmWrite offset bytes =>
    change Reaches _ s (execHostXmWrite offset bytes s)
    rw [execHostXmWrite_inside inside]
    exact reaches_finish (hostWrite_only ..) rfl
  case powerOn => exact reaches_finish (fullReset_only true s) rfl
  case fundamentalReset => exact reaches_finish (fullReset_only false s) rfl
  case hotReset => exact reaches_finish (fullReset_only false s) rfl
  case functionLevelReset => exact reaches_finish (partReset_only s) rfl
  case partReset => exact reaches_finish (partResetCommand_only s) rfl
  case initialisationEnd => exact execInitialisationEnd_reaches s
  case loadAnchor => exact reaches_finish (loadAnchor_only s) rfl
  case anchorReadDone => exact execAnchorReadDone_reaches s
  case start => exact reaches_finishAfter _ ((beforeStart_changes s).andThen (start_only _)) rfl rfl
  case stop => exact reaches_finishAfter _ ((beforeStop_changes s).andThen (stop_only _)) rfl rfl
  case runControlIdleReport => exact execRunControlIdleReport_reaches s
  case linksQuietReport => exact execLinksQuietReport_reaches s
  case sensorBlock link sync payload => exact execSensorBlock_reaches link sync payload s
  case packetAdmission link => exact execPacketAdmission_reaches link s
  case asideWordReadDone => exact execAsideWordReadDone_reaches s
  case asideSlotWritten => exact execAsideSlotWritten_reaches s
  case segmentOutcome stream => exact execSegmentOutcome_reaches stream s
  case cutTimerExpiry stream => exact execCutTimerExpiry_reaches stream s
  case paceReport => exact execPaceReport_reaches s
  case flywheelExpiry => exact execFlywheelExpiry_reaches s
  case misinsertReport => exact execMisinsertReport_reaches s
  case reframeRequest => exact execReframeRequest_reaches s
  case reframeConfirmation => exact execReframeConfirmation_reaches s
  case segmentPlacement stream => exact execSegmentPlacement_reaches stream s
  case lockedExitReport order => exact execLockedExitReport_reaches order s
  case frameStartTake => exact execFrameStartTake_reaches s
  case deadlineExpiry record => exact execDeadlineExpiry_reaches record s
  case engineIdleReport => exact execEngineIdleReport_reaches s
  case frameTake => exact execFrameTake_reaches s
  case tileReadDone => exact execTileReadDone_reaches s
  case tileMemoryError => exact execTileMemoryError_reaches s
  case taintReport => exact execTaintReport_reaches s
  case streamingEnd => exact execStreamingEnd_reaches s
  case probeRequest => exact execProbeRequest_reaches s
  case frameCompletion late => exact execFrameCompletion_reaches late s
  case integratorChange => exact execIntegratorChange_reaches s
  case safeShapeRequest => exact execSafeShapeRequest_reaches s
  case commitNotice => exact noticeStep_reaches true s
  case completionWithoutCommit => exact noticeStep_reaches false s
  case probeCopyReadDone => exact execProbeCopyReadDone_reaches s
  case guardReport => exact execGuardReport_reaches s
  case commandPacketComplete link => exact execCommandPacketComplete_reaches link s
  case safePacketComplete link => exact execSafePacketComplete_reaches link s
  case trailerEnd link => exact execTrailerEnd_reaches link s
  case mirrorSignalLoss link => exact reaches_finish (mirrorStep_only ..) rfl
  case mirrorSignalPresent link => exact reaches_finish (mapLink_only ..) rfl
  case mirrorBlock link sync payload => exact execMirrorBlock_reaches link sync payload s
  case acceptTimeout link => exact execAcceptTimeout_reaches link s
  case interlockAssertion => exact reaches_couFinish (assertInterlock_only s) rfl
  case interlockInputsReleased => exact reaches_finish ((with_cou_only _ s).andThen (beginRelease_only _)) rfl
  case interlockRelease => exact execInterlockRelease_reaches s
  case interlockReleaseInterrupted => exact execInterlockReleaseInterrupted_reaches s
  case scanTimerExpiry => exact execScanTimerExpiry_reaches s
  case slotReadReturn => exact execSlotReadReturn_reaches s
  case adoptEdition => exact execAdoptEdition_reaches s
  case amendGroups => exact execAmendGroups_reaches s
  case retireRange => exact execRetireRange_reaches s
  case enableStreams => exact execEnableStreams_reaches s
  case disableStreams => exact execDisableStreams_reaches s
  case clearStreamErrors => exact execClearStreamErrors_reaches s
  case setPace => exact execSetPace_reaches s
  case loadSafeShape => exact execLoadSafeShape_reaches s
  case resumeOutput => exact execResumeOutput_reaches s
  case setProbeCycle => exact execSetProbeCycle_reaches s
  case drain => exact execDrain_reaches s
  case setTelemetry => exact execSetTelemetry_reaches s
  case holdOutput => exact execHoldOutput_reaches s
  case repointTileSet => exact execRepointTileSet_reaches s
  case repointTileRemove => exact execRepointTileRemove_reaches s
  case setStream => exact execSetStream_reaches s
  case setAsideFlag => exact execSetAsideFlag_reaches s
  case injectProbe => exact execInjectProbe_reaches s
  case injectProbeCancel => exact execInjectProbeCancel_reaches s
  case resetIntegratorZero => exact execResetIntegratorZero_reaches s
  case resetIntegratorVector => exact execResetIntegratorVector_reaches s
  case editionLoadReadDone => exact execEditionLoadReadDone_reaches s
  case safeShapeReadDone => exact execSafeShapeReadDone_reaches s
  case integratorVectorReadDone => exact execIntegratorVectorReadDone_reaches s
  case injectPatternReadDone => exact execInjectPatternReadDone_reaches s
  case ownerEndReport => exact execOwnerEndReport_reaches s
  case slotReleaseReport => exact execSlotReleaseReport_reaches s
  case recordFreedReport => exact execRecordFreedReport_reaches s
  case drainIdleReport => exact execDrainIdleReport_reaches s
  case telemetryWrittenReport => exact execTelemetryWrittenReport_reaches s
  case outcomeWriteDone => exact execOutcomeWriteDone_reaches s
  case writerItemEnd => exact execWriterItemEnd_reaches s
  case attentionWrite v => exact reaches_finish (attentionWrite_only v s) rfl
  case attentionMaskWrite v => exact reaches_finish (maskWrite_only v s) rfl
  case granuleGrant met => exact reaches_finish ((takeTaints_only s).andThen (grant_only met _)) rfl
  case signalLoss link => exact reaches_finish (portStep_only ..) rfl
  case signalPresent link => exact reaches_finish (mapPort_only ..) rfl

theorem amongParts_iff {ps qs : List Part} : amongParts ps qs = true ↔ ∀ p ∈ ps, p ∈ qs := by
  simp [amongParts]

theorem ownReportParts_reports (c : Instr) : ∀ p ∈ ownReportParts c, p ∈ reportParts := by
  cases c <;> exact amongParts_iff.mp rfl

/-- A command that goes on touches the parts listed for it. -/
theorem exec_touches {c : Instr} (plain : plainCommand c = c) (inside : insideWindow c = true) (s : State) :
    ∃ t, exec c s = .next t ∧ Touches (commandParts c) s t := by
  refine (exec_reaches plain inside s).touches (amongParts_iff.mpr fun p m => ?_)
  obtain named | report := List.mem_append.mp m
  · exact List.mem_append_left _ named
  · exact List.mem_append_right _ (ownReportParts_reports c p report)

theorem touches_of_next {c : Instr} (plain : plainCommand c = c) {s t : State} (h : exec c s = .next t) :
    Touches (commandParts c) s t := by
  obtain ⟨u, next, touches⟩ := exec_touches plain (insideWindow_of_next h) s
  cases next.symm.trans h
  exact touches

/-- No command changes the queue, or enables or disables MSI, and only a Full Reset changes the time base. -/
theorem commandParts_without (c : Instr) :
    Part.pending ∉ commandParts c ++ reportParts ∧ Part.msiEnabled ∉ commandParts c ++ reportParts
      ∧ (c ≠ .powerOn → c ≠ .fundamentalReset → c ≠ .hotReset → Part.time ∉ commandParts c ++ reportParts) := by
  cases c
  case powerOn | fundamentalReset | hotReset => exact ⟨by decide, by decide, fun h1 h2 h3 => by contradiction⟩
  all_goals exact ⟨of_decide_eq_false rfl, of_decide_eq_false rfl, fun _ _ _ => of_decide_eq_false rfl⟩

/-- Settles O2: the frame of every command (`exec_touches`), and the parts no list names (`commandParts_without`). -/
theorem everyCommandChangesOnlyItsParts : Obligations.EveryCommandChangesOnlyItsParts := by
  intro c s wf
  obtain ⟨t, next, touches⟩ := exec_touches (plainCommand_of_wellFormed wf) (insideWindow_of_wellFormed wf) s
  obtain ⟨queue, enabled, base⟩ := commandParts_without c
  exact ⟨t, next, touches, touches.same .pending queue, touches.same .msiEnabled enabled,
    fun h1 h2 h3 => touches.same .time (base h1 h2 h3)⟩

/-- Settles O1: both halves of `step`, the empty queue with a microsecond of the time base. -/
theorem stepTakesTheFront : Obligations.StepTakesTheFront := by
  refine ⟨fun c rest s front => ?_, fun s empty => ⟨s.tick, ?_, with_time_only _ s, rfl⟩⟩
  · simp only [step, front]
  · simp only [step, empty]

end Sys2Proof.Machine

/-!
Laws every step keeps: a law that speaks of some parts alone is kept by every command that does not change them, so that only the commands
that do need a proof (`SpeaksOf.step`).
-/
namespace Sys2Proof.Machine

/-- A law speaks of some parts alone: a state where these are as they were obeys it too. -/
def SpeaksOf (ps : List Part) (law : State → Prop) : Prop := ∀ s t, (∀ p ∈ ps, p.Same s t) → law s → law t

/-- No part is in both lists. -/
def apartParts (ps qs : List Part) : Bool := ps.all fun p => !decide (p ∈ qs)

theorem apartParts_iff {ps qs : List Part} : apartParts ps qs = true ↔ ∀ p ∈ ps, p ∉ qs := by
  simp [apartParts]

/-- Every next state of an outcome obeys a law. -/
def Keeps (law : State → Prop) (r : Result) : Prop := ∀ t, r = .next t → law t

section
variable {law : State → Prop} {ps qs : List Part} {s e : State}

theorem keeps_stay (h : law s) : Keeps law (.next s) := by
  rintro t ⟨rfl⟩
  exact h

theorem keeps_finish {b : State} (h : law (settle b e)) : Keeps law (finish b e) := by
  rintro t ⟨rfl⟩
  exact h

theorem SpeaksOf.of_only (speaks : SpeaksOf ps law) (only : OnlyChanges qs s e) (apart : apartParts ps qs = true) (h : law s) :
    law e :=
  speaks s e (fun p m => only.same p (apartParts_iff.mp apart p m)) h

/-- Beside the effect, a step changes only the reports. -/
theorem SpeaksOf.finish (speaks : SpeaksOf ps law) (apart : apartParts ps reportParts = true) (b : State) (h : law e) :
    Keeps law (finish b e) :=
  keeps_finish (speaks.of_only (settle_touches b e) apart h)

theorem SpeaksOf.couFinish (speaks : SpeaksOf ps law) (apart : apartParts ps (.wires :: reportParts) = true) (b : State) (h : law e) :
    Keeps law (couFinish b e) := by
  have both : OnlyChanges (.wires :: reportParts) e (settle b (noteQuiet b e)) :=
    (noteQuiet_only b e).andThen (settle_touches b (noteQuiet b e))
  exact keeps_finish (speaks.of_only both apart h)

/-- Every step keeps a law that the commands changing its parts keep: the others, and the passing of time, leave its parts. -/
theorem SpeaksOf.step (speaks : SpeaksOf ps law) (apart : apartParts ps (.pending :: .time :: reportParts) = true)
    (kept : ∀ c s, plainCommand c = c → apartParts ps (commandParts c) = false → law s → Keeps law (exec c s)) (s t : State)
    (h : law s) (next : Machine.step s = .next t) : law t := by
  have notQueue := apartParts_iff.mp apart
  cases queue : s.pending with
  | nil =>
    obtain ⟨t', next', only, _⟩ := stepTakesTheFront.2 s queue
    cases next'.symm.trans next
    exact speaks s t (fun p m => only.same p fun time => notQueue p m (by simp_all)) h
  | cons c rest =>
    have taken : exec (plainCommand c) (s.withPending rest) = .next t := by
      rw [exec_plainCommand, ← stepTakesTheFront.1 c rest s queue, next]
    have before : law (s.withPending rest) := by
      refine speaks s _ (fun p m => ?_) h
      have other : p ≠ .pending := fun queue => notQueue p m (by simp [queue])
      cases p <;> first | exact absurd rfl other | exact rfl | exact ⟨rfl, rfl⟩
    cases changes : apartParts ps (commandParts (plainCommand c)) with
    | false => exact kept _ _ (plainCommand_idem c) changes before t taken
    | true =>
      have touches := touches_of_next (plainCommand_idem c) taken
      refine speaks _ t (fun p m => touches.same p fun changed => ?_) before
      obtain command | report := List.mem_append.mp changed
      · exact apartParts_iff.mp changes p m command
      · exact notQueue p m (by simp [report])

end

/-! ### Exchange Memory (log 5) -/

theorem memoryLaw_speaksOf : SpeaksOf [.xm] MemoryLaw := by
  intro s t same h
  have xm : t.xm = s.xm := same .xm (by decide)
  exact (congrArg (fun m => Memory.wf m = true) xm).mpr h

theorem grantTile_keeps_wf (met : CellError) (key granule : Nat) {s : State} (h : MemoryLaw s) :
    MemoryLaw (grantTile met key granule s) := by
  unfold grantTile
  split
  · exact memoryLaw_speaksOf.of_only (mapFrame_only _ s) rfl h
  · dsimp only
    refine memoryLaw_speaksOf.of_only (((meetError_only ..).andThen (readGranule_only ..)).andThen
      ((with_wires_only _ _).andThen (mapFrame_only ..))) rfl h

theorem grantRotation_keeps_wf (met : CellError) {s : State} (h : MemoryLaw s) : MemoryLaw (grantRotation met s) := by
  unfold grantRotation
  split
  · exact h
  · split
    · exact h
    · refine perform_keeps_wf _ _ (memoryLaw_speaksOf.of_only (meetError_only ..) rfl ?_)
      exact h

theorem grant_keeps_wf (met : CellError) {s : State} (h : MemoryLaw s) : MemoryLaw (grant met s) := by
  unfold grant
  split
  · exact grantRotation_keeps_wf met h
  · split
    · exact grantTile_keeps_wf met _ _ h
    · split
      · exact grantTile_keeps_wf met _ _ h
      · exact grantRotation_keeps_wf met h

/-- Settles O56: only a grant writes memory (`grant_keeps_wf`), and the end of initialisation clears it. -/
theorem stepsKeepMemory : Obligations.StepsKeepMemory := by
  refine memoryLaw_speaksOf.step rfl fun c s plain changes h => ?_
  cases c
  case granuleGrant met =>
    have taken : MemoryLaw (takeTaints s) := memoryLaw_speaksOf.of_only (takeTaints_only s) rfl h
    exact memoryLaw_speaksOf.finish rfl s (grant_keeps_wf met taken)
  case initialisationEnd =>
    have cleared : MemoryLaw (endInitialisation s) := by
      refine memoryLaw_speaksOf.of_only (beginRelease_only _) rfl ?_
      exact reset_memory_wf
    change Keeps MemoryLaw (execInitialisationEnd s)
    unfold execInitialisationEnd
    split
    · exact memoryLaw_speaksOf.finish rfl s cleared
    · exact keeps_stay h
  all_goals exact absurd (show true = false from changes) nofun

end Sys2Proof.Machine

/-!
The output state and the hold causes (08: R130): every operation of the Command Output Unit and of run control keeps their law.
-/
namespace Sys2Proof.Machine

/-! ### What the law sees -/

/-- What the law of the output state speaks of. -/
def holdView (s : State) : OutputState × HoldCauses × RunState := (s.cou.output, s.cou.causes, s.run.state)

theorem HoldLaw.congr {s t : State} (h : HoldLaw s) (same : holdView t = holdView s) : HoldLaw t := by
  obtain ⟨held, quiet, causes⟩ := h
  simp only [holdView, Prod.mk.injEq] at same
  obtain ⟨output, set, state⟩ := same
  exact ⟨by rw [output, set, state]; exact held, by rw [output, state]; exact quiet, by rw [output, set]; exact causes⟩

theorem holdLaw_speaksOf : SpeaksOf [.cou, .run] HoldLaw := by
  intro s t same h
  have cou : t.cou = s.cou := same .cou (by decide)
  have run : t.run = s.run := same .run (by decide)
  exact h.congr (by rw [holdView, cou, run, holdView])

theorem holdLaw_live {s : State} (output : s.cou.output = .live) (causes : s.cou.causes = {}) (active : s.run.state.active) :
    HoldLaw s := by
  constructor <;> simp [output, causes, active, HoldCauses.any]

theorem holdLaw_held {s : State} (output : s.cou.output = .held) (causes : s.cou.causes.any = true) (active : s.run.state.active) :
    HoldLaw s := by
  constructor <;> simp [output, causes, active]

theorem holdLaw_quiet {s : State} (output : s.cou.output = .quiet) (causes : s.cou.causes = {}) (inactive : ¬ s.run.state.active) :
    HoldLaw s := by
  constructor <;> simp [output, causes, inactive]

theorem HoldLaw.active_of_loud {s : State} (h : HoldLaw s) (loud : s.cou.output ≠ .quiet) : s.run.state.active := by
  by_contra inactive
  exact loud (h.quiet.mpr inactive)

theorem HoldLaw.inactive {s : State} (h : HoldLaw s) (inactive : ¬ s.run.state.active) :
    s.cou.output = .quiet ∧ s.cou.causes = {} :=
  have quiet := h.quiet.mpr inactive
  ⟨quiet, h.quietCauses quiet⟩

/-- A change between two states of the same kind, active or not, keeps the law. -/
theorem HoldLaw.of_active {s t : State} (h : HoldLaw s) (cou : t.cou = s.cou) (active : t.run.state.active ↔ s.run.state.active) :
    HoldLaw t := by
  obtain ⟨held, quiet, causes⟩ := h
  exact ⟨by rw [cou, active]; exact held, by rw [cou, active]; exact quiet, by rw [cou]; exact causes⟩

theorem HoldCauses.any_add (c : HoldCauses) (x : HoldCause) : (c.add x).any = true := by
  cases x <;> simp [HoldCauses.add, HoldCauses.any]

/-! ### Operations that leave output state and causes -/

theorem holdView_foldl {α : Type} {f : State → α → State} (same : ∀ s a, holdView (f s a) = holdView s) (as : List α) (s : State) :
    holdView (as.foldl f s) = holdView s := by
  induction as generalizing s with
  | nil => rfl
  | cons a as ih => exact (ih (f s a)).trans (same s a)

theorem holdView_passSafePackets (s : State) : holdView (passSafePackets s) = holdView s := by
  refine holdView_foldl (fun s l => ?_) _ s
  split <;> rfl

theorem holdView_holdAction (s : State) : holdView (holdAction s) = holdView s := by
  unfold holdAction
  split
  · rfl
  · exact holdView_passSafePackets _

theorem holdView_takeVector (f : Frame) (o : List Int) (x : LinkSettings) (s : State) : holdView (takeVector f o x s) = holdView s := by
  refine holdView_foldl (fun s l => ?_) _ _
  split <;> rfl

theorem holdView_commitFrame (f : FrameContext) (e : Edition) (rs : List ActuatorResult) (s : State) :
    holdView (commitFrame f e rs s) = holdView s :=
  holdView_takeVector ..

/-- Of the completion of a frame only its command packets reach the Command Output Unit. -/
theorem completeFrame_after (late : List (Fin 1024)) (f : FrameContext) (s : State) :
    ∃ u, (u = s ∨ ∃ e rs, u = commitFrame f e rs s) ∧ OnlyChanges [.rce, .rpu, .wires, .watch] u (completeFrame late f s) := by
  simp only [completeFrame]
  refine ⟨_, ?_, ((noticeProbe_only ..).andThen ((handTelemetry_only ..).andThen ((reportGuards_only ..).andThen
    ((OnlyChanges.foldl (fun s c => applyChange_only c s) _ _).andThen (endFrame_only _))))).among rfl⟩
  split
  · exact .inr ⟨_, _, rfl⟩
  · exact .inl rfl

theorem completeFrame_keeps_hold (late : List (Fin 1024)) (f : FrameContext) {s : State} (h : HoldLaw s) :
    HoldLaw (completeFrame late f s) := by
  obtain ⟨u, rfl | ⟨e, rs, rfl⟩, only⟩ := completeFrame_after late f s
  · exact holdLaw_speaksOf.of_only only rfl h
  · exact holdLaw_speaksOf.of_only only rfl (h.congr (holdView_commitFrame ..))

/-! ### Operations that add or release a cause -/

theorem mapLink_keeps_hold (l : Fin 4) (f : MirrorLink → MirrorLink) {s : State} (h : HoldLaw s) : HoldLaw (mapLink l f s) :=
  h.congr rfl

theorem raise_keeps_hold (c : Cause) {s : State} (h : HoldLaw s) : HoldLaw (raise c s) := h.congr rfl

theorem emit_keeps_hold (p : Packet) {s : State} (h : HoldLaw s) : HoldLaw (emit p s) := h.congr rfl

theorem requestSafeShape_keeps_hold (p : Packet) {s : State} (h : HoldLaw s) : HoldLaw (requestSafeShape p s) := h.congr rfl

theorem addCause_keeps_hold (c : HoldCause) {s : State} (h : HoldLaw s) : HoldLaw (addCause c s) := by
  unfold addCause
  split
  · exact h
  · next held => exact holdLaw_held rfl (HoldCauses.any_add ..) (h.active_of_loud (by simp [held]))
  · next live => exact holdLaw_held rfl (HoldCauses.any_add ..) (h.active_of_loud (by simp [live]))

theorem miss_keeps_hold (l : Fin 4) (m : Miss) {s : State} (h : HoldLaw s) : HoldLaw (miss l m s) := by
  have counted : HoldLaw (mapLink l (fun x => { x.count (LinkCounts.miss m) with window := .idle }) s) := h.congr rfl
  simp only [miss]
  split
  · split
    · exact raise_keeps_hold _ (addCause_keeps_hold .driver (mapLink_keeps_hold l _ counted))
    · exact mapLink_keeps_hold l _ counted
  · exact counted

theorem openWindow_keeps_hold (l : Fin 4) (k : PacketKind) (n : BitVec 16) {s : State} (h : HoldLaw s) :
    HoldLaw (openWindow l k n s) := by
  simp only [openWindow]
  split
  · exact h.congr rfl
  · exact (miss_keeps_hold l .superseded h).congr rfl

theorem takeToken_keeps_hold (l : Fin 4) (t : Token) {s : State} (h : HoldLaw s) : HoldLaw (takeToken l t s) := by
  unfold takeToken
  split
  · split
    · split
      · exact h.congr rfl
      · exact miss_keeps_hold l .rejected h
    · exact h.congr rfl
  · exact h.congr rfl

theorem law_foldl {α : Type} {law : State → Prop} {f : State → α → State} (keeps : ∀ s a, law s → law (f s a)) (as : List α)
    {s : State} (h : law s) : law (as.foldl f s) := by
  induction as generalizing s with
  | nil => exact h
  | cons a as ih => exact ih (keeps s a h)

theorem mirrorEvent_keeps_hold (l : Fin 4) (s : State) (e : LineEvent) (h : HoldLaw s) : HoldLaw (mirrorEvent l s e) := by
  unfold mirrorEvent
  split
  · exact h.congr rfl
  · split
    · exact takeToken_keeps_hold l _ h
    · exact h.congr rfl
  · exact h

theorem mirrorStep_keeps_hold (l : Fin 4) (x : Receiver × List LineEvent) {s : State} (h : HoldLaw s) :
    HoldLaw (mirrorStep l x s) :=
  law_foldl (mirrorEvent_keeps_hold l) x.2 (h.congr rfl)

theorem commandSent_keeps_hold (l : Fin 4) (p : Packet) {s : State} (h : HoldLaw s) : HoldLaw (commandSent l p s) :=
  mapLink_keeps_hold l _ (openWindow_keeps_hold l .command p.number (mapLink_keeps_hold l _ (emit_keeps_hold p h)))

theorem safeSent_keeps_hold (l : Fin 4) (p : Packet) {s : State} (h : HoldLaw s) : HoldLaw (safeSent l p s) :=
  mapLink_keeps_hold l _ (openWindow_keeps_hold l .safe p.number
    (requestSafeShape_keeps_hold p (mapLink_keeps_hold l _ (emit_keeps_hold p h))))

theorem takeGuard_keeps_hold (g : GuardReport) {s : State} (h : HoldLaw s) : HoldLaw (takeGuard g s) := by
  have counted : HoldLaw (withRuns g s) := h.congr rfl
  unfold takeGuard
  split
  · exact h
  · simp only [countGuards_eq]
    split
    · split
      · exact addCause_keeps_hold _ (addCause_keeps_hold _ counted)
      · exact addCause_keeps_hold _ counted
    · split
      · exact addCause_keeps_hold _ counted
      · exact counted

theorem takeGuards_keeps_hold {s : State} (h : HoldLaw s) : HoldLaw (takeGuards s) :=
  have taken := law_foldl (f := fun s g => takeGuard g s) (fun _ g => takeGuard_keeps_hold g) s.wires.guardReports h
  taken.congr rfl

theorem assertInterlock_keeps_hold {s : State} (h : HoldLaw s) : HoldLaw (assertInterlock s) := by
  have level : HoldLaw (setInterlock .asserted .asserted none s) := h.congr rfl
  simp only [assertInterlock]
  split
  · exact ((addCause_keeps_hold .interlock level).congr rfl).congr (holdView_holdAction _)
  · exact level

theorem releaseInterlock_keeps_hold {s : State} (h : HoldLaw s) : HoldLaw (releaseInterlock s) := by
  simp only [releaseInterlock]
  split
  · next held =>
    have active : s.run.state.active := (h.held.mp held).2
    simp only [releaseHold]
    split
    · split
      · next left => exact holdLaw_held rfl left active
      · next none =>
        have empty : ({ s.cou.causes with interlock := false } : HoldCauses) = {} := by
          simp_all [HoldCauses.any]
        exact holdLaw_live rfl empty active
    · exact holdLaw_held rfl (HoldCauses.any_add ..) active
  · exact h.congr rfl

theorem beginRelease_keeps_hold {s : State} (h : HoldLaw s) : HoldLaw (beginRelease s) := by
  unfold beginRelease
  split
  · exact h.congr rfl
  · exact h

/-! ### Directives of the output -/

theorem resumeOutput_keeps_hold (x : Hand) {s : State} (h : HoldLaw s) : HoldLaw (resumeOutput x s) := by
  unfold resumeOutput
  split
  · exact holdLaw_speaksOf.of_only (refuseField_only s) rfl h
  · split
    · exact holdLaw_speaksOf.of_only (refuseState_only s) rfl h
    · next accepted =>
      have running : s.run.state = .running := by simp_all [isRunning]
      exact holdLaw_speaksOf.of_only (done_only ..) rfl (holdLaw_live rfl rfl (.inl running))

theorem holdOutput_keeps_hold (x : Hand) {s : State} (h : HoldLaw s) : HoldLaw (holdOutput x s) := by
  unfold holdOutput
  split
  · exact holdLaw_speaksOf.of_only (refuseField_only s) rfl h
  · split
    · exact holdLaw_speaksOf.of_only (refuseState_only s) rfl h
    · exact holdLaw_speaksOf.of_only (done_only ..) rfl (addCause_keeps_hold .directive h)

theorem vectorRead_keeps {law : State → Prop} {ps : List Part} (speaks : SpeaksOf ps law)
    (apart : apartParts ps [.du, .duQueue, .attention] = true) {use : List Int → State → State}
    (keeps : ∀ vs s, law s → law (use vs s)) (j : ReadJob) {s : State} (h : law s) : law (vectorRead j use s) := by
  have fails : ∀ c d u, OnlyChanges [.du, .duQueue, .attention] s u → law (endHand c d u) := fun c d u only =>
    speaks.of_only (only.andThen (endHand_only c d u)) (apartParts_iff.mpr fun p m => by
      have := apartParts_iff.mp apart p m
      simp_all) h
  simp only [vectorRead]
  split
  · exact fails _ _ _ ((raise_only ..).mono (by decide))
  · split
    · exact fails _ _ _ (.refl _ s)
    · exact keeps _ s h

theorem installShape_keeps_hold (x : Hand) (vs : List Int) {s : State} (h : HoldLaw s) : HoldLaw (installShape x vs s) :=
  holdLaw_speaksOf.of_only (done_only ..) rfl (h.congr rfl)

/-! ### Run control and resets -/

theorem anchorRead_keeps_hold (j : ReadJob) {s : State} (halted : s.run.state = .halted) (h : HoldLaw s) :
    HoldLaw (anchorRead j s) := by
  unfold anchorRead
  split
  · exact h.congr rfl
  · split
    · exact h.of_active rfl (by simp [takeAnchor, RunState.active, halted])
    · exact h.congr rfl

theorem startCou_holds (x : LinkSettings) (s : State) :
    (startCou x s).cou.output = .live ∧ (startCou x s).cou.causes = {}
      ∨ (startCou x s).cou.output = .held ∧ (startCou x s).cou.causes.any = true := by
  simp only [startCou]
  split
  · exact .inl ⟨rfl, rfl⟩
  · have same := fun u : State => holdView_holdAction u
    simp only [holdView, Prod.mk.injEq] at same
    exact .inr ⟨(same _).1, (congrArg HoldCauses.any (same _).2.1).trans rfl⟩

theorem beginRun_hold (e : Edition) (s : State) : HoldLaw (beginRun e s) := by
  have cou : (beginRun e s).cou = (startCou e.links (startBlocks (startStreams s))).cou := enterRun_cou ..
  have running : (beginRun e s).run.state = .running := by simp [beginRun]
  obtain ⟨live, none⟩ | ⟨held, any⟩ := startCou_holds e.links (startBlocks (startStreams s))
  · exact holdLaw_live (by rw [cou, live]) (by rw [cou, none]) (.inl running)
  · exact holdLaw_held (by rw [cou, held]) (by rw [cou, any]) (.inl running)

theorem refuseRun_keeps_hold (c : RunRefusal) {s : State} (h : HoldLaw s) : HoldLaw (refuseRun c s) := h.congr rfl

theorem start_keeps_hold {s : State} (h : HoldLaw s) : HoldLaw (start s) := by
  unfold start
  split
  · split
    · split
      · exact beginRun_hold _ s
      · exact refuseRun_keeps_hold _ h
    · exact refuseRun_keeps_hold _ h
  · exact refuseRun_keeps_hold _ h

theorem armScanAgain_run (s : State) : (armScanAgain s).run = s.run := (armScanAgain_only s).same .run (by decide)

theorem armScanAgain_cou (s : State) : (armScanAgain s).cou = s.cou := (armScanAgain_only s).same .cou (by decide)

theorem endDraining_hold (s : State) : HoldLaw (endDraining s) := by
  have cou : (endDraining s).cou = (quietCou s).cou := armScanAgain_cou _
  have output : (quietCou s).cou.output = .quiet := by simp [quietCou]
  have causes : (quietCou s).cou.causes = {} := by simp [quietCou]
  exact holdLaw_quiet (by rw [cou, output]) (by rw [cou, causes]) (by simp [endDraining, RunState.active])

theorem drainingCheck_keeps_hold {s : State} (h : HoldLaw s) : HoldLaw (drainingCheck s) := by
  unfold drainingCheck
  split
  · exact endDraining_hold s
  · exact h

theorem beforeEnd_keeps_hold (b : State) {s : State} (h : HoldLaw s) : HoldLaw (beforeEnd b s) := by
  unfold beforeEnd
  split
  · exact holdLaw_speaksOf.of_only (sendMsi_only ..) rfl (takeGuards_keeps_hold h)
  · exact h

theorem beforeStop_keeps_hold {s : State} (h : HoldLaw s) : HoldLaw (beforeStop s) := by
  unfold beforeStop
  split
  · exact beforeEnd_keeps_hold s h
  · exact h

theorem enterRun_draining_keeps_hold {s : State} (running : s.run.state = .running) (h : HoldLaw s) :
    HoldLaw (enterRun .draining s) :=
  h.of_active rfl (by simp [running, RunState.active])

theorem beginDraining_keeps_hold {s : State} (running : s.run.state = .running) (h : HoldLaw s) : HoldLaw (beginDraining s) := by
  have work : OnlyChanges [.sau, .wires, .fck, .fau, .rce, .pru, .du, .duQueue] s
      (stopBlocks (stopDu (abandonWaiting (stopStreams (takeOwnerEnds s))))) :=
    ((takeOwnerEnds_only s).andThen ((stopStreams_only _).andThen ((abandonWaiting_only _).andThen ((stopDu_only _).andThen
      (stopBlocks_only _))))).among rfl
  have state : (stopBlocks (stopDu (abandonWaiting (stopStreams (takeOwnerEnds s))))).run.state = .running :=
    (congrArg Run.state (work.same .run (by decide))).trans running
  exact drainingCheck_keeps_hold (enterRun_draining_keeps_hold state (holdLaw_speaksOf.of_only work rfl h))

theorem stop_keeps_hold {s : State} (h : HoldLaw s) : HoldLaw (stop s) := by
  unfold stop
  split
  · next accepted => exact beginDraining_keeps_hold (by simp_all) h
  · exact refuseRun_keeps_hold _ h

theorem runReport_keeps_hold {s u : State} (h : HoldLaw u) : Keeps HoldLaw (runReport s u) := by
  simp only [runReport]
  split
  · exact holdLaw_speaksOf.finish rfl _ (drainingCheck_keeps_hold (beforeEnd_keeps_hold s h))
  · exact holdLaw_speaksOf.finish rfl _ h

theorem partReset_hold (s : State) : HoldLaw (partReset s) := by
  have quiet : HoldLaw (resetBlocks s) := holdLaw_quiet rfl rfl (by simp [resetBlocks, RunState.active])
  exact beginRelease_keeps_hold quiet

theorem partResetCommand_keeps_hold {s : State} (h : HoldLaw s) : HoldLaw (partResetCommand s) := by
  unfold partResetCommand
  split
  · exact refuseRun_keeps_hold _ h
  · exact partReset_hold s

theorem fullReset_hold (b : Bool) (s : State) : HoldLaw (fullReset b s) := by
  refine beginRelease_keeps_hold (holdLaw_quiet ?_ ?_ ?_) <;> simp [Cou.fullReset, RunState.active]

theorem loadAnchor_keeps_hold {s : State} (h : HoldLaw s) : HoldLaw (loadAnchor s) := by
  unfold loadAnchor
  split
  · exact h.congr rfl
  · exact refuseRun_keeps_hold _ h

theorem endInitialisation_keeps_hold {s : State} (h : HoldLaw s) : HoldLaw (endInitialisation s) :=
  beginRelease_keeps_hold (h.congr rfl)

/-! ### Every step -/

/-- Settles O57: each command that changes the Command Output Unit or the run state keeps the law by the lemma of its operation. -/
theorem stepsKeepHold : Obligations.StepsKeepHold := by
  have finish : ∀ {e : State} (b : State), HoldLaw e → Keeps HoldLaw (Machine.finish b e) := fun b => holdLaw_speaksOf.finish rfl b
  have couFinish : ∀ {e : State} (b : State), HoldLaw e → Keeps HoldLaw (Machine.couFinish b e) := fun b =>
    holdLaw_speaksOf.couFinish rfl b
  refine holdLaw_speaksOf.step rfl fun c s plain changes h => ?_
  have wired : ∀ w : Wires, HoldLaw { s with wires := w } := fun w => h.congr rfl
  cases c
  case powerOn | fundamentalReset | hotReset => exact finish s (fullReset_hold _ s)
  case functionLevelReset => exact finish s (partReset_hold s)
  case partReset => exact finish s (partResetCommand_keeps_hold h)
  case loadAnchor => exact finish s (loadAnchor_keeps_hold h)
  case start =>
    exact finish _ (start_keeps_hold (holdLaw_speaksOf.of_only (beforeStart_changes s) rfl h))
  case stop => exact finish _ (stop_keeps_hold (beforeStop_keeps_hold h))
  case unknownCommand v =>
    change Keeps HoldLaw (execUnknownCommand v s)
    rw [execUnknownCommand_eq (unknown_of_plain plain)]
    exact finish s (refuseRun_keeps_hold _ h)
  case initialisationEnd =>
    change Keeps HoldLaw (execInitialisationEnd s)
    unfold execInitialisationEnd
    split
    · exact finish s (endInitialisation_keeps_hold h)
    · exact keeps_stay h
  case anchorReadDone =>
    change Keeps HoldLaw (execAnchorReadDone s)
    unfold execAnchorReadDone
    split
    · next halted _ _ => exact finish s (anchorRead_keeps_hold _ halted h)
    · exact keeps_stay h
  case frameCompletion late =>
    change Keeps HoldLaw (execFrameCompletion late s)
    unfold execFrameCompletion
    split
    · split
      · exact couFinish s (completeFrame_keeps_hold late _ (takeGuards_keeps_hold h))
      · exact keeps_stay h
    · exact keeps_stay h
  case guardReport =>
    change Keeps HoldLaw (execGuardReport s)
    unfold execGuardReport
    split
    · exact keeps_stay h
    · exact couFinish s (takeGuard_keeps_hold _ (wired _))
  case commandPacketComplete link =>
    change Keeps HoldLaw (execCommandPacketComplete link s)
    unfold execCommandPacketComplete
    split
    · split
      · exact couFinish s (commandSent_keeps_hold link _ h)
      · exact keeps_stay h
    · exact keeps_stay h
  case safePacketComplete link =>
    change Keeps HoldLaw (execSafePacketComplete link s)
    unfold execSafePacketComplete
    split
    · split
      · exact couFinish s (safeSent_keeps_hold link _ h)
      · exact keeps_stay h
    · exact keeps_stay h
  case trailerEnd link =>
    change Keeps HoldLaw (execTrailerEnd link s)
    unfold execTrailerEnd
    split
    · exact couFinish s (h.congr rfl)
    · exact keeps_stay h
  case mirrorSignalLoss link => exact finish s (mirrorStep_keeps_hold link _ h)
  case mirrorSignalPresent link => exact finish s (h.congr rfl)
  case mirrorBlock link sync payload =>
    change Keeps HoldLaw (execMirrorBlock link sync payload s)
    unfold execMirrorBlock
    split
    · exact keeps_stay h
    · exact couFinish s (mirrorStep_keeps_hold link _ h)
  case acceptTimeout link =>
    change Keeps HoldLaw (execAcceptTimeout link s)
    unfold execAcceptTimeout
    split
    · split
      · exact couFinish s (miss_keeps_hold link .timeout h)
      · exact keeps_stay h
    · exact keeps_stay h
  case interlockAssertion => exact couFinish s (assertInterlock_keeps_hold h)
  case interlockInputsReleased => exact finish s (beginRelease_keeps_hold (h.congr rfl))
  case interlockRelease =>
    change Keeps HoldLaw (execInterlockRelease s)
    unfold execInterlockRelease
    split
    · split
      · exact finish s (releaseInterlock_keeps_hold h)
      · exact keeps_stay h
    · exact keeps_stay h
  case interlockReleaseInterrupted =>
    change Keeps HoldLaw (execInterlockReleaseInterrupted s)
    unfold execInterlockReleaseInterrupted
    split
    · exact finish s (h.congr rfl)
    · exact keeps_stay h
  case linksQuietReport =>
    change Keeps HoldLaw (execLinksQuietReport s)
    unfold execLinksQuietReport
    split
    · exact runReport_keeps_hold (wired _)
    · exact keeps_stay h
  case runControlIdleReport =>
    change Keeps HoldLaw (execRunControlIdleReport s)
    unfold execRunControlIdleReport
    split
    · exact runReport_keeps_hold (wired _)
    · exact keeps_stay h
  case resumeOutput =>
    change Keeps HoldLaw (execResumeOutput s)
    unfold execResumeOutput
    split
    · exact finish s (resumeOutput_keeps_hold _ h)
    · exact keeps_stay h
  case holdOutput =>
    change Keeps HoldLaw (execHoldOutput s)
    unfold execHoldOutput
    split
    · exact couFinish s (holdOutput_keeps_hold _ h)
    · exact keeps_stay h
  case safeShapeReadDone =>
    change Keeps HoldLaw (execSafeShapeReadDone s)
    unfold execSafeShapeReadDone
    split
    · exact finish s (vectorRead_keeps holdLaw_speaksOf rfl (fun vs _ => installShape_keeps_hold _ vs) _ h)
    · exact keeps_stay h
  all_goals exact absurd (show true = false from changes) nofun

end Sys2Proof.Machine

/-!
The Edition Slots (05: R78, R79, R81, R84, R85, R90): how each operation moves the slots, the load in progress and the mark, and that every
step keeps their law.
-/
namespace Sys2Proof.Machine

/-! ### The slots by their identifiers -/

@[simp] theorem slotOf_setSlot (i j : SlotId) (x : Slot) (s : State) :
    slotOf (setSlot i x s) j = if i = j then x else slotOf s j := by
  cases i <;> cases j <;> rfl

@[simp] theorem slotOf_setLoad (i : SlotId) (l : Option Load) (s : State) : slotOf (setLoad l s) i = slotOf s i := by
  cases i <;> rfl

theorem setSlot_rce_others (i : SlotId) (x : Slot) (s : State) :
    (setSlot i x s).rce.load = s.rce.load ∧ (setSlot i x s).rce.inUse = s.rce.inUse
      ∧ (setSlot i x s).rce.state = s.rce.state := by
  cases i <;> exact ⟨rfl, rfl, rfl⟩

theorem setSlot_watch (i : SlotId) (x : Slot) (s : State) : (setSlot i x s).watch = s.watch :=
  (setSlot_only i x s).same .watch (by decide)

theorem slotOf_freeSlot {s : State} {i : SlotId} (h : freeSlot s = some i) : slotOf s i = .empty := by
  unfold freeSlot at h
  split at h
  · next empty =>
    cases h
    cases x : s.rce.slotA <;> simp_all [Slot.isEmpty, slotOf]
  · split at h
    · next empty =>
      cases h
      cases x : s.rce.slotB <;> simp_all [Slot.isEmpty, slotOf]
    · cases h

theorem slotOf_currentSlot {s : State} {i : SlotId} {e : Edition} (h : currentSlot s = some (i, e)) :
    slotOf s i = .current e := by
  unfold currentSlot at h
  split at h
  · next a => cases h; exact a
  · next b _ => cases h; exact b
  · cases h

theorem not_current_of_none {s : State} (h : currentSlot s = none) (i : SlotId) : ¬ (slotOf s i).isCurrent := by
  unfold currentSlot at h
  split at h
  · cases h
  · cases h
  · next a b =>
    intro current
    cases i <;> simp only [slotOf] at current
    · cases x : s.rce.slotA <;> simp_all [Slot.isCurrent]
    · cases x : s.rce.slotB <;> simp_all [Slot.isCurrent]

theorem watchMap_congr {a b c d : Slot} (ha : a.watched.map Edition.granules = c.watched.map Edition.granules)
    (hb : b.watched.map Edition.granules = d.watched.map Edition.granules) : watchMap a b = watchMap c d := by
  simp only [watchMap, ha, hb]

/-! ### The law in two halves -/

/-- The half of the law the engine and the Range Watch map obey. -/
structure EngineLaw (s : State) : Prop where
  current : ∀ i j, (slotOf s i).isCurrent → (slotOf s j).isCurrent → i = j
  retained : ∀ i, (slotOf s i).isRetained → s.rce.inUse = some i ∧ s.rce.state ≠ .idle
  loading : ∀ i, (slotOf s i).isLoading ↔ s.rce.load.map Load.slot = some i
  idle : s.rce.state = .idle → s.rce.inUse = none
  watch : s.watch = watchMap (slotOf s .a) (slotOf s .b)

/-- The half that binds a load to the directive in hand. -/
structure HandLaw (s : State) : Prop where
  working : s.rce.load.isSome → ∃ h, s.du.hand = some h ∧ h.phase = .working ∧ (h.kind = 1 ∨ h.kind = 2)
  halted : s.run.state = .halted → s.du.expected = none ∧ s.du.hand = none

/-- The law of the Edition Slots, with what the steps need beside it. -/
def EditionLaw (s : State) : Prop := EngineLaw s ∧ HandLaw s

theorem editionLaw_iff (s : State) : EditionLaw s ↔ SlotLaw s ∧ LoadLaw s := by
  constructor
  · rintro ⟨⟨current, retained, loading, idle, watch⟩, working, halted⟩
    refine ⟨⟨fun both => ?_, fun both => ?_, retained⟩, loading, working, idle, watch, halted⟩
    · exact absurd (current .a .b both.1 both.2) nofun
    · have a := (loading .a).mp both.1
      have b := (loading .b).mp both.2
      exact absurd (a.symm.trans b) nofun
  · rintro ⟨⟨oneCurrent, _, retained⟩, loading, working, idle, watch, halted⟩
    refine ⟨⟨fun i j hi hj => ?_, retained, loading, idle, watch⟩, working, halted⟩
    cases i <;> cases j
    · rfl
    · exact absurd ⟨hi, hj⟩ oneCurrent
    · exact absurd ⟨hj, hi⟩ oneCurrent
    · rfl

/-- What the engine's half speaks of. -/
def engineView (s : State) : Slot × Slot × Option SlotId × Option SlotId × EngineState × Store Watched :=
  (s.rce.slotA, s.rce.slotB, s.rce.load.map Load.slot, s.rce.inUse, s.rce.state, s.watch)

theorem EngineLaw.congr {s t : State} (h : EngineLaw s) (same : engineView t = engineView s) : EngineLaw t := by
  obtain ⟨current, retained, loading, idle, watch⟩ := h
  simp only [engineView, Prod.mk.injEq] at same
  obtain ⟨a, b, load, mark, state, map⟩ := same
  have slots : ∀ i, slotOf t i = slotOf s i := by
    rintro (_ | _)
    · exact a
    · exact b
  constructor
  · simpa only [slots] using current
  · simpa only [slots, mark, state] using retained
  · simpa only [slots, load] using loading
  · simpa only [mark, state] using idle
  · simpa only [slots, map] using watch

/-- What the other half speaks of. -/
def handView (s : State) : Bool × Option Hand × Option Ticket × RunState :=
  (s.rce.load.isSome, s.du.hand, s.du.expected, s.run.state)

theorem HandLaw.congr {s t : State} (h : HandLaw s) (same : handView t = handView s) : HandLaw t := by
  obtain ⟨working, halted⟩ := h
  simp only [handView, Prod.mk.injEq] at same
  obtain ⟨load, hand, expected, state⟩ := same
  exact ⟨by rw [load, hand]; exact working, by rw [state, expected, hand]; exact halted⟩

theorem engineLaw_speaksOf : SpeaksOf [.rce, .watch] EngineLaw := by
  intro s t same h
  have rce : t.rce = s.rce := same .rce (by decide)
  have watch : t.watch = s.watch := same .watch (by decide)
  exact h.congr (by rw [engineView, rce, watch, engineView])

theorem handLaw_speaksOf : SpeaksOf [.rce, .du, .run] HandLaw := by
  intro s t same h
  have rce : t.rce = s.rce := same .rce (by decide)
  have du : t.du = s.du := same .du (by decide)
  have run : t.run = s.run := same .run (by decide)
  exact h.congr (by rw [handView, rce, du, run, handView])

theorem editionLaw_speaksOf : SpeaksOf [.rce, .watch, .du, .run] EditionLaw := by
  rintro s t same ⟨engine, hand⟩
  exact ⟨engineLaw_speaksOf s t (fun p m => same p (by simp_all; tauto)) engine,
    handLaw_speaksOf s t (fun p m => same p (by simp_all; tauto)) hand⟩

/-- An operation of the engine that leaves the slots, the load, the mark and the state. -/
theorem EditionLaw.mapRce {s : State} (h : EditionLaw s) (f : Rce → Rce) (engine : engineView (Machine.mapRce f s) = engineView s)
    (load : (f s.rce).load = s.rce.load) : EditionLaw (Machine.mapRce f s) :=
  ⟨h.1.congr engine, h.2.congr (by simp [handView, load])⟩

/-! ### Free for any directive: no load in progress, and not HALTED -/

/-- No load is in progress, and the part is not HALTED: the law then says nothing of the Directive Unit. -/
def FreeOfLoad (s : State) : Prop := s.rce.load = none ∧ s.run.state ≠ .halted

theorem FreeOfLoad.handLaw {s : State} (h : FreeOfLoad s) : HandLaw s :=
  ⟨by simp [h.1], fun halted => absurd halted h.2⟩

theorem freeOfLoad_speaksOf : SpeaksOf [.rce, .run] FreeOfLoad := by
  rintro s t same ⟨load, state⟩
  have rce : t.rce = s.rce := same .rce (by decide)
  have run : t.run = s.run := same .run (by decide)
  exact ⟨by rw [rce]; exact load, by rw [run]; exact state⟩

/-- A part that is free keeps the law through any change that leaves the engine, the map and the run state. -/
theorem EditionLaw.of_free {s t : State} {ps : List Part} (h : EditionLaw s) (free : FreeOfLoad s) (only : OnlyChanges ps s t)
    (apart : apartParts [.rce, .watch, .run] ps = true) : EditionLaw t := by
  have none := apartParts_iff.mp apart
  exact ⟨engineLaw_speaksOf.of_only only (apartParts_iff.mpr fun p m => none p (by simp_all; tauto)) h.1,
    (freeOfLoad_speaksOf.of_only only (apartParts_iff.mpr fun p m => none p (by simp_all; tauto)) free).handLaw⟩

/-- A directive in hand that no owner loads for means no load is in progress. -/
theorem HandLaw.free {s : State} {x : Hand} (h : HandLaw s) (hand : s.du.hand = some x)
    (other : ¬ (x.phase = .working ∧ (x.kind = 1 ∨ x.kind = 2))) : FreeOfLoad s := by
  constructor
  · cases load : s.rce.load with
    | none => rfl
    | some l =>
      obtain ⟨y, hy, working⟩ := h.working (by simp [load])
      cases hy.symm.trans hand
      exact absurd working other
  · intro halted
    exact absurd ((h.halted halted).2.symm.trans hand) nofun

theorem takenHand_some {kind : Nat} {s : State} {x : Hand} (h : takenHand kind s = some x) :
    s.du.hand = some x ∧ x.phase = .taken ∧ x.kind = kind := by
  unfold takenHand at h
  cases hand : s.du.hand with
  | none => simp [hand] at h
  | some y =>
    simp only [hand] at h
    split at h
    · next both =>
      cases h
      obtain ⟨phase, kinds⟩ : x.phase = .taken ∧ x.kind = kind := by simpa using both
      exact ⟨rfl, phase, kinds⟩
    · cases h

theorem workingHand_some {kinds : List Nat} {s : State} {x : Hand} (h : workingHand kinds s = some x) :
    s.du.hand = some x ∧ x.phase = .working ∧ x.kind ∈ kinds := by
  unfold workingHand at h
  cases hand : s.du.hand with
  | none => simp [hand] at h
  | some y =>
    simp only [hand] at h
    split at h
    · next both =>
      cases h
      obtain ⟨phase, kind⟩ : x.phase = .working ∧ x.kind ∈ kinds := by simpa using both
      exact ⟨rfl, phase, kind⟩
    · cases h

theorem HandLaw.free_of_taken {kind : Nat} {s : State} {x : Hand} (h : HandLaw s) (taken : takenHand kind s = some x) :
    FreeOfLoad s := by
  obtain ⟨hand, phase, _⟩ := takenHand_some taken
  exact h.free hand (by simp [phase])

theorem HandLaw.free_of_working {kinds : List Nat} {s : State} {x : Hand} (h : HandLaw s) (working : workingHand kinds s = some x)
    (other : 1 ∉ kinds ∧ 2 ∉ kinds) : FreeOfLoad s := by
  obtain ⟨hand, _, kind⟩ := workingHand_some working
  refine h.free hand ?_
  rintro ⟨_, one | two⟩
  · exact other.1 (one ▸ kind)
  · exact other.2 (two ▸ kind)

/-! ### How the slots move -/

/-- The slot can be filled or emptied: it is not watched, and no other slot is LOADING. -/
structure Fillable (i : SlotId) (s : State) : Prop where
  unwatched : (slotOf s i).watched = none
  others : ∀ j, (slotOf s j).isLoading → j = i

theorem EngineLaw.fillable_free {s : State} {i : SlotId} (h : EngineLaw s) (empty : slotOf s i = .empty)
    (none : s.rce.load = none) : Fillable i s :=
  ⟨by simp [empty, Slot.watched], fun j loading => absurd ((h.loading j).mp loading) (by simp [none])⟩

theorem EngineLaw.fillable_loading {s : State} {l : Load} (h : EngineLaw s) (load : s.rce.load = some l) : Fillable l.slot s := by
  constructor
  · have loading : (slotOf s l.slot).isLoading := (h.loading _).mpr (by simp [load])
    cases x : slotOf s l.slot <;> simp_all [Slot.isLoading, Slot.watched]
  · intro j loading
    have same := (h.loading j).mp loading
    simp only [load, Option.map_some, Option.some.injEq] at same
    exact same.symm

theorem Fillable.not_current {i : SlotId} {s : State} (h : Fillable i s) : ¬ (slotOf s i).isCurrent := by
  have := h.unwatched
  cases x : slotOf s i <;> simp_all [Slot.watched, Slot.isCurrent]

/-- A slot that can be filled takes a content that is not watched: all but the load in progress stays lawful. -/
theorem EngineLaw.fill {s : State} {i : SlotId} (h : EngineLaw s) (fillable : Fillable i s) {x : Slot} (l : Option Load)
    (unwatched : x.watched = none) (load : x.isLoading ↔ l.map Load.slot = some i) (slot : ∀ j, l.map Load.slot = some j → j = i) :
    EngineLaw (setLoad l (setSlot i x s)) := by
  obtain ⟨current, retained, loading, idle, watch⟩ := h
  obtain ⟨_, inUse, state⟩ := setSlot_rce_others i x s
  have notCurrent : ¬ x.isCurrent := by cases x <;> simp_all [Slot.watched, Slot.isCurrent]
  have notRetained : ¬ x.isRetained := by cases x <;> simp_all [Slot.watched, Slot.isRetained]
  constructor
  · intro j k hj hk
    simp only [slotOf_setLoad, slotOf_setSlot] at hj hk
    split at hj
    · exact absurd hj notCurrent
    · split at hk
      · exact absurd hk notCurrent
      · exact current j k hj hk
  · intro j hj
    simp only [slotOf_setLoad, slotOf_setSlot] at hj
    split at hj
    · exact absurd hj notRetained
    · simpa [inUse, state] using retained j hj
  · intro j
    simp only [slotOf_setLoad, slotOf_setSlot, setLoad_rce]
    split
    · next same => subst same; exact load
    · next other =>
      constructor
      · intro hj
        exact absurd (fillable.others j hj).symm other
      · intro hj
        exact absurd (slot j hj).symm other
  · simpa [inUse, state] using idle
  · have map := watchMap_congr (a := slotOf (setSlot i x s) .a) (b := slotOf (setSlot i x s) .b) (c := slotOf s .a)
      (d := slotOf s .b) (by have := fillable.unwatched; cases i <;> simp_all) (by have := fillable.unwatched; cases i <;> simp_all)
    simpa only [setLoad_watch, setSlot_watch, slotOf_setLoad, map] using watch

theorem EngineLaw.fill_loading {s : State} {l : Load} (h : EngineLaw s) (fillable : Fillable l.slot s) (e : Edition) :
    EngineLaw (setLoad (some l) (setSlot l.slot (.loading e) s)) :=
  h.fill fillable (some l) rfl (by simp [Slot.isLoading]) (by simp)

theorem EngineLaw.fill_empty {s : State} {i : SlotId} (h : EngineLaw s) (fillable : Fillable i s) :
    EngineLaw (setLoad none (setSlot i .empty s)) :=
  h.fill fillable none rfl (by simp [Slot.isLoading]) (by simp)

theorem slotOf_retireCurrent (s : State) (j : SlotId) :
    slotOf (retireCurrent s) j = match currentSlot s with
      | some (i, e) => if i = j then (if s.rce.inUse = some i then .retained e else .empty) else slotOf s j
      | none => slotOf s j := by
  unfold retireCurrent
  split
  · next none => simp [none]
  · next i e some => simp [some]

theorem retireCurrent_rce_others (s : State) : (retireCurrent s).rce.load = s.rce.load
    ∧ (retireCurrent s).rce.inUse = s.rce.inUse ∧ (retireCurrent s).rce.state = s.rce.state := by
  unfold retireCurrent
  split
  · exact ⟨rfl, rfl, rfl⟩
  · exact setSlot_rce_others ..

/-- After the slot that was CURRENT has left it, no slot is; a slot is RETAINED only if it was, or carries the mark. -/
theorem EngineLaw.retireCurrent {s : State} (h : EngineLaw s) (j : SlotId) :
    ¬ (slotOf (retireCurrent s) j).isCurrent
      ∧ ((slotOf (Machine.retireCurrent s) j).isRetained → s.rce.inUse = some j ∧ s.rce.state ≠ .idle)
      ∧ ((slotOf (Machine.retireCurrent s) j).isLoading → (slotOf s j).isLoading) := by
  have notIdle : s.rce.inUse = some j → s.rce.state ≠ .idle := fun mark idle =>
    absurd ((h.idle idle).symm.trans mark) nofun
  rw [slotOf_retireCurrent]
  cases which : currentSlot s with
  | none => exact ⟨not_current_of_none which j, h.retained j, id⟩
  | some x =>
    obtain ⟨i, e⟩ := x
    have old := slotOf_currentSlot which
    dsimp only
    split
    · next same =>
      subst same
      split
      · next mark => exact ⟨nofun, fun _ => ⟨mark, notIdle mark⟩, nofun⟩
      · exact ⟨nofun, nofun, nofun⟩
    · next other =>
      refine ⟨fun current => other ?_, h.retained j, id⟩
      exact h.current i j (by simp [old, Slot.isCurrent]) current

/-- The switch (R84): the slot is CURRENT, the old one RETAINED or EMPTY, and the map is built again. -/
theorem EngineLaw.switch {s : State} {i : SlotId} (h : EngineLaw s) (fillable : Fillable i s) (e : Edition) :
    EngineLaw (rebuildWatch (setLoad none (setSlot i (.current e) (Machine.retireCurrent s)))) := by
  have slots : ∀ j, slotOf (rebuildWatch (setLoad none (setSlot i (.current e) (Machine.retireCurrent s)))) j
      = if i = j then .current e else slotOf (Machine.retireCurrent s) j := by
    intro j
    rw [← slotOf_setSlot]
    cases j <;> rfl
  obtain ⟨_, mark, state⟩ := setSlot_rce_others i (.current e) (Machine.retireCurrent s)
  obtain ⟨_, mark', state'⟩ := retireCurrent_rce_others s
  have engine : (rebuildWatch (setLoad none (setSlot i (.current e) (Machine.retireCurrent s)))).rce.inUse = s.rce.inUse
      ∧ (rebuildWatch (setLoad none (setSlot i (.current e) (Machine.retireCurrent s)))).rce.state = s.rce.state :=
    ⟨mark.trans mark', state.trans state'⟩
  obtain ⟨sameMark, sameState⟩ := engine
  constructor
  · intro j k hj hk
    rw [slots] at hj hk
    split at hj
    · split at hk
      · next hi hi' => exact hi.symm.trans hi'
      · exact absurd hk (h.retireCurrent k).1
    · exact absurd hj (h.retireCurrent j).1
  · intro j hj
    rw [slots] at hj
    rw [sameMark, sameState]
    split at hj
    · exact absurd hj nofun
    · exact (h.retireCurrent j).2.1 hj
  · intro j
    rw [slots]
    split
    · exact ⟨nofun, nofun⟩
    · next other =>
      constructor
      · intro hj
        exact absurd (fillable.others j ((h.retireCurrent j).2.2 hj)).symm other
      · nofun
  · rw [sameMark, sameState]
    exact h.idle
  · rfl

/-! ### Directives that take a slot, and loads (R79, R81 to R88) -/

/-- The directive in hand may begin a load: no load is in progress, and the part is not HALTED. -/
theorem EditionLaw.endHand_free {s : State} (engine : EngineLaw s) (free : FreeOfLoad s) (code : Nat) (detail : BitVec 32) :
    EditionLaw (endHand code detail s) :=
  ⟨engineLaw_speaksOf.of_only (endHand_only code detail s) rfl engine,
    (freeOfLoad_speaksOf.of_only (endHand_only code detail s) rfl free).handLaw⟩

theorem failLoad_keeps_slots {s : State} {i : SlotId} (h : EngineLaw s) (fillable : Fillable i s) (active : s.run.state ≠ .halted)
    (code : Nat) (detail : BitVec 32) : EditionLaw (failLoad i code detail s) := by
  have run : (setSlot i .empty s).run = s.run := (setSlot_only i .empty s).same .run (by decide)
  exact EditionLaw.endHand_free (h.fill_empty fillable) ⟨rfl, by simpa [run] using active⟩ code detail

theorem switchTo_keeps_slots {s : State} {i : SlotId} (h : EngineLaw s) (fillable : Fillable i s) (active : s.run.state ≠ .halted)
    (e : Edition) : EditionLaw (switchTo i e s) := by
  have run : (setSlot i (.current e) (retireCurrent s)).run = s.run :=
    ((retireCurrent_only s).trans (setSlot_only i (.current e) _)).same .run (by decide)
  exact EditionLaw.endHand_free (h.switch fillable e) ⟨rfl, by simpa [rebuildWatch, run] using active⟩ codeDone (displaced s)

/-- A load begins for the directive in hand: its owner is then at work. -/
theorem occupy_keeps_slots {u : State} {x : Hand} (engine : EngineLaw u) (hand : u.du.hand = some x)
    (active : u.run.state ≠ .halted) (kind : x.kind = 1 ∨ x.kind = 2) (a n : Nat) :
    EditionLaw (occupy .load a n u) := by
  refine ⟨engineLaw_speaksOf.of_only (occupy_only ..) rfl engine, fun _ => ?_, fun halted => absurd halted active⟩
  exact ⟨{ x with phase := .working }, by simp [occupy, hand], rfl, kind⟩

/-- A read of the load in progress goes on. -/
theorem loadRead_keeps_slots {s u : State} {l : Load} (h : HandLaw s) (load : s.rce.load.isSome = true)
    (du : u.du = s.du) (run : u.run = s.run) (engine : EngineLaw (setLoad (some l) u)) (a n : Nat) :
    EditionLaw (loadRead l a n u) := by
  refine ⟨engineLaw_speaksOf.of_only (duRead_only ..) rfl engine, h.congr ?_⟩
  simp [handView, loadRead, load, du, run]

section
variable {s : State} {x : Hand}

theorem beginLoad_keeps_slots (h : EditionLaw s) (hand : s.du.hand = some x) (idle : x.phase ≠ .working) {i : SlotId}
    (empty : slotOf s i = .empty) : EditionLaw (beginLoad x i s) := by
  obtain ⟨none, active⟩ := h.2.free hand (fun working => idle working.1)
  have fillable := h.1.fillable_free empty none
  have slotParts := fun y => setSlot_only i y s
  have begun : ∀ (l : Load) (e : Edition) (a n : Nat), l.slot = i → x.kind = 1 ∨ x.kind = 2 →
      EditionLaw (occupy .load a n (setLoad (some l) (setSlot i (.loading e) s))) := by
    rintro l e a n rfl kind
    have du : (setSlot l.slot (.loading e) s).du = s.du := (slotParts _).same .du (by decide)
    have run : (setSlot l.slot (.loading e) s).run = s.run := (slotParts _).same .run (by decide)
    exact occupy_keeps_slots (h.1.fill_loading fillable e) (by simpa [du] using hand) (by simpa [run] using active) kind a n
  unfold beginLoad
  split
  · next adopt => exact begun _ _ _ _ rfl (.inl adopt)
  · split
    · next amend =>
      unfold beginAmend
      split
      · exact h
      · exact begun _ _ _ _ rfl (.inr amend)
    · split
      · simp only [repointRemove]
        split
        · exact h
        · split
          · exact failLoad_keeps_slots h.1 fillable active ..
          · exact switchTo_keeps_slots h.1 fillable active _
      · simp only [repointSet]
        split
        · exact h
        · split
          · exact failLoad_keeps_slots h.1 fillable active ..
          · split
            · exact failLoad_keeps_slots h.1 fillable active ..
            · exact switchTo_keeps_slots h.1 fillable active _

theorem takeSlot_keeps_slots (h : EditionLaw s) (hand : s.du.hand = some x) (idle : x.phase ≠ .working) :
    EditionLaw (takeSlot x s) := by
  unfold takeSlot
  split
  · next i which => exact beginLoad_keeps_slots h hand idle (slotOf_freeSlot which)
  · exact h.of_free (h.2.free hand fun working => idle working.1) (setPhase_only ..) rfl

/-- A directive in hand that ends without taking a slot. -/
theorem refuse_keeps_slots (h : EditionLaw s) (hand : s.du.hand = some x) (idle : x.phase ≠ .working) {t : State}
    (only : OnlyChanges handParts s t) : EditionLaw t :=
  h.of_free (h.2.free hand fun working => idle working.1) only rfl

theorem adoptEdition_keeps_slots (h : EditionLaw s) (hand : s.du.hand = some x) (idle : x.phase ≠ .working) :
    EditionLaw (adoptEdition x s) := by
  unfold adoptEdition
  split
  · exact refuse_keeps_slots h hand idle (refuseField_only s)
  · split
    · exact refuse_keeps_slots h hand idle (refuseRange_only s)
    · exact takeSlot_keeps_slots h hand idle

theorem amendGroups_keeps_slots (h : EditionLaw s) (hand : s.du.hand = some x) (idle : x.phase ≠ .working) :
    EditionLaw (amendGroups x s) := by
  unfold amendGroups
  split
  · exact refuse_keeps_slots h hand idle (refuseField_only s)
  · split
    · exact refuse_keeps_slots h hand idle (refuseRange_only s)
    · split
      · exact refuse_keeps_slots h hand idle (refuseState_only s)
      · exact takeSlot_keeps_slots h hand idle

theorem repointTileSet_keeps_slots (h : EditionLaw s) (hand : s.du.hand = some x) (idle : x.phase ≠ .working) :
    EditionLaw (repointTileSet x s) := by
  unfold repointTileSet
  split
  · exact refuse_keeps_slots h hand idle (refuseField_only s)
  · split
    · exact refuse_keeps_slots h hand idle (refuseRange_only s)
    · split
      · exact refuse_keeps_slots h hand idle (refuseState_only s)
      · exact takeSlot_keeps_slots h hand idle

theorem repointTileRemove_keeps_slots (h : EditionLaw s) (hand : s.du.hand = some x) (idle : x.phase ≠ .working) :
    EditionLaw (repointTileRemove x s) := by
  unfold repointTileRemove
  split
  · exact refuse_keeps_slots h hand idle (refuseField_only s)
  · split
    · exact refuse_keeps_slots h hand idle (refuseRange_only s)
    · split
      · exact refuse_keeps_slots h hand idle (refuseState_only s)
      · exact takeSlot_keeps_slots h hand idle

end

section
variable {s : State} {l : Load}

theorem HandLaw.active (h : HandLaw s) (load : s.rce.load.isSome = true) : s.run.state ≠ .halted := by
  intro halted
  obtain ⟨y, hand, _⟩ := h.working load
  exact absurd ((h.halted halted).2.symm.trans hand) nofun

/-- The load in progress goes on to its next read, its slot holding the edition so far. -/
theorem nextRead_keeps_slots (h : EditionLaw s) (load : s.rce.load = some l) {l' : Load} (slot : l'.slot = l.slot) (e : Edition)
    (a n : Nat) : EditionLaw (loadRead l' a n (setSlot l.slot (.loading e) s)) := by
  have parts := setSlot_only l.slot (.loading e) s
  have engine : EngineLaw (setLoad (some l') (setSlot l.slot (.loading e) s)) := by
    have fillable := h.1.fillable_loading load
    rw [← slot] at fillable ⊢
    exact h.1.fill_loading fillable e
  exact loadRead_keeps_slots h.2 (by simp [load]) (parts.same .du (by decide)) (parts.same .run (by decide)) engine a n

theorem readTileEntry_keeps_slots (h : EditionLaw s) (load : s.rce.load = some l) {l' : Load} (slot : l'.slot = l.slot) (e e' : Edition)
    (n : Nat) : EditionLaw (readTileEntry l' e' n (setSlot l.slot (.loading e) s)) := by
  unfold readTileEntry
  split
  · exact nextRead_keeps_slots h load (by exact slot) e _ _
  · exact nextRead_keeps_slots h load (by exact slot) e _ _

theorem loadBytes_keeps_slots (h : EditionLaw s) (load : s.rce.load = some l) (e : Edition) (bs : List Byte) :
    EditionLaw (loadBytes l e bs s) := by
  have fillable := h.1.fillable_loading load
  have active := h.2.active (by simp [load])
  have fails : ∀ code detail, EditionLaw (failLoad l.slot code detail s) := failLoad_keeps_slots h.1 fillable active
  have switches : ∀ e, EditionLaw (switchTo l.slot e s) := switchTo_keeps_slots h.1 fillable active
  unfold loadBytes
  split
  · simp only [recordRead]
    split
    · exact fails ..
    · exact readTileEntry_keeps_slots (l' := parseLoad l.slot bs) h load rfl _ _ 0
  · simp only [tileEntryRead]
    split
    · exact fails ..
    · split
      · exact fails ..
      · split
        · exact fails ..
        · split
          · exact fails ..
          · exact readTileEntry_keeps_slots h load rfl _ _ _
  · exact nextRead_keeps_slots (l' := { l with phase := .groupMap }) h load rfl _ _ _
  · simp only [groupMapRead]
    split
    · exact fails ..
    · exact switches _
  · simp only [groupTableRead]
    split
    · exact fails ..
    · split
      · exact switches _
      · exact switches _

end

/-! ### The Directive Unit -/

/-- A change of the Directive Unit that leaves the directive in hand and the expected ticket. -/
theorem EditionLaw.of_hand {s t : State} {ps : List Part} (h : EditionLaw s) (only : OnlyChanges ps s t)
    (apart : apartParts [.rce, .watch, .run] ps = true) (hand : t.du.hand = s.du.hand) (expected : t.du.expected = s.du.expected) :
    EditionLaw t := by
  have none := apartParts_iff.mp apart
  have rce : t.rce = s.rce := only.same .rce (none .rce (by decide))
  have run : t.run = s.run := only.same .run (none .run (by decide))
  exact ⟨engineLaw_speaksOf.of_only only (apartParts_iff.mpr fun p m => none p (by simp_all; tauto)) h.1,
    h.2.congr (by simp [handView, rce, run, hand, expected])⟩

theorem retryRoom_keeps_slots {s : State} (h : EditionLaw s) : EditionLaw (retryRoom s) := by
  unfold retryRoom
  split
  · next x hand =>
    split
    · next waits =>
      have free : FreeOfLoad s := h.2.free hand (by simp_all)
      exact h.of_free free (judgeAgain_only x s) rfl
    · exact h
  · exact h

theorem retrySlot_keeps_slots {s : State} (h : EditionLaw s) : EditionLaw (retrySlot s) := by
  unfold retrySlot
  split
  · next x hand =>
    split
    · next waits => exact takeSlot_keeps_slots h hand (by simp [waits])
    · exact h
  · exact h

theorem endAll_du (ds : List Deferred) (s : State) : (ds.foldl (fun s d => finalOutcome d.ticket codeDone 0 s) s).du = s.du :=
  (endAll_only ds s).same .du (by decide)

theorem endEntries_du (q : Deferred → Bool) (s : State) :
    (endEntries q s).du = { s.du with deferred := s.du.deferred.filter fun d => !q d } := by
  simp only [endEntries, endAll_du]

theorem endEntry_du (e : OwnerEnd) (s : State) :
    (endEntry e s).du = { s.du with deferred := s.du.deferred.filter fun d => d.ticket != e.ticket } := by
  have du : (finalOutcome e.ticket e.code e.detail s).du = s.du := (finalOutcome_only ..).same .du (by decide)
  simp only [endEntry, du]

theorem endEntries_keeps_slots (q : Deferred → Bool) {s : State} (h : EditionLaw s) : EditionLaw (endEntries q s) :=
  h.of_hand (endEntries_only q s) rfl (by rw [endEntries_du]) (by rw [endEntries_du])

theorem mapDrains_keeps_slots (f : DrainStage → DrainStage) {s : State} (h : EditionLaw s) : EditionLaw (mapDrains f s) :=
  h.of_hand (mapDrains_only f s) rfl rfl rfl

theorem wires_keeps_slots (w : Wires) {s : State} (h : EditionLaw s) : EditionLaw { s with wires := w } :=
  editionLaw_speaksOf.of_only (with_wires_only w s) rfl h

theorem settleDrains_keeps_slots {s : State} (h : EditionLaw s) : EditionLaw (settleDrains s) :=
  retryRoom_keeps_slots (endEntries_keeps_slots _ (mapDrains_keeps_slots _ h))

theorem endEntry_keeps_slots (e : OwnerEnd) {s : State} (h : EditionLaw s) : EditionLaw (endEntry e s) :=
  h.of_hand (endEntry_only e s) rfl (by rw [endEntry_du]) (by rw [endEntry_du])

theorem takeOwnerEnd_keeps_slots (e : OwnerEnd) {s : State} (h : EditionLaw s) : EditionLaw (takeOwnerEnd e s) := by
  unfold takeOwnerEnd
  split
  · exact retryRoom_keeps_slots (endEntry_keeps_slots e h)
  · exact h

theorem takeRelease_keeps_slots {s : State} (h : EditionLaw s) : EditionLaw (takeRelease s) :=
  retryRoom_keeps_slots (retrySlot_keeps_slots (endEntries_keeps_slots _ h))

theorem takeIdleAtDu_keeps_slots {s : State} (h : EditionLaw s) : EditionLaw (takeIdleAtDu s) :=
  settleDrains_keeps_slots (mapDrains_keeps_slots _ (wires_keeps_slots _ h))

theorem raise_keeps_slots (c : Cause) {s : State} (h : EditionLaw s) : EditionLaw (raise c s) :=
  editionLaw_speaksOf.of_only (raise_only c s) rfl h

theorem settleTickets_keeps_slots (ts : List Ticket) {s : State} (h : EditionLaw s) : EditionLaw (settleTickets ts s) :=
  editionLaw_speaksOf.of_only (raiseIf_only ..) rfl (h.of_hand (with_du_only _ s) rfl rfl rfl)

theorem readExpected_du (s : State) : (readExpected s).du.hand = s.du.hand ∧ (readExpected s).du.expected = s.du.expected := by
  unfold readExpected
  split <;> exact ⟨rfl, rfl⟩

theorem readExpected_keeps_slots {s : State} (h : EditionLaw s) : EditionLaw (readExpected s) :=
  h.of_hand (readExpected_only s) rfl (readExpected_du s).1 (readExpected_du s).2

/-! ### Grants, and what they bring (R91, R173) -/

theorem granules_taint (g : Nat) (e : Edition) : (e.taint g).granules = e.granules := by
  simp only [Edition.taint, Edition.granules, List.map_map]
  refine List.map_congr_left fun d _ => ?_
  simp only [Function.comp_apply]
  split <;> rfl

theorem watched_taint (g : Nat) (x : Slot) : (x.taint g).watched.map Edition.granules = x.watched.map Edition.granules := by
  cases x <;> simp [Slot.taint, Slot.watched, granules_taint]

/-- A write into a watched granule taints descriptors: the slots stay what they are, and the map with them. -/
theorem watchWrite_keeps_slots (g : Nat) {s : State} (h : EditionLaw s) : EditionLaw (watchWrite g s) := by
  simp only [watchWrite]
  split
  · exact h
  · refine raise_keeps_slots _ ⟨?_, h.2.congr rfl⟩
    obtain ⟨current, retained, loading, idle, watch⟩ := h.1
    have slots : ∀ (w : Wires) i, slotOf { s with
        rce := { s.rce with
          slotA := s.rce.slotA.taint (watchGranule (32 * g)), slotB := s.rce.slotB.taint (watchGranule (32 * g)) }
        wires := w } i = (slotOf s i).taint (watchGranule (32 * g)) := by
      intro w i
      cases i <;> rfl
    have isCurrent : ∀ x : Slot, (x.taint (watchGranule (32 * g))).isCurrent ↔ x.isCurrent := by
      intro x; cases x <;> rfl
    have isRetained : ∀ x : Slot, (x.taint (watchGranule (32 * g))).isRetained ↔ x.isRetained := by
      intro x; cases x <;> rfl
    have isLoading : ∀ x : Slot, (x.taint (watchGranule (32 * g))).isLoading ↔ x.isLoading := by
      intro x; cases x <;> rfl
    constructor
    · simpa only [slots, isCurrent] using current
    · simpa only [slots, isRetained] using retained
    · simpa only [slots, isLoading] using loading
    · exact idle
    · rw [slots, slots, watchMap_congr (watched_taint ..) (watched_taint ..)]
      exact watch

theorem takeTaint_keeps_slots (x : TaintReport) {s : State} (h : EditionLaw s) : EditionLaw (takeTaint x s) := by
  unfold takeTaint
  split
  · exact ⟨h.1.congr rfl, h.2.congr rfl⟩
  · exact h

theorem takeTaints_keeps_slots {s : State} (h : EditionLaw s) : EditionLaw (takeTaints s) := by
  have all := law_foldl (f := fun s t => takeTaint t s) (fun _ t => takeTaint_keeps_slots t) s.wires.taints h
  exact wires_keeps_slots { (s.wires.taints.foldl (fun s t => takeTaint t s) s).wires with taints := [] } all

theorem written_keeps_slots (a : Access) {s : State} (h : EditionLaw s) : EditionLaw (written a s) := by
  unfold written
  split
  · exact watchWrite_keeps_slots _ h
  · exact h
  · exact wires_keeps_slots _ h
  · exact wires_keeps_slots _ h
  · exact editionLaw_speaksOf.of_only (sealSnapshot_only s) rfl h
  · exact h

theorem mapDuJob_keeps_slots (p : Purpose) (f : ReadJob → ReadJob) {s : State} (h : EditionLaw s) : EditionLaw (mapDuJob p f s) :=
  h.of_hand (mapDuJob_only p f s) rfl rfl rfl

theorem deliver_keeps_slots (a : Access) (bs : List Byte) {s : State} (h : EditionLaw s) : EditionLaw (deliver a bs s) := by
  unfold deliver
  split
  · exact mapDuJob_keeps_slots _ _ h
  · exact mapDuJob_keeps_slots _ _ h
  · exact mapDuJob_keeps_slots _ _ h
  · exact mapDuJob_keeps_slots _ _ h
  · exact editionLaw_speaksOf.of_only (mapCopyJob_only _ s) rfl h
  · exact wires_keeps_slots _ h
  · exact editionLaw_speaksOf.of_only (hostReturn_only ..) rfl h
  · exact h

theorem deliverError_keeps_slots (a : Access) {s : State} (h : EditionLaw s) : EditionLaw (deliverError a s) := by
  have withdrawn : ∀ p {u : State}, EditionLaw u → EditionLaw (withdrawDu p u) := fun p u hu =>
    editionLaw_speaksOf.of_only (withdrawDu_only p u) rfl hu
  unfold deliverError
  split
  · exact mapDuJob_keeps_slots _ _ h
  · exact mapDuJob_keeps_slots _ _ h
  · exact withdrawn _ (mapDuJob_keeps_slots _ _ h)
  · exact withdrawn _ (mapDuJob_keeps_slots _ _ h)
  · exact withdrawn _ (editionLaw_speaksOf.of_only (mapCopyJob_only _ s) rfl h)
  · exact wires_keeps_slots _ h
  · exact editionLaw_speaksOf.of_only ((raise_only ..).andThen (hostReturn_only ..)) rfl h
  · exact h

theorem perform_keeps_slots (a : Access) {s : State} (h : EditionLaw s) : EditionLaw (perform a s) := by
  have read : EditionLaw (readGranule a s).2 := editionLaw_speaksOf.of_only (readGranule_only a s) rfl h
  unfold perform
  split
  · split
    · next got => rw [got] at read; exact deliver_keeps_slots a _ read
    · next got => rw [got] at read; exact deliverError_keeps_slots a read
  · exact written_keeps_slots a (editionLaw_speaksOf.of_only (writeGranule_only ..) rfl h)

theorem grantTile_keeps_slots (met : CellError) (key granule : Nat) {s : State} (h : EditionLaw s) :
    EditionLaw (grantTile met key granule s) := by
  have framed : ∀ (g : FrameContext → FrameContext) {u : State}, EditionLaw u → EditionLaw (mapFrame g u) := fun g u hu =>
    ⟨hu.1.congr rfl, hu.2.congr rfl⟩
  unfold grantTile
  split
  · exact framed _ h
  · exact framed _ (wires_keeps_slots _
      (editionLaw_speaksOf.of_only ((meetError_only ..).andThen (readGranule_only ..)) rfl h))

theorem grantRotation_keeps_slots (met : CellError) {s : State} (h : EditionLaw s) : EditionLaw (grantRotation met s) := by
  unfold grantRotation
  split
  · exact h
  · split
    · exact h
    · refine perform_keeps_slots _ (editionLaw_speaksOf.of_only (meetError_only ..) rfl ?_)
      exact ⟨h.1.congr rfl, h.2.congr rfl⟩

theorem grant_keeps_slots (met : CellError) {s : State} (h : EditionLaw s) : EditionLaw (grant met s) := by
  have counted : ∀ n, EditionLaw (setTileRun n s) := fun n => editionLaw_speaksOf.of_only (setTileRun_only n s) rfl h
  unfold grant
  split
  · exact grantRotation_keeps_slots met h
  · split
    · exact grantTile_keeps_slots met _ _ (counted _)
    · split
      · exact grantTile_keeps_slots met _ _ (counted _)
      · exact grantRotation_keeps_slots met h

/-! ### The engine (R99, R103, R112, R113) -/

theorem takeTaints_state (s : State) : (takeTaints s).rce.state = s.rce.state := by
  refine law_foldl (law := fun u => u.rce.state = s.rce.state) (f := fun s t => takeTaint t s) (fun u t same => ?_) s.wires.taints rfl
  unfold takeTaint
  split <;> exact same

theorem beforeFrame_state (s : State) : (beforeFrame s).rce.state = s.rce.state := by
  unfold beforeFrame
  split
  · exact (takeTaints_state _).trans (congrArg Rce.state ((takeIdleAtDu_only s).same .rce (by decide)))
  · exact takeTaints_state s

theorem beforeFrame_keeps_slots {s : State} (h : EditionLaw s) : EditionLaw (beforeFrame s) := by
  unfold beforeFrame
  split
  · exact takeTaints_keeps_slots (takeIdleAtDu_keeps_slots h)
  · exact takeTaints_keeps_slots h

/-- The engine takes the frame while IDLE, when no slot is RETAINED. -/
theorem takeFrame_keeps_slots (x : Handover) (i : SlotId) (e : Edition) {s : State} (idle : s.rce.state = .idle) (h : EditionLaw s) :
    EditionLaw (takeFrame x i e s) := by
  have notRetained : ∀ j, ¬ (slotOf s j).isRetained := fun j retained => (h.1.retained j retained).2 idle
  have taken : ∀ {u : State}, (∀ j, slotOf u j = slotOf s j) → u.rce.load = s.rce.load → u.rce.state ≠ .idle → u.watch = s.watch →
      u.du = s.du → u.run = s.run → EditionLaw u := by
    intro u slots load state watch du run
    refine ⟨⟨?_, ?_, ?_, fun idle => absurd idle state, ?_⟩, h.2.congr (by simp [handView, load, du, run])⟩
    · simpa only [slots] using h.1.current
    · intro j retained
      exact absurd (slots j ▸ retained) (notRetained j)
    · simpa only [slots, load] using h.1.loading
    · simpa only [slots, watch] using h.1.watch
  simp only [takeFrame]
  split
  · refine editionLaw_speaksOf.of_only (release_only ..) rfl (taken (fun j => ?_) rfl nofun rfl rfl rfl)
    cases j <;> rfl
  · refine taken (fun j => ?_) rfl nofun rfl rfl rfl
    cases j <;> rfl

theorem endStreaming_keeps_slots (f : FrameContext) {s : State} (h : EditionLaw s) :
    EditionLaw (endStreaming f s) := by
  refine editionLaw_speaksOf.of_only (release_only ..) rfl ⟨⟨?_, ?_, ?_, nofun, ?_⟩, h.2.congr rfl⟩
  · exact h.1.current
  · intro i retained
    exact ⟨(h.1.retained i retained).1, nofun⟩
  · exact h.1.loading
  · exact h.1.watch

theorem mapFrame_keeps_slots (g : FrameContext → FrameContext) {s : State} (h : EditionLaw s) : EditionLaw (mapFrame g s) :=
  ⟨h.1.congr rfl, h.2.congr rfl⟩

theorem applyChange_keeps_slots (c : StoreChange) {s : State} (h : EditionLaw s) : EditionLaw (applyChange c s) :=
  ⟨h.1.congr rfl, h.2.congr rfl⟩

theorem takeChange_keeps_slots (c : StoreChange) {s : State} (h : EditionLaw s) : EditionLaw (takeChange c s) := by
  unfold takeChange
  split
  · exact mapFrame_keeps_slots _ h
  · exact applyChange_keeps_slots c h

theorem takeTile_keeps_slots (t : TileReturn) (bs : List Byte) {s : State} (h : EditionLaw s) : EditionLaw (takeTile t bs s) := by
  unfold takeTile
  split
  · exact h
  · exact mapFrame_keeps_slots _ h

theorem takeTileError_keeps_slots (t : TileReturn) {s : State} (h : EditionLaw s) : EditionLaw (takeTileError t s) :=
  ⟨h.1.congr rfl, h.2.congr rfl⟩

theorem commitFrame_keeps_slots (f : FrameContext) (e : Edition) (rs : List ActuatorResult) {s : State} (h : EditionLaw s) :
    EditionLaw (commitFrame f e rs s) := by
  have committed : EditionLaw (commitCandidates rs s) := ⟨h.1.congr rfl, h.2.congr rfl⟩
  exact editionLaw_speaksOf.of_only (takeVector_only ..) rfl committed

/-- The engine with its mark dropped. -/
def markDropped (s : State) : State := mapRce (fun r => { r with inUse := none, frame := none, state := .idle }) s

theorem slotOf_markDropped (j : SlotId) (s : State) : slotOf (markDropped s) j = slotOf s j := by
  cases j <;> rfl

/-- With its mark dropped the engine is lawful but for the slot RETAINED with the mark. -/
theorem EngineLaw.markDropped {s : State} (h : EngineLaw s) (none : ∀ j, ¬ (slotOf s j).isRetained) :
    EngineLaw (Machine.markDropped s) := by
  obtain ⟨current, _, loading, _, watch⟩ := h
  refine ⟨?_, fun j retained => absurd (slotOf_markDropped j s ▸ retained) (none j), ?_, fun _ => rfl, ?_⟩
  · simpa only [slotOf_markDropped] using current
  · simp only [slotOf_markDropped]
    exact loading
  · simp only [slotOf_markDropped]
    exact watch

theorem EngineLaw.releaseRetained {s : State} (h : EngineLaw s) {i : SlotId} (mark : s.rce.inUse = some i) {e : Edition}
    (slot : slotOf s i = .retained e) : EngineLaw (rebuildWatch (setSlot i .empty (Machine.markDropped s))) := by
  obtain ⟨current, retained, loading, _, _⟩ := h
  have slots : ∀ j, slotOf (rebuildWatch (setSlot i .empty (Machine.markDropped s))) j = if i = j then .empty else slotOf s j := by
    intro j
    rw [← slotOf_markDropped j s, ← slotOf_setSlot]
    cases j <;> rfl
  obtain ⟨load, inUse, _⟩ := setSlot_rce_others i .empty (Machine.markDropped s)
  constructor
  · intro j k hj hk
    rw [slots] at hj hk
    split at hj
    · exact absurd hj nofun
    · split at hk
      · exact absurd hk nofun
      · exact current j k hj hk
  · intro j hj
    rw [slots] at hj
    split at hj
    · exact absurd hj nofun
    · next other =>
      have same := mark.symm.trans (retained j hj).1
      exact absurd (Option.some.inj same) other
  · intro j
    have loads : (rebuildWatch (setSlot i .empty (Machine.markDropped s))).rce.load = s.rce.load := load
    rw [slots, loads]
    split
    · next same =>
      subst same
      rw [← loading i, slot]
      exact Iff.rfl
    · exact loading j
  · intro _
    exact inUse
  · rfl

/-- The end of a frame: the mark goes, and the slot RETAINED with it. -/
theorem endFrame_keeps_slots {s : State} (h : EditionLaw s) : EditionLaw (endFrame s) := by
  have hand : HandLaw (markDropped s) := h.2.congr rfl
  simp only [endFrame]
  refine wires_keeps_slots _ ?_
  split
  · next i mark =>
    change EditionLaw (releaseSlot i (markDropped s))
    unfold releaseSlot
    split
    · next e slot =>
      rw [slotOf_markDropped] at slot
      refine wires_keeps_slots _ ⟨h.1.releaseRetained mark slot, hand.congr ?_⟩
      cases i <;> rfl
    · next other =>
      refine ⟨h.1.markDropped fun j retained => ?_, hand⟩
      have same : i = j := Option.some.inj (mark.symm.trans (h.1.retained j retained).1)
      subst same
      cases slot : slotOf s i with
      | retained e => exact other e ((slotOf_markDropped i s).trans slot)
      | _ => simp [slot, Slot.isRetained] at retained
  · next none =>
    refine ⟨h.1.markDropped fun j retained => ?_, hand⟩
    exact absurd ((h.1.retained j retained).1.symm.trans none) nofun

theorem completeFrame_keeps_slots (late : List (Fin 1024)) (f : FrameContext) {s : State} (h : EditionLaw s) :
    EditionLaw (completeFrame late f s) := by
  simp only [completeFrame]
  refine endFrame_keeps_slots (law_foldl (f := fun s c => applyChange c s) (fun _ c => applyChange_keeps_slots c) _ ?_)
  refine editionLaw_speaksOf.of_only ((noticeProbe_only ..).andThen ((handTelemetry_only ..).andThen (reportGuards_only ..))) rfl ?_
  split
  · exact commitFrame_keeps_slots _ _ _ h
  · exact h

/-! ### Run control (R175 to R178) -/

theorem anchorRead_keeps_slots (j : ReadJob) {s : State} (halted : s.run.state = .halted) (h : EditionLaw s) :
    EditionLaw (anchorRead j s) := by
  have noLoad : s.rce.load = none := by
    cases load : s.rce.load with
    | none => rfl
    | some l => exact absurd halted (h.2.active (by simp [load]))
  have invalid : ∀ {u : State}, EditionLaw u → EditionLaw (anchorInvalid u) := fun hu =>
    ⟨engineLaw_speaksOf.of_only (anchorInvalid_only _) rfl hu.1, hu.2.congr rfl⟩
  unfold anchorRead
  split
  · exact invalid (raise_keeps_slots _ h)
  · split
    · have free : FreeOfLoad (takeAnchor (parseAnchor j.bytes) s) := ⟨noLoad, nofun⟩
      exact ⟨engineLaw_speaksOf.of_only (takeAnchor_only ..) rfl h.1, free.handLaw⟩
    · exact invalid h

/-- A change of the run state to one that is not HALTED. -/
theorem EditionLaw.of_run {s t : State} {ps : List Part} (h : EditionLaw s) (only : OnlyChanges ps s t)
    (apart : apartParts [.rce, .watch, .du] ps = true) (active : t.run.state ≠ .halted) : EditionLaw t := by
  have none := apartParts_iff.mp apart
  have rce : t.rce = s.rce := only.same .rce (none .rce (by decide))
  have du : t.du = s.du := only.same .du (none .du (by decide))
  exact ⟨engineLaw_speaksOf.of_only only (apartParts_iff.mpr fun p m => none p (by simp_all; tauto)) h.1,
    by rw [rce, du]; exact h.2.working, fun halted => absurd halted active⟩

theorem startBlocks_keeps_slots {s : State} (h : EditionLaw s) : EditionLaw (startBlocks s) := ⟨h.1.congr rfl, h.2.congr rfl⟩

theorem beginRun_keeps_slots (e : Edition) {s : State} (h : EditionLaw s) : EditionLaw (beginRun e s) := by
  have started := startBlocks_keeps_slots (editionLaw_speaksOf.of_only (startStreams_only s) rfl h)
  exact started.of_run ((startCou_only ..).andThen (enterRun_only .running _)) rfl (by simp [beginRun])

theorem refuseRun_keeps_slots (c : RunRefusal) {s : State} (h : EditionLaw s) : EditionLaw (refuseRun c s) :=
  ⟨h.1.congr rfl, h.2.congr rfl⟩

theorem start_keeps_slots {s : State} (h : EditionLaw s) : EditionLaw (start s) := by
  unfold start
  split
  · split
    · split
      · exact beginRun_keeps_slots _ h
      · exact refuseRun_keeps_slots _ h
    · exact refuseRun_keeps_slots _ h
  · exact refuseRun_keeps_slots _ h

theorem armScanAgain_keeps_slots {s : State} (h : EditionLaw s) : EditionLaw (armScanAgain s) := by
  unfold armScanAgain
  split
  · exact ⟨h.1.congr rfl, h.2.congr rfl⟩
  · exact h

theorem drainingCheck_keeps_slots {s : State} (h : EditionLaw s) : EditionLaw (drainingCheck s) := by
  unfold drainingCheck
  split
  · have quiet := armScanAgain_keeps_slots (editionLaw_speaksOf.of_only (quietCou_only s) rfl h)
    exact quiet.of_run ((with_run_only _ _).andThen (raise_only .runChange _)) rfl nofun
  · exact h

theorem beforeEnd_keeps_slots (b : State) {s : State} (h : EditionLaw s) : EditionLaw (beforeEnd b s) :=
  editionLaw_speaksOf.of_only (beforeEnd_changes b s) rfl h

theorem runReport_keeps_slots {s u : State} (h : EditionLaw u) : Keeps EditionLaw (runReport s u) := by
  simp only [runReport]
  split
  · exact editionLaw_speaksOf.finish rfl _ (drainingCheck_keeps_slots (beforeEnd_keeps_slots s h))
  · exact editionLaw_speaksOf.finish rfl _ h

theorem watched_unload (x : Slot) : x.unload.watched = x.watched := by
  cases x <;> rfl

/-- STOP in the engine: the load is gone, and with it the LOADING slot (R89). -/
theorem stopBlocks_engineLaw {s : State} (h : EngineLaw s) : EngineLaw (stopBlocks s) := by
  obtain ⟨current, retained, _, idle, watch⟩ := h
  have slots : ∀ i, slotOf (stopBlocks s) i = (slotOf s i).unload := by
    intro i
    cases i <;> rfl
  have isCurrent : ∀ x : Slot, x.unload.isCurrent ↔ x.isCurrent := by intro x; cases x <;> rfl
  have isRetained : ∀ x : Slot, x.unload.isRetained ↔ x.isRetained := by intro x; cases x <;> rfl
  have notLoading : ∀ x : Slot, ¬ x.unload.isLoading := by intro x; cases x <;> exact id
  constructor
  · simpa only [slots, isCurrent] using current
  · simp only [slots, isRetained]
    exact retained
  · intro i
    rw [slots]
    exact ⟨fun loading => absurd loading (notLoading _), nofun⟩
  · exact idle
  · have map := watchMap_congr (congrArg _ (watched_unload (slotOf s .a))) (congrArg _ (watched_unload (slotOf s .b)))
    rw [slots, slots, map]
    exact watch

theorem stop_keeps_slots {s : State} (h : EditionLaw s) : EditionLaw (stop s) := by
  unfold stop
  split
  · have work : OnlyChanges [.sau, .wires, .fau, .du, .duQueue] s (stopDu (abandonWaiting (stopStreams (takeOwnerEnds s)))) :=
      ((takeOwnerEnds_only s).andThen ((stopStreams_only _).andThen ((abandonWaiting_only _).andThen (stopDu_only _)))).among rfl
    have engine := stopBlocks_engineLaw (engineLaw_speaksOf.of_only work rfl h.1)
    have free : FreeOfLoad (enterRun .draining (stopBlocks (stopDu (abandonWaiting (stopStreams (takeOwnerEnds s)))))) :=
      ⟨rfl, by simp⟩
    exact drainingCheck_keeps_slots ⟨engineLaw_speaksOf.of_only (enterRun_only ..) rfl engine, free.handLaw⟩
  · exact refuseRun_keeps_slots _ h

theorem editionLaw_fresh {s : State} (rce : s.rce = {}) (watch : s.watch = []) (du : s.du = {}) : EditionLaw s := by
  have slots : ∀ i, slotOf s i = .empty := by rintro (_ | _) <;> simp [slotOf, rce]
  constructor
  · constructor
    · simp [slots, Slot.isCurrent]
    · simp [slots, Slot.isRetained]
    · simp [slots, Slot.isLoading, rce]
    · simp [rce]
    · rw [watch, slots, slots]
      rfl
  · exact ⟨by simp [rce], by simp [du]⟩

theorem partReset_keeps_slots (s : State) : EditionLaw (partReset s) :=
  editionLaw_speaksOf.of_only (beginRelease_only _) rfl (editionLaw_fresh (s := resetBlocks s) rfl rfl rfl)

theorem fullReset_keeps_slots (b : Bool) (s : State) : EditionLaw (fullReset b s) :=
  editionLaw_speaksOf.of_only (beginRelease_only _) rfl (editionLaw_fresh rfl rfl rfl)

theorem partResetCommand_keeps_slots {s : State} (h : EditionLaw s) : EditionLaw (partResetCommand s) := by
  unfold partResetCommand
  split
  · exact refuseRun_keeps_slots _ h
  · exact partReset_keeps_slots s

theorem loadAnchor_keeps_slots {s : State} (h : EditionLaw s) : EditionLaw (loadAnchor s) := by
  unfold loadAnchor
  split
  · exact ⟨h.1.congr rfl, h.2.congr rfl⟩
  · exact refuseRun_keeps_slots _ h

theorem endInitialisation_keeps_slots {s : State} (h : EditionLaw s) : EditionLaw (endInitialisation s) :=
  editionLaw_speaksOf.of_only (beginRelease_only _) rfl ⟨h.1.congr rfl, h.2.congr rfl⟩

/-! ### Every step -/

/-- With a load in progress or the part HALTED, no directive is in hand but one that loads. -/
theorem HandLaw.no_directive {s : State} (h : HandLaw s) (busy : ¬ FreeOfLoad s) :
    (∀ k, takenHand k s = none) ∧ (∀ ks, 1 ∉ ks ∧ 2 ∉ ks → workingHand ks s = none) := by
  constructor
  · intro k
    cases taken : takenHand k s with
    | none => rfl
    | some x => exact absurd (h.free_of_taken taken) busy
  · intro ks other
    cases working : workingHand ks s with
    | none => rfl
    | some x => exact absurd (h.free_of_working working other) busy

theorem execSlotReadReturn_busy {s : State} (h : HandLaw s) (busy : ¬ FreeOfLoad s) : execSlotReadReturn s = .next s := by
  unfold execSlotReadReturn
  split
  · next t j expected hand _ =>
    refine absurd ⟨?_, fun halted => ?_⟩ busy
    · cases load : s.rce.load with
      | none => rfl
      | some l =>
        obtain ⟨x, some, _⟩ := h.working (by simp [load])
        exact absurd (hand.symm.trans some) nofun
    · exact absurd ((h.halted halted).1.symm.trans expected) nofun
  · rfl

/-- The commands that change the engine, the Range Watch map or the run state keep the law. -/
theorem engineCommand_keeps_slots {c : Instr} {s : State} (plain : plainCommand c = c)
    (changes : apartParts [.rce, .watch, .run] (commandParts c) = false) (h : EditionLaw s) : Keeps EditionLaw (exec c s) := by
  have finish : ∀ {e : State} (b : State), EditionLaw e → Keeps EditionLaw (Machine.finish b e) := fun b =>
    editionLaw_speaksOf.finish rfl b
  cases c
  case powerOn | fundamentalReset | hotReset => exact finish s (fullReset_keeps_slots _ s)
  case functionLevelReset => exact finish s (partReset_keeps_slots s)
  case partReset => exact finish s (partResetCommand_keeps_slots h)
  case initialisationEnd =>
    change Keeps EditionLaw (execInitialisationEnd s)
    unfold execInitialisationEnd
    split
    · exact finish s (endInitialisation_keeps_slots h)
    · exact keeps_stay h
  case loadAnchor => exact finish s (loadAnchor_keeps_slots h)
  case anchorReadDone =>
    change Keeps EditionLaw (execAnchorReadDone s)
    unfold execAnchorReadDone
    split
    · next halted _ _ => exact finish s (anchorRead_keeps_slots _ halted h)
    · exact keeps_stay h
  case start => exact finish _ (start_keeps_slots (editionLaw_speaksOf.of_only (beforeStart_changes s) rfl h))
  case stop => exact finish _ (stop_keeps_slots (editionLaw_speaksOf.of_only (beforeStop_changes s) rfl h))
  case unknownCommand v =>
    change Keeps EditionLaw (execUnknownCommand v s)
    rw [execUnknownCommand_eq (unknown_of_plain plain)]
    exact finish s (refuseRun_keeps_slots _ h)
  case linksQuietReport =>
    change Keeps EditionLaw (execLinksQuietReport s)
    unfold execLinksQuietReport
    split
    · exact runReport_keeps_slots (wires_keeps_slots _ h)
    · exact keeps_stay h
  case runControlIdleReport =>
    change Keeps EditionLaw (execRunControlIdleReport s)
    unfold execRunControlIdleReport
    split
    · exact runReport_keeps_slots (wires_keeps_slots _ h)
    · exact keeps_stay h
  case granuleGrant met => exact finish s (grant_keeps_slots met (takeTaints_keeps_slots h))
  case frameTake =>
    change Keeps EditionLaw (execFrameTake s)
    unfold execFrameTake
    split
    · next idle => exact finish s (takeFrame_keeps_slots _ _ _ ((beforeFrame_state s).trans idle) (beforeFrame_keeps_slots h))
    · exact keeps_stay h
  case tileReadDone =>
    change Keeps EditionLaw (execTileReadDone s)
    unfold execTileReadDone
    split
    · split
      · exact finish s (takeTile_keeps_slots _ _ (wires_keeps_slots _ h))
      · exact keeps_stay h
    · exact keeps_stay h
  case tileMemoryError =>
    change Keeps EditionLaw (execTileMemoryError s)
    unfold execTileMemoryError
    split
    · split
      · exact keeps_stay h
      · exact finish s (takeTileError_keeps_slots _ (wires_keeps_slots _ h))
    · exact keeps_stay h
  case taintReport =>
    change Keeps EditionLaw (execTaintReport s)
    unfold execTaintReport
    split
    · exact keeps_stay h
    · exact finish s (takeTaint_keeps_slots _ (wires_keeps_slots _ h))
  case streamingEnd =>
    change Keeps EditionLaw (execStreamingEnd s)
    unfold execStreamingEnd
    split
    · split
      · exact finish s (endStreaming_keeps_slots _ h)
      · exact keeps_stay h
    · exact keeps_stay h
  case probeRequest =>
    change Keeps EditionLaw (execProbeRequest s)
    unfold execProbeRequest
    split
    · split
      · have noticed : EditionLaw (takeNotices s) := editionLaw_speaksOf.of_only (takeNotices_only s) rfl h
        exact finish s ⟨noticed.1.congr rfl, noticed.2.congr rfl⟩
      · exact keeps_stay h
    · exact keeps_stay h
  case frameCompletion late =>
    change Keeps EditionLaw (execFrameCompletion late s)
    unfold execFrameCompletion
    split
    · split
      · exact editionLaw_speaksOf.couFinish rfl s (completeFrame_keeps_slots late _
          (editionLaw_speaksOf.of_only (takeGuards_only s) rfl h))
      · exact keeps_stay h
    · exact keeps_stay h
  case integratorChange =>
    change Keeps EditionLaw (execIntegratorChange s)
    unfold execIntegratorChange
    split
    · exact keeps_stay h
    · exact finish s (takeChange_keeps_slots _ (wires_keeps_slots _ h))
  case safeShapeRequest =>
    change Keeps EditionLaw (execSafeShapeRequest s)
    unfold execSafeShapeRequest
    split
    · exact keeps_stay h
    · exact finish s (takeChange_keeps_slots _ (wires_keeps_slots _ h))
  case adoptEdition =>
    change Keeps EditionLaw (execAdoptEdition s)
    unfold execAdoptEdition
    split
    · next taken =>
      obtain ⟨hand, phase, _⟩ := takenHand_some taken
      exact finish s (adoptEdition_keeps_slots h hand (by simp [phase]))
    · exact keeps_stay h
  case amendGroups =>
    change Keeps EditionLaw (execAmendGroups s)
    unfold execAmendGroups
    split
    · next taken =>
      obtain ⟨hand, phase, _⟩ := takenHand_some taken
      exact finish s (amendGroups_keeps_slots h hand (by simp [phase]))
    · exact keeps_stay h
  case repointTileSet =>
    change Keeps EditionLaw (execRepointTileSet s)
    unfold execRepointTileSet
    split
    · next taken =>
      obtain ⟨hand, phase, _⟩ := takenHand_some taken
      split
      · exact keeps_stay h
      · exact finish s (repointTileSet_keeps_slots h hand (by simp [phase]))
    · exact keeps_stay h
  case repointTileRemove =>
    change Keeps EditionLaw (execRepointTileRemove s)
    unfold execRepointTileRemove
    split
    · next taken =>
      obtain ⟨hand, phase, _⟩ := takenHand_some taken
      split
      · exact finish s (repointTileRemove_keeps_slots h hand (by simp [phase]))
      · exact keeps_stay h
    · exact keeps_stay h
  case editionLoadReadDone =>
    change Keeps EditionLaw (execEditionLoadReadDone s)
    unfold execEditionLoadReadDone
    split
    · next load _ =>
      split
      · exact finish s (failLoad_keeps_slots (raise_keeps_slots .memoryError h).1
          ((raise_keeps_slots .memoryError h).1.fillable_loading load) (h.2.active (by simp [load])) _ _)
      · exact finish s (loadBytes_keeps_slots h load _ _)
    · exact keeps_stay h
  case slotReleaseReport =>
    change Keeps EditionLaw (execSlotReleaseReport s)
    unfold execSlotReleaseReport
    split
    · exact finish s (takeRelease_keeps_slots (wires_keeps_slots _ h))
    · exact keeps_stay h
  all_goals exact absurd (show true = false from changes) nofun

/-- While a load is in progress or the part is HALTED, only reports reach the Directive Unit, and they leave its hand. -/
theorem busyUnit_keeps_slots {c : Instr} {s : State} (leaves : apartParts [.rce, .watch, .run] (commandParts c) = true)
    (changes : apartParts [.rce, .watch, .du, .run] (commandParts c) = false) (busy : ¬ FreeOfLoad s) (h : EditionLaw s) :
    Keeps EditionLaw (exec c s) := by
  have finish : ∀ {e : State} (b : State), EditionLaw e → Keeps EditionLaw (Machine.finish b e) := fun b =>
    editionLaw_speaksOf.finish rfl b
  have stays : ∀ {r : Result}, r = .next s → Keeps EditionLaw r := fun next => next ▸ keeps_stay h
  obtain ⟨taken, working⟩ := h.2.no_directive busy
  cases c
  case retireRange => exact stays (r := execRetireRange s) (by simp only [execRetireRange, taken])
  case setStream => exact stays (r := execSetStream s) (by simp only [execSetStream, taken])
  case setAsideFlag => exact stays (r := execSetAsideFlag s) (by simp only [execSetAsideFlag, taken])
  case enableStreams => exact stays (r := execEnableStreams s) (by simp only [execEnableStreams, taken])
  case disableStreams => exact stays (r := execDisableStreams s) (by simp only [execDisableStreams, taken])
  case setPace => exact stays (r := execSetPace s) (by simp only [execSetPace, taken])
  case loadSafeShape => exact stays (r := execLoadSafeShape s) (by simp only [execLoadSafeShape, taken])
  case resumeOutput => exact stays (r := execResumeOutput s) (by simp only [execResumeOutput, taken])
  case holdOutput => exact stays (r := execHoldOutput s) (by simp only [execHoldOutput, taken])
  case setProbeCycle => exact stays (r := execSetProbeCycle s) (by simp only [execSetProbeCycle, taken])
  case injectProbe => exact stays (r := execInjectProbe s) (by simp only [execInjectProbe, taken])
  case injectProbeCancel => exact stays (r := execInjectProbeCancel s) (by simp only [execInjectProbeCancel, taken])
  case resetIntegratorZero => exact stays (r := execResetIntegratorZero s) (by simp only [execResetIntegratorZero, taken])
  case resetIntegratorVector => exact stays (r := execResetIntegratorVector s) (by simp only [execResetIntegratorVector, taken])
  case clearStreamErrors => exact stays (r := execClearStreamErrors s) (by simp only [execClearStreamErrors, taken])
  case drain => exact stays (r := execDrain s) (by simp only [execDrain, taken])
  case setTelemetry => exact stays (r := execSetTelemetry s) (by simp only [execSetTelemetry, taken])
  case safeShapeReadDone => exact stays (r := execSafeShapeReadDone s) (by simp only [execSafeShapeReadDone, working [9] (by decide)])
  case integratorVectorReadDone => exact stays (r := execIntegratorVectorReadDone s) (by simp only [execIntegratorVectorReadDone, working [14] (by decide)])
  case injectPatternReadDone => exact stays (r := execInjectPatternReadDone s) (by simp only [execInjectPatternReadDone, working [13] (by decide)])
  case slotReadReturn => exact stays (execSlotReadReturn_busy h.2 busy)
  case scanTimerExpiry =>
    change Keeps EditionLaw (execScanTimerExpiry s)
    unfold execScanTimerExpiry
    have armed : ∀ timer, EditionLaw { s with du := { s.du with scanTimer := timer } } := fun timer =>
      ⟨h.1.congr rfl, h.2.congr rfl⟩
    split
    · split
      · dsimp only
        split
        · exact finish s (readExpected_keeps_slots (armed _))
        · exact finish s (armed _)
      · exact keeps_stay h
    · exact keeps_stay h
  case ownerEndReport =>
    change Keeps EditionLaw (execOwnerEndReport s)
    unfold execOwnerEndReport
    split
    · exact keeps_stay h
    · exact finish s (takeOwnerEnd_keeps_slots _ (wires_keeps_slots _ h))
  case recordFreedReport =>
    change Keeps EditionLaw (execRecordFreedReport s)
    unfold execRecordFreedReport
    split
    · exact keeps_stay h
    · exact finish s (settleDrains_keeps_slots (mapDrains_keeps_slots _ (wires_keeps_slots _ h)))
  case drainIdleReport =>
    change Keeps EditionLaw (execDrainIdleReport s)
    unfold execDrainIdleReport
    split
    · exact finish s (takeIdleAtDu_keeps_slots h)
    · exact keeps_stay h
  case telemetryWrittenReport =>
    change Keeps EditionLaw (execTelemetryWrittenReport s)
    unfold execTelemetryWrittenReport
    split
    · exact keeps_stay h
    · exact finish s (settleDrains_keeps_slots (wires_keeps_slots _ h))
  case outcomeWriteDone =>
    change Keeps EditionLaw (execOutcomeWriteDone s)
    unfold execOutcomeWriteDone
    split
    · exact keeps_stay h
    · exact finish s (settleTickets_keeps_slots _ (wires_keeps_slots _ h))
  all_goals first
    | exact absurd (show true = false from changes) nofun
    | exact absurd (show false = true from leaves) nofun

/-- Settles O58: with no load in progress and the part not HALTED, a command that leaves the engine keeps the law whatever it does to the
Directive Unit; else no directive is in hand but the one that loads, and only reports reach the unit. -/
theorem stepsKeepSlots : Obligations.StepsKeepSlots := by
  intro s t slots load next
  refine (editionLaw_iff t).mp (editionLaw_speaksOf.step rfl (fun c s plain changes h => ?_) s t
    ((editionLaw_iff s).mpr ⟨slots, load⟩) next)
  cases engine : apartParts [.rce, .watch, .run] (commandParts c) with
  | false => exact engineCommand_keeps_slots plain engine h
  | true =>
    by_cases free : FreeOfLoad s
    · intro t next
      refine h.of_free free (touches_of_next plain next) (apartParts_iff.mpr fun p m changed => ?_)
      obtain command | report := List.mem_append.mp changed
      · exact apartParts_iff.mp engine p m command
      · exact apartParts_iff.mp (show apartParts [.rce, .watch, .run] reportParts = true from rfl) p m report
    · exact busyUnit_keeps_slots engine changes free h

end Sys2Proof.Machine

/-!
The Stream Table (02: R18 to R32): the moves a stream makes, and the laws of the streams that every step keeps.
-/
namespace Sys2Proof.Machine

/-! ### Moves of a stream -/

/-- The states a stream may enter from where it stands, by an event of its own or by START and STOP (R22, R25 to R28). -/
inductive Moves (x : Stream) : StreamState → Prop where
  | seeks (h : x.state = .locked ∨ x.state = .cut ∨ x.state = .standby) : Moves x .seeking
  | locks (h : x.state = .seeking) : Moves x .locked
  | cuts (h : x.timer.isSome = true) : Moves x .cut
  | stands (h : x.enabled = true) : Moves x .standby

/-- The counters a stream's received segments are shared between (R29). -/
def Counter.sharesReceived (c : Counter) : Prop :=
  c = .placed ∨ c = .duplicate ∨ c = .late ∨ c = .misinserted ∨ c = .malformed ∨ c = .seekingDiscards

/-- The counters that are raised in one step (R24 to R28, R31). -/
inductive RaisedTogether : List Counter → Prop where
  | received {c : Counter} (h : c.sharesReceived) : RaisedTogether [.received, c]
  | alone {c : Counter} (h : c ≠ .received ∧ ¬ c.sharesReceived) : RaisedTogether [c]

/-- A property of a stream, by its number, that no event of admission, assembly, START or STOP takes from it. -/
structure Steady (P : Fin 16 → Stream → Prop) : Prop where
  raised : ∀ i x cs, RaisedTogether cs → P i x → P i (cs.foldl Stream.bump x)
  enters : ∀ i x now st, Moves x st → P i x → P i (x.enter now st)
  timed : ∀ i x e, x.state = .locked ∨ x.state = .seeking → P i x → P i { x with timer := some e }
  marked : ∀ i x n b, P i x → P i { x with misinserts := n, awaiting := b }

/-- Every stream has a property. -/
def StreamsObey (P : Fin 16 → Stream → Prop) (s : State) : Prop := ∀ i : Fin 16, P i s.sau.streams[i]

theorem streamsObey_speaksOf (P : Fin 16 → Stream → Prop) : SpeaksOf [.sau] (StreamsObey P) := by
  intro s t same h i
  have sau : t.sau = s.sau := same .sau (by decide)
  rw [sau]
  exact h i

section
variable {P : Fin 16 → Stream → Prop} {s : State}

theorem StreamsObey.congr {t : State} (h : StreamsObey P s) (same : t.sau.streams = s.sau.streams) : StreamsObey P t := by
  intro i
  rw [same]
  exact h i

theorem mapStream_stream (i j : Fin 16) (f : Stream → Stream) (s : State) :
    (mapStream i f s).sau.streams[j] = if j = i then f s.sau.streams[i] else s.sau.streams[j] := by
  simp only [mapStream_sau]
  exact tweak_get ..

theorem StreamsObey.mapStream (h : StreamsObey P s) {i : Fin 16} {f : Stream → Stream} (kept : P i (f s.sau.streams[i])) :
    StreamsObey P (Machine.mapStream i f s) := by
  intro j
  rw [mapStream_stream]
  split
  · next same => subst same; exact kept
  · exact h j

theorem raiseCounters_streams (i : Fin 16) (cs : List Counter) (s : State) :
    (raiseCounters i cs s).sau.streams = (mapStream i (fun x => cs.foldl Stream.bump x) s).sau.streams := by
  simp only [raiseCounters]
  split <;> rfl

theorem StreamsObey.raiseCounters (steady : Steady P) (h : StreamsObey P s) (i : Fin 16) {cs : List Counter}
    (raised : RaisedTogether cs) : StreamsObey P (Machine.raiseCounters i cs s) :=
  (h.mapStream (steady.raised i _ cs raised (h i))).congr (raiseCounters_streams i cs s)

theorem StreamsObey.enterState (steady : Steady P) (h : StreamsObey P s) {i : Fin 16} {st : StreamState}
    (moves : Moves s.sau.streams[i] st) : StreamsObey P (Machine.enterState i st s) :=
  h.mapStream (steady.enters i _ _ st moves (h i))

theorem reportExit_streams (i : Fin 16) (s : State) : (reportExit i s).sau = s.sau := (reportExit_only i s).same .sau (by decide)

theorem StreamsObey.leaveFor (steady : Steady P) (h : StreamsObey P s) {i : Fin 16} {st : StreamState}
    (moves : Moves s.sau.streams[i] st) : StreamsObey P (Machine.leaveFor i st s) := by
  have sau := reportExit_streams i s
  exact (h.congr (congrArg Sau.streams sau)).enterState steady (by rw [sau]; exact moves)

/-! ### The Aside Queue leaves the streams -/

theorem beginAside_streams (s : State) : (beginAside s).sau.streams = s.sau.streams := by
  unfold beginAside
  split <;> rfl

theorem joinAside_streams (a : Arrival) (s : State) : (joinAside a s).sau.streams = s.sau.streams := by
  simp only [joinAside]
  split
  · rfl
  · split
    · exact beginAside_streams _
    · rfl

theorem leaveAside_streams (s : State) : (leaveAside s).sau.streams = s.sau.streams := beginAside_streams _

theorem asideWordRead_streams (w : WordRead) (s : State) : (asideWordRead w s).sau.streams = s.sau.streams := by
  unfold asideWordRead
  split
  · split <;> rfl
  · exact leaveAside_streams _
  · exact leaveAside_streams _

theorem advanceSlot_streams (s : State) : (advanceSlot s).sau.streams = s.sau.streams := by
  unfold advanceSlot
  split <;> rfl

theorem foreignPacket_streams (a : Arrival) (s : State) : (foreignPacket a s).sau.streams = s.sau.streams := by
  unfold foreignPacket
  split
  · exact joinAside_streams a s
  · rfl

/-! ### Admission and outcomes -/

theorem StreamsObey.seekingSegment (steady : Steady P) (h : StreamsObey P s) (i : Fin 16) (g : Option Segment) :
    StreamsObey P (Machine.seekingSegment i g s) := by
  have discarded := h.raiseCounters steady i (.received (c := .seekingDiscards) (by simp [Counter.sharesReceived]))
  unfold Machine.seekingSegment
  split
  · split
    · exact h.congr rfl
    · exact discarded
  · exact discarded

theorem StreamsObey.receivedSegment (steady : Steady P) (h : StreamsObey P s) (i : Fin 16) (g : Option Segment) :
    StreamsObey P (Machine.receivedSegment i g s) := by
  have timed : s.sau.streams[i].state = .locked ∨ s.sau.streams[i].state = .seeking →
      StreamsObey P (Machine.mapStream i (fun x => { x with timer := some (cutExpiry s.time x) }) s) := fun state =>
    h.mapStream (steady.timed i _ _ state (h i))
  simp only [Machine.receivedSegment]
  split
  · next locked => exact (timed (.inl locked)).congr rfl
  · next seeking => exact (timed (.inr seeking)).seekingSegment steady i g
  · next cut =>
    refine StreamsObey.seekingSegment steady ?_ i g
    have entered := h.enterState (i := i) steady (.seeks (.inr (.inl cut)))
    intro j
    have moved := entered j
    simp only [Machine.enterState, mapStream_stream] at moved ⊢
    split
    · next same =>
      subst same
      simpa [Stream.enter, cutExpiry] using moved
    · next other => simpa [other] using moved
  · exact h

theorem StreamsObey.admitSegment (steady : Steady P) (h : StreamsObey P s) (i : Fin 16) (l : Fin 8) (g : Option Segment) :
    StreamsObey P (Machine.admitSegment i l g s) := by
  unfold Machine.admitSegment
  split
  · exact h.raiseCounters steady i (.alone (by simp [Counter.sharesReceived]))
  · split
    · exact h.raiseCounters steady i (.alone (by simp [Counter.sharesReceived]))
    · exact h.receivedSegment steady i g

theorem StreamsObey.admitArrival (steady : Steady P) (h : StreamsObey P s) (a : Arrival) :
    StreamsObey P (Machine.admitArrival a s) := by
  have foreign := h.congr (foreignPacket_streams a s)
  unfold Machine.admitArrival
  split
  · exact foreign
  · split
    · exact foreign
    · exact h.admitSegment steady _ _ _
  · split
    · exact foreign
    · exact h.admitSegment steady _ _ _

theorem Judgement.counter_shares (j : Judgement) : j.counter.sharesReceived := by
  cases j <;> simp [Judgement.counter, Counter.sharesReceived]

/-- The stream an outcome may move is in the state its segment was handed over in. -/
theorem Stream.state_of_stays {x : Stream} {r : Returned} (h : x.stays r = true) :
    x.state = if r.fromLocked then .locked else .seeking := by
  simp only [Stream.stays, Bool.and_eq_true, beq_iff_eq] at h
  exact h.1

theorem StreamsObey.marked (steady : Steady P) (h : StreamsObey P s) (i : Fin 16) (n : Nat) (b : Bool) :
    StreamsObey P (Machine.mapStream i (fun x => { x with misinserts := n, awaiting := b }) s) :=
  h.mapStream (steady.marked i _ n b (h i))

theorem StreamsObey.setMisinserts (steady : Steady P) (h : StreamsObey P s) (i : Fin 16) (n : Nat) :
    StreamsObey P (Machine.setMisinserts i n s) :=
  h.mapStream (steady.marked i _ n s.sau.streams[i].awaiting (h i))

theorem StreamsObey.secondMisinsert (steady : Steady P) (h : StreamsObey P s) {i : Fin 16}
    (locked : s.sau.streams[i].state = .locked) : StreamsObey P (Machine.secondMisinsert i s) := by
  simp only [Machine.secondMisinsert]
  split
  · exact (h.marked steady i 2 true).congr rfl
  · exact h.leaveFor steady (.seeks (.inl locked))

theorem StreamsObey.outcomeMove (steady : Steady P) (h : StreamsObey P s) (r : Returned) :
    StreamsObey P (Machine.outcomeMove r s) := by
  simp only [Machine.outcomeMove]
  split
  · exact h
  · next stays =>
    have state := Stream.state_of_stays (by simpa using stays)
    split
    · next fromLocked =>
      rw [if_pos fromLocked] at state
      split
      · exact h
      · split
        · split
          · exact h.setMisinserts steady r.stream 1
          · exact h.secondMisinsert steady state
        · exact h.setMisinserts steady r.stream 0
    · next fromSeeking =>
      rw [if_neg fromSeeking] at state
      split
      · exact h.enterState steady (.locks state)
      · exact h

theorem passToClock_streams (r : Returned) (s : State) : (passToClock r s).sau = s.sau :=
  (passToClock_only r s).same .sau (by decide)

theorem StreamsObey.takeReturned (steady : Steady P) (h : StreamsObey P s) (r : Returned) :
    StreamsObey P (Machine.takeReturned r s) :=
  ((h.raiseCounters steady r.stream (.received r.judgement.counter_shares)).outcomeMove steady r).congr
    (congrArg Sau.streams (passToClock_streams r _))

theorem StreamsObey.cutStream (steady : Steady P) (h : StreamsObey P s) {i : Fin 16}
    (armed : s.sau.streams[i].timer.isSome = true) : StreamsObey P (Machine.cutStream i s) :=
  ((h.leaveFor steady (.cuts armed)).raiseCounters steady i (.alone (by simp [Counter.sharesReceived]))).congr rfl

theorem StreamsObey.reframeDone (steady : Steady P) (h : StreamsObey P s) (i : Fin 16) : StreamsObey P (Machine.reframeDone i s) := by
  have cleared : StreamsObey P (Machine.mapStream i (fun x => { x with awaiting := false }) s) :=
    h.mapStream (steady.marked i _ s.sau.streams[i].misinserts false (h i))
  simp only [Machine.reframeDone]
  split
  · next locked =>
    refine cleared.leaveFor steady (.seeks (.inl ?_))
    rw [mapStream_stream, if_pos rfl]
    exact locked
  · exact cleared

/-! ### Frame Assembly counts void frames -/

theorem StreamsObey.countVoidFrames (steady : Steady P) (h : StreamsObey P s) (x : Record) :
    StreamsObey P (Machine.countVoidFrames s x) := by
  refine law_foldl (fun u i hu => ?_) (allFin 16) h
  split
  · split
    · exact hu.raiseCounters steady i (.alone (by simp [Counter.sharesReceived]))
    · exact hu
  · exact hu

theorem StreamsObey.mapRecord (h : StreamsObey P s) (r : Fin 4) (f : Record → Record) : StreamsObey P (Machine.mapRecord r f s) :=
  h.congr rfl

theorem StreamsObey.closeRecord (steady : Steady P) (h : StreamsObey P s) (r : Fin 4) (c : CloseCause) :
    StreamsObey P (Machine.closeRecord r c s) :=
  (streamsObey_speaksOf P).of_only (dispatchCheck_only _) rfl ((h.mapRecord r _).countVoidFrames steady _)

theorem StreamsObey.completionCheck (steady : Steady P) (h : StreamsObey P s) (r : Fin 4) :
    StreamsObey P (Machine.completionCheck r s) := by
  unfold Machine.completionCheck
  split
  · exact h.closeRecord steady r .complete
  · exact h

theorem openRecord_obeys {f : Frame} (h : StreamsObey P s) : StreamsObey P (openRecord f s).2 :=
  (streamsObey_speaksOf P).of_only (openRecord_only f s) rfl h

theorem StreamsObey.judgeSegment (steady : Steady P) (h : StreamsObey P s) (i : Fin 16) (g : Segment) :
    StreamsObey P (Machine.judgeSegment i g s).2 := by
  simp only [Machine.judgeSegment]
  split
  · exact h
  · split
    · exact h
    · split
      · split
        · exact h
        · split
          · exact h
          · dsimp only
            split
            · exact (h.mapRecord _ _).completionCheck steady _
            · exact h.mapRecord _ _
      · split
        · have opened := openRecord_obeys (f := g.frame) h
          split
          · next e => rw [e] at opened; exact opened.mapRecord _ _
          · next e => rw [e] at opened; exact opened
        · exact h

theorem StreamsObey.placeHanded (steady : Steady P) (h : StreamsObey P s) (x : Handed) :
    StreamsObey P (Machine.placeHanded x s) := by
  simp only [Machine.placeHanded]
  refine StreamsObey.congr ?_ rfl
  split
  · exact h
  · exact h.judgeSegment steady _ _

theorem StreamsObey.startRecord (steady : Steady P) (h : StreamsObey P s) (r : Fin 4) (e : FrameStart) :
    StreamsObey P (Machine.startRecord r e s) := by
  simp only [Machine.startRecord]
  split
  · exact ((h.mapRecord _ _).completionCheck steady r).closeRecord steady r .deadline
  · exact (h.mapRecord _ _).completionCheck steady r

theorem StreamsObey.takeStart (steady : Steady P) (h : StreamsObey P s) (e : FrameStart) : StreamsObey P (Machine.takeStart e s) := by
  unfold Machine.takeStart
  split
  · exact h
  · split
    · split
      · exact h.startRecord steady _ e
      · exact h
    · split
      · have opened := openRecord_obeys (f := e.frame) h
        split
        · next x => rw [x] at opened; exact opened.startRecord steady _ e
        · next x => rw [x] at opened; exact opened
      · exact h

theorem StreamsObey.checkAll (steady : Steady P) (h : StreamsObey P s) (order : List (Fin 4)) :
    StreamsObey P (Machine.checkAll order s) :=
  law_foldl (fun _ r hu => hu.completionCheck steady r) _ h

/-! ### START and STOP (R22) -/

theorem StreamsObey.settleRun (steady : Steady P) (h : StreamsObey P s) : StreamsObey P (Machine.settleRun s) := by
  have handed : StreamsObey P (takeHandedAll s) :=
    law_foldl (fun _ x hu => hu.placeHanded steady x) s.wires.handed (h.congr rfl)
  have returned : StreamsObey P (takeReturnedAll (takeHandedAll s)) :=
    law_foldl (fun _ r hu => hu.takeReturned steady r) (takeHandedAll s).wires.returned (handed.congr rfl)
  intro i
  have stream : (Machine.settleRun s).sau.streams[i]
      = { (takeReturnedAll (takeHandedAll s)).sau.streams[i] with awaiting := false } := by
    simp [Machine.settleRun, forgetRun]
  rw [stream]
  exact steady.marked i _ (takeReturnedAll (takeHandedAll s)).sau.streams[i].misinserts false (returned i)

theorem StreamsObey.startStreams (steady : Steady P) (h : StreamsObey P s) : StreamsObey P (Machine.startStreams s) := by
  refine law_foldl (fun u i hu => ?_) (allFin 16) h
  split
  · next standby => exact hu.enterState steady (.seeks (.inr (.inr standby)))
  · exact hu

theorem StreamsObey.start (steady : Steady P) (h : StreamsObey P s) : StreamsObey P (Machine.start s) := by
  have begun : ∀ e, StreamsObey P (beginRun e s) := fun e =>
    (streamsObey_speaksOf P).of_only ((startBlocks_only _).andThen ((startCou_only e.links _).andThen (enterRun_only .running _))) rfl
      (h.startStreams steady)
  unfold Machine.start
  split
  · split
    · split
      · exact begun _
      · exact h.congr rfl
    · exact h.congr rfl
  · exact h.congr rfl

theorem StreamsObey.beforeStart (steady : Steady P) (h : StreamsObey P s) : StreamsObey P (Machine.beforeStart s) := by
  unfold Machine.beforeStart
  split
  · exact (streamsObey_speaksOf P).of_only (sendMsi_only ..) rfl (h.settleRun steady)
  · exact h

theorem StreamsObey.stopStreams (steady : Steady P) (h : StreamsObey P s) : StreamsObey P (Machine.stopStreams s) := by
  refine law_foldl (fun u i hu => ?_) (allFin 16) h
  split
  · next enabled => exact hu.enterState steady (.stands enabled)
  · exact hu

theorem StreamsObey.stop (steady : Steady P) (h : StreamsObey P s) : StreamsObey P (Machine.stop s) := by
  unfold Machine.stop
  split
  · have ended : StreamsObey P (takeOwnerEnds s) := (streamsObey_speaksOf P).of_only (takeOwnerEnds_only s) rfl h
    exact (streamsObey_speaksOf P).of_only ((abandonWaiting_only _).andThen ((stopDu_only _).andThen ((stopBlocks_only _).andThen
      ((enterRun_only .draining _).andThen (drainingCheck_only _))))) rfl (ended.stopStreams steady)
  · exact h.congr rfl

/-! ### The commands of admission, assembly and run control -/

/-- The commands that configure the Stream Table, or reset it. -/
def configuresStreams : Instr → Bool
  | .powerOn | .fundamentalReset | .hotReset | .functionLevelReset | .partReset | .setStream | .enableStreams | .disableStreams
  | .clearStreamErrors => true
  | _ => false

theorem steadyCommand_keeps (steady : Steady P) (h : StreamsObey P s) {c : Instr}
    (changes : apartParts [.sau] (commandParts c) = false) (other : configuresStreams c = false) :
    Keeps (StreamsObey P) (exec c s) := by
  have finish : ∀ {e : State} (b : State), StreamsObey P e → Keeps (StreamsObey P) (Machine.finish b e) := fun b =>
    (streamsObey_speaksOf P).finish rfl b
  have wired : ∀ w : Wires, StreamsObey P { s with wires := w } := fun w => h.congr rfl
  cases c
  case anchorReadDone =>
    change Keeps _ (execAnchorReadDone s)
    unfold execAnchorReadDone
    split
    · refine finish s ?_
      unfold anchorRead
      split
      · exact h.congr rfl
      · split <;> exact h.congr rfl
    · exact keeps_stay h
  case start => exact finish _ ((h.beforeStart steady).start steady)
  case stop => exact finish _ (StreamsObey.stop steady ((streamsObey_speaksOf P).of_only (beforeStop_changes s) rfl h))
  case packetAdmission link =>
    change Keeps _ (execPacketAdmission link s)
    unfold execPacketAdmission
    split
    · exact keeps_stay h
    · exact finish s ((wired _).admitArrival steady _)
  case asideWordReadDone =>
    change Keeps _ (execAsideWordReadDone s)
    unfold execAsideWordReadDone
    split
    · exact keeps_stay h
    · exact finish s ((wired _).congr (asideWordRead_streams _ _))
  case asideSlotWritten =>
    change Keeps _ (execAsideSlotWritten s)
    unfold execAsideSlotWritten
    split
    · exact finish s ((wired _).congr ((leaveAside_streams _).trans (advanceSlot_streams _)))
    · exact keeps_stay h
  case segmentPlacement stream =>
    change Keeps _ (execSegmentPlacement stream s)
    unfold execSegmentPlacement
    split
    · exact keeps_stay h
    · exact finish s ((wired _).placeHanded steady _)
  case segmentOutcome stream =>
    change Keeps _ (execSegmentOutcome stream s)
    unfold execSegmentOutcome
    split
    · exact keeps_stay h
    · exact finish s ((wired _).takeReturned steady _)
  case cutTimerExpiry stream =>
    change Keeps _ (execCutTimerExpiry stream s)
    unfold execCutTimerExpiry
    split
    · next armed =>
      split
      · exact finish s (h.cutStream steady (Option.isSome_iff_exists.mpr ⟨_, armed⟩))
      · exact keeps_stay h
    · exact keeps_stay h
  case lockedExitReport order =>
    change Keeps _ (execLockedExitReport order s)
    unfold execLockedExitReport
    split
    · exact keeps_stay h
    · exact finish s ((wired _).checkAll steady order)
  case misinsertReport =>
    change Keeps _ (execMisinsertReport s)
    unfold execMisinsertReport
    split
    · exact keeps_stay h
    · dsimp only
      split
      · exact finish s ((wired _).reframeDone steady _)
      · exact finish s ((streamsObey_speaksOf P).of_only (beginReframe_only _) rfl (wired _))
  case reframeConfirmation =>
    have confirmed : ∀ (x : Fck) (w : Wires), StreamsObey P { s with fck := x, wires := w } := fun x w => h.congr rfl
    change Keeps _ (execReframeConfirmation s)
    unfold execReframeConfirmation
    split
    · exact finish s ((confirmed _ _).reframeDone steady _)
    · exact keeps_stay h
  case frameStartTake =>
    change Keeps _ (execFrameStartTake s)
    unfold execFrameStartTake
    split
    · exact keeps_stay h
    · exact finish s ((wired _).takeStart steady _)
  case deadlineExpiry record =>
    change Keeps _ (execDeadlineExpiry record s)
    unfold execDeadlineExpiry
    split
    · split
      · exact finish s (h.closeRecord steady record .deadline)
      · exact keeps_stay h
    · exact keeps_stay h
  case setAsideFlag =>
    have ended : ∀ (d : BitVec 32) {u : State}, StreamsObey P u → StreamsObey P (done d u) := fun d u hu =>
      (streamsObey_speaksOf P).of_only (done_only d u) rfl hu
    change Keeps _ (execSetAsideFlag s)
    unfold execSetAsideFlag
    split
    · split
      · refine finish s ?_
        unfold setAsideFlag
        split
        · exact (streamsObey_speaksOf P).of_only (refuseField_only s) rfl h
        · split
          · split
            · exact (streamsObey_speaksOf P).of_only (refuseRange_only s) rfl h
            · exact ended 0 (h.congr rfl)
          · exact (streamsObey_speaksOf P).of_only (refuseRange_only s) rfl h
      · exact keeps_stay h
    · exact keeps_stay h
  all_goals first
    | exact absurd (show true = false from changes) nofun
    | exact absurd (show true = false from other) nofun

end

end Sys2Proof.Machine

namespace Sys2Proof.Machine

/-! ### The state and the cut timer of a stream (2.1, R20, R21, R28) -/

/-- What `StreamLaw` says of one stream. -/
def StateLaw (x : Stream) : Prop :=
  (x.state = .disabled ↔ x.enabled = false) ∧ (x.timer.isSome → x.state = .seeking ∨ x.state = .locked)

theorem streamLaw_iff (s : State) : StreamLaw s ↔ StreamsObey (fun _ => StateLaw) s :=
  ⟨fun h i => ⟨h.disabled i, h.timer i⟩, fun h => ⟨fun i => (h i).1, fun i => (h i).2⟩⟩

theorem foldl_bump_others (cs : List Counter) (x : Stream) : (cs.foldl Stream.bump x).state = x.state
    ∧ (cs.foldl Stream.bump x).enabled = x.enabled ∧ (cs.foldl Stream.bump x).timer = x.timer
    ∧ (cs.foldl Stream.bump x).config = x.config := by
  induction cs generalizing x with
  | nil => exact ⟨rfl, rfl, rfl, rfl⟩
  | cons c cs ih => exact ih (x.bump c)

theorem stateLaw_steady : Steady fun _ => StateLaw where
  raised := by
    intro _ x cs _ h
    obtain ⟨state, enabled, timer, _⟩ := foldl_bump_others cs x
    simpa only [StateLaw, state, enabled, timer] using h
  enters := by
    rintro _ x now st moves ⟨disabled, timer⟩
    cases moves with
    | seeks from' =>
      have enabled : x.enabled = true := by
        rcases from' with e | e | e <;> simpa [e] using disabled
      simp [StateLaw, Stream.enter, enabled]
    | locks seeking =>
      have enabled : x.enabled = true := by simpa [seeking] using disabled
      simp [StateLaw, Stream.enter, enabled]
    | cuts armed =>
      have enabled : x.enabled = true := by
        rcases timer armed with e | e <;> simpa [e] using disabled
      simp [StateLaw, Stream.enter, enabled]
    | stands enabled => simp [StateLaw, Stream.enter, enabled]
  timed := by
    rintro _ x e state ⟨disabled, _⟩
    exact ⟨disabled, fun _ => state.symm⟩
  marked := fun _ _ _ _ h => h

/-- The commands that configure the Stream Table keep a law of the streams, given how each of their changes keeps it. -/
structure Configurable (P : Fin 16 → Stream → Prop) : Prop where
  configured : ∀ i x c, P i x → P i { x with config := c }
  enabled : ∀ i x now st, x.enabled = false → st = .standby ∨ st = .seeking → P i x → P i (({ x with enabled := true } : Stream).enter now st)
  disabled : ∀ i x now, P i x → P i (({ x with enabled := false } : Stream).enter now .disabled)
  cleared : ∀ i x, P i x → P i { x with counters := .replicate 11 0 }
  reset : ∀ i x, P i x → P i x.partReset
  fresh : ∀ i, P i {}

/-! ### The directives of streams, and the resets, stream by stream (R18, R20 to R22, R32) -/

theorem enableStream_streams (s : State) (i : Fin 16) : (enableStream s i).sau.streams =
    if s.sau.streams[i].enabled then s.sau.streams
    else tweak s.sau.streams i fun x => ({ x with enabled := true } : Stream).enter s.time (enabledState s) := by
  unfold enableStream
  split
  · rfl
  · exact tweak_tweak ..

theorem disableStream_streams (s : State) (i : Fin 16) : (disableStream s i).sau.streams =
    tweak s.sau.streams i fun x => ({ x with enabled := false } : Stream).enter s.time .disabled := by
  have left := reportExit_streams i (mapStream i (fun x => { x with enabled := false }) s)
  have time : (reportExit i (mapStream i (fun x => { x with enabled := false }) s)).time = s.time :=
    (reportExit_only ..).same .time (by decide)
  simp only [disableStream, leaveFor, enterState, mapStream_sau, left, time]
  exact tweak_tweak ..

theorem partReset_streams (s : State) (i : Fin 16) : (partReset s).sau.streams[i] = s.sau.streams[i].partReset := by
  have sau : (partReset s).sau = (resetBlocks s).sau := (beginRelease_only _).same .sau (by decide)
  rw [sau]
  simp [resetBlocks]

theorem fullReset_sau (b : Bool) (s : State) : (fullReset b s).sau = {} := (beginRelease_only _).same .sau (by decide)

theorem fresh_streams (i : Fin 16) : ({} : Sau).streams[i] = {} := by
  simp

section
variable {P : Fin 16 → Stream → Prop} {s : State}

theorem StreamsObey.tweak (h : StreamsObey P s) {t : State} {i : Fin 16} {f : Stream → Stream}
    (streams : t.sau.streams = Machine.tweak s.sau.streams i f) (kept : P i (f s.sau.streams[i])) : StreamsObey P t :=
  (h.mapStream (f := f) kept).congr (t := t) streams

theorem StreamsObey.enableStream (conf : Configurable P) (h : StreamsObey P s) (i : Fin 16) :
    StreamsObey P (Machine.enableStream s i) := by
  have streams := enableStream_streams s i
  split at streams
  · exact h.congr streams
  · next off =>
    refine h.tweak streams (conf.enabled i _ _ _ (by simpa using off) ?_ (h i))
    unfold enabledState
    split
    · exact .inr rfl
    · exact .inl rfl

theorem StreamsObey.disableStream (conf : Configurable P) (h : StreamsObey P s) (i : Fin 16) :
    StreamsObey P (Machine.disableStream s i) :=
  h.tweak (disableStream_streams s i) (conf.disabled i _ _ (h i))

theorem StreamsObey.done (h : StreamsObey P s) (d : BitVec 32) : StreamsObey P (Machine.done d s) :=
  (streamsObey_speaksOf P).of_only (done_only d s) rfl h

theorem StreamsObey.refused (h : StreamsObey P s) :
    StreamsObey P (refuseField s) ∧ StreamsObey P (refuseRange s) ∧ StreamsObey P (refuseState s) :=
  ⟨(streamsObey_speaksOf P).of_only (refuseField_only s) rfl h, (streamsObey_speaksOf P).of_only (refuseRange_only s) rfl h,
    (streamsObey_speaksOf P).of_only (refuseState_only s) rfl h⟩

theorem StreamsObey.enableStreams (conf : Configurable P) (h : StreamsObey P s) (x : Hand) :
    StreamsObey P (Machine.enableStreams x s) := by
  obtain ⟨field, range, state⟩ := h.refused
  simp only [Machine.enableStreams]
  split
  · exact field
  · split
    · exact state
    · split
      · exact range
      · exact (law_foldl (law := StreamsObey P) (f := Machine.enableStream) (fun _ i hu => StreamsObey.enableStream conf hu i) _ h).done 0

theorem StreamsObey.disableStreams (conf : Configurable P) (h : StreamsObey P s) (x : Hand) :
    StreamsObey P (Machine.disableStreams x s) := by
  unfold Machine.disableStreams
  split
  · exact h.refused.1
  · exact (law_foldl (law := StreamsObey P) (f := Machine.disableStream) (fun _ i hu => StreamsObey.disableStream conf hu i) _ h).done 0

theorem StreamsObey.setStreamForm (conf : Configurable P) (h : StreamsObey P s) (x : Hand) :
    StreamsObey P (Machine.setStreamForm x s) := by
  obtain ⟨field, range, state⟩ := h.refused
  unfold Machine.setStreamForm
  split
  · exact field
  · split
    · unfold Machine.setStream
      split
      · exact state
      · split
        · exact range
        · exact (h.mapStream (conf.configured _ _ _ (h _))).done 0
    · exact range

theorem StreamsObey.clearStreamErrors (cleared : ∀ i x, P i x → P i { x with counters := .replicate 11 0 }) (h : StreamsObey P s)
    (x : Hand) : StreamsObey P (Machine.clearStreamErrors x s) := by
  unfold Machine.clearStreamErrors
  split
  · exact h.refused.1
  · have counters : StreamsObey P (clearCounters (field x.params 0 2) s) :=
      law_foldl (fun _ i hu => hu.mapStream (cleared i _ (hu i))) _ h
    exact (streamsObey_speaksOf P).of_only ((clearLinks_only ..).andThen ((with_rpu_only _ _).andThen (done_only ..))) rfl counters

theorem StreamsObey.partReset (reset : ∀ i x, P i x → P i x.partReset) (h : StreamsObey P s) :
    StreamsObey P (Machine.partReset s) := by
  intro i
  rw [partReset_streams]
  exact reset i _ (h i)

theorem StreamsObey.partResetCommand (reset : ∀ i x, P i x → P i x.partReset) (h : StreamsObey P s) :
    StreamsObey P (Machine.partResetCommand s) := by
  unfold Machine.partResetCommand
  split
  · exact h.congr rfl
  · exact h.partReset reset

/-- A law of the streams one by one that every move keeps, every command keeps. -/
theorem steady_keeps (steady : Steady P) (conf : Configurable P) {c : Instr} (changes : apartParts [.sau] (commandParts c) = false)
    (h : StreamsObey P s) : Keeps (StreamsObey P) (exec c s) := by
  have finish : ∀ {e : State} (b : State), StreamsObey P e → Keeps (StreamsObey P) (Machine.finish b e) := fun b =>
    (streamsObey_speaksOf P).finish rfl b
  have full : ∀ b, StreamsObey P (fullReset b s) := fun b i => by
    rw [fullReset_sau, fresh_streams]
    exact conf.fresh i
  cases other : configuresStreams c with
  | false => exact steadyCommand_keeps steady h changes other
  | true =>
    cases c
    case powerOn | fundamentalReset | hotReset => exact finish s (full _)
    case functionLevelReset => exact finish s (h.partReset conf.reset)
    case partReset => exact finish s (h.partResetCommand conf.reset)
    case setStream =>
      change Keeps _ (execSetStream s)
      unfold execSetStream
      split
      · split
        · exact keeps_stay h
        · exact finish s (h.setStreamForm conf _)
      · exact keeps_stay h
    case enableStreams =>
      change Keeps _ (execEnableStreams s)
      unfold execEnableStreams
      split
      · exact finish s (h.enableStreams conf _)
      · exact keeps_stay h
    case disableStreams =>
      change Keeps _ (execDisableStreams s)
      unfold execDisableStreams
      split
      · exact finish s (h.disableStreams conf _)
      · exact keeps_stay h
    case clearStreamErrors =>
      change Keeps _ (execClearStreamErrors s)
      unfold execClearStreamErrors
      split
      · exact finish s (h.clearStreamErrors conf.cleared _)
      · exact keeps_stay h
    all_goals exact absurd (show false = true from other) nofun

theorem steady_step (steady : Steady P) (conf : Configurable P) (s t : State) (h : StreamsObey P s) (next : step s = .next t) :
    StreamsObey P t :=
  (streamsObey_speaksOf P).step rfl (fun _ _ _ changes h => steady_keeps steady conf changes h) s t h next

end

theorem stateLaw_configurable : Configurable fun _ => StateLaw where
  configured := fun _ _ _ h => h
  enabled := by
    rintro _ x now st _ (rfl | rfl) _ <;> simp [StateLaw, Stream.enter]
  disabled := by
    intro _ x now _
    simp [StateLaw, Stream.enter]
  cleared := fun _ _ h => h
  reset := by
    rintro _ x _
    cases enabled : x.enabled <;> simp [StateLaw, Stream.partReset, enabled]
  fresh := by simp [StateLaw]

theorem step_keeps_streamLaw (s t : State) (h : StreamLaw s) (next : step s = .next t) : StreamLaw t :=
  (streamLaw_iff t).mpr (steady_step stateLaw_steady stateLaw_configurable s t ((streamLaw_iff s).mp h) next)

/-! ### The received count (R29) -/

/-- What `CountLaw` says of one stream. -/
def SharesReceived (x : Stream) : Prop :=
  x.counter .received = x.counter .placed + x.counter .duplicate + x.counter .late + x.counter .misinserted + x.counter .malformed
    + x.counter .seekingDiscards

theorem Counter.index_injective : Function.Injective Counter.index := by
  intro c d same
  cases c <;> cases d <;> first | rfl | exact absurd same (by decide)

theorem counter_bump (x : Stream) (c d : Counter) :
    (x.bump c).counter d = if d = c then x.counter d + 1 else x.counter d := by
  simp only [Stream.counter, Stream.bump, tweak_get, Counter.index_injective.eq_iff]
  split
  · next same => rw [same]
  · rfl

theorem sharesReceived_steady : Steady fun _ => SharesReceived where
  raised := by
    intro _ x cs raised h
    cases raised with
    | received shares =>
      simp only [SharesReceived, List.foldl_cons, List.foldl_nil, counter_bump] at h ⊢
      rcases shares with rfl | rfl | rfl | rfl | rfl | rfl <;> simp [h] <;> ring
    | alone other =>
      next c =>
      simp only [SharesReceived, List.foldl_cons, List.foldl_nil, counter_bump] at h ⊢
      cases c <;> simp_all [Counter.sharesReceived]
  enters := fun _ _ _ _ _ h => h
  timed := fun _ _ _ _ h => h
  marked := fun _ _ _ _ h => h

theorem sharesReceived_configurable : Configurable fun _ => SharesReceived where
  configured := fun _ _ _ h => h
  enabled := fun _ _ _ _ _ _ h => h
  disabled := fun _ _ _ h => h
  cleared := fun _ x _ => by simp [SharesReceived, Stream.counter]
  reset := fun _ x _ => by simp [SharesReceived, Stream.partReset, Stream.counter]
  fresh := fun _ => by simp [SharesReceived, Stream.counter]

theorem step_keeps_countLaw (s t : State) (h : CountLaw s) (next : step s = .next t) : CountLaw t :=
  steady_step (P := fun _ => SharesReceived) sharesReceived_steady sharesReceived_configurable s t h next

/-! ### Ranges and tags of enabled streams (2.1, R18, R20) -/

/-- A stream is enabled and configured as it was. -/
def SameEntry (s : State) (i : Fin 16) (x : Stream) : Prop :=
  x.enabled = s.sau.streams[i].enabled ∧ x.config = s.sau.streams[i].config

theorem sameEntry_steady (s : State) : Steady (SameEntry s) where
  raised := by
    intro i x cs _ h
    obtain ⟨_, enabled, _, config⟩ := foldl_bump_others cs x
    exact ⟨enabled.trans h.1, config.trans h.2⟩
  enters := fun _ _ _ _ _ h => h
  timed := fun _ _ _ _ h => h
  marked := fun _ _ _ _ h => h

theorem sameEntry_self (s : State) : StreamsObey (SameEntry s) s := fun _ => ⟨rfl, rfl⟩

theorem DisjointStreams.of_entries {s t : State} (h : DisjointStreams s)
    (same : ∀ i : Fin 16, t.sau.streams[i].enabled = true →
      s.sau.streams[i].enabled = true ∧ t.sau.streams[i].config = s.sau.streams[i].config) : DisjointStreams t := by
  intro i j apart hi hj
  rw [(same i hi).2, (same j hj).2]
  exact h i j apart (same i hi).1 (same j hj).1

theorem DisjointStreams.of_same {s t : State} (h : DisjointStreams s) (same : StreamsObey (SameEntry s) t) : DisjointStreams t :=
  h.of_entries fun i enabled => ⟨(same i).1 ▸ enabled, (same i).2⟩

theorem disjointStreams_speaksOf : SpeaksOf [.sau] DisjointStreams := by
  intro s t same h
  have sau : t.sau = s.sau := same .sau (by decide)
  exact h.of_entries fun i enabled => by rw [sau] at enabled ⊢; exact ⟨enabled, rfl⟩

theorem overlaps_comm (a n b m : Nat) : overlaps a n b m = overlaps b m a n := by
  simp only [overlaps, Bool.and_comm, Bool.and_left_comm]

theorem clashes_comm (c d : StreamConfig) : c.clashes d = d.clashes c := by
  simp only [StreamConfig.clashes, overlaps_comm c.base]
  congr 1
  exact Bool.beq_comm

theorem DisjointStreams.setStreamForm {s : State} (h : DisjointStreams s) (x : Hand) : DisjointStreams (Machine.setStreamForm x s) := by
  have leaves : ∀ {t}, OnlyChanges handParts s t → DisjointStreams t := fun only => disjointStreams_speaksOf.of_only only rfl h
  unfold Machine.setStreamForm
  split
  · exact leaves (refuseField_only s)
  · split
    · next small =>
      unfold Machine.setStream
      split
      · exact leaves (refuseState_only s)
      · split
        · exact leaves (refuseRange_only s)
        · next accepted =>
          refine disjointStreams_speaksOf.of_only (done_only 0 _) rfl ?_
          have clear : clashesEnabled ⟨x.stream, small⟩ (parseStream x) s = false := by simp_all
          simp only [clashesEnabled, List.any_eq_false, Bool.and_eq_true, bne_iff_ne, not_and, Bool.not_eq_true] at clear
          intro j k apart hj hk
          rw [mapStream_stream] at hj hk
          rw [mapStream_stream, mapStream_stream]
          split at hj
          · next hji =>
            have other : k ≠ ⟨x.stream, small⟩ := fun same => apart (hji.trans same.symm)
            rw [if_neg other] at hk
            rw [if_pos hji, if_neg other]
            exact clear k (mem_allFin k) ⟨other, hk⟩
          · next hji =>
            rw [if_neg hji]
            split at hk
            · next hki => rw [if_pos hki, clashes_comm]; exact clear j (mem_allFin j) ⟨hji, hj⟩
            · next hki => rw [if_neg hki]; exact h j k apart hj hk
    · exact leaves (refuseRange_only s)

theorem foldl_enableStream_entries (set : List (Fin 16)) (s : State) (j : Fin 16) :
    (set.foldl enableStream s).sau.streams[j].config = s.sau.streams[j].config
      ∧ ((set.foldl enableStream s).sau.streams[j].enabled = true → s.sau.streams[j].enabled = true ∨ j ∈ set) := by
  induction set generalizing s with
  | nil => exact ⟨rfl, .inl⟩
  | cons i set ih =>
    obtain ⟨config, enabled⟩ := ih (enableStream s i)
    have one : (enableStream s i).sau.streams[j].config = s.sau.streams[j].config
        ∧ ((enableStream s i).sau.streams[j].enabled = true → s.sau.streams[j].enabled = true ∨ j = i) := by
      rw [enableStream_streams]
      split
      · exact ⟨rfl, .inl⟩
      · rw [tweak_get]
        split
        · next same => subst same; exact ⟨rfl, fun _ => .inr rfl⟩
        · exact ⟨rfl, .inl⟩
    refine ⟨config.trans one.1, fun on => ?_⟩
    obtain on | mem := enabled on
    · obtain on | same := one.2 on
      · exact .inl on
      · exact .inr (same ▸ List.mem_cons_self)
    · exact .inr (List.mem_cons_of_mem _ mem)

theorem DisjointStreams.enableStreams {s : State} (h : DisjointStreams s) (x : Hand) : DisjointStreams (Machine.enableStreams x s) := by
  have leaves : ∀ {t}, OnlyChanges handParts s t → DisjointStreams t := fun only => disjointStreams_speaksOf.of_only only rfl h
  simp only [Machine.enableStreams]
  split
  · exact leaves (refuseField_only s)
  · split
    · exact leaves (refuseState_only s)
    · split
      · exact leaves (refuseRange_only s)
      · next clear =>
        refine disjointStreams_speaksOf.of_only (done_only 0 _) rfl ?_
        intro j k apart hj hk
        obtain ⟨configJ, enabledJ⟩ := foldl_enableStream_entries (streamsIn (field x.params 0 2)) s j
        obtain ⟨configK, enabledK⟩ := foldl_enableStream_entries (streamsIn (field x.params 0 2)) s k
        rw [configJ, configK]
        have member : ∀ i : Fin 16, s.sau.streams[i].enabled = true ∨ i ∈ streamsIn (field x.params 0 2) →
            i ∈ (allFin 16).filter fun i => s.sau.streams[i].enabled || (streamsIn (field x.params 0 2)).contains i := by
          intro i on
          rw [List.mem_filter]
          exact ⟨mem_allFin i, by simpa using on⟩
        simp only [anyClash, Bool.not_eq_true, List.any_eq_false, Bool.and_eq_true, bne_iff_ne, not_and] at clear
        exact clear j (member j (enabledJ hj)) k (member k (enabledK hk)) apart

theorem disableStream_entry (s : State) (i j : Fin 16) :
    (disableStream s i).sau.streams[j].config = s.sau.streams[j].config
      ∧ ((disableStream s i).sau.streams[j].enabled = true → s.sau.streams[j].enabled = true) := by
  rw [disableStream_streams, tweak_get]
  split
  · next same => subst same; exact ⟨rfl, fun on => absurd on (by simp [Stream.enter])⟩
  · exact ⟨rfl, id⟩

theorem DisjointStreams.disableStreams {s : State} (h : DisjointStreams s) (x : Hand) :
    DisjointStreams (Machine.disableStreams x s) := by
  unfold Machine.disableStreams
  split
  · exact disjointStreams_speaksOf.of_only (refuseField_only s) rfl h
  · refine disjointStreams_speaksOf.of_only (done_only 0 _) rfl
      (law_foldl (law := DisjointStreams) (f := disableStream) (fun u i hu => ?_) _ h)
    exact hu.of_entries fun j on => ⟨(disableStream_entry u i j).2 on, (disableStream_entry u i j).1⟩

theorem disjointStreams_keeps {c : Instr} {s : State} (changes : apartParts [.sau] (commandParts c) = false) (h : DisjointStreams s) :
    Keeps DisjointStreams (exec c s) := by
  have finish : ∀ {e : State} (b : State), DisjointStreams e → Keeps DisjointStreams (Machine.finish b e) := fun b =>
    disjointStreams_speaksOf.finish rfl b
  have full : ∀ b, DisjointStreams (fullReset b s) := fun b => h.of_entries fun i on => by
    rw [fullReset_sau, fresh_streams] at on
    exact absurd on nofun
  have part := h.of_same (StreamsObey.partReset (fun _ _ same => same) (sameEntry_self s))
  cases other : configuresStreams c with
  | false => exact fun t next => h.of_same (steadyCommand_keeps (sameEntry_steady s) (sameEntry_self s) changes other t next)
  | true =>
    cases c
    case powerOn | fundamentalReset | hotReset => exact finish s (full _)
    case functionLevelReset => exact finish s part
    case partReset =>
      exact finish s (h.of_same (StreamsObey.partResetCommand (fun _ _ same => same) (sameEntry_self s)))
    case setStream =>
      change Keeps _ (execSetStream s)
      unfold execSetStream
      split
      · split
        · exact keeps_stay h
        · exact finish s (h.setStreamForm _)
      · exact keeps_stay h
    case enableStreams =>
      change Keeps _ (execEnableStreams s)
      unfold execEnableStreams
      split
      · exact finish s (h.enableStreams _)
      · exact keeps_stay h
    case disableStreams =>
      change Keeps _ (execDisableStreams s)
      unfold execDisableStreams
      split
      · exact finish s (h.disableStreams _)
      · exact keeps_stay h
    case clearStreamErrors =>
      change Keeps _ (execClearStreamErrors s)
      unfold execClearStreamErrors
      split
      · exact finish s (h.of_same ((sameEntry_self s).clearStreamErrors (fun _ _ same => same) _))
      · exact keeps_stay h
    all_goals exact absurd (show false = true from other) nofun

theorem step_keeps_disjointStreams (s t : State) (h : DisjointStreams s) (next : step s = .next t) : DisjointStreams t :=
  disjointStreams_speaksOf.step rfl (fun _ _ _ changes h => disjointStreams_keeps changes h) s t h next

end Sys2Proof.Machine

/-!
The Frame Table (04: R51, R58, R66 to R72): which records carry which frame, and which one is DISPATCHED.
-/
namespace Sys2Proof.Machine

/-! ### Frame numbers of the records (R51) -/

/-- Every record in use was in use, with its frame. -/
def KeepsFrames (s t : State) : Prop :=
  ∀ i : Fin 4, t.fau.records[i].state ≠ .free → s.fau.records[i].state ≠ .free ∧ t.fau.records[i].frame = s.fau.records[i].frame

theorem KeepsFrames.refl (s : State) : KeepsFrames s s := fun _ used => ⟨used, rfl⟩

theorem KeepsFrames.trans {s t u : State} (h : KeepsFrames s t) (k : KeepsFrames t u) : KeepsFrames s u := fun i used =>
  have ⟨usedT, frameT⟩ := k i used
  have ⟨usedS, frameS⟩ := h i usedT
  ⟨usedS, frameT.trans frameS⟩

theorem KeepsFrames.of_only {s t : State} {ps : List Part} (only : OnlyChanges ps s t) (apart : apartParts [.fau] ps = true) :
    KeepsFrames s t := by
  have fau : t.fau = s.fau := only.same .fau (apartParts_iff.mp apart .fau (by decide))
  intro i used
  rw [fau] at used ⊢
  exact ⟨used, rfl⟩

theorem KeepsFrames.of_records {s t : State} (same : t.fau.records = s.fau.records) : KeepsFrames s t := by
  intro i used
  rw [same] at used ⊢
  exact ⟨used, rfl⟩

theorem KeepsFrames.foldl {α : Type} {f : State → α → State} (keeps : ∀ s a, KeepsFrames s (f s a)) (as : List α) (s : State) :
    KeepsFrames s (as.foldl f s) :=
  law_foldl (law := KeepsFrames s) (fun u a h => h.trans (keeps u a)) as (.refl s)

theorem DistinctFrames.of_keeps {s t : State} (h : DistinctFrames s) (keeps : KeepsFrames s t) : DistinctFrames t := by
  intro i j apart usedI usedJ
  obtain ⟨usedI', frameI⟩ := keeps i usedI
  obtain ⟨usedJ', frameJ⟩ := keeps j usedJ
  rw [frameI, frameJ]
  exact h i j apart usedI' usedJ'

theorem distinctFrames_speaksOf : SpeaksOf [.fau] DistinctFrames := by
  intro s t same h
  have fau : t.fau = s.fau := same .fau (by decide)
  exact h.of_keeps (.of_records (by rw [fau]))

theorem mapRecord_record (r i : Fin 4) (f : Record → Record) (s : State) :
    (mapRecord r f s).fau.records[i] = if i = r then f s.fau.records[r] else s.fau.records[i] := by
  simp only [mapRecord_fau]
  exact tweak_get ..

theorem keepsFrames_mapRecord {r : Fin 4} {f : Record → Record} {s : State}
    (kept : (f s.fau.records[r]).state ≠ .free →
      s.fau.records[r].state ≠ .free ∧ (f s.fau.records[r]).frame = s.fau.records[r].frame) : KeepsFrames s (mapRecord r f s) := by
  intro i used
  rw [mapRecord_record] at used ⊢
  split at used
  · next same =>
    subst same
    rw [if_pos rfl]
    exact kept used
  · next other =>
    rw [if_neg other]
    exact ⟨used, rfl⟩

theorem freeRecord_records (r : Fin 4) (s : State) : (freeRecord r s).fau.records = (mapRecord r (fun _ => {}) s).fau.records := rfl

theorem freeRecord_record (r i : Fin 4) (s : State) :
    (freeRecord r s).fau.records[i] = if i = r then {} else s.fau.records[i] :=
  mapRecord_record r i _ s

theorem keepsFrames_freeRecord (r : Fin 4) (s : State) : KeepsFrames s (freeRecord r s) :=
  (keepsFrames_mapRecord fun used => absurd rfl used).trans (.of_records (freeRecord_records r s).symm)

theorem keepsFrames_freeAll {count : State → State} (records : ∀ s, (count s).fau.records = s.fau.records) (rs : List (Fin 4))
    (s : State) : KeepsFrames s (freeAll count rs s) :=
  .foldl (fun u r => (keepsFrames_freeRecord r u).trans (.of_records (records _))) rs s

theorem keepsFrames_abandonWaiting (s : State) : KeepsFrames s (abandonWaiting s) :=
  keepsFrames_freeAll (count := countAbandoned) (fun _ => rfl) _ s

/-! ### Choosing a record -/

theorem newest_mem {s : State} {rs : List (Fin 4)} {r : Fin 4} (h : newest s rs = some r) : r ∈ rs := by
  induction rs generalizing r with
  | nil => simp [newest] at h
  | cons q rs ih =>
    unfold newest at h
    split at h
    · cases h; exact List.mem_cons_self
    · next p later =>
      split at h
      · cases h; exact List.mem_cons_of_mem _ (ih later)
      · cases h; exact List.mem_cons_self

theorem oldest_mem {s : State} {rs : List (Fin 4)} {r : Fin 4} (h : oldest s rs = some r) : r ∈ rs := by
  induction rs generalizing r with
  | nil => simp [oldest] at h
  | cons q rs ih =>
    unfold oldest at h
    split at h
    · cases h; exact List.mem_cons_self
    · next p later =>
      split at h
      · cases h; exact List.mem_cons_of_mem _ (ih later)
      · cases h; exact List.mem_cons_self

theorem mem_recordsIn {p : RecordState → Bool} {s : State} {r : Fin 4} : r ∈ recordsIn p s ↔ p s.fau.records[r].state = true := by
  simp [recordsIn, mem_allFin]

theorem recordOf_some {f : Frame} {s : State} {r : Fin 4} (h : recordOf f s = some r) :
    s.fau.records[r].state ≠ .free ∧ s.fau.records[r].frame = f := by
  have found := List.find?_some h
  simpa using found

theorem recordOf_none {f : Frame} {s : State} (h : recordOf f s = none) (r : Fin 4) (used : s.fau.records[r].state ≠ .free) :
    s.fau.records[r].frame ≠ f := by
  have none := List.find?_eq_none.mp h r (mem_allFin r)
  simp only [Bool.and_eq_true, bne_iff_ne, beq_iff_eq, not_and] at none
  exact none used

/-! ### Dispatch and closing -/

theorem keepsFrames_dispatch {r : Fin 4} {s : State} (closed : s.fau.records[r].state = .closed) : KeepsFrames s (dispatch r s) := by
  have dispatched : KeepsFrames s (mapRecord r (fun y => { y with state := .dispatched }) s) :=
    keepsFrames_mapRecord fun _ => ⟨by rw [closed]; nofun, rfl⟩
  exact ((dispatched.trans (keepsFrames_freeAll (count := countSkipped) (fun _ => rfl) _ _)).trans
    (keepsFrames_freeAll (count := countAbandoned) (fun _ => rfl) _ _)).trans (.of_records rfl)

theorem newest_closed {s : State} {r : Fin 4} (h : newest s (recordsIn (· == .closed) s) = some r) :
    s.fau.records[r].state = .closed := by
  simpa using mem_recordsIn.mp (newest_mem h)

theorem keepsFrames_dispatchCheck (s : State) : KeepsFrames s (dispatchCheck s) := by
  unfold dispatchCheck
  split
  · split
    · next r which => exact keepsFrames_dispatch (newest_closed which)
    · exact .refl s
  · exact .refl s

theorem keepsFrames_closeRecord {r : Fin 4} {s : State} (opened : s.fau.records[r].state = .opened) (c : CloseCause) :
    KeepsFrames s (closeRecord r c s) := by
  have closed : KeepsFrames s (mapRecord r (Record.close c s.time s.sau.streams) s) :=
    keepsFrames_mapRecord fun _ => ⟨by rw [opened]; nofun, rfl⟩
  exact (closed.trans (.of_only (countVoidFrames_only ..) rfl)).trans (keepsFrames_dispatchCheck _)

theorem opened_of_complete {x : Record} {streams : Vector Stream 16} (h : complete x streams = true) : x.state = .opened := by
  simp only [complete, Bool.and_eq_true, beq_iff_eq] at h
  exact h.1.1.1

theorem keepsFrames_completionCheck (r : Fin 4) (s : State) : KeepsFrames s (completionCheck r s) := by
  unfold completionCheck
  split
  · next h => exact keepsFrames_closeRecord (opened_of_complete h) .complete
  · exact .refl s

theorem keepsFrames_checkAll (order : List (Fin 4)) (s : State) : KeepsFrames s (checkAll order s) :=
  .foldl (fun u r => keepsFrames_completionCheck r u) _ s

theorem keepsFrames_makeRoom (s : State) : KeepsFrames s (makeRoom s) := by
  unfold makeRoom
  split
  · split
    · exact (keepsFrames_freeRecord _ s).trans (.of_records rfl)
    · exact .refl s
  · exact .refl s

theorem keepsFrames_release (r : Fin 4) (s : State) : KeepsFrames s (release r s) := by
  unfold release
  split
  · exact KeepsFrames.trans (t := { s with fau := { s.fau with lastGood := learn s.fau.records[r].slopes s.fau.lastGood } })
      (.of_records rfl) (keepsFrames_freeRecord r _)
  · exact .refl s

/-! ### Opening -/

/-- What opening a record does: room is made, and the lowest free record takes the frame. -/
theorem openRecord_cases (f : Frame) (s : State) :
    (openRecord f s = (none, makeRoom s) ∧ ∀ r : Fin 4, (makeRoom s).fau.records[r].state ≠ .free)
      ∨ ∃ r, (makeRoom s).fau.records[r].state = .free ∧ (openRecord f s).1 = some r
        ∧ (openRecord f s).2.fau.records = (mapRecord r (fun _ => { state := .opened, frame := f }) (makeRoom s)).fau.records := by
  simp only [openRecord]
  split
  · next none =>
    refine .inl ⟨rfl, fun r free => ?_⟩
    have mem : r ∈ recordsIn (· == .free) (makeRoom s) := mem_recordsIn.mpr (by rw [free]; rfl)
    rw [none] at mem
    exact absurd mem List.not_mem_nil
  · next r rest free =>
    refine .inr ⟨r, ?_, rfl, rfl⟩
    have mem := mem_recordsIn.mp (free ▸ List.mem_cons_self : r ∈ recordsIn (· == .free) (makeRoom s))
    simpa using mem

/-- A frame no record in use carries gets a record of its own. -/
theorem DistinctFrames.openRecord {s : State} (h : DistinctFrames s) {f : Frame} (fresh : recordOf f s = none) :
    DistinctFrames (Machine.openRecord f s).2 := by
  have room := keepsFrames_makeRoom s
  obtain ⟨none, _⟩ | ⟨r, _, _, records⟩ := openRecord_cases f s
  · rw [none]
    exact h.of_keeps room
  · have noOther : ∀ i : Fin 4, (makeRoom s).fau.records[i].state ≠ .free → (makeRoom s).fau.records[i].frame ≠ f := by
      intro i used
      obtain ⟨usedS, frame⟩ := room i used
      rw [frame]
      exact recordOf_none fresh i usedS
    intro i j apart usedI usedJ
    rw [records, mapRecord_record] at usedI usedJ
    rw [records, mapRecord_record, mapRecord_record]
    split at usedI
    · next hi =>
      have hj : j ≠ r := fun same => apart (hi.trans same.symm)
      rw [if_neg hj] at usedJ
      rw [if_pos hi, if_neg hj]
      exact (noOther j usedJ).symm
    · next hi =>
      rw [if_neg hi]
      split at usedJ
      · next hj => rw [if_pos hj]; exact noOther i usedI
      · next hj => rw [if_neg hj]; exact h.of_keeps room i j apart usedI usedJ

theorem keepsFrames_place (i : Fin 16) (base : Nat) (g : Segment) (r : Fin 4) (s : State) :
    KeepsFrames s (mapRecord r (Record.place i base g) s) :=
  keepsFrames_mapRecord fun used => ⟨used, rfl⟩

theorem DistinctFrames.judgeSegment {s : State} (h : DistinctFrames s) (i : Fin 16) (g : Segment) :
    DistinctFrames (Machine.judgeSegment i g s).2 := by
  simp only [Machine.judgeSegment]
  split
  · exact h
  · split
    · exact h
    · split
      · split
        · exact h
        · split
          · exact h
          · dsimp only
            split
            · exact h.of_keeps ((keepsFrames_place _ _ _ _ _).trans (keepsFrames_completionCheck _ _))
            · exact h.of_keeps (keepsFrames_place _ _ _ _ _)
      · next fresh =>
        split
        · have opened := h.openRecord fresh
          split
          · next e => rw [e] at opened; exact opened.of_keeps (keepsFrames_place _ _ _ _ _)
          · next e => rw [e] at opened; exact opened
        · exact h

theorem DistinctFrames.placeHanded {s : State} (h : DistinctFrames s) (x : Handed) : DistinctFrames (Machine.placeHanded x s) := by
  simp only [Machine.placeHanded]
  refine DistinctFrames.of_keeps ?_ (.of_records rfl)
  split
  · exact h
  · exact h.judgeSegment _ _

theorem keepsFrames_startRecord (r : Fin 4) (e : FrameStart) (s : State) : KeepsFrames s (startRecord r e s) := by
  have started := (keepsFrames_mapRecord (r := r) (s := s)
      (f := fun x => { x with started := some e.time, deadline := some (e.time + micros e.deadline) }) fun used => ⟨used, rfl⟩).trans
    (keepsFrames_completionCheck r _)
  simp only [startRecord]
  split
  · next expired => exact started.trans (keepsFrames_closeRecord (by simp_all) .deadline)
  · exact started

theorem DistinctFrames.takeStart {s : State} (h : DistinctFrames s) (e : FrameStart) : DistinctFrames (Machine.takeStart e s) := by
  unfold Machine.takeStart
  split
  · exact h
  · split
    · split
      · exact h.of_keeps (keepsFrames_startRecord _ _ _)
      · exact h
    · next fresh =>
      split
      · have opened := h.openRecord fresh
        split
        · next x => rw [x] at opened; exact opened.of_keeps (keepsFrames_startRecord _ _ _)
        · next x => rw [x] at opened; exact opened
      · exact h

/-! ### The engine, START and STOP -/

theorem keepsFrames_takeFrame (x : Handover) (i : SlotId) (e : Edition) (s : State) : KeepsFrames s (takeFrame x i e s) := by
  have handed : OnlyChanges [.rce, .wires] s
      (mapRce (fun r => { r with inUse := some i }) { s with wires := { s.wires with handover := none } }) :=
    ((with_wires_only _ s).andThen (mapRce_only ..)).among rfl
  simp only [takeFrame]
  split
  · exact (KeepsFrames.of_only (handed.andThen (mapRce_only ..)) rfl).trans (keepsFrames_release _ _)
  · exact .of_only (handed.andThen (mapRce_only ..)) rfl

theorem keepsFrames_endStreaming (f : FrameContext) (s : State) : KeepsFrames s (endStreaming f s) :=
  (KeepsFrames.of_only (mapRce_only ..) rfl).trans (keepsFrames_release _ _)

theorem DistinctFrames.settleRun {s : State} (h : DistinctFrames s) : DistinctFrames (Machine.settleRun s) := by
  have wired : DistinctFrames { s with wires := { s.wires with handed := [] } } :=
    distinctFrames_speaksOf.of_only (with_wires_only _ s) rfl h
  have handed : DistinctFrames (takeHandedAll s) :=
    law_foldl (law := DistinctFrames) (f := fun s x => Machine.placeHanded x s) (fun _ x hu => hu.placeHanded x) s.wires.handed wired
  exact distinctFrames_speaksOf.of_only ((takeReturnedAll_only _).andThen (forgetRun_only _)) rfl handed

theorem DistinctFrames.beforeStart {s : State} (h : DistinctFrames s) : DistinctFrames (Machine.beforeStart s) := by
  unfold Machine.beforeStart
  split
  · exact distinctFrames_speaksOf.of_only (sendMsi_only ..) rfl h.settleRun
  · exact h

theorem keepsFrames_startBlocks (s : State) : KeepsFrames s (startBlocks s) := .of_records rfl

theorem keepsFrames_beginRun (e : Edition) (s : State) : KeepsFrames s (beginRun e s) :=
  ((KeepsFrames.of_only (startStreams_only s) rfl).trans (keepsFrames_startBlocks _)).trans
    (.of_only ((startCou_only e.links _).andThen (enterRun_only .running _)) rfl)

theorem DistinctFrames.start {s : State} (h : DistinctFrames s) : DistinctFrames (Machine.start s) := by
  have refused : ∀ c, DistinctFrames (refuseRun c s) := fun c => distinctFrames_speaksOf.of_only (refuseRun_only c s) rfl h
  unfold Machine.start
  split
  · split
    · split
      · exact h.of_keeps (keepsFrames_beginRun _ s)
      · exact refused _
    · exact refused _
  · exact refused _

theorem DistinctFrames.stop {s : State} (h : DistinctFrames s) : DistinctFrames (Machine.stop s) := by
  unfold Machine.stop
  split
  · have ended : DistinctFrames (stopStreams (takeOwnerEnds s)) :=
      distinctFrames_speaksOf.of_only ((takeOwnerEnds_only s).andThen (stopStreams_only _)) rfl h
    exact distinctFrames_speaksOf.of_only ((stopDu_only _).andThen ((stopBlocks_only _).andThen
      ((enterRun_only .draining _).andThen (drainingCheck_only _)))) rfl (ended.of_keeps (keepsFrames_abandonWaiting _))
  · exact distinctFrames_speaksOf.of_only (refuseRun_only ..) rfl h

theorem distinctFrames_keeps {c : Instr} {s : State} (changes : apartParts [.fau] (commandParts c) = false) (h : DistinctFrames s) :
    Keeps DistinctFrames (exec c s) := by
  have finish : ∀ {e : State} (b : State), DistinctFrames e → Keeps DistinctFrames (Machine.finish b e) := fun b =>
    distinctFrames_speaksOf.finish rfl b
  have wired : ∀ w : Wires, DistinctFrames { s with wires := w } := fun w => distinctFrames_speaksOf.of_only (with_wires_only w s) rfl h
  have fresh : ∀ {u : State}, u.fau = {} → DistinctFrames u := fun none => by
    intro i j _ used
    rw [none] at used
    simp at used
  cases c
  case powerOn | fundamentalReset | hotReset => exact finish s (fresh ((beginRelease_only _).same .fau (by decide)))
  case functionLevelReset => exact finish s (fresh ((beginRelease_only _).same .fau (by decide)))
  case partReset =>
    refine finish s ?_
    unfold partResetCommand
    split
    · exact distinctFrames_speaksOf.of_only (refuseRun_only ..) rfl h
    · exact fresh ((beginRelease_only _).same .fau (by decide))
  case start => exact finish _ h.beforeStart.start
  case stop => exact finish _ (DistinctFrames.stop (distinctFrames_speaksOf.of_only (beforeStop_changes s) rfl h))
  case segmentPlacement stream =>
    change Keeps _ (execSegmentPlacement stream s)
    unfold execSegmentPlacement
    split
    · exact keeps_stay h
    · exact finish s ((wired _).placeHanded _)
  case lockedExitReport order =>
    change Keeps _ (execLockedExitReport order s)
    unfold execLockedExitReport
    split
    · exact keeps_stay h
    · exact finish s ((wired _).of_keeps (keepsFrames_checkAll order _))
  case frameStartTake =>
    change Keeps _ (execFrameStartTake s)
    unfold execFrameStartTake
    split
    · exact keeps_stay h
    · exact finish s ((wired _).takeStart _)
  case deadlineExpiry record =>
    change Keeps _ (execDeadlineExpiry record s)
    unfold execDeadlineExpiry
    split
    · split
      · next expired =>
        have opened : s.fau.records[record].state = .opened := by
          rw [Bool.and_eq_true, decide_eq_true_eq] at expired
          exact expired.1
        exact finish s (h.of_keeps (keepsFrames_closeRecord opened .deadline))
      · exact keeps_stay h
    · exact keeps_stay h
  case engineIdleReport =>
    change Keeps _ (execEngineIdleReport s)
    unfold execEngineIdleReport
    split
    · exact finish s ((wired _).of_keeps (keepsFrames_dispatchCheck _))
    · exact keeps_stay h
  case reframeRequest =>
    change Keeps _ (execReframeRequest s)
    unfold execReframeRequest
    split
    · exact finish s ((wired _).of_keeps ((keepsFrames_abandonWaiting _).trans (.of_records rfl)))
    · exact keeps_stay h
  case frameTake =>
    change Keeps _ (execFrameTake s)
    unfold execFrameTake
    split
    · exact finish s ((distinctFrames_speaksOf.of_only (beforeFrame_only s) rfl h).of_keeps (keepsFrames_takeFrame _ _ _ _))
    · exact keeps_stay h
  case streamingEnd =>
    change Keeps _ (execStreamingEnd s)
    unfold execStreamingEnd
    split
    · split
      · exact finish s (h.of_keeps (keepsFrames_endStreaming _ s))
      · exact keeps_stay h
    · exact keeps_stay h
  all_goals exact absurd (show true = false from changes) nofun

theorem step_keeps_distinctFrames (s t : State) (h : DistinctFrames s) (next : step s = .next t) : DistinctFrames t :=
  distinctFrames_speaksOf.step rfl (fun _ _ _ changes h => distinctFrames_keeps changes h) s t h next

end Sys2Proof.Machine

/-!
What grants, loads and reports leave aside: the way of a record to the engine (R66 to R70, R99), and the tickets of the Directive Unit
(R155, R158), which few operations move (`wayOf`, `ticketsOf`).
-/
namespace Sys2Proof.Machine

theorem apartParts_among {ps ps' qs : List Part} (apart : apartParts ps qs = true) (among : amongParts ps' ps = true) :
    apartParts ps' qs = true :=
  apartParts_iff.mpr fun p m => apartParts_iff.mp apart p (amongParts_iff.mp among p m)

/-- What says where a dispatched record is: the handover, the engine's state and the record of the engine's frame. -/
def wayOf (s : State) : Option Handover × EngineState × Option (Fin 4) :=
  (s.wires.handover, s.rce.state, s.rce.frame.map fun f => f.handed.record)

/-- The tickets taken and settled, and the Deferred List. -/
def ticketsOf (s : State) : Option Ticket × Option Ticket × List Ticket × List Deferred :=
  (s.du.takenThrough, s.du.settledThrough, s.du.unsettled, s.du.deferred)

/-- Both. -/
def asideOf (s : State) : (Option Handover × EngineState × Option (Fin 4)) × Option Ticket × Option Ticket × List Ticket × List Deferred :=
  (wayOf s, ticketsOf s)

theorem ticketsOf_only {ps : List Part} {s t : State} (only : OnlyChanges ps s t) (apart : apartParts [.du] ps = true) :
    ticketsOf t = ticketsOf s := by
  have du : t.du = s.du := only.same .du (apartParts_iff.mp apart .du (by decide))
  rw [ticketsOf, du, ticketsOf]

theorem wayOf_only {ps : List Part} {s t : State} (only : OnlyChanges ps s t) (apart : apartParts [.wires, .rce] ps = true) :
    wayOf t = wayOf s := by
  have wires : t.wires = s.wires := only.same .wires (apartParts_iff.mp apart .wires (by decide))
  have rce : t.rce = s.rce := only.same .rce (apartParts_iff.mp apart .rce (by decide))
  rw [wayOf, wires, rce, wayOf]

theorem asideOf_only {ps : List Part} {s t : State} (only : OnlyChanges ps s t) (apart : apartParts [.wires, .rce, .du] ps = true) :
    asideOf t = asideOf s :=
  Prod.ext (wayOf_only only (apartParts_among apart rfl)) (ticketsOf_only only (apartParts_among apart rfl))

/-- The engine's part alone moves the way alone. -/
theorem asideOf_of_way {ps : List Part} {s t : State} (only : OnlyChanges ps s t) (apart : apartParts [.du] ps = true)
    (way : wayOf t = wayOf s) : asideOf t = asideOf s :=
  Prod.ext way (ticketsOf_only only apart)

theorem wayOf_foldl {α : Type} {f : State → α → State} (same : ∀ s a, wayOf (f s a) = wayOf s) (as : List α) (s : State) :
    wayOf (as.foldl f s) = wayOf s :=
  law_foldl (law := fun u => wayOf u = wayOf s) (f := f) (fun u a h => (same u a).trans h) as rfl

theorem wayOf_with_wires (s : State) {w : Wires} (same : w.handover = s.wires.handover) : wayOf { s with wires := w } = wayOf s := by
  rw [wayOf, same, wayOf]

theorem wayOf_mapFrame {g : FrameContext → FrameContext} (same : ∀ f, (g f).handed = f.handed) (s : State) :
    wayOf (mapFrame g s) = wayOf s := by
  simp only [wayOf, mapFrame, Option.map_map, Function.comp_def, same]

/-! ### The engine's frame -/

theorem takeTaint_way (t : TaintReport) (s : State) : wayOf (takeTaint t s) = wayOf s := by
  unfold takeTaint
  split
  · exact wayOf_mapFrame (fun _ => by rfl) s
  · rfl

theorem takeTaints_way (s : State) : wayOf (takeTaints s) = wayOf s :=
  (wayOf_with_wires _ rfl).trans (wayOf_foldl (fun u t => takeTaint_way t u) s.wires.taints s)

theorem grantTile_way (met : CellError) (key granule : Nat) (s : State) : wayOf (grantTile met key granule s) = wayOf s := by
  unfold grantTile
  split
  · exact wayOf_mapFrame (fun _ => by rfl) s
  · dsimp only
    refine ((wayOf_mapFrame (fun f => ?_) _).trans (wayOf_with_wires _ rfl)).trans
      (wayOf_only ((meetError_only ..).andThen (readGranule_only ..)) rfl)
    split
    · unfold FrameContext.advance
      split <;> rfl
    · rfl

theorem grantTile_tickets (met : CellError) (key granule : Nat) (s : State) : ticketsOf (grantTile met key granule s) = ticketsOf s := by
  unfold grantTile
  split
  · rfl
  · dsimp only
    exact ticketsOf_only (((meetError_only ..).andThen (readGranule_only ..)).andThen
      ((with_wires_only _ _).andThen (mapFrame_only ..))) rfl

theorem takeTile_way (t : TileReturn) (bs : List Byte) (s : State) : wayOf (takeTile t bs s) = wayOf s := by
  unfold takeTile
  split
  · rfl
  · refine wayOf_mapFrame (fun f => ?_) s
    split <;> rfl

theorem takeTileError_way (t : TileReturn) (s : State) : wayOf (takeTileError t s) = wayOf s :=
  (show wayOf (takeTileError t s) = wayOf (mapFrame _ s) from rfl).trans (wayOf_mapFrame (fun _ => by rfl) s)

theorem takeChange_way (c : StoreChange) (s : State) : wayOf (takeChange c s) = wayOf s := by
  unfold takeChange
  split
  · exact wayOf_mapFrame (fun _ => by rfl) s
  · rfl

theorem watchWrite_way (g : Nat) (s : State) : wayOf (watchWrite g s) = wayOf s := by
  simp only [watchWrite]
  split <;> rfl

/-! ### Grants -/

theorem deliver_aside (a : Access) (bs : List Byte) (s : State) : asideOf (deliver a bs s) = asideOf s := by
  unfold deliver
  split
  case h_7 => exact asideOf_only (hostReturn_only ..) rfl
  all_goals rfl

theorem deliverError_aside (a : Access) (s : State) : asideOf (deliverError a s) = asideOf s := by
  unfold deliverError
  split
  case h_7 => exact asideOf_only ((raise_only ..).andThen (hostReturn_only ..)) rfl
  all_goals rfl

theorem written_aside (a : Access) (s : State) : asideOf (written a s) = asideOf s := by
  unfold written
  split
  · exact asideOf_of_way (watchWrite_only ..) rfl (watchWrite_way _ s)
  · rfl
  · rfl
  · rfl
  · exact asideOf_only (sealSnapshot_only s) rfl
  · rfl

theorem perform_aside (a : Access) (s : State) : asideOf (perform a s) = asideOf s := by
  have read : asideOf (readGranule a s).2 = asideOf s := asideOf_only (readGranule_only a s) rfl
  unfold perform
  split
  · split
    · next r => rw [r] at read; exact (deliver_aside ..).trans read
    · next r => rw [r] at read; exact (deliverError_aside ..).trans read
  · exact (written_aside ..).trans (asideOf_only (writeGranule_only ..) rfl)

theorem grantRotation_aside (met : CellError) (s : State) : asideOf (grantRotation met s) = asideOf s := by
  unfold grantRotation
  split
  · rfl
  · split
    · rfl
    · exact ((perform_aside ..).trans (asideOf_only (meetError_only ..) rfl)).trans rfl

theorem grant_aside (met : CellError) (s : State) : asideOf (grant met s) = asideOf s := by
  unfold grant
  split
  · exact grantRotation_aside met s
  · split
    · exact Prod.ext (grantTile_way ..) (grantTile_tickets ..)
    · split
      · exact Prod.ext (grantTile_way ..) (grantTile_tickets ..)
      · exact grantRotation_aside met s

/-! ### Links, streams and the clock -/

theorem portEvent_way (l : Fin 8) (s : State) (e : LineEvent) : wayOf (portEvent l s e) = wayOf s := by
  cases e with
  | complete bs =>
    show wayOf (packetEnd l bs s) = wayOf s
    unfold packetEnd
    split
    · rfl
    · split <;> rfl
  | _ => rfl

theorem portStep_way (l : Fin 8) (x : Receiver × List LineEvent) (s : State) : wayOf (portStep l x s) = wayOf s :=
  (wayOf_foldl (portEvent_way l) x.2 _).trans rfl

theorem seekingSegment_way (i : Fin 16) (g : Option Segment) (s : State) : wayOf (seekingSegment i g s) = wayOf s := by
  have counted : wayOf (raiseCounters i [.received, .seekingDiscards] s) = wayOf s := wayOf_only (raiseCounters_only ..) rfl
  unfold seekingSegment
  split
  · split
    · rfl
    · exact counted
  · exact counted

theorem receivedSegment_way (i : Fin 16) (g : Option Segment) (s : State) : wayOf (receivedSegment i g s) = wayOf s := by
  simp only [receivedSegment]
  split
  · rfl
  · exact (seekingSegment_way ..).trans rfl
  · exact (seekingSegment_way ..).trans rfl
  · rfl

theorem admitSegment_way (i : Fin 16) (l : Fin 8) (g : Option Segment) (s : State) : wayOf (admitSegment i l g s) = wayOf s := by
  unfold admitSegment
  split
  · exact wayOf_only (raiseCounters_only ..) rfl
  · split
    · exact wayOf_only (raiseCounters_only ..) rfl
    · exact receivedSegment_way ..

theorem admitArrival_way (a : Arrival) (s : State) : wayOf (admitArrival a s) = wayOf s := by
  have foreign : wayOf (foreignPacket a s) = wayOf s := wayOf_only (foreignPacket_only a s) rfl
  unfold admitArrival
  split
  · exact foreign
  · split
    · exact foreign
    · exact admitSegment_way ..
  · split
    · exact foreign
    · exact admitSegment_way ..

theorem leaveFor_way (i : Fin 16) (x : StreamState) (s : State) : wayOf (leaveFor i x s) = wayOf s := by
  have reported : wayOf (reportExit i s) = wayOf s := by
    unfold reportExit
    split <;> rfl
  exact (show wayOf (leaveFor i x s) = wayOf (reportExit i s) from rfl).trans reported

theorem outcomeMove_way (r : Returned) (s : State) : wayOf (outcomeMove r s) = wayOf s := by
  simp only [outcomeMove]
  split
  · rfl
  · split
    · split
      · rfl
      · split
        · split
          · rfl
          · unfold secondMisinsert
            split
            · rfl
            · exact leaveFor_way ..
        · rfl
    · split <;> rfl

theorem takeReturned_way (r : Returned) (s : State) : wayOf (takeReturned r s) = wayOf s := by
  have passed : ∀ u : State, wayOf (passToClock r u) = wayOf u := fun u => by
    unfold passToClock
    split <;> rfl
  exact ((passed _).trans (outcomeMove_way ..)).trans (wayOf_only (raiseCounters_only ..) rfl)

theorem cutStream_way (i : Fin 16) (s : State) : wayOf (cutStream i s) = wayOf s :=
  (wayOf_only ((raiseCounters_only ..).andThen (raise_only ..)) rfl).trans (leaveFor_way i .cut s)

theorem reframeDone_way (i : Fin 16) (s : State) : wayOf (reframeDone i s) = wayOf s := by
  simp only [reframeDone]
  split
  · exact (leaveFor_way ..).trans rfl
  · rfl

theorem takePace_way (f : Frame) (s : State) : wayOf (takePace f s) = wayOf s := by
  unfold takePace
  split <;> rfl

theorem expireFlywheel_way (e : Time) (l : Frame) (s : State) : wayOf (expireFlywheel e l s) = wayOf s := by
  simp only [expireFlywheel]
  split <;> rfl

/-! ### The Probe Unit and the Directive Unit -/

theorem runCopies_way (rs : List CopyRequest) (s : State) : wayOf (runCopies rs s) = wayOf s := by
  induction rs generalizing s with
  | nil => rfl
  | cons r rest ih =>
    unfold runCopies
    split
    · exact (ih _).trans rfl
    · rfl

theorem enqueueCopy_way (r : CopyRequest) (s : State) : wayOf (enqueueCopy r s) = wayOf s := by
  unfold enqueueCopy
  split
  · rfl
  · exact runCopies_way ..

theorem copyFail_way (r : CopyRequest) (code : Nat) (detail : BitVec 32) (s : State) : wayOf (copyFail r code detail s) = wayOf s :=
  (runCopies_way ..).trans rfl

theorem copyReturned_way (g : Staging) (j : ReadJob) (s : State) : wayOf (copyReturned g j s) = wayOf s := by
  unfold copyReturned
  split
  · exact (copyFail_way ..).trans rfl
  · split
    · simp only [tableEntryRead]
      split
      · exact copyFail_way ..
      · split
        · exact copyFail_way ..
        · rfl
    · simp only [patternRead]
      split
      · rfl
      · exact (runCopies_way ..).trans rfl

theorem joinProbe_way (h : Hand) (s : State) : wayOf (joinProbe h s) = wayOf s := by
  unfold joinProbe
  split
  · exact (enqueueCopy_way ..).trans (wayOf_only (joinList_only ..) rfl)
  · rfl

theorem setProbeCycle_way (h : Hand) (s : State) : wayOf (setProbeCycle h s) = wayOf s := by
  simp only [setProbeCycle]
  split
  · exact wayOf_only (refuseField_only s) rfl
  · split
    · exact wayOf_only (refuseRange_only s) rfl
    · exact joinProbe_way h s

theorem absorbFreed_way (s : State) : wayOf (absorbFreed s) = wayOf s := by
  have freed : wayOf (s.wires.recordsFreed.foldl (fun s r => mapDrains (DrainStage.freed r) s) s) = wayOf s :=
    wayOf_foldl (fun _ _ => by rfl) _ s
  exact (wayOf_only (advanceDrains_only _) rfl).trans freed

theorem takeDrain_way (h : Hand) (s : State) : wayOf (takeDrain h s) = wayOf s := by
  simp only [takeDrain]
  split
  · exact (wayOf_only (endHand_only ..) rfl).trans (absorbFreed_way s)
  · exact (wayOf_only (deferOrWait_only ..) rfl).trans (absorbFreed_way s)

theorem retryRoom_way (s : State) : wayOf (retryRoom s) = wayOf s := by
  unfold retryRoom
  split
  · split
    · unfold judgeAgain
      split
      · exact wayOf_only (judgeRetire_only ..) rfl
      · split
        · exact joinProbe_way ..
        · exact takeDrain_way ..
    · rfl
  · rfl

theorem settleDrains_way (s : State) : wayOf (settleDrains s) = wayOf s :=
  (retryRoom_way _).trans (wayOf_only (advanceDrains_only s) rfl)

theorem takeOwnerEnd_way (e : OwnerEnd) (s : State) : wayOf (takeOwnerEnd e s) = wayOf s := by
  unfold takeOwnerEnd
  split
  · exact (retryRoom_way _).trans (wayOf_only (endEntry_only e s) rfl)
  · rfl

theorem takeIdleAtDu_way (s : State) : wayOf (takeIdleAtDu s) = wayOf s := (settleDrains_way _).trans rfl

theorem takeOwnerEnds_way (s : State) : wayOf (takeOwnerEnds s) = wayOf s := by
  refine (wayOf_foldl (fun u e => ?_) s.wires.ownerEnds _).trans rfl
  unfold takeSuccess
  split
  · exact wayOf_only (endEntry_only e u) rfl
  · rfl

theorem disableStreams_way (h : Hand) (s : State) : wayOf (disableStreams h s) = wayOf s := by
  unfold disableStreams
  split
  · exact wayOf_only (refuseField_only s) rfl
  · exact (wayOf_only (done_only ..) rfl).trans
      (wayOf_foldl (f := disableStream) (fun u i => (leaveFor_way ..).trans rfl) _ s)

theorem vectorRead_way {j : ReadJob} {use : List Int → State → State} (same : ∀ vs u, wayOf (use vs u) = wayOf u) (s : State) :
    wayOf (vectorRead j use s) = wayOf s := by
  simp only [vectorRead]
  split
  · exact wayOf_only ((raise_only ..).andThen (endHand_only ..)) rfl
  · split
    · exact wayOf_only (endHand_only ..) rfl
    · exact same ..

/-! ### The end of the directive in hand, and its reads -/

theorem readExpected_tickets (s : State) : ticketsOf (readExpected s) = ticketsOf s := by
  unfold readExpected
  split <;> rfl

theorem endHand_tickets (code : Nat) (detail : BitVec 32) (s : State) : ticketsOf (endHand code detail s) = ticketsOf s := by
  unfold endHand
  split
  · rfl
  · exact ((readExpected_tickets _).trans (ticketsOf_only (finalOutcome_only ..) rfl)).trans rfl

theorem endHand_aside (code : Nat) (detail : BitVec 32) (s : State) : asideOf (endHand code detail s) = asideOf s :=
  Prod.ext (wayOf_only (endHand_only ..) rfl) (endHand_tickets ..)

theorem occupy_aside (p : Purpose) (a n : Nat) (s : State) : asideOf (occupy p a n s) = asideOf s := rfl

/-! ### Loads and the slots -/

theorem setSlot_aside (i : SlotId) (x : Slot) (s : State) : asideOf (setSlot i x s) = asideOf s := by
  cases i <;> rfl

theorem retireCurrent_aside (s : State) : asideOf (retireCurrent s) = asideOf s := by
  unfold retireCurrent
  split
  · rfl
  · exact setSlot_aside ..

theorem switchTo_aside (i : SlotId) (e : Edition) (s : State) : asideOf (switchTo i e s) = asideOf s :=
  (((endHand_aside ..).trans (show asideOf (rebuildWatch (setLoad none (setSlot i (.current e) (retireCurrent s)))) =
    asideOf (setSlot i (.current e) (retireCurrent s)) from rfl)).trans (setSlot_aside ..)).trans (retireCurrent_aside s)

theorem failLoad_aside (i : SlotId) (code : Nat) (detail : BitVec 32) (s : State) : asideOf (failLoad i code detail s) = asideOf s :=
  ((endHand_aside ..).trans (show asideOf (setLoad none (setSlot i .empty s)) = asideOf (setSlot i .empty s) from rfl)).trans
    (setSlot_aside ..)

theorem loadRead_aside (l : Load) (a n : Nat) (s : State) : asideOf (loadRead l a n s) = asideOf s := rfl

theorem readTileEntry_aside (l : Load) (e : Edition) (n : Nat) (s : State) : asideOf (readTileEntry l e n s) = asideOf s := by
  unfold readTileEntry
  split <;> rfl

theorem loadBytes_aside (l : Load) (e : Edition) (bs : List Byte) (s : State) : asideOf (loadBytes l e bs s) = asideOf s := by
  unfold loadBytes
  split
  · simp only [recordRead]
    split
    · exact failLoad_aside ..
    · exact (readTileEntry_aside ..).trans (setSlot_aside ..)
  · simp only [tileEntryRead]
    split
    · exact failLoad_aside ..
    · split
      · exact failLoad_aside ..
      · split
        · exact failLoad_aside ..
        · split
          · exact failLoad_aside ..
          · exact (readTileEntry_aside ..).trans (setSlot_aside ..)
  · exact (loadRead_aside ..).trans (setSlot_aside ..)
  · simp only [groupMapRead]
    split
    · exact failLoad_aside ..
    · exact switchTo_aside ..
  · simp only [groupTableRead]
    split
    · exact failLoad_aside ..
    · split <;> exact switchTo_aside ..

theorem repointSet_aside (h : Hand) (i : SlotId) (s : State) : asideOf (repointSet h i s) = asideOf s := by
  simp only [repointSet]
  split
  · rfl
  · split
    · exact failLoad_aside ..
    · split
      · exact failLoad_aside ..
      · exact switchTo_aside ..

theorem repointRemove_aside (h : Hand) (i : SlotId) (s : State) : asideOf (repointRemove h i s) = asideOf s := by
  simp only [repointRemove]
  split
  · rfl
  · split
    · exact failLoad_aside ..
    · exact switchTo_aside ..

theorem takeSlot_aside (h : Hand) (s : State) : asideOf (takeSlot h s) = asideOf s := by
  unfold takeSlot
  split
  · unfold beginLoad
    split
    · exact (occupy_aside ..).trans ((show asideOf (setLoad _ (setSlot _ _ s)) = asideOf (setSlot _ _ s) from rfl).trans
        (setSlot_aside ..))
    · split
      · unfold beginAmend
        split
        · rfl
        · exact (occupy_aside ..).trans
            ((show asideOf (setLoad _ (setSlot _ _ s)) = asideOf (setSlot _ _ s) from rfl).trans (setSlot_aside ..))
      · split
        · exact repointRemove_aside ..
        · exact repointSet_aside ..
  · rfl

theorem retrySlot_aside (s : State) : asideOf (retrySlot s) = asideOf s := by
  unfold retrySlot
  split
  · split
    · exact takeSlot_aside ..
    · rfl
  · rfl

theorem takeRelease_way (s : State) : wayOf (takeRelease s) = wayOf s :=
  ((retryRoom_way _).trans (congrArg Prod.fst (retrySlot_aside _))).trans (wayOf_only (endEntries_only _ s) rfl)

/-- A directive that takes a slot when its checks have passed, and is refused otherwise. -/
theorem adoption_aside (x : Hand) (s : State) : asideOf (adoptEdition x s) = asideOf s ∧ asideOf (amendGroups x s) = asideOf s
    ∧ asideOf (repointTileSet x s) = asideOf s ∧ asideOf (repointTileRemove x s) = asideOf s := by
  have field : asideOf (refuseField s) = asideOf s := endHand_aside ..
  have range : asideOf (refuseRange s) = asideOf s := endHand_aside ..
  have state : asideOf (refuseState s) = asideOf s := endHand_aside ..
  have taken := takeSlot_aside x s
  refine ⟨?_, ?_, ?_, ?_⟩
  · unfold adoptEdition
    split
    · exact field
    · split
      · exact range
      · exact taken
  · unfold amendGroups
    split
    · exact field
    · split
      · exact range
      · split
        · exact state
        · exact taken
  · unfold repointTileSet
    split
    · exact field
    · split
      · exact range
      · split
        · exact state
        · exact taken
  · unfold repointTileRemove
    split
    · exact field
    · split
      · exact range
      · split
        · exact state
        · exact taken

/-! ### Guards, outputs and reports -/

theorem takeGuards_way (s : State) : wayOf (takeGuards s) = wayOf s :=
  (wayOf_with_wires _ rfl).trans
    (wayOf_foldl (f := fun s g => takeGuard g s) (fun u g => wayOf_only (takeGuard_only g u) rfl) s.wires.guardReports s)

theorem noteQuiet_way (b s : State) : wayOf (noteQuiet b s) = wayOf s := by
  unfold noteQuiet
  split <;> rfl

theorem safeSent_way (l : Fin 4) (p : Packet) (s : State) : wayOf (safeSent l p s) = wayOf s :=
  (wayOf_only ((openWindow_only ..).andThen (mapLink_only ..)) rfl).trans rfl

theorem supplyProbe_way {f : FrameContext} {s : State} (frame : s.rce.frame = some f) : wayOf (supplyProbe f s) = wayOf s := by
  simp only [wayOf, frame]
  rfl

end Sys2Proof.Machine

/-!
The law of dispatch (R51, R66 to R70, R99): at most one record is DISPATCHED, and it is the one the way to the engine names.
-/
namespace Sys2Proof.Machine

/-- Every dispatched record was dispatched, and the way to the engine is as it was. -/
structure KeepsDispatch (s t : State) : Prop where
  records : ∀ i : Fin 4, t.fau.records[i].state = .dispatched → s.fau.records[i].state = .dispatched
  way : wayOf t = wayOf s

theorem KeepsDispatch.refl (s : State) : KeepsDispatch s s := ⟨fun _ h => h, rfl⟩

theorem KeepsDispatch.trans {s t u : State} (h : KeepsDispatch s t) (k : KeepsDispatch t u) : KeepsDispatch s u :=
  ⟨fun i d => h.records i (k.records i d), k.way.trans h.way⟩

theorem KeepsDispatch.of_way {ps : List Part} {s t : State} (only : OnlyChanges ps s t) (apart : apartParts [.fau] ps = true)
    (way : wayOf t = wayOf s) : KeepsDispatch s t := by
  have fau : t.fau = s.fau := only.same .fau (apartParts_iff.mp apart .fau (by decide))
  exact ⟨fun i d => by rwa [fau] at d, way⟩

theorem KeepsDispatch.of_only {ps : List Part} {s t : State} (only : OnlyChanges ps s t)
    (apart : apartParts [.fau, .wires, .rce] ps = true) : KeepsDispatch s t := by
  exact .of_way only (apartParts_among apart rfl) (wayOf_only only (apartParts_among apart rfl))

theorem KeepsDispatch.of_records {s t : State} (records : t.fau.records = s.fau.records) (way : wayOf t = wayOf s) :
    KeepsDispatch s t := ⟨fun i d => by rwa [records] at d, way⟩

theorem KeepsDispatch.foldl {α : Type} {f : State → α → State} (keeps : ∀ s a, KeepsDispatch s (f s a)) (as : List α) (s : State) :
    KeepsDispatch s (as.foldl f s) :=
  law_foldl (law := KeepsDispatch s) (fun u a h => h.trans (keeps u a)) as (.refl s)

/-- The law read off the way to the engine. -/
theorem DispatchLaw.of_keeps {s t : State} (h : DispatchLaw s) (keeps : KeepsDispatch s t) : DispatchLaw t := by
  obtain ⟨one, owned, onItsWay⟩ := h
  obtain ⟨records, way⟩ := keeps
  simp only [wayOf, Prod.mk.injEq] at way
  obtain ⟨handover, state, frame⟩ := way
  refine ⟨fun i j di dj => one i j (records i di) (records j dj), fun i d => ?_, fun given => ?_⟩
  · rw [handover, state]
    obtain given | ⟨streaming, f, hf, record⟩ := owned i (records i d)
    · exact .inl given
    · rw [hf] at frame
      obtain ⟨g, hg, same⟩ := Option.map_eq_some_iff.mp frame
      exact .inr ⟨streaming, g, hg, same.trans record⟩
  · rw [state]
    exact onItsWay (by rwa [handover] at given)

theorem dispatchLaw_speaksOf : SpeaksOf [.fau, .wires, .rce] DispatchLaw := by
  intro s t same h
  have fau : t.fau = s.fau := same .fau (by decide)
  have wires : t.wires = s.wires := same .wires (by decide)
  have rce : t.rce = s.rce := same .rce (by decide)
  exact h.of_keeps (.of_records (by rw [fau]) (by rw [wayOf, wires, rce, wayOf]))

theorem DispatchLaw.wired {s : State} (h : DispatchLaw s) {w : Wires} (same : w.handover = s.wires.handover) :
    DispatchLaw { s with wires := w } :=
  h.of_keeps (.of_records rfl (wayOf_with_wires s same))

/-- With no record dispatched and none on its way nothing is owed. -/
theorem dispatchLaw_of_none {s : State} (none : ∀ i : Fin 4, s.fau.records[i].state ≠ .dispatched)
    (handover : s.wires.handover = .none) : DispatchLaw s :=
  ⟨fun i _ d => absurd d (none i), fun i d => absurd d (none i), by simp [handover]⟩

/-- The record of a frame on its way, or of the frame the engine streams, is the only one dispatched. -/
theorem dispatchLaw_of_only {s : State} {r : Fin 4} (only : ∀ i : Fin 4, s.fau.records[i].state = .dispatched → i = r)
    (owned : (∃ h, s.wires.handover = some h ∧ h.record = r)
      ∨ (s.rce.state = .streaming ∧ ∃ f, s.rce.frame = some f ∧ f.handed.record = r))
    (onItsWay : s.wires.handover.isSome = true → s.rce.state = .idle) : DispatchLaw s :=
  ⟨fun i j di dj => (only i di).trans (only j dj).symm, fun i d => by rw [only i d]; exact owned, onItsWay⟩

/-- With nothing on its way and the engine not streaming, no record is dispatched. -/
theorem DispatchLaw.none {s : State} (h : DispatchLaw s) (handover : s.wires.handover = .none) (state : s.rce.state ≠ .streaming)
    (i : Fin 4) : s.fau.records[i].state ≠ .dispatched := by
  intro d
  obtain ⟨x, given, _⟩ | ⟨streaming, _⟩ := h.owned i d
  · exact absurd (handover.symm.trans given) nofun
  · exact state streaming

/-- An engine at work has nothing on its way to it. -/
theorem DispatchLaw.handover_none {s : State} (h : DispatchLaw s) (busy : s.rce.state ≠ .idle) : s.wires.handover = .none := by
  cases given : s.wires.handover with
  | none => rfl
  | some x => exact absurd (h.onItsWay (by rw [given]; rfl)) busy

/-! ### Records -/

theorem keepsDispatch_mapRecord {r : Fin 4} {f : Record → Record} {s : State}
    (kept : (f s.fau.records[r]).state = .dispatched → s.fau.records[r].state = .dispatched) : KeepsDispatch s (mapRecord r f s) := by
  refine ⟨fun i d => ?_, rfl⟩
  rw [mapRecord_record] at d
  split at d
  · next same => subst same; exact kept d
  · exact d

theorem keepsDispatch_freeRecord (r : Fin 4) (s : State) : KeepsDispatch s (freeRecord r s) := by
  refine ⟨fun i d => ?_, rfl⟩
  rw [freeRecord_record] at d
  split at d
  · cases d
  · exact d

theorem freeRecord_not_dispatched (r : Fin 4) (s : State) : (freeRecord r s).fau.records[r].state ≠ .dispatched := by
  rw [freeRecord_record, if_pos rfl]
  nofun

theorem keepsDispatch_freeAll {count : State → State} (counts : ∀ s, KeepsDispatch s (count s)) (rs : List (Fin 4)) (s : State) :
    KeepsDispatch s (freeAll count rs s) :=
  .foldl (fun u r => (keepsDispatch_freeRecord r u).trans (counts _)) rs s

theorem keepsDispatch_countAbandoned (s : State) : KeepsDispatch s (countAbandoned s) := .of_records rfl rfl

theorem keepsDispatch_countSkipped (s : State) : KeepsDispatch s (countSkipped s) := .of_records rfl rfl

theorem keepsDispatch_abandonWaiting (s : State) : KeepsDispatch s (abandonWaiting s) :=
  keepsDispatch_freeAll keepsDispatch_countAbandoned _ s

theorem keepsDispatch_makeRoom (s : State) : KeepsDispatch s (makeRoom s) := by
  unfold makeRoom
  split
  · split
    · exact (keepsDispatch_freeRecord _ s).trans (.of_records rfl rfl)
    · exact .refl s
  · exact .refl s

theorem openRecord_way (f : Frame) (s : State) : wayOf (openRecord f s).2 = wayOf s := by
  have room := (keepsDispatch_makeRoom s).way
  simp only [openRecord]
  split
  · exact room
  · exact Eq.trans rfl room

theorem keepsDispatch_openRecord (f : Frame) (s : State) : KeepsDispatch s (openRecord f s).2 := by
  have room := keepsDispatch_makeRoom s
  obtain ⟨none, _⟩ | ⟨r, _, _, records⟩ := openRecord_cases f s
  · rw [none]
    exact room
  · refine ⟨fun i d => ?_, openRecord_way f s⟩
    rw [records, mapRecord_record] at d
    split at d
    · cases d
    · exact room.records i d

theorem release_keeps (r : Fin 4) (s : State) : KeepsDispatch s (release r s) := by
  unfold release
  split
  · exact KeepsDispatch.trans (t := { s with fau := { s.fau with lastGood := learn s.fau.records[r].slopes s.fau.lastGood } })
      (.of_records rfl rfl) (keepsDispatch_freeRecord r _)
  · exact .refl s

theorem release_not_dispatched (r : Fin 4) (s : State) : (release r s).fau.records[r].state ≠ .dispatched := by
  unfold release
  split
  · exact freeRecord_not_dispatched r _
  · next other => exact other

/-- Releasing the only record dispatched leaves none. -/
theorem release_none {r : Fin 4} {s : State} (only : ∀ i : Fin 4, s.fau.records[i].state = .dispatched → i = r) (i : Fin 4) :
    (release r s).fau.records[i].state ≠ .dispatched := by
  intro d
  have same := only i ((release_keeps r s).records i d)
  subst same
  exact release_not_dispatched i s d

/-! ### Dispatch and closing -/

/-- With the engine IDLE no record is dispatched; the one that is now is on its way. -/
theorem DispatchLaw.dispatch {s : State} (h : DispatchLaw s) (idle : engineIdleAtFau s = true) (r : Fin 4) :
    DispatchLaw (Machine.dispatch r s) := by
  simp only [engineIdleAtFau, Bool.and_eq_true, beq_iff_eq, Option.isNone_iff_eq_none] at idle
  obtain ⟨⟨state, handover⟩, _⟩ := idle
  have none := h.none handover (by rw [state]; nofun)
  have freed : KeepsDispatch (mapRecord r (fun y => { y with state := .dispatched }) s) _ :=
    (keepsDispatch_freeAll keepsDispatch_countSkipped ((recordsIn (· == .closed) s).filter fun q => q != r) _).trans
      (keepsDispatch_freeAll keepsDispatch_countAbandoned ((recordsIn (· == .opened) s).filter fun q =>
        !Frame.newerBy Config.openAhead s.fau.records[q].frame s.fau.records[r].frame) _)
  have rce : (Machine.dispatch r s).rce = s.rce := (dispatch_only r s).same .rce (by decide)
  refine dispatchLaw_of_only (r := r) (fun i d => ?_) (.inl ⟨_, rfl, rfl⟩) fun _ => by rw [rce, state]
  have before := freed.records i d
  rw [mapRecord_record] at before
  split at before
  · assumption
  · exact absurd before (none i)

theorem DispatchLaw.dispatchCheck {s : State} (h : DispatchLaw s) : DispatchLaw (Machine.dispatchCheck s) := by
  unfold Machine.dispatchCheck
  split
  · next idle =>
    split
    · exact h.dispatch idle _
    · exact h
  · exact h

theorem DispatchLaw.closeRecord {s : State} (h : DispatchLaw s) (r : Fin 4) (c : CloseCause) :
    DispatchLaw (Machine.closeRecord r c s) := by
  have closed : KeepsDispatch s (mapRecord r (Record.close c s.time s.sau.streams) s) := keepsDispatch_mapRecord fun d => nomatch d
  exact (h.of_keeps (closed.trans (.of_only (countVoidFrames_only ..) rfl))).dispatchCheck

theorem DispatchLaw.completionCheck {s : State} (h : DispatchLaw s) (r : Fin 4) : DispatchLaw (Machine.completionCheck r s) := by
  unfold Machine.completionCheck
  split
  · exact h.closeRecord r .complete
  · exact h

theorem DispatchLaw.checkAll {s : State} (h : DispatchLaw s) (order : List (Fin 4)) : DispatchLaw (Machine.checkAll order s) :=
  law_foldl (law := DispatchLaw) (f := fun s r => Machine.completionCheck r s) (fun _ r hu => hu.completionCheck r) _ h

theorem keepsDispatch_place (i : Fin 16) (base : Nat) (g : Segment) (r : Fin 4) (s : State) :
    KeepsDispatch s (mapRecord r (Record.place i base g) s) :=
  keepsDispatch_mapRecord fun d => d

theorem DispatchLaw.judgeSegment {s : State} (h : DispatchLaw s) (i : Fin 16) (g : Segment) :
    DispatchLaw (Machine.judgeSegment i g s).2 := by
  simp only [Machine.judgeSegment]
  split
  · exact h
  · split
    · exact h
    · split
      · split
        · exact h
        · split
          · exact h
          · dsimp only
            split
            · exact (h.of_keeps (keepsDispatch_place ..)).completionCheck _
            · exact h.of_keeps (keepsDispatch_place ..)
      · split
        · have opened := h.of_keeps (keepsDispatch_openRecord g.frame s)
          split
          · next e => rw [e] at opened; exact opened.of_keeps (keepsDispatch_place _ _ _ _ _)
          · next e => rw [e] at opened; exact opened
        · exact h

theorem DispatchLaw.placeHanded {s : State} (h : DispatchLaw s) (x : Handed) : DispatchLaw (Machine.placeHanded x s) := by
  simp only [Machine.placeHanded]
  split
  · exact h.wired rfl
  · exact (h.judgeSegment _ _).wired rfl

theorem DispatchLaw.startRecord {s : State} (h : DispatchLaw s) (r : Fin 4) (e : FrameStart) :
    DispatchLaw (Machine.startRecord r e s) := by
  have started := (h.of_keeps (keepsDispatch_mapRecord (r := r)
    (f := fun x => { x with started := some e.time, deadline := some (e.time + micros e.deadline) }) fun d => d)).completionCheck r
  simp only [Machine.startRecord]
  split
  · exact started.closeRecord r .deadline
  · exact started

theorem DispatchLaw.takeStart {s : State} (h : DispatchLaw s) (e : FrameStart) : DispatchLaw (Machine.takeStart e s) := by
  unfold Machine.takeStart
  split
  · exact h
  · split
    · split
      · exact h.startRecord _ _
      · exact h
    · split
      · have opened := h.of_keeps (keepsDispatch_openRecord e.frame s)
        split
        · next x => rw [x] at opened; exact opened.startRecord _ _
        · next x => rw [x] at opened; exact opened
      · exact h

/-! ### The engine -/

/-- The engine takes the record on its way: it streams it, or releases it at once. -/
theorem DispatchLaw.takeFrame {s : State} (h : DispatchLaw s) {x : Handover} (given : s.wires.handover = some x) (i : SlotId)
    (e : Edition) : DispatchLaw (Machine.takeFrame x i e s) := by
  have idle : s.rce.state = .idle := h.onItsWay (by rw [given]; rfl)
  have only : ∀ j : Fin 4, s.fau.records[j].state = .dispatched → j = x.record := by
    intro j d
    obtain ⟨y, taken, record⟩ | ⟨streaming, _⟩ := h.owned j d
    · cases given.symm.trans taken
      exact record.symm
    · exact absurd (idle.symm.trans streaming) nofun
  simp only [Machine.takeFrame]
  split
  · refine dispatchLaw_of_none (release_none fun j d => only j d) ?_
    exact congrArg Prod.fst (release_keeps _ _).way
  · exact dispatchLaw_of_only (r := x.record) (fun j d => only j d) (.inr ⟨rfl, _, rfl, rfl⟩) nofun

/-- The record of the frame that has been streamed is released. -/
theorem DispatchLaw.endStreaming {s : State} (h : DispatchLaw s) {f : FrameContext} (streaming : s.rce.state = .streaming)
    (frame : s.rce.frame = some f) : DispatchLaw (Machine.endStreaming f s) := by
  have handover := h.handover_none (by rw [streaming]; nofun)
  have only : ∀ j : Fin 4, s.fau.records[j].state = .dispatched → j = f.handed.record := by
    intro j d
    obtain ⟨y, taken, _⟩ | ⟨_, g, taken, record⟩ := h.owned j d
    · exact absurd (handover.symm.trans taken) nofun
    · cases frame.symm.trans taken
      exact record.symm
  refine dispatchLaw_of_none (release_none fun j d => only j d) ?_
  exact (congrArg Prod.fst (release_keeps _ _).way).trans handover

theorem handTelemetry_handover (t : TelemetrySet) (s : State) : (handTelemetry t s).wires.handover = s.wires.handover := by
  simp only [handTelemetry]
  split <;> rfl

theorem endFrame_handover (s : State) : (endFrame s).wires.handover = s.wires.handover := by
  have released : ∀ (i : SlotId) (u : State), (releaseSlot i u).wires.handover = u.wires.handover := fun i u => by
    unfold releaseSlot
    split
    · have emptied : (setSlot i .empty u).wires.handover = u.wires.handover :=
        congrArg Wires.handover ((setSlot_only i .empty u).same .wires (by decide))
      exact emptied
    · rfl
  unfold endFrame
  split
  · exact released _ _
  · rfl

theorem completeFrame_handover (late : List (Fin 1024)) (f : FrameContext) (s : State) :
    (completeFrame late f s).wires.handover = s.wires.handover := by
  have changed : ∀ (cs : List StoreChange) (u : State),
      (cs.foldl (fun s c => applyChange c s) u).wires = u.wires := fun cs u =>
    (OnlyChanges.foldl (fun u c => applyChange_only c u) cs u).same .wires (by decide)
  simp only [completeFrame]
  rw [endFrame_handover, changed]
  refine (handTelemetry_handover ..).trans ?_
  show Wires.handover (State.wires (if _ then _ else _)) = _
  split
  · exact congrArg Wires.handover ((commitFrame_only ..).same .wires (by decide))
  · rfl

/-- A frame concludes with no record of it left. -/
theorem DispatchLaw.completeFrame {s : State} (h : DispatchLaw s) (concluding : s.rce.state = .concluding) (late : List (Fin 1024))
    (f : FrameContext) : DispatchLaw (Machine.completeFrame late f s) := by
  have handover := h.handover_none (by rw [concluding]; nofun)
  have fau : (Machine.completeFrame late f s).fau = s.fau := (completeFrame_only late f s).same .fau (by decide)
  refine dispatchLaw_of_none (fun i => ?_) ((completeFrame_handover late f s).trans handover)
  rw [fau]
  exact h.none handover (by rw [concluding]; nofun) i

/-! ### START and STOP -/

theorem DispatchLaw.settleRun {s : State} (h : DispatchLaw s) : DispatchLaw (Machine.settleRun s) := by
  have handed : DispatchLaw (takeHandedAll s) :=
    law_foldl (law := DispatchLaw) (f := fun s x => Machine.placeHanded x s) (fun _ x hu => hu.placeHanded x) s.wires.handed
      (h.wired rfl)
  have returned : wayOf (takeReturnedAll (takeHandedAll s)) = wayOf (takeHandedAll s) :=
    (wayOf_foldl (f := fun s r => takeReturned r s) (fun u r => takeReturned_way r u) _ _).trans (wayOf_with_wires _ rfl)
  exact (handed.of_keeps (.of_way (takeReturnedAll_only _) rfl returned)).of_keeps (.of_way (forgetRun_only _) rfl rfl)

theorem DispatchLaw.beforeStart {s : State} (h : DispatchLaw s) : DispatchLaw (Machine.beforeStart s) := by
  unfold Machine.beforeStart
  split
  · exact h.settleRun.of_keeps (.of_only (sendMsi_only ..) rfl)
  · exact h

theorem DispatchLaw.start {s : State} (h : DispatchLaw s) : DispatchLaw (Machine.start s) := by
  have refused : ∀ c, DispatchLaw (refuseRun c s) := fun c => h.of_keeps (.of_only (refuseRun_only c s) rfl)
  have begun : ∀ e, DispatchLaw (beginRun e s) := fun e => by
    have blocks : ∀ u : State, KeepsDispatch u (startBlocks u) := fun u => .of_records rfl rfl
    exact h.of_keeps (((KeepsDispatch.of_only (startStreams_only s) rfl).trans (blocks _)).trans
      (.of_only ((startCou_only e.links _).andThen (enterRun_only .running _)) rfl))
  unfold Machine.start
  split
  · split
    · split
      · exact begun _
      · exact refused _
    · exact refused _
  · exact refused _

theorem beforeEnd_way (b s : State) : wayOf (beforeEnd b s) = wayOf s := by
  unfold beforeEnd
  split
  · exact (wayOf_only (sendMsi_only ..) rfl).trans (takeGuards_way s)
  · rfl

theorem keepsDispatch_beforeEnd (b s : State) : KeepsDispatch s (beforeEnd b s) :=
  .of_way (beforeEnd_changes b s) rfl (beforeEnd_way b s)

theorem keepsDispatch_beforeStop (s : State) : KeepsDispatch s (beforeStop s) := by
  unfold beforeStop
  split
  · exact keepsDispatch_beforeEnd s s
  · exact .refl s

theorem keepsDispatch_drainingCheck (s : State) : KeepsDispatch s (drainingCheck s) := by
  refine .of_way (drainingCheck_only s) rfl ?_
  unfold drainingCheck
  split
  · have armed : wayOf (armScanAgain (quietCou s)) = wayOf s := by
      unfold armScanAgain
      split <;> rfl
    exact armed
  · rfl

theorem DispatchLaw.stop {s : State} (h : DispatchLaw s) : DispatchLaw (Machine.stop s) := by
  unfold Machine.stop
  split
  · have ended : KeepsDispatch s (stopStreams (takeOwnerEnds s)) :=
      (KeepsDispatch.of_way (takeOwnerEnds_only s) rfl (takeOwnerEnds_way s)).trans (.of_only (stopStreams_only _) rfl)
    have blocks : ∀ u : State, KeepsDispatch u (stopBlocks u) := fun u => .of_records rfl rfl
    exact h.of_keeps ((((ended.trans (keepsDispatch_abandonWaiting _)).trans (.of_only (stopDu_only _) rfl)).trans (blocks _)).trans
      ((KeepsDispatch.of_only (enterRun_only .draining _) rfl).trans (keepsDispatch_drainingCheck _)))
  · exact h.of_keeps (.of_only (refuseRun_only ..) rfl)

end Sys2Proof.Machine

/-! ### Every command -/

namespace Sys2Proof.Machine

section
variable {s : State} (h : DispatchLaw s)
include h

theorem DispatchLaw.finish {e : State} (b : State) (keeps : KeepsDispatch s e) : Keeps DispatchLaw (Machine.finish b e) :=
  dispatchLaw_speaksOf.finish rfl b (h.of_keeps keeps)

theorem DispatchLaw.couFinish {e : State} (b : State) (keeps : KeepsDispatch s e) : Keeps DispatchLaw (Machine.couFinish b e) :=
  h.finish b (keeps.trans (.of_way (noteQuiet_only b e) rfl (noteQuiet_way b e)))

/-- A step that leaves the records, and the way to the engine. -/
theorem DispatchLaw.finish_way {ps : List Part} {e : State} (only : OnlyChanges ps s e) (apart : apartParts [.fau] ps = true)
    (way : wayOf e = wayOf s) : Keeps DispatchLaw (Machine.finish s e) :=
  h.finish s (.of_way only apart way)

/-- A step that takes one item off its way first. -/
theorem DispatchLaw.finish_taken {ps : List Part} {w : Wires} {e : State} (same : w.handover = s.wires.handover)
    (only : OnlyChanges ps { s with wires := w } e) (apart : apartParts [.fau] ps = true) (way : wayOf e = wayOf { s with wires := w }) :
    Keeps DispatchLaw (Machine.finish s e) :=
  h.finish s (KeepsDispatch.trans (t := { s with wires := w }) (.of_records rfl (wayOf_with_wires s same)) (.of_way only apart way))

/-- A report to run control is taken: DRAINING may end. -/
theorem DispatchLaw.runReport {w : Wires} (same : w.handover = s.wires.handover) :
    Keeps DispatchLaw (Machine.runReport s { s with wires := w }) := by
  have wired : KeepsDispatch s { s with wires := w } := .of_records rfl (wayOf_with_wires s same)
  unfold Machine.runReport
  split
  · exact h.finish _ ((wired.trans (keepsDispatch_beforeEnd s _)).trans (keepsDispatch_drainingCheck _))
  · exact h.finish s wired

/-- The law stands where nothing happens. -/
theorem DispatchLaw.stays : Keeps DispatchLaw (.next s) := keeps_stay h

end

theorem dispatchLaw_keeps {c : Instr} {s : State} (changes : apartParts [.fau, .wires, .rce] (commandParts c) = false)
    (h : DispatchLaw s) : Keeps DispatchLaw (exec c s) := by
  have fresh : ∀ {u : State}, u.fau = {} → u.wires = {} → Keeps DispatchLaw (finish s u) := fun fau wires => by
    refine dispatchLaw_speaksOf.finish rfl s (dispatchLaw_of_none (fun i d => ?_) (by rw [wires]))
    rw [fau] at d
    simp at d
  cases c
  case powerOn | fundamentalReset | hotReset | functionLevelReset =>
    exact fresh ((beginRelease_only _).same .fau (by decide)) ((beginRelease_only _).same .wires (by decide))
  case partReset =>
    change Keeps _ (execPartReset s)
    unfold execPartReset partResetCommand
    split
    · exact h.finish_way (refuseRun_only ..) rfl rfl
    · exact fresh ((beginRelease_only _).same .fau (by decide)) ((beginRelease_only _).same .wires (by decide))
  case start => exact dispatchLaw_speaksOf.finish rfl _ h.beforeStart.start
  case stop => exact dispatchLaw_speaksOf.finish rfl _ (DispatchLaw.stop (h.of_keeps (keepsDispatch_beforeStop s)))
  case granuleGrant met =>
    exact h.finish_way ((takeTaints_only s).andThen (grant_only met _)) rfl ((congrArg Prod.fst (grant_aside ..)).trans (takeTaints_way s))
  case signalLoss link => exact h.finish_way (portStep_only ..) rfl (portStep_way ..)
  case sensorBlock link sync payload =>
    change Keeps _ (execSensorBlock link sync payload s)
    unfold execSensorBlock
    split
    · exact h.stays
    · exact h.finish_way (portStep_only ..) rfl (portStep_way ..)
  case packetAdmission link =>
    change Keeps _ (execPacketAdmission link s)
    unfold execPacketAdmission
    split
    · exact h.stays
    · exact h.finish_taken (by rfl) (admitArrival_only ..) rfl (admitArrival_way ..)
  case asideWordReadDone =>
    change Keeps _ (execAsideWordReadDone s)
    unfold execAsideWordReadDone
    split
    · exact h.stays
    · exact h.finish_taken (by rfl) (asideWordRead_only ..) rfl (wayOf_only (asideWordRead_only ..) rfl)
  case asideSlotWritten =>
    change Keeps _ (execAsideSlotWritten s)
    unfold execAsideSlotWritten
    split
    · have only := fun u : State => (advanceSlot_only u).andThen ((raise_only .asideArrival _).andThen (leaveAside_only _))
      exact h.finish_taken (by rfl) (only _) rfl (wayOf_only (only _) rfl)
    · exact h.stays
  case segmentPlacement stream =>
    change Keeps _ (execSegmentPlacement stream s)
    unfold execSegmentPlacement
    split
    · exact h.stays
    · exact dispatchLaw_speaksOf.finish rfl s ((h.wired (by rfl)).placeHanded _)
  case segmentOutcome stream =>
    change Keeps _ (execSegmentOutcome stream s)
    unfold execSegmentOutcome
    split
    · exact h.stays
    · exact h.finish_taken (by rfl) (takeReturned_only ..) rfl (takeReturned_way ..)
  case cutTimerExpiry stream =>
    change Keeps _ (execCutTimerExpiry stream s)
    unfold execCutTimerExpiry
    split
    · split
      · exact h.finish_way (cutStream_only ..) rfl (cutStream_way ..)
      · exact h.stays
    · exact h.stays
  case lockedExitReport order =>
    change Keeps _ (execLockedExitReport order s)
    unfold execLockedExitReport
    split
    · exact h.stays
    · exact dispatchLaw_speaksOf.finish rfl s ((h.wired (by rfl)).checkAll order)
  case paceReport =>
    change Keeps _ (execPaceReport s)
    unfold execPaceReport
    split
    · exact h.stays
    · dsimp only
      split
      · exact h.finish_taken (by rfl) (takePace_only ..) rfl (takePace_way ..)
      · exact h.finish_taken (by rfl) (.refl [] _) rfl rfl
  case flywheelExpiry =>
    change Keeps _ (execFlywheelExpiry s)
    unfold execFlywheelExpiry
    split
    · split
      · exact h.finish_way (expireFlywheel_only ..) rfl (expireFlywheel_way ..)
      · exact h.stays
    · exact h.stays
  case misinsertReport =>
    change Keeps _ (execMisinsertReport s)
    unfold execMisinsertReport
    split
    · exact h.stays
    · dsimp only
      split
      · exact h.finish_taken (by rfl) (reframeDone_only ..) rfl (reframeDone_way ..)
      · exact h.finish_taken (by rfl) (beginReframe_only _) rfl rfl
  case reframeRequest =>
    change Keeps _ (execReframeRequest s)
    unfold execReframeRequest
    split
    · refine dispatchLaw_speaksOf.finish rfl s (((h.wired (by rfl)).of_keeps (keepsDispatch_abandonWaiting _)).of_keeps (.of_records rfl rfl))
    · exact h.stays
  case reframeConfirmation =>
    change Keeps _ (execReframeConfirmation s)
    unfold execReframeConfirmation
    split
    · have ended : ∀ (x : Fck) (w : Wires), w.handover = s.wires.handover → DispatchLaw { s with fck := x, wires := w } :=
        fun x w same => (h.wired same).of_keeps (.of_records rfl rfl)
      exact (ended _ _ (by rfl)).finish s (.of_way (reframeDone_only ..) rfl (reframeDone_way ..))
    · exact h.stays
  case frameStartTake =>
    change Keeps _ (execFrameStartTake s)
    unfold execFrameStartTake
    split
    · exact h.stays
    · exact dispatchLaw_speaksOf.finish rfl s ((h.wired (by rfl)).takeStart _)
  case deadlineExpiry record =>
    change Keeps _ (execDeadlineExpiry record s)
    unfold execDeadlineExpiry
    split
    · split
      · exact dispatchLaw_speaksOf.finish rfl s (h.closeRecord record .deadline)
      · exact h.stays
    · exact h.stays
  case engineIdleReport =>
    change Keeps _ (execEngineIdleReport s)
    unfold execEngineIdleReport
    split
    · exact dispatchLaw_speaksOf.finish rfl s (h.wired (by rfl)).dispatchCheck
    · exact h.stays
  case frameTake =>
    change Keeps _ (execFrameTake s)
    unfold execFrameTake
    split
    · next x i e given _ _ =>
      have way : wayOf (beforeFrame s) = wayOf s := by
        unfold beforeFrame
        refine (takeTaints_way _).trans ?_
        split
        · exact takeIdleAtDu_way s
        · rfl
      have before : DispatchLaw (beforeFrame s) := h.of_keeps (.of_way (beforeFrame_only s) rfl way)
      have still : (beforeFrame s).wires.handover = some x := (congrArg Prod.fst way).trans given
      exact dispatchLaw_speaksOf.finish rfl s (before.takeFrame still i e)
    · exact h.stays
  case tileReadDone =>
    change Keeps _ (execTileReadDone s)
    unfold execTileReadDone
    split
    · split
      · exact h.finish_taken (by rfl) (takeTile_only ..) rfl (takeTile_way ..)
      · exact h.stays
    · exact h.stays
  case tileMemoryError =>
    change Keeps _ (execTileMemoryError s)
    unfold execTileMemoryError
    split
    · split
      · exact h.stays
      · exact h.finish_taken (by rfl) (takeTileError_only ..) rfl (takeTileError_way ..)
    · exact h.stays
  case taintReport =>
    change Keeps _ (execTaintReport s)
    unfold execTaintReport
    split
    · exact h.stays
    · exact h.finish_taken (by rfl) (takeTaint_only ..) rfl (takeTaint_way ..)
  case streamingEnd =>
    change Keeps _ (execStreamingEnd s)
    unfold execStreamingEnd
    split
    · next streaming frame =>
      split
      · exact dispatchLaw_speaksOf.finish rfl s (h.endStreaming streaming frame)
      · exact h.stays
    · exact h.stays
  case probeRequest =>
    change Keeps _ (execProbeRequest s)
    unfold execProbeRequest
    split
    · next f _ frame =>
      split
      · have notices : OnlyChanges [.pru, .wires] s (takeNotices s) := with_pru_wires_only _ _ s
        refine h.finish_way (notices.andThen (supplyProbe_only f _)) rfl ?_
        exact (supplyProbe_way (s := takeNotices s) frame).trans rfl
      · exact h.stays
    · exact h.stays
  case frameCompletion late =>
    change Keeps _ (execFrameCompletion late s)
    unfold execFrameCompletion
    split
    · next f concluding _ =>
      split
      · have guards : DispatchLaw (takeGuards s) := h.of_keeps (.of_way (takeGuards_only s) rfl (takeGuards_way s))
        have still : (takeGuards s).rce.state = .concluding :=
          (congrArg (fun way => way.2.1) (takeGuards_way s)).trans concluding
        exact (guards.completeFrame still late f).couFinish s (.refl _)
      · exact h.stays
    · exact h.stays
  case commitNotice | completionWithoutCommit =>
    change Keeps _ (noticeStep _ s)
    unfold noticeStep
    split
    · exact h.stays
    · split
      · exact h.finish_way (with_pru_wires_only ..) rfl (by rfl)
      · exact h.stays
  case guardReport =>
    change Keeps _ (execGuardReport s)
    unfold execGuardReport
    split
    · exact h.stays
    · exact (h.wired (by rfl)).couFinish s (.of_only (takeGuard_only ..) rfl)
  case integratorChange =>
    change Keeps _ (execIntegratorChange s)
    unfold execIntegratorChange
    split
    · exact h.stays
    · exact h.finish_taken (by rfl) (takeChange_only ..) rfl (takeChange_way ..)
  case safeShapeRequest =>
    change Keeps _ (execSafeShapeRequest s)
    unfold execSafeShapeRequest
    split
    · exact h.stays
    · exact h.finish_taken (by rfl) (takeChange_only ..) rfl (takeChange_way ..)
  case commandPacketComplete link =>
    change Keeps _ (execCommandPacketComplete link s)
    unfold execCommandPacketComplete
    split
    · split
      · exact h.couFinish s (.of_only (commandSent_only ..) rfl)
      · exact h.stays
    · exact h.stays
  case safePacketComplete link =>
    change Keeps _ (execSafePacketComplete link s)
    unfold execSafePacketComplete
    split
    · split
      · exact h.couFinish s (.of_way (safeSent_only ..) rfl (safeSent_way ..))
      · exact h.stays
    · exact h.stays
  case trailerEnd link =>
    change Keeps _ (execTrailerEnd link s)
    unfold execTrailerEnd
    split
    · exact h.couFinish s (.of_only (mapLink_only ..) rfl)
    · exact h.stays
  case mirrorBlock link sync payload =>
    change Keeps _ (execMirrorBlock link sync payload s)
    unfold execMirrorBlock
    split
    · exact h.stays
    · exact h.couFinish s (.of_only (mirrorStep_only ..) rfl)
  case acceptTimeout link =>
    change Keeps _ (execAcceptTimeout link s)
    unfold execAcceptTimeout
    split
    · split
      · exact h.couFinish s (.of_only (miss_only ..) rfl)
      · exact h.stays
    · exact h.stays
  case interlockAssertion => exact h.couFinish s (.of_only (assertInterlock_only s) rfl)
  case linksQuietReport =>
    change Keeps _ (execLinksQuietReport s)
    unfold execLinksQuietReport
    split
    · exact h.runReport (by rfl)
    · exact h.stays
  case runControlIdleReport =>
    change Keeps _ (execRunControlIdleReport s)
    unfold execRunControlIdleReport
    split
    · exact h.runReport (by rfl)
    · exact h.stays
  case adoptEdition =>
    change Keeps _ (execAdoptEdition s)
    unfold execAdoptEdition
    split
    · exact h.finish_way (adoptEdition_only ..) rfl (congrArg Prod.fst (adoption_aside _ s).1)
    · exact h.stays
  case amendGroups =>
    change Keeps _ (execAmendGroups s)
    unfold execAmendGroups
    split
    · exact h.finish_way (amendGroups_only ..) rfl (congrArg Prod.fst (adoption_aside _ s).2.1)
    · exact h.stays
  case repointTileSet =>
    change Keeps _ (execRepointTileSet s)
    unfold execRepointTileSet
    split
    · split
      · exact h.stays
      · exact h.finish_way (repointTileSet_only ..) rfl (congrArg Prod.fst (adoption_aside _ s).2.2.1)
    · exact h.stays
  case repointTileRemove =>
    change Keeps _ (execRepointTileRemove s)
    unfold execRepointTileRemove
    split
    · split
      · exact h.finish_way (repointTileRemove_only ..) rfl (congrArg Prod.fst (adoption_aside _ s).2.2.2)
      · exact h.stays
    · exact h.stays
  case editionLoadReadDone =>
    change Keeps _ (execEditionLoadReadDone s)
    unfold execEditionLoadReadDone
    split
    · split
      · exact h.finish_way ((raise_only ..).andThen (failLoad_only ..)) rfl (congrArg Prod.fst ((failLoad_aside ..).trans rfl))
      · exact h.finish_way (loadBytes_only ..) rfl (congrArg Prod.fst (loadBytes_aside ..))
    · exact h.stays
  case disableStreams =>
    change Keeps _ (execDisableStreams s)
    unfold execDisableStreams
    split
    · exact h.finish_way (disableStreams_only ..) rfl (disableStreams_way ..)
    · exact h.stays
  case holdOutput =>
    change Keeps _ (execHoldOutput s)
    unfold execHoldOutput
    split
    · exact h.couFinish s (.of_only (holdOutput_only ..) rfl)
    · exact h.stays
  case setProbeCycle =>
    change Keeps _ (execSetProbeCycle s)
    unfold execSetProbeCycle
    split
    · exact h.finish_way (setProbeCycle_only ..) rfl (setProbeCycle_way ..)
    · exact h.stays
  case resetIntegratorZero =>
    change Keeps _ (execResetIntegratorZero s)
    unfold execResetIntegratorZero
    split
    · split
      · refine h.finish_way (resetIntegratorZero_only ..) rfl ?_
        unfold resetIntegratorZero
        split
        · exact wayOf_only (refuseField_only s) rfl
        · exact (wayOf_only (done_only ..) rfl).trans rfl
      · exact h.stays
    · exact h.stays
  case integratorVectorReadDone =>
    change Keeps _ (execIntegratorVectorReadDone s)
    unfold execIntegratorVectorReadDone
    split
    · have used : ∀ (vs : List Int) (u : State), wayOf (done 0 (handChange vs u)) = wayOf u := fun vs u =>
        (wayOf_only (done_only ..) rfl).trans rfl
      exact h.finish_way (vectorRead_only (ps := handParts ++ [.attention, .wires])
        (fun vs s => ((handChange_only vs s).andThen (done_only ..)).mono (by decide)) (by decide) _ s) rfl (vectorRead_way used s)
    · exact h.stays
  case drain =>
    change Keeps _ (execDrain s)
    unfold execDrain
    split
    · refine h.finish_way (drain_only ..) rfl ?_
      unfold drain
      split
      · exact wayOf_only (refuseField_only s) rfl
      · exact takeDrain_way ..
    · exact h.stays
  case probeCopyReadDone =>
    change Keeps _ (execProbeCopyReadDone s)
    unfold execProbeCopyReadDone
    split
    · split
      · exact h.finish_way (copyReturned_only ..) rfl (copyReturned_way ..)
      · exact h.stays
    · exact h.stays
  case ownerEndReport =>
    change Keeps _ (execOwnerEndReport s)
    unfold execOwnerEndReport
    split
    · exact h.stays
    · exact h.finish_taken (by rfl) (takeOwnerEnd_only ..) rfl (takeOwnerEnd_way ..)
  case slotReleaseReport =>
    change Keeps _ (execSlotReleaseReport s)
    unfold execSlotReleaseReport
    split
    · exact h.finish_taken (by rfl) (takeRelease_only _) rfl (takeRelease_way _)
    · exact h.stays
  case recordFreedReport =>
    change Keeps _ (execRecordFreedReport s)
    unfold execRecordFreedReport
    split
    · exact h.stays
    · exact h.finish_taken (by rfl) ((mapDrains_only ..).andThen (settleDrains_only _)) rfl ((settleDrains_way _).trans rfl)
  case drainIdleReport =>
    change Keeps _ (execDrainIdleReport s)
    unfold execDrainIdleReport
    split
    · exact h.finish_way (takeIdleAtDu_only s) rfl (takeIdleAtDu_way s)
    · exact h.stays
  case telemetryWrittenReport =>
    change Keeps _ (execTelemetryWrittenReport s)
    unfold execTelemetryWrittenReport
    split
    · exact h.stays
    · exact h.finish_taken (by rfl) (settleDrains_only _) rfl (settleDrains_way _)
  case outcomeWriteDone =>
    change Keeps _ (execOutcomeWriteDone s)
    unfold execOutcomeWriteDone
    split
    · exact h.stays
    · exact h.finish_taken (by rfl) (settleTickets_only ..) rfl (wayOf_only (settleTickets_only ..) rfl)
  case writerItemEnd =>
    change Keeps _ (execWriterItemEnd s)
    unfold execWriterItemEnd
    split
    · refine h.finish_way (endItem_only s) rfl ?_
      unfold endItem
      split <;> rfl
    · exact h.stays
  all_goals exact absurd (show true = false from changes) nofun

theorem step_keeps_dispatchLaw (s t : State) (h : DispatchLaw s) (next : step s = .next t) : DispatchLaw t :=
  dispatchLaw_speaksOf.step rfl (fun _ _ _ changes h => dispatchLaw_keeps changes h) s t h next

end Sys2Proof.Machine

/-!
The law of the tickets (R150, R155, R157, R158): settled-through follows the taken and unsettled tickets, and the Deferred List has room
for four.
-/
namespace Sys2Proof.Machine

/-- The law where the tickets are as they were and the Deferred List is no longer than it was. -/
theorem TicketLaw.shrinks {s t : State} (h : TicketLaw s) (taken : t.du.takenThrough = s.du.takenThrough)
    (settled : t.du.settledThrough = s.du.settledThrough) (unsettled : t.du.unsettled = s.du.unsettled)
    (shorter : t.du.deferred.length ≤ s.du.deferred.length) : TicketLaw t := by
  refine ⟨?_, shorter.trans h.room⟩
  rw [settled, h.settled, settledValue, settledValue, taken, unsettled]

theorem TicketLaw.congr {s t : State} (h : TicketLaw s) (same : ticketsOf t = ticketsOf s) : TicketLaw t := by
  simp only [ticketsOf, Prod.mk.injEq] at same
  obtain ⟨taken, settled, unsettled, deferred⟩ := same
  exact h.shrinks taken settled unsettled (by rw [deferred])

theorem ticketLaw_speaksOf : SpeaksOf [.du] TicketLaw := by
  intro s t same h
  have du : t.du = s.du := same .du (by decide)
  exact h.congr (by rw [ticketsOf, du, ticketsOf])

theorem ticketLaw_fresh {u : State} (du : u.du = {}) : TicketLaw u := by
  refine ⟨?_, ?_⟩
  · rw [du]; rfl
  · rw [du]; exact Nat.zero_le _

/-! ### Taking and settling -/

theorem TicketLaw.takeTicket {s : State} (h : TicketLaw s) (t : Ticket) : TicketLaw (Machine.takeTicket t s) := ⟨rfl, h.room⟩

theorem TicketLaw.settleTickets {s : State} (h : TicketLaw s) (ts : List Ticket) : TicketLaw (Machine.settleTickets ts s) := by
  have settled : TicketLaw { s with du := { s.du with
      unsettled := s.du.unsettled.filter fun t => !ts.contains t
      settledThrough := settledValue { s.du with unsettled := s.du.unsettled.filter fun t => !ts.contains t } } } := ⟨rfl, h.room⟩
  exact ticketLaw_speaksOf.of_only (raiseIf_only ..) rfl settled

theorem TicketLaw.readExpected {s : State} (h : TicketLaw s) : TicketLaw (Machine.readExpected s) := h.congr (readExpected_tickets s)

theorem TicketLaw.finalOutcome {s : State} (h : TicketLaw s) (t : Ticket) (code : Nat) (detail : BitVec 32) :
    TicketLaw (Machine.finalOutcome t code detail s) := ticketLaw_speaksOf.of_only (finalOutcome_only ..) rfl h

theorem TicketLaw.takeDirective {s : State} (h : TicketLaw s) (t : Ticket) (bs : List Byte) :
    TicketLaw (Machine.takeDirective t bs s) := by
  have taken := h.takeTicket t
  simp only [Machine.takeDirective]
  split
  · exact (taken.finalOutcome ..).readExpected
  · split
    · exact (taken.finalOutcome ..).readExpected
    · exact taken.congr rfl

theorem TicketLaw.judgeSlot {s : State} (h : TicketLaw s) (t : Ticket) (j : ReadJob) : TicketLaw (Machine.judgeSlot t j s) := by
  have torn : ∀ memory, TicketLaw (tornRead t memory s) := fun memory => by
    have raised : TicketLaw (raiseIf memory .memoryError s) := ticketLaw_speaksOf.of_only (raiseIf_only ..) rfl h
    simp only [tornRead]
    split
    · exact raised.congr rfl
    · exact ((raised.takeTicket t).finalOutcome ..).readExpected
  unfold Machine.judgeSlot
  split
  · exact torn true
  · split
    · exact h.congr rfl
    · split
      · exact h.takeDirective t j.bytes
      · exact torn false

/-! ### The Deferred List -/

theorem TicketLaw.joinList {s : State} (h : TicketLaw s) (room : hasRoom s = true) (x : Hand) (work : DeferredWork) :
    TicketLaw (Machine.joinList x work s) := by
  have du : (placeOutcome x.ticket codePending 0 [] s).du = s.du := (placeOutcome_only ..).same .du (by decide)
  have less : s.du.deferred.length < Config.listRoom := by simpa [hasRoom] using room
  refine TicketLaw.readExpected ⟨?_, ?_⟩
  · simp only [du]
    exact h.settled
  · simp only [du, List.length_append, List.length_singleton]
    exact less

theorem TicketLaw.deferOrWait {s : State} (h : TicketLaw s) (x : Hand) (work : DeferredWork) :
    TicketLaw (Machine.deferOrWait x work s) := by
  unfold Machine.deferOrWait
  split
  · next room => exact h.joinList room x work
  · exact h.congr rfl

theorem TicketLaw.endEntries {s : State} (h : TicketLaw s) (q : Deferred → Bool) : TicketLaw (Machine.endEntries q s) := by
  refine h.shrinks ?_ ?_ ?_ ?_
  all_goals rw [endEntries_du]
  exact List.length_filter_le ..

theorem TicketLaw.endEntry {s : State} (h : TicketLaw s) (e : OwnerEnd) : TicketLaw (Machine.endEntry e s) := by
  refine h.shrinks ?_ ?_ ?_ ?_
  all_goals rw [endEntry_du]
  exact List.length_filter_le ..

theorem TicketLaw.mapDrains {s : State} (h : TicketLaw s) (f : DrainStage → DrainStage) : TicketLaw (Machine.mapDrains f s) :=
  h.shrinks rfl rfl rfl (by simp [Machine.mapDrains])

theorem TicketLaw.advanceDrains {s : State} (h : TicketLaw s) : TicketLaw (Machine.advanceDrains s) := (h.mapDrains _).endEntries _

theorem TicketLaw.wired {s : State} (h : TicketLaw s) (w : Wires) : TicketLaw { s with wires := w } := h.congr rfl

theorem TicketLaw.endHand {s : State} (h : TicketLaw s) (code : Nat) (detail : BitVec 32) : TicketLaw (Machine.endHand code detail s) :=
  h.congr (endHand_tickets ..)

/-- The directive in hand ends after a change that leaves the tickets. -/
theorem TicketLaw.endHand_after {s u : State} (h : TicketLaw s) (same : ticketsOf u = ticketsOf s) (code : Nat) (detail : BitVec 32) :
    TicketLaw (Machine.endHand code detail u) := (h.congr same).endHand code detail

theorem TicketLaw.judgeRetire {s : State} (h : TicketLaw s) (x : Hand) : TicketLaw (Machine.judgeRetire x s) := by
  simp only [Machine.judgeRetire]
  split
  · exact h.endHand ..
  · split
    · exact h.deferOrWait ..
    · exact h.endHand ..

theorem TicketLaw.joinProbe {s : State} (h : TicketLaw s) (x : Hand) : TicketLaw (Machine.joinProbe x s) := by
  unfold Machine.joinProbe
  split
  · next room => exact ticketLaw_speaksOf.of_only (enqueueCopy_only ..) rfl (h.joinList room x .probeCycle)
  · exact h.congr rfl

theorem TicketLaw.absorbFreed {s : State} (h : TicketLaw s) : TicketLaw (Machine.absorbFreed s) := by
  have freed : TicketLaw (s.wires.recordsFreed.foldl (fun s r => Machine.mapDrains (DrainStage.freed r) s) s) :=
    law_foldl (fun _ r hu => hu.mapDrains (DrainStage.freed r)) _ h
  exact (freed.wired _).advanceDrains

theorem TicketLaw.takeDrain {s : State} (h : TicketLaw s) (x : Hand) : TicketLaw (Machine.takeDrain x s) := by
  simp only [Machine.takeDrain]
  split
  · exact h.absorbFreed.endHand ..
  · exact h.absorbFreed.deferOrWait ..

theorem TicketLaw.retryRoom {s : State} (h : TicketLaw s) : TicketLaw (Machine.retryRoom s) := by
  unfold Machine.retryRoom
  split
  · split
    · unfold judgeAgain
      split
      · exact h.judgeRetire _
      · split
        · exact h.joinProbe _
        · exact h.takeDrain _
    · exact h
  · exact h

theorem TicketLaw.settleDrains {s : State} (h : TicketLaw s) : TicketLaw (Machine.settleDrains s) := h.advanceDrains.retryRoom

theorem TicketLaw.takeIdleAtDu {s : State} (h : TicketLaw s) : TicketLaw (Machine.takeIdleAtDu s) :=
  ((h.wired _).mapDrains _).settleDrains

theorem TicketLaw.takeOwnerEnd {s : State} (h : TicketLaw s) (e : OwnerEnd) : TicketLaw (Machine.takeOwnerEnd e s) := by
  unfold Machine.takeOwnerEnd
  split
  · exact (h.endEntry e).retryRoom
  · exact h

theorem TicketLaw.takeRelease {s : State} (h : TicketLaw s) : TicketLaw (Machine.takeRelease s) := by
  have retried : TicketLaw (retrySlot (Machine.endEntries (Deferred.retired s) s)) :=
    (h.endEntries _).congr (congrArg Prod.snd (retrySlot_aside _))
  exact retried.retryRoom

/-! ### Directives -/

section
variable {s : State} (h : TicketLaw s)
include h

theorem TicketLaw.setStreamForm (x : Hand) : TicketLaw (Machine.setStreamForm x s) := by
  unfold Machine.setStreamForm
  split
  · exact h.endHand ..
  · split
    · unfold setStream
      split
      · exact h.endHand ..
      · split
        · exact h.endHand ..
        · exact h.endHand_after (by rfl) ..
    · exact h.endHand ..

theorem TicketLaw.setAsideFlag (x : Hand) : TicketLaw (Machine.setAsideFlag x s) := by
  unfold Machine.setAsideFlag
  split
  · exact h.endHand ..
  · split
    · split
      · exact h.endHand ..
      · exact h.endHand_after (by rfl) ..
    · exact h.endHand ..

theorem TicketLaw.enableStreams (x : Hand) : TicketLaw (Machine.enableStreams x s) := by
  have enabled : ∀ set : List (Fin 16), TicketLaw (set.foldl enableStream s) := fun set =>
    ticketLaw_speaksOf.of_only (.foldl enableStream_only set s) rfl h
  simp only [Machine.enableStreams]
  split
  · exact h.endHand ..
  · split
    · exact h.endHand ..
    · split
      · exact h.endHand ..
      · exact (enabled _).endHand ..

theorem TicketLaw.disableStreams (x : Hand) : TicketLaw (Machine.disableStreams x s) := by
  have disabled : ∀ set : List (Fin 16), TicketLaw (set.foldl disableStream s) := fun set =>
    ticketLaw_speaksOf.of_only (.foldl disableStream_only set s) rfl h
  unfold Machine.disableStreams
  split
  · exact h.endHand ..
  · exact (disabled _).endHand ..

theorem TicketLaw.clearStreamErrors (x : Hand) : TicketLaw (Machine.clearStreamErrors x s) := by
  have cleared : ∀ streams links : Nat, TicketLaw (oweStreamReport (clearLinks links (clearCounters streams s))) := fun streams links =>
    ticketLaw_speaksOf.of_only ((clearCounters_only streams s).andThen ((clearLinks_only links _).andThen (with_rpu_only _ _))) rfl h
  unfold Machine.clearStreamErrors
  split
  · exact h.endHand ..
  · exact (cleared _ _).endHand ..

theorem TicketLaw.setPace (x : Hand) : TicketLaw (Machine.setPace x s) := by
  unfold Machine.setPace
  split
  · exact h.endHand ..
  · split
    · exact h.endHand ..
    · split
      · exact h.endHand ..
      · exact h.endHand_after (by rfl) ..

theorem TicketLaw.resumeOutput (x : Hand) : TicketLaw (Machine.resumeOutput x s) := by
  unfold Machine.resumeOutput
  split
  · exact h.endHand ..
  · split
    · exact h.endHand ..
    · exact h.endHand_after (by rfl) ..

theorem TicketLaw.holdOutput (x : Hand) : TicketLaw (Machine.holdOutput x s) := by
  unfold Machine.holdOutput
  split
  · exact h.endHand ..
  · split
    · exact h.endHand ..
    · exact TicketLaw.endHand (ticketLaw_speaksOf.of_only (addCause_only .directive s) rfl h) ..

theorem TicketLaw.setProbeCycle (x : Hand) : TicketLaw (Machine.setProbeCycle x s) := by
  simp only [Machine.setProbeCycle]
  split
  · exact h.endHand ..
  · split
    · exact h.endHand ..
    · exact h.joinProbe x

theorem TicketLaw.injectProbe (x : Hand) : TicketLaw (Machine.injectProbe x s) := by
  simp only [Machine.injectProbe]
  split
  · exact h.endHand ..
  · split
    · exact h.endHand ..
    · split
      · exact h.endHand ..
      · split
        · exact h.endHand ..
        · exact h.congr rfl

theorem TicketLaw.injectProbeCancel (x : Hand) : TicketLaw (Machine.injectProbeCancel x s) := by
  unfold Machine.injectProbeCancel
  split
  · exact h.endHand ..
  · split
    · exact h.endHand ..
    · split
      · exact h.endHand_after (by rfl) ..
      · exact h.endHand ..

/-- A directive that begins a read when its checks have passed. -/
theorem TicketLaw.readsVector (x : Hand) : TicketLaw (Machine.loadSafeShape x s) ∧ TicketLaw (Machine.resetIntegratorVector x s) := by
  constructor
  · unfold Machine.loadSafeShape
    split
    · exact h.endHand ..
    · split
      · exact h.endHand ..
      · exact h.congr rfl
  · unfold Machine.resetIntegratorVector
    split
    · exact h.endHand ..
    · split
      · exact h.endHand ..
      · exact h.congr rfl

theorem TicketLaw.resetIntegratorZero (x : Hand) : TicketLaw (Machine.resetIntegratorZero x s) := by
  unfold Machine.resetIntegratorZero
  split
  · exact h.endHand ..
  · exact h.endHand_after (by rfl) ..

theorem TicketLaw.setTelemetry (x : Hand) : TicketLaw (Machine.setTelemetry x s) := by
  unfold Machine.setTelemetry
  split
  · exact h.endHand ..
  · exact h.endHand_after (by rfl) ..

theorem TicketLaw.retireRange (x : Hand) : TicketLaw (Machine.retireRange x s) := by
  unfold Machine.retireRange
  split
  · exact h.endHand ..
  · split
    · exact h.endHand ..
    · exact h.judgeRetire x

theorem TicketLaw.drain (x : Hand) : TicketLaw (Machine.drain x s) := by
  unfold Machine.drain
  split
  · exact h.endHand ..
  · exact h.takeDrain x

/-- The read of a vector ends the directive, whatever its use. -/
theorem TicketLaw.vectorRead (j : ReadJob) {use : List Int → State → State}
    (keeps : ∀ vs, TicketLaw (use vs s)) : TicketLaw (Machine.vectorRead j use s) := by
  simp only [Machine.vectorRead]
  split
  · exact h.endHand_after (by rfl) ..
  · split
    · exact h.endHand ..
    · exact keeps _

theorem TicketLaw.patternReturned (x : Hand) (j : ReadJob) : TicketLaw (Machine.patternReturned x j s) := by
  unfold Machine.patternReturned
  split
  · exact h.endHand_after (by rfl) ..
  · exact h.endHand_after (by rfl) ..

/-! ### Run control -/

theorem TicketLaw.anchorRead (j : ReadJob) : TicketLaw (Machine.anchorRead j s) := by
  unfold Machine.anchorRead
  split
  · exact h.congr rfl
  · split
    · exact ⟨rfl, Nat.zero_le _⟩
    · exact h.congr rfl

theorem TicketLaw.takeOwnerEnds : TicketLaw (Machine.takeOwnerEnds s) := by
  refine law_foldl (law := TicketLaw) (f := fun s e => takeSuccess e s) (fun u e hu => ?_) s.wires.ownerEnds (h.wired _)
  unfold takeSuccess
  split
  · exact hu.endEntry e
  · exact hu

theorem TicketLaw.stopDu : TicketLaw (Machine.stopDu s) := by
  have du : (dropReads (abandonTickets (openTickets s) (openTickets s) s)).du = s.du :=
    ((abandonTickets_only ..).andThen (dropReads_only _)).same .du (by decide)
  refine h.shrinks ?_ ?_ ?_ (Nat.zero_le _)
  all_goals
    simp only [Machine.stopDu, du]

theorem TicketLaw.drainingCheck : TicketLaw (Machine.drainingCheck s) := by
  have armed : ∀ {u : State}, TicketLaw u → TicketLaw (armScanAgain u) := fun {u} hu => by
    unfold armScanAgain
    split
    · exact hu.congr rfl
    · exact hu
  unfold Machine.drainingCheck
  split
  · exact TicketLaw.congr (armed (u := quietCou s) (h.congr rfl)) rfl
  · exact h

theorem TicketLaw.stop : TicketLaw (Machine.stop s) := by
  unfold Machine.stop
  split
  · have ended : TicketLaw (abandonWaiting (stopStreams (Machine.takeOwnerEnds s))) :=
      ticketLaw_speaksOf.of_only ((stopStreams_only _).andThen (abandonWaiting_only _)) rfl h.takeOwnerEnds
    have blocks : ∀ u : State, ticketsOf (enterRun .draining (stopBlocks u)) = ticketsOf u := fun _ => rfl
    exact (ended.stopDu.congr (blocks _)).drainingCheck
  · exact h.congr rfl

end

/-! ### Every command -/

theorem ticketLaw_keeps {c : Instr} {s : State} (changes : apartParts [.du] (commandParts c) = false) (h : TicketLaw s) :
    Keeps TicketLaw (exec c s) := by
  have finish : ∀ {e : State} (b : State), TicketLaw e → Keeps TicketLaw (Machine.finish b e) := fun b =>
    ticketLaw_speaksOf.finish rfl b
  have couFinish : ∀ {e : State}, TicketLaw e → Keeps TicketLaw (Machine.couFinish s e) := ticketLaw_speaksOf.couFinish rfl s
  have stays : Keeps TicketLaw (.next s) := keeps_stay h
  have runReport : ∀ w : Wires, Keeps TicketLaw (Machine.runReport s { s with wires := w }) := fun w => by
    unfold Machine.runReport
    split
    · have before : TicketLaw (beforeEnd s { s with wires := w }) := ticketLaw_speaksOf.of_only (beforeEnd_changes ..) rfl (h.wired w)
      exact finish _ before.drainingCheck
    · exact finish _ (h.wired w)
  cases c
  case powerOn | fundamentalReset | hotReset | functionLevelReset =>
    exact finish s (ticketLaw_fresh ((beginRelease_only _).same .du (by decide)))
  case partReset =>
    change Keeps _ (execPartReset s)
    unfold execPartReset partResetCommand
    split
    · exact finish s (h.congr rfl)
    · exact finish s (ticketLaw_fresh ((beginRelease_only _).same .du (by decide)))
  case loadAnchor =>
    change Keeps _ (execLoadAnchor s)
    unfold execLoadAnchor loadAnchor
    split
    · exact finish s (h.congr rfl)
    · exact finish s (h.congr rfl)
  case anchorReadDone =>
    change Keeps _ (execAnchorReadDone s)
    unfold execAnchorReadDone
    split
    · exact finish s (h.anchorRead _)
    · exact stays
  case stop => exact finish _ (TicketLaw.stop (ticketLaw_speaksOf.of_only (beforeStop_changes s) rfl h))
  case granuleGrant met =>
    have taken : TicketLaw (takeTaints s) := ticketLaw_speaksOf.of_only (takeTaints_only s) rfl h
    exact finish s (taken.congr (congrArg Prod.snd (grant_aside met _)))
  case frameTake =>
    change Keeps _ (execFrameTake s)
    unfold execFrameTake
    split
    · have before : TicketLaw (beforeFrame s) := by
        refine ticketLaw_speaksOf.of_only (takeTaints_only _) rfl ?_
        split
        · exact h.takeIdleAtDu
        · exact h
      exact finish s (ticketLaw_speaksOf.of_only (takeFrame_only ..) rfl before)
    · exact stays
  case linksQuietReport =>
    change Keeps _ (execLinksQuietReport s)
    unfold execLinksQuietReport
    split
    · exact runReport _
    · exact stays
  case runControlIdleReport =>
    change Keeps _ (execRunControlIdleReport s)
    unfold execRunControlIdleReport
    split
    · exact runReport _
    · exact stays
  case scanTimerExpiry =>
    change Keeps _ (execScanTimerExpiry s)
    unfold execScanTimerExpiry
    split
    · split
      · have armed : ∀ e : Option Time, TicketLaw { s with du := { s.du with scanTimer := e } } := fun e => h.congr rfl
        dsimp only
        split
        · exact finish s (armed _).readExpected
        · exact finish s (armed _)
      · exact stays
    · exact stays
  case slotReadReturn =>
    change Keeps _ (execSlotReadReturn s)
    unfold execSlotReadReturn
    split
    · exact finish s (h.judgeSlot _ _)
    · exact stays
  case adoptEdition =>
    change Keeps _ (execAdoptEdition s)
    unfold execAdoptEdition
    split
    · exact finish s (h.congr (congrArg Prod.snd (adoption_aside _ s).1))
    · exact stays
  case amendGroups =>
    change Keeps _ (execAmendGroups s)
    unfold execAmendGroups
    split
    · exact finish s (h.congr (congrArg Prod.snd (adoption_aside _ s).2.1))
    · exact stays
  case repointTileSet =>
    change Keeps _ (execRepointTileSet s)
    unfold execRepointTileSet
    split
    · split
      · exact stays
      · exact finish s (h.congr (congrArg Prod.snd (adoption_aside _ s).2.2.1))
    · exact stays
  case repointTileRemove =>
    change Keeps _ (execRepointTileRemove s)
    unfold execRepointTileRemove
    split
    · split
      · exact finish s (h.congr (congrArg Prod.snd (adoption_aside _ s).2.2.2))
      · exact stays
    · exact stays
  case editionLoadReadDone =>
    change Keeps _ (execEditionLoadReadDone s)
    unfold execEditionLoadReadDone
    split
    · split
      · exact finish s (h.congr ((congrArg Prod.snd (failLoad_aside ..)).trans (by rfl)))
      · exact finish s (h.congr (congrArg Prod.snd (loadBytes_aside ..)))
    · exact stays
  case retireRange =>
    change Keeps _ (execRetireRange s)
    unfold execRetireRange
    split
    · exact finish s (h.retireRange _)
    · exact stays
  case setStream =>
    change Keeps _ (execSetStream s)
    unfold execSetStream
    split
    · split
      · exact stays
      · exact finish s (h.setStreamForm _)
    · exact stays
  case setAsideFlag =>
    change Keeps _ (execSetAsideFlag s)
    unfold execSetAsideFlag
    split
    · split
      · exact finish s (h.setAsideFlag _)
      · exact stays
    · exact stays
  case enableStreams =>
    change Keeps _ (execEnableStreams s)
    unfold execEnableStreams
    split
    · exact finish s (h.enableStreams _)
    · exact stays
  case disableStreams =>
    change Keeps _ (execDisableStreams s)
    unfold execDisableStreams
    split
    · exact finish s (h.disableStreams _)
    · exact stays
  case clearStreamErrors =>
    change Keeps _ (execClearStreamErrors s)
    unfold execClearStreamErrors
    split
    · exact finish s (h.clearStreamErrors _)
    · exact stays
  case setPace =>
    change Keeps _ (execSetPace s)
    unfold execSetPace
    split
    · exact finish s (h.setPace _)
    · exact stays
  case loadSafeShape =>
    change Keeps _ (execLoadSafeShape s)
    unfold execLoadSafeShape
    split
    · exact finish s (h.readsVector _).1
    · exact stays
  case resumeOutput =>
    change Keeps _ (execResumeOutput s)
    unfold execResumeOutput
    split
    · exact finish s (h.resumeOutput _)
    · exact stays
  case holdOutput =>
    change Keeps _ (execHoldOutput s)
    unfold execHoldOutput
    split
    · exact couFinish (h.holdOutput _)
    · exact stays
  case setProbeCycle =>
    change Keeps _ (execSetProbeCycle s)
    unfold execSetProbeCycle
    split
    · exact finish s (h.setProbeCycle _)
    · exact stays
  case injectProbe =>
    change Keeps _ (execInjectProbe s)
    unfold execInjectProbe
    split
    · split
      · exact stays
      · exact finish s (h.injectProbe _)
    · exact stays
  case injectProbeCancel =>
    change Keeps _ (execInjectProbeCancel s)
    unfold execInjectProbeCancel
    split
    · split
      · exact finish s (h.injectProbeCancel _)
      · exact stays
    · exact stays
  case resetIntegratorZero =>
    change Keeps _ (execResetIntegratorZero s)
    unfold execResetIntegratorZero
    split
    · split
      · exact finish s (h.resetIntegratorZero _)
      · exact stays
    · exact stays
  case resetIntegratorVector =>
    change Keeps _ (execResetIntegratorVector s)
    unfold execResetIntegratorVector
    split
    · split
      · exact stays
      · exact finish s (h.readsVector _).2
    · exact stays
  case drain =>
    change Keeps _ (execDrain s)
    unfold execDrain
    split
    · exact finish s (h.drain _)
    · exact stays
  case setTelemetry =>
    change Keeps _ (execSetTelemetry s)
    unfold execSetTelemetry
    split
    · exact finish s (h.setTelemetry _)
    · exact stays
  case safeShapeReadDone =>
    change Keeps _ (execSafeShapeReadDone s)
    unfold execSafeShapeReadDone
    split
    · exact finish s (h.vectorRead _ fun vs => h.endHand_after (by rfl) ..)
    · exact stays
  case integratorVectorReadDone =>
    change Keeps _ (execIntegratorVectorReadDone s)
    unfold execIntegratorVectorReadDone
    split
    · exact finish s (h.vectorRead _ fun vs => h.endHand_after (by rfl) ..)
    · exact stays
  case injectPatternReadDone =>
    change Keeps _ (execInjectPatternReadDone s)
    unfold execInjectPatternReadDone
    split
    · exact finish s (h.patternReturned _ _)
    · exact stays
  case ownerEndReport =>
    change Keeps _ (execOwnerEndReport s)
    unfold execOwnerEndReport
    split
    · exact stays
    · exact finish s ((h.wired _).takeOwnerEnd _)
  case slotReleaseReport =>
    change Keeps _ (execSlotReleaseReport s)
    unfold execSlotReleaseReport
    split
    · exact finish s (h.wired _).takeRelease
    · exact stays
  case recordFreedReport =>
    change Keeps _ (execRecordFreedReport s)
    unfold execRecordFreedReport
    split
    · exact stays
    · exact finish s ((h.wired _).mapDrains _).settleDrains
  case drainIdleReport =>
    change Keeps _ (execDrainIdleReport s)
    unfold execDrainIdleReport
    split
    · exact finish s h.takeIdleAtDu
    · exact stays
  case telemetryWrittenReport =>
    change Keeps _ (execTelemetryWrittenReport s)
    unfold execTelemetryWrittenReport
    split
    · exact stays
    · exact finish s (h.wired _).settleDrains
  case outcomeWriteDone =>
    change Keeps _ (execOutcomeWriteDone s)
    unfold execOutcomeWriteDone
    split
    · exact stays
    · exact finish s ((h.wired _).settleTickets _)
  all_goals exact absurd (show true = false from changes) nofun

theorem step_keeps_ticketLaw (s t : State) (h : TicketLaw s) (next : step s = .next t) : TicketLaw t :=
  ticketLaw_speaksOf.step rfl (fun _ _ _ changes h => ticketLaw_keeps changes h) s t h next

end Sys2Proof.Machine

/-!
The law of the writer (R163, R167): what the reports at the end of a step make of a lawful writer, and what each effect leaves it.
-/
namespace Sys2Proof.Machine

/-- What an effect leaves the writer: an idle one has no write waiting, and one with a snapshot entry in hand has its set and the write that
seals the entry. The reports of the step see to the rest of the law. -/
structure WriterReady (s : State) : Prop where
  placed : s.rpu.writer = .idle → s.arb.rpu = []
  seals : s.rpu.writer = .snapshot → s.run.anchor.isSome = true ∧ s.rpu.holding ≠ []
    ∧ ∃ x ∈ s.arb.rpu, x.purpose = .snapshotSeal ∧ x.data.isSome = true

theorem WriterLaw.ready {s : State} (h : WriterLaw s) : WriterReady s := ⟨h.placed, h.seals⟩

/-- What the writer's readiness speaks of. -/
def writerView (s : State) : Bool × Writer × List TelemetrySet × List Access :=
  (s.run.anchor.isSome, s.rpu.writer, s.rpu.holding, s.arb.rpu)

theorem WriterReady.congr {s t : State} (h : WriterReady s) (same : writerView t = writerView s) : WriterReady t := by
  simp only [writerView, Prod.mk.injEq] at same
  obtain ⟨anchor, writer, holding, queue⟩ := same
  exact ⟨by rw [writer, queue]; exact h.placed, by rw [writer, anchor, holding, queue]; exact h.seals⟩

theorem writerView_only {ps : List Part} {s t : State} (only : OnlyChanges ps s t)
    (apart : apartParts [.run, .rpu, .rpuQueue] ps = true) : writerView t = writerView s := by
  have none := apartParts_iff.mp apart
  have run : t.run = s.run := only.same .run (none .run (by decide))
  have rpu : t.rpu = s.rpu := only.same .rpu (none .rpu (by decide))
  have queue : t.arb.rpu = s.arb.rpu := only.same .rpuQueue (none .rpuQueue (by decide))
  rw [writerView, run, rpu, queue, writerView]

theorem WriterReady.of_only {ps : List Part} {s t : State} (h : WriterReady s) (only : OnlyChanges ps s t)
    (apart : apartParts [.run, .rpu, .rpuQueue] ps = true) : WriterReady t := h.congr (writerView_only only apart)

/-- A write of at least one byte places an access that carries its data. -/
theorem writeAccesses_seal (p : Purpose) (a : Nat) (c : BitVec 32) :
    ∃ x ∈ writeAccesses p a (leBytes 4 c.toNat), x.purpose = p ∧ x.data.isSome = true := by
  have some : writeAccesses p a (leBytes 4 c.toNat) ≠ [] := by
    have bytes : (leBytes 4 c.toNat).length = 4 := leBytes_length 4 _
    unfold writeAccesses
    rw [bytes, pieces_eq a 4 (by decide)]
    simp
  obtain ⟨x, mem⟩ := List.exists_mem_of_ne_nil _ some
  refine ⟨x, mem, ?_⟩
  obtain ⟨y, _, rfl⟩ := List.mem_map.mp mem
  exact ⟨rfl, rfl⟩

theorem takeTelemetry_ready (a : Anchor) {x : TelemetrySet} {xs : List TelemetrySet} {u : State} (anchor : u.run.anchor = some a)
    (holding : u.rpu.holding = x :: xs) : WriterLaw (takeTelemetry a x u) := by
  have kept : (takeTelemetry a x u).run = u.run ∧ (takeTelemetry a x u).rpu.holding = u.rpu.holding := ⟨rfl, rfl⟩
  have taken := takeTelemetry_taken a x u
  by_cases due : SnapshotDue u.rpu
  · obtain ⟨writer, _, head, _, queue⟩ := taken.snapshot due
    refine ⟨fun _ idle => absurd (writer.symm.trans idle) nofun, fun idle => absurd (writer.symm.trans idle) nofun, fun _ => ?_⟩
    refine ⟨by rw [kept.1, anchor]; rfl, by rw [kept.2, holding]; nofun, ?_⟩
    obtain ⟨y, mem, sealing⟩ := writeAccesses_seal .snapshotSeal (a.snapshotOffset + 65536 * u.rpu.nextSnapshot)
      (takeTelemetry a x u).rpu.serial
    exact ⟨y, by rw [queue]; exact List.mem_append_right _ mem, sealing⟩
  · obtain ⟨writer, _⟩ := taken.plain due
    exact ⟨fun _ idle => absurd (writer.symm.trans idle) nofun, fun idle => absurd (writer.symm.trans idle) nofun,
      fun snapshot => absurd (writer.symm.trans snapshot) nofun⟩

/-- An idle writer takes what waits, so that nothing waits for one that stays idle. -/
theorem WriterReady.kickWriter {u : State} (h : WriterReady u) : WriterLaw (Machine.kickWriter u) := by
  cases anchor : u.run.anchor with
  | none =>
    have stays : Machine.kickWriter u = u := by
      unfold Machine.kickWriter
      rw [anchor]
    rw [stays]
    exact ⟨fun loaded => by simp [anchor] at loaded, h.placed, h.seals⟩
  | some a =>
    obtain ⟨busy, stays⟩ | ⟨_, x, xs, holding, taken⟩ | ⟨_, _, _, taken⟩ | ⟨_, _, _, _, taken⟩
      | ⟨_, holding, streams, status, stays⟩ := kickWriter_cases u a anchor
    · rw [stays]
      exact ⟨fun _ idle => absurd idle busy, h.placed, h.seals⟩
    · rw [taken]
      exact takeTelemetry_ready a anchor holding
    · rw [taken]
      exact ⟨fun _ => nofun, nofun, nofun⟩
    · rw [taken]
      exact ⟨fun _ => nofun, nofun, nofun⟩
    · rw [stays]
      exact ⟨fun _ _ => ⟨holding, streams, status⟩, h.placed, h.seals⟩

/-- The reports at the end of a step make a ready writer lawful. -/
theorem WriterReady.settle {e : State} (h : WriterReady e) (b : State) : WriterLaw (Machine.settle b e) := by
  obtain ⟨page, status, stream, settled, _, _⟩ := settle_eq b e
  rw [settled]
  exact WriterReady.kickWriter (h.congr rfl)

theorem WriterReady.finish {e : State} (h : WriterReady e) (b : State) : Keeps WriterLaw (Machine.finish b e) := keeps_finish (h.settle b)

theorem WriterReady.finish_same {s e : State} (h : WriterReady s) (b : State) (same : writerView e = writerView s) :
    Keeps WriterLaw (Machine.finish b e) := (h.congr same).finish b

/-! ### Effects on the writer -/

theorem enterRun_writer (r : RunState) (s : State) : writerView (enterRun r s) = writerView s := rfl

theorem refuseRun_writer (c : RunRefusal) (s : State) : writerView (refuseRun c s) = writerView s := rfl

theorem drainingCheck_writer (s : State) : writerView (drainingCheck s) = writerView s := by
  unfold drainingCheck
  split
  · have armed : writerView (armScanAgain (quietCou s)) = writerView s := by
      unfold armScanAgain
      split <;> rfl
    exact armed
  · rfl

theorem startBlocks_writer (s : State) : writerView (startBlocks s) = writerView s := rfl

theorem stopBlocks_writer (s : State) : writerView (stopBlocks s) = writerView s := rfl

theorem start_writer (s : State) : writerView (start s) = writerView s := by
  have begun : ∀ e, writerView (beginRun e s) = writerView s := fun e =>
    (((enterRun_writer .running _).trans (writerView_only (startCou_only e.links _) rfl)).trans
      (startBlocks_writer _)).trans
        (writerView_only (startStreams_only s) rfl)
  unfold start
  split
  · split
    · split
      · exact begun _
      · rfl
    · rfl
  · rfl

theorem stop_writer (s : State) : writerView (stop s) = writerView s := by
  unfold stop
  split
  · have ended := writerView_only ((takeOwnerEnds_only s).andThen ((stopStreams_only _).andThen ((abandonWaiting_only _).andThen
      (stopDu_only _)))) rfl
    exact ((drainingCheck_writer _).trans ((enterRun_writer .draining _).trans (stopBlocks_writer _))).trans ended
  · rfl

theorem runReport_keeps_writer {s : State} (h : WriterReady s) (w : Wires) :
    Keeps WriterLaw (runReport s { s with wires := w }) := by
  have wired : WriterReady { s with wires := w } := h.congr rfl
  unfold runReport
  split
  · have before : WriterReady (beforeEnd s { s with wires := w }) := wired.of_only (beforeEnd_changes ..) rfl
    exact (before.congr (drainingCheck_writer _)).finish _
  · exact wired.finish s

/-- A frame's telemetry set joins the list or is dropped; the writer's item is as it was. -/
theorem WriterReady.handTelemetry {s : State} (h : WriterReady s) (x : TelemetrySet) : WriterReady (Machine.handTelemetry x s) := by
  simp only [Machine.handTelemetry]
  split
  · refine ⟨h.placed, fun snapshot => ?_⟩
    obtain ⟨anchor, holding, sealing⟩ := h.seals snapshot
    exact ⟨anchor, List.append_ne_nil_of_left_ne_nil holding _, sealing⟩
  · exact ⟨h.placed, h.seals⟩

theorem WriterReady.completeFrame {s : State} (h : WriterReady s) (late : List (Fin 1024)) (f : FrameContext) :
    WriterReady (Machine.completeFrame late f s) := by
  have changed : ∀ (cs : List StoreChange) (u : State), OnlyChanges [.rce] u (cs.foldl (fun s c => applyChange c s) u) := fun cs u =>
    .foldl (fun u c => applyChange_only c u) cs u
  have committed : ∀ u : State, OnlyChanges [.rce, .cou] s u → WriterReady u := fun u only => h.of_only only rfl
  simp only [Machine.completeFrame]
  refine WriterReady.of_only ?_ ((reportGuards_only ..).andThen ((changed _ _).andThen (endFrame_only _))) rfl
  refine WriterReady.handTelemetry (WriterReady.of_only (committed _ ?_) (noticeProbe_only ..) rfl) _
  split
  · exact commitFrame_only ..
  · exact .refl _ s

theorem clearStreamErrors_writer (x : Hand) (s : State) : writerView (clearStreamErrors x s) = writerView s := by
  unfold clearStreamErrors
  split
  · exact writerView_only (refuseField_only s) rfl
  · refine (writerView_only (done_only 0 _) rfl).trans ?_
    have cleared := writerView_only ((clearCounters_only (field x.params 0 2) s).andThen (clearLinks_only (field x.params 2 1) _)) rfl
    exact cleared

theorem setTelemetry_writer (x : Hand) (s : State) : writerView (setTelemetry x s) = writerView s := by
  unfold setTelemetry
  split
  · exact writerView_only (refuseField_only s) rfl
  · exact (writerView_only (done_only ..) rfl).trans rfl

theorem WriterReady.anchorRead {s : State} (h : WriterReady s) (j : ReadJob) : WriterReady (Machine.anchorRead j s) := by
  unfold Machine.anchorRead
  split
  · exact h.congr rfl
  · split
    · refine ⟨h.placed, fun snapshot => ?_⟩
      obtain ⟨_, holding, sealing⟩ := h.seals snapshot
      exact ⟨rfl, holding, sealing⟩
    · exact h.congr rfl

/-- An item ends with none of its writes left. -/
theorem WriterReady.endItem {s : State} (queue : s.arb.rpu = []) : WriterReady (Machine.endItem s) := by
  unfold Machine.endItem
  split
  · exact ⟨fun _ => queue, nofun⟩
  · exact ⟨fun _ => queue, nofun⟩

/-! ### Grants -/

/-- The write that seals a snapshot entry. -/
def Access.isSeal (a : Access) : Prop := a.purpose = .snapshotSeal ∧ a.data.isSome = true

theorem deliver_writer (a : Access) (bs : List Byte) (s : State) : writerView (deliver a bs s) = writerView s := by
  unfold deliver
  split
  case h_7 => exact writerView_only (hostReturn_only ..) rfl
  all_goals rfl

theorem deliverError_writer (a : Access) (s : State) : writerView (deliverError a s) = writerView s := by
  unfold deliverError
  split
  case h_7 => exact writerView_only ((raise_only ..).andThen (hostReturn_only ..)) rfl
  all_goals rfl

theorem written_writer {a : Access} (plain : a.purpose ≠ .snapshotSeal) (s : State) : writerView (written a s) = writerView s := by
  unfold written
  split
  · exact writerView_only (watchWrite_only ..) rfl
  · rfl
  · rfl
  · rfl
  · next sealing => exact absurd sealing plain
  · rfl

theorem perform_writer {a : Access} (plain : ¬ a.isSeal) (s : State) : writerView (perform a s) = writerView s := by
  have read : writerView (readGranule a s).2 = writerView s := writerView_only (readGranule_only a s) rfl
  unfold perform
  split
  · split
    · next r => rw [r] at read; exact (deliver_writer ..).trans read
    · next r => rw [r] at read; exact (deliverError_writer ..).trans read
  · next bs data =>
    have other : a.purpose ≠ .snapshotSeal := fun sealing => plain ⟨sealing, by rw [data]; rfl⟩
    exact (written_writer other _).trans (writerView_only (writeGranule_only ..) rfl)

theorem perform_seal {a : Access} (sealing : a.isSeal) (s : State) :
    ∃ u, writerView u = writerView s ∧ perform a s = sealSnapshot u := by
  obtain ⟨purpose, data⟩ := sealing
  obtain ⟨bs, data⟩ := Option.isSome_iff_exists.mp data
  refine ⟨writeGranule a bs s, writerView_only (writeGranule_only ..) rfl, ?_⟩
  simp only [perform, data, written, purpose]

/-- The seal of a snapshot entry: the writer goes on with the record of its set; where no entry is in hand, nothing happens. -/
theorem sealSnapshot_cases (u : State) :
    (sealSnapshot u).rpu.writer = .telemetry
      ∨ sealSnapshot u = u ∧ ¬ (u.run.anchor.isSome = true ∧ u.rpu.writer = .snapshot ∧ u.rpu.holding ≠ []) := by
  unfold sealSnapshot
  split
  · exact .inl rfl
  · next none =>
    refine .inr ⟨rfl, ?_⟩
    rintro ⟨anchor, writer, holding⟩
    obtain ⟨a, anchor⟩ := Option.isSome_iff_exists.mp anchor
    obtain ⟨x, xs, holding⟩ := List.exists_cons_of_ne_nil holding
    exact none a x xs anchor writer holding

/-- A rotation grant takes one access off a queue and performs it. -/
theorem WriterReady.performed {s u : State} (h : WriterReady s) {a : Access} (view : writerView u =
      (s.run.anchor.isSome, s.rpu.writer, s.rpu.holding, u.arb.rpu))
    (queue : u.arb.rpu = s.arb.rpu ∨ s.arb.rpu = a :: u.arb.rpu) : WriterReady (perform a u) := by
  simp only [writerView, Prod.mk.injEq] at view
  obtain ⟨anchor, writer, holding, _⟩ := view
  have placed : u.rpu.writer = .idle → u.arb.rpu = [] := fun idle => by
    have none := h.placed (writer.symm.trans idle)
    obtain same | taken := queue
    · exact same.trans none
    · exact absurd (none.symm.trans taken) nofun
  by_cases sealing : a.isSeal
  · obtain ⟨v, same, performed⟩ := perform_seal sealing u
    simp only [writerView, Prod.mk.injEq] at same
    obtain ⟨anchorV, writerV, holdingV, queueV⟩ := same
    rw [performed]
    obtain telemetry | ⟨stays, none⟩ := sealSnapshot_cases v
    · exact ⟨fun idle => absurd (telemetry.symm.trans idle) nofun, fun snapshot => absurd (telemetry.symm.trans snapshot) nofun⟩
    · rw [stays]
      refine ⟨by rw [writerV, queueV]; exact placed, fun snapshot => absurd ?_ none⟩
      obtain ⟨loaded, held, _⟩ := h.seals (writer.symm.trans (writerV.symm.trans snapshot))
      exact ⟨by rw [anchorV, anchor]; exact loaded, snapshot, by rw [holdingV, holding]; exact held⟩
  · refine WriterReady.congr ⟨placed, fun snapshot => ?_⟩ (perform_writer sealing u)
    obtain ⟨loaded, held, x, mem, seals⟩ := h.seals (writer.symm.trans snapshot)
    refine ⟨by rw [anchor]; exact loaded, by rw [holding]; exact held, x, ?_, seals⟩
    obtain same | taken := queue
    · rwa [same]
    · obtain first | rest := List.mem_cons.mp (taken ▸ mem)
      · exact absurd (first ▸ seals) sealing
      · exact rest

theorem WriterReady.grantRotation {s : State} (h : WriterReady s) (met : CellError) : WriterReady (Machine.grantRotation met s) := by
  unfold Machine.grantRotation
  split
  · exact h
  · next c _ =>
    split
    · exact h
    · next a rest waiting =>
      have met_only := meetError_only met a.granule
      refine h.performed ((writerView_only (met_only _) rfl).trans ?_) ?_
      · have queue : ∀ u : State, (meetError met a.granule u).arb.rpu = u.arb.rpu := fun u => (met_only u).same .rpuQueue (by decide)
        rw [queue]
        cases c <;> rfl
      · have queue : ∀ u : State, (meetError met a.granule u).arb.rpu = u.arb.rpu := fun u => (met_only u).same .rpuQueue (by decide)
        rw [queue]
        cases c with
        | rpu => exact .inr waiting
        | _ => exact .inl rfl

theorem WriterReady.grantTile {s : State} (h : WriterReady s) (met : CellError) (key granule : Nat) :
    WriterReady (Machine.grantTile met key granule s) := by
  unfold Machine.grantTile
  split
  · exact h.congr rfl
  · dsimp only
    exact h.of_only (((meetError_only ..).andThen (readGranule_only ..)).andThen
      ((with_wires_only _ _).andThen (mapFrame_only ..))) rfl

theorem WriterReady.grant {s : State} (h : WriterReady s) (met : CellError) : WriterReady (Machine.grant met s) := by
  have counted : ∀ n, WriterReady (setTileRun n s) := fun n => h.congr rfl
  unfold Machine.grant
  split
  · exact h.grantRotation met
  · split
    · exact (counted _).grantTile ..
    · split
      · exact (counted _).grantTile ..
      · exact h.grantRotation met

/-! ### Every command -/

/-- The commands whose effect changes run control, the Report Unit or its queue. -/
theorem writerLaw_keeps {c : Instr} {s : State} (plain : plainCommand c = c)
    (changes : apartParts [.run, .rpu, .rpuQueue] (effectParts c) = false) (h : WriterReady s) (stays : Keeps WriterLaw (.next s)) :
    Keeps WriterLaw (exec c s) := by
  have fresh : ∀ {u : State}, u.rpu = {} → u.arb.rpu = [] → Keeps WriterLaw (finish s u) := fun rpu queue =>
    WriterReady.finish ⟨fun _ => queue, fun snapshot =>
      absurd (show Writer.idle = .snapshot from (congrArg Rpu.writer rpu).symm.trans snapshot) nofun⟩ s
  cases c
  case powerOn | fundamentalReset | hotReset | functionLevelReset =>
    exact fresh ((beginRelease_only _).same .rpu (by decide)) ((beginRelease_only _).same .rpuQueue (by decide))
  case partReset =>
    change Keeps _ (execPartReset s)
    unfold execPartReset partResetCommand
    split
    · exact h.finish_same s (refuseRun_writer ..)
    · exact fresh ((beginRelease_only _).same .rpu (by decide)) ((beginRelease_only _).same .rpuQueue (by decide))
  case initialisationEnd =>
    change Keeps _ (execInitialisationEnd s)
    unfold execInitialisationEnd
    split
    · exact h.finish_same s ((writerView_only (beginRelease_only _) rfl).trans (by rfl))
    · exact stays
  case loadAnchor =>
    change Keeps _ (execLoadAnchor s)
    unfold execLoadAnchor loadAnchor
    split
    · exact h.finish_same s (by rfl)
    · exact h.finish_same s (by rfl)
  case anchorReadDone =>
    change Keeps _ (execAnchorReadDone s)
    unfold execAnchorReadDone
    split
    · exact (h.anchorRead _).finish s
    · exact stays
  case start =>
    have before : WriterReady (beforeStart s) := h.of_only (beforeStart_changes s) rfl
    exact (before.congr (start_writer _)).finish _
  case stop =>
    have before : WriterReady (beforeStop s) := h.of_only (beforeStop_changes s) rfl
    exact (before.congr (stop_writer _)).finish _
  case unknownCommand v =>
    change Keeps _ (execUnknownCommand v s)
    rw [execUnknownCommand_eq (unknown_of_plain plain)]
    exact h.finish_same s (refuseRun_writer ..)
  case granuleGrant met => exact WriterReady.finish (WriterReady.grant (h.of_only (takeTaints_only s) rfl) met) s
  case linksQuietReport =>
    change Keeps _ (execLinksQuietReport s)
    unfold execLinksQuietReport
    split
    · exact runReport_keeps_writer h _
    · exact stays
  case runControlIdleReport =>
    change Keeps _ (execRunControlIdleReport s)
    unfold execRunControlIdleReport
    split
    · exact runReport_keeps_writer h _
    · exact stays
  case frameCompletion late =>
    change Keeps _ (execFrameCompletion late s)
    unfold execFrameCompletion
    split
    · split
      · have completed := WriterReady.completeFrame (h.of_only (takeGuards_only s) rfl) late
        exact ((completed _).of_only (noteQuiet_only ..) rfl).finish s
      · exact stays
    · exact stays
  case clearStreamErrors =>
    change Keeps _ (execClearStreamErrors s)
    unfold execClearStreamErrors
    split
    · exact h.finish_same s (clearStreamErrors_writer ..)
    · exact stays
  case setTelemetry =>
    change Keeps _ (execSetTelemetry s)
    unfold execSetTelemetry
    split
    · exact h.finish_same s (setTelemetry_writer ..)
    · exact stays
  case writerItemEnd =>
    change Keeps _ (execWriterItemEnd s)
    unfold execWriterItemEnd
    split
    · next ended =>
      have queue : s.arb.rpu = [] := by simp_all [itemWritten]
      exact (WriterReady.endItem queue).finish s
    · exact stays
  all_goals exact absurd (show true = false from changes) nofun

theorem step_keeps_writerLaw (s t : State) (h : WriterLaw s) (next : step s = .next t) : WriterLaw t := by
  cases queue : s.pending with
  | nil =>
    obtain ⟨t', next', only, _⟩ := stepTakesTheFront.2 s queue
    cases next'.symm.trans next
    have rpu : t.rpu = s.rpu := only.same .rpu (by decide)
    have view := writerView_only only rfl
    simp only [writerView, Prod.mk.injEq] at view
    obtain ⟨anchor, writer, holding, waiting⟩ := view
    have ready : WriterReady t := h.ready.of_only only rfl
    exact ⟨by rw [anchor, rpu]; exact h.waits, ready.placed, ready.seals⟩
  | cons c rest =>
    have taken : exec (plainCommand c) (s.withPending rest) = .next t := by
      rw [exec_plainCommand, ← stepTakesTheFront.1 c rest s queue, next]
    have before : WriterLaw (s.withPending rest) := ⟨h.waits, h.placed, h.seals⟩
    cases changes : apartParts [.run, .rpu, .rpuQueue] (effectParts (plainCommand c)) with
    | false => exact writerLaw_keeps (plainCommand_idem c) changes before.ready (keeps_stay before) t taken
    | true =>
      obtain stay | ⟨p, e, finished, only, _⟩ := exec_reaches (plainCommand_idem c) (insideWindow_of_next taken) (s.withPending rest)
      · cases stay.symm.trans taken
        exact before
      · exact WriterReady.finish (before.ready.of_only only changes) _ t (finished.symm.trans taken)

/-! ### Every law -/

/-- Settles O59: each law from what its operations keep (`steady_step`, `keepsFrames_…`, `KeepsDispatch`, `TicketLaw…`, `WriterReady…`). -/
theorem stepsKeepTables : Obligations.StepsKeepTables :=
  ⟨step_keeps_streamLaw, step_keeps_disjointStreams, step_keeps_countLaw, step_keeps_distinctFrames, step_keeps_dispatchLaw,
    step_keeps_ticketLaw, step_keeps_writerLaw⟩

end Sys2Proof.Machine

/-!
Power-on and resets (R172, R178), and the register page (R170, R171, R181).
-/
namespace Sys2Proof.Machine

/-! ### The state after power-on -/

/-- Every table of the state after power-on holds its default at every place. -/
theorem reset_tables :
    (∀ l : Fin 8, State.reset.ports[l] = {} ∧ State.reset.sau.asideFlags[l] = false)
      ∧ (∀ i : Fin 16, State.reset.sau.streams[i] = {}) ∧ (∀ r : Fin 4, State.reset.fau.records[r] = {})
      ∧ ∀ l : Fin 4, State.reset.cou.links[l] = {} := by
  simp [State.reset]

theorem stream_default_counter (c : Counter) : ({} : Stream).counter c = 0 := by
  simp [Stream.counter]

/-- Settles O3: the defaults of the tables, place by place, and the fields of the blocks. -/
theorem powerOnValues : Obligations.PowerOnValues := by
  obtain ⟨ports, streams, records, links⟩ := reset_tables
  refine ⟨⟨rfl, rfl, rfl, rfl, rfl⟩, ⟨fun _ => rfl, rfl, rfl, rfl⟩, ⟨rfl, rfl, rfl⟩, fun l => ?_, fun i => ?_, ⟨rfl, rfl, rfl, rfl⟩,
    ⟨rfl, rfl, rfl, rfl, rfl, rfl, rfl, rfl, rfl, rfl⟩, ⟨fun r => by rw [records r], rfl, fun _ => rfl, rfl, rfl, rfl, rfl, rfl, rfl⟩,
    ⟨rfl, rfl, rfl, rfl, rfl, fun _ => rfl, rfl, rfl⟩, ⟨rfl, rfl, rfl, rfl, rfl, rfl⟩,
    ⟨rfl, rfl, rfl, rfl, fun _ => rfl, rfl, rfl, rfl, fun _ => rfl, rfl, rfl, rfl, fun l => ?_⟩,
    ⟨rfl, rfl, rfl, rfl, rfl, rfl, rfl, rfl, rfl⟩, ⟨rfl, rfl, rfl, rfl, rfl, rfl, rfl⟩⟩
  · rw [(ports l).1, (ports l).2]
    exact ⟨rfl, rfl, rfl, rfl, rfl, rfl, rfl, rfl⟩
  · rw [streams i]
    exact ⟨rfl, rfl, rfl, rfl, rfl, rfl, stream_default_counter⟩
  · rw [links l]
    exact ⟨rfl, rfl, rfl, rfl, rfl, rfl, rfl⟩

/-- Settles O60: after power-on nothing is in use, loaded, dispatched, taken or in hand. -/
theorem lawsHoldAtReset : Obligations.LawsHoldAtReset := by
  obtain ⟨_, streams, records, _⟩ := reset_tables
  have disabled : ∀ i : Fin 16, State.reset.sau.streams[i].enabled = false := fun i => by rw [streams i]
  have free : ∀ r : Fin 4, State.reset.fau.records[r].state = .free := fun r => by rw [records r]
  have editions : EditionLaw State.reset := by
    have empty : ∀ i, slotOf State.reset i = .empty := fun i => by cases i <;> rfl
    refine ⟨⟨fun i j hi => ?_, fun i hi => ?_, fun i => ⟨fun hi => ?_, nofun⟩, fun _ => rfl, rfl⟩, nofun, fun _ => ⟨rfl, rfl⟩⟩
    all_goals
      rw [empty] at hi
      exact hi.elim
  obtain ⟨slots, loads⟩ := (editionLaw_iff _).mp editions
  refine ⟨rfl, ⟨?_, ?_, fun _ => rfl⟩, slots, loads, ⟨fun i => ?_, fun i => ?_⟩, fun i j _ hi => ?_, fun i => ?_, fun i j _ hi => ?_,
    dispatchLaw_of_none (fun i => ?_) rfl, ticketLaw_fresh rfl, ⟨nofun, fun _ => rfl, nofun⟩⟩
  · exact ⟨nofun, fun held => absurd held.1 nofun⟩
  · exact ⟨fun _ active => active.elim nofun nofun, fun _ => rfl⟩
  · rw [streams i]
    exact ⟨fun _ => rfl, fun _ => rfl⟩
  · rw [streams i]
    nofun
  · rw [disabled] at hi
    cases hi
  · rw [streams i]
    simp only [stream_default_counter]
    rfl
  · exact absurd (free i) hi
  · rw [free i]
    nofun

end Sys2Proof.Machine

/-! ### Resets and the end of initialisation (R172, R178) -/

namespace Sys2Proof.Machine

/-- The reports of a step that leaves no anchor and no flag: none. -/
theorem settle_unloaded {e : State} (anchor : e.run.anchor = none) (attention : e.page.attention = 0) (b : State) : settle b e = e := by
  have quiet : sendMsi b e = e := by
    have none : messages b e = 0 := by simp [messages, attention]
    rw [sendMsi_shape, none]
    rfl
  have status : oweStatus b e = e := by simp [oweStatus, anchor]
  have streams : oweStreams b e = e := by simp [oweStreams, anchor]
  unfold settle
  rw [quiet, status, streams]
  unfold kickWriter
  rw [anchor]

theorem beginRelease_shape (s : State) : beginRelease s = { s with cou := { s.cou with
    release := if s.cou.input = .released ∧ s.cou.level = .asserted ∧ s.cou.release = none ∧ s.run.initialising = false
      then some (s.time + 100) else s.cou.release } } := by
  unfold beginRelease
  by_cases begins : s.cou.input = .released ∧ s.cou.level = .asserted ∧ s.cou.release = none ∧ s.run.initialising = false
  · obtain ⟨input, level, release, flag⟩ := begins
    simp [input, level, release, flag, Config.releaseInterval]
  · rw [if_neg begins, if_neg (by simpa [and_assoc] using begins)]

theorem beginRelease_release_only (s : State) : ∃ r, beginRelease s = { s with cou := { s.cou with release := r } } :=
  ⟨_, beginRelease_shape s⟩

theorem packet_bytes_length (p : Packet) : 12 ≤ p.bytes.length := by
  simp only [Packet.bytes, sealed, List.length_append, leBytes_length]
  omega

theorem blocksBeforeCut_bounds {length : Nat} (long : 11 ≤ length) (free : Nat) :
    1 ≤ blocksBeforeCut length free ∧ 8 * blocksBeforeCut length free + 3 ≤ length := by
  have below : free % (1 + (length - 11) / 8) < 1 + (length - 11) / 8 := Nat.mod_lt _ (by omega)
  have eighth : 8 * ((length - 11) / 8) ≤ length - 11 := Nat.mul_div_le ..
  unfold blocksBeforeCut
  omega

/-- A packet that is cut off leaves some of its blocks, but not the last, on the line. -/
theorem cutOff_cut (i : Fin 4) (p : Packet) (l : MirrorLink) : CutOff p l (l.cutOff i p) := by
  obtain ⟨one, inside⟩ := blocksBeforeCut_bounds (Nat.le_trans (by decide) (packet_bytes_length p)) (Config.blocksSent i.val l.cuts)
  exact ⟨rfl, _, one, inside, rfl⟩

/-- The transmitter and the line of a link after a reset (R130, R180). -/
theorem mirrorLink_reset_line (i : Fin 4) (l : MirrorLink) :
    ((l.reset i).tx = .idle ↔ l.tx = .idle) ∧ ((l.reset i).tx = .idle ∨ (l.reset i).tx = .trailer)
      ∧ (∀ p, l.tx = .sending p → CutOff p l (l.reset i)) ∧ ((∀ p, l.tx ≠ .sending p) → (l.reset i).line = l.line) := by
  have tx : (l.reset i).tx = (l.cutAny i).tx := rfl
  have line : (l.reset i).line = (l.cutAny i).line := rfl
  rw [tx, line]
  cases sending : l.tx with
  | sending p =>
    have cut : l.cutAny i = l.cutOff i p := by simp only [MirrorLink.cutAny, sending]
    obtain ⟨trailer, sent⟩ := cutOff_cut i p l
    rw [cut, trailer]
    refine ⟨⟨nofun, nofun⟩, .inr rfl, ?_, fun none => absurd rfl (none p)⟩
    rintro q ⟨rfl⟩
    exact ⟨by rw [tx, cut, trailer], by rw [line, cut]; exact sent⟩
  | _ =>
    have stays : l.cutAny i = l := by simp only [MirrorLink.cutAny, sending]
    rw [stays, sending]
    exact ⟨by simp, by simp, nofun, fun _ => rfl⟩

/-- What every reset makes of the blocks, whatever of the rest the kind of reset keeps. -/
theorem settle_reset {e : State} (b : State) (anchor : e.run.anchor = none) (attention : e.page.attention = 0) :
    finish b (beginRelease e) = .next (beginRelease e) := by
  obtain ⟨r, shape⟩ := beginRelease_release_only e
  refine congrArg Host.Outcome.next (settle_unloaded ?_ ?_ b)
  · rw [shape]
    exact anchor
  · rw [shape]
    exact attention

/-- The outcome of a reset is the reset state: no report follows it. -/
theorem exec_partReset_eq {c : Instr} {s : State} (h : c = .functionLevelReset ∨ (c = .partReset ∧ s.run.initialising = false)) :
    exec c s = .next (partReset s) := by
  obtain rfl | ⟨rfl, flag⟩ := h
  · exact settle_reset s rfl rfl
  · have taken : partResetCommand s = partReset s := by simp [partResetCommand, flag]
    show finish s (partResetCommand s) = _
    rw [taken]
    exact settle_reset s rfl rfl

theorem exec_fullReset_eq {c : Instr} (s : State) (h : c = .powerOn ∨ c = .fundamentalReset ∨ c = .hotReset) :
    exec c s = .next (fullReset (decide (c = .powerOn)) s) := by
  obtain rfl | rfl | rfl := h <;> exact settle_reset s rfl rfl

/-! ### What the two kinds of reset have in common -/

/-- The blocks after a reset, with what the kinds of reset make different. -/
def resetTo (waiting : List Access) (host : HostSide) (initialising : Bool) (mask : BitVec 14) (time : Time)
    (streams : Vector Stream 16) (flags : Vector Bool 8) (cou : Cou) (s : State) : State :=
  { resetBlocks s with
    arb := { host := waiting }
    host := host
    run := { initialising := initialising }
    page := { s.page with attention := 0, mask := mask }
    time := time
    sau := { streams := streams, asideFlags := flags }
    cou := cou }

theorem partReset_eq (s : State) : partReset s = beginRelease (resetTo s.arb.host s.host s.run.initialising s.page.mask s.time
    (s.sau.streams.map Stream.partReset) s.sau.asideFlags s.cou.partReset s) := rfl

theorem fullReset_eq (initialising : Bool) (s : State) : fullReset initialising s = beginRelease (resetTo [] { s.host with partialRead := [] }
    initialising 0 0 ({} : Sau).streams ({} : Sau).asideFlags s.cou.fullReset s) := rfl

/-- A mirror link after a reset (R130, R145). -/
theorem mirrorLink_reset (i : Fin 4) (l : MirrorLink) : (l.reset i).counts = {} ∧ (l.reset i).consecutive = 0
    ∧ (l.reset i).window = .idle ∧ (l.reset i).waitingSafe = none ∧ (l.reset i).waitingCommand = none
    ∧ (l.reset i).rx = l.rx.restart := ⟨rfl, rfl, rfl, rfl, rfl, rfl⟩

/-- The Command Output Unit after a reset of either kind (R130, R132). -/
structure CouReset (c d : Cou) : Prop where
  output : d.output = .quiet ∧ d.causes = {} ∧ d.level = .asserted
  rest : d.safeSerial = 0 ∧ d.settings = none ∧ d.saturationRun = 0 ∧ d.voidRun = 0 ∧ d.lastEmitted = []
  links : ∀ l : Fin 4, d.links[l] = c.links[l].reset l

theorem couReset_partReset (c : Cou) : CouReset c c.partReset :=
  ⟨⟨rfl, rfl, rfl⟩, ⟨rfl, rfl, rfl, rfl, rfl⟩, fun l => by simp [Cou.partReset]⟩

theorem couReset_fullReset (c : Cou) : CouReset c c.fullReset :=
  ⟨⟨rfl, rfl, rfl⟩, ⟨rfl, rfl, rfl, rfl, rfl⟩, fun l => by simp [Cou.fullReset]⟩

theorem exec_reset_eq {c : Instr} {s : State} (h : c = .powerOn ∨ c = .fundamentalReset ∨ c = .hotReset ∨ c = .functionLevelReset
      ∨ (c = .partReset ∧ s.run.initialising = false)) :
    ∃ waiting host initialising mask time streams flags cou, CouReset s.cou cou
      ∧ exec c s = .next (beginRelease (resetTo waiting host initialising mask time streams flags cou s)) := by
  obtain rfl | rfl | rfl | part := h
  · exact ⟨_, _, _, _, _, _, _, _, couReset_fullReset _, exec_fullReset_eq s (.inl rfl)⟩
  · exact ⟨_, _, _, _, _, _, _, _, couReset_fullReset _, exec_fullReset_eq s (.inr (.inl rfl))⟩
  · exact ⟨_, _, _, _, _, _, _, _, couReset_fullReset _, exec_fullReset_eq s (.inr (.inr rfl))⟩
  · exact ⟨_, _, _, _, _, _, _, _, couReset_partReset _, exec_partReset_eq part⟩

theorem stream_partReset (x : Stream) : x.partReset.enabled = x.enabled ∧ x.partReset.config = x.config
    ∧ x.partReset.state = (if x.enabled then .standby else .disabled) ∧ x.partReset.misinserts = 0 ∧ x.partReset.awaiting = false
    ∧ x.partReset.timer = none ∧ x.partReset.changed = 0 ∧ ∀ k, x.partReset.counter k = 0 :=
  ⟨rfl, rfl, rfl, rfl, rfl, rfl, rfl, stream_default_counter⟩

/-- Settles O4: the reset state, block by block; no report follows it (`settle_unloaded`). -/
theorem resetsAndInitialisation : Obligations.ResetsAndInitialisation := by
  refine ⟨fun c s kind => ?_, fun c s kind => ?_, fun c s kind => ?_, fun s flag => ?_⟩
  · obtain ⟨waiting, host, initialising, mask, time, streams, flags, cou, ⟨output, rest, links⟩, next⟩ := exec_reset_eq kind
    refine ⟨_, next, ?_⟩
    rw [beginRelease_shape]
    obtain ⟨quiet, causes, level⟩ := output
    obtain ⟨serial, settings, saturation, void, emitted⟩ := rest
    have port : ∀ l : Fin 8, (s.ports.map Port.reset)[l] = s.ports[l].reset := fun l => by simp
    refine ⟨rfl, rfl, rfl, rfl, rfl, rfl, rfl, rfl, rfl, rfl, rfl, rfl, rfl, rfl, rfl, rfl, fun l => ?_, rfl, rfl, rfl, rfl, rfl,
      rfl, rfl, rfl, rfl, rfl, rfl, rfl, quiet, causes, level, serial, settings, saturation, void, emitted, fun l => ?_⟩
    · rw [show (resetTo waiting host initialising mask time streams flags cou s).ports[l] = s.ports[l].reset from port l]
      exact ⟨rfl, rfl, rfl, rfl, rfl, rfl⟩
    · obtain ⟨idle, trailer, cut, line⟩ := mirrorLink_reset_line l s.cou.links[l]
      obtain ⟨counts, consecutive, window, safe, command, rx⟩ := mirrorLink_reset l s.cou.links[l]
      rw [show (resetTo waiting host initialising mask time streams flags cou s).cou.links[l] = s.cou.links[l].reset l from links l]
      exact ⟨counts, consecutive, window, safe, command, rx, idle, trailer, cut, line⟩
  · refine ⟨_, exec_partReset_eq kind, ?_⟩
    rw [partReset_eq, beginRelease_shape]
    refine ⟨rfl, rfl, rfl, rfl, rfl, rfl, rfl, rfl, rfl, rfl, fun i => ?_⟩
    rw [show (resetTo _ _ _ _ _ _ _ _ _).sau.streams[i] = s.sau.streams[i].partReset from by simp [resetTo]]
    exact stream_partReset _
  · refine ⟨_, exec_fullReset_eq s kind, ?_⟩
    rw [fullReset_eq, beginRelease_shape]
    exact ⟨rfl, rfl, rfl, rfl, rfl, rfl, rfl, rfl, rfl, rfl⟩
  · have ended : exec .initialisationEnd s = finish s (endInitialisation s) := by
      show execInitialisationEnd s = _
      rw [execInitialisationEnd, if_pos flag]
    have only : OnlyChanges [.xm, .ecc, .run, .cou] s (endInitialisation s) :=
      ((((with_xm_only [] s).andThen (with_ecc_only [] _)).andThen (with_run_only _ _)).andThen (beginRelease_only _)).among rfl
    refine ⟨_, ended, ?_, ?_, ?_, ?_, only.settle s⟩
    · intro a
      rw [readByte, settle_xm, endInitialisation, beginRelease_shape]
      rfl
    · rw [settle_ecc, endInitialisation, beginRelease_shape]
    · rw [settle_run, endInitialisation, beginRelease_shape]
    · rw [settle_cou, endInitialisation, beginRelease_shape]
      simp

end Sys2Proof.Machine

/-!
The register page and the messages (R170, R171, R181).
-/
namespace Sys2Proof.Machine

/-! ### Reads and writes of the page (R181) -/

theorem partId_fields : partId.extractLsb' 0 16 = 0x3240#16 ∧ partId.extractLsb' 24 8 = 0x5A#8 := by
  unfold partId
  constructor
  · ext i inside
    simp only [BitVec.getElem_extractLsb', BitVec.getLsbD_append]
    simp [inside]
  · ext i inside
    have beyond : ¬ 24 + i < 16 ∧ ¬ 24 + i - 16 < 8 := by omega
    have place : 24 + i - 16 - 8 = i := by omega
    simp only [BitVec.getElem_extractLsb', BitVec.getLsbD_append, beyond.1, beyond.2, place]
    exact BitVec.getLsbD_eq_getElem inside

/-- RUN as it reads: its fields lie in different bits. -/
theorem runWord_toNat (r : Run) :
    (runWord r).toNat = r.state.code + 16 * r.initialising.toNat + 32 * r.busy.toNat + 256 * r.refusal.code := by
  have state : r.state.code ≤ 3 := by cases r.state <;> decide
  have refusal : r.refusal.code ≤ 4 := by cases r.refusal <;> decide
  have initialising := Bool.toNat_le r.initialising
  have busy := Bool.toNat_le r.busy
  unfold runWord
  rw [BitVec.toNat_ofNat, Nat.mod_eq_of_lt (by omega)]

theorem pageWord_other (s : State) {n : Nat} (h : 4 ≤ n) : pageWord s n = 0 := by
  match n, h with
  | n + 4, _ => rfl

/-- Settles O7: the words of the page, and the two writes that are no command of their own. -/
theorem registerPageAccesses : Obligations.RegisterPageAccesses := by
  refine ⟨fun _ => partId_fields, fun s => runWord_toNat s.run, fun s k high => ?_, fun s n => pageWord_other s, fun s offset n k inside => ?_,
    fun s offset bytes other => ?_, fun s v one two three four => ?_⟩
  · constructor
    · show (s.page.attention.setWidth 32).getLsbD k = false
      simp [BitVec.getLsbD_of_ge _ _ high]
    · show (s.page.mask.setWidth 32).getLsbD k = false
      simp [BitVec.getLsbD_of_ge _ _ high]
  · simp [pageRead, pageByte, inside]
  · have plain := plainCommand_of_wellFormed (c := .registerWriteOther offset bytes) other
    exact ⟨_, registerWriteOther_of_plain plain s, (OnlyChanges.refl [] s).settle s⟩
  · refine ⟨_, execUnknownCommand_eq ⟨one, two, three, four⟩ s, (refuseRun_only _ s).settle s, ?_⟩
    rw [settle_run, refuseRun_run]

/-! ### Messages (R171) -/

/-- A flag goes from clear to set while its mask flag is set. -/
def NewFlag (before after mask : BitVec 14) : Prop :=
  ∃ k, k < 14 ∧ before.getLsbD k = false ∧ after.getLsbD k = true ∧ mask.getLsbD k = true

theorem newFlag_iff (before after mask : BitVec 14) : NewFlag before after mask ↔ (after &&& ~~~before &&& mask) ≠ 0 := by
  constructor
  · rintro ⟨k, inside, clear, set, masked⟩ none
    have bit : (after &&& ~~~before &&& mask).getLsbD k = true := by
      rw [BitVec.getLsbD_and, BitVec.getLsbD_and, BitVec.getLsbD_not, set, clear, masked]
      simp [inside]
    rw [none] at bit
    simp at bit
  · intro some
    by_contra none
    refine some (BitVec.eq_of_getLsbD_eq fun k inside => ?_)
    by_contra bit
    simp only [BitVec.getLsbD_and, BitVec.getLsbD_not, inside, decide_true, Bool.true_and] at bit
    refine none ⟨k, inside, ?_, ?_, ?_⟩
    all_goals
      revert bit
      simp +contextual

theorem not_newFlag_self (flags mask : BitVec 14) : ¬ NewFlag flags flags mask := by
  rintro ⟨k, _, clear, set, _⟩
  exact absurd (clear.symm.trans set) nofun

theorem messages_one {b e : State} (h : e.page.msiEnabled = true ∧ NewFlag b.page.attention e.page.attention e.page.mask) :
    messages b e = 1 := by
  have new := (newFlag_iff ..).mp h.2
  unfold messages
  rw [if_pos (by rw [h.1, Bool.true_and, bne_iff_ne]; exact new)]

theorem messages_none {b e : State} (h : ¬ (e.page.msiEnabled = true ∧ NewFlag b.page.attention e.page.attention e.page.mask)) :
    messages b e = 0 := by
  rw [newFlag_iff] at h
  unfold messages
  rw [if_neg]
  intro sent
  rw [Bool.and_eq_true, bne_iff_ne] at sent
  exact h sent

/-- The messages of a step that takes an earlier event up to `first` before its own up to `e`; `flags` are those the earlier one can
raise. -/
theorem messages_of_events {s first e : State} {flags : BitVec 14}
    (enabled : first.page.msiEnabled = s.page.msiEnabled ∧ e.page.msiEnabled = s.page.msiEnabled)
    (mask : first.page.mask = e.page.mask) (sentFirst : first.page.msiSent = s.page.msiSent + messages s first)
    (sent : e.page.msiSent = first.page.msiSent)
    (split : first.page.attention = s.page.attention ||| (e.page.attention &&& flags)) {t : State}
    (settled : t = settle { s with page := first.page } e) :
    t.page.msiEnabled = s.page.msiEnabled ∧ ∃ m n,
      ((s.page.msiEnabled = true ∧ NewFlag s.page.attention (s.page.attention ||| (t.page.attention &&& flags)) t.page.mask → m = 1)
        ∧ (¬ (s.page.msiEnabled = true ∧ NewFlag s.page.attention (s.page.attention ||| (t.page.attention &&& flags)) t.page.mask) → m = 0))
      ∧ ((s.page.msiEnabled = true ∧ NewFlag (s.page.attention ||| (t.page.attention &&& flags)) t.page.attention t.page.mask → n = 1)
        ∧ (¬ (s.page.msiEnabled = true ∧ NewFlag (s.page.attention ||| (t.page.attention &&& flags)) t.page.attention t.page.mask) → n = 0))
      ∧ t.page.msiSent = s.page.msiSent + m + n := by
  subst settled
  rw [settle_page_attention, settle_page_mask, settle_page_msiEnabled, settle_msiSent, ← split]
  refine ⟨enabled.2, messages s first, messages { s with page := first.page } e, ⟨?_, ?_⟩, ⟨?_, ?_⟩, by rw [sent, sentFirst]⟩
  · rw [← enabled.1, ← mask]
    exact messages_one
  · rw [← enabled.1, ← mask]
    exact messages_none
  · rw [← enabled.2]
    exact messages_one
  · rw [← enabled.2]
    exact messages_none

/-- No flag but `f` has been raised. -/
def RaisesOnly (f : BitVec 14) (s t : State) : Prop := t.page.attention = s.page.attention ∨ t.page.attention = s.page.attention ||| f

theorem RaisesOnly.trans {f : BitVec 14} {s t u : State} (h : RaisesOnly f s t) (k : RaisesOnly f t u) : RaisesOnly f s u := by
  obtain k | k := k
  · exact h.imp (k.trans ·) (k.trans ·)
  · obtain h | h := h
    · exact .inr (by rw [k, h])
    · exact .inr (by rw [k, h, BitVec.or_assoc, BitVec.or_self])

theorem RaisesOnly.of_only {f : BitVec 14} {ps : List Part} {s t : State} (only : OnlyChanges ps s t)
    (apart : apartParts [.attention] ps = true) : RaisesOnly f s t :=
  .inl (only.same .attention (apartParts_iff.mp apart .attention (by decide)))

theorem RaisesOnly.foldl {α : Type} {f : BitVec 14} {g : State → α → State} (raises : ∀ s a, RaisesOnly f s (g s a)) (as : List α)
    (s : State) : RaisesOnly f s (as.foldl g s) :=
  law_foldl (law := RaisesOnly f s) (fun u a h => h.trans (raises u a)) as (.inl rfl)

theorem raises_raise (c : Cause) (s : State) : RaisesOnly c.flag s (raise c s) := .inr rfl

/-- The flags `f` are as they were. -/
def KeepsFlags (f : BitVec 14) (s t : State) : Prop := t.page.attention &&& f = s.page.attention &&& f

theorem KeepsFlags.trans {f : BitVec 14} {s t u : State} (h : KeepsFlags f s t) (k : KeepsFlags f t u) : KeepsFlags f s u := Eq.trans k h

theorem KeepsFlags.of_only {f : BitVec 14} {ps : List Part} {s t : State} (only : OnlyChanges ps s t)
    (apart : apartParts [.attention] ps = true) : KeepsFlags f s t :=
  congrArg (· &&& f) (only.same .attention (apartParts_iff.mp apart .attention (by decide)))

theorem keepsFlags_raise {f : BitVec 14} {c : Cause} (apart : c.flag &&& f = 0) (s : State) : KeepsFlags f s (raise c s) := by
  show (s.page.attention ||| c.flag) &&& f = _
  rw [BitVec.and_or_distrib_right, apart]
  exact BitVec.or_zero

/-- The earlier event is read off the flags at the end. -/
theorem flags_split {f : BitVec 14} {s first e : State} (before : RaisesOnly f s first) (after : KeepsFlags f first e) :
    first.page.attention = s.page.attention ||| (e.page.attention &&& f) := by
  have kept : e.page.attention &&& f = first.page.attention &&& f := after
  rw [kept]
  obtain same | raised := before
  · rw [same]
    ext i hi
    simp +contextual
  · rw [raised]
    ext i hi
    simp only [BitVec.getElem_or, BitVec.getElem_and]
    cases s.page.attention[i] <;> cases f[i] <;> rfl

/-! ### The earlier events of START, STOP and the end of DRAINING (log 9) -/

/-- What an earlier event leaves: the mask and MSI as they were, its flag at most raised, and its own message sent. -/
structure EarlierEvent (f : BitVec 14) (s first : State) : Prop where
  enabled : first.page.msiEnabled = s.page.msiEnabled
  mask : first.page.mask = s.page.mask
  sent : first.page.msiSent = s.page.msiSent + messages s first
  raises : RaisesOnly f s first

theorem messages_self (s : State) : messages s s = 0 := messages_none fun h => not_newFlag_self _ _ h.2

theorem EarlierEvent.none (f : BitVec 14) (s : State) : EarlierEvent f s s := ⟨rfl, rfl, by rw [messages_self, Nat.add_zero], .inl rfl⟩

/-- The earlier event with its message. -/
theorem EarlierEvent.of_sendMsi {f : BitVec 14} {s b u : State} {ps : List Part} (only : OnlyChanges ps s u)
    (apart : apartParts [.msi, .msiEnabled, .mask] ps = true) (raises : RaisesOnly f s u) (page : b.page = s.page) :
    EarlierEvent f s (sendMsi b u) := by
  have none := apartParts_iff.mp apart
  have enabled : u.page.msiEnabled = s.page.msiEnabled := only.same .msiEnabled (none .msiEnabled (by decide))
  have mask : u.page.mask = s.page.mask := only.same .mask (none .mask (by decide))
  have sent : u.page.msiSent = s.page.msiSent := only.same .msi (none .msi (by decide))
  have same : messages b u = messages s u := by rw [messages, page, messages]
  rw [sendMsi_shape]
  exact ⟨enabled, mask, by rw [same, sent]; rfl, raises⟩

theorem takeGuards_raises (s : State) : RaisesOnly Cause.held.flag s (takeGuards s) := by
  have caused : ∀ (c : HoldCause) (u : State), RaisesOnly Cause.held.flag u (addCause c u) := fun c u => by
    unfold addCause
    split
    · exact .inl rfl
    · exact .inl rfl
    · exact .inr rfl
  have counted : ∀ (g : GuardReport) (u : State), RaisesOnly Cause.held.flag u (countGuards g u) := fun g u => by
    have run : ∀ x : Cou, RaisesOnly Cause.held.flag u { u with cou := x } := fun _ => .inl rfl
    simp only [countGuards]
    split
    · split
      · exact ((run _).trans (caused _ _)).trans (caused _ _)
      · exact (run _).trans (caused _ _)
    · split
      · exact (run _).trans (caused _ _)
      · exact run _
  have taken : ∀ (u : State) (g : GuardReport), RaisesOnly Cause.held.flag u (takeGuard g u) := fun u g => by
    unfold takeGuard
    split
    · exact .inl rfl
    · exact counted g u
  exact (RaisesOnly.foldl (g := fun s g => takeGuard g s) taken s.wires.guardReports s).trans (.inl rfl)

theorem beforeEnd_earlier {b s : State} (page : b.page = s.page) : EarlierEvent Cause.held.flag s (beforeEnd b s) := by
  unfold beforeEnd
  split
  · exact .of_sendMsi (takeGuards_only s) rfl (takeGuards_raises s) page
  · exact .none _ s

theorem drainingCheck_keepsFlags {f : BitVec 14} (apart : Cause.runChange.flag &&& f = 0) (s : State) :
    KeepsFlags f s (drainingCheck s) := by
  unfold drainingCheck
  split
  · have armed : KeepsFlags f s (armScanAgain (quietCou s)) :=
      .of_only ((quietCou_only s).andThen (armScanAgain_only _)) rfl
    exact armed.trans (keepsFlags_raise apart _)
  · exact rfl

theorem enterRun_keepsFlags {f : BitVec 14} (apart : Cause.runChange.flag &&& f = 0) (r : RunState) (s : State) :
    KeepsFlags f s (enterRun r s) :=
  keepsFlags_raise apart { s with run := { s.run with state := r, refusal := .none } }

theorem startBlocks_keepsFlags (f : BitVec 14) (s : State) : KeepsFlags f s (startBlocks s) := rfl

theorem stop_keepsFlags (s : State) : KeepsFlags Cause.held.flag s (stop s) := by
  unfold stop
  split
  · have ended : OnlyChanges _ s (stopBlocks (stopDu (abandonWaiting (stopStreams (takeOwnerEnds s))))) :=
      (takeOwnerEnds_only s).andThen ((stopStreams_only _).andThen ((abandonWaiting_only _).andThen
        ((stopDu_only _).andThen (stopBlocks_only _))))
    exact ((KeepsFlags.of_only ended rfl).trans (enterRun_keepsFlags (by decide) .draining _)).trans
      (drainingCheck_keepsFlags (by decide) _)
  · exact rfl

/-- In READY a segment of an earlier run is late or malformed, and nothing more. -/
theorem judgeSegment_not_running {s : State} (h : isRunning s = false) (i : Fin 16) (g : Segment) : (judgeSegment i g s).2 = s := by
  simp only [judgeSegment, h]
  split
  · rfl
  · simp

theorem placeHanded_attention {s : State} (h : isRunning s = false) (x : Handed) :
    (placeHanded x s).page = s.page ∧ (placeHanded x s).run = s.run := by
  simp only [placeHanded]
  split
  · exact ⟨rfl, rfl⟩
  · next g => simp only [judgeSegment_not_running h, and_self]

theorem takeHandedAll_page {s : State} (h : isRunning s = false) : (takeHandedAll s).page = s.page := by
  have all : ∀ (xs : List Handed) (u : State), isRunning u = false → (xs.foldl (fun s x => placeHanded x s) u).page = u.page := by
    intro xs
    induction xs with
    | nil => exact fun _ _ => rfl
    | cons x xs ih =>
      intro u idle
      obtain ⟨page, run⟩ := placeHanded_attention idle x
      refine (ih (placeHanded x u) ?_).trans page
      rw [isRunning, run]
      exact idle
  exact (all s.wires.handed { s with wires := { s.wires with handed := [] } } h).trans rfl

theorem raiseCounters_raises (i : Fin 16) (cs : List Counter) (s : State) :
    RaisesOnly Cause.counterWrap.flag s (raiseCounters i cs s) := by
  simp only [raiseCounters]
  split
  · exact .inr rfl
  · exact .inl rfl

theorem takeReturnedAll_raises (s : State) : RaisesOnly Cause.counterWrap.flag s (takeReturnedAll s) := by
  have taken : ∀ (u : State) (r : Returned), RaisesOnly Cause.counterWrap.flag u (takeReturned r u) := fun u r =>
    (raiseCounters_raises ..).trans (.of_only ((outcomeMove_only r _).andThen (passToClock_only r _)) rfl)
  exact RaisesOnly.trans (t := { s with wires := { s.wires with returned := [] } }) (.inl rfl) (.foldl taken s.wires.returned _)

theorem beforeStart_earlier (s : State) : EarlierEvent Cause.counterWrap.flag s (beforeStart s) := by
  unfold beforeStart
  split
  · next accepted =>
    have idle : isRunning s = false := by
      have ready : s.run.state = .ready := by simp_all [startAccepted]
      rw [isRunning, ready]
      rfl
    have raises : RaisesOnly Cause.counterWrap.flag s (settleRun s) := by
      have handed : RaisesOnly Cause.counterWrap.flag s (takeHandedAll s) := .inl (congrArg Page.attention (takeHandedAll_page idle))
      exact (handed.trans (takeReturnedAll_raises _)).trans (.of_only (forgetRun_only _) rfl)
    exact .of_sendMsi (settleRun_only s) rfl raises rfl
  · exact .none _ s

theorem start_keepsFlags (s : State) : KeepsFlags Cause.counterWrap.flag s (start s) := by
  have begun : ∀ e : Edition, KeepsFlags Cause.counterWrap.flag s (beginRun e s) := fun e => by
    have blocks : KeepsFlags Cause.counterWrap.flag s (startBlocks (startStreams s)) :=
      (KeepsFlags.of_only (startStreams_only s) rfl).trans (startBlocks_keepsFlags _ _)
    have output : ∀ u : State, KeepsFlags Cause.counterWrap.flag u (startCou e.links u) := fun u => by
      have held : ∀ v : State, KeepsFlags Cause.counterWrap.flag v (holdAction v) := fun v => .of_only (holdAction_only v) rfl
      simp only [startCou]
      split
      · rfl
      · exact (keepsFlags_raise (c := .held) (by decide) _).trans (held _)
    exact (blocks.trans (output _)).trans (enterRun_keepsFlags (by decide) .running _)
  unfold start
  split
  · split
    · split
      · exact begun _
      · rfl
    · rfl
  · rfl

/-! ### Every command -/

/-- The parts of the page other than the flags. -/
theorem page_of_only {ps : List Part} {s e : State} (only : OnlyChanges ps s e) (apart : apartParts [.msi, .msiEnabled] ps = true) :
    e.page.msiEnabled = s.page.msiEnabled ∧ e.page.msiSent = s.page.msiSent :=
  ⟨only.same .msiEnabled (apartParts_iff.mp apart .msiEnabled (by decide)),
    only.same .msi (apartParts_iff.mp apart .msi (by decide))⟩

/-- The conclusion of `Obligations.MessageOnClearToSet` for a step whose earlier event can raise `flags`. -/
def MessagesSent (flags : BitVec 14) (s t : State) : Prop :=
  let first := s.page.attention ||| (t.page.attention &&& flags)
  let sent := fun (before after : BitVec 14) (n : Nat) =>
    (s.page.msiEnabled = true ∧ NewFlag before after t.page.mask → n = 1)
      ∧ (¬ (s.page.msiEnabled = true ∧ NewFlag before after t.page.mask) → n = 0)
  t.page.msiEnabled = s.page.msiEnabled
    ∧ ∃ m n, sent s.page.attention first m ∧ sent first t.page.attention n ∧ t.page.msiSent = s.page.msiSent + m + n

/-- A step that takes an earlier event, and then changes no more of the page than the flags. -/
theorem EarlierEvent.messagesSent {f : BitVec 14} {s first e : State} {ps : List Part} (earlier : EarlierEvent f s first)
    (only : OnlyChanges ps first e) (apart : apartParts [.msi, .msiEnabled, .mask] ps = true) (keeps : KeepsFlags f first e) :
    MessagesSent f s (settle { s with page := first.page } e) := by
  obtain ⟨enabled, sent⟩ := page_of_only only (apartParts_among apart rfl)
  have mask : e.page.mask = first.page.mask := only.same .mask (apartParts_iff.mp apart .mask (by decide))
  exact messages_of_events ⟨earlier.enabled, enabled.trans earlier.enabled⟩ mask.symm earlier.sent sent
    (flags_split earlier.raises keeps) rfl

/-- A step of one event. -/
theorem messagesSent_of_one {s e : State} (page : e.page.msiEnabled = s.page.msiEnabled ∧ e.page.msiSent = s.page.msiSent) :
    MessagesSent 0 s (settle s e) := by
  have none : s.page.attention = s.page.attention ||| (e.page.attention &&& 0) := by
    rw [show e.page.attention &&& 0 = 0#14 from BitVec.and_zero]
    exact BitVec.or_zero.symm
  refine messages_of_events (first := { s with page := { s.page with mask := e.page.mask } }) ⟨rfl, page.1⟩ rfl ?_ page.2 none rfl
  rw [messages_none fun new => not_newFlag_self _ _ new.2]
  rfl

/-- A step that does nothing sends nothing. -/
theorem messagesSent_self (f : BitVec 14) (s : State) : MessagesSent f s s := by
  have none : s.page.attention ||| (s.page.attention &&& f) = s.page.attention := by
    ext i hi
    simp only [BitVec.getElem_or, BitVec.getElem_and]
    cases s.page.attention[i] <;> cases f[i] <;> rfl
  refine ⟨rfl, 0, 0, ⟨fun new => ?_, fun _ => rfl⟩, ⟨fun new => ?_, fun _ => rfl⟩, rfl⟩
  · rw [none] at new
    exact absurd new.2 (not_newFlag_self _ _)
  · rw [none] at new
    exact absurd new.2 (not_newFlag_self _ _)

theorem runReport_messages (s : State) (w : Wires) : ∃ t, runReport s { s with wires := w } = .next t ∧ MessagesSent Cause.held.flag s t := by
  unfold runReport
  split
  · refine ⟨_, rfl, ?_⟩
    have earlier : EarlierEvent Cause.held.flag s (beforeEnd s { s with wires := w }) := by
      obtain ⟨enabled, mask, sent, raises⟩ := beforeEnd_earlier (b := s) (s := { s with wires := w }) rfl
      exact ⟨enabled, mask, sent, raises⟩
    exact earlier.messagesSent (drainingCheck_only _) rfl (drainingCheck_keepsFlags (by decide) _)
  · exact ⟨_, rfl, EarlierEvent.messagesSent (.none _ s) (with_wires_only w s) rfl rfl⟩

/-- The flags the earlier event of a command can raise. -/
def earlierFlags : Instr → BitVec 14
  | .start => Cause.counterWrap.flag
  | .stop | .runControlIdleReport | .linksQuietReport => Cause.held.flag
  | _ => 0

theorem exec_messages {c : Instr} (plain : plainCommand c = c) {s t : State} (next : exec c s = .next t) :
    MessagesSent (earlierFlags c) s t := by
  have other : apartParts [.msi, .msiEnabled] (effectParts c) = true → earlierFlags c = 0 → MessagesSent (earlierFlags c) s t := by
    intro apart none
    rw [none]
    obtain stay | ⟨p, e, finished, only, page⟩ := exec_reaches plain (insideWindow_of_next next) s
    · cases stay.symm.trans next
      exact messagesSent_self 0 s
    · cases finished.symm.trans next
      rw [page (apartParts_iff.mp apart .msi (by decide))]
      exact messagesSent_of_one (page_of_only only apart)
  cases c
  case start =>
    cases next
    exact (beforeStart_earlier s).messagesSent (start_only _) rfl (start_keepsFlags _)
  case stop =>
    cases next
    have earlier : EarlierEvent Cause.held.flag s (beforeStop s) := by
      unfold beforeStop
      split
      · exact beforeEnd_earlier rfl
      · exact .none _ s
    exact earlier.messagesSent (stop_only _) rfl (stop_keepsFlags _)
  case runControlIdleReport =>
    change execRunControlIdleReport s = .next t at next
    unfold execRunControlIdleReport at next
    split at next
    · obtain ⟨u, reported, sent⟩ := runReport_messages s { s.wires with idleToRun := false }
      cases reported.symm.trans next
      exact sent
    · cases next
      exact messagesSent_self _ s
  case linksQuietReport =>
    change execLinksQuietReport s = .next t at next
    unfold execLinksQuietReport at next
    split at next
    · obtain ⟨u, reported, sent⟩ := runReport_messages s { s.wires with linksQuiet := false }
      cases reported.symm.trans next
      exact sent
    · cases next
      exact messagesSent_self _ s
  all_goals exact other rfl rfl

/-- Settles O6: of a step of one event the flags alone change (`exec_reaches`); START and the steps that end DRAINING send the message of
their earlier event first (`EarlierEvent`). -/
theorem messageOnClearToSet : Obligations.MessageOnClearToSet := by
  intro c s t wellFormed next
  have sent := exec_messages (plainCommand_of_wellFormed wellFormed) next
  cases c <;> exact sent

end Sys2Proof.Machine
/-!
The Exchange Memory window of the host, the arbiter's grants and what each grant brings (R91, R172 to R174).
-/
namespace Sys2Proof.Machine

/-! ### The granule accesses of an access -/

theorem writeAccesses_data (p : Purpose) (a : Nat) (bs : List Byte) :
    ((writeAccesses p a bs).map fun x => x.data.getD []).flatten = bs := by
  have joined := take_drop_flat bs a (pieces a bs.length) 0 (pieces_offsets a bs.length) (Nat.zero_le _)
    fun x hx => (pieces_mem a bs.length x hx).1
  rw [writeAccesses, List.map_map]
  exact joined

theorem writeAccesses_offsets (p : Purpose) (a : Nat) (bs : List Byte) :
    (writeAccesses p a bs).flatMap (fun x => List.range' (32 * x.granule + x.lo) x.len) = List.range' a bs.length := by
  rw [writeAccesses, List.flatMap_map]
  exact pieces_offsets a bs.length

theorem readAccesses_offsets (p : Purpose) (a n : Nat) :
    (readAccesses p a n).flatMap (fun x => List.range' (32 * x.granule + x.lo) x.len) = List.range' a n := by
  rw [readAccesses, List.flatMap_map]
  exact pieces_offsets a n

theorem writeAccesses_within {p : Purpose} {a : Nat} {bs : List Byte} {x : Access} (hx : x ∈ writeAccesses p a bs) :
    0 < x.len ∧ x.lo + x.len ≤ 32 ∧ x.purpose = p ∧ (x.data.getD []).length = x.len := by
  obtain ⟨piece, hp, rfl⟩ := List.mem_map.1 hx
  obtain ⟨some_byte, within, from_a, to_end⟩ := pieces_mem a bs.length piece hp
  refine ⟨some_byte, within, rfl, ?_⟩
  simp only [Option.getD_some, List.length_take, List.length_drop]
  omega

theorem readAccesses_within {p : Purpose} {a n : Nat} {x : Access} (hx : x ∈ readAccesses p a n) :
    0 < x.len ∧ x.lo + x.len ≤ 32 ∧ x.purpose = p ∧ x.data = none := by
  obtain ⟨piece, hp, rfl⟩ := List.mem_map.1 hx
  obtain ⟨some_byte, within, _, _⟩ := pieces_mem a n piece hp
  exact ⟨some_byte, within, rfl, rfl⟩

/-! ### Host accesses -/

theorem inWindow_nonempty {offset n : Nat} (h : inWindow offset n = true) : 0 < n := by
  simp only [inWindow, Bool.and_eq_true, decide_eq_true_eq] at h
  exact h.1

theorem readAccesses_concat (p : Purpose) (a : Nat) {n : Nat} (hn : 0 < n) :
    ∃ front last, readAccesses p a n = front ++ [last] := by
  have cover := readAccesses_offsets p a n
  obtain none_placed | ⟨front, last, h⟩ := List.eq_nil_or_concat (readAccesses p a n)
  · rw [none_placed] at cover
    exact absurd (congrArg List.length cover) (by simp; omega)
  · exact ⟨front, last, by simpa using h⟩

/-- Whatever purpose they carry, the reads of an access are the same. -/
theorem readAccesses_purpose (p q : Purpose) (a n : Nat) :
    (readAccesses p a n).map (fun x => { x with purpose := q }) = readAccesses q a n := by
  simp [readAccesses]

theorem hostReadAccesses_places (offset n : Nat) :
    (hostReadAccesses offset n).map (fun x => { x with purpose := .stale }) = readAccesses .stale offset n := by
  rw [← readAccesses_purpose (.hostRead false)]
  obtain h | ⟨front, last, h⟩ := List.eq_nil_or_concat (readAccesses (.hostRead false) offset n)
  · simp [hostReadAccesses, h]
  · simp [hostReadAccesses, h]

/-- The last read of a host access, and no other, completes its reply. -/
theorem hostReadAccesses_purposes (offset : Nat) {n : Nat} (hn : 0 < n) :
    (hostReadAccesses offset n).map Access.purpose
      = List.replicate ((hostReadAccesses offset n).length - 1) (.hostRead false) ++ [.hostRead true] := by
  obtain ⟨front, last, h⟩ := readAccesses_concat (.hostRead false) offset hn
  have purposes : front.map Access.purpose = List.replicate front.length (.hostRead false) := by
    refine List.eq_replicate_iff.2 ⟨by simp, fun p hp => ?_⟩
    obtain ⟨x, hx, rfl⟩ := List.mem_map.1 hp
    exact (readAccesses_within (p := .hostRead false) (a := offset) (n := n) (by rw [h]; simp [hx])).2.2.1
  simp [hostReadAccesses, h, purposes]

theorem hostRead_running {s : State} (h : s.run.initialising = false) (offset n : Nat) :
    hostRead offset n s = placeHost (hostReadAccesses offset n) s := if_neg (by simp [h])

theorem hostRead_initialising {s : State} (h : s.run.initialising = true) (offset n : Nat) :
    hostRead offset n s
      = { s with host := { s.host with replies := s.host.replies ++ [List.replicate n 0xFF] } } := if_pos h

theorem hostWrite_running {s : State} (h : s.run.initialising = false) (offset : Nat) (bs : List Byte) :
    hostWrite offset bs s = placeHost (writeAccesses .hostWrite offset bs) s := if_neg (by simp [h])

theorem hostWrite_initialising {s : State} (h : s.run.initialising = true) (offset : Nat) (bs : List Byte) :
    hostWrite offset bs s = s := if_pos h

theorem hostXmRead_taken {offset n : Nat} (inside : inWindow offset n = true) (s : State) :
    exec (.hostXmRead offset n) s = .next (settle s (hostRead offset n s)) := execHostXmRead_inside inside s

theorem hostXmWrite_taken {offset : Nat} {bs : List Byte} (inside : inWindow offset bs.length = true) (s : State) :
    exec (.hostXmWrite offset bs) s = .next (settle s (hostWrite offset bs s)) := execHostXmWrite_inside inside s

/-- Settles O8: the pieces of an access partition its bytes, and each host command is one branch of its definition. -/
theorem hostWindow : Obligations.HostWindow := by
  refine ⟨fun p a bs n => ⟨writeAccesses_data p a bs, writeAccesses_offsets p a bs, fun x hx => writeAccesses_within hx,
    readAccesses_offsets p a n, fun x hx => readAccesses_within hx⟩, fun s offset n bs => ⟨?_, ?_, ?_, ?_, ?_, ?_⟩⟩
  · intro inside running
    refine ⟨_, hostReadAccesses offset n, hostXmRead_taken inside s, ?_⟩
    rw [hostRead_running running]
    exact ⟨(placeHost_only ..).settle s, settle_arb_host .., hostReadAccesses_places offset n,
      hostReadAccesses_purposes offset (inWindow_nonempty inside)⟩
  · intro inside initialising
    refine ⟨_, hostXmRead_taken inside s, ?_⟩
    rw [hostRead_initialising initialising]
    exact ⟨OnlyChanges.settle s (with_host_only _ s), settle_host ..⟩
  · intro inside running
    refine ⟨_, hostXmWrite_taken inside s, ?_⟩
    rw [hostWrite_running running]
    exact ⟨(placeHost_only ..).settle s, settle_arb_host ..⟩
  · intro inside initialising
    refine ⟨_, hostXmWrite_taken inside s, ?_⟩
    rw [hostWrite_initialising initialising]
    exact OnlyChanges.settle s (.refl [] s)
  · exact fun outside => execHostXmRead_outside outside s
  · exact fun outside => execHostXmWrite_outside outside s

end Sys2Proof.Machine
/-!
What one grant of the arbiter does (R91, R100, R104, R154, R172 to R174): a read, a write, and the choice between the engine and the
rotation.
-/
namespace Sys2Proof.Machine

/-! ### A read meets a cell error (R173) -/

/-- The granule is unreadable once it has met the cell error. -/
abbrev MeetsBad (met : CellError) (g : Nat) (s : State) : Prop :=
  met = .uncorrectable ∨ Store.find? s.ecc g = some .uncorrectable

/-- The read of the granule is corrected once it has met the cell error. -/
abbrev MeetsCorrected (met : CellError) (g : Nat) (s : State) : Prop :=
  ¬ MeetsBad met g s ∧ (met = .correctable ∨ Store.find? s.ecc g = some .corrected)

/-- The state in which the bytes of a read of the granule reach their claimant. -/
def afterRead (met : CellError) (g : Nat) (s : State) : State :=
  { s with
    ecc := (meetError met g s).ecc
    corrected := if MeetsCorrected met g s then s.corrected + 1 else s.corrected }

theorem meetError_bad (met : CellError) (g : Nat) (s : State) :
    Store.find? (meetError met g s).ecc g = some .uncorrectable ↔ MeetsBad met g s := by
  rw [meetError_find, if_pos rfl]
  exact worse_bad ..

theorem meetError_corrected (met : CellError) (g : Nat) (s : State) :
    Store.find? (meetError met g s).ecc g = some .corrected ↔ MeetsCorrected met g s := by
  rw [meetError_find, if_pos rfl]
  exact worse_corr ..

theorem readGranule_meetError (met : CellError) (a : Access) (s : State) :
    readGranule a (meetError met a.granule s)
      = (if MeetsBad met a.granule s then none else some (readBytes s (32 * a.granule + a.lo) a.len),
          afterRead met a.granule s) := by
  have bad := meetError_bad met a.granule s
  have corrected := meetError_corrected met a.granule s
  unfold afterRead
  rw [meetError_other met a.granule s] at bad corrected ⊢
  dsimp only [readGranule] at bad corrected ⊢
  cases h : Store.find? (meetError met a.granule s).ecc a.granule with
  | none =>
    rw [if_neg fun b => by simp [bad.2 b] at h, if_neg fun c => by simp [corrected.2 c] at h]
    rfl
  | some m =>
    cases m with
    | corrected =>
      have c := corrected.1 h
      rw [if_neg c.1, if_pos c]
      rfl
    | uncorrectable =>
      have b := bad.1 h
      rw [if_pos b, if_neg fun c => c.1 b]

theorem perform_read_good {met : CellError} {a : Access} {s : State} (read : a.data = none) (good : ¬ MeetsBad met a.granule s) :
    perform a (meetError met a.granule s)
      = deliver a (readBytes s (32 * a.granule + a.lo) a.len) (afterRead met a.granule s) := by
  unfold perform
  rw [read]
  simp only [readGranule_meetError, if_neg good]

theorem perform_read_bad {met : CellError} {a : Access} {s : State} (read : a.data = none) (bad : MeetsBad met a.granule s) :
    perform a (meetError met a.granule s) = deliverError a (afterRead met a.granule s) := by
  unfold perform
  rw [read]
  simp only [readGranule_meetError, if_pos bad]

theorem perform_write {a : Access} {bs : List Byte} (write : a.data = some bs) (s : State) :
    perform a s = written a (writeGranule a bs s) := by
  unfold perform
  rw [write]

/-! ### A grant to the engine (R100, R104, R174) -/

/-- The tile grant run after a grant to the engine. -/
def tileRunAfter (s : State) : Nat := if s.arb.rotation = none then 0 else s.arb.tileRun + 1

theorem grant_tile {met : CellError} {s : State} {key granule : Nat} (h : nextTileRead s = some (key, granule))
    (engine : s.arb.rotation = none ∨ s.arb.tileRun < 32) :
    grant met s = grantTile met key granule (setTileRun (tileRunAfter s) s) := by
  unfold grant tileRunAfter
  rw [h]
  by_cases idle : s.arb.rotation = none
  · simp [idle]
  · have run : s.arb.tileRun < Config.tileGrantLimit := engine.resolve_left idle
    simp [idle, run]

theorem nextTileRead_some {s : State} {key granule : Nat} (h : nextTileRead s = some (key, granule)) :
    ∃ f, s.rce.frame = some f ∧ f.plan.head? = some key ∧ f.cursor = granule := by
  unfold nextTileRead at h
  split at h
  · next f _ frame =>
    obtain ⟨k, head, e⟩ := Option.map_eq_some_iff.1 h
    cases e
    exact ⟨f, frame, head, rfl⟩
  · cases h

/-- The state after a read of the engine is granted; `step` is how its order goes on. -/
def tileGranted (met : CellError) (key granule : Nat) (d : Descriptor) (step : FrameContext → FrameContext) (s : State) : State :=
  let g := d.address / 32 + granule
  let data := if MeetsBad met g s then none else some (readBytes s (32 * g) 32)
  mapFrame step { afterRead met g s with
    wires := { s.wires with tileReturns := s.wires.tileReturns ++ [{ key := key, granule := granule, data := data }] } }

theorem grantTile_eq {key : Nat} {s : State} {d : Descriptor} (h : descriptorInUse key s = some d) (met : CellError) (granule : Nat) :
    grantTile met key granule s
      = tileGranted met key granule d
          (if MeetsBad met (d.address / 32 + granule) s then FrameContext.withdrawColumn (keyColumn key)
            else FrameContext.advance) s := by
  unfold grantTile
  rw [h]
  dsimp only
  have read := readGranule_meetError met
    { granule := d.address / 32 + granule, lo := 0, len := 32, data := none, purpose := .stale } s
  dsimp only at read
  rw [read]
  unfold tileGranted
  by_cases bad : MeetsBad met (d.address / 32 + granule) s
  · simp only [if_pos bad]; rfl
  · simp only [if_neg bad]; rfl

/-! ### The three ways a grant goes (R174) -/

theorem exec_grant {s : State} (h : s.wires.taints = []) (met : CellError) :
    exec (.granuleGrant met) s = .next (settle s (grant met s)) := by
  show finish s (grant met (takeTaints s)) = _
  rw [takeTaints_nil h]
  rfl

theorem grant_idle {met : CellError} {s : State} (noTile : nextTileRead s = none) (idle : ¬ anyWaits s) : grant met s = s := by
  unfold grant grantRotation
  rw [noTile, (rotation_none s).2 idle]

theorem deliver_arb (a : Access) (bs : List Byte) (s : State) : (deliver a bs s).arb = s.arb := by
  unfold deliver
  split
  case h_7 => unfold hostReturn; split <;> rfl
  all_goals rfl

/-- The accesses whose error withdraws the rest of their read (R82, R117, R124, log 25). -/
def Access.endsRead (a : Access) : Prop := a.purpose = .load ∨ a.purpose = .vector ∨ a.purpose = .copy

theorem deliverError_du_kept {a : Access} (h : ¬ a.endsRead) (s : State) : (deliverError a s).arb = s.arb := by
  unfold deliverError
  split
  case h_3 p => exact absurd (.inl p) h
  case h_4 p => exact absurd (.inr (.inl p)) h
  case h_5 p => exact absurd (.inr (.inr p)) h
  case h_7 => unfold hostReturn; split <;> rfl
  all_goals rfl

theorem deliverError_du_withdrawn {a : Access} (h : a.endsRead) (s : State) :
    (deliverError a s).arb.du = s.arb.du.filter fun x => decide (x.purpose ≠ a.purpose) := by
  have withdrawn : ∀ p : Purpose, (s.arb.du.filter fun x => !(x.purpose == p)) = s.arb.du.filter fun x => decide (x.purpose ≠ p) := by
    intro p
    exact List.filter_congr fun x _ => by simp [beq_eq_decide]
  unfold deliverError
  obtain p | p | p := h
  · rw [p]; exact withdrawn _
  · rw [p]; exact withdrawn _
  · rw [p]; exact withdrawn _

theorem writeGranule_arb (a : Access) (bs : List Byte) (s : State) : (writeGranule a bs s).arb = s.arb := by
  unfold writeGranule
  split
  · rfl
  · split <;> rfl

theorem written_du (a : Access) (s : State) : (written a s).arb.du = s.arb.du := by
  unfold written
  split
  case h_1 => dsimp only [watchWrite]; split <;> rfl
  case h_5 =>
    obtain ⟨r, q, h⟩ := sealSnapshot_shape s
    rw [h]
  all_goals rfl

/-- The Directive Unit's queue after an access: as it was, but for the rest of a read that fails. -/
theorem perform_du (met : CellError) (a : Access) (s : State) :
    let fails := a.data = none ∧ MeetsBad met a.granule s ∧ a.endsRead
    (¬ fails → (perform a (meetError met a.granule s)).arb.du = s.arb.du)
      ∧ (fails → (perform a (meetError met a.granule s)).arb.du = s.arb.du.filter fun x => decide (x.purpose ≠ a.purpose)) := by
  cases data : a.data with
  | none =>
    by_cases bad : MeetsBad met a.granule s
    · rw [perform_read_bad data bad]
      refine ⟨fun kept => ?_, fun fails => deliverError_du_withdrawn fails.2.2 _⟩
      rw [deliverError_du_kept fun ends => kept ⟨rfl, bad, ends⟩]
      rfl
    · rw [perform_read_good data bad]
      exact ⟨fun _ => by rw [deliver_arb]; rfl, fun fails => absurd fails.2.1 bad⟩
  | some bs =>
    rw [perform_write data]
    refine ⟨fun _ => ?_, fun fails => nomatch fails.1⟩
    rw [written_du, writeGranule_arb, meetError_arb]

/-- What the rotation finds once the access is taken from its claimant's queue. -/
def rotated (c : Claimant) (rest : List Access) (s : State) : State :=
  { s with arb := { (s.arb.setWaiting c rest) with pointer := c.next, tileRun := 0 } }

theorem exec_rotation (met : CellError) {s : State} {c : Claimant} {a : Access} {rest : List Access} (h : GrantsTo s c a rest) :
    exec (.granuleGrant met) s = .next (settle s (perform a (meetError met a.granule (rotated c rest s)))) := grant_of met h

theorem rotated_du (c : Claimant) (rest : List Access) (s : State) :
    (rotated c rest s).arb.du = if c = .du then rest else s.arb.du := by
  cases c <;> rfl

theorem rotated_queues (c : Claimant) (rest : List Access) (s : State) :
    (c = .sau → (rotated c rest s).arb.sau = rest) ∧ (c ≠ .sau → (rotated c rest s).arb.sau = s.arb.sau)
      ∧ (c = .host → (rotated c rest s).arb.host = rest) ∧ (c ≠ .host → (rotated c rest s).arb.host = s.arb.host)
      ∧ (c = .rpu → (rotated c rest s).arb.rpu = rest) ∧ (c ≠ .rpu → (rotated c rest s).arb.rpu = s.arb.rpu) := by
  cases c <;> refine ⟨?_, ?_, ?_, ?_, ?_, ?_⟩ <;> intro h <;> first | rfl | cases h | exact absurd rfl h

theorem tileRunAfter_idle {s : State} (h : ¬ anyWaits s) : tileRunAfter s = 0 := if_pos ((rotation_none s).2 h)

theorem tileRunAfter_waits {s : State} (h : anyWaits s) : tileRunAfter s = s.arb.tileRun + 1 :=
  if_neg fun none_waits => (rotation_none s).1 none_waits h

/-- Settles O9: the choice of the arbiter, with the engine's order after its read and the queues after a rotation grant. -/
theorem arbiterGrants : Obligations.ArbiterGrants := by
  intro met s noTaints
  refine ⟨?_, ?_, ?_⟩
  · intro key granule d tile found engine g bad data
    obtain ⟨f, frame, head, cursor⟩ := nextTileRead_some tile
    have queue : s.arb.rotation = none ∨ s.arb.tileRun < 32 := engine.imp_left (rotation_none s).2
    refine ⟨_, f, exec_grant noTaints met, ?_⟩
    rw [grant_tile tile queue, grantTile_eq (s := setTileRun (tileRunAfter s) s) found met granule]
    have unreadable : MeetsBad met (d.address / 32 + granule) (setTileRun (tileRunAfter s) s) ↔ bad := Iff.rfl
    have rce : ∀ step, (tileGranted met key granule d step (setTileRun (tileRunAfter s) s)).rce
        = { s.rce with frame := some (step f) } := fun step => by
      show { s.rce with frame := s.rce.frame.map step } = _
      rw [frame]; rfl
    refine ⟨settle_wires .., settle_xm .., fun x other => ?_, settle_corrected .., frame, head, cursor, ?_, ?_, ?_, ?_, ?_,
      settle_arb_pointer .., settle_arb_du .., settle_arb_sau .., settle_arb_host ..,
      settle_rpuQueue s (tileGranted met key granule d _ (setTileRun (tileRunAfter s) s))⟩
    · rw [settle_ecc]
      exact (meetError_find met g _ x).trans (if_neg other)
    · intro b
      rw [settle_rce, if_pos (unreadable.2 b), rce]; rfl
    · intro b inside
      rw [settle_rce, if_neg (mt unreadable.1 b), rce, FrameContext.advance, cursor, if_pos inside]
    · intro b outside
      rw [settle_rce, if_neg (mt unreadable.1 b), rce, FrameContext.advance, cursor, if_neg (by omega)]
    · intro waits
      rw [settle_arb_tileRun]
      exact tileRunAfter_waits waits
    · intro idle
      rw [settle_arb_tileRun]
      exact tileRunAfter_idle idle
  · intro c a rest granted
    refine ⟨_, exec_rotation met granted, ?_⟩
    have same := meetError_arb met a.granule (rotated c rest s)
    obtain ⟨sau, sau', host, host', rpu, rpu'⟩ := rotated_queues c rest s
    obtain ⟨tiles, run, pointer, sauKept, hostKept, rpuKept, _⟩ := perform_queue a (meetError met a.granule (rotated c rest s))
    have rpuGrows := rpuKept.trans (settle_rpuQueue s _)
    obtain ⟨duKept, duWithdrawn⟩ := perform_du met a (rotated c rest s)
    rw [meetError_wires] at tiles
    rw [same] at run pointer sauKept hostKept rpuGrows
    rw [rotated_du] at duKept duWithdrawn
    refine ⟨by rw [settle_wires]; exact tiles, by rw [settle_arb_tileRun]; exact run,
      by rw [settle_arb_pointer]; exact pointer, ?_, ?_, ?_, ?_, ?_, ?_, ?_⟩
    · exact fun h => by rw [settle_arb_sau, sauKept, sau h]
    · exact fun h => by rw [settle_arb_sau, sauKept, sau' h]
    · exact fun h => by rw [settle_arb_host, hostKept, host h]
    · exact fun h => by rw [settle_arb_host, hostKept, host' h]
    · exact fun h => (by rw [rpu h] : rest <+: (rotated c rest s).arb.rpu).trans rpuGrows
    · exact fun h => (by rw [rpu' h] : s.arb.rpu <+: (rotated c rest s).arb.rpu).trans rpuGrows
    · rw [settle_arb_du]
      exact ⟨duKept, duWithdrawn⟩
  · intro noTile idle
    refine ⟨_, exec_grant noTaints met, ?_⟩
    rw [grant_idle noTile idle]
    exact ⟨OnlyChanges.settle s (.refl _ s), settle_wires ..⟩

end Sys2Proof.Machine
/-!
What a granted write stores, or discards, and to whom it is reported (R34, R154, R167, R173).
-/
namespace Sys2Proof.Machine

/-! ### The bytes and the marks (R173) -/

/-- A part of a granule is written into a granule that cannot be read: the write is discarded. -/
abbrev WriteLost (met : CellError) (a : Access) (s : State) : Prop := a.len < 32 ∧ MeetsBad met a.granule s

/-- What a write that is not discarded stores, with the corrected errors it has counted. -/
def stored (met : CellError) (a : Access) (bs : List Byte) (s : State) : State :=
  storeGranule a bs { meetError met a.granule s with
    corrected := if a.len < 32 ∧ MeetsCorrected met a.granule s then s.corrected + 1 else s.corrected }

theorem writeGranule_lost {met : CellError} {a : Access} {s : State} (lost : WriteLost met a s) (bs : List Byte) :
    writeGranule a bs (meetError met a.granule s) = raise .memoryError (meetError met a.granule s) := by
  unfold writeGranule
  rw [if_neg (Nat.ne_of_lt lost.1), (meetError_bad ..).2 lost.2]

theorem writeGranule_stored {met : CellError} {a : Access} {s : State} (within : a.len ≤ 32) (kept : ¬ WriteLost met a s)
    (bs : List Byte) : writeGranule a bs (meetError met a.granule s) = stored met a bs s := by
  have corrected := meetError_corrected met a.granule s
  have bad := meetError_bad met a.granule s
  unfold writeGranule stored
  by_cases whole : a.len = 32
  · rw [if_pos whole, if_neg (fun h => absurd h.1 (by omega)), meetError_other]
  · have part : a.len < 32 := by omega
    rw [if_neg whole]
    cases h : Store.find? (meetError met a.granule s).ecc a.granule with
    | none =>
      rw [if_neg (fun c => by rw [corrected.2 c.2] at h; cases h), meetError_other]
    | some m =>
      cases m with
      | corrected =>
        rw [if_pos ⟨part, corrected.1 h⟩, meetError_other]; rfl
      | uncorrectable => exact absurd ⟨part, bad.1 h⟩ kept

theorem stored_ecc (met : CellError) (a : Access) (bs : List Byte) (s : State) (g : Nat) :
    Store.find? (stored met a bs s).ecc g = if g = a.granule then none else Store.find? s.ecc g := by
  show Store.find? (Store.erase (meetError met a.granule s).ecc a.granule) g = _
  rw [Store.find?_erase]
  by_cases h : g = a.granule
  · rw [if_pos h, if_pos h]
  · rw [if_neg h, if_neg h, meetError_find, if_neg h]

theorem stored_bytes (met : CellError) (a : Access) (bs : List Byte) (s : State) (x : Nat) :
    readByte (stored met a bs s) x
      = if 32 * a.granule + a.lo ≤ x ∧ x < 32 * a.granule + a.lo + bs.length then bs.getD (x - (32 * a.granule + a.lo)) 0
        else readByte s x := by
  have same : ∀ u : State, u.xm = s.xm → readByte u x = readByte s x := fun u h => by
    unfold readByte; rw [h]
  rw [stored, storeGranule, readByte_writeBytes]
  rw [same]
  rw [meetError_other]

/-! ### Who hears of it (R34, R154, R167) -/

theorem writeGranule_wires (a : Access) (bs : List Byte) (s : State) : (writeGranule a bs s).wires = s.wires := by
  unfold writeGranule
  split
  · rfl
  · split <;> rfl

theorem writeGranule_report (a : Access) (bs : List Byte) (s : State) :
    (writeGranule a bs s).rpu = s.rpu ∧ (writeGranule a bs s).run = s.run := by
  unfold writeGranule
  split
  · exact ⟨rfl, rfl⟩
  · split <;> exact ⟨rfl, rfl⟩

theorem written_outcome {a : Access} {ts : List Ticket} (h : a.purpose = .outcome ts) (s : State) :
    (written a s).wires
      = { s.wires with outcomesWritten := s.wires.outcomesWritten ++ (if ts = [] then [] else [ts]) } := by
  unfold written
  rw [h]
  cases ts with
  | nil => simp
  | cons t ts => rfl

theorem written_asideSeal {a : Access} (h : a.purpose = .asideSeal) (s : State) :
    (written a s).wires = { s.wires with asideSealed := true } := by
  unfold written
  rw [h]

theorem written_quiet {a : Access} (h : a.purpose = .asideBody ∨ a.purpose = .report ∨ a.purpose = .snapshotSeal) (s : State) :
    (written a s).wires = s.wires := by
  unfold written
  obtain h | h | h := h
  · rw [h]
  · rw [h]
  · rw [h]
    obtain ⟨r, q, e⟩ := sealSnapshot_shape s
    show (sealSnapshot s).wires = _
    rw [e]

/-- A writer with an item in hand takes no other at the end of the step. -/
theorem settle_writing {e : State} (b : State) (h : e.rpu.writer ≠ .idle) : ∃ page status stream,
    settle b e = { e with page := page, rpu := { e.rpu with statusOwed := status, streamOwed := stream } } := by
  obtain ⟨page, status, stream, eq, _⟩ := settle_eq b e
  refine ⟨page, status, stream, eq.trans ?_⟩
  unfold kickWriter
  split
  · next idle => exact absurd idle h
  · rfl

theorem SnapshotSealed.settle {k : Anchor} {set : TelemetrySet} {before : List Access} {s e : State}
    (h : SnapshotSealed k set before s e) (b : State) : SnapshotSealed k set before s (settle b e) := by
  obtain ⟨page, status, stream, eq⟩ := settle_writing b (e := e) (by rw [h.writer]; nofun)
  rw [eq]
  exact ⟨h.writer, h.advances, h.keeps, h.record⟩

theorem SnapshotSealed.of_rpu {k : Anchor} {set : TelemetrySet} {before : List Access} {s s' t : State}
    (h : SnapshotSealed k set before s t) (same : s.rpu = s'.rpu) : SnapshotSealed k set before s' t := by
  obtain ⟨writer, advances, keeps, record⟩ := h
  rw [same] at advances keeps record
  exact ⟨writer, advances, keeps, record⟩

theorem rotated_rpu (c : Claimant) (rest : List Access) (s : State) :
    (rotated c rest s).arb.rpu = if c = .rpu then rest else s.arb.rpu := by
  cases c <;> rfl

theorem meetError_same (met : CellError) (g : Nat) (s : State) :
    (meetError met g s).xm = s.xm ∧ (meetError met g s).rpu = s.rpu ∧ (meetError met g s).run = s.run
      ∧ (meetError met g s).corrected = s.corrected := by
  rw [meetError_other]
  exact ⟨rfl, rfl, rfl, rfl⟩

/-- Settles O10: a write is discarded or stored (`writeGranule_lost`, `writeGranule_stored`), and reported by its purpose. -/
theorem grantedWriteStores : Obligations.GrantedWriteStores := by
  intro met s c a rest bs granted write length within lost
  have write_len : a.len ≤ 32 := by omega
  refine ⟨_, exec_rotation met granted, ?_⟩
  rw [perform_write write]
  set u := rotated c rest s
  have hlost : WriteLost met a u ↔ lost := Iff.rfl
  obtain ⟨xm, ecc, corrected, raised⟩ := written_memory a (writeGranule a bs (meetError met a.granule u))
  have wires : (writeGranule a bs (meetError met a.granule u)).wires = s.wires := by
    rw [writeGranule_wires, meetError_wires]; rfl
  refine ⟨?_, ?_, ?_, ?_, ?_, ?_, ?_, ?_⟩
  · intro kept
    rw [writeGranule_stored write_len (mt hlost.1 kept)] at xm ecc ⊢
    refine ⟨by rw [settle_ecc, ecc, stored_ecc, if_pos rfl], fun x => ?_⟩
    have bytes := stored_bytes met a bs u x
    unfold readByte at bytes ⊢
    rw [settle_xm, xm, bytes, length]
    rfl
  · intro gone
    rw [writeGranule_lost (hlost.2 gone)] at xm ecc raised ⊢
    refine ⟨?_, ?_, ?_⟩
    · rw [settle_xm, xm]; exact (meetError_same ..).1
    · rw [settle_ecc, ecc]; exact (meetError_bad ..).2 gone.2
    · rw [attentionHas_settle]
      exact raised (by simp [attentionHas_raise])
  · intro g other
    rw [settle_ecc, ecc]
    by_cases gone : lost
    · rw [writeGranule_lost (hlost.2 gone)]
      exact (meetError_find ..).trans (if_neg other)
    · rw [writeGranule_stored write_len (mt hlost.1 gone), stored_ecc, if_neg other]; rfl
  · rw [settle_corrected, corrected]
    by_cases gone : lost
    · rw [writeGranule_lost (hlost.2 gone), if_neg (fun h => h.2.1 gone)]
      exact (meetError_same ..).2.2.2
    · rw [writeGranule_stored write_len (mt hlost.1 gone)]
      have same : (a.len < 32 ∧ ¬ lost ∧ (met = .correctable ∨ Store.find? s.ecc a.granule = some .corrected))
          ↔ a.len < 32 ∧ MeetsCorrected met a.granule u :=
        ⟨fun ⟨part, _, corr⟩ => ⟨part, fun bad => gone ⟨part, bad⟩, corr⟩, fun ⟨part, _, corr⟩ => ⟨part, gone, corr⟩⟩
      rw [if_congr same rfl rfl]; rfl
  · intro ts purpose
    rw [settle_wires, written_outcome purpose, wires]
  · intro purpose
    rw [settle_wires, written_asideSeal purpose, wires]
  · intro purpose
    rw [settle_wires, written_quiet purpose, wires]
  · intro k set more purpose anchor writer holding
    obtain ⟨rpu, run⟩ := writeGranule_report a bs (meetError met a.granule u)
    obtain ⟨_, rpu', run', _⟩ := meetError_same met a.granule u
    have found := sealSnapshot_sealed k set more (writeGranule a bs (meetError met a.granule u))
      (by rw [run, run']; exact anchor) (by rw [rpu, rpu']; exact writer) (by rw [rpu, rpu']; exact holding)
    rw [writeGranule_arb, meetError_arb, rotated_rpu] at found
    have sealing : written a (writeGranule a bs (meetError met a.granule u))
        = sealSnapshot (writeGranule a bs (meetError met a.granule u)) := by
      unfold written; rw [purpose]
    rw [sealing]
    exact (found.of_rpu (s' := s) (rpu.trans rpu')).settle s

end Sys2Proof.Machine
/-!
What a granted read brings to the block that placed it (R34, R124, R152, R172, R173, R175), and what a granted host write taints (R91, R105).
-/
namespace Sys2Proof.Machine

/-! ### Reads -/

theorem deliver_corrected (a : Access) (bs : List Byte) (s : State) : (deliver a bs s).corrected = s.corrected := by
  unfold deliver
  split
  case h_7 => unfold hostReturn; split <;> rfl
  all_goals rfl

theorem deliverError_corrected (a : Access) (s : State) : (deliverError a s).corrected = s.corrected := by
  unfold deliverError
  split
  case h_7 => unfold hostReturn; split <;> rfl
  all_goals rfl

/-- A granted read leaves memory as it stands, and counts a corrected error. -/
theorem perform_read_memory {met : CellError} {a : Access} {s : State} (read : a.data = none) :
    (perform a (meetError met a.granule s)).xm = s.xm
      ∧ (perform a (meetError met a.granule s)).corrected
          = if MeetsCorrected met a.granule s then s.corrected + 1 else s.corrected := by
  by_cases bad : MeetsBad met a.granule s
  · rw [perform_read_bad read bad, deliverError_xm, deliverError_corrected]
    exact ⟨rfl, rfl⟩
  · rw [perform_read_good read bad, deliver_xm, deliver_corrected]
    exact ⟨rfl, rfl⟩

theorem hostReturn_host (last : Bool) (bs : List Byte) (s : State) :
    (hostReturn last bs s).host
      = if last then { partialRead := [], replies := s.host.replies ++ [s.host.partialRead ++ bs] }
        else { s.host with partialRead := s.host.partialRead ++ bs } := by
  unfold hostReturn
  split <;> rfl

theorem hostReturn_page (last : Bool) (bs : List Byte) (s : State) : (hostReturn last bs s).page = s.page := by
  unfold hostReturn
  split <;> rfl

/-- The reads of the Directive Unit (R151, R156, R175). -/
def Access.ofDu (a : Access) : Prop := a.purpose = .slot ∨ a.purpose = .anchor ∨ a.purpose = .load ∨ a.purpose = .vector

theorem mapDuJob_du {p : Purpose} {s : State} {j : ReadJob} (job : s.du.job = some j) (same : j.purpose = p)
    (f : ReadJob → ReadJob) : (mapDuJob p f s).du = { s.du with job := some (f j) } := by
  show { s.du with job := s.du.job.map fun j : ReadJob => if j.purpose = p then f j else j } = _
  rw [job, Option.map_some, if_pos same]

theorem mapCopyJob_pru {s : State} {j : ReadJob} (job : s.pru.job = some j) (f : ReadJob → ReadJob) :
    (mapCopyJob f s).pru = { s.pru with job := some (f j) } := by
  show { s.pru with job := s.pru.job.map f } = _
  rw [job, Option.map_some]

theorem deliver_du {a : Access} (h : a.ofDu) (bs : List Byte) (s : State) :
    deliver a bs s = mapDuJob a.purpose (ReadJob.take bs) s := by
  unfold deliver
  obtain h | h | h | h := h <;> rw [h]

theorem deliverError_du {a : Access} (h : a.ofDu) (s : State) :
    (deliverError a s).du
      = (mapDuJob a.purpose (ReadJob.fail a.granule (decide (a.purpose = .load ∨ a.purpose = .vector))) s).du := by
  unfold deliverError
  obtain h | h | h | h := h <;> rw [h] <;> rfl

/-- Settles O11: the read's bytes go to the block that placed it (`perform_read_good`), its error too (`perform_read_bad`). -/
theorem grantedReadReturns : Obligations.GrantedReadReturns := by
  intro met s c a rest granted read bad bytes
  refine ⟨_, exec_rotation met granted, ?_⟩
  set u := rotated c rest s
  have isBad : MeetsBad met a.granule u ↔ bad := Iff.rfl
  obtain ⟨xm, corrected⟩ := perform_read_memory (met := met) (s := u) read
  have onError := fun b : bad => perform_read_bad read (isBad.2 b)
  have onBytes := fun b : ¬ bad => perform_read_good read (mt isBad.1 b)
  refine ⟨(settle_xm ..).trans xm, (settle_corrected ..).trans corrected, ?_, ?_, ?_, ?_, ?_⟩
  · intro last purpose got
    have error : ∀ v, deliverError a v = hostReturn last (List.replicate a.len 0xFF) (raise .memoryError v) := fun v => by
      unfold deliverError; rw [purpose]
    have returned : ∀ bs v, deliver a bs v = hostReturn last bs v := fun bs v => by
      unfold deliver; rw [purpose]
    refine ⟨fun b => ?_, fun b => ?_, ?_⟩
    · rw [onError b, error, attentionHas_settle, attentionHas, hostReturn_page]
      exact (attentionHas_raise ..).trans (by simp)
    · rw [settle_page_attention, onBytes b, returned, hostReturn_page]
      rfl
    · rw [settle_host]
      by_cases b : bad
      · rw [onError b, error, hostReturn_host]
        simp only [got, if_pos b]
        rfl
      · rw [onBytes b, returned, hostReturn_host]
        simp only [got, if_neg b]
        rfl
  · intro j job same ofDu
    refine ⟨fun b => ?_, fun b => ?_⟩
    · rw [settle_du, onBytes b, deliver_du ofDu]
      exact mapDuJob_du (s := afterRead met a.granule u) job same _
    · rw [settle_du, onError b, deliverError_du ofDu, mapDuJob_du (s := afterRead met a.granule u) job same]
      simp only [ReadJob.fail, decide_eq_true_eq]
      rfl
  · intro purpose
    rw [settle_wires]
    by_cases b : bad
    · rw [onError b, deliverError, purpose]
      simp only [if_pos b]
      rfl
    · rw [onBytes b, deliver, purpose]
      simp only [if_neg b, List.all_eq_true, beq_iff_eq]
      rfl
  · intro purpose j job
    refine ⟨fun b => ?_, fun b => ⟨?_, fun x hx => ?_⟩⟩
    · rw [settle_pru, onBytes b, deliver, purpose]
      exact mapCopyJob_pru (s := afterRead met a.granule u) job _
    · rw [settle_pru, onError b, deliverError, purpose]
      exact mapCopyJob_pru (s := afterRead met a.granule u) job _
    · rw [settle_arb_du, onError b, deliverError_du_withdrawn (.inr (.inr purpose)), purpose] at hx
      exact of_decide_eq_true (List.mem_filter.1 hx).2
  · intro purpose
    rw [settle_page_attention, settle_du, settle_pru, settle_host, settle_wires]
    by_cases b : bad
    · rw [onError b, deliverError, purpose]
      exact ⟨rfl, rfl, rfl, rfl, rfl⟩
    · rw [onBytes b, deliver, purpose]
      exact ⟨rfl, rfl, rfl, rfl, rfl⟩

/-! ### Host writes (R91, R105) -/

/-- The descriptor's tile lies in the granule. -/
def Descriptor.inTile (tile : Nat) (d : Descriptor) : Bool := decide (watchGranule d.address = tile)

theorem Edition.taint_eq (tile : Nat) (e : Edition) :
    e.taint tile
      = { e with directory := e.directory.map fun x => (x.1, { x.2 with taint := x.2.taint || x.2.inTile tile }) } := by
  have each : ∀ x : Nat × Descriptor,
      (x.1, if watchGranule x.2.address = tile then { x.2 with taint := true } else x.2)
        = (x.1, { x.2 with taint := x.2.taint || x.2.inTile tile }) := fun x => by
    by_cases h : watchGranule x.2.address = tile
    · simp [Descriptor.inTile, h]
    · simp [Descriptor.inTile, h]
  unfold Edition.taint
  rw [List.map_congr_left fun x _ => each x]

theorem taintReports_eq (i : SlotId) (tile : Nat) (e : Edition) :
    ((e.keysIn tile).map fun k => ({ slot := i, key := k } : TaintReport))
      = (e.directory.filter fun x => x.2.inTile tile).map fun x => { slot := i, key := x.1 } := by
  rw [Edition.keysIn, List.map_map]
  rfl

theorem writeGranule_attention (a : Access) (bs : List Byte) {c : Cause} (other : c ≠ .memoryError) (s : State) :
    attentionHas c (writeGranule a bs s) = attentionHas c s := by
  unfold writeGranule
  split
  · rfl
  · split
    · rfl
    · rfl
    · simp [attentionHas_raise, other]

theorem writeGranule_watch (a : Access) (bs : List Byte) (s : State) :
    (writeGranule a bs s).watch = s.watch ∧ (writeGranule a bs s).rce = s.rce := by
  unfold writeGranule
  split
  · exact ⟨rfl, rfl⟩
  · split <;> exact ⟨rfl, rfl⟩

theorem watchWrite_unwatched {g : Nat} {s : State} (h : Store.find? s.watch (watchGranule (32 * g)) = none) :
    watchWrite g s = s := by
  simp only [watchWrite, h]

theorem watchWrite_watched {g : Nat} {s : State} {w : Watched} (h : Store.find? s.watch (watchGranule (32 * g)) = some w) :
    let tile := watchGranule (32 * g)
    watchWrite g s = raise .liveWrite
      { s with
        rce := { s.rce with slotA := s.rce.slotA.taint tile, slotB := s.rce.slotB.taint tile }
        wires := { s.wires with
          taints := s.wires.taints ++ taintReports .a tile s.rce.slotA ++ taintReports .b tile s.rce.slotB } } := by
  simp only [watchWrite, h]

/-- Settles O12: a write into a watched granule is the second branch of `watchWrite`, one into any other the first. -/
theorem hostWriteTaints : Obligations.HostWriteTaints := by
  intro met s a rest bs granted write purpose tile inTile taint watched reports
  refine ⟨_, exec_rotation met granted, ?_⟩
  rw [perform_write write]
  set u := meetError met a.granule (rotated .host rest s) with hu
  have other := meetError_other met a.granule (rotated .host rest s)
  rw [← hu] at other
  have attention : attentionHas .liveWrite (writeGranule a bs u) = attentionHas .liveWrite s := by
    rw [writeGranule_attention a bs (by decide), other]; rfl
  obtain ⟨watch, rce⟩ := writeGranule_watch a bs u
  have wires := writeGranule_wires a bs u
  have watch_u : u.watch = s.watch := by rw [other]; rfl
  have rce_u : u.rce = s.rce := by rw [other]; rfl
  have wires_u : u.wires = s.wires := by rw [other]; rfl
  rw [watch_u] at watch
  rw [rce_u] at rce
  rw [wires_u] at wires
  have sees : written a (writeGranule a bs u) = watchWrite a.granule (writeGranule a bs u) := by
    unfold written; rw [purpose]
  rw [sees, settle_rce, settle_wires, attentionHas_settle]
  refine ⟨fun unwatched => ?_, fun w found => ?_⟩
  · rw [watchWrite_unwatched (by rw [watch]; exact unwatched)]
    exact ⟨rce, wires, attention⟩
  · rw [watchWrite_watched (w := w) (by rw [watch]; exact found)]
    have slots : ∀ x : Slot, x.taint tile = watched x := fun x => by
      cases x with
      | empty => rfl
      | loading e => rfl
      | current e => exact congrArg Slot.current (e.taint_eq tile)
      | retained e => exact congrArg Slot.retained (e.taint_eq tile)
    have told : ∀ (i : SlotId) (x : Slot), taintReports i tile x = reports i x := fun i x => by
      cases x with
      | empty => rfl
      | loading e => rfl
      | current e => exact taintReports_eq i tile e
      | retained e => exact taintReports_eq i tile e
    refine ⟨by simp [attentionHas_raise], ?_, ?_⟩
    · rw [← slots, ← slots, raise_rce, rce]
    · rw [← told, ← told, raise_wires, rce, wires]

end Sys2Proof.Machine
/-!
Run control: refused run commands, LOAD_ANCHOR and the Anchor Record (R35, R149, R164, R169, R175, R176).
-/
namespace Sys2Proof.Machine

/-! ### Refused run commands (11.4) -/

/-- A step that only records a refusal. -/
theorem refused_step (c : RunRefusal) (s : State) :
    Touches [.run] s (settle s (refuseRun c s)) ∧ (settle s (refuseRun c s)).run = { s.run with refusal := c } :=
  ⟨(refuseRun_only c s).settle s, settle_run ..⟩

theorem loadAnchor_refused {s : State} (h : s.run.state ≠ .halted ∨ s.run.busy = true ∨ s.run.initialising = true) :
    exec .loadAnchor s = .next (settle s (refuseRun .wrongState s)) := by
  have closed : (s.run.state = .halted && !s.run.busy && !s.run.initialising) = false := by
    obtain h | h | h := h <;> simp [h]
  show finish s (loadAnchor s) = _
  rw [loadAnchor, closed]
  rfl

theorem start_unready {s : State} (h : startAccepted s = false) : exec .start s = .next (settle s (start s)) := by
  show finishAfter s (beforeStart s) (start (beforeStart s)) = _
  rw [beforeStart, h]
  rfl

theorem start_wrongState {s : State} (h : s.run.state ≠ .ready ∨ s.run.initialising = true) :
    exec .start s = .next (settle s (refuseRun .wrongState s)) := by
  have closed : (s.run.state = .ready && !s.run.initialising) = false := by
    obtain h | h := h <;> simp [h]
  rw [start_unready (by obtain h | h := h <;> simp [startAccepted, h]), start, closed]
  rfl

/-- One of the three conditions of START is missing. -/
theorem startReady_false {s : State}
    (h : currentSlot s = none ∨ s.fck.configured = false ∨ s.sau.streams[s.fck.stream].enabled = false) : startReady s = false := by
  unfold startReady
  obtain h | h | h := h
  · rw [h]; rfl
  · rw [h]; simp
  · rw [h]; simp

theorem start_notConfigured {s : State} (ready : s.run.state = .ready) (running : s.run.initialising = false)
    (h : startReady s = false) : exec .start s = .next (settle s (refuseRun .notConfigured s)) := by
  have refuses : start s = refuseRun .notConfigured s := by
    unfold start
    rw [if_pos (by simp [ready, running])]
    split
    · rw [h]; rfl
    · rfl
  rw [start_unready (by simp [startAccepted, h]), refuses]

theorem stop_wrongState {s : State} (h : s.run.state ≠ .running ∨ s.run.initialising = true) :
    exec .stop s = .next (settle s (refuseRun .wrongState s)) := by
  have closed : (s.run.state = .running && !s.run.initialising) = false := by
    obtain h | h := h <;> simp [h]
  show finishAfter s (beforeStop s) (stop (beforeStop s)) = _
  have first : beforeStop s = s := by rw [beforeStop, closed]; rfl
  rw [first, stop, closed]
  rfl

theorem partReset_refused {s : State} (h : s.run.initialising = true) :
    exec .partReset s = .next (settle s (refuseRun .wrongState s)) := by
  show finish s (partResetCommand s) = _
  rw [partResetCommand, if_pos h]
  rfl

/-- Settles O13: each command's refusing branch. -/
theorem runCommandsRefused : Obligations.RunCommandsRefused := by
  refine ⟨fun c s h => ?_, fun s ready running h => ?_⟩
  · have wrong : exec c s = .next (settle s (refuseRun .wrongState s)) := by
      obtain ⟨rfl, h⟩ | ⟨rfl, h⟩ | ⟨rfl, h⟩ | ⟨rfl, h⟩ := h
      · exact loadAnchor_refused h
      · exact start_wrongState h
      · exact stop_wrongState h
      · exact partReset_refused h
    exact ⟨_, wrong, refused_step .wrongState s⟩
  · exact ⟨_, start_notConfigured ready running (startReady_false h), refused_step .notConfigured s⟩

/-! ### LOAD_ANCHOR (R175) -/

theorem loadAnchor_taken {s : State} (halted : s.run.state = .halted) (idle : s.run.busy = false) (running : s.run.initialising = false) :
    loadAnchor s = duRead .anchor 0 256 { s with run := { s.run with busy := true, refusal := .none } } :=
  if_pos (by simp [halted, idle, running])

theorem readAccesses_anchor :
    readAccesses .anchor 0 256
      = (List.range 8).map fun k => { granule := k, lo := 0, len := 32, data := none, purpose := .anchor } := by
  decide

/-- A step whose Report Unit has just taken an anchor writes a Stream Report next, or a telemetry set first. -/
theorem kickWriter_loaded {u : State} {a : Anchor} (anchor : u.run.anchor = some a) (status : u.rpu.statusOwed = true)
    (stream : u.rpu.streamOwed = true) :
    (kickWriter u).rpu.nextSnapshot = u.rpu.nextSnapshot ∧ (kickWriter u).rpu.statusOwed = true
      ∧ ((kickWriter u).rpu.streamOwed = true ∨ (kickWriter u).rpu.writer = .streamReport) := by
  obtain ⟨_, e⟩ | ⟨_, x, xs, _, e⟩ | ⟨_, _, _, e⟩ | ⟨_, _, none_owed, _⟩ | ⟨_, _, none_owed, _⟩ := kickWriter_cases u a anchor
  · rw [e]; exact ⟨rfl, status, .inl stream⟩
  · rw [e]
    unfold takeTelemetry
    dsimp only
    split
    · exact ⟨rfl, status, .inl stream⟩
    · exact ⟨rfl, status, .inl stream⟩
  · rw [e]; exact ⟨rfl, status, .inr rfl⟩
  · rw [stream] at none_owed; cases none_owed
  · rw [stream] at none_owed; cases none_owed

theorem settle_loaded {e : State} {a : Anchor} (b : State) (anchor : e.run.anchor = some a) (status : e.rpu.statusOwed = true)
    (stream : e.rpu.streamOwed = true) :
    (settle b e).rpu.nextSnapshot = e.rpu.nextSnapshot ∧ (settle b e).rpu.statusOwed = true
      ∧ ((settle b e).rpu.streamOwed = true ∨ (settle b e).rpu.writer = .streamReport) := by
  obtain ⟨page, owed, owed', eq, hs, ht⟩ := settle_eq b e
  rw [eq]
  exact kickWriter_loaded (u := { e with page := page, rpu := { e.rpu with statusOwed := owed, streamOwed := owed' } }) anchor
    (by rw [hs, status]; rfl) (by rw [ht, stream]; rfl)

theorem takeAnchor_touches (a : Anchor) (s : State) : Touches [.run, .du, .sau, .attention] s (settle s (takeAnchor a s)) :=
  OnlyChanges.settleAfter s ((takeAnchor_only a s).among rfl) (.refl _ _)

theorem exec_anchorReadDone {s : State} {j : ReadJob} (halted : s.run.state = .halted) (busy : s.run.busy = true)
    (job : s.du.job = some j) (purpose : j.purpose = .anchor) (done : j.left = 0) :
    exec .anchorReadDone s = .next (settle s (anchorRead j s)) := by
  have returned : duReturned .anchor s = some j := by simp [duReturned, job, purpose, ReadJob.complete, done]
  show execAnchorReadDone s = _
  unfold execAnchorReadDone
  rw [halted, busy, returned]
  rfl

theorem anchorRead_valid {j : ReadJob} (whole : j.failed = none) (valid : validAnchor j.bytes = true) (s : State) :
    anchorRead j s = takeAnchor (parseAnchor j.bytes) s := by
  simp [anchorRead, whole, valid]

theorem anchorRead_invalid {j : ReadJob} (h : j.failed.isSome = true ∨ validAnchor j.bytes = false) (s : State) :
    anchorRead j s = anchorInvalid (raiseIf j.failed.isSome .memoryError s) := by
  unfold anchorRead raiseIf
  by_cases failed : j.failed.isSome = true
  · rw [if_pos failed, if_pos failed]
  · rw [if_neg failed, if_neg failed, h.resolve_left failed]
    rfl

theorem attentionHas_raiseIf (b : Bool) (c d : Cause) (s : State) :
    attentionHas d (raiseIf b c s) = (attentionHas d s || (b && decide (d = c))) := by
  cases b with
  | false => simp [raiseIf]
  | true => simp [raiseIf, attentionHas_raise]

/-- Settles O14: the accepting branch of LOAD_ANCHOR, and the two of the record that has been read. -/
theorem anchorLoading : Obligations.AnchorLoading := by
  refine ⟨fun s halted idle running => ?_, fun s j halted busy job purpose done => ⟨fun whole valid => ?_, fun h => ?_⟩⟩
  · refine ⟨_, rfl, (loadAnchor_only s).settle s, ?_⟩
    rw [settle_run, settle_du, settle_arb_du, loadAnchor_taken halted idle running, ← readAccesses_anchor]
    exact ⟨rfl, rfl, rfl⟩
  · refine ⟨_, exec_anchorReadDone halted busy job purpose done, ?_⟩
    rw [anchorRead_valid whole valid]
    obtain ⟨snapshot, status, stream⟩ :=
      settle_loaded s (e := takeAnchor (parseAnchor j.bytes) s) (a := parseAnchor j.bytes) rfl rfl rfl
    refine ⟨takeAnchor_touches _ s, ?_⟩
    rw [settle_run, settle_du, settle_sau, attentionHas_settle]
    exact ⟨rfl, by simp [takeAnchor, enterRun, attentionHas_raise], rfl, rfl, rfl, rfl, rfl, rfl, rfl, rfl, rfl, rfl, snapshot,
      status, stream⟩
  · refine ⟨_, exec_anchorReadDone halted busy job purpose done, ?_⟩
    rw [anchorRead_invalid h]
    have attention : ∀ c u, attentionHas c (anchorInvalid u) = attentionHas c u := fun _ _ => rfl
    refine ⟨OnlyChanges.settle s (((raiseIf_only ..).andThen (anchorInvalid_only _)).among rfl), ?_⟩
    simp only [settle_run, settle_du, attentionHas_settle, attention, attentionHas_raiseIf]
    refine ⟨?_, ?_, by simp, fun c other => by simp [other]⟩
    · unfold anchorInvalid raiseIf
      split <;> rfl
    · unfold anchorInvalid raiseIf
      split <;> rfl

/-! ### The Anchor Record (12.1, 12.5, 11.3) -/

theorem field_zero (bs : List Byte) (o : Nat) : field bs o 0 = 0 := rfl

/-- A field is its first byte, then the field of the bytes after it. -/
theorem field_succ (bs : List Byte) (o n : Nat) : field bs o (n + 1) = (bs.getD o 0).toNat + 256 * field bs (o + 1) n := by
  unfold field
  obtain inside | outside := Nat.lt_or_ge o bs.length
  · rw [List.drop_eq_getElem_cons inside, List.take_succ_cons, leNat, List.getD_eq_getElem bs 0 inside]
  · rw [List.drop_eq_nil_of_le outside, List.drop_eq_nil_of_le (by omega), List.take_nil, List.take_nil,
      List.getD_eq_default bs 0 outside]
    rfl

theorem powerOfTwoIn_iff {low : Nat} (positive : 0 < low) (high n : Nat) :
    powerOfTwoIn low high n = true ↔ (∃ k, n = 2 ^ k) ∧ low ≤ n ∧ n ≤ high := by
  simp only [powerOfTwoIn, Bool.and_eq_true, decide_eq_true_eq, beq_iff_eq]
  constructor
  · rintro ⟨⟨above, below⟩, bits⟩
    exact ⟨(Nat.and_sub_one_eq_zero_iff_isPowerOfTwo (by omega)).1 bits, above, below⟩
  · rintro ⟨power, above, below⟩
    exact ⟨⟨above, below⟩, (Nat.and_sub_one_eq_zero_iff_isPowerOfTwo (by omega)).2 power⟩

theorem countsValid_iff (a : Anchor) :
    a.countsValid = true ↔ ((∃ n, a.slots = 2 ^ n) ∧ 16 ≤ a.slots ∧ a.slots ≤ 1024) ∧ (10 ≤ a.interval ∧ a.interval ≤ 10000)
      ∧ ((∃ n, a.telemetryCount = 2 ^ n) ∧ 16 ≤ a.telemetryCount ∧ a.telemetryCount ≤ 65536)
      ∧ (2 ≤ a.snapshotCount ∧ a.snapshotCount ≤ 256) ∧ (8 ≤ a.asideCount ∧ a.asideCount ≤ 256) := by
  simp only [Anchor.countsValid, Bool.and_eq_true, decide_eq_true_eq, powerOfTwoIn_iff (show 0 < 16 by decide), and_assoc]

theorem anchorReservedZero_iff (bs : List Byte) :
    anchorReservedZero bs = true ↔ ∀ k, k < 256 → (6 ≤ k ∧ k < 8) ∨ (14 ≤ k ∧ k < 16) ∨ (30 ≤ k ∧ k < 32) ∨ 46 ≤ k →
      bs.getD k 0 = 0 := by
  simp only [anchorReservedZero, Bool.and_eq_true, zeroField_iff]
  constructor
  · rintro ⟨⟨⟨first, second⟩, third⟩, fourth⟩ k inside (h | h | h | h)
    · exact first k h.1 h.2
    · exact second k h.1 h.2
    · exact third k h.1 h.2
    · exact fourth k h (by omega)
  · intro zero
    exact ⟨⟨⟨fun k low high => zero k (by omega) (by omega), fun k low high => zero k (by omega) (by omega)⟩,
      fun k low high => zero k (by omega) (by omega)⟩, fun k low high => zero k (by omega) (by omega)⟩

theorem disjointAreas_iff (xs : List (Nat × Nat)) :
    disjointAreas xs = true ↔ xs.Pairwise fun x y => overlaps x.1 x.2 y.1 y.2 = false := by
  induction xs with
  | nil => simp [disjointAreas]
  | cons x xs ih => simp [disjointAreas, ih]

/-- Two areas that are not empty are disjoint when one ends where the other begins, or before. -/
theorem overlaps_false {a la b lb : Nat} (ha : 0 < la) (hb : 0 < lb) : overlaps a la b lb = false ↔ a + la ≤ b ∨ b + lb ≤ a := by
  simp only [overlaps, Bool.and_eq_false_iff, decide_eq_false_iff_not]
  omega

theorem disjointAreas_nonempty {xs : List (Nat × Nat)} (h : ∀ x ∈ xs, 0 < x.2) :
    disjointAreas xs = true ↔ xs.Pairwise fun x y => x.1 + x.2 ≤ y.1 ∨ y.1 + y.2 ≤ x.1 := by
  rw [disjointAreas_iff]
  exact List.Pairwise.iff_of_mem fun hx hy => overlaps_false (h _ hx) (h _ hy)

/-- No area of an anchor whose counts are in their ranges is empty. -/
theorem areas_nonempty {a : Anchor} (h : a.countsValid = true) : ∀ x ∈ anchorArea :: a.areas, 0 < x.2 := by
  obtain ⟨⟨_, slots, _⟩, _, ⟨_, telemetry, _⟩, ⟨snapshots, _⟩, aside, _⟩ := (countsValid_iff a).1 h
  intro x hx
  simp only [anchorArea, Anchor.areas, List.mem_cons, List.not_mem_nil, or_false] at hx
  obtain rfl | rfl | rfl | rfl | rfl | rfl | rfl := hx <;> dsimp only <;> omega

theorem areas_within (a : Anchor) :
    (a.areas.all fun x => x.1 % 4096 == 0 && inXm x.1 x.2) = true
      ↔ ∀ x ∈ anchorArea :: a.areas, x.1 % 4096 = 0 ∧ x.1 + x.2 ≤ 2147483648 := by
  simp only [List.all_eq_true, Bool.and_eq_true, beq_iff_eq, inXm_iff, List.forall_mem_cons]
  exact ⟨fun h => ⟨by decide, h⟩, fun h => h.2⟩

/-- Settles O15: `validAnchor` by its four conjuncts. -/
theorem anchorValidity : Obligations.AnchorValidity := by
  refine ⟨?_, fun bs => rfl, ?_⟩
  · intro bs o byte
    simp only [field_succ, field_zero, byte, Nat.add_assoc, Nat.reduceAdd]
    refine ⟨?_, ?_, ?_⟩ <;> omega
  · intro bs _ a areas
    have conjuncts : validAnchor bs = true ↔ ((anchorReservedZero bs = true ∧ a.countsValid = true)
        ∧ (a.areas.all fun x => x.1 % 4096 == 0 && inXm x.1 x.2) = true) ∧ disjointAreas (anchorArea :: a.areas) = true := by
      simp only [validAnchor, Bool.and_eq_true, a]
    rw [conjuncts, anchorReservedZero_iff, areas_within]
    constructor
    · rintro ⟨⟨⟨reserved, counts⟩, within⟩, disjoint⟩
      obtain ⟨slots, interval, telemetry, snapshots, aside⟩ := (countsValid_iff a).1 counts
      exact ⟨reserved, slots, interval, telemetry, snapshots, aside, within, (disjointAreas_nonempty (areas_nonempty counts)).1 disjoint⟩
    · rintro ⟨reserved, slots, interval, telemetry, snapshots, aside, within, disjoint⟩
      have counts := (countsValid_iff a).2 ⟨slots, interval, telemetry, snapshots, aside⟩
      exact ⟨⟨⟨reserved, counts⟩, within⟩, (disjointAreas_nonempty (areas_nonempty counts)).2 disjoint⟩

end Sys2Proof.Machine
/-!
Changes of every stream and of every mirror link at once, as one function of its number (R22, R131, R134, R142).
-/
namespace Sys2Proof.Machine

/-! ### A change of every entry, one after another -/

theorem foldl_tweak_get {α : Type} {n : Nat} (f : Fin n → α → α) (is : List (Fin n)) (apart : is.Nodup) (v : Vector α n) (j : Fin n) :
    (is.foldl (fun v i => tweak v i (f i)) v)[j] = if j ∈ is then f j v[j] else v[j] := by
  induction is generalizing v with
  | nil => rfl
  | cons i is ih =>
    obtain ⟨fresh, apart⟩ := List.nodup_cons.1 apart
    rw [List.foldl_cons, ih apart, tweak_get]
    by_cases same : j = i
    · subst same
      rw [if_neg fresh, if_pos rfl, if_pos List.mem_cons_self]
    · have mem : j ∈ i :: is ↔ j ∈ is := by simp [same]
      rw [if_neg same]
      exact (if_congr mem rfl rfl).symm

theorem ofFn_get {α : Type} {n : Nat} (f : Fin n → α) (j : Fin n) : (Vector.ofFn f)[j] = f j := by
  simp

theorem vector_ext {α : Type} {n : Nat} {v w : Vector α n} (h : ∀ i : Fin n, v[i] = w[i]) : v = w :=
  Vector.ext fun i hi => h ⟨i, hi⟩

theorem allFin_nodup (n : Nat) : (allFin n).Nodup := List.nodup_finRange n

theorem foldl_tweak_all {α : Type} {n : Nat} (f : Fin n → α → α) (v : Vector α n) :
    (allFin n).foldl (fun v i => tweak v i (f i)) v = Vector.ofFn fun i => f i v[i] := by
  refine vector_ext fun j => ?_
  rw [foldl_tweak_get f _ (allFin_nodup n), if_pos (mem_allFin j), ofFn_get]

theorem tweak_self {α : Type} {n : Nat} (v : Vector α n) (i : Fin n) {f : α → α} (h : f v[i] = v[i]) : tweak v i f = v := by
  refine vector_ext fun j => ?_
  rw [tweak_get]
  split
  · next same => subst same; exact h
  · rfl

/-! ### Mirror links -/

/-- The mirror links replaced. -/
def withLinks (ls : Vector MirrorLink 4) (s : State) : State := { s with cou := { s.cou with links := ls } }

theorem mapLink_link (l m : Fin 4) (f : MirrorLink → MirrorLink) (s : State) :
    (mapLink l f s).cou.links[m] = if m = l then f s.cou.links[l] else s.cou.links[m] := by
  simp only [mapLink_cou]
  exact tweak_get ..

theorem mapLinks_link (f : MirrorLink → MirrorLink) (l : Fin 4) (s : State) : (mapLinks f s).cou.links[l] = f s.cou.links[l] := by
  simp [mapLinks]

theorem mapLinksAt_link (f : Fin 4 → MirrorLink → MirrorLink) (l : Fin 4) (s : State) :
    (mapLinksAt f s).cou.links[l] = f l s.cou.links[l] := by
  simp only [mapLinksAt_cou]
  exact ofFn_get ..

/-- An operation on every link in turn that does not look at the other links is one change of them all. -/
theorem foldl_mapLink {g : State → Fin 4 → State} {f : Fin 4 → MirrorLink → MirrorLink} {s : State}
    (each : ∀ ls l, g (withLinks ls s) l = withLinks (tweak ls l (f l)) s) : (allFin 4).foldl g s = mapLinksAt f s := by
  have all : ∀ (is : List (Fin 4)) ls,
      is.foldl g (withLinks ls s) = withLinks (is.foldl (fun v i => tweak v i (f i)) ls) s := by
    intro is
    induction is with
    | nil => exact fun _ => rfl
    | cons i is ih => exact fun ls => by rw [List.foldl_cons, List.foldl_cons, each, ih]
  show (allFin 4).foldl g (withLinks s.cou.links s) = withLinks _ s
  rw [all, foldl_tweak_all]

/-- What a packet for each used link does to a link. -/
def MirrorLink.passFor (entry : Option OutEntry) (packet : OutEntry → Packet) (l : MirrorLink) : MirrorLink :=
  match entry with
  | some x => l.pass (packet x)
  | none => l

theorem passFor_fold (packet : State → OutEntry → Packet) (s : State) (same : ∀ ls x, packet (withLinks ls s) x = packet s x) :
    (allFin 4).foldl (fun s l =>
      match linkEntryOf s l with
      | some x => mapLink l (MirrorLink.pass (packet s x)) s
      | none => s) s = mapLinksAt (fun l => MirrorLink.passFor (linkEntryOf s l) (packet s)) s := by
  refine foldl_mapLink fun ls l => ?_
  have entry : linkEntryOf (withLinks ls s) l = linkEntryOf s l := rfl
  rw [entry]
  cases h : linkEntryOf s l with
  | none =>
    dsimp only
    rw [tweak_self ls l rfl]
  | some x =>
    dsimp only
    rw [same]
    rfl

theorem passSafePackets_eq (s : State) :
    passSafePackets s = mapLinksAt (fun l => MirrorLink.passFor (linkEntryOf s l) (safePacket s)) s :=
  passFor_fold safePacket s fun _ _ => rfl

theorem takeVector_eq (frame : Frame) (outputs : List Int) (settings : LinkSettings) (s : State) :
    takeVector frame outputs settings s
      = mapLinksAt (fun l => MirrorLink.passFor (linkEntryOf { s with cou := { s.cou with settings := some settings } } l)
          (commandPacket frame outputs)) { s with cou := { s.cou with settings := some settings } } :=
  passFor_fold (fun _ => commandPacket frame outputs) _ fun _ _ => rfl

theorem linkEntryOf_settings {s : State} {x : LinkSettings} (h : s.cou.settings = some x) (l : Fin 4) :
    linkEntryOf s l = if x.map[l].count = 0 then none else some x.map[l] := by
  unfold linkEntryOf
  rw [h, Option.map_some, Option.filter_some]
  by_cases empty : x.map[l].count = 0
  · rw [if_pos empty, if_neg (by simpa using empty)]
  · rw [if_neg empty, if_pos (by simpa using empty)]

/-! ### Streams -/

/-- The streams replaced. -/
def withStreams (xs : Vector Stream 16) (s : State) : State := { s with sau := { s.sau with streams := xs } }

/-- An operation on every stream in turn that does not look at the other streams is one change of them all. -/
theorem foldl_mapStream {g : State → Fin 16 → State} {f : Fin 16 → Stream → Stream} {s : State}
    (each : ∀ xs i, g (withStreams xs s) i = withStreams (tweak xs i (f i)) s) :
    (allFin 16).foldl g s = withStreams (Vector.ofFn fun i => f i s.sau.streams[i]) s := by
  have all : ∀ (is : List (Fin 16)) xs,
      is.foldl g (withStreams xs s) = withStreams (is.foldl (fun v i => tweak v i (f i)) xs) s := by
    intro is
    induction is with
    | nil => exact fun _ => rfl
    | cons i is ih => exact fun xs => by rw [List.foldl_cons, List.foldl_cons, each, ih]
  show (allFin 16).foldl g (withStreams s.sau.streams s) = _
  rw [all, foldl_tweak_all]

theorem startStreams_eq (s : State) :
    startStreams s = withStreams
      (Vector.ofFn fun i => if s.sau.streams[i].state = .standby then s.sau.streams[i].enter s.time .seeking else s.sau.streams[i]) s := by
  refine foldl_mapStream (f := fun _ x => if x.state = .standby then x.enter s.time .seeking else x) fun xs i => ?_
  have found : (withStreams xs s).sau.streams = xs := rfl
  rw [found]
  by_cases h : xs[i].state = .standby
  · rw [if_pos h]
    refine congrArg (withStreams · s) (vector_ext fun j => ?_)
    rw [tweak_get, tweak_get, if_pos h]
    rfl
  · rw [if_neg h]
    exact congrArg (withStreams · s) (tweak_self xs i (if_neg h)).symm

theorem stopStreams_eq (s : State) :
    stopStreams s = withStreams
      (Vector.ofFn fun i => if s.sau.streams[i].enabled then s.sau.streams[i].enter s.time .standby else s.sau.streams[i]) s := by
  refine foldl_mapStream (f := fun _ x => if x.enabled then x.enter s.time .standby else x) fun xs i => ?_
  have found : (withStreams xs s).sau.streams = xs := rfl
  rw [found]
  by_cases h : xs[i].enabled = true
  · rw [if_pos h]
    refine congrArg (withStreams · s) (vector_ext fun j => ?_)
    rw [tweak_get, tweak_get, if_pos h]
    rfl
  · rw [if_neg h]
    exact congrArg (withStreams · s) (tweak_self xs i (if_neg h)).symm

end Sys2Proof.Machine
/-!
START (R22, R37, R73, R116, R121, R130, R131, R176): what an earlier run left on its way is taken, and every block takes its start values.
-/
namespace Sys2Proof.Machine

/-! ### What START finds (log 9) -/

theorem placeHanded_not_running {s : State} (h : isRunning s = false) (x : Handed) : OnlyChanges [.wires] s (placeHanded x s) := by
  simp only [placeHanded]
  split
  · exact with_wires_only _ s
  · simp only [judgeSegment_not_running h]
    exact with_wires_only _ s

theorem takeHandedAll_not_running {s : State} (h : isRunning s = false) : OnlyChanges [.wires] s (takeHandedAll s) := by
  have all : ∀ (xs : List Handed) (u : State), isRunning u = false →
      OnlyChanges [.wires] u (xs.foldl (fun s x => placeHanded x s) u) := by
    intro xs
    induction xs with
    | nil => exact fun u _ => .refl _ u
    | cons x xs ih =>
      intro u idle
      have one := placeHanded_not_running idle x
      refine one.trans (ih _ ?_)
      have run : (placeHanded x u).run = u.run := one.same .run (by decide)
      rw [isRunning, run]
      exact idle
  exact (with_wires_only _ s).trans (all s.wires.handed { s with wires := { s.wires with handed := [] } } h)

/-- An outcome moves no stream but its own. -/
theorem outcomeMove_others (r : Returned) (s : State) {j : Fin 16} (other : j ≠ r.stream) :
    (outcomeMove r s).sau.streams[j] = s.sau.streams[j] := by
  have one : ∀ (f : Stream → Stream) (u : State), u.sau.streams[j] = s.sau.streams[j] →
      (mapStream r.stream f u).sau.streams[j] = s.sau.streams[j] := fun f u same => by
    rw [mapStream_stream, if_neg other]; exact same
  unfold outcomeMove
  dsimp only
  split
  · rfl
  · split
    · split
      · rfl
      · split
        · split
          · exact one _ s rfl
          · unfold secondMisinsert
            split
            · exact one _ s rfl
            · exact one _ _ (by rw [reportExit_streams])
        · exact one _ s rfl
    · split
      · exact one _ s rfl
      · rfl

/-- A stream in STANDBY is moved by no outcome. -/
theorem outcomeMove_standby (r : Returned) {s : State} {j : Fin 16} (h : s.sau.streams[j].state = .standby) :
    (outcomeMove r s).sau.streams[j] = s.sau.streams[j] := by
  by_cases own : j = r.stream
  · subst own
    have left : s.sau.streams[r.stream].stays r = false := by
      rw [Bool.eq_false_iff]
      intro stays
      have state := Stream.state_of_stays stays
      rw [h] at state
      split at state <;> cases state
    unfold outcomeMove
    dsimp only
    rw [left]
    rfl
  · exact outcomeMove_others r s own

/-- A stream that stands by is where it was, for as long. -/
def StaysBy (s : State) (i : Fin 16) (x : Stream) : Prop :=
  s.sau.streams[i].state = .standby → x.state = .standby ∧ x.stay = s.sau.streams[i].stay

theorem takeReturned_staysBy {s u : State} (h : StreamsObey (StaysBy s) u) (r : Returned) : StreamsObey (StaysBy s) (takeReturned r u) := by
  have raised : ∀ j : Fin 16, (raiseCounters r.stream [.received, r.judgement.counter] u).sau.streams[j].state = u.sau.streams[j].state
      ∧ (raiseCounters r.stream [.received, r.judgement.counter] u).sau.streams[j].stay = u.sau.streams[j].stay := by
    intro j
    rw [raiseCounters_streams, mapStream_stream]
    split
    · next same => subst same; exact ⟨rfl, rfl⟩
    · exact ⟨rfl, rfl⟩
  intro j standby
  obtain ⟨state, stay⟩ := raised j
  obtain ⟨held, since⟩ := h j standby
  unfold takeReturned
  rw [passToClock_streams, outcomeMove_standby r (state.trans held)]
  exact ⟨state.trans held, stay.trans since⟩

/-- What START finds, of what the run before has left: only counts of streams, and what was on its way. -/
structure StartFinds (s u : State) : Prop where
  only : OnlyChanges [.sau, .wires, .attention, .msi] s u
  entries : StreamsObey (SameEntry s) u
  standing : StreamsObey (StaysBy s) u

theorem settleRun_finds {s : State} (h : isRunning s = false) : OnlyChanges [.sau, .wires, .attention] s (settleRun s) := by
  have taken : ∀ u : State, OnlyChanges [.sau, .wires, .attention] u (takeReturnedAll u) := fun u =>
    ((with_wires_only _ u).among rfl).trans (.foldl (fun v r => (takeReturned_only r v).among rfl) _ _)
  exact ((takeHandedAll_not_running h).among rfl).trans ((taken _).trans ((forgetRun_only _).among rfl))

theorem settleRun_staysBy {s : State} (h : isRunning s = false) : StreamsObey (StaysBy s) (settleRun s) := by
  have found : StreamsObey (StaysBy s) (takeHandedAll s) := by
    have sau : (takeHandedAll s).sau = s.sau := (takeHandedAll_not_running h).same .sau (by decide)
    intro j standby
    rw [sau]
    exact ⟨standby, rfl⟩
  have counted : StreamsObey (StaysBy s) (takeReturnedAll (takeHandedAll s)) :=
    law_foldl (law := StreamsObey (StaysBy s)) (fun u r hu => takeReturned_staysBy hu r) _ (found.congr rfl)
  intro j standby
  have forgotten : (settleRun s).sau.streams[j]
      = { (takeReturnedAll (takeHandedAll s)).sau.streams[j] with awaiting := false } := by
    simp [settleRun, forgetRun]
  rw [forgotten]
  exact counted j standby

theorem beforeStart_finds {s : State} (h : startAccepted s = true) : StartFinds s (beforeStart s) := by
  have idle : isRunning s = false := by
    have ready : s.run.state = .ready := by simp_all [startAccepted]
    rw [isRunning, ready]
    rfl
  have sent := sendMsi_only s (settleRun s)
  refine ⟨?_, (sameEntry_self s).beforeStart (sameEntry_steady s), ?_⟩
  · rw [beforeStart, if_pos h]
    exact ((settleRun_finds idle).among rfl).trans (sent.among rfl)
  · rw [beforeStart, if_pos h]
    have sau : (sendMsi s (settleRun s)).sau = (settleRun s).sau := sent.same .sau (by decide)
    exact (settleRun_staysBy idle).congr (congrArg Sau.streams sau)

/-! ### The start values of the Command Output Unit (R130, R131, R134) -/

/-- The links, runs and vectors of the Command Output Unit at START. -/
def startLinks (x : LinkSettings) (s : State) : State :=
  mapLinksAt MirrorLink.clear
    { s with cou := { s.cou with
        settings := some x, saturationRun := 0, voidRun := 0
        lastEmitted := if s.cou.shapeLoaded then s.cou.safeShape else [] } }

theorem startCou_released {s : State} (h : s.cou.level = .released) (x : LinkSettings) :
    startCou x s = setOutput .live {} (startLinks x s) := by
  show (match s.cou.level with | .released => _ | .asserted => _) = _
  rw [h]
  rfl

/-- The Command Output Unit at START while the interlock is asserted, before its hold action. -/
def startHeld (x : LinkSettings) (s : State) : State := raise .held (setOutput .held { interlock := true } (startLinks x s))

theorem startCou_asserted {s : State} (h : s.cou.level = .asserted) (x : LinkSettings) : startCou x s = holdAction (startHeld x s) := by
  show (match s.cou.level with | .released => _ | .asserted => _) = _
  rw [h]
  rfl

theorem holdAction_freeze {s : State} (h : s.cou.action = .freeze) : holdAction s = s := by
  unfold holdAction
  rw [h]

/-- The safe serial rises, and a safe packet is formed on each used link. -/
theorem holdAction_safe {s : State} (h : s.cou.action = .safe) :
    holdAction s = mapLinksAt (fun l => MirrorLink.passFor (linkEntryOf s l)
        (safePacket { s with cou := { s.cou with safeSerial := s.cou.safeSerial + 1 } }))
      { s with cou := { s.cou with safeSerial := s.cou.safeSerial + 1 } } := by
  unfold holdAction
  rw [h]
  exact passSafePackets_eq _

theorem MirrorLink.pass_idle {l : MirrorLink} (h : l.tx = .idle) (p : Packet) : l.pass p = { l with tx := .sending p } := by
  unfold MirrorLink.pass
  rw [h]

theorem MirrorLink.clear_tx (i : Fin 4) (l : MirrorLink) : (l.clear i).tx = .idle := rfl

/-- A safe packet formed on a link that is clear. -/
theorem passFor_clear {s : State} {x : LinkSettings} (h : s.cou.settings = some x) (packet : OutEntry → Packet) (l : Fin 4)
    (y : MirrorLink) :
    (y.clear l).passFor (linkEntryOf s l) packet
      = if x.map[l].count = 0 then y.clear l else { y.clear l with tx := .sending (packet x.map[l]) } := by
  rw [linkEntryOf_settings h]
  by_cases empty : x.map[l].count = 0
  · rw [if_pos empty, if_pos empty]
    rfl
  · rw [if_neg empty, if_neg empty]
    exact MirrorLink.pass_idle (y.clear_tx l) _

/-- While the interlock is asserted START leaves the output HELD, and raises HELD. -/
theorem startCou_held {s : State} (h : s.cou.level = .asserted) (x : LinkSettings) :
    (startCou x s).cou.output = .held ∧ (startCou x s).cou.causes = { interlock := true }
      ∧ attentionHas .held (startCou x s) = true := by
  rw [startCou_asserted h]
  have view := holdView_holdAction (startHeld x s)
  simp only [holdView, Prod.mk.injEq] at view
  have attention : (holdAction (startHeld x s)).page.attention = (startHeld x s).page.attention :=
    (holdAction_only _).same .attention (by decide)
  refine ⟨view.1, view.2.1, ?_⟩
  rw [attentionHas, attention]
  exact (attentionHas_raise ..).trans (by simp)

/-- The values of the COU at START whatever the interlock level. -/
structure CouStarts (x : LinkSettings) (s t : State) : Prop where
  settings : t.cou.settings = some x
  lastEmitted : t.cou.lastEmitted = if s.cou.shapeLoaded then s.cou.safeShape else []
  runs : t.cou.saturationRun = 0 ∧ t.cou.voidRun = 0

theorem startCou_starts (x : LinkSettings) (s : State) : CouStarts x s (startCou x s) := by
  cases level : s.cou.level with
  | released => rw [startCou_released level]; exact ⟨rfl, rfl, rfl, rfl⟩
  | asserted =>
    rw [startCou_asserted level]
    cases action : s.cou.action with
    | freeze => rw [holdAction_freeze (s := startHeld x s) action]; exact ⟨rfl, rfl, rfl, rfl⟩
    | safe => rw [holdAction_safe (s := startHeld x s) action]; exact ⟨rfl, rfl, rfl, rfl⟩

theorem startLinks_link (x : LinkSettings) (s : State) (l : Fin 4) : (startLinks x s).cou.links[l] = s.cou.links[l].clear l :=
  mapLinksAt_link ..

/-! ### START accepted (R176) -/

theorem start_running {s : State} {i : SlotId} {e : Edition} (ready : s.run.state = .ready) (running : s.run.initialising = false)
    (current : currentSlot s = some (i, e)) (go : startReady s = true) : start s = beginRun e s := by
  unfold start
  rw [if_pos (by simp [ready, running]), current]
  simp [go]

theorem attentionHas_enterRun (c : Cause) (r : RunState) (s : State) :
    attentionHas c (enterRun r s) = (attentionHas c s || decide (c = .runChange)) := by
  exact attentionHas_raise ..

/-- The last two steps of an accepted START change run control and the Command Output Unit. -/
theorem enterRun_startCou (x : LinkSettings) (s : State) :
    (enterRun .running (startCou x s)).run = { s.run with state := .running, refusal := .none }
      ∧ (enterRun .running (startCou x s)).fck = s.fck ∧ (enterRun .running (startCou x s)).fau = s.fau
      ∧ (enterRun .running (startCou x s)).rce = s.rce ∧ (enterRun .running (startCou x s)).pru = s.pru
      ∧ (enterRun .running (startCou x s)).sau = s.sau ∧ (enterRun .running (startCou x s)).du = s.du
      ∧ (enterRun .running (startCou x s)).cou = (startCou x s).cou := by
  have cou := startCou_only x s
  have run : (startCou x s).run = s.run := cou.same .run (by decide)
  exact ⟨by rw [enterRun_run, run], cou.same .fck (by decide), cou.same .fau (by decide), cou.same .rce (by decide),
    cou.same .pru (by decide), cou.same .sau (by decide), cou.same .du (by decide), rfl⟩

/-- The start values of the blocks, after a change of the streams. -/
theorem startBlocks_of_streams {s w : State} (only : OnlyChanges [.sau] s w) :
    (startBlocks w).run = s.run
      ∧ (startBlocks w).fck = { s.fck with pace := .paced, lastStarted := none, flywheel := none, reframing := false }
      ∧ (startBlocks w).fau = { s.fau with lastDispatched := none, base := none, lastGood := [] }
      ∧ (startBlocks w).rce = { s.rce with integrator := if s.cou.shapeLoaded then s.cou.safeShape else [] }
      ∧ (startBlocks w).pru = { s.pru with position := cycleStart s.pru.cycle, injection := none, supply := none }
      ∧ (startBlocks w).sau = w.sau ∧ (startBlocks w).du = s.du ∧ (startBlocks w).cou = s.cou := by
  have fck : w.fck = s.fck := only.same .fck (by decide)
  have fau : w.fau = s.fau := only.same .fau (by decide)
  have rce : w.rce = s.rce := only.same .rce (by decide)
  have pru : w.pru = s.pru := only.same .pru (by decide)
  have cou : w.cou = s.cou := only.same .cou (by decide)
  unfold startBlocks
  refine ⟨only.same .run (by decide), ?_, ?_, ?_, ?_, rfl, only.same .du (by decide), cou⟩
  · rw [fck]
  · rw [fau]
  · rw [rce, cou]
  · rw [pru]

/-- Every block but the Command Output Unit at START. -/
theorem beginRun_blocks (e : Edition) (s : State) :
    (beginRun e s).run = { s.run with state := .running, refusal := .none }
      ∧ (beginRun e s).fck = { s.fck with pace := .paced, lastStarted := none, flywheel := none, reframing := false }
      ∧ (beginRun e s).fau = { s.fau with lastDispatched := none, base := none, lastGood := [] }
      ∧ (beginRun e s).rce = { s.rce with integrator := if s.cou.shapeLoaded then s.cou.safeShape else [] }
      ∧ (beginRun e s).pru = { s.pru with position := cycleStart s.pru.cycle, injection := none, supply := none }
      ∧ (beginRun e s).sau = (startStreams s).sau ∧ (beginRun e s).du = s.du
      ∧ (beginRun e s).cou = (startCou e.links (startBlocks (startStreams s))).cou := by
  obtain ⟨run', fck', fau', rce', pru', sau', du', _⟩ := startBlocks_of_streams (startStreams_only s)
  unfold beginRun
  generalize startBlocks (startStreams s) = w at *
  obtain ⟨run, fck, fau, rce, pru, sau, du, cou⟩ := enterRun_startCou e.links w
  exact ⟨by rw [run, run'], fck.trans fck', fau.trans fau', rce.trans rce', pru.trans pru', sau.trans sau', du.trans du', cou⟩

theorem Stream.enter_seeking {x : Stream} (h : x.state = .standby) (now : Time) :
    x.enter now .seeking
      = { x with state := .seeking, changed := now, stay := x.stay + 1, misinserts := 0, timer := some (cutExpiry now x) } := by
  unfold Stream.enter
  rw [h]
  rfl

/-- What an accepted START makes of a stream in STANDBY. -/
theorem startStreams_standby {s : State} {k : Fin 16} (h : s.sau.streams[k].state = .standby) :
    (startStreams s).sau.streams[k] = s.sau.streams[k].enter s.time .seeking := by
  rw [startStreams_eq]
  exact (ofFn_get _ k).trans (if_pos h)

theorem startShape_read (s : State) (a : Nat) :
    Store.read 0 (if s.cou.shapeLoaded then s.cou.safeShape else []) a = if s.cou.shapeLoaded then Store.read 0 s.cou.safeShape a else 0 := by
  split <;> rfl

/-- Settles O16: what START finds differs from the state before in no value it takes (`beforeStart_finds`); each block then starts. -/
theorem startTakesStartValues : Obligations.StartTakesStartValues := by
  intro s i e ready running current configured enabled start'
  have accepted : startAccepted s = true := by
    simp only [Fin.getElem_fin] at enabled
    simp [startAccepted, startReady, ready, running, current, configured, enabled]
  have finds := beforeStart_finds accepted
  set u := beforeStart s
  have run : u.run = s.run := finds.only.same .run (by decide)
  have fck : u.fck = s.fck := finds.only.same .fck (by decide)
  have fau : u.fau = s.fau := finds.only.same .fau (by decide)
  have rce : u.rce = s.rce := finds.only.same .rce (by decide)
  have pru : u.pru = s.pru := finds.only.same .pru (by decide)
  have cou : u.cou = s.cou := finds.only.same .cou (by decide)
  have du : u.du = s.du := finds.only.same .du (by decide)
  have time : u.time = s.time := finds.only.same .time (by decide)
  have slot : currentSlot u = some (i, e) := by rw [currentSlot, rce]; exact current
  have go : startReady u = true := by
    have on : ∀ c : Fck, c = s.fck → u.sau.streams[c.stream].enabled = true := by
      rintro _ rfl
      exact (finds.entries s.fck.stream).1.trans enabled
    have configured' : u.fck.configured = true := fck ▸ configured
    unfold startReady
    rw [slot, configured', on u.fck fck]
    rfl
  have begins : start u = beginRun e u := start_running (run ▸ ready) (run ▸ running) slot go
  refine ⟨settle { s with page := u.page } (beginRun e u), congrArg (finish { s with page := u.page }) begins, ?_⟩
  obtain ⟨run', fck', fau', rce', pru', sau', du', cou'⟩ := beginRun_blocks e u
  rw [settle_run, attentionHas_settle, attentionHas_settle, settle_sau, settle_fck, settle_fau, settle_rce, settle_pru, settle_cou,
    settle_du, run', fck', fau', rce', pru', sau', du', run, fck, fau, rce, pru, du, cou]
  have couW : (startBlocks (startStreams u)).cou = s.cou := (startBlocks_of_streams (startStreams_only u)).2.2.2.2.2.2.2.trans cou
  have held : attentionHas .held (beginRun e u) = attentionHas .held (startCou e.links (startBlocks (startStreams u))) := by
    rw [beginRun, attentionHas_enterRun]
    simp
  rw [cou']
  generalize startBlocks (startStreams u) = w at couW held
  have serial : w.cou.safeSerial = s.cou.safeSerial := congrArg Cou.safeSerial couW
  obtain ⟨settings, lastEmitted, sat, void⟩ := startCou_starts e.links w
  rw [couW] at lastEmitted
  refine ⟨rfl, ?_, fun k standby => ?_, rfl, rfl, startShape_read s, rfl, rfl, settings, fun a => ?_, sat, void, ?_, ?_, rfl⟩
  · rw [beginRun, attentionHas_enterRun]
    simp
  · obtain ⟨standing, stay⟩ := finds.standing k standby
    have config := (finds.entries k).2
    rw [startStreams_standby standing, Stream.enter_seeking standing, ← stay, ← config, ← time]
    exact ⟨rfl, rfl, rfl, rfl, rfl⟩
  · rw [lastEmitted]
    exact startShape_read s a
  · intro level
    rw [startCou_released (couW ▸ level)]
    refine ⟨rfl, rfl, serial, fun l => ?_⟩
    exact (startLinks_link e.links w l).trans (by rw [couW])
  · intro level
    have levelW : w.cou.level = .asserted := couW ▸ level
    obtain ⟨output, causes, flag⟩ := startCou_held levelW e.links
    refine ⟨output, causes, held.trans flag, fun action => ?_, fun action => ?_⟩
    · rw [startCou_asserted levelW, holdAction_freeze (s := startHeld e.links w) (couW ▸ action : w.cou.action = .freeze)]
      exact ⟨serial, fun l => (startLinks_link e.links w l).trans (by rw [couW])⟩
    · rw [startCou_asserted levelW, holdAction_safe (s := startHeld e.links w) (couW ▸ action : w.cou.action = .safe)]
      refine ⟨congrArg (· + 1) serial, fun l => ?_⟩
      rw [mapLinksAt_link]
      have link : (startHeld e.links w).cou.links[l] = s.cou.links[l].clear l := (startLinks_link e.links w l).trans (by rw [couW])
      refine (congrArg (MirrorLink.passFor _ _) link).trans ?_
      refine (passFor_clear (s := startHeld e.links w) (x := e.links) rfl _ l _).trans ?_
      have packet : ∀ x, safePacket { startHeld e.links w with
            cou := { (startHeld e.links w).cou with safeSerial := (startHeld e.links w).cou.safeSerial + 1 } } x
          = { kind := .safe, number := s.cou.safeSerial + 1, first := x.first
              values := (List.range x.count).map fun n => Store.read 0 s.cou.safeShape (x.first + n) } := fun x => by
        show ({ kind := .safe, number := w.cou.safeSerial + 1, first := x.first
                values := Store.readAll 0 w.cou.safeShape x.first x.count } : Packet) = _
        rw [couW]
        rfl
      rw [packet]

end Sys2Proof.Machine
/-!
STOP and the end of DRAINING (R22, R37, R72, R89, R125, R131, R149, R160, R177): what each block leaves of its work.
-/
namespace Sys2Proof.Machine

/-! ### Records freed one after another (R71, R72, R74) -/

/-- The Frame Table with some of its records FREE. -/
def freedRecords (rs : List (Fin 4)) (v : Vector Record 4) : Vector Record 4 := rs.foldl (fun v r => tweak v r fun _ => {}) v

theorem freedRecords_get (rs : List (Fin 4)) (v : Vector Record 4) (i : Fin 4) :
    (freedRecords rs v)[i] = if i ∈ rs then {} else v[i] := by
  induction rs generalizing v with
  | nil => rfl
  | cons r rs ih =>
    show (freedRecords rs (tweak v r fun _ => {}))[i] = _
    rw [ih, tweak_get]
    by_cases mem : i ∈ rs
    · rw [if_pos mem, if_pos (List.mem_cons_of_mem r mem)]
    · rw [if_neg mem]
      exact if_congr (by simp [mem]) rfl rfl

theorem freeAll_countAbandoned (rs : List (Fin 4)) (s : State) :
    freeAll countAbandoned rs s
      = { s with
          fau := { s.fau with
            records := freedRecords rs s.fau.records, abandoned := s.fau.abandoned + BitVec.ofNat 32 rs.length }
          wires := { s.wires with recordsFreed := s.wires.recordsFreed ++ rs } } := by
  induction rs generalizing s with
  | nil =>
    have same : s.fau.abandoned + BitVec.ofNat 32 0 = s.fau.abandoned := BitVec.add_zero _
    simp only [freeAll, freedRecords, List.foldl_nil, List.append_nil, List.length_nil, same]
  | cons r rs ih =>
    show freeAll countAbandoned rs (countAbandoned (freeRecord r s)) = _
    have total : s.fau.abandoned + 1 + BitVec.ofNat 32 rs.length = s.fau.abandoned + BitVec.ofNat 32 (r :: rs).length := by
      rw [List.length_cons, BitVec.ofNat_add, BitVec.add_assoc, BitVec.add_comm 1]
      rfl
    rw [ih]
    simp only [countAbandoned, freeRecord, mapRecord, total, List.append_assoc, List.singleton_append]
    rfl

theorem mem_recordsIn_iff {p : RecordState → Bool} {s : State} {r : Fin 4} :
    r ∈ recordsIn p s ↔ p s.fau.records[r].state = true := by
  simp only [recordsIn, List.mem_filter, mem_allFin, true_and]

theorem abandonWaiting_eq (s : State) :
    abandonWaiting s
      = { s with
          fau := { s.fau with
            records := freedRecords (recordsIn RecordState.waits s) s.fau.records
            abandoned := s.fau.abandoned + BitVec.ofNat 32 (recordsIn RecordState.waits s).length }
          wires := { s.wires with recordsFreed := s.wires.recordsFreed ++ recordsIn RecordState.waits s } } :=
  freeAll_countAbandoned ..

/-! ### The ends on their way at STOP (R125, R160, log 21) -/

/-- The copies' successes that still end an entry of the Deferred List, by the tickets listed. -/
def successes : List Ticket → List OwnerEnd → List OwnerEnd
  | _, [] => []
  | listed, e :: es =>
    if e.code = 2 ∧ e.ticket ∈ listed then e :: successes (listed.filter (· != e.ticket)) es else successes listed es

theorem successes_sublist (listed : List Ticket) (es : List OwnerEnd) : (successes listed es).Sublist es := by
  induction es generalizing listed with
  | nil => exact .slnil
  | cons e es ih =>
    unfold successes
    split
    · exact (ih _).cons_cons e
    · exact (ih _).cons e

theorem successes_done {listed : List Ticket} {es : List OwnerEnd} {e : OwnerEnd} (h : e ∈ successes listed es) :
    e.code = 2 ∧ e.ticket ∈ listed := by
  induction es generalizing listed with
  | nil => cases h
  | cons x es ih =>
    unfold successes at h
    split at h
    · next done =>
      obtain rfl | h := List.mem_cons.1 h
      · exact done
      · exact ⟨(ih h).1, (List.mem_filter.1 (ih h).2).1⟩
    · exact ih h

theorem successes_nodup (listed : List Ticket) (es : List OwnerEnd) : ((successes listed es).map OwnerEnd.ticket).Nodup := by
  induction es generalizing listed with
  | nil => exact .nil
  | cons e es ih =>
    unfold successes
    split
    · refine List.nodup_cons.2 ⟨fun again => ?_, ih _⟩
      obtain ⟨x, hx, same⟩ := List.mem_map.1 again
      have left := (List.mem_filter.1 (successes_done hx).2).2
      rw [same] at left
      simp at left
    · exact ih _

/-- The owner has reported the copy of the ticket a success. -/
def succeededIn (es : List OwnerEnd) (k : Ticket) : Bool := es.any fun e => e.ticket == k && e.code == 2

theorem mem_successes {listed : List Ticket} {es : List OwnerEnd} {k : Ticket} (mem : k ∈ listed) (h : succeededIn es k = true) :
    k ∈ (successes listed es).map OwnerEnd.ticket := by
  induction es generalizing listed with
  | nil => cases h
  | cons e es ih =>
    simp only [succeededIn, List.any_cons, Bool.or_eq_true, Bool.and_eq_true, beq_iff_eq] at h
    unfold successes
    split
    · by_cases own : e.ticket = k
      · rw [List.map_cons, own]
        exact List.mem_cons_self
      · refine List.mem_cons_of_mem _ (ih (List.mem_filter.2 ⟨mem, by simpa using Ne.symm own⟩) ?_)
        exact h.resolve_left fun own' => own own'.1
    · next later =>
      refine ih mem (h.resolve_left fun own => later ⟨own.2, own.1 ▸ mem⟩)

theorem successes_tickets {listed : List Ticket} {es : List OwnerEnd} {k : Ticket} (mem : k ∈ listed) :
    k ∈ (successes listed es).map OwnerEnd.ticket ↔ succeededIn es k = true := by
  refine ⟨fun h => ?_, mem_successes mem⟩
  obtain ⟨e, he, rfl⟩ := List.mem_map.1 h
  exact List.any_eq_true.2 ⟨e, (successes_sublist ..).subset he, by simp [(successes_done he).1]⟩

/-- The outcome write of a ticket. -/
def outcomeWrites (a : Anchor) (k : Ticket) (settles : List Ticket) (code : Nat) (detail : BitVec 32) : List Access :=
  writeAccesses (.outcome settles) (slotOffset a k + 8) (outcomeBytes code detail)

theorem takeSuccess_eq {s : State} {a : Anchor} (anchor : s.run.anchor = some a) (e : OwnerEnd) :
    takeSuccess e s =
      if e.code = 2 ∧ e.ticket ∈ s.du.deferred.map Deferred.ticket then
        { s with
          du := { s.du with deferred := s.du.deferred.filter fun d => d.ticket != e.ticket }
          arb := { s.arb with du := s.arb.du ++ outcomeWrites a e.ticket [e.ticket] 2 e.detail } }
      else s := by
  have listed : endsEntry e s = true ↔ e.ticket ∈ s.du.deferred.map Deferred.ticket := by
    simp only [endsEntry, List.any_eq_true, beq_iff_eq, List.mem_map]
  have taken : (e.code == codeDone && endsEntry e s) = true ↔ e.code = 2 ∧ e.ticket ∈ s.du.deferred.map Deferred.ticket := by
    rw [Bool.and_eq_true, beq_iff_eq, listed]
    rfl
  unfold takeSuccess
  by_cases done : e.code = 2 ∧ e.ticket ∈ s.du.deferred.map Deferred.ticket
  · rw [if_pos done, if_pos (taken.2 done), endEntry, finalOutcome, placeOutcome_eq anchor, done.1]
    rfl
  · rw [if_neg done, if_neg (mt taken.1 done)]

/-- The ends taken at STOP: the successes leave the Deferred List, each with its outcome write. -/
theorem foldl_takeSuccess {s : State} {a : Anchor} (anchor : s.run.anchor = some a) (es : List OwnerEnd) :
    es.foldl (fun s e => takeSuccess e s) s
      = { s with
          du := { s.du with
            deferred := s.du.deferred.filter fun d =>
              decide (d.ticket ∉ (successes (s.du.deferred.map Deferred.ticket) es).map OwnerEnd.ticket) }
          arb := { s.arb with
            du := s.arb.du ++ (successes (s.du.deferred.map Deferred.ticket) es).flatMap fun e =>
              outcomeWrites a e.ticket [e.ticket] 2 e.detail } } := by
  induction es generalizing s with
  | nil =>
    have all : (s.du.deferred.filter fun _ => true) = s.du.deferred := List.filter_true _
    simp [successes]
  | cons e es ih =>
    rw [List.foldl_cons, takeSuccess_eq anchor]
    unfold successes
    split
    · next done =>
      rw [ih (s := { s with
        du := { s.du with deferred := s.du.deferred.filter fun d => d.ticket != e.ticket }
        arb := { s.arb with du := s.arb.du ++ outcomeWrites a e.ticket [e.ticket] 2 e.detail } }) anchor]
      have tickets : (s.du.deferred.filter fun d => d.ticket != e.ticket).map Deferred.ticket
          = (s.du.deferred.map Deferred.ticket).filter (· != e.ticket) := by
        rw [List.filter_map]
        rfl
      have left : ∀ ts : List Ticket, ((s.du.deferred.filter fun d => d.ticket != e.ticket).filter fun d => decide (d.ticket ∉ ts))
          = s.du.deferred.filter fun d => decide (d.ticket ∉ e.ticket :: ts) := by
        intro ts
        rw [List.filter_filter]
        exact List.filter_congr fun d _ => by simp [Bool.and_comm, bne, beq_eq_decide]
      simp only [tickets, left, List.append_assoc, List.flatMap_cons, List.map_cons]
    · next later => exact ih anchor

/-! ### The Directive Unit at STOP (R160, log 25) -/

theorem abandonTickets_eq {s : State} {a : Anchor} (anchor : s.run.anchor = some a) (all ts : List Ticket) :
    abandonTickets all ts s
      = placeDu (ts.dropLast.flatMap (fun k => outcomeWrites a k [] 13 0)
          ++ ts.getLast?.toList.flatMap fun k => outcomeWrites a k all 13 0) s := by
  induction ts generalizing s with
  | nil => simp [abandonTickets, placeDu]
  | cons t ts ih =>
    cases ts with
    | nil =>
      rw [abandonTickets, placeOutcome_eq anchor]
      simp only [List.dropLast_singleton, List.flatMap_nil, List.nil_append, List.getLast?_singleton, Option.toList_some,
        List.flatMap_cons, List.append_nil]
      rfl
    | cons t' ts =>
      rw [abandonTickets, placeOutcome_eq anchor, ih (s := placeDu _ s) anchor]
      · simp only [placeDu, List.append_assoc, List.dropLast_cons_cons, List.flatMap_cons, List.getLast?_cons_cons]
        rfl
      · nofun

/-- The Directive Unit's waiting accesses without the reads of dropped work; a slot read runs on to no one (R160, log 25). -/
def keptReads (q : List Access) : List Access :=
  (q.filter fun x => !(x.purpose == .load || x.purpose == .vector || x.purpose == .copy)).map Access.stale

theorem keptReads_append (q r : List Access) : keptReads (q ++ r) = keptReads q ++ keptReads r := by
  simp [keptReads]

/-- Outcome writes stay as they are. -/
theorem keptReads_outcomes {q : List Access} (h : ∀ x ∈ q, ∃ ts, x.purpose = .outcome ts) : keptReads q = q := by
  have kept : (q.filter fun x => !(x.purpose == .load || x.purpose == .vector || x.purpose == .copy)) = q := by
    refine List.filter_eq_self.2 fun x hx => ?_
    obtain ⟨ts, purpose⟩ := h x hx
    rw [purpose]
    rfl
  have same : ∀ x ∈ q, x.stale = x := fun x hx => by
    obtain ⟨ts, purpose⟩ := h x hx
    unfold Access.stale
    rw [if_neg (by rw [purpose]; nofun)]
  rw [keptReads, kept, List.map_congr_left same, List.map_id']

theorem outcomeWrites_purpose {a : Anchor} {k : Ticket} {ts : List Ticket} {code : Nat} {detail : BitVec 32} {x : Access}
    (h : x ∈ outcomeWrites a k ts code detail) : x.purpose = .outcome ts := (writeAccesses_within h).2.2.1

theorem dropReads_eq (s : State) : dropReads s = { s with arb := { s.arb with du := keptReads s.arb.du } } := rfl

/-- The writes of ABANDONED, in ticket order; the last settles them all. -/
def abandonedWrites (a : Anchor) (ts : List Ticket) : List Access :=
  ts.dropLast.flatMap (fun k => outcomeWrites a k [] 13 0) ++ ts.getLast?.toList.flatMap fun k => outcomeWrites a k ts 13 0

theorem abandonedWrites_purpose {a : Anchor} {ts : List Ticket} {x : Access} (h : x ∈ abandonedWrites a ts) :
    ∃ ts, x.purpose = .outcome ts := by
  obtain h | h := List.mem_append.1 h
  · obtain ⟨k, _, h⟩ := List.mem_flatMap.1 h
    exact ⟨_, outcomeWrites_purpose h⟩
  · obtain ⟨k, _, h⟩ := List.mem_flatMap.1 h
    exact ⟨_, outcomeWrites_purpose h⟩

theorem stopDu_eq {s : State} {a : Anchor} (anchor : s.run.anchor = some a) :
    stopDu s = { s with
      du := { s.du with scanTimer := none, activity := .resting, hand := none, job := none, deferred := [] }
      arb := { s.arb with du := keptReads s.arb.du ++ abandonedWrites a (openTickets s) } } := by
  unfold stopDu
  rw [abandonTickets_eq anchor, dropReads_eq]
  show { s with
      du := { s.du with scanTimer := none, activity := .resting, hand := none, job := none, deferred := [] }
      arb := { s.arb with du := keptReads (s.arb.du ++ abandonedWrites a (openTickets s)) } } = _
  rw [keptReads_append, keptReads_outcomes fun x hx => abandonedWrites_purpose hx]

/-! ### All that STOP ends -/

/-- The successes STOP still takes. -/
def stopSuccesses (s : State) : List OwnerEnd := successes (s.du.deferred.map Deferred.ticket) s.wires.ownerEnds

/-- The tickets STOP abandons: the rest of the Deferred List, then the directive in hand. -/
def abandonedAtStop (s : State) : List Ticket :=
  (s.du.deferred.map Deferred.ticket).filter (fun k => !succeededIn s.wires.ownerEnds k) ++ (s.du.hand.map Hand.ticket).toList

/-- What STOP makes of every block's work, before run control looks at the end of DRAINING. -/
def stopWork (s : State) : State := stopBlocks (stopDu (abandonWaiting (stopStreams (takeOwnerEnds s))))

theorem takeOwnerEnds_eq {s : State} {a : Anchor} (anchor : s.run.anchor = some a) :
    takeOwnerEnds s = { s with
      du := { s.du with deferred := s.du.deferred.filter fun d => !succeededIn s.wires.ownerEnds d.ticket }
      arb := { s.arb with du := s.arb.du ++ (stopSuccesses s).flatMap fun e => outcomeWrites a e.ticket [e.ticket] 2 e.detail }
      wires := { s.wires with ownerEnds := [] } } := by
  have left : (s.du.deferred.filter fun d => decide (d.ticket ∉ (stopSuccesses s).map OwnerEnd.ticket))
      = s.du.deferred.filter fun d => !succeededIn s.wires.ownerEnds d.ticket := by
    refine List.filter_congr fun d hd => ?_
    have same := successes_tickets (es := s.wires.ownerEnds) (List.mem_map_of_mem (f := Deferred.ticket) hd)
    rw [stopSuccesses, Bool.eq_iff_iff, decide_eq_true_eq, Bool.not_eq_true', ← Bool.not_eq_true, same]
  rw [← left]
  exact foldl_takeSuccess (s := { s with wires := { s.wires with ownerEnds := [] } }) anchor s.wires.ownerEnds

theorem stopStreams_of {v s : State} (sau : v.sau = s.sau) (time : v.time = s.time) :
    stopStreams v = { v with sau := (stopStreams s).sau } := by
  rw [stopStreams_eq, stopStreams_eq]
  unfold withStreams
  rw [sau, time]

theorem abandonWaiting_of {v s : State} (fau : v.fau = s.fau) :
    abandonWaiting v = { v with
      fau := (abandonWaiting s).fau
      wires := { v.wires with recordsFreed := v.wires.recordsFreed ++ recordsIn RecordState.waits s } } := by
  have waits : recordsIn RecordState.waits v = recordsIn RecordState.waits s := by
    unfold recordsIn
    rw [fau]
  rw [abandonWaiting_eq, abandonWaiting_eq, waits, fau]

/-- What STOP has made of every block. -/
structure Stopped (a : Anchor) (s t : State) : Prop where
  only : OnlyChanges [.sau, .fck, .fau, .rce, .pru, .du, .duQueue, .wires] s t
  sau : t.sau = (stopStreams s).sau
  fck : t.fck = { s.fck with flywheel := none }
  fau : t.fau = (abandonWaiting s).fau
  rce : t.rce = { s.rce with slotA := s.rce.slotA.unload, slotB := s.rce.slotB.unload, load := none }
  pru : t.pru = { s.pru with staging := none, waiting := [], job := none }
  du : t.du = { s.du with scanTimer := none, activity := .resting, hand := none, job := none, deferred := [] }
  wires : t.wires = { s.wires with ownerEnds := [], recordsFreed := s.wires.recordsFreed ++ recordsIn RecordState.waits s }
  queue : t.arb.du = keptReads s.arb.du ++ (stopSuccesses s).flatMap (fun e => outcomeWrites a e.ticket [e.ticket] 2 e.detail)
    ++ abandonedWrites a (abandonedAtStop s)

/-- The Directive Unit's queue and list when STOP reaches it. -/
theorem stopWork_found {s c : State} {a : Anchor} (anchor : s.run.anchor = some a)
    (reached : abandonWaiting (stopStreams (takeOwnerEnds s)) = c) :
    c.run = s.run
      ∧ c.du = { s.du with deferred := s.du.deferred.filter fun d => !succeededIn s.wires.ownerEnds d.ticket }
      ∧ c.arb.du = s.arb.du ++ (stopSuccesses s).flatMap (fun e => outcomeWrites a e.ticket [e.ticket] 2 e.detail)
      ∧ c.sau = (stopStreams s).sau ∧ c.fau = (abandonWaiting s).fau
      ∧ c.wires = { s.wires with ownerEnds := [], recordsFreed := s.wires.recordsFreed ++ recordsIn RecordState.waits s } := by
  have taken := takeOwnerEnds_only s
  have ends := takeOwnerEnds_eq anchor
  have ends_du := congrArg State.du ends
  have ends_queue := congrArg (fun u => u.arb.du) ends
  have ends_wires := congrArg State.wires ends
  dsimp only at ends_du ends_queue ends_wires
  clear ends
  generalize takeOwnerEnds s = w at *
  have stands := congrArg State.sau (stopStreams_of (v := w) (s := s) (taken.same .sau (by decide)) (taken.same .time (by decide)))
  have streams := stopStreams_only w
  generalize stopStreams w = b at *
  have freed := abandonWaiting_of (v := b) (s := s) ((taken.andThen streams).same .fau (by decide))
  have run : b.run = s.run := (taken.andThen streams).same .run (by decide)
  have du : b.du = w.du := streams.same .du (by decide)
  have queue : b.arb.du = w.arb.du := streams.same .duQueue (by decide)
  have wires : b.wires = w.wires := streams.same .wires (by decide)
  rw [reached] at freed
  have freed_run := congrArg State.run freed
  have freed_du := congrArg State.du freed
  have freed_queue := congrArg (fun u => u.arb.du) freed
  have freed_sau := congrArg State.sau freed
  have freed_fau := congrArg State.fau freed
  have freed_wires := congrArg State.wires freed
  dsimp only at stands freed_run freed_du freed_queue freed_sau freed_fau freed_wires
  rw [freed_run, freed_du, freed_queue, freed_sau, freed_fau, freed_wires, run, du, queue, wires, ends_du, ends_queue, ends_wires]
  exact ⟨rfl, rfl, rfl, stands, rfl, rfl⟩

theorem stopWork_stopped {s : State} {a : Anchor} (anchor : s.run.anchor = some a) : Stopped a s (stopWork s) := by
  obtain ⟨run, du, queue, sau, fau, wires⟩ := stopWork_found anchor rfl
  have before : OnlyChanges [.sau, .fau, .du, .duQueue, .wires] s (abandonWaiting (stopStreams (takeOwnerEnds s))) :=
    ((takeOwnerEnds_only s).andThen ((stopStreams_only _).andThen (abandonWaiting_only _))).among rfl
  unfold stopWork
  generalize abandonWaiting (stopStreams (takeOwnerEnds s)) = c at *
  have fck : c.fck = s.fck := before.same .fck (by decide)
  have rce : c.rce = s.rce := before.same .rce (by decide)
  have pru : c.pru = s.pru := before.same .pru (by decide)
  have ended := stopDu_eq (s := c) (a := a) (by rw [run]; exact anchor)
  have only : OnlyChanges [.sau, .fck, .fau, .rce, .pru, .du, .duQueue, .wires] s (stopBlocks (stopDu c)) :=
    (before.andThen ((stopDu_only c).andThen (stopBlocks_only _))).among rfl
  refine ⟨only, ?_, ?_, ?_, ?_, ?_, ?_, ?_, ?_⟩
  · rw [← sau]; exact (stopDu_only c).same .sau (by decide)
  · rw [← fck, ended]; rfl
  · rw [← fau]; exact (stopDu_only c).same .fau (by decide)
  · rw [← rce, ended]; rfl
  · rw [← pru, ended]; rfl
  · rw [ended]
    show { c.du with scanTimer := none, activity := .resting, hand := none, job := none, deferred := [] } = _
    rw [du]
  · rw [← wires]; exact (stopDu_only c).same .wires (by decide)
  · have tickets : openTickets c = abandonedAtStop s := by
      unfold openTickets abandonedAtStop
      rw [du, List.filter_map]
      rfl
    rw [ended]
    show keptReads c.arb.du ++ abandonedWrites a (openTickets c) = _
    rw [tickets, queue, keptReads_append, keptReads_outcomes (q := (stopSuccesses s).flatMap _) fun x hx => ?_]
    obtain ⟨e, _, hx⟩ := List.mem_flatMap.1 hx
    exact ⟨_, outcomeWrites_purpose hx⟩

/-! ### The end of DRAINING (R131, R149, R177, log 9) -/

/-- The Command Output Unit at the end of DRAINING (R131). -/
def quietedCou (c : Cou) : Cou :=
  { c with output := .quiet, causes := {}, saturationRun := 0, voidRun := 0, links := .ofFn fun l => c.links[l].clear l }

/-- What the guards change of the unit while no packet waits: its output, its causes and its two runs. -/
def GuardsCount (c d : Cou) : Prop :=
  ∃ output causes sat void, d = { c with output := output, causes := causes, saturationRun := sat, voidRun := void }

theorem GuardsCount.links {c d : Cou} (h : GuardsCount c d) : d.links = c.links := by
  obtain ⟨_, _, _, _, rfl⟩ := h
  rfl

theorem GuardsCount.quieted {c d : Cou} (h : GuardsCount c d) : quietedCou d = quietedCou c := by
  obtain ⟨_, _, _, _, rfl⟩ := h
  rfl

theorem GuardsCount.trans {c d e : Cou} (h : GuardsCount c d) (k : GuardsCount d e) : GuardsCount c e := by
  obtain ⟨_, _, _, _, rfl⟩ := h
  obtain ⟨_, _, _, _, rfl⟩ := k
  exact ⟨_, _, _, _, rfl⟩

/-- No link has a command packet waiting. -/
def NoneWaiting (c : Cou) : Prop := ∀ l : Fin 4, c.links[l].waitingCommand = none

theorem noneWaiting_of_quiet {s : State} (h : linksQuiet s = true) : NoneWaiting s.cou := by
  intro l
  have quiet := List.all_eq_true.1 h l (mem_allFin l)
  simp only [MirrorLink.quiet, Bool.and_eq_true, Option.isNone_iff_eq_none] at quiet
  exact quiet.2

theorem takeGuard_count {s : State} (h : NoneWaiting s.cou) (g : GuardReport) : GuardsCount s.cou (takeGuard g s).cou := by
  unfold takeGuard
  split
  · exact ⟨_, _, _, _, rfl⟩
  · next active =>
    have links : ∀ b, s.cou.links.map (MirrorLink.whenHeld b) = s.cou.links := fun b => vector_ext fun l => by
      have none := h l
      simp only [Fin.getElem_fin] at none
      simp [MirrorLink.whenHeld, none]
    rw [countGuards_cou g s active, links]
    exact ⟨_, _, _, _, rfl⟩

theorem takeGuards_count {s : State} (h : NoneWaiting s.cou) : GuardsCount s.cou (takeGuards s).cou := by
  have all : ∀ (gs : List GuardReport) (u : State), NoneWaiting u.cou →
      GuardsCount u.cou (gs.foldl (fun s g => takeGuard g s) u).cou := by
    intro gs
    induction gs with
    | nil => exact fun u _ => ⟨_, _, _, _, rfl⟩
    | cons g gs ih =>
      intro u none
      have one := takeGuard_count none g
      exact one.trans (ih _ fun l => by rw [one.links]; exact none l)
  exact all s.wires.guardReports s h

/-- What the end of DRAINING finds: the guard reports on their way have been taken. -/
structure EndFinds (w u : State) : Prop where
  only : OnlyChanges [.cou, .wires, .attention, .msi] w u
  wires : u.wires = { w.wires with guardReports := if drained w then [] else w.wires.guardReports }
  cou : GuardsCount w.cou u.cou
  still : drained w = false → u = w

theorem drained_links {s : State} (h : drained s = true) : linksQuiet s = true := by
  simp only [drained, linksQuietAtRun, Bool.and_eq_true] at h
  exact h.2.1

theorem takeGuards_wires (s : State) : (takeGuards s).wires = { s.wires with guardReports := [] } := by
  have counted : OnlyChanges [.cou, .attention] s (s.wires.guardReports.foldl (fun s g => takeGuard g s) s) :=
    .foldl (fun u g => takeGuard_only g u) _ s
  have wires : (s.wires.guardReports.foldl (fun s g => takeGuard g s) s).wires = s.wires := counted.same .wires (by decide)
  show { (s.wires.guardReports.foldl (fun s g => takeGuard g s) s).wires with guardReports := [] } = _
  rw [wires]

theorem beforeEnd_finds (b w : State) : EndFinds w (beforeEnd b w) := by
  unfold beforeEnd
  by_cases h : drained w = true
  · have sent := sendMsi_only b (takeGuards w)
    have wires : (sendMsi b (takeGuards w)).wires = (takeGuards w).wires := sent.same .wires (by decide)
    have cou : (sendMsi b (takeGuards w)).cou = (takeGuards w).cou := sent.same .cou (by decide)
    rw [if_pos h]
    refine ⟨((takeGuards_only w).among rfl).trans (sent.among rfl), ?_, ?_, fun open' => ?_⟩
    · rw [if_pos h]
      exact wires.trans (takeGuards_wires w)
    · rw [cou]
      exact takeGuards_count (noneWaiting_of_quiet (drained_links h))
    · rw [h] at open'
      cases open'
  · rw [if_neg h]
    exact ⟨.refl _ w, by rw [if_neg h], ⟨_, _, _, _, rfl⟩, fun _ => rfl⟩

theorem linksQuiet_of_links {s t : State} (h : t.cou.links = s.cou.links) : linksQuiet t = linksQuiet s := by
  unfold linksQuiet
  rw [h]

/-- Whether run control has both conditions. -/
theorem drained_congr {s t : State} (rce : t.rce.state = s.rce.state) (links : t.cou.links = s.cou.links)
    (handover : t.wires.handover = s.wires.handover) (idle : t.wires.idleToRun = s.wires.idleToRun)
    (quiet : t.wires.linksQuiet = s.wires.linksQuiet) : drained t = drained s := by
  unfold drained engineIdleAtRun linksQuietAtRun
  rw [rce, handover, idle, quiet, linksQuiet_of_links links]

/-- The scan timer that the end of DRAINING arms (R149). -/
def rearmed (s : State) : Option Time :=
  match s.run.anchor with
  | some a => some (s.time + BitVec.ofNat 64 a.interval)
  | none => s.du.scanTimer

theorem endDraining_eq (s : State) :
    endDraining s = raise .runChange { s with
      cou := quietedCou s.cou, du := { s.du with scanTimer := rearmed s }, run := { s.run with state := .ready } } := by
  unfold endDraining armScanAgain rearmed
  cases anchor : s.run.anchor with
  | none =>
    have same : (quietCou s).run.anchor = none := anchor
    rw [same]
    rfl
  | some a =>
    have same : (quietCou s).run.anchor = some a := anchor
    rw [same]
    rfl

theorem drainingCheck_changes (s : State) : OnlyChanges [.run, .cou, .du, .attention] s (drainingCheck s) := by
  unfold drainingCheck
  split
  · rw [endDraining_eq]
    exact ((with_cou_only (quietedCou s.cou) s).andThen ((with_du_only { s.du with scanTimer := rearmed s } _).andThen
      ((with_run_only { s.run with state := .ready } _).andThen (raise_only .runChange _)))).among rfl
  · exact .refl _ s

theorem drainingCheck_eq {s : State} (h : s.run.state = .draining) :
    drainingCheck s = if drained s then endDraining s else s := by
  unfold drainingCheck
  simp [h]

theorem stopWork_draining {s u : State} {a : Anchor} (finds : EndFinds s u) (stopped : Stopped a u (stopWork u)) :
    drained (enterRun .draining (stopWork u)) = drained s := by
  have rce : u.rce = s.rce := finds.only.same .rce (by decide)
  have cou : (stopWork u).cou = u.cou := stopped.only.same .cou (by decide)
  refine drained_congr ?_ ?_ ?_ ?_ ?_
  · rw [enterRun_rce, stopped.rce, rce]
  · rw [enterRun_cou, cou, finds.cou.links]
  all_goals rw [enterRun_wires, stopped.wires, finds.wires]

/-- Run control at STOP: DRAINING ends at once where both conditions hold. -/
theorem exec_stop {s : State} (running : s.run.state = .running) (open' : s.run.initialising = false) :
    exec .stop s = .next (settle { s with page := (beforeEnd s s).page }
      (drainingCheck (enterRun .draining (stopWork (beforeEnd s s))))) := by
  have run : (beforeEnd s s).run = s.run := (beforeEnd_finds s s).only.same .run (by decide)
  have first : beforeStop s = beforeEnd s s := by
    unfold beforeStop
    rw [running, open']
    rfl
  show finishAfter s (beforeStop s) (stop (beforeStop s)) = _
  rw [first]
  have taken : stop (beforeEnd s s) = drainingCheck (enterRun .draining (stopWork (beforeEnd s s))) := by
    unfold stop beginDraining stopWork
    exact if_pos (by simp [run, running, open'])
  rw [taken]
  rfl

theorem attentionHas_runChange (s : State) : attentionHas .runChange (drainingCheck (enterRun .draining s)) = true := by
  have entered : attentionHas .runChange (enterRun .draining s) = true := by simp [attentionHas_enterRun]
  unfold drainingCheck
  split
  · rw [endDraining_eq, attentionHas_raise]
    simp
  · exact entered

theorem stopStreams_stream (s : State) (k : Fin 16) :
    (stopStreams s).sau.streams[k]
      = if s.sau.streams[k].enabled then s.sau.streams[k].enter s.time .standby else s.sau.streams[k] := by
  rw [stopStreams_eq]
  exact ofFn_get _ k

theorem stopStreams_sau (s : State) : (stopStreams s).sau = { s.sau with streams := (stopStreams s).sau.streams } := by
  rw [stopStreams_eq]
  rfl

theorem Stream.enter_standby (x : Stream) (now : Time) :
    (x.enter now .standby).state = .standby ∧ (x.enter now .standby).timer = none ∧ (x.enter now .standby).misinserts = 0
      ∧ (x.enter now .standby).config = x.config ∧ (x.enter now .standby).counters = x.counters
      ∧ (x.state ≠ .standby → (x.enter now .standby).changed = now ∧ (x.enter now .standby).stay = x.stay + 1) := by
  refine ⟨rfl, rfl, rfl, rfl, rfl, fun moved => ?_⟩
  unfold Stream.enter
  exact ⟨if_neg moved, if_neg moved⟩

theorem drained_both (s : State) : drained s = true ↔ s.rce.state = .idle ∧ s.wires.handover = none ∧ linksQuiet s = true
    ∧ s.wires.linksQuiet = false ∧ s.wires.idleToRun = false := by
  simp only [drained, engineIdleAtRun, linksQuietAtRun, Bool.and_eq_true, beq_iff_eq, Option.isNone_iff_eq_none, Bool.not_eq_true']
  tauto

/-- A report in DRAINING, with what it finds taken from the line: DRAINING ends when both conditions hold. -/
theorem runReport_draining {w : State} (h : w.run.state = .draining) (s : State) :
    runReport s w = .next (settle { s with page := (beforeEnd s w).page } (drainingCheck (beforeEnd s w))) := by
  unfold runReport
  rw [if_pos h]
  rfl

/-- What a report in DRAINING leaves, as the two conditions hold or not. -/
theorem drainingReport {s w : State} (h : s.run.state = .draining) (only : OnlyChanges [.wires] s w) :
    ∃ t, runReport s w = .next t
      ∧ (drained w = false → Touches [.wires] s t ∧ t.wires = w.wires)
      ∧ (drained w = true → t.wires = { w.wires with guardReports := [] } ∧ t.cou = quietedCou s.cou
          ∧ t.run = { s.run with state := .ready } ∧ attentionHas .runChange t = true
          ∧ t.du = { s.du with scanTimer := rearmed s }) := by
  have run : w.run = s.run := only.same .run (by decide)
  have finds := beforeEnd_finds s w
  refine ⟨_, runReport_draining (run ▸ h) s, ?_⟩
  generalize beforeEnd s w = u at finds
  have runU : u.run = s.run := (only.andThen finds.only).same .run (by decide)
  have still : drained u = drained w := by
    have rce : u.rce = w.rce := finds.only.same .rce (by decide)
    refine drained_congr (by rw [rce]) finds.cou.links ?_ ?_ ?_
    all_goals rw [finds.wires]
  rw [drainingCheck_eq (by rw [runU]; exact h), still]
  refine ⟨fun open' => ?_, fun done => ?_⟩
  · obtain rfl := finds.still open'
    rw [open']
    exact ⟨only.settle _, settle_wires ..⟩
  · have time : u.time = s.time := (only.andThen finds.only).same .time (by decide)
    have du : u.du = s.du := (only.andThen finds.only).same .du (by decide)
    have cou : w.cou = s.cou := only.same .cou (by decide)
    have timer : rearmed u = rearmed s := by
      unfold rearmed
      rw [runU, time, du]
    rw [if_pos done, endDraining_eq, settle_wires, settle_cou, settle_run, settle_du, attentionHas_settle]
    refine ⟨?_, ?_, ?_, by simp [attentionHas_raise], ?_⟩
    · rw [raise_wires, finds.wires, if_pos done]
    · rw [raise_cou, finds.cou.quieted, cou]
    · rw [raise_run, runU]
    · rw [raise_du, timer, du]

theorem quietedCou_links (c : Cou) (l : Fin 4) :
    (quietedCou c).links[l].tx = .idle ∧ (quietedCou c).links[l].waitingSafe = none
      ∧ (quietedCou c).links[l].waitingCommand = none ∧ (quietedCou c).links[l].window = .idle
      ∧ (quietedCou c).links[l].consecutive = 0 := by
  have link : (quietedCou c).links[l] = c.links[l].clear l := ofFn_get _ l
  rw [link]
  exact ⟨rfl, rfl, rfl, rfl, rfl⟩

/-- Run control has both conditions once it has taken the report of the command (R177). -/
def BothConditions (c : Instr) (s : State) : Prop :=
  s.rce.state = .idle ∧ s.wires.handover = none ∧ linksQuiet s = true
    ∧ (c = .runControlIdleReport → s.wires.linksQuiet = false) ∧ (c = .linksQuietReport → s.wires.idleToRun = false)

theorem both_atIdle (s : State) :
    drained { s with wires := { s.wires with idleToRun := false } } = true ↔ BothConditions .runControlIdleReport s :=
  (drained_both _).trans ⟨fun ⟨idle, handover, links, quiet, _⟩ => ⟨idle, handover, links, fun _ => quiet, nofun⟩,
    fun ⟨idle, handover, links, quiet, _⟩ => ⟨idle, handover, links, quiet rfl, rfl⟩⟩

theorem both_atQuiet (s : State) :
    drained { s with wires := { s.wires with linksQuiet := false } } = true ↔ BothConditions .linksQuietReport s :=
  (drained_both _).trans ⟨fun ⟨idle, handover, links, _, taken⟩ => ⟨idle, handover, links, nofun, fun _ => taken⟩,
    fun ⟨idle, handover, links, _, taken⟩ => ⟨idle, handover, links, rfl, taken rfl⟩⟩

/-- `drainingReport`, with the two conditions as the statement has them. -/
theorem drainingReport_both {s w : State} {both : Prop} (h : s.run.state = .draining) (only : OnlyChanges [.wires] s w)
    (condition : drained w = true ↔ both) :
    ∃ t, runReport s w = .next t
      ∧ (¬ both → Touches [.wires] s t ∧ t.wires = w.wires)
      ∧ (both → t.wires = { w.wires with guardReports := [] } ∧ t.cou = quietedCou s.cou
          ∧ t.run = { s.run with state := .ready } ∧ attentionHas .runChange t = true
          ∧ (∀ l : Fin 4, t.cou.links[l].tx = .idle ∧ t.cou.links[l].waitingSafe = none
              ∧ t.cou.links[l].waitingCommand = none ∧ t.cou.links[l].window = .idle ∧ t.cou.links[l].consecutive = 0)
          ∧ t.du = { s.du with scanTimer := rearmed s }) := by
  obtain ⟨t, next, open', done⟩ := drainingReport h only
  refine ⟨t, next, fun no => open' (Bool.eq_false_iff.2 (mt condition.1 no)), fun yes => ?_⟩
  obtain ⟨wires, cou, run, flag, du⟩ := done (condition.2 yes)
  exact ⟨wires, cou, run, flag, fun l => by rw [cou]; exact quietedCou_links s.cou l, du⟩

/-- What STOP leaves of the blocks that the end of DRAINING does not touch, and of those it does. -/
theorem stop_leaves {s u : State} {a : Anchor} (anchor : s.run.anchor = some a) (finds : EndFinds s u) :
    let t := drainingCheck (enterRun .draining (stopWork u))
    t.run = { s.run with state := if drained s then .ready else .draining, refusal := .none }
      ∧ t.cou = (if drained s then quietedCou s.cou else s.cou)
      ∧ t.du = { s.du with
          hand := none, deferred := [], activity := .resting, job := none
          scanTimer := if drained s then some (s.time + BitVec.ofNat 64 a.interval) else none }
      ∧ OnlyChanges [.run, .cou, .du, .attention] (stopWork u) t := by
  intro t
  have run : u.run = s.run := finds.only.same .run (by decide)
  have du : u.du = s.du := finds.only.same .du (by decide)
  have time : u.time = s.time := finds.only.same .time (by decide)
  have stopped := stopWork_stopped (s := u) (a := a) (by rw [run]; exact anchor)
  have run' : (stopWork u).run = s.run := (finds.only.andThen stopped.only).same .run (by decide)
  have time' : (stopWork u).time = s.time := (finds.only.andThen stopped.only).same .time (by decide)
  have cou' : (stopWork u).cou = u.cou := stopped.only.same .cou (by decide)
  have du' := stopped.du
  have only : OnlyChanges [.run, .cou, .du, .attention] (stopWork u) t :=
    ((enterRun_only ..).andThen (drainingCheck_changes _)).among rfl
  have last : t = if drained s then endDraining (enterRun .draining (stopWork u)) else enterRun .draining (stopWork u) := by
    rw [← stopWork_draining finds stopped]
    exact drainingCheck_eq rfl
  refine ⟨?_, ?_, ?_, only⟩
  all_goals rw [last]; generalize stopWork u = v at *; by_cases ends : drained s = true
  · rw [if_pos ends, if_pos ends, endDraining_eq, raise_run, enterRun_run, run']
  · rw [if_neg ends, if_neg ends, enterRun_run, run']
  · rw [if_pos ends, if_pos ends, endDraining_eq, raise_cou, enterRun_cou, cou', finds.cou.quieted]
  · rw [if_neg ends, if_neg ends, enterRun_cou, cou', finds.still (Bool.eq_false_iff.2 ends)]
  · have timer : rearmed (enterRun .draining v) = some (s.time + BitVec.ofNat 64 a.interval) := by
      unfold rearmed
      rw [enterRun_run, run', anchor, enterRun_time, time']
    rw [if_pos ends, if_pos ends, endDraining_eq, raise_du, timer, enterRun_du, du', du]
  · rw [if_neg ends, if_neg ends, enterRun_du, du', du]

/-- What STOP leaves of every other block. -/
theorem stop_leaves_blocks {s u t : State} {a : Anchor} (anchor : s.run.anchor = some a) (finds : EndFinds s u)
    (only : OnlyChanges [.run, .cou, .du, .attention] (stopWork u) t) :
    t.sau = (stopStreams s).sau ∧ t.fck = { s.fck with flywheel := none } ∧ t.fau = (abandonWaiting s).fau
      ∧ t.wires = { s.wires with
          ownerEnds := [], recordsFreed := s.wires.recordsFreed ++ recordsIn RecordState.waits s
          guardReports := if drained s then [] else s.wires.guardReports }
      ∧ t.arb.du = keptReads s.arb.du ++ (stopSuccesses s).flatMap (fun e => outcomeWrites a e.ticket [e.ticket] 2 e.detail)
          ++ abandonedWrites a (abandonedAtStop s)
      ∧ t.pru = { s.pru with staging := none, waiting := [], job := none }
      ∧ t.rce = { s.rce with slotA := s.rce.slotA.unload, slotB := s.rce.slotB.unload, load := none } := by
  have run : u.run = s.run := finds.only.same .run (by decide)
  have fck : u.fck = s.fck := finds.only.same .fck (by decide)
  have fau : u.fau = s.fau := finds.only.same .fau (by decide)
  have rce : u.rce = s.rce := finds.only.same .rce (by decide)
  have pru : u.pru = s.pru := finds.only.same .pru (by decide)
  have du : u.du = s.du := finds.only.same .du (by decide)
  have queue : u.arb.du = s.arb.du := finds.only.same .duQueue (by decide)
  have stands := congrArg State.sau
    (stopStreams_of (v := u) (s := s) (finds.only.same .sau (by decide)) (finds.only.same .time (by decide)))
  have freed := congrArg State.fau (abandonWaiting_of fau)
  dsimp only at stands freed
  have stopped := stopWork_stopped (s := u) (a := a) (by rw [run]; exact anchor)
  generalize stopWork u = v at *
  have waits : recordsIn RecordState.waits u = recordsIn RecordState.waits s := by
    unfold recordsIn
    rw [fau]
  have ended : stopSuccesses u = stopSuccesses s := by
    unfold stopSuccesses
    rw [du, finds.wires]
  have dropped : abandonedAtStop u = abandonedAtStop s := by
    unfold abandonedAtStop
    rw [du, finds.wires]
  have sau' : t.sau = v.sau := only.same .sau (by decide)
  have fck' : t.fck = v.fck := only.same .fck (by decide)
  have fau' : t.fau = v.fau := only.same .fau (by decide)
  have wires' : t.wires = v.wires := only.same .wires (by decide)
  have queue' : t.arb.du = v.arb.du := only.same .duQueue (by decide)
  have pru' : t.pru = v.pru := only.same .pru (by decide)
  have rce' : t.rce = v.rce := only.same .rce (by decide)
  rw [sau', fck', fau', wires', queue', pru', rce', stopped.sau, stopped.fck, stopped.fau, stopped.wires, stopped.queue, stopped.pru,
    stopped.rce, fck, pru, rce, queue, waits, ended, dropped, finds.wires]
  exact ⟨stands, rfl, freed, rfl, rfl, rfl, rfl⟩

/-- Settles O17: STOP by `stop_leaves` and `stop_leaves_blocks`, the two reports by `drainingReport_both`. -/
theorem stopAndDraining : Obligations.StopAndDraining := by
  unfold Obligations.StopAndDraining
  intro quieted
  refine ⟨fun s a running open' anchor => ?_, fun c s draining which => ?_⟩
  · intro ends listed succeeded abandoned freed running' writes
    have finds := beforeEnd_finds s s
    obtain ⟨run, cou, du, only⟩ := stop_leaves anchor finds
    obtain ⟨sau, fck, fau, wires, queue, pru, rce⟩ := stop_leaves_blocks anchor finds only
    have flag := attentionHas_runChange (stopWork (beforeEnd s s))
    refine ⟨_, exec_stop running open', ?_⟩
    rw [settle_run, settle_sau, settle_fck, settle_fau, settle_wires, settle_du, settle_arb_du, settle_pru, settle_rce, settle_cou,
      attentionHas_settle]
    generalize drainingCheck (enterRun .draining (stopWork (beforeEnd s s))) = t at run cou du sau fck fau wires queue pru rce flag
    rw [sau, fau]
    refine ⟨run, flag, fun k enabled => ?_, fun k disabled => ?_, stopStreams_sau s, fck, fun r => ?_, ?_, wires, du,
      ⟨stopSuccesses s, successes_sublist .., fun e he => successes_done he, successes_nodup .., fun k => mem_successes, ?_⟩, pru, rce,
      fun no => ?_, fun yes => ?_⟩
    · rw [stopStreams_stream, if_pos enabled]
      exact Stream.enter_standby _ _
    · rw [stopStreams_stream, if_neg (by rw [disabled]; nofun)]
    · rw [abandonWaiting_eq]
      exact (freedRecords_get ..).trans (if_congr mem_recordsIn_iff rfl rfl)
    · rw [abandonWaiting_eq]
    · rw [queue, abandonedWrites, ← List.append_assoc]
      rfl
    · exact cou.trans (if_neg (Bool.eq_false_iff.1 no))
    · exact cou.trans (if_pos yes)
  · obtain ⟨rfl, told⟩ | ⟨rfl, told⟩ := which
    · obtain ⟨t, next, rest⟩ := drainingReport_both draining (with_wires_only { s.wires with idleToRun := false } s) (both_atIdle s)
      exact ⟨t, (if_pos told).trans next, rest⟩
    · obtain ⟨t, next, rest⟩ := drainingReport_both draining (with_wires_only { s.wires with linksQuiet := false } s) (both_atQuiet s)
      exact ⟨t, (if_pos told).trans next, rest⟩

end Sys2Proof.Machine
/-!
The sensor link ports and the mirror link receivers, block by block (R1 to R7, R14 to R16, R145).
-/
namespace Sys2Proof.Machine

/-! ### A port that hears what its receiver has made of a block -/

/-- What an event of the line does to the counts of its port (R2 to R7, R15, R16). -/
def Port.event (now : Time) (p : Port) : LineEvent → Port
  | .codingError => { p with codingErrors := latch p.codingErrors }
  | .discarded => p
  | .oversize => { p with oversize := latch p.oversize }
  | .complete bs => if goodCheckCode bs then p else { p with crcErrors := latch p.crcErrors }
  | .wentUp => { p with changed := now }
  | .wentDown => { p with changed := now }

/-- The port after its receiver has moved, with its events in order. -/
def Port.heard (now : Time) (x : Receiver × List LineEvent) (p : Port) : Port := x.2.foldl (Port.event now) { p with rx := x.1 }

theorem packetEnd_cases (l : Fin 8) (bs : List Byte) (s : State) :
    packetEnd l bs s = if goodCheckCode bs then (if packetTag bs = 0 then s else handOn l bs s)
      else mapPort l (fun p => { p with crcErrors := latch p.crcErrors }) s := by
  unfold packetEnd
  cases goodCheckCode bs with
  | true => rfl
  | false => rfl

theorem portEvent_ports (l : Fin 8) (s : State) (e : LineEvent) :
    (portEvent l s e).ports = tweak s.ports l (fun p => p.event s.time e) ∧ (portEvent l s e).time = s.time := by
  cases e with
  | codingError => exact ⟨rfl, rfl⟩
  | discarded => exact ⟨(tweak_self s.ports l rfl).symm, rfl⟩
  | oversize => exact ⟨rfl, rfl⟩
  | wentUp => exact ⟨rfl, rfl⟩
  | wentDown => exact ⟨rfl, rfl⟩
  | complete bs =>
    show (packetEnd l bs s).ports = _ ∧ (packetEnd l bs s).time = _
    rw [packetEnd_cases]
    unfold Port.event
    by_cases good : goodCheckCode bs = true
    · simp only [if_pos good]
      have same := (tweak_self s.ports l (f := fun p => p) rfl).symm
      split
      · exact ⟨same, rfl⟩
      · exact ⟨same, rfl⟩
    · simp only [if_neg good]
      exact ⟨rfl, rfl⟩

theorem portEvents_ports (l : Fin 8) (es : List LineEvent) (s : State) :
    (es.foldl (portEvent l) s).ports = tweak s.ports l (fun p => es.foldl (Port.event s.time) p) := by
  induction es generalizing s with
  | nil => exact (tweak_self s.ports l rfl).symm
  | cons e es ih =>
    obtain ⟨ports, time⟩ := portEvent_ports l s e
    rw [List.foldl_cons, ih, ports, time]
    refine vector_ext fun j => ?_
    rw [tweak_get, tweak_get, tweak_get, tweak_get]
    by_cases own : j = l
    · simp only [if_pos own, if_true, List.foldl_cons]
    · simp only [if_neg own]

/-- The port that has heard, and the others as they were. -/
theorem portIs_step (b : State) (l : Fin 8) (x : Receiver × List LineEvent) (s : State) :
    PortIs l (s.ports[l].heard s.time x) s (settle b (portStep l x s)) := by
  have ports : (settle b (portStep l x s)).ports = tweak s.ports l (Port.heard s.time x) := by
    rw [settle_ports]
    unfold portStep
    rw [portEvents_ports, mapPort_ports, mapPort_time]
    refine vector_ext fun j => ?_
    rw [tweak_get, tweak_get, tweak_get, tweak_get]
    by_cases own : j = l
    · simp only [if_pos own, if_true]
      rfl
    · simp only [if_neg own]
  rw [PortIs, ports]
  refine ⟨?_, fun m other => ?_⟩
  · rw [tweak_get, if_pos rfl]
  · rw [tweak_get, if_neg other]

/-! ### What the events reach beside their port -/

/-- A port event that tells no one and raises nothing. -/
def LineEvent.silent : LineEvent → Bool
  | .complete _ => false
  | .wentDown => false
  | _ => true

theorem portEvent_silent {e : LineEvent} (h : e.silent = true) (l : Fin 8) (s : State) : OnlyChanges [.ports] s (portEvent l s e) := by
  cases e with
  | codingError => exact mapPort_only ..
  | discarded => exact .refl _ s
  | oversize => exact mapPort_only ..
  | wentUp => exact mapPort_only ..
  | complete bs => cases h
  | wentDown => cases h

/-- A step of a port whose events all keep to some parts of the state. -/
theorem portStep_all {q : LineEvent → Bool} {ps : List Part} {l : Fin 8}
    (each : ∀ (e : LineEvent) (u : State), q e = true → OnlyChanges ps u (portEvent l u e))
    (own : amongParts [.ports] ps = true) {x : Receiver × List LineEvent} (h : x.2.all q = true) (s : State) :
    OnlyChanges ps s (portStep l x s) := by
  have all : ∀ (es : List LineEvent) (u : State), es.all q = true → OnlyChanges ps u (es.foldl (portEvent l) u) := by
    intro es
    induction es with
    | nil => exact fun u _ => .refl _ u
    | cons e es ih =>
      intro u quiet
      obtain ⟨first, rest⟩ := Bool.and_eq_true_iff.1 quiet
      exact (each e u first).trans (ih _ rest)
  exact ((mapPort_only ..).among own).trans (all x.2 _ h)

theorem portStep_silent {x : Receiver × List LineEvent} (h : x.2.all LineEvent.silent = true) (l : Fin 8) (s : State) :
    OnlyChanges [.ports] s (portStep l x s) :=
  portStep_all (fun _ u silent => portEvent_silent silent l u) rfl h s

/-- A port event of a port that stays UP. -/
def LineEvent.staysUp : LineEvent → Bool
  | .wentDown => false
  | _ => true

theorem portEvent_staysUp {e : LineEvent} (h : e.staysUp = true) (l : Fin 8) (s : State) :
    OnlyChanges [.ports, .wires] s (portEvent l s e) := by
  cases e with
  | codingError => exact (mapPort_only ..).among rfl
  | discarded => exact .refl _ s
  | oversize => exact (mapPort_only ..).among rfl
  | wentUp => exact (mapPort_only ..).among rfl
  | complete bs => exact packetEnd_only l bs s
  | wentDown => cases h

theorem portStep_staysUp {x : Receiver × List LineEvent} (h : x.2.all LineEvent.staysUp = true) (l : Fin 8) (s : State) :
    OnlyChanges [.ports, .wires] s (portStep l x s) :=
  portStep_all (fun _ u up => portEvent_staysUp up l u) rfl h s

/-- A port event that is no complete packet. -/
def LineEvent.incomplete : LineEvent → Bool
  | .complete _ => false
  | _ => true

theorem portStep_incomplete {x : Receiver × List LineEvent} (h : x.2.all LineEvent.incomplete = true) (l : Fin 8) (s : State) :
    OnlyChanges [.ports, .attention] s (portStep l x s)
      ∧ ∀ c, attentionHas c (portStep l x s) = (attentionHas c s || (decide (c = .linkDown) && x.2.contains .wentDown)) := by
  have one : ∀ (e : LineEvent) (u : State), e.incomplete = true → OnlyChanges [.ports, .attention] u (portEvent l u e)
      ∧ ∀ c, attentionHas c (portEvent l u e) = (attentionHas c u || (decide (c = .linkDown) && (e == .wentDown))) := by
    intro e u open'
    cases e with
    | codingError => exact ⟨(mapPort_only ..).among rfl, fun c => by simp [portEvent, attentionHas]⟩
    | discarded => exact ⟨.refl _ u, fun c => by simp [portEvent]⟩
    | oversize => exact ⟨(mapPort_only ..).among rfl, fun c => by simp [portEvent, attentionHas]⟩
    | wentUp => exact ⟨(mapPort_only ..).among rfl, fun c => by simp [portEvent, attentionHas]⟩
    | wentDown =>
      refine ⟨((mapPort_only ..).andThen (raise_only ..)).among rfl, fun c => ?_⟩
      show attentionHas c (raise .linkDown _) = _
      rw [attentionHas_raise]
      simp [attentionHas]
    | complete bs => cases open'
  have all : ∀ (es : List LineEvent) (u : State), es.all LineEvent.incomplete = true →
      OnlyChanges [.ports, .attention] u (es.foldl (portEvent l) u)
        ∧ ∀ c, attentionHas c (es.foldl (portEvent l) u) = (attentionHas c u || (decide (c = .linkDown) && es.contains .wentDown)) := by
    intro es
    induction es with
    | nil => exact fun u _ => ⟨.refl _ u, fun c => by simp⟩
    | cons e es ih =>
      intro u quiet
      obtain ⟨first, rest⟩ := Bool.and_eq_true_iff.1 quiet
      obtain ⟨only, flag⟩ := one e u first
      obtain ⟨only', flag'⟩ := ih (portEvent l u e) rest
      refine ⟨only.trans only', fun c => ?_⟩
      rw [List.foldl_cons, flag', flag, List.contains_cons, Bool.beq_comm, Bool.or_assoc, Bool.and_or_distrib_left]
  obtain ⟨only, flag⟩ := all x.2 (mapPort l (fun p => { p with rx := x.1 }) s) h
  exact ⟨((mapPort_only ..).among rfl : OnlyChanges [.ports, .attention] s _).trans only, flag⟩

/-! ### Alignment (R1 to R3, R5) -/

theorem goodSync_iff (sync : BitVec 2) : goodSync sync = true ↔ sync = 1 ∨ sync = 2 := by
  simp [goodSync]

theorem sensorBlock_held {s : State} (h : s.run.initialising = true) (l : Fin 8) (sync : BitVec 2) (payload : BitVec 64) :
    exec (.sensorBlock l sync payload) s = .next s := if_pos h

theorem sensorBlock_taken {s : State} (h : s.run.initialising = false) (l : Fin 8) (sync : BitVec 2) (payload : BitVec 64) :
    exec (.sensorBlock l sync payload) s = .next (settle s (portStep l (s.ports[l].rx.take sync payload) s)) :=
  if_neg (by simp [h])

theorem take_down {r : Receiver} (h : r.link = .down) (sync : BitVec 2) (payload : BitVec 64) : r.take sync payload = r.hunt sync := by
  unfold Receiver.take
  rw [h]

theorem take_bad {r : Receiver} (h : r.link = .up) {sync : BitVec 2} (bad : ¬ (sync = 1 ∨ sync = 2)) (payload : BitVec 64) :
    r.take sync payload = r.badSyncWord := by
  unfold Receiver.take
  rw [h]
  exact if_neg (mt (goodSync_iff sync).1 bad)

theorem take_good {r : Receiver} (h : r.link = .up) {sync : BitVec 2} (good : sync = 1 ∨ sync = 2) (payload : BitVec 64) :
    r.take sync payload = { r with badSync := 0 }.follow (blockKind sync payload) payload := by
  unfold Receiver.take
  rw [h]
  exact if_pos ((goodSync_iff sync).2 good)

theorem hunt_silent (sync : BitVec 2) (r : Receiver) : (r.hunt sync).2.all LineEvent.silent = true := by
  unfold Receiver.hunt
  split
  · rfl
  · split
    · split <;> rfl
    · rfl

theorem hunt_lost {r : Receiver} (h : r.signal = false) (sync : BitVec 2) : r.hunt sync = ({ r with goodRun := 0 }, []) := by
  unfold Receiver.hunt
  rw [h]
  rfl

theorem hunt_bad {r : Receiver} (h : r.signal = true) {sync : BitVec 2} (bad : ¬ (sync = 1 ∨ sync = 2)) :
    r.hunt sync = ({ r with goodRun := 0, boundary := r.boundary + 1 }, []) := by
  unfold Receiver.hunt
  rw [h]
  exact if_neg (mt (goodSync_iff sync).1 bad)

theorem hunt_good {r : Receiver} (h : r.signal = true) {sync : BitVec 2} (good : sync = 1 ∨ sync = 2) :
    r.hunt sync = if 64 ≤ r.goodRun + 1 then ({ r.enter .discarding with link := .up, badSync := 0, goodRun := 0 }, [.wentUp])
      else ({ r with goodRun := r.goodRun + 1 }, []) := by
  unfold Receiver.hunt
  rw [h]
  exact if_pos ((goodSync_iff sync).2 good)

theorem dropEvent_silent (r : Receiver) : r.dropEvent.all LineEvent.silent = true ∧ r.dropEvent.all LineEvent.incomplete = true
    ∧ r.dropEvent.contains .wentDown = false := by
  unfold Receiver.dropEvent
  split <;> exact ⟨rfl, rfl, rfl⟩

theorem heard_dropEvent (now : Time) (r : Receiver) (es : List LineEvent) (p : Port) :
    (r.dropEvent ++ es).foldl (Port.event now) p = es.foldl (Port.event now) p := by
  unfold Receiver.dropEvent
  split <;> rfl

theorem badSyncWord_early {r : Receiver} (h : r.badSync < 15) :
    r.badSyncWord = ({ r with
        badSync := r.badSync + 1
        reception := if r.reception = .inPacket then .discarding else r.reception
        packet := if r.reception = .inPacket then [] else r.packet }, [.codingError] ++ r.dropEvent) := by
  unfold Receiver.badSyncWord
  rw [if_neg (show ¬ Config.badSyncLimit ≤ r.badSync + 1 from fun late => by
    have : (16 : Nat) ≤ r.badSync + 1 := late
    omega)]
  split <;> rfl

theorem badSyncWord_late {r : Receiver} (h : 15 ≤ r.badSync) :
    r.badSyncWord = ({ r with
        link := .down, badSync := r.badSync + 1, goodRun := 0, reception := .discarding, packet := [] },
        [.codingError] ++ r.dropEvent ++ [.wentDown]) := by
  unfold Receiver.badSyncWord
  rw [if_pos (show Config.badSyncLimit ≤ r.badSync + 1 from Nat.succ_le_succ h)]
  split <;> rfl

theorem badSyncWord_incomplete (r : Receiver) : r.badSyncWord.2.all LineEvent.incomplete = true := by
  have drop := (dropEvent_silent r).2.1
  obtain early | late := Nat.lt_or_ge r.badSync 15
  · rw [badSyncWord_early early, List.all_append, drop]
    rfl
  · rw [badSyncWord_late late, List.all_append, List.all_append, drop]
    rfl

theorem loseSignal_down {r : Receiver} (h : r.link = .down) : r.loseSignal = ({ r with signal := false, goodRun := 0 }, []) := by
  unfold Receiver.loseSignal
  rw [h]

theorem loseSignal_up {r : Receiver} (h : r.link = .up) :
    r.loseSignal = ({ r with signal := false, link := .down, goodRun := 0, reception := .discarding, packet := [] },
      r.dropEvent ++ [.wentDown]) := by
  unfold Receiver.loseSignal
  rw [h]
  rfl

theorem heard_codingDrop (now : Time) (x : Receiver) (r : Receiver) (es : List LineEvent) (p : Port) :
    p.heard now (x, [.codingError] ++ r.dropEvent ++ es)
      = es.foldl (Port.event now) { p with rx := x, codingErrors := latch p.codingErrors } := by
  unfold Port.heard
  rw [List.append_assoc, List.foldl_append, heard_dropEvent]
  rfl

theorem wentDown_flag {s : State} {l : Fin 8} {x : Receiver × List LineEvent} (open' : x.2.all LineEvent.incomplete = true)
    (down : x.2.contains .wentDown = true) (b : State) :
    attentionHas .linkDown (settle b (portStep l x s)) = true
      ∧ ∀ c, c ≠ .linkDown → attentionHas c (settle b (portStep l x s)) = attentionHas c s := by
  obtain ⟨_, flag⟩ := portStep_incomplete open' l s
  refine ⟨?_, fun c other => ?_⟩
  · rw [attentionHas_settle, flag, down]
    simp
  · rw [attentionHas_settle, flag]
    simp [other]

theorem silent_attention {s : State} {l : Fin 8} {x : Receiver × List LineEvent} (silent : x.2.all LineEvent.silent = true) (b : State) :
    (settle b (portStep l x s)).page.attention = s.page.attention := by
  rw [settle_page_attention]
  exact (portStep_silent silent l s).same .attention (by decide)

/-! ### The signal detector of a mirror link (R145) -/

theorem mirrorStep_loss (l : Fin 4) (s : State) :
    mirrorStep l s.cou.links[l].rx.loseSignal s
      = mapLink l (fun x => { x with
          rx := s.cou.links[l].rx.loseSignal.1
          counts := { x.counts with
            bad := if s.cou.links[l].rx.link = .up ∧ s.cou.links[l].rx.reception = .inPacket then x.counts.bad + 1
              else x.counts.bad } }) s := by
  generalize s.cou.links[l].rx = r
  cases h : r.link with
  | down =>
    rw [loseSignal_down h]
    simp only [if_neg (show ¬ (LinkState.down = .up ∧ r.reception = .inPacket) from fun d => nomatch d.1)]
    rfl
  | up =>
    rw [loseSignal_up h]
    by_cases inside : r.reception = .inPacket
    · have drop : r.dropEvent = [.discarded] := if_pos inside
      simp only [drop, inside, and_self, if_true]
      exact congrArg (fun ls => withLinks ls s) (tweak_tweak ..)
    · have drop : r.dropEvent = [] := if_neg inside
      simp only [drop, inside, and_false, if_false]
      rfl

/-- Settles O18: each case of `Receiver.take` and `loseSignal`, heard by the port. -/
theorem sensorPortAlignment : Obligations.SensorPortAlignment := by
  refine ⟨fun l sync payload s => ?_, fun l s => ?_, fun l s => ?_⟩
  · intro p good
    refine ⟨fun held => sensorBlock_held held l sync payload, fun running down => ?_, fun running up bad => ?_⟩
    · refine ⟨_, sensorBlock_taken running l sync payload, ?_⟩
      have is := portIs_step s l (p.rx.hunt sync) s
      rw [take_down down]
      refine ⟨(portStep_silent (hunt_silent sync p.rx) l s).settle s, fun lost => ?_, fun signal ok early => ?_, fun signal ok late => ?_,
        fun signal bad => ?_⟩
      · rw [hunt_lost lost] at is ⊢
        exact is
      · rw [hunt_good signal ok, if_neg (by omega)] at is ⊢
        exact is
      · rw [hunt_good signal ok, if_pos (by omega)] at is ⊢
        exact is
      · rw [hunt_bad signal bad] at is ⊢
        exact is
    · refine ⟨_, sensorBlock_taken running l sync payload, ?_⟩
      have is := portIs_step s l p.rx.badSyncWord s
      have open' := badSyncWord_incomplete p.rx
      rw [take_bad up bad]
      refine ⟨(portStep_incomplete open' l s).1.settle s, fun early => ?_, fun late => ?_⟩
      · have silent : p.rx.badSyncWord.2.all LineEvent.silent = true := by
          rw [badSyncWord_early early, List.all_append, (dropEvent_silent p.rx).1]
          rfl
        refine ⟨silent_attention silent s, ?_⟩
        have heard := heard_codingDrop s.time p.rx.badSyncWord.1 p.rx [] p
        rw [List.append_nil] at heard
        rw [badSyncWord_early early] at is heard ⊢
        exact ⟨is.1.trans heard, is.2⟩
      · have down : p.rx.badSyncWord.2.contains .wentDown = true := by
          rw [badSyncWord_late late]
          simp
        obtain ⟨flag, others⟩ := wentDown_flag (l := l) open' down s (s := s)
        refine ⟨flag, others, ?_⟩
        rw [badSyncWord_late late, heard_codingDrop] at is
        rw [badSyncWord_late late]
        exact is
  · intro p
    refine ⟨⟨_, rfl, (mapPort_only ..).settle s, ?_⟩, _, rfl, ?_, fun down => ?_, fun up => ?_⟩
    · rw [PortIs, settle_ports, mapPort_ports]
      exact ⟨(tweak_get ..).trans (if_pos rfl), fun m other => (tweak_get ..).trans (if_neg other)⟩
    · have open' : p.rx.loseSignal.2.all LineEvent.incomplete = true := by
        cases h : p.rx.link with
        | down => rw [loseSignal_down h]; rfl
        | up => rw [loseSignal_up h, List.all_append, (dropEvent_silent p.rx).2.1]; rfl
      exact (portStep_incomplete open' l s).1.settle s
    · have is := portIs_step s l p.rx.loseSignal s
      rw [loseSignal_down down] at is ⊢
      exact ⟨silent_attention rfl s, is⟩
    · have is := portIs_step s l p.rx.loseSignal s
      have open' : p.rx.loseSignal.2.all LineEvent.incomplete = true := by
        rw [loseSignal_up up, List.all_append, (dropEvent_silent p.rx).2.1]
        rfl
      have down : p.rx.loseSignal.2.contains .wentDown = true := by
        rw [loseSignal_up up]
        simp
      obtain ⟨flag, others⟩ := wentDown_flag (l := l) open' down s (s := s)
      refine ⟨flag, others, ?_⟩
      rw [loseSignal_up up, Port.heard, heard_dropEvent] at is
      rw [loseSignal_up up]
      exact is
  · intro x
    refine ⟨⟨_, rfl, (mapLink_only ..).settle s, settle_cou ..⟩, _, rfl, ?_⟩
    rw [mirrorStep_loss, settle_cou]
    refine ⟨(mapLink_only ..).settle s, fun m other => ?_, fun down => ?_, fun up => ?_⟩
    · rw [mapLink_link, if_neg other]
    · rw [mapLink_link, if_pos rfl]
      have down' : s.cou.links[l].rx.link = .down := down
      have noBad : ¬ (s.cou.links[l].rx.link = .up ∧ s.cou.links[l].rx.reception = .inPacket) := fun h => by
        rw [down'] at h
        cases h.1
      rw [loseSignal_down down', if_neg noBad]
    · rw [mapLink_link, if_pos rfl]
      have up' : s.cou.links[l].rx.link = .up := up
      rw [loseSignal_up up', up']
      simp only [true_and]
      rfl

/-! ### Reception (R4 to R6) -/

theorem payloadBytes_length (payload : BitVec 64) : (payloadBytes payload).length = 8 := by
  simp [payloadBytes]

theorem blockKind_data (payload : BitVec 64) : blockKind 1 payload = .data := rfl

/-- The kind of a block with sync word 2, by its type byte (12.2). -/
theorem blockKind_control (payload : BitVec 64) :
    let type := (payload.extractLsb' 0 8).toNat
    (type = 16 → blockKind 2 payload = .idle) ∧ (type = 32 → blockKind 2 payload = .start)
      ∧ (48 ≤ type → type ≤ 55 → blockKind 2 payload = .terminate (type - 48))
      ∧ (type ≠ 16 → type ≠ 32 → ¬ (48 ≤ type ∧ type ≤ 55) → blockKind 2 payload = .unknown) := by
  intro type
  have kind : blockKind 2 payload = if type = 16 then .idle else if type = 32 then .start
      else if 48 ≤ type ∧ type ≤ 55 then .terminate (type - 48) else .unknown := rfl
  rw [kind]
  refine ⟨fun h => if_pos h, fun h => ?_, fun low high => ?_, fun idle start terminate => ?_⟩
  · rw [if_neg (by omega), if_pos h]
  · rw [if_neg (by omega), if_neg (by omega), if_pos ⟨low, high⟩]
  · rw [if_neg idle, if_neg start, if_neg terminate]

theorem collect_within {r : Receiver} {bs : List Byte} (h : (r.packet ++ bs).length ≤ 2032) :
    r.collect bs = ({ r with packet := r.packet ++ bs }, []) := if_neg (Nat.not_lt.2 h)

theorem collect_over {r : Receiver} {bs : List Byte} (h : 2032 < (r.packet ++ bs).length) :
    r.collect bs = (r.enter .discarding, [.oversize, .discarded]) := if_pos h

theorem close_within {r : Receiver} {bs : List Byte} (h : (r.packet ++ bs).length ≤ 2032) :
    r.close bs = (r.enter .between, [.complete (r.packet ++ bs)]) := if_neg (Nat.not_lt.2 h)

theorem close_over {r : Receiver} {bs : List Byte} (h : 2032 < (r.packet ++ bs).length) :
    r.close bs = (r.enter .between, [.oversize, .discarded]) := if_pos h

/-- A port that is UP after a block with a valid sync word. -/
def Port.follows (now : Time) (kind : BlockKind) (payload : BitVec 64) (p : Port) : Port :=
  p.heard now ({ p.rx with badSync := 0 }.follow kind payload)

theorem follows_start (now : Time) (payload : BitVec 64) (p : Port) :
    p.follows now .start payload = p.after .inPacket ((payloadBytes payload).drop 1) (p.rx.reception = .inPacket) := by
  obtain ⟨⟨_, reception, _, _, _, _, _⟩, _, _, _, _, _⟩ := p
  cases reception <;> rfl

theorem follows_idle (now : Time) (payload : BitVec 64) (p : Port) :
    p.follows now .idle payload = p.after .between [] (p.rx.reception = .inPacket) := by
  obtain ⟨⟨_, reception, _, _, _, _, _⟩, _, _, _, _, _⟩ := p
  cases reception <;> rfl

theorem follow_data {r : Receiver} (h : r.reception = .inPacket) (payload : BitVec 64) :
    r.follow .data payload = r.collect (payloadBytes payload) := by
  unfold Receiver.follow
  rw [h]

theorem follow_terminate {r : Receiver} (h : r.reception = .inPacket) (k : Nat) (payload : BitVec 64) :
    r.follow (.terminate k) payload = r.close (((payloadBytes payload).drop 1).take k) := by
  unfold Receiver.follow
  rw [h]

theorem follow_staysUp (kind : BlockKind) (payload : BitVec 64) (r : Receiver) :
    (r.follow kind payload).2.all LineEvent.staysUp = true := by
  unfold Receiver.follow
  split
  case h_4 => unfold Receiver.collect; split <;> rfl
  case h_9 => unfold Receiver.close; split <;> rfl
  all_goals rfl

theorem follow_silent {kind : BlockKind} {r : Receiver} (h : ∀ k, kind = .terminate k → r.reception ≠ .inPacket) (payload : BitVec 64) :
    (r.follow kind payload).2.all LineEvent.silent = true := by
  unfold Receiver.follow
  split
  case h_4 => unfold Receiver.collect; split <;> rfl
  case h_9 inside => exact absurd inside (h _ rfl)
  all_goals rfl

section
variable {p : Port} (now : Time) (payload : BitVec 64)

theorem follows_data_between (h : p.rx.reception = .between) : p.follows now .data payload = p.after .discarding [] true := by
  obtain ⟨⟨_, reception, _, _, _, _, _⟩, _, _, _, _, _⟩ := p
  cases h
  rfl

theorem follows_data_discarding (h : p.rx.reception = .discarding) :
    p.follows now .data payload = p.after .discarding p.rx.packet false := by
  obtain ⟨⟨_, reception, _, _, _, _, _⟩, _, _, _, _, _⟩ := p
  cases h
  rfl

theorem follows_data_within (h : p.rx.reception = .inPacket) (within : p.rx.packet.length + 8 ≤ 2032) :
    p.follows now .data payload = p.after .inPacket (p.rx.packet ++ payloadBytes payload) false := by
  rw [Port.follows, follow_data (r := { p.rx with badSync := 0 }) h, collect_within (by rw [List.length_append, payloadBytes_length]; exact within)]
  obtain ⟨⟨_, reception, _, _, _, _, _⟩, _, _, _, _, _⟩ := p
  cases h
  rfl

theorem follows_data_over (h : p.rx.reception = .inPacket) (over' : 2032 < p.rx.packet.length + 8) :
    p.follows now .data payload = { p.after .discarding [] false with oversize := latch p.oversize } := by
  rw [Port.follows, follow_data (r := { p.rx with badSync := 0 }) h, collect_over (by rw [List.length_append, payloadBytes_length]; exact over')]
  rfl

theorem follows_terminate_between (h : p.rx.reception = .between) (k : Nat) :
    p.follows now (.terminate k) payload = p.after .between p.rx.packet true := by
  obtain ⟨⟨_, reception, _, _, _, _, _⟩, _, _, _, _, _⟩ := p
  cases h
  rfl

theorem follows_terminate_discarding (h : p.rx.reception = .discarding) (k : Nat) :
    p.follows now (.terminate k) payload = p.after .between [] false := by
  obtain ⟨⟨_, reception, _, _, _, _, _⟩, _, _, _, _, _⟩ := p
  cases h
  rfl

theorem follows_unknown_open (h : p.rx.reception = .inPacket) : p.follows now .unknown payload = p.after .discarding [] true := by
  obtain ⟨⟨_, reception, _, _, _, _, _⟩, _, _, _, _, _⟩ := p
  cases h
  rfl

theorem follows_unknown_closed (h : p.rx.reception ≠ .inPacket) :
    p.follows now .unknown payload = p.after p.rx.reception p.rx.packet true := by
  obtain ⟨⟨_, reception, _, _, _, _, _⟩, _, _, _, _, _⟩ := p
  cases reception with
  | inPacket => exact absurd rfl h
  | between => rfl
  | discarding => rfl

end

theorem tail_length (payload : BitVec 64) {k : Nat} (h : k ≤ 7) : (((payloadBytes payload).drop 1).take k).length = k := by
  rw [List.length_take, List.length_drop, payloadBytes_length]
  omega

/-- Settles O19: the table of R4 by the kind of the block (`Port.follows`). -/
theorem sensorPortReception : Obligations.SensorPortReception := by
  intro l sync payload s p type bytes oversized running up good
  have step : exec (.sensorBlock l sync payload) s
      = .next (settle s (portStep l ({ p.rx with badSync := 0 }.follow (blockKind sync payload) payload) s)) := by
    rw [sensorBlock_taken running, take_good up good]
  refine ⟨_, step, ?_⟩
  have is : PortIs l (p.follows s.time (blockKind sync payload) payload) s _ := portIs_step s l _ s
  obtain ⟨idle, start, terminate, unknown⟩ := blockKind_control payload
  refine ⟨(portStep_staysUp (follow_staysUp ..) l s).settle s, fun other => ?_, ?_, ?_, ?_, ?_, ?_, ?_, ?_, ?_, ?_, ?_, ?_⟩
  · have silent : ({ p.rx with badSync := 0 }.follow (blockKind sync payload) payload).2.all LineEvent.silent = true := by
      refine follow_silent (fun k ends inside => other ?_) payload
      obtain rfl | rfl := good
      · rw [blockKind_data] at ends
        cases ends
      · refine ⟨rfl, ?_⟩
        by_cases low : 48 ≤ type ∧ type ≤ 55
        · exact ⟨low.1, low.2, inside⟩
        · by_cases isIdle : type = 16
          · rw [idle isIdle] at ends; cases ends
          · by_cases isStart : type = 32
            · rw [start isStart] at ends; cases ends
            · rw [unknown isIdle isStart low] at ends; cases ends
    rw [settle_wires]
    exact (portStep_silent silent l s).same .wires (by decide)
  · rintro rfl opens
    rw [start opens] at is ⊢
    exact ⟨is.1.trans (follows_start ..), is.2⟩
  · rintro rfl between
    exact ⟨is.1.trans (follows_data_between _ _ between), is.2⟩
  · rintro rfl inside within
    exact ⟨is.1.trans (follows_data_within _ _ inside within), is.2⟩
  · rintro rfl inside over'
    exact ⟨is.1.trans (follows_data_over _ _ inside over'), is.2⟩
  · rintro rfl discarding
    exact ⟨is.1.trans (follows_data_discarding _ _ discarding), is.2⟩
  · rintro rfl isIdle
    rw [idle isIdle] at is ⊢
    exact ⟨is.1.trans (follows_idle ..), is.2⟩
  · rintro rfl low high between
    rw [terminate low high] at is ⊢
    exact ⟨is.1.trans (follows_terminate_between _ _ between _), is.2⟩
  · rintro rfl low high discarding
    rw [terminate low high] at is ⊢
    exact ⟨is.1.trans (follows_terminate_discarding _ _ discarding _), is.2⟩
  · rintro rfl low high inside over'
    have closes : { p.rx with badSync := 0 }.follow (blockKind 2 payload) payload
        = ({ p.rx with badSync := 0 }.enter .between, [.oversize, .discarded]) := by
      rw [terminate low high, follow_terminate (r := { p.rx with badSync := 0 }) inside, close_over]
      rw [List.length_append, tail_length payload (by omega)]
      exact over'
    rw [Port.follows, closes] at is
    rw [closes]
    refine ⟨is, ?_⟩
    rw [settle_wires]
    exact (portStep_silent (x := (_, [.oversize, .discarded])) rfl l s).same .wires (by decide)
  · rintro rfl notIdle notStart notEnd inside
    rw [unknown notIdle notStart notEnd] at is ⊢
    exact ⟨is.1.trans (follows_unknown_open _ _ inside), is.2⟩
  · rintro rfl notIdle notStart notEnd outside
    rw [unknown notIdle notStart notEnd] at is ⊢
    exact ⟨is.1.trans (follows_unknown_closed _ _ outside), is.2⟩

/-! ### The end of a packet (R7 to R15) -/

theorem latch_toNat (c : BitVec 16) : (latch c).toNat = min 65535 (c.toNat + 1) := by
  unfold latch
  by_cases full : c = BitVec.allOnes 16
  · rw [if_pos full, full]
    rfl
  · have below : c.toNat ≠ 65535 := fun h => full (BitVec.eq_of_toNat_eq (by simpa using h))
    have bound := c.isLt
    rw [if_neg full, BitVec.toNat_add, show (1 : BitVec 16).toNat = 1 from rfl]
    omega

theorem goodCheckCode_iff {bs : List Byte} (h : 4 ≤ bs.length) :
    goodCheckCode bs = true ↔ leNat (bs.drop (bs.length - 4)) = (crc32 (bs.take (bs.length - 4))).toNat := by
  simp [goodCheckCode, h]

theorem handOn_wires (l : Fin 8) (bs : List Byte) (s : State) :
    (handOn l bs s).wires = { s.wires with
      arrivals := s.wires.arrivals ++ [{ link := l, time := s.time, bytes := bs, kind := classify bs }] } := rfl

/-- The bytes of a little-endian number lie below its range. -/
theorem leNat_lt (bs : List Byte) : leNat bs < 256 ^ bs.length := by
  induction bs with
  | nil => decide
  | cons b bs ih =>
    have bound := b.isLt
    rw [leNat, List.length_cons, Nat.pow_succ]
    omega

theorem field_lt (bs : List Byte) (o n : Nat) : field bs o n < 256 ^ n := by
  have short : ((bs.drop o).take n).length ≤ n := by
    rw [List.length_take]
    omega
  exact Nat.lt_of_lt_of_le (leNat_lt _) (Nat.pow_le_pow_right (by decide) short)

theorem int16s_length (n : Nat) (bs : List Byte) : (int16s n bs).length = n := by
  induction n generalizing bs with
  | zero => rfl
  | succ n ih => rw [int16s, List.length_cons, ih]

theorem int16s_get {n k : Nat} (h : k < n) (bs : List Byte) :
    (int16s n bs)[k]? = some (signed 16 (leNat ((bs.drop (2 * k)).take 2))) := by
  induction n generalizing bs k with
  | zero => omega
  | succ n ih =>
    cases k with
    | zero => rfl
    | succ k =>
      rw [int16s, List.getElem?_cons_succ, ih (by omega), List.drop_drop, show 2 + 2 * k = 2 * (k + 1) by omega]

theorem goodShape_iff (bs : List Byte) :
    goodShape bs = true ↔ 16 ≤ bs.length ∧ 1 ≤ field bs 8 2 ∧ field bs 8 2 ≤ 512 ∧ bs.length = 16 + 2 * field bs 8 2 := by
  simp only [goodShape, Bool.and_eq_true, decide_eq_true_eq, beq_iff_eq, and_assoc]

/-- The fields of a segment as they stand in its bytes (12.2). -/
theorem parseSegment_fields (bs : List Byte) :
    (parseSegment bs).tag = leNat (bs.take 2) % 4096
      ∧ (parseSegment bs).frame.toNat = leNat ((bs.drop 2).take 2) ∧ (parseSegment bs).index = leNat ((bs.drop 4).take 1)
      ∧ (parseSegment bs).count = leNat ((bs.drop 5).take 1) ∧ (parseSegment bs).first = leNat ((bs.drop 6).take 2)
      ∧ (parseSegment bs).invalid = (leNat ((bs.drop 10).take 2)).testBit 0
      ∧ (parseSegment bs).slopes.length = field bs 8 2
      ∧ ∀ k, k < field bs 8 2 → (parseSegment bs).slopes[k]? = some (signed 16 (leNat ((bs.drop (12 + 2 * k)).take 2))) := by
  refine ⟨rfl, ?_, rfl, rfl, rfl, ?_, int16s_length .., fun k hk => ?_⟩
  · have bound := field_lt bs 2 2
    show (BitVec.ofNat 16 (field bs 2 2)).toNat = field bs 2 2
    rw [BitVec.toNat_ofNat, Nat.mod_eq_of_lt (by simpa using bound)]
  · show (field bs 10 1 % 2 == 1) = (field bs 10 2).testBit 0
    rw [Nat.testBit_zero, field_succ bs 10 1, field_succ bs 10 0, field_zero]
    rw [show ((bs.getD 10 0).toNat + 256 * field bs (10 + 1) 1) % 2 = ((bs.getD 10 0).toNat + 256 * 0) % 2 by omega]
    exact beq_eq_decide ..
  · exact (int16s_get hk _).trans (by rw [List.drop_drop])

/-- A step of a port at which a packet ends whole. -/
theorem portStep_complete (l : Fin 8) (r : Receiver) (bs : List Byte) (s : State) :
    (portStep l (r, [.complete bs]) s).wires
      = if goodCheckCode bs = true ∧ packetTag bs ≠ 0 then
          { s.wires with arrivals := s.wires.arrivals ++ [{ link := l, time := s.time, bytes := bs, kind := classify bs }] }
        else s.wires := by
  show (packetEnd l bs (mapPort l _ s)).wires = _
  rw [packetEnd_cases]
  by_cases good : goodCheckCode bs = true
  · by_cases filler : packetTag bs = 0
    · rw [if_pos good, if_pos filler, if_neg fun h => h.2 filler, mapPort_wires]
    · rw [if_pos good, if_neg filler, if_pos ⟨good, filler⟩, handOn_wires, mapPort_wires, mapPort_time]
  · rw [if_neg good, if_neg fun h => good h.1, mapPort_wires, mapPort_wires]

/-- Settles O20: a packet that ends whole is heard as `LineEvent.complete`, and `classify` reads its fields. -/
theorem packetEndChecks : Obligations.PacketEndChecks := by
  refine ⟨fun l payload s => ?_, fun bs => ?_⟩
  · intro p type all bad tag running up low high inside long within
    obtain ⟨_, _, terminate, _⟩ := blockKind_control payload
    have closes : { p.rx with badSync := 0 }.follow (blockKind 2 payload) payload
        = ({ p.rx with badSync := 0 }.enter .between, [.complete all]) := by
      rw [terminate low high, follow_terminate (r := { p.rx with badSync := 0 }) inside]
      exact close_within within
    have step : exec (.sensorBlock l 2 payload) s
        = .next (settle s (portStep l ({ p.rx with badSync := 0 }.enter .between, [.complete all]) s)) := by
      rw [sensorBlock_taken running, take_good up (.inr rfl), closes]
    have is := portIs_step s l ({ p.rx with badSync := 0 }.enter .between, [.complete all]) s
    have wires := portStep_complete l ({ p.rx with badSync := 0 }.enter .between) all s
    have check : goodCheckCode all = true ↔ ¬ bad := by
      rw [goodCheckCode_iff (by omega)]
      exact (not_not (a := _ = _)).symm
    have heard : s.ports[l].heard s.time ({ p.rx with badSync := 0 }.enter .between, [.complete all])
        = if goodCheckCode all = true then p.after .between [] false
          else { p.after .between [] false with crcErrors := latch p.crcErrors } := rfl
    rw [heard] at is
    refine ⟨_, step, (portStep_staysUp (x := (_, [.complete all])) rfl l s).settle s, fun isBad => ?_, fun good => ?_,
      fun good filler => ?_, fun good other => ?_, latch_toNat⟩
    · have wrong : ¬ goodCheckCode all = true := fun h => check.1 h isBad
      rw [if_neg wrong] at is
      exact ⟨is, (settle_wires ..).trans (wires.trans (if_neg fun h => wrong h.1))⟩
    · rw [if_pos (check.2 good)] at is
      exact is
    · exact (settle_wires ..).trans (wires.trans (if_neg fun h => h.2 filler))
    · exact (settle_wires ..).trans (wires.trans (if_pos ⟨check.2 good, other⟩))
  · intro kind n shape
    have shaped : goodShape bs = true ↔ shape := goodShape_iff bs
    refine ⟨fun other => if_neg other, fun segment misshapen => ?_, fun segment good => ⟨parseSegment bs, ?_, parseSegment_fields bs⟩⟩
    · exact (if_pos segment).trans (if_neg (mt shaped.1 misshapen))
    · exact (if_pos segment).trans (if_pos (shaped.2 good))

end Sys2Proof.Machine
/-!
Packets on a line: what a transmitter sends is received whole, and what a sensor or a drive sends is read as it was sent (R4, R9, R11,
R145, R179, R180, 12.2).
-/
namespace Sys2Proof.Machine

/-! ### The bytes of a block -/

/-- A byte of a little-endian number. -/
theorem leNat_byte (bs : List Byte) (k : Nat) : leNat bs / 256 ^ k % 256 = (bs.getD k 0).toNat := by
  induction bs generalizing k with
  | nil =>
    show 0 / 256 ^ k % 256 = _
    rw [Nat.zero_div]
    rfl
  | cons b bs ih =>
    have bound := b.isLt
    cases k with
    | zero =>
      show (b.toNat + 256 * leNat bs) / 1 % 256 = b.toNat
      omega
    | succ k =>
      have whole : (b.toNat + 256 * leNat bs) / 256 = leNat bs := by omega
      rw [leNat, Nat.pow_succ, Nat.mul_comm (256 ^ k), ← Nat.div_div_eq_div_mul, whole, ih, List.getD_cons_succ]

/-- The eight bytes of a block that carries some bytes. -/
theorem payloadBytes_ofBytes {bs : List Byte} (h : bs.length ≤ 8) :
    payloadBytes (BitVec.ofNat 64 (leNat bs)) = bs ++ zeros (8 - bs.length) := by
  have small : leNat bs < 2 ^ 64 := by
    have bound := leNat_lt bs
    have top : 256 ^ bs.length ≤ 256 ^ 8 := Nat.pow_le_pow_right (by decide) h
    omega
  refine List.ext_getElem ?_ fun k hk hk' => ?_
  · rw [payloadBytes_length, List.length_append, zeros_length]
    omega
  · rw [payloadBytes_length] at hk
    have right : (bs ++ zeros (8 - bs.length))[k] = bs.getD k 0 := by
      obtain inside | outside := Nat.lt_or_ge k bs.length
      · rw [List.getElem_append_left inside, List.getD_eq_getElem bs 0 inside]
      · rw [List.getElem_append_right outside, List.getD_eq_default bs 0 outside]
        exact List.getElem_replicate ..
    have left : (payloadBytes (BitVec.ofNat 64 (leNat bs)))[k]'(by rw [payloadBytes_length]; exact hk)
        = (BitVec.ofNat 64 (leNat bs)).extractLsb' (8 * k) 8 := by
      simp [payloadBytes]
    rw [left, right]
    refine BitVec.eq_of_toNat_eq ?_
    rw [BitVec.extractLsb'_toNat, BitVec.toNat_ofNat, Nat.mod_eq_of_lt small, Nat.shiftRight_eq_div_pow, Nat.pow_mul]
    exact leNat_byte bs k

/-- The type byte of a block is its first. -/
theorem payload_type {payload : BitVec 64} {b : Byte} {rest : List Byte} (h : payloadBytes payload = b :: rest) :
    payload.extractLsb' 0 8 = b := (List.cons.inj h).1

theorem block_bytes (sync : BitVec 2) {bs : List Byte} (h : bs.length ≤ 8) :
    (block sync bs).1 = sync ∧ payloadBytes (block sync bs).2 = bs ++ zeros (8 - bs.length) := by
  refine ⟨rfl, ?_⟩
  show payloadBytes (BitVec.ofNat 64 (leNat (bs.take 8))) = _
  rw [List.take_of_length_le h]
  exact payloadBytes_ofBytes h

/-! ### A packet received block by block (R4, R180) -/

/-- An UP receiver in a packet, with the bytes it has. -/
def Receiver.holding (r : Receiver) (bs : List Byte) : Receiver := { r with badSync := 0, reception := .inPacket, packet := bs }

theorem follow_start {r : Receiver} (closed : r.reception ≠ .inPacket) (payload : BitVec 64) :
    r.follow .start payload = (r.openPacket payload, []) := by
  unfold Receiver.follow
  cases h : r.reception with
  | inPacket => exact absurd h closed
  | between => rfl
  | discarding => rfl

theorem take_start {r : Receiver} (up : r.link = .up) (closed : r.reception ≠ .inPacket) {bs : List Byte} (long : 7 ≤ bs.length) :
    r.take (block 2 (0x20 :: bs.take 7)).1 (block 2 (0x20 :: bs.take 7)).2 = (r.holding (bs.take 7), []) := by
  have whole : (0x20 :: bs.take 7 : List Byte).length = 8 := by
    rw [List.length_cons, List.length_take]
    omega
  obtain ⟨sync, bytes⟩ := block_bytes 2 (bs := 0x20 :: bs.take 7) (by omega)
  rw [whole] at bytes
  have bytes' : payloadBytes (block 2 (0x20 :: bs.take 7)).2 = 0x20 :: bs.take 7 := bytes.trans (List.append_nil _)
  have kind := (blockKind_control (block 2 (0x20 :: bs.take 7)).2).2.1 (by rw [payload_type bytes']; rfl)
  rw [sync, take_good up (.inr rfl), kind, follow_start (r := { r with badSync := 0 }) closed, Receiver.openPacket, bytes']
  rfl

theorem take_data {r : Receiver} (up : r.link = .up) {acc bs : List Byte} (whole : bs.length = 8) (room : acc.length + 8 ≤ 2032) :
    (r.holding acc).take (block 1 bs).1 (block 1 bs).2 = (r.holding (acc ++ bs), []) := by
  obtain ⟨sync, bytes⟩ := block_bytes 1 (bs := bs) (by omega)
  rw [whole] at bytes
  have bytes' : payloadBytes (block 1 bs).2 = bs := bytes.trans (List.append_nil _)
  rw [sync, take_good (r := r.holding acc) up (.inl rfl), blockKind_data, follow_data rfl, bytes', collect_within]
  · rfl
  · rw [List.length_append, whole]
    exact room

/-- The TERMINATE block of the last bytes. -/
def terminateBlock (bs : List Byte) : Block := block 2 (BitVec.ofNat 8 (0x30 + bs.length) :: bs)

theorem take_terminate {r : Receiver} (up : r.link = .up) {acc bs : List Byte} (short : bs.length < 8)
    (room : acc.length + bs.length ≤ 2032) :
    (r.holding acc).take (terminateBlock bs).1 (terminateBlock bs).2
      = ({ r with badSync := 0, reception := .between, packet := [] }, [.complete (acc ++ bs)]) := by
  obtain ⟨sync, bytes⟩ := block_bytes 2 (bs := BitVec.ofNat 8 (0x30 + bs.length) :: bs) (by rw [List.length_cons]; omega)
  have type : ((terminateBlock bs).2.extractLsb' 0 8).toNat = 48 + bs.length := by
    rw [terminateBlock, payload_type bytes, BitVec.toNat_ofNat]
    omega
  have kind : blockKind 2 (terminateBlock bs).2 = .terminate bs.length := by
    rw [(blockKind_control _).2.2.1 (by omega) (by omega), type, Nat.add_sub_cancel_left]
  have rest : ((payloadBytes (terminateBlock bs).2).drop 1).take bs.length = bs := by
    rw [terminateBlock, bytes, List.cons_append, List.drop_succ_cons, List.drop_zero, List.take_left]
  rw [terminateBlock, sync, take_good (r := r.holding acc) up (.inr rfl), ← terminateBlock, kind, follow_terminate rfl, rest, close_within]
  · rfl
  · rw [List.length_append]
    exact room

theorem take_abort {r : Receiver} (up : r.link = .up) (acc : List Byte) :
    ((r.holding acc).take abortTrailer.1 abortTrailer.2).2 = [.codingError, .discarded] := by
  show ((r.holding acc).take 2 0x48).2 = _
  have kind : blockKind 2 0x48 = .unknown := by decide
  rw [take_good (r := r.holding acc) up (.inr rfl), kind]
  rfl

theorem takeAll_append (xs ys : List Block) (r : Receiver) :
    r.takeAll (xs ++ ys) = (((r.takeAll xs).1.takeAll ys).1, (r.takeAll xs).2 ++ ((r.takeAll xs).1.takeAll ys).2) := by
  induction xs generalizing r with
  | nil => rfl
  | cons x xs ih => simp only [List.cons_append, Receiver.takeAll, ih, List.append_assoc]

theorem takeAll_cons {r r' : Receiver} {es : List LineEvent} {x : Block} (h : r.take x.1 x.2 = (r', es)) (xs : List Block) :
    r.takeAll (x :: xs) = ((r'.takeAll xs).1, es ++ (r'.takeAll xs).2) := by
  simp only [Receiver.takeAll, h]

theorem takeAll_abort {r : Receiver} (up : r.link = .up) (acc : List Byte) :
    ((r.holding acc).takeAll [abortTrailer]).2 = [.codingError, .discarded] :=
  (List.append_nil _).trans (take_abort up acc)

theorem tailBlocks_data {fuel : Nat} {bs : List Byte} (h : 8 ≤ bs.length) :
    tailBlocks (fuel + 1) bs = block 1 (bs.take 8) :: tailBlocks fuel (bs.drop 8) := if_pos h

theorem tailBlocks_last {fuel : Nat} {bs : List Byte} (h : bs.length < 8) : tailBlocks (fuel + 1) bs = [terminateBlock bs] :=
  if_neg (Nat.not_le.2 h)

/-- The blocks behind the START add their bytes, and the TERMINATE ends the packet whole. -/
theorem takeAll_tail {r : Receiver} (up : r.link = .up) {fuel : Nat} {acc bs : List Byte} (fuelled : bs.length < 8 * fuel)
    (room : acc.length + bs.length ≤ 2032) :
    (r.holding acc).takeAll (tailBlocks fuel bs)
      = ({ r with badSync := 0, reception := .between, packet := [] }, [.complete (acc ++ bs)]) := by
  induction fuel generalizing acc bs with
  | zero => omega
  | succ fuel ih =>
    obtain short | long := Nat.lt_or_ge bs.length 8
    · rw [tailBlocks_last short, takeAll_cons (take_terminate up short room)]
      rfl
    · have whole : (bs.take 8).length = 8 := by
        rw [List.length_take]
        omega
      have rest : (bs.drop 8).length = bs.length - 8 := List.length_drop
      rw [tailBlocks_data long, takeAll_cons (take_data up whole (by omega)), ih (by omega)]
      · rw [List.append_assoc, List.take_append_drop]
        rfl
      · rw [List.length_append]
        omega

/-- Cut off before its TERMINATE, a packet is still open, and nothing has been heard of it. -/
theorem takeAll_cut {r : Receiver} (up : r.link = .up) {fuel n : Nat} {acc bs : List Byte} (room : acc.length + bs.length ≤ 2032)
    (cut : n < (tailBlocks fuel bs).length) : ∃ acc', (r.holding acc).takeAll ((tailBlocks fuel bs).take n) = (r.holding acc', []) := by
  induction fuel generalizing acc bs n with
  | zero => cases cut
  | succ fuel ih =>
    cases n with
    | zero => exact ⟨acc, rfl⟩
    | succ n =>
      obtain short | long := Nat.lt_or_ge bs.length 8
      · rw [tailBlocks_last short] at cut
        simp at cut
      · have whole : (bs.take 8).length = 8 := by
          rw [List.length_take]
          omega
        have rest : (bs.drop 8).length = bs.length - 8 := List.length_drop
        rw [tailBlocks_data long, List.length_cons] at cut
        have room' : (acc ++ bs.take 8).length + (bs.drop 8).length ≤ 2032 := by
          rw [List.length_append]
          omega
        obtain ⟨acc', taken⟩ := ih room' (Nat.lt_of_succ_lt_succ cut)
        refine ⟨acc', ?_⟩
        rw [tailBlocks_data long, List.take_succ_cons, takeAll_cons (take_data up whole (by omega)), taken]
        rfl

/-- Settles O21: START, data and TERMINATE in turn (`takeAll_tail`), and the abort trailer in an open packet (`takeAll_cut`). -/
theorem sentPacketsAreReceived : Obligations.SentPacketsAreReceived := by
  intro r bs up closed long within
  have opened := take_start up closed long
  have first : (bs.take 7).length = 7 := by
    rw [List.length_take]
    omega
  have rest : (bs.drop 7).length = bs.length - 7 := List.length_drop
  refine ⟨?_, fun n some_block cut => ?_⟩
  · rw [wireBlocks, takeAll_cons opened, takeAll_tail up (by omega) (by omega), List.take_append_drop]
    rfl
  · obtain ⟨n, rfl⟩ : ∃ m, n = m + 1 := ⟨n - 1, by omega⟩
    rw [wireBlocks, List.length_cons] at cut
    obtain ⟨acc, taken⟩ := takeAll_cut up (acc := bs.take 7) (bs := bs.drop 7) (by omega) (Nat.lt_of_succ_lt_succ cut)
    rw [wireBlocks, List.take_succ_cons, List.cons_append, takeAll_cons opened, takeAll_append, taken]
    exact takeAll_abort up acc

/-! ### What is sent is read as it was sent (R9, R11, R145, 12.2) -/

theorem sealed_length (bs : List Byte) : (sealed bs).length = bs.length + 4 := by
  rw [sealed, List.length_append, leBytes_length]

theorem int16Bytes_length (v : Int) : (int16Bytes v).length = 2 := leBytes_length ..

/-- A signed value read back from its two bytes. -/
theorem signed_int16Bytes {v : Int} (low : -32768 ≤ v) (high : v ≤ 32767) : signed 16 (leNat (int16Bytes v)) = v := by
  have small : (v % 65536).toNat < 256 ^ 2 := by omega
  rw [int16Bytes, leNat_leBytes 2 _ small]
  unfold signed
  split <;> omega

theorem int16s_flatten {vs : List Int} (range : ∀ v ∈ vs, -32768 ≤ v ∧ v ≤ 32767) (rest : List Byte) :
    int16s vs.length ((vs.map int16Bytes).flatten ++ rest) = vs := by
  induction vs with
  | nil => rfl
  | cons v vs ih =>
    obtain ⟨low, high⟩ := range v List.mem_cons_self
    have two := int16Bytes_length v
    rw [List.length_cons, int16s, List.map_cons, List.flatten_cons, List.append_assoc, List.take_left' two, List.drop_left' two,
      signed_int16Bytes low high, ih fun w hw => range w (List.mem_cons_of_mem _ hw)]

/-- The header of a segment's bytes, and what follows it. -/
theorem segment_bytes (g : Segment) : ∃ code : List Byte, code.length = 4 ∧
    g.bytes = leBytes 2 (g.tag + 4096) ++ (leBytes 2 g.frame.toNat ++ (leBytes 1 g.index ++ (leBytes 1 g.count ++ (leBytes 2 g.first
      ++ (leBytes 2 g.slopes.length ++ (leBytes 2 g.invalid.toNat ++ ((g.slopes.map int16Bytes).flatten ++ code))))))) :=
  ⟨_, leBytes_length .., by simp only [Segment.bytes, sealed, List.append_assoc]; rfl⟩

theorem segment_length (g : Segment) : g.bytes.length = 16 + 2 * g.slopes.length := by
  obtain ⟨code, four, bytes⟩ := segment_bytes g
  simp only [bytes, List.length_append, leBytes_length, flatten_length int16Bytes 2 int16Bytes_length, four]
  omega

/-- Every field of a segment in its ranges, read back. -/
theorem segment_fields {g : Segment} (h : g.InRange) :
    field g.bytes 0 2 = g.tag + 4096 ∧ BitVec.ofNat 16 (field g.bytes 2 2) = g.frame ∧ field g.bytes 4 1 = g.index
      ∧ field g.bytes 5 1 = g.count ∧ field g.bytes 6 2 = g.first ∧ field g.bytes 8 2 = g.slopes.length
      ∧ (field g.bytes 10 1 % 2 == 1) = g.invalid ∧ int16s (field g.bytes 8 2) (g.bytes.drop 12) = g.slopes := by
  obtain ⟨tag, index, count, first, length, slopes⟩ := h
  obtain ⟨code, four, bytes⟩ := segment_bytes g
  have frame := g.frame.isLt
  have count8 : field g.bytes 8 2 = g.slopes.length := by
    rw [bytes]
    simp only [field_after_leBytes, Nat.reduceLeDiff, Nat.reduceSub]
    exact field_leBytes 2 _ (by omega) _
  refine ⟨?_, ?_, ?_, ?_, ?_, count8, ?_, ?_⟩
  · rw [bytes]
    exact field_leBytes 2 _ (by omega) _
  · rw [bytes]
    simp only [field_after_leBytes, Nat.reduceLeDiff, Nat.reduceSub]
    rw [field_leBytes 2 _ (by omega)]
    simp
  · rw [bytes]
    simp only [field_after_leBytes, Nat.reduceLeDiff, Nat.reduceSub]
    exact field_leBytes 1 _ (by omega) _
  · rw [bytes]
    simp only [field_after_leBytes, Nat.reduceLeDiff, Nat.reduceSub]
    exact field_leBytes 1 _ (by omega) _
  · rw [bytes]
    simp only [field_after_leBytes, Nat.reduceLeDiff, Nat.reduceSub]
    exact field_leBytes 2 _ (by omega) _
  · rw [bytes]
    simp only [field_after_leBytes, Nat.reduceLeDiff, Nat.reduceSub]
    cases g.invalid <;> rfl
  · have body : g.bytes.drop 12 = (g.slopes.map int16Bytes).flatten ++ code := by
      rw [bytes]
      simp only [List.drop_append, leBytes_length, Nat.reduceSub, List.drop_eq_nil_of_le, Nat.reduceLeDiff, List.nil_append,
        Nat.zero_sub, List.drop_zero]
    rw [count8, body]
    exact int16s_flatten slopes code

theorem segment_read {g : Segment} (h : g.InRange) : packetTag g.bytes = g.tag ∧ classify g.bytes = .segment g := by
  obtain ⟨tagged, frame, index, count, first, length, invalid, slopes⟩ := segment_fields h
  have low := h.tag.2
  have some_slopes := h.length
  have tag : packetTag g.bytes = g.tag := by
    rw [packetTag, tagged]
    omega
  have kind : packetKind g.bytes = 1 := by
    rw [packetKind, tagged]
    omega
  have shape : goodShape g.bytes = true := by
    rw [goodShape_iff, length, segment_length]
    omega
  have read : parseSegment g.bytes = g := by
    unfold parseSegment
    rw [tag, frame, index, count, first, invalid, slopes]
  refine ⟨tag, ?_⟩
  rw [classify, if_pos kind, if_pos shape, read]

theorem token_fields (k : Token) :
    field k.bytes 0 2 = 3 ∧ field k.bytes 2 2 = k.kind.code ∧ BitVec.ofNat 16 (field k.bytes 4 2) = k.number
      ∧ field k.bytes 6 2 = if k.ok then 1 else 2 := by
  have number := k.number.isLt
  have code : k.kind.code < 256 ^ 2 := by cases k.kind <;> decide
  have verdict : (if k.ok then 1 else 2) < 256 ^ 2 := by cases k.ok <;> decide
  unfold Token.bytes sealed
  simp only [List.append_assoc, field_after_leBytes, Nat.reduceLeDiff, Nat.reduceSub]
  rw [field_leBytes 2 _ code, field_leBytes 2 _ verdict, field_leBytes 2 k.number.toNat (by omega)]
  exact ⟨field_leBytes 2 3 (by decide) _, rfl, by simp, rfl⟩

theorem token_length (k : Token) : k.bytes.length = 12 := by
  rw [Token.bytes, sealed_length]
  simp only [List.length_append, leBytes_length]

theorem token_read (k : Token) : parseToken k.bytes = some k := by
  obtain ⟨kind3, code, number, verdict⟩ := token_fields k
  have good : goodCheckCode k.bytes = true := goodCheckCode_sealed _
  obtain ⟨kind, n, ok⟩ := k
  unfold parseToken
  rw [kind3, code, number, verdict, good, token_length]
  cases kind <;> cases ok <;> rfl

/-- Settles O22: the check code, the fields of a segment (`segment_fields`) and of a token (`token_fields`). -/
theorem packetsAreReadAsSent : Obligations.PacketsAreReadAsSent :=
  ⟨fun bs => ⟨goodCheckCode_sealed bs, sealed_length bs⟩,
    fun g range => ⟨(segment_read range).1, (segment_read range).2, segment_length g⟩,
    fun k => ⟨token_read k, token_length k⟩⟩

end Sys2Proof.Machine

/-!
The Aside Queue (2.8: R23, R33 to R35): what joining the holding list, leaving it and each step of a slot make of the Stream Admission
Unit and of its access queue.
-/
namespace Sys2Proof.Machine

/-! ### The packet at the head of the holding list -/

/-- The read of the occupied word of the slot the next packet will try. -/
def slotReads (a : Anchor) (n : Nat) : List Access := readAccesses .asideWord (a.asideOffset + 2048 * n) 4

theorem beginAside_sau {s : State} {a : Anchor} (anchor : s.run.anchor = some a) :
    (beginAside s).sau = { s.sau with step := if s.sau.holding = [] then s.sau.step else .reading } := by
  unfold beginAside
  rw [anchor]
  cases list : s.sau.holding with
  | nil => rfl
  | cons p rest =>
    rw [if_neg (List.cons_ne_nil p rest)]
    rfl

theorem beginAside_queue {s : State} {a : Anchor} (anchor : s.run.anchor = some a) :
    (beginAside s).arb.sau = s.arb.sau ++ if s.sau.holding = [] then [] else slotReads a s.sau.nextSlot := by
  unfold beginAside
  rw [anchor]
  cases s.sau.holding with
  | nil => exact (List.append_nil _).symm
  | cons p rest => rfl

theorem leaveAside_sau {s : State} {a : Anchor} (anchor : s.run.anchor = some a) :
    (leaveAside s).sau
      = { s.sau with holding := s.sau.holding.tail, step := if s.sau.holding.tail = [] then .idle else .reading } :=
  beginAside_sau (s := { s with sau := { s.sau with holding := s.sau.holding.tail, step := .idle } }) anchor

theorem leaveAside_queue {s : State} {a : Anchor} (anchor : s.run.anchor = some a) :
    (leaveAside s).arb.sau = s.arb.sau ++ if s.sau.holding.tail = [] then [] else slotReads a s.sau.nextSlot :=
  beginAside_queue (s := { s with sau := { s.sau with holding := s.sau.holding.tail, step := .idle } }) anchor

/-! ### A foreign packet (R23, R33) -/

theorem admitArrival_foreign {s : State} {a : Arrival} (foreign : ∀ i, ¬ Matches s a i) :
    admitArrival a s = foreignPacket a s := by
  have none' : ∀ tag, a.kind.tag? = some tag → streamOfTag tag s = none := fun tag is =>
    streamOfTag_none tag s fun j ⟨enabled, same⟩ => foreign j ⟨enabled, by rw [is, same]⟩
  unfold admitArrival
  cases kind : a.kind with
  | nonSegment => rfl
  | segment g => dsimp only; rw [none' g.tag (by rw [kind]; rfl)]
  | shapeFault tag => dsimp only; rw [none' tag (by rw [kind]; rfl)]

theorem foreignPacket_counted {s : State} {a : Arrival} (h : s.sau.asideFlags[a.link] = false ∨ s.run.anchor = none) :
    foreignPacket a s = mapPort a.link (fun p => { p with foreign := latch p.foreign }) s := by
  refine if_neg fun set => ?_
  rw [Bool.and_eq_true] at set
  obtain flag | unloaded := h
  · exact absurd (flag.symm.trans set.1) nofun
  · rw [unloaded] at set
    exact absurd set.2 nofun

theorem foreignPacket_joins {s : State} {a : Arrival} {x : Anchor} (flag : s.sau.asideFlags[a.link] = true)
    (anchor : s.run.anchor = some x) : foreignPacket a s = joinAside a s :=
  if_pos (by rw [flag, anchor]; rfl)

/-- The holding list with an arrival behind it. -/
def joined (a : Arrival) (s : State) : List AsidePacket := s.sau.holding ++ [{ link := a.link, time := a.time, bytes := a.bytes }]

theorem joinAside_full {s : State} {a : Arrival} (full : 4 ≤ s.sau.holding.length) : joinAside a s = asideOverrun s := if_pos full

theorem joinAside_behind {s : State} {a : Arrival} (room : s.sau.holding.length < 4) (busy : s.sau.step ≠ .idle) :
    joinAside a s = { s with sau := { s.sau with holding := joined a s } } :=
  (if_neg (Nat.not_le.2 room)).trans (if_neg busy)

theorem joinAside_begins {s : State} {a : Arrival} (room : s.sau.holding.length < 4) (idle : s.sau.step = .idle) :
    joinAside a s = beginAside { s with sau := { s.sau with holding := joined a s } } :=
  (if_neg (Nat.not_le.2 room)).trans (if_pos idle)

theorem exec_packetAdmission {l : Fin 8} {s : State} {a : Arrival} {rest : List Arrival} (next : NextArrival l s a rest) :
    exec (.packetAdmission l) s
      = .next (settle s (admitArrival a { s with wires := { s.wires with arrivals := rest } })) := by
  change execPacketAdmission l s = _
  unfold execPacketAdmission
  rw [show takeFirst (fun a => a.link == l) s.wires.arrivals = some (a, rest) from next]
  rfl

/-- What becomes of a foreign packet. -/
theorem foreignPacket_becomes (a : Arrival) (s w : State) (only : OnlyChanges [.wires] s w) :
    (s.sau.asideFlags[a.link] = false ∨ s.run.anchor = none → OnlyChanges [.ports, .wires] s (foreignPacket a w)
        ∧ PortIs a.link { s.ports[a.link] with foreign := latch s.ports[a.link].foreign } s (foreignPacket a w))
      ∧ ∀ anchor, s.sau.asideFlags[a.link] = true → s.run.anchor = some anchor →
        (4 ≤ s.sau.holding.length → OnlyChanges [.sau, .attention, .wires] s (foreignPacket a w)
            ∧ attentionHas .asideOverrun (foreignPacket a w) = true
            ∧ (foreignPacket a w).sau = { s.sau with overruns := s.sau.overruns + 1 })
          ∧ (s.sau.holding.length < 4 → s.sau.step ≠ .idle → OnlyChanges [.sau, .wires] s (foreignPacket a w)
            ∧ (foreignPacket a w).sau = { s.sau with holding := joined a s })
          ∧ (s.sau.holding.length < 4 → s.sau.step = .idle → OnlyChanges [.sau, .sauQueue, .wires] s (foreignPacket a w)
            ∧ (foreignPacket a w).sau = { s.sau with holding := joined a s, step := .reading }
            ∧ (foreignPacket a w).arb.sau = s.arb.sau ++ slotReads anchor s.sau.nextSlot) := by
  have sau : w.sau = s.sau := only.same .sau (by decide)
  have run : w.run = s.run := only.same .run (by decide)
  have ports : w.ports = s.ports := only.same .ports (by decide)
  have queue : w.arb.sau = s.arb.sau := only.same .sauQueue (by decide)
  have listed : joined a w = joined a s := by rw [joined, joined, sau]
  have stays : ∀ {x}, s.run.anchor = some x → w.run.anchor = some x := fun loaded => (congrArg Run.anchor run).trans loaded
  refine ⟨fun counted => ?_, fun anchor flag loaded => ⟨fun full => ?_, fun room busy => ?_, fun room idle => ?_⟩⟩
  · rw [foreignPacket_counted (by rw [sau, run]; exact counted)]
    refine ⟨(only.andThen (mapPort_only ..)).among rfl, ?_, fun m other => ?_⟩
    · rw [mapPort_ports, ports]
      exact getElem_tweak_same ..
    · rw [mapPort_ports, ports]
      exact getElem_tweak_other _ (Ne.symm other) _
  · rw [foreignPacket_joins (by rw [sau]; exact flag) (stays loaded), joinAside_full (by rw [sau]; exact full)]
    refine ⟨(only.andThen (asideOverrun_only w)).among rfl, ?_, ?_⟩
    · rw [asideOverrun, attentionHas_raise, decide_eq_true rfl, Bool.or_true]
    · rw [asideOverrun, raise_sau, sau]
  · rw [foreignPacket_joins (by rw [sau]; exact flag) (stays loaded),
      joinAside_behind (by rw [sau]; exact room) (by rw [sau]; exact busy), listed, sau]
    exact ⟨(only.andThen (with_sau_only _ w)).among rfl, rfl⟩
  · have nonempty : joined a s ≠ [] := List.append_ne_nil_of_right_ne_nil _ (List.cons_ne_nil _ _)
    rw [foreignPacket_joins (by rw [sau]; exact flag) (stays loaded),
      joinAside_begins (by rw [sau]; exact room) (by rw [sau]; exact idle), listed, sau]
    have loaded' := stays loaded
    have joins := with_sau_only { s.sau with holding := joined a s } w
    refine ⟨(only.andThen (joins.andThen (beginAside_only _))).among rfl, ?_, ?_⟩
    · rw [beginAside_sau (s := { w with sau := { s.sau with holding := joined a s } }) loaded']
      dsimp only
      rw [if_neg nonempty]
    · rw [beginAside_queue (s := { w with sau := { s.sau with holding := joined a s } }) loaded']
      dsimp only
      rw [if_neg nonempty, queue]

/-! ### The steps of a slot (R34) -/

theorem exec_asideWordReadDone {s : State} {w : WordRead} (word : s.wires.asideWord = some w) :
    exec .asideWordReadDone s
      = .next (settle s (asideWordRead w { s with wires := { s.wires with asideWord := none } })) := by
  change execAsideWordReadDone s = _
  unfold execAsideWordReadDone
  rw [word]
  rfl

theorem asideWordRead_clear {s : State} {a : Anchor} {p : AsidePacket} {rest : List AsidePacket} (anchor : s.run.anchor = some a)
    (head : s.sau.holding = p :: rest) :
    asideWordRead .clear s
      = placeSau (writeAccesses .asideBody (asideSlot a s + 4) (asideBody p) ++ writeAccesses .asideSeal (asideSlot a s) (leBytes 4 1))
          { s with sau := { s.sau with step := .writing } } := by
  unfold asideWordRead
  rw [anchor, head]

/-- A slot that is occupied, or whose word could not be read, drops the packet. -/
theorem asideWordRead_taken {s : State} {w : WordRead} {a : Anchor} (anchor : s.run.anchor = some a) (taken : w ≠ .clear) :
    OnlyChanges [.sau, .sauQueue, .attention] s (asideWordRead w s)
      ∧ attentionHas .asideOverrun (asideWordRead w s) = true
      ∧ (w = .failed → attentionHas .memoryError (asideWordRead w s) = true)
      ∧ (asideWordRead w s).sau = { s.sau with
          overruns := s.sau.overruns + 1, holding := s.sau.holding.tail
          step := if s.sau.holding.tail = [] then .idle else .reading }
      ∧ (asideWordRead w s).arb.sau
          = s.arb.sau ++ if s.sau.holding.tail = [] then [] else slotReads a s.sau.nextSlot := by
  have leaves : ∀ (u : State), OnlyChanges [.sau, .attention] s u → u.sau = (asideOverrun s).sau →
      OnlyChanges [.sau, .sauQueue, .attention] s (leaveAside u)
        ∧ (∀ c, attentionHas c (leaveAside u) = attentionHas c u)
        ∧ (leaveAside u).sau = { s.sau with
            overruns := s.sau.overruns + 1, holding := s.sau.holding.tail
            step := if s.sau.holding.tail = [] then .idle else .reading }
        ∧ (leaveAside u).arb.sau = s.arb.sau ++ if s.sau.holding.tail = [] then [] else slotReads a s.sau.nextSlot := by
    intro u only sau
    have run : u.run = s.run := only.same .run (by decide)
    have queue : u.arb.sau = s.arb.sau := only.same .sauQueue (by decide)
    have anchor' : u.run.anchor = some a := run ▸ anchor
    have attention : (leaveAside u).page.attention = u.page.attention := (leaveAside_only u).same .attention (by decide)
    refine ⟨(only.andThen (leaveAside_only u)).among rfl, fun c => ?_, ?_, ?_⟩
    · unfold attentionHas
      rw [attention]
    · rw [leaveAside_sau anchor', sau]
      rfl
    · rw [leaveAside_queue anchor', sau, queue]
      rfl
  have overrun : attentionHas .asideOverrun (asideOverrun s) = true := by
    rw [asideOverrun, attentionHas_raise, decide_eq_true rfl, Bool.or_true]
  cases w with
  | clear => exact absurd rfl taken
  | set =>
    obtain ⟨only, flags, sau, queue⟩ := leaves (asideOverrun s) (asideOverrun_only s) rfl
    exact ⟨only, (flags _).trans overrun, nofun, sau, queue⟩
  | failed =>
    obtain ⟨only, flags, sau, queue⟩ := leaves (raise .memoryError (asideOverrun s))
      (((asideOverrun_only s).andThen (raise_only ..)).among rfl) rfl
    refine ⟨only, (flags _).trans ?_, fun _ => (flags _).trans ?_, sau, queue⟩
    · rw [attentionHas_raise, overrun, Bool.true_or]
    · rw [attentionHas_raise, decide_eq_true rfl, Bool.or_true]

theorem exec_asideSlotWritten {s : State} (sealed' : s.wires.asideSealed = true) :
    exec .asideSlotWritten s = .next (settle s
      (leaveAside (raise .asideArrival (advanceSlot { s with wires := { s.wires with asideSealed := false } })))) := by
  change execAsideSlotWritten s = _
  unfold execAsideSlotWritten
  rw [if_pos sealed']
  rfl

/-- The slot after one write (R34). -/
theorem slot_advances {s : State} {a : Anchor} (anchor : s.run.anchor = some a) :
    OnlyChanges [.sau, .attention] s (raise .asideArrival (advanceSlot s))
      ∧ attentionHas .asideArrival (raise .asideArrival (advanceSlot s)) = true
      ∧ (raise .asideArrival (advanceSlot s)).sau
          = { s.sau with nextSlot := if s.sau.nextSlot + 1 < a.asideCount then s.sau.nextSlot + 1 else 0 } := by
  refine ⟨(advanceSlot_only s).andThen (raise_only ..), ?_, ?_⟩
  · rw [attentionHas_raise, decide_eq_true rfl, Bool.or_true]
  · unfold advanceSlot
    rw [anchor, raise_sau]

/-- Settles O23: `foreignPacket_becomes` for the arrival, `asideWordRead_clear`, `asideWordRead_taken` and `leaveAside_sau` for the
steps of the slot. -/
theorem asideQueue : Obligations.AsideQueue := by
  refine ⟨fun l s a rest next foreign => ?_, fun s a p rest anchor head word => ?_, fun s a w anchor word taken => ?_,
    fun s a anchor sealed' => ?_⟩
  · have only := with_wires_only { s.wires with arrivals := rest } s
    obtain ⟨counted, joins⟩ := foreignPacket_becomes a s _ only
    have wires : (foreignPacket a { s with wires := { s.wires with arrivals := rest } }).wires = { s.wires with arrivals := rest } :=
      (foreignPacket_only a _).same .wires (by decide)
    refine ⟨_, exec_packetAdmission next, ?_⟩
    rw [admitArrival_foreign (s := { s with wires := { s.wires with arrivals := rest } }) foreign]
    generalize foreignPacket a { s with wires := { s.wires with arrivals := rest } } = u at *
    rw [attentionHas_settle, settle_wires, settle_sau, settle_arb_sau]
    refine ⟨wires, fun h => ?_, fun anchor flag loaded => ?_⟩
    · obtain ⟨only, is⟩ := counted h
      exact ⟨only.settle s, by rw [PortIs, settle_ports]; exact is⟩
    · obtain ⟨full, behind, begins⟩ := joins anchor flag loaded
      exact ⟨fun h => ⟨(full h).1.settle s, (full h).2⟩, fun room busy => ⟨(behind room busy).1.settle s, (behind room busy).2⟩,
        fun room idle => ⟨(begins room idle).1.settle s, (begins room idle).2⟩⟩
  · refine ⟨_, exec_asideWordReadDone word, ?_⟩
    rw [asideWordRead_clear (s := { s with wires := { s.wires with asideWord := none } }) anchor head]
    refine ⟨OnlyChanges.settle s (((with_wires_only { s.wires with asideWord := none } s).andThen
      ((with_sau_only { s.sau with step := .writing } _).andThen (placeSau_only _ _))).among rfl), settle_sau .., settle_wires ..,
      settle_arb_sau ..⟩
  · intro tail
    have only := with_wires_only { s.wires with asideWord := none } s
    obtain ⟨changes, overrun, failed, sau, queue⟩ :=
      asideWordRead_taken (s := { s with wires := { s.wires with asideWord := none } }) anchor taken
    have wires : (asideWordRead w { s with wires := { s.wires with asideWord := none } }).wires
        = { s.wires with asideWord := none } := changes.same .wires (by decide)
    refine ⟨_, exec_asideWordReadDone word, ((only.andThen changes).among rfl).settle s, ?_, fun h => ?_, ?_, ?_, ?_⟩
    · rw [attentionHas_settle, overrun]
    · rw [attentionHas_settle, failed h]
    · rw [settle_wires, wires]
    · rw [settle_sau, sau]
    · rw [settle_arb_sau, queue]
      rfl
  · intro tail next
    have only := with_wires_only { s.wires with asideSealed := false } s
    refine ⟨_, exec_asideSlotWritten sealed', ?_⟩
    obtain ⟨changes, flag, sau⟩ := slot_advances (s := { s with wires := { s.wires with asideSealed := false } }) anchor
    have queue := changes.same .sauQueue (by decide)
    have wires := changes.same .wires (by decide)
    have run := changes.same .run (by decide)
    have before := only.andThen changes
    generalize raise .asideArrival (advanceSlot { s with wires := { s.wires with asideSealed := false } }) = u at *
    have attention : (leaveAside u).page.attention = u.page.attention := (leaveAside_only u).same .attention (by decide)
    have wires' : (leaveAside u).wires = u.wires := (leaveAside_only u).same .wires (by decide)
    have anchor' : u.run.anchor = some a := (congrArg Run.anchor run).trans anchor
    refine ⟨((before.andThen (leaveAside_only u)).among rfl).settle s, ?_, ?_, ?_, ?_⟩
    · rw [attentionHas_settle, ← flag]
      unfold attentionHas
      rw [attention]
    · rw [settle_wires, wires', wires]
    · rw [settle_sau, leaveAside_sau anchor', sau]
    · rw [settle_arb_sau, leaveAside_queue anchor', sau, queue]
      rfl

end Sys2Proof.Machine

/-!
Admission and outcomes, stream by stream (2.4, 2.5: R24 to R30): what each move makes of its stream, and which wraps are named.
-/
namespace Sys2Proof.Machine

/-! ### One stream has changed -/

theorem StreamIs.same (i : Fin 16) {s t : State} (sau : t.sau = s.sau) : StreamIs i s.sau.streams[i] s t := by
  refine ⟨?_, fun _ _ => ?_, ?_⟩ <;> rw [sau]

theorem mapStream_is (i : Fin 16) (f : Stream → Stream) (s : State) : StreamIs i (f s.sau.streams[i]) s (mapStream i f s) where
  stream := (mapStream_stream ..).trans (if_pos rfl)
  others := fun _ other => (mapStream_stream ..).trans (if_neg other)
  rest := rfl

theorem StreamIs.andThen {i : Fin 16} {x y : Stream} {s t u : State} (h : StreamIs i x s t) (k : StreamIs i y t u) :
    StreamIs i y s u where
  stream := k.stream
  others := fun j other => (k.others j other).trans (h.others j other)
  rest := by rw [k.rest, h.rest]

theorem StreamIs.from' {i : Fin 16} {x : Stream} {s t u : State} (h : StreamIs i x t u) (sau : t.sau = s.sau) : StreamIs i x s u :=
  (StreamIs.same i sau).andThen h

theorem StreamIs.to {i : Fin 16} {x : Stream} {s t u : State} (h : StreamIs i x s t) (sau : u.sau = t.sau) : StreamIs i x s u where
  stream := by rw [sau]; exact h.stream
  others := by rw [sau]; exact h.others
  rest := by rw [sau]; exact h.rest

theorem StreamIs.settle {i : Fin 16} {x : Stream} {s t : State} (h : StreamIs i x s t) (b : State) :
    StreamIs i x s (Machine.settle b t) := h.to (settle_sau ..)

/-! ### The counters (R29, R30) -/

theorem raiseCounters_wrapped {i : Fin 16} {cs : List Counter} {s : State}
    (wraps : (cs.any fun c => s.sau.streams[i].counter c == BitVec.allOnes 16) = true) :
    raiseCounters i cs s = raise .counterWrap
      { mapStream i (Stream.plus cs) s with sau := { (mapStream i (Stream.plus cs) s).sau with lastWrapped := i } } :=
  if_pos wraps

theorem raiseCounters_unwrapped {i : Fin 16} {cs : List Counter} {s : State}
    (none' : ¬ (cs.any fun c => s.sau.streams[i].counter c == BitVec.allOnes 16) = true) :
    raiseCounters i cs s = mapStream i (Stream.plus cs) s := if_neg none'

theorem wraps_iff {cs : List Counter} {x : Stream} :
    (cs.any fun c => x.counter c == BitVec.allOnes 16) = true ↔ ∃ c ∈ cs, x.counter c = 65535 := by
  simp only [List.any_eq_true, beq_iff_eq]
  exact Iff.rfl

theorem raiseCounters_is (i : Fin 16) (cs : List Counter) (s : State) :
    StreamIs i (s.sau.streams[i].plus cs) s (raiseCounters i cs s) := by
  have maps := mapStream_is i (Stream.plus cs) s
  by_cases wraps : (cs.any fun c => s.sau.streams[i].counter c == BitVec.allOnes 16) = true
  · rw [raiseCounters_wrapped wraps]
    exact ⟨maps.stream, maps.others, rfl⟩
  · rw [raiseCounters_unwrapped wraps]
    exact maps

theorem raiseCounters_names (i : Fin 16) (cs : List Counter) (s : State) : WrapsNamed i cs s (raiseCounters i cs s) := by
  by_cases wraps : (cs.any fun c => s.sau.streams[i].counter c == BitVec.allOnes 16) = true
  · rw [raiseCounters_wrapped wraps]
    obtain ⟨c, mem, full⟩ := wraps_iff.1 wraps
    refine ⟨fun _ => ⟨?_, rfl⟩, fun no => absurd full (no c mem)⟩
    rw [attentionHas_raise, decide_eq_true rfl, Bool.or_true]
  · rw [raiseCounters_unwrapped wraps]
    exact ⟨fun some' => absurd (wraps_iff.2 some') wraps, fun _ => ⟨rfl, rfl⟩⟩

/-- A step that raises no counter and no flag, and names no stream. -/
theorem wrapsNamed_nil {i : Fin 16} {s t : State} (attention : t.page.attention = s.page.attention)
    (last : t.sau.lastWrapped = s.sau.lastWrapped) : WrapsNamed i [] s t := by
  refine ⟨fun ⟨_, mem, _⟩ => absurd mem List.not_mem_nil, fun _ => ⟨?_, last⟩⟩
  unfold attentionHas
  rw [attention]

/-- A change of the stream that leaves its counters, before they are raised. -/
theorem WrapsNamed.from' {i : Fin 16} {cs : List Counter} {s t u : State} (h : WrapsNamed i cs t u)
    (counters : t.sau.streams[i].counters = s.sau.streams[i].counters)
    (flag : attentionHas .counterWrap t = attentionHas .counterWrap s) (last : t.sau.lastWrapped = s.sau.lastWrapped) :
    WrapsNamed i cs s u := by
  have same : ∀ c, s.sau.streams[i].counter c = t.sau.streams[i].counter c := fun c => by rw [Stream.counter, Stream.counter, counters]
  exact ⟨fun ⟨c, mem, full⟩ => h.wrapped ⟨c, mem, (same c).symm.trans full⟩,
    fun no => by rw [← flag, ← last]; exact h.same fun c mem full => no c mem ((same c).trans full)⟩

/-- A change behind the counters. -/
theorem WrapsNamed.to {i : Fin 16} {cs : List Counter} {s t u : State} (h : WrapsNamed i cs s t)
    (flag : attentionHas .counterWrap u = attentionHas .counterWrap t) (last : u.sau.lastWrapped = t.sau.lastWrapped) :
    WrapsNamed i cs s u :=
  ⟨fun yes => by rw [flag, last]; exact h.wrapped yes, fun no => by rw [flag, last]; exact h.same no⟩

theorem WrapsNamed.settle {i : Fin 16} {cs : List Counter} {s t : State} (h : WrapsNamed i cs s t) (b : State) :
    WrapsNamed i cs s (Machine.settle b t) :=
  h.to (attentionHas_settle ..) (by rw [settle_sau])

/-! ### A stream enters a state (R22, R26 to R28) -/

/-- A stream that begins to seek (R27, R28). -/
def Stream.seeks (now : Time) (x : Stream) : Stream :=
  { x with state := .seeking, changed := now, stay := x.stay + 1, misinserts := 0, timer := some (cutExpiry now x) }

theorem Stream.enter_seeks {x : Stream} (now : Time) (other : x.state ≠ .seeking) : x.enter now .seeking = x.seeks now := by
  unfold Stream.enter Stream.seeks
  rw [if_neg other, if_neg other]
  rfl

theorem Stream.enter_locks {x : Stream} (now : Time) (seeking : x.state = .seeking) :
    x.enter now .locked = { x with state := .locked, changed := now, stay := x.stay + 1, misinserts := 0 } := by
  have other : ¬ x.state = .locked := by rw [seeking]; nofun
  unfold Stream.enter
  rw [if_neg other, if_neg other]
  rfl

theorem Stream.enter_cut {x : Stream} (now : Time) (other : x.state ≠ .cut) :
    x.enter now .cut = { x with state := .cut, changed := now, stay := x.stay + 1, timer := none } := by
  unfold Stream.enter
  rw [if_neg other, if_neg other]
  rfl

theorem Stream.plus_others (cs : List Counter) (x : Stream) : x.plus cs = { x with counters := (x.plus cs).counters } := by
  induction cs generalizing x with
  | nil => rfl
  | cons c cs ih => exact ih (x.bump c)

/-! ### Admission of a matching segment (R24, R25, R28) -/

theorem admitArrival_matched {s : State} {a : Arrival} {i : Fin 16} (matched : Matches s a i) (only : ∀ j, Matches s a j → j = i) :
    admitArrival a s = admitSegment i a.link a.kind.segment? s := by
  have found : ∀ tag, a.kind.tag? = some tag → streamOfTag tag s = some i := by
    intro tag is
    have tagged : ∀ j : Fin 16, s.sau.streams[j].config.tag = tag → a.kind.tag? = some s.sau.streams[j].config.tag :=
      fun j same => by rw [is, same]
    refine streamOfTag_some tag s i matched.1 (Option.some.inj (matched.2.symm.trans is)) fun j enabled same => ?_
    exact only j ⟨enabled, tagged j same⟩
  unfold admitArrival
  cases kind : a.kind with
  | nonSegment => exact absurd (matched.2.symm.trans (by rw [kind]; rfl)) (Option.some_ne_none _)
  | segment g => dsimp only; rw [found g.tag (by rw [kind]; rfl)]; rfl
  | shapeFault tag => dsimp only; rw [found tag (by rw [kind]; rfl)]; rfl

/-- The cut timer of a stream restarted (R28). -/
def Stream.heard (now : Time) (x : Stream) : Stream := { x with timer := some (cutExpiry now x) }

/-- The message of a segment handed to Frame Assembly (R25). -/
def Stream.hands (i : Fin 16) (fromLocked : Bool) (seg : Option Segment) (x : Stream) : Handed :=
  { stream := i, fromLocked := fromLocked, stay := x.stay, segment := seg }

theorem handOver_wires {i : Fin 16} {b : Bool} {seg : Option Segment} {x : Stream} {s t : State} (is : StreamIs i x s t) :
    (handOver i b seg t).wires = { t.wires with handed := t.wires.handed ++ [x.hands i b seg] } := by
  unfold handOver Stream.hands
  rw [is.stream]

/-- The segment opens a frame of its stream (R25). -/
def Opens (seg : Option Segment) : Prop := ∃ g, seg = some g ∧ g.index = 0

theorem seekingSegment_opens {i : Fin 16} {seg : Option Segment} {s : State} (opens : Opens seg) :
    seekingSegment i seg s = handOver i false seg s := by
  obtain ⟨g, rfl, first⟩ := opens
  exact if_pos first

theorem seekingSegment_discards {i : Fin 16} {seg : Option Segment} {s : State} (no : ¬ Opens seg) :
    seekingSegment i seg s = raiseCounters i [.received, .seekingDiscards] s := by
  cases seg with
  | none => rfl
  | some g => exact if_neg fun first => no ⟨g, rfl, first⟩

/-- A stream that is SEEKING or CUT when it hears a segment: it seeks (R25, R28). -/
def Stream.seekingHeard (now : Time) (x : Stream) : Stream := if x.state = .cut then x.seeks now else x.heard now

theorem Stream.seekingHeard_counters (now : Time) (x : Stream) : (x.seekingHeard now).counters = x.counters := by
  unfold Stream.seekingHeard
  split <;> rfl

theorem receivedSegment_locked {i : Fin 16} {seg : Option Segment} {s : State} (locked : s.sau.streams[i].state = .locked) :
    receivedSegment i seg s = handOver i true seg (mapStream i (Stream.heard s.time) s) := by
  unfold receivedSegment
  rw [locked]
  rfl

/-- A segment received in SEEKING or CUT is one received in SEEKING with the timer restarted. -/
theorem receivedSegment_seeking {i : Fin 16} {seg : Option Segment} {s : State}
    (state : s.sau.streams[i].state = .seeking ∨ s.sau.streams[i].state = .cut) :
    receivedSegment i seg s = seekingSegment i seg (mapStream i (Stream.seekingHeard s.time) s) := by
  have same : ∀ {f : Stream → Stream}, f s.sau.streams[i] = s.sau.streams[i].seekingHeard s.time →
      mapStream i f s = mapStream i (Stream.seekingHeard s.time) s := by
    intro f is
    unfold mapStream
    rw [show tweak s.sau.streams i f = tweak s.sau.streams i (Stream.seekingHeard s.time) from
      congrArg (fun x => s.sau.streams.set i x) is]
  obtain seeking | cut := state
  · have other : ¬ s.sau.streams[i].state = .cut := by rw [seeking]; nofun
    have heard : mapStream i (Stream.heard s.time) s = mapStream i (Stream.seekingHeard s.time) s := same (if_neg other).symm
    rw [← heard]
    unfold receivedSegment
    rw [seeking]
    rfl
  · have seeks : mapStream i (fun x => (x.heard s.time).enter s.time .seeking) s = mapStream i (Stream.seekingHeard s.time) s := by
      refine same ?_
      rw [Stream.enter_seeks, Stream.seekingHeard, if_pos cut]
      · rfl
      · rw [Stream.heard, cut]
        nofun
    have twice : enterState i .seeking (mapStream i (Stream.heard s.time) s)
        = mapStream i (fun x => (x.heard s.time).enter s.time .seeking) s := by
      unfold enterState mapStream
      rw [tweak_tweak]
    rw [← seeks, ← twice]
    unfold receivedSegment
    rw [cut]
    rfl

/-- What becomes of a segment of an enabled stream. -/
theorem admitSegment_becomes (i : Fin 16) (l : Fin 8) (seg : Option Segment) (s : State) :
    let x := s.sau.streams[i]
    let t := admitSegment i l seg s
    (x.config.link ≠ l.val → t.wires = s.wires ∧ StreamIs i (x.plus [.misrouted]) s t ∧ WrapsNamed i [.misrouted] s t)
      ∧ (x.config.link = l.val → s.run.state ≠ .running → t.wires = s.wires ∧ StreamIs i (x.plus [.idleDiscards]) s t
          ∧ WrapsNamed i [.idleDiscards] s t)
      ∧ (x.config.link = l.val → s.run.state = .running →
          (x.state = .locked → StreamIs i (x.heard s.time) s t ∧ WrapsNamed i [] s t
              ∧ t.wires = { s.wires with handed := s.wires.handed ++ [x.hands i true seg] })
            ∧ (x.state = .seeking ∨ x.state = .cut → Opens seg → StreamIs i (x.seekingHeard s.time) s t ∧ WrapsNamed i [] s t
              ∧ t.wires = { s.wires with handed := s.wires.handed ++ [(x.seekingHeard s.time).hands i false seg] })
            ∧ (x.state = .seeking ∨ x.state = .cut → ¬ Opens seg →
                StreamIs i ((x.seekingHeard s.time).plus [.received, .seekingDiscards]) s t ∧ t.wires = s.wires
                  ∧ WrapsNamed i [.received, .seekingDiscards] s t)) := by
  intro x t
  have counted : ∀ (cs : List Counter) (u : State), (raiseCounters i cs u).wires = u.wires := fun cs u =>
    (raiseCounters_only i cs u).same .wires (by decide)
  refine ⟨fun misrouted => ?_, fun routed idle => ?_, fun routed running => ?_⟩
  · have is : t = raiseCounters i [.misrouted] s := if_pos misrouted
    rw [is]
    exact ⟨counted .., raiseCounters_is .., raiseCounters_names ..⟩
  · have is : t = raiseCounters i [.idleDiscards] s :=
      (if_neg (not_not.2 routed)).trans (if_pos (by simp [isRunning, idle]))
    rw [is]
    exact ⟨counted .., raiseCounters_is .., raiseCounters_names ..⟩
  · have is : t = receivedSegment i seg s :=
      (if_neg (not_not.2 routed)).trans (if_neg (by simp [isRunning, running]))
    have heard := mapStream_is i (Stream.heard s.time) s
    have seeks := mapStream_is i (Stream.seekingHeard s.time) s
    rw [is]
    refine ⟨fun locked => ?_, fun state opens => ?_, fun state no => ?_⟩
    · rw [receivedSegment_locked locked]
      exact ⟨heard.to rfl, wrapsNamed_nil rfl rfl, (handOver_wires heard).trans rfl⟩
    · rw [receivedSegment_seeking state, seekingSegment_opens opens]
      exact ⟨seeks.to rfl, wrapsNamed_nil rfl rfl, handOver_wires seeks⟩
    · rw [receivedSegment_seeking state, seekingSegment_discards no]
      have is := raiseCounters_is i [.received, .seekingDiscards] (mapStream i (Stream.seekingHeard s.time) s)
      rw [seeks.stream] at is
      refine ⟨seeks.andThen is, counted .., (raiseCounters_names ..).from' ?_ rfl rfl⟩
      rw [seeks.stream]
      exact Stream.seekingHeard_counters ..

/-- Settles O24: `admitSegment_becomes` behind `admitArrival_matched`. -/
theorem segmentAdmission : Obligations.SegmentAdmission := by
  refine ⟨fun l s a rest i next matched only => ?_, fun x c d => counter_bump x c d, fun l s a rest i next matched only misrouted => ?_⟩
  · intro x wires timer opens seeking
    have arrived := with_wires_only { s.wires with arrivals := rest } s
    obtain ⟨misrouted, idle, received⟩ :=
      admitSegment_becomes i a.link a.kind.segment? { s with wires := { s.wires with arrivals := rest } }
    refine ⟨_, exec_packetAdmission next, ?_⟩
    rw [admitArrival_matched (s := { s with wires := { s.wires with arrivals := rest } }) matched only]
    have changes := (arrived.andThen (admitSegment_only i a.link a.kind.segment? _)).among (qs := [.sau, .wires, .attention]) rfl
    generalize admitSegment i a.link a.kind.segment? { s with wires := { s.wires with arrivals := rest } } = u at *
    have finish : ∀ {y : Stream} {cs : List Counter},
        StreamIs i y { s with wires := { s.wires with arrivals := rest } } u →
        WrapsNamed i cs { s with wires := { s.wires with arrivals := rest } } u →
        StreamIs i y s (settle s u) ∧ WrapsNamed i cs s (settle s u) := fun is names =>
      ⟨(is.from' (s := s) rfl).settle s, (names.from' (s := s) rfl rfl rfl).settle s⟩
    rw [settle_wires]
    refine ⟨changes.settle s, fun h => ?_, fun h idle' => ?_, fun h running => ⟨fun locked => ?_, fun state opens => ?_,
      fun state no => ?_⟩⟩
    · obtain ⟨sent, is, names⟩ := misrouted h
      exact ⟨sent, finish is names⟩
    · obtain ⟨sent, is, names⟩ := idle h idle'
      exact ⟨sent, finish is names⟩
    · obtain ⟨is, names, sent⟩ := (received h running).1 locked
      exact ⟨(finish is names).1, (finish is names).2, sent⟩
    · obtain ⟨is, names, sent⟩ := (received h running).2.1 state opens
      exact ⟨(finish is names).1, (finish is names).2, sent⟩
    · obtain ⟨is, sent, names⟩ := (received h running).2.2 state no
      exact ⟨(finish is names).1, sent, (finish is names).2⟩
  · intro wraps
    have routed : admitArrival a { s with wires := { s.wires with arrivals := rest } }
        = raiseCounters i [.misrouted] { s with wires := { s.wires with arrivals := rest } } :=
      (admitArrival_matched (s := { s with wires := { s.wires with arrivals := rest } }) matched only).trans (if_pos misrouted)
    have names := raiseCounters_names i [.misrouted] { s with wires := { s.wires with arrivals := rest } }
    refine ⟨_, exec_packetAdmission next, ?_⟩
    rw [routed, attentionHas_settle, settle_sau, settle_page_attention]
    refine ⟨fun yes => names.wrapped ⟨.misrouted, List.mem_singleton_self _, yes⟩, fun no => ?_⟩
    have none' : ∀ c ∈ [Counter.misrouted], s.sau.streams[i].counter c ≠ 65535 := fun c mem => by
      rw [List.mem_singleton.1 mem]
      exact no
    have unwrapped := raiseCounters_unwrapped (i := i) (cs := [.misrouted]) (s := { s with wires := { s.wires with arrivals := rest } })
      fun any => by
        obtain ⟨c, mem, full⟩ := wraps_iff.1 any
        exact none' c mem full
    rw [unwrapped]
    exact ⟨rfl, rfl⟩

end Sys2Proof.Machine

/-!
Outcomes and the cut timer (2.5, 2.6: R26 to R28, R41, R63).
-/
namespace Sys2Proof.Machine

/-! ### A stream leaves its state (R63) -/

/-- The exits on their way to Frame Assembly when a stream leaves the state it is in. -/
def exitsAfter (i : Fin 16) (s : State) : List (Fin 16) :=
  if s.sau.streams[i].state = .locked ∧ s.run.state = .running then s.wires.lockedExits ++ [i] else s.wires.lockedExits

theorem reportExit_wires (i : Fin 16) (s : State) : (reportExit i s).wires = { s.wires with lockedExits := exitsAfter i s } := by
  unfold reportExit exitsAfter
  by_cases leaves : s.sau.streams[i].state = .locked ∧ s.run.state = .running
  · rw [if_pos leaves, if_pos (by simp [isRunning, leaves.2, ← leaves.1])]
  · have stays : ¬ (decide (s.sau.streams[i].state = .locked) && isRunning s) = true := by
      simpa [isRunning] using leaves
    rw [if_neg leaves, if_neg stays]

theorem leaveFor_wires (i : Fin 16) (st : StreamState) (s : State) :
    (leaveFor i st s).wires = { s.wires with lockedExits := exitsAfter i s } := reportExit_wires i s

theorem leaveFor_is (i : Fin 16) (st : StreamState) (s : State) :
    StreamIs i (s.sau.streams[i].enter s.time st) s (leaveFor i st s) := by
  have sau := reportExit_streams i s
  have time : (reportExit i s).time = s.time := (reportExit_only i s).same .time (by decide)
  have is := mapStream_is i (Stream.enter (reportExit i s).time st) (reportExit i s)
  rw [sau, time] at is
  refine is.from' (t := reportExit i s) sau |>.to ?_
  rw [leaveFor, enterState, time]

theorem leaveFor_lastWrapped (i : Fin 16) (st : StreamState) (s : State) :
    (leaveFor i st s).sau.lastWrapped = s.sau.lastWrapped :=
  show (reportExit i s).sau.lastWrapped = _ by rw [reportExit_streams]

/-! ### The state change an outcome calls for (R26, R27) -/

/-- The outcome counts for a LOCKED stream: it has not left the state it handed the segment over in, and awaits no confirmation. -/
def Stream.Counts (x : Stream) (r : Returned) : Prop :=
  r.fromLocked = true ∧ x.state = .locked ∧ x.stay = r.stay ∧ x.awaiting = false

/-- The outcome locks a SEEKING stream. -/
def Stream.Locks (x : Stream) (r : Returned) : Prop :=
  r.fromLocked = false ∧ x.state = .seeking ∧ x.stay = r.stay ∧ r.judgement = .placed

theorem Stream.stays_iff (x : Stream) (r : Returned) :
    x.stays r = true ↔ x.state = (if r.fromLocked then .locked else .seeking) ∧ x.stay = r.stay := by
  simp [Stream.stays]

section
variable {r : Returned} {s : State}

theorem outcomeMove_counts (h : s.sau.streams[r.stream].Counts r) :
    outcomeMove r s =
      if r.judgement = .misinserted then
        if s.sau.streams[r.stream].misinserts = 0 then setMisinserts r.stream 1 s else secondMisinsert r.stream s
      else setMisinserts r.stream 0 s := by
  obtain ⟨from', locked, stay, awaits⟩ := h
  have stays : s.sau.streams[r.stream].stays r = true := (Stream.stays_iff ..).2 ⟨by rw [locked, from', if_pos rfl], stay⟩
  unfold outcomeMove
  dsimp only
  rw [stays, if_neg (by nofun), if_pos from', awaits, if_neg (by nofun)]

theorem outcomeMove_locks (h : s.sau.streams[r.stream].Locks r) : outcomeMove r s = enterState r.stream .locked s := by
  obtain ⟨from', seeking, stay, placed⟩ := h
  have stays : s.sau.streams[r.stream].stays r = true :=
    (Stream.stays_iff ..).2 ⟨by rw [seeking, from', if_neg Bool.false_ne_true], stay⟩
  unfold outcomeMove
  dsimp only
  rw [stays, if_neg (by nofun), from', if_neg Bool.false_ne_true, if_pos placed]

theorem outcomeMove_stays (noCount : ¬ s.sau.streams[r.stream].Counts r) (noLock : ¬ s.sau.streams[r.stream].Locks r) :
    outcomeMove r s = s := by
  unfold outcomeMove
  dsimp only
  by_cases stays : s.sau.streams[r.stream].stays r = true
  · obtain ⟨state, stay⟩ := (Stream.stays_iff ..).1 stays
    rw [stays, if_neg (by nofun)]
    by_cases from' : r.fromLocked = true
    · rw [if_pos from'] at state
      rw [if_pos from', if_pos]
      exact Bool.not_eq_false _ ▸ fun awaits => noCount ⟨from', state, stay, awaits⟩
    · rw [if_neg from'] at state
      rw [if_neg from', if_neg fun placed => noLock ⟨Bool.eq_false_iff.2 from', state, stay, placed⟩]
  · exact if_pos (by rw [Bool.eq_false_iff.2 stays]; rfl)

theorem isPace_iff (i : Fin 16) (s : State) : isPace i s = true ↔ s.fck.configured = true ∧ s.fck.stream = i := by
  simp [isPace]

theorem secondMisinsert_pace {i : Fin 16} (pace : isPace i s = true) :
    StreamIs i { s.sau.streams[i] with misinserts := 2, awaiting := true } s (secondMisinsert i s)
      ∧ (secondMisinsert i s).wires = { s.wires with misinserts := s.wires.misinserts ++ [i] } := by
  have is := mapStream_is i (fun x => { x with misinserts := 2, awaiting := true }) s
  unfold secondMisinsert
  rw [if_pos pace]
  exact ⟨is.to rfl, rfl⟩

theorem secondMisinsert_seeks {i : Fin 16} (other : ¬ isPace i s = true) : secondMisinsert i s = leaveFor i .seeking s := if_neg other

theorem outcomeMove_lastWrapped (r : Returned) (s : State) : (outcomeMove r s).sau.lastWrapped = s.sau.lastWrapped := by
  unfold outcomeMove
  dsimp only
  split
  · rfl
  · split
    · split
      · rfl
      · split
        · split
          · rfl
          · unfold secondMisinsert
            split
            · rfl
            · exact leaveFor_lastWrapped ..
        · rfl
    · split <;> rfl

theorem passToClock_wires (r : Returned) (s : State) :
    (passToClock r s).wires = { s.wires with paceReports :=
      if r.judgement = .placed ∧ s.fck.configured = true ∧ s.fck.stream = r.stream then s.wires.paceReports ++ [r.frame]
      else s.wires.paceReports } := by
  unfold passToClock
  by_cases passed : r.judgement = .placed ∧ s.fck.configured = true ∧ s.fck.stream = r.stream
  · rw [if_pos passed, if_pos]
    rw [(isPace_iff r.stream s).2 passed.2, decide_eq_true passed.1]
    rfl
  · rw [if_neg passed, if_neg]
    rwa [Bool.and_eq_true, decide_eq_true_eq, isPace_iff]

end

/-! ### The outcome taken -/

theorem exec_segmentOutcome {i : Fin 16} {s : State} {r : Returned} {rest : List Returned}
    (next : takeFirst (fun r => r.stream == i) s.wires.returned = some (r, rest)) :
    exec (.segmentOutcome i) s = .next (settle s (takeReturned r { s with wires := { s.wires with returned := rest } })) := by
  change execSegmentOutcome i s = _
  unfold execSegmentOutcome
  rw [next]
  rfl

theorem takeReturned_names (r : Returned) (s : State) :
    WrapsNamed r.stream [.received, r.judgement.counter] s (takeReturned r s) := by
  have raised := raiseCounters_names r.stream [.received, r.judgement.counter] s
  unfold takeReturned
  generalize raiseCounters r.stream [.received, r.judgement.counter] s = u at *
  have attention : (outcomeMove r u).page.attention = u.page.attention := (outcomeMove_only r u).same .attention (by decide)
  have attention' : (passToClock r (outcomeMove r u)).page.attention = (outcomeMove r u).page.attention :=
    (passToClock_only r _).same .attention (by decide)
  refine raised.to ?_ ?_
  · unfold attentionHas
    rw [attention', attention]
  · rw [passToClock_streams, outcomeMove_lastWrapped]

/-- What the stream and the messages become, where the move of the outcome makes `m` of the state with the counters raised. -/
theorem takeReturned_moves {r : Returned} {s m : State} {y : Stream}
    (moves : outcomeMove r (raiseCounters r.stream [.received, r.judgement.counter] s) = m)
    (is : StreamIs r.stream y (raiseCounters r.stream [.received, r.judgement.counter] s) m) :
    StreamIs r.stream y s (takeReturned r s)
      ∧ (takeReturned r s).wires = { m.wires with paceReports :=
          if r.judgement = .placed ∧ s.fck.configured = true ∧ s.fck.stream = r.stream then m.wires.paceReports ++ [r.frame]
          else m.wires.paceReports } := by
  have raised := raiseCounters_is r.stream [.received, r.judgement.counter] s
  have counts := raiseCounters_only r.stream [.received, r.judgement.counter] s
  have changes := outcomeMove_only r (raiseCounters r.stream [.received, r.judgement.counter] s)
  unfold takeReturned
  rw [moves] at changes ⊢
  generalize raiseCounters r.stream [.received, r.judgement.counter] s = u at *
  have fck : m.fck = s.fck := (counts.andThen changes).same .fck (by decide)
  refine ⟨(raised.andThen is).to (passToClock_streams r m), ?_⟩
  rw [passToClock_wires, fck]

/-! ### The cut timer (R28) -/

theorem cutStream_is (i : Fin 16) {s : State} (other : s.sau.streams[i].state ≠ .cut) :
    StreamIs i { s.sau.streams[i].plus [.cutEvents] with
      state := .cut, changed := s.time, stay := s.sau.streams[i].stay + 1, timer := none } s (cutStream i s) := by
  have left := leaveFor_is i .cut s
  have raised := raiseCounters_is i [.cutEvents] (leaveFor i .cut s)
  rw [left.stream, Stream.enter_cut _ other] at raised
  have is := left.andThen raised
  unfold cutStream
  generalize raiseCounters i [.cutEvents] (leaveFor i .cut s) = u at is ⊢
  exact is.to (raise_sau ..)

theorem cutStream_names (i : Fin 16) (s : State) : WrapsNamed i [.cutEvents] s (cutStream i s) := by
  have left := leaveFor_is i .cut s
  have attention : (leaveFor i .cut s).page.attention = s.page.attention := (leaveFor_only i .cut s).same .attention (by decide)
  have counters : (leaveFor i .cut s).sau.streams[i].counters = s.sau.streams[i].counters := by
    rw [left.stream]
    rfl
  have flag : attentionHas .counterWrap (leaveFor i .cut s) = attentionHas .counterWrap s := by
    unfold attentionHas
    rw [attention]
  have raised := (raiseCounters_names i [.cutEvents] (leaveFor i .cut s)).from' counters flag (leaveFor_lastWrapped i .cut s)
  unfold cutStream
  generalize raiseCounters i [.cutEvents] (leaveFor i .cut s) = u at raised ⊢
  refine raised.to ?_ rfl
  rw [attentionHas_raise, show decide (Cause.counterWrap = .streamCut) = false from rfl, Bool.or_false]

theorem cutStream_wires (i : Fin 16) (s : State) : (cutStream i s).wires = { s.wires with lockedExits := exitsAfter i s } := by
  have same : (raiseCounters i [.cutEvents] (leaveFor i .cut s)).wires = (leaveFor i .cut s).wires :=
    (raiseCounters_only i [.cutEvents] _).same .wires (by decide)
  rw [cutStream, raise_wires, same, leaveFor_wires]

/-- Settles O25: the outcome by `takeReturned_moves`, one case of the move at a time; the cut by `cutStream_is`. -/
theorem outcomesAndCuts : Obligations.OutcomesAndCuts := by
  refine ⟨fun i s r rest next => ?_, fun i s e => ?_⟩
  · intro x y pace counted locks wires
    obtain rfl : r.stream = i := by simpa using (takeFirst_some next).1
    have taken := with_wires_only { s.wires with returned := rest } s
    refine ⟨_, exec_segmentOutcome next, ((taken.andThen (takeReturned_only r _)).among rfl).settle s,
      ((takeReturned_names r { s with wires := { s.wires with returned := rest } }).from' (s := s) rfl rfl rfl).settle s, ?_⟩
    have moves := @takeReturned_moves r { s with wires := { s.wires with returned := rest } }
    have raised := raiseCounters_is r.stream [.received, r.judgement.counter] { s with wires := { s.wires with returned := rest } }
    have counts := raiseCounters_only r.stream [.received, r.judgement.counter] { s with wires := { s.wires with returned := rest } }
    rw [settle_wires]
    generalize takeReturned r { s with wires := { s.wires with returned := rest } } = t at *
    generalize raiseCounters r.stream [.received, r.judgement.counter] { s with wires := { s.wires with returned := rest } } = u at *
    have stream : u.sau.streams[r.stream] = y := raised.stream
    have time : u.time = s.time := counts.same .time (by decide)
    have fck : u.fck = s.fck := counts.same .fck (by decide)
    have run : u.run = s.run := counts.same .run (by decide)
    have sent : u.wires = { s.wires with returned := rest } := counts.same .wires (by decide)
    have paced : isPace r.stream u = true ↔ pace := by
      rw [isPace_iff, fck]
    have finish : ∀ {m : State} {z : Stream}, outcomeMove r u = m → StreamIs r.stream z u m →
        StreamIs r.stream z s (settle s t) ∧ t.wires = { m.wires with paceReports :=
          if r.judgement = .placed ∧ pace then m.wires.paceReports ++ [r.frame] else m.wires.paceReports } := fun moved is =>
      ⟨((moves moved is).1.from' (s := s) rfl).settle s, (moves moved is).2⟩
    have counts' : counted → u.sau.streams[r.stream].Counts r := fun h => by rw [stream]; exact h
    refine ⟨fun h other => ?_, fun h miss first => ?_, fun h miss second isPace => ?_, fun h miss second notPace => ?_, fun h => ?_,
      fun noCount noLock => ?_⟩
    · have is := mapStream_is r.stream (fun x => { x with misinserts := 0 }) u
      rw [stream] at is
      obtain ⟨is', wires'⟩ := finish ((outcomeMove_counts (counts' h)).trans (if_neg other)) is
      rw [setMisinserts, mapStream_wires, sent] at wires'
      exact ⟨wires', is'⟩
    · have none' : u.sau.streams[r.stream].misinserts = 0 := by rw [stream]; exact first
      have is := mapStream_is r.stream (fun x => { x with misinserts := 1 }) u
      rw [stream] at is
      obtain ⟨is', wires'⟩ := finish ((outcomeMove_counts (counts' h)).trans ((if_pos miss).trans (if_pos none'))) is
      rw [setMisinserts, mapStream_wires, sent] at wires'
      exact ⟨wires', is'⟩
    · have some' : u.sau.streams[r.stream].misinserts ≠ 0 := by rw [stream]; exact second
      obtain ⟨is, sends⟩ := secondMisinsert_pace (paced.2 isPace)
      rw [stream] at is
      obtain ⟨is', wires'⟩ := finish ((outcomeMove_counts (counts' h)).trans ((if_pos miss).trans (if_neg some'))) is
      rw [sends, sent] at wires'
      exact ⟨wires', is'⟩
    · have some' : u.sau.streams[r.stream].misinserts ≠ 0 := by rw [stream]; exact second
      have seeks := secondMisinsert_seeks (mt paced.1 notPace)
      have locked : y.state = .locked := h.2.1
      have is := leaveFor_is r.stream .seeking u
      rw [stream, time, Stream.enter_seeks _ (by rw [locked]; nofun)] at is
      obtain ⟨is', wires'⟩ :=
        finish ((outcomeMove_counts (counts' h)).trans ((if_pos miss).trans ((if_neg some').trans seeks))) is
      have exits : exitsAfter r.stream u
          = if s.run.state = .running then s.wires.lockedExits ++ [r.stream] else s.wires.lockedExits := by
        rw [exitsAfter, stream, run, sent]
        exact if_congr (and_iff_right locked) rfl rfl
      rw [leaveFor_wires, exits, sent] at wires'
      exact ⟨wires', is'⟩
    · have is := mapStream_is r.stream (Stream.enter u.time .locked) u
      rw [stream, time, Stream.enter_locks (x := y) _ h.2.1] at is
      have locks' : u.sau.streams[r.stream].Locks r := by rw [stream]; exact h
      obtain ⟨is', wires'⟩ := finish (outcomeMove_locks locks') (is.to (by rw [enterState, time]))
      rw [enterState, mapStream_wires, sent] at wires'
      exact ⟨wires', is'⟩
    · have stays := outcomeMove_stays (r := r) (s := u) (by rw [stream]; exact noCount) (by rw [stream]; exact noLock)
      have is := StreamIs.same r.stream (s := u) (t := u) rfl
      rw [stream] at is
      obtain ⟨is', wires'⟩ := finish stays is
      rw [sent] at wires'
      exact ⟨wires', is'⟩
  · intro x armed state
    have runs : exec (.cutTimerExpiry i) s
        = if Time.reached s.time e = true then .next (settle s (cutStream i s)) else .next s := by
      change execCutTimerExpiry i s = _
      unfold execCutTimerExpiry
      rw [armed]
      rfl
    have other : x.state ≠ .cut := by
      obtain seeking | locked := state
      · rw [seeking]; nofun
      · rw [locked]; nofun
    refine ⟨fun early => runs.trans (if_neg (by rw [early]; nofun)), fun due => ⟨_, runs.trans (if_pos due), (cutStream_only i s).settle s,
      ?_, (cutStream_names i s).settle s, (cutStream_is i other).settle s, ?_⟩⟩
    · rw [attentionHas_settle, cutStream, attentionHas_raise, decide_eq_true rfl, Bool.or_true]
    · rw [settle_wires, cutStream_wires]
      rfl

end Sys2Proof.Machine

/-!
The Frame Clock (03: R40 to R49, R71): what a pace report, the flywheel and each step of a reframe make of it.
-/
namespace Sys2Proof.Machine

/-! ### Pace reports (R41 to R43, R46) -/

theorem startsFrame_iff (f : Frame) (s : State) :
    startsFrame f s = true ↔ s.fck.lastStarted = none ∨ ∃ l, s.fck.lastStarted = some l ∧ Frame.newer f l = true := by
  unfold startsFrame
  cases s.fck.lastStarted with
  | none => simp
  | some l => simp

/-- The flywheel armed now for period plus margin. -/
def armedNow (s : State) : Option Time := some (s.time + BitVec.ofNat 64 (s.fck.period + s.fck.margin))

/-- The message of a frame started now. -/
def startNow (f : Frame) (s : State) : FrameStart := { frame := f, time := s.time, deadline := s.fck.deadline }

theorem takePace_starts {f : Frame} {s : State} (starts : startsFrame f s = true) :
    (takePace f s).fck = { s.fck with lastStarted := some f, flywheel := armedNow s, pace := .paced }
      ∧ (takePace f s).wires = { s.wires with frameStarts := s.wires.frameStarts ++ [startNow f s] } := by
  unfold takePace
  rw [starts]
  cases pace : s.fck.pace with
  | paced =>
    refine ⟨?_, rfl⟩
    show ({ s.fck with lastStarted := some f, flywheel := armedNow s } : Fck) = _
    rw [← pace]
  | coasting => exact ⟨rfl, rfl⟩

theorem takePace_old {f : Frame} {s : State} (old : startsFrame f s = false) (paced : s.fck.pace = .paced) : takePace f s = s := by
  unfold takePace
  rw [old, paced]

theorem takePace_coasting {f : Frame} {s : State} (old : startsFrame f s = false) (coasting : s.fck.pace = .coasting) :
    takePace f s = { s with fck := { s.fck with flywheel := armedNow s, pace := .paced } } := by
  unfold takePace
  rw [old, coasting]
  rfl

theorem exec_paceReport {s : State} {f : Frame} {rest : List Frame} (next : s.wires.paceReports = f :: rest) :
    exec .paceReport s = .next (settle s
      (if s.run.state = .running then takePace f { s with wires := { s.wires with paceReports := rest } }
        else { s with wires := { s.wires with paceReports := rest } })) := by
  change execPaceReport s = _
  unfold execPaceReport
  rw [next]
  simp only [isRunning, beq_iff_eq]
  rfl

/-! ### The flywheel (R43 to R45) -/

theorem expireFlywheel_becomes (e : Time) (l : Frame) (s : State) :
    (expireFlywheel e l s).fck = { s.fck with
        lastStarted := some (l + 1), flywheel := some (e + BitVec.ofNat 64 s.fck.period), pace := .coasting }
      ∧ (expireFlywheel e l s).wires = { s.wires with frameStarts := s.wires.frameStarts ++ [startNow (l + 1) s] }
      ∧ ∀ c, attentionHas c (expireFlywheel e l s)
          = (attentionHas c s || (decide (s.fck.pace = .paced) && decide (c = .paceLost))) := by
  unfold expireFlywheel
  cases pace : s.fck.pace with
  | paced =>
    refine ⟨rfl, rfl, fun c => ?_⟩
    rw [attentionHas_raise, decide_eq_true rfl, Bool.true_and]
    rfl
  | coasting =>
    refine ⟨?_, rfl, fun c => ?_⟩
    · show ({ s.fck with lastStarted := some (l + 1), flywheel := some (e + BitVec.ofNat 64 s.fck.period) } : Fck) = _
      rw [← pace]
    · rw [show decide (PaceState.coasting = .paced) = false from rfl, Bool.false_and, Bool.or_false]
      rfl

/-- Settles O26: the pace report by the branches of `takePace`, the flywheel by `expireFlywheel_becomes`. -/
theorem paceAndFlywheel : Obligations.PaceAndFlywheel := by
  refine ⟨fun s f rest next => ?_, fun s e l armed last => ?_⟩
  · intro starts armed wires
    have taken := with_wires_only wires s
    have when' : startsFrame f { s with wires := wires } = true ↔ starts := startsFrame_iff ..
    refine ⟨_, exec_paceReport next, ?_⟩
    rw [settle_fck, settle_wires]
    by_cases running : s.run.state = .running
    · rw [if_pos running]
      refine ⟨((taken.andThen (takePace_only f { s with wires := wires })).among rfl).settle s, fun idle => absurd running idle,
        fun _ new => takePace_starts (s := { s with wires := wires }) (when'.2 new), fun _ old paced => ?_, fun _ old coasting => ?_⟩
      · rw [takePace_old (s := { s with wires := wires }) (Bool.eq_false_iff.2 (mt when'.1 old)) paced]
        exact ⟨rfl, rfl⟩
      · rw [takePace_coasting (s := { s with wires := wires }) (Bool.eq_false_iff.2 (mt when'.1 old)) coasting]
        exact ⟨rfl, rfl⟩
    · rw [if_neg running]
      exact ⟨(taken.among rfl).settle s, fun _ => ⟨rfl, rfl⟩, fun run => absurd run running, fun run => absurd run running,
        fun run => absurd run running⟩
  · have runs : exec .flywheelExpiry s = if s.run.state = .running ∧ Time.reached s.time e = true
        then .next (settle s (expireFlywheel e l s)) else .next s := by
      change execFlywheelExpiry s = _
      unfold execFlywheelExpiry
      rw [armed, last]
      simp only [isRunning, Bool.and_eq_true, beq_iff_eq]
      rfl
    obtain ⟨fck, wires, flags⟩ := expireFlywheel_becomes e l s
    refine ⟨fun waits => runs.trans (if_neg fun due => ?_), fun due running => ⟨_, runs.trans (if_pos ⟨running, due⟩),
      (expireFlywheel_only e l s).settle s, ?_, ?_, ?_, fun c other => ?_⟩⟩
    · obtain early | idle := waits
      · exact absurd (early.symm.trans due.2) nofun
      · exact idle due.1
    · rw [settle_fck, fck]
    · rw [settle_wires, wires]
      rfl
    · rw [attentionHas_settle, flags, decide_eq_true (rfl : Cause.paceLost = .paceLost), Bool.and_true]
    · rw [attentionHas_settle, flags, decide_eq_false other, Bool.and_false, Bool.or_false]

/-! ### The reframe (R27, R48, R49, R71) -/

/-- The pace stream when its reframe is confirmed: awaited no more, and seeking if it is LOCKED. -/
def Stream.confirmed (now : Time) (x : Stream) : Stream :=
  if x.state = .locked then { x.seeks now with awaiting := false } else { x with awaiting := false }

theorem reframeDone_is (i : Fin 16) (s : State) : StreamIs i (s.sau.streams[i].confirmed s.time) s (reframeDone i s) := by
  have marked := mapStream_is i (fun x => { x with awaiting := false }) s
  unfold reframeDone Stream.confirmed
  by_cases locked : s.sau.streams[i].state = .locked
  · have seeks := leaveFor_is i .seeking (mapStream i (fun x => { x with awaiting := false }) s)
    have other : ¬ ({ s.sau.streams[i] with awaiting := false } : Stream).state = .seeking := by
      show ¬ s.sau.streams[i].state = .seeking
      rw [locked]
      nofun
    rw [marked.stream, Stream.enter_seeks _ other] at seeks
    rw [if_pos locked, if_pos locked]
    exact marked.andThen seeks
  · rw [if_neg locked, if_neg locked]
    exact marked

theorem reframeDone_wires (i : Fin 16) (s : State) :
    (reframeDone i s).wires = { s.wires with lockedExits := exitsAfter i s } := by
  have marked := mapStream_is i (fun x => { x with awaiting := false }) s
  unfold reframeDone
  by_cases locked : s.sau.streams[i].state = .locked
  · rw [if_pos locked, leaveFor_wires, mapStream_wires, exitsAfter, exitsAfter, marked.stream]
    rfl
  · rw [if_neg locked, mapStream_wires, exitsAfter, if_neg fun leaves => locked leaves.1]

theorem reframeDone_lastWrapped (i : Fin 16) (s : State) : (reframeDone i s).sau.lastWrapped = s.sau.lastWrapped := by
  unfold reframeDone
  dsimp only
  split
  · exact leaveFor_lastWrapped ..
  · rfl

theorem exec_misinsertReport {s : State} {i : Fin 16} {rest : List (Fin 16)} (next : s.wires.misinserts = i :: rest) :
    exec .misinsertReport s = .next (settle s
      (if s.run.state ≠ .running ∨ s.fck.reframing = true then
          reframeDone i { s with wires := { s.wires with misinserts := rest } }
        else beginReframe { s with wires := { s.wires with misinserts := rest } })) := by
  change execMisinsertReport s = _
  unfold execMisinsertReport
  rw [next]
  simp only [isRunning, Bool.or_eq_true, Bool.not_eq_true', beq_eq_false_iff_ne]
  rfl

/-- What a reframe request makes of Frame Assembly (R71). -/
def reframed (s : State) : State :=
  let freed := abandonWaiting { s with wires := { s.wires with reframeRequest := false } }
  { freed with
    fau := { freed.fau with lastDispatched := none, base := none }
    wires := { freed.wires with reframeConfirmed := true } }

theorem exec_reframeRequest {s : State} (requested : s.wires.reframeRequest = true) :
    exec .reframeRequest s = .next (settle s (reframed s)) := if_pos requested

theorem reframed_becomes (s : State) : OnlyChanges [.fau, .wires] s (reframed s)
    ∧ (reframed s).fau = { s.fau with
        records := freedRecords (recordsIn RecordState.waits s) s.fau.records, lastDispatched := none, base := none
        abandoned := s.fau.abandoned + BitVec.ofNat 32 (recordsIn RecordState.waits s).length }
    ∧ (reframed s).wires = { s.wires with
        reframeRequest := false, reframeConfirmed := true
        recordsFreed := s.wires.recordsFreed ++ recordsIn RecordState.waits s } := by
  have freed := abandonWaiting_eq { s with wires := { s.wires with reframeRequest := false } }
  have only := (with_wires_only { s.wires with reframeRequest := false } s).andThen (abandonWaiting_only _)
  unfold reframed
  rw [freed] at only ⊢
  exact ⟨(only.andThen (with_fau_wires_only _ _ _)).among rfl, rfl, rfl⟩

theorem exec_reframeConfirmation {s : State} (confirmed : s.wires.reframeConfirmed = true) :
    exec .reframeConfirmation s = .next (settle s (reframeDone s.fck.stream
      { s with fck := { s.fck with reframing := false }, wires := { s.wires with reframeConfirmed := false } })) := if_pos confirmed

/-- Settles O27: a report that is confirmed at once and the confirmation by `reframeDone_is`, the request by `abandonWaiting_eq`. -/
theorem reframeSteps : Obligations.ReframeSteps := by
  refine ⟨fun s i rest next => ?_, fun s requested => ?_, fun s confirmed => ?_⟩
  · intro x wires exits
    have taken := with_wires_only wires s
    refine ⟨_, exec_misinsertReport next, fun running fresh => ?_, fun atOnce => ?_⟩
    · rw [if_neg (by rw [not_or, not_not]; exact ⟨running, Bool.eq_false_iff.1 fresh⟩)]
      refine ⟨((taken.andThen (beginReframe_only { s with wires := wires })).among rfl).settle s, ?_, ?_, ?_⟩
      · rw [attentionHas_settle, beginReframe, attentionHas_raise, decide_eq_true rfl, Bool.or_true]
      · rw [settle_fck]
        rfl
      · rw [settle_wires]
        rfl
    · rw [if_pos atOnce]
      have is := reframeDone_is i { s with wires := wires }
      have sends := reframeDone_wires i { s with wires := wires }
      have changes := (taken.andThen (reframeDone_only i { s with wires := wires })).among (qs := [.sau, .wires]) rfl
      generalize reframeDone i { s with wires := wires } = t at *
      exact ⟨changes.settle s, (settle_wires ..).trans sends, (is.from' (s := s) rfl).settle s⟩
  · refine ⟨_, exec_reframeRequest requested, ?_⟩
    obtain ⟨only, fau, wires⟩ := reframed_becomes s
    generalize reframed s = t at *
    rw [settle_fau, settle_wires, fau, wires]
    exact ⟨only.settle s, fun r => (freedRecords_get ..).trans (if_congr mem_recordsIn_iff rfl rfl), rfl, rfl⟩
  · intro i x
    have over' := with_fck_wires_only { s.fck with reframing := false } { s.wires with reframeConfirmed := false } s
    have is := reframeDone_is i
      { s with fck := { s.fck with reframing := false }, wires := { s.wires with reframeConfirmed := false } }
    have sends := reframeDone_wires i
      { s with fck := { s.fck with reframing := false }, wires := { s.wires with reframeConfirmed := false } }
    have last := reframeDone_lastWrapped i
      { s with fck := { s.fck with reframing := false }, wires := { s.wires with reframeConfirmed := false } }
    have done' := reframeDone_only i
      { s with fck := { s.fck with reframing := false }, wires := { s.wires with reframeConfirmed := false } }
    refine ⟨_, exec_reframeConfirmation confirmed, ?_⟩
    generalize reframeDone i
      { s with fck := { s.fck with reframing := false }, wires := { s.wires with reframeConfirmed := false } } = t at *
    have is' := (is.from' (s := s) rfl).settle s
    rw [settle_fck, settle_wires]
    refine ⟨((over'.andThen done').among rfl).settle s, done'.same .fck (by decide), sends, fun locked => ?_, fun other => ?_,
      (congrArg Sau.lastWrapped (settle_sau ..)).trans last⟩
    · rwa [Stream.confirmed, if_pos locked] at is'
    · rwa [Stream.confirmed, if_neg other] at is'

end Sys2Proof.Machine

/-!
Dispatch and closing (4.5, 4.6: R30, R31, R64 to R68, R74): a dispatched record, the void frames counted at a close, and a close.
-/
namespace Sys2Proof.Machine

/-! ### Choosing a record by its place (R52, R58, R67) -/

theorem newest_of {s : State} {rs : List (Fin 4)} {q : Fin 4} (mem : q ∈ rs) (last : ∀ p ∈ rs, p ≠ q → placeOf p s < placeOf q s) :
    newest s rs = some q := by
  induction rs with
  | nil => cases mem
  | cons r rs ih =>
    have last' : ∀ p ∈ rs, p ≠ q → placeOf p s < placeOf q s := fun p m => last p (List.mem_cons_of_mem _ m)
    by_cases later : q ∈ rs
    · rw [newest, ih later last']
      by_cases own : r = q
      · subst own; simp
      · simp [last r List.mem_cons_self own]
    · obtain rfl : q = r := (List.mem_cons.1 mem).resolve_right later
      rw [newest]
      cases found : newest s rs with
      | none => rfl
      | some p =>
        have inside := newest_mem found
        have below := last' p inside fun same => later (same ▸ inside)
        exact if_neg (by omega)

theorem oldest_of {s : State} {rs : List (Fin 4)} {q : Fin 4} (mem : q ∈ rs) (first : ∀ p ∈ rs, p ≠ q → placeOf q s < placeOf p s) :
    oldest s rs = some q := by
  induction rs with
  | nil => cases mem
  | cons r rs ih =>
    have first' : ∀ p ∈ rs, p ≠ q → placeOf q s < placeOf p s := fun p m => first p (List.mem_cons_of_mem _ m)
    by_cases later : q ∈ rs
    · rw [oldest, ih later first']
      by_cases own : r = q
      · subst own; simp
      · simp [first r List.mem_cons_self own]
    · obtain rfl : q = r := (List.mem_cons.1 mem).resolve_right later
      rw [oldest]
      cases found : oldest s rs with
      | none => rfl
      | some p =>
        have inside := oldest_mem found
        have above := first' p inside fun same => later (same ▸ inside)
        exact if_neg (by omega)

theorem newest_newestClosed {s : State} {q : Fin 4} (h : NewestClosed q s.fau) : newest s (recordsIn (· == .closed) s) = some q := by
  refine newest_of (mem_recordsIn.2 (by rw [h.1]; rfl)) fun p mem other => h.2 p other ?_
  simpa using mem_recordsIn.1 mem

/-! ### A dispatch (R67, R68, R74) -/

theorem freeAll_countSkipped (rs : List (Fin 4)) (s : State) :
    freeAll countSkipped rs s
      = { s with
          fau := { s.fau with
            records := freedRecords rs s.fau.records, skipped := s.fau.skipped + BitVec.ofNat 32 rs.length }
          wires := { s.wires with recordsFreed := s.wires.recordsFreed ++ rs } } := by
  induction rs generalizing s with
  | nil =>
    have same : s.fau.skipped + BitVec.ofNat 32 0 = s.fau.skipped := BitVec.add_zero _
    simp only [freeAll, freedRecords, List.foldl_nil, List.append_nil, List.length_nil, same]
  | cons r rs ih =>
    show freeAll countSkipped rs (countSkipped (freeRecord r s)) = _
    have total : s.fau.skipped + 1 + BitVec.ofNat 32 rs.length = s.fau.skipped + BitVec.ofNat 32 (r :: rs).length := by
      rw [List.length_cons, BitVec.ofNat_add, BitVec.add_assoc, BitVec.add_comm 1]
      rfl
    rw [ih]
    simp only [countSkipped, freeRecord, mapRecord, total, List.append_assoc, List.singleton_append]
    rfl

/-- The CLOSED records a dispatch of `r` skips. -/
def skippedBy (r : Fin 4) (u : Fau) : List (Fin 4) := (allFin 4).filter fun q => q ≠ r && u.records[q].state == .closed

/-- The OPEN records a dispatch of `r` abandons. -/
def staleBy (r : Fin 4) (u : Fau) : List (Fin 4) :=
  (allFin 4).filter fun q => u.records[q].state == .opened && !Frame.newerBy 8 u.records[q].frame u.records[r].frame

theorem mem_skippedBy {r q : Fin 4} {u : Fau} : q ∈ skippedBy r u ↔ q ≠ r ∧ u.records[q].state = .closed := by
  simp [skippedBy, mem_allFin]

theorem mem_staleBy {r q : Fin 4} {u : Fau} :
    q ∈ staleBy r u ↔ u.records[q].state = .opened ∧ Frame.newerBy 8 u.records[q].frame u.records[r].frame = false := by
  simp [staleBy, mem_allFin]

/-- What a dispatch of `r` makes of the Frame Table. -/
def Fau.dispatch (r : Fin 4) (u : Fau) : Fau :=
  { u with
    records := freedRecords (staleBy r u) (freedRecords (skippedBy r u) (tweak u.records r fun y => { y with state := .dispatched }))
    skipped := u.skipped + BitVec.ofNat 32 (skippedBy r u).length
    abandoned := u.abandoned + BitVec.ofNat 32 (staleBy r u).length
    lastDispatched := some u.records[r].frame
    base := some u.records[r].frame
    dispatched := u.dispatched + 1
    voided := if u.records[r].void then u.voided + 1 else u.voided }

theorem Fau.dispatch_record (r q : Fin 4) (u : Fau) : (u.dispatch r).records[q]
    = if q ∈ staleBy r u then {} else if q ∈ skippedBy r u then {}
      else if q = r then { u.records[r] with state := .dispatched } else u.records[q] := by
  show (freedRecords _ _)[q] = _
  rw [freedRecords_get, freedRecords_get, tweak_get]

theorem dispatch_eq (r : Fin 4) (s : State) :
    (Machine.dispatch r s).fau = s.fau.dispatch r
      ∧ (Machine.dispatch r s).wires = { s.wires with
          recordsFreed := s.wires.recordsFreed ++ (skippedBy r s.fau ++ staleBy r s.fau)
          handover := some (handoverOf r s.fau.records[r]) } := by
  have skipped : ((recordsIn (· == .closed) s).filter fun q => q != r) = skippedBy r s.fau := by
    rw [recordsIn, List.filter_filter, skippedBy]
    refine List.filter_congr fun q _ => ?_
    by_cases same : q = r <;> simp [same]
  have stale : ((recordsIn (· == .opened) s).filter fun q =>
      !Frame.newerBy Config.openAhead s.fau.records[q].frame s.fau.records[r].frame) = staleBy r s.fau := by
    rw [recordsIn, List.filter_filter, staleBy]
    exact List.filter_congr fun q _ => Bool.and_comm ..
  unfold Machine.dispatch
  dsimp only
  rw [skipped, stale, freeAll_countSkipped, freeAll_countAbandoned]
  refine ⟨rfl, ?_⟩
  dsimp only [mapRecord_wires]
  rw [List.append_assoc]

/-- A CLOSED record is dispatched. -/
theorem dispatch_dispatched {r : Fin 4} {s : State} (closed : s.fau.records[r].state = .closed) :
    Dispatched r s.fau s.wires (Machine.dispatch r s) := by
  obtain ⟨fau, wires⟩ := dispatch_eq r s
  have freed : ∀ q, FreedBy r s.fau q ↔ q ∈ skippedBy r s.fau ∨ q ∈ staleBy r s.fau := by
    intro q
    rw [mem_skippedBy, mem_staleBy]
    refine ⟨fun ⟨other, which⟩ => which.imp (fun h => ⟨other, h⟩) id, fun which => ?_⟩
    obtain ⟨other, state⟩ | ⟨state, far⟩ := which
    · exact ⟨other, .inl state⟩
    · refine ⟨fun same => ?_, .inr ⟨state, far⟩⟩
      rw [same, closed] at state
      cases state
  have record : ∀ q : Fin 4, (Machine.dispatch r s).fau.records[q]
      = if q ∈ staleBy r s.fau then {} else if q ∈ skippedBy r s.fau then {}
        else if q = r then { s.fau.records[r] with state := .dispatched } else s.fau.records[q] := fun q => by
    rw [fau, Fau.dispatch_record]
  have itself : r ∉ staleBy r s.fau ∧ r ∉ skippedBy r s.fau := by
    rw [mem_skippedBy, mem_staleBy, closed]
    exact ⟨fun h => absurd h.1 nofun, fun h => h.1 rfl⟩
  have nodup : (skippedBy r s.fau ++ staleBy r s.fau).Nodup := by
    refine List.nodup_append.2 ⟨(allFin_nodup 4).filter _, (allFin_nodup 4).filter _, fun a ha b hb same => ?_⟩
    have state := (mem_skippedBy.1 ha).2
    rw [same, (mem_staleBy.1 hb).1] at state
    cases state
  exact
    { itself := by rw [record, if_neg itself.1, if_neg itself.2, if_pos rfl]
      freed := fun q h => by
        rw [record]
        obtain skipped | stale := (freed q).1 h
        · rw [if_pos skipped, ite_self]
        · rw [if_pos stale]
      others := fun q other kept => by
        have none' := not_or.1 (mt (freed q).2 kept)
        rw [record, if_neg none'.2, if_neg none'.1, if_neg other]
      last := by rw [fau]; exact ⟨rfl, rfl⟩
      lastGood := by rw [fau]; rfl
      dispatched := by rw [fau]; rfl
      overrun := by rw [fau]; rfl
      voided := by rw [fau]; rfl
      skipped := by rw [fau]; rfl
      abandoned := by rw [fau]; rfl
      handed := ⟨_, nodup, fun q => List.mem_append.trans (freed q).symm, wires⟩ }

theorem dispatchCheck_busy {s : State} (busy : engineIdleAtFau s = false) : dispatchCheck s = s := if_neg (by rw [busy]; nofun)

theorem dispatchCheck_none {s : State} (none' : recordsIn (· == .closed) s = []) : dispatchCheck s = s := by
  unfold dispatchCheck
  rw [none']
  split <;> rfl

theorem dispatchCheck_goes {s : State} {q : Fin 4} (idle : engineIdleAtFau s = true) (h : NewestClosed q s.fau) :
    Dispatched q s.fau s.wires (dispatchCheck s) := by
  unfold dispatchCheck
  rw [if_pos idle, newest_newestClosed h]
  exact dispatch_dispatched h.1

theorem dispatchCheck_cases (s : State) : dispatchCheck s = s ∨ ∃ r, dispatchCheck s = Machine.dispatch r s := by
  unfold dispatchCheck
  split
  · split
    · next r _ => exact .inr ⟨r, rfl⟩
    · exact .inl rfl
  · exact .inl rfl

/-- A dispatch check leaves a record as it is, or leaves it not OPEN. -/
theorem dispatchCheck_record (q : Fin 4) (s : State) :
    (dispatchCheck s).fau.records[q] = s.fau.records[q] ∨ (dispatchCheck s).fau.records[q].state ≠ .opened := by
  obtain same | ⟨r, goes⟩ := dispatchCheck_cases s
  · rw [same]
    exact .inl rfl
  · rw [goes, (dispatch_eq r s).1, Fau.dispatch_record]
    split
    · exact .inr nofun
    · split
      · exact .inr nofun
      · split
        · exact .inr nofun
        · exact .inl rfl

/-- A dispatch check changes of the messages only the freed records and the handover. -/
theorem dispatchCheck_messages (s : State) : (dispatchCheck s).wires = { s.wires with
    recordsFreed := (dispatchCheck s).wires.recordsFreed, handover := (dispatchCheck s).wires.handover } := by
  unfold dispatchCheck
  split
  · split
    · rw [(dispatch_eq _ s).2]
    · rfl
  · rfl

/-! ### Void frames counted (R30, R31, log 40) -/

/-- The void frames of some streams counted, one stream after another. -/
def countOver (over' : Fin 16 → Bool) (is : List (Fin 16)) (s : State) : State :=
  is.foldl (fun s i => if over' i = true then raiseCounters i [.voidFrames] s else s) s

/-- What counting the void frames of some streams in rising order makes. -/
structure CountedOver (over' : Fin 16 → Bool) (is : List (Fin 16)) (s t : State) : Prop where
  streams : ∀ i : Fin 16, t.sau.streams[i] =
    if i ∈ is ∧ over' i = true then s.sau.streams[i].plus [.voidFrames] else s.sau.streams[i]
  rest : t.sau = { s.sau with streams := t.sau.streams, lastWrapped := t.sau.lastWrapped }
  wrapped : ∀ i ∈ is, over' i = true → s.sau.streams[i].counter .voidFrames = 65535 →
    (∀ j ∈ is, i < j → over' j = true → s.sau.streams[j].counter .voidFrames ≠ 65535) →
    attentionHas .counterWrap t = true ∧ t.sau.lastWrapped = i
  same : (∀ i ∈ is, over' i = true → s.sau.streams[i].counter .voidFrames ≠ 65535) →
    attentionHas .counterWrap t = attentionHas .counterWrap s ∧ t.sau.lastWrapped = s.sau.lastWrapped

theorem CountedOver.cons {over' : Fin 16 → Bool} {i : Fin 16} {is : List (Fin 16)} {s t : State} (below : ∀ j ∈ is, i < j)
    (over'' : over' i = true) (h : CountedOver over' is (raiseCounters i [.voidFrames] s) t) : CountedOver over' (i :: is) s t := by
  have one := raiseCounters_is i [.voidFrames] s
  have names := raiseCounters_names i [.voidFrames] s
  generalize raiseCounters i [.voidFrames] s = u at h one names
  have outside : i ∉ is := fun mem => absurd (below i mem) (lt_irrefl i)
  have before : ∀ j ∈ is, u.sau.streams[j] = s.sau.streams[j] := fun j mem => one.others j (Ne.symm (ne_of_lt (below j mem)))
  refine ⟨fun j => ?_, by rw [h.rest, one.rest], fun j mem over_ full none' => ?_, fun none' => ?_⟩
  · rw [h.streams j]
    by_cases own : j = i
    · rw [own, if_neg fun m => outside m.1, if_pos ⟨List.mem_cons_self, over''⟩, one.stream]
    · rw [one.others j own]
      exact if_congr (by simp [own]) rfl rfl
  · obtain rfl | mem := List.mem_cons.1 mem
    · have later := h.same fun k m o => by rw [before k m]; exact none' k (List.mem_cons_of_mem _ m) (below k m) o
      rw [later.1, later.2]
      exact names.wrapped ⟨_, List.mem_singleton_self _, full⟩
    · refine h.wrapped j mem over_ (by rw [before j mem]; exact full) fun k m above o => ?_
      rw [before k m]
      exact none' k (List.mem_cons_of_mem _ m) above o
  · have later := h.same fun k m o => by rw [before k m]; exact none' k (List.mem_cons_of_mem _ m) o
    rw [later.1, later.2]
    refine names.same fun c mem => ?_
    rw [List.mem_singleton.1 mem]
    exact none' i List.mem_cons_self over''

theorem CountedOver.skip {over' : Fin 16 → Bool} {i : Fin 16} {is : List (Fin 16)} {s t : State} (within : ¬ over' i = true)
    (h : CountedOver over' is s t) : CountedOver over' (i :: is) s t where
  streams := fun j => by
    rw [h.streams j]
    by_cases own : j = i
    · rw [own, if_neg fun m => within m.2, if_neg fun m => within m.2]
    · exact if_congr (by simp [own]) rfl rfl
  rest := h.rest
  wrapped := fun j mem over_ full none' => by
    obtain rfl | mem := List.mem_cons.1 mem
    · exact absurd over_ within
    · exact h.wrapped j mem over_ full fun k m => none' k (List.mem_cons_of_mem _ m)
  same := fun none' => h.same fun k m => none' k (List.mem_cons_of_mem _ m)

theorem countOver_counted (over' : Fin 16 → Bool) {is : List (Fin 16)} (rising : is.Pairwise (· < ·)) (s : State) :
    CountedOver over' is s (countOver over' is s) := by
  induction is generalizing s with
  | nil => exact ⟨fun i => (if_neg fun h => List.not_mem_nil h.1).symm, rfl, fun _ mem => absurd mem List.not_mem_nil, fun _ => ⟨rfl, rfl⟩⟩
  | cons i is ih =>
    obtain ⟨below, rising⟩ := List.pairwise_cons.1 rising
    show CountedOver over' (i :: is) s (countOver over' is (if over' i = true then raiseCounters i [.voidFrames] s else s))
    by_cases over_ : over' i = true
    · rw [if_pos over_]
      exact (ih rising _).cons below over_
    · rw [if_neg over_]
      exact (ih rising s).skip over_

theorem allFin_rising (n : Nat) : (allFin n).Pairwise (· < ·) := (List.sortedLT_finRange n).pairwise

/-- The stream counts a void frame at the close of the record (R31). -/
def countsVoid (streams : Vector Stream 16) (y : Record) (i : Fin 16) : Bool :=
  streams[i].enabled && decide (streams[i].config.allowance < y.voidCounts[i])

theorem close_streamMap (x : Record) (cause : CloseCause) (now : Time) (streams : Vector Stream 16) (i : Fin 16) :
    (x.close cause now streams).streamMap[i] = mapEntry streams[i] := by
  show (streams.map mapEntry)[i] = _
  simp

theorem countVoidFrames_eq (x : Record) (cause : CloseCause) (now : Time) (streams : Vector Stream 16) (s : State) :
    countVoidFrames s (x.close cause now streams)
      = countOver (countsVoid streams (x.close cause now streams)) (allFin 16) s := by
  unfold countVoidFrames countOver
  congr 1
  funext u i
  rw [close_streamMap, mapEntry, countsVoid]
  cases streams[i].enabled with
  | false => rfl
  | true => simp

/-- A stream that has counted a void frame is another one. -/
theorem plus_voidFrames_ne (x : Stream) : x.plus [.voidFrames] ≠ x := by
  intro same
  have raised : (x.plus [.voidFrames]).counter .voidFrames = x.counter .voidFrames + 1 := (counter_bump ..).trans (if_pos rfl)
  rw [same] at raised
  exact absurd raised (by generalize x.counter .voidFrames = c; bv_omega)

theorem countVoidFrames_counted (x : Record) (cause : CloseCause) (now : Time) (s : State) :
    VoidFramesCounted (x.close cause now s.sau.streams) s (countVoidFrames s (x.close cause now s.sau.streams)) := by
  rw [countVoidFrames_eq]
  have counted := countOver_counted (countsVoid s.sau.streams (x.close cause now s.sau.streams)) (allFin_rising 16) s
  generalize countOver _ _ s = t at counted
  generalize x.close cause now s.sau.streams = y at counted
  have over_ : ∀ i : Fin 16, t.sau.streams[i] ≠ s.sau.streams[i] ↔ countsVoid s.sau.streams y i = true := by
    intro i
    rw [counted.streams i]
    by_cases counts : countsVoid s.sau.streams y i = true
    · rw [if_pos ⟨mem_allFin i, counts⟩]
      exact iff_of_true (plus_voidFrames_ne _) counts
    · rw [if_neg fun h => counts h.2]
      exact iff_of_false (fun h => h rfl) counts
  exact
    { counts := fun i => (counted.streams i).trans (if_congr (by simp [countsVoid, mem_allFin]) rfl rfl)
      rest := counted.rest
      wrapped := fun i moved full none' =>
        counted.wrapped i (mem_allFin i) ((over_ i).1 moved) full fun j _ above over' => none' j above ((over_ j).2 over')
      same := fun none' => counted.same fun i _ over' => none' i ((over_ i).2 over') }

/-! ### A close (R64 to R67) -/

theorem VoidFramesCounted.from' {y : Record} {s t u : State} (h : VoidFramesCounted y t u) (sau : t.sau = s.sau)
    (flag : attentionHas .counterWrap t = attentionHas .counterWrap s) : VoidFramesCounted y s u := by
  obtain ⟨counts, rest, wrapped, same⟩ := h
  rw [sau] at counts rest wrapped same
  exact ⟨counts, rest, wrapped, flag ▸ same⟩

theorem VoidFramesCounted.to {y : Record} {s t u : State} (h : VoidFramesCounted y s t) (sau : u.sau = t.sau)
    (flag : attentionHas .counterWrap u = attentionHas .counterWrap t) : VoidFramesCounted y s u := by
  obtain ⟨counts, rest, wrapped, same⟩ := h
  rw [← sau] at counts rest wrapped same
  rw [← flag] at wrapped same
  exact ⟨counts, rest, wrapped, same⟩

theorem attentionHas_of_only {ps : List Part} {s t : State} (only : OnlyChanges ps s t) (apart : Part.attention ∉ ps) (c : Cause) :
    attentionHas c t = attentionHas c s := by
  have attention : t.page.attention = s.page.attention := only.same .attention apart
  unfold attentionHas
  rw [attention]

/-- A record `x` at `r` of the Frame Table `u` is about to close, with the messages `w` on their way, in a step from `s`. -/
structure ClosesNext (r : Fin 4) (x : Record) (u : Fau) (w : Wires) (s m : State) : Prop where
  sau : m.sau = s.sau
  time : m.time = s.time
  flag : attentionHas .counterWrap m = attentionHas .counterWrap s
  rce : m.rce = s.rce
  fau : m.fau = { u with records := tweak s.fau.records r fun _ => x }
  wires : m.wires = w
  handover : w.handover = s.wires.handover
  idleToFau : w.idleToFau = s.wires.idleToFau

theorem engineIdleAtFau_congr {s t : State} (rce : t.rce = s.rce) (handover : t.wires.handover = s.wires.handover)
    (idle : t.wires.idleToFau = s.wires.idleToFau) : engineIdleAtFau t = engineIdleAtFau s := by
  unfold engineIdleAtFau
  rw [rce, handover, idle]

theorem ClosesNext.closes {r : Fin 4} {x : Record} {u : Fau} {w : Wires} {s m : State} (h : ClosesNext r x u w s m)
    (cause : CloseCause) : Closes r x cause u w s (closeRecord r cause m) := by
  have itself : m.fau.records[r] = x := by
    rw [h.fau]
    exact getElem_tweak_same ..
  have closed : (mapRecord r (Record.close cause m.time m.sau.streams) m).fau
      = { u with records := tweak s.fau.records r fun _ => x.close cause s.time s.sau.streams } := by
    rw [mapRecord_fau, h.fau, h.time, h.sau, tweak_tweak]
  have record : (mapRecord r (Record.close cause m.time m.sau.streams) m).fau.records[r] = x.close cause m.time m.sau.streams := by
    rw [mapRecord_record, if_pos rfl, itself]
  have counted := countVoidFrames_counted x cause m.time (mapRecord r (Record.close cause m.time m.sau.streams) m)
  have changes := countVoidFrames_only (mapRecord r (Record.close cause m.time m.sau.streams) m) (x.close cause m.time m.sau.streams)
  unfold closeRecord
  dsimp only
  rw [record]
  rw [mapRecord_sau] at counted
  have rce : (mapRecord r (Record.close cause m.time m.sau.streams) m).rce = s.rce := h.rce
  have wires : (mapRecord r (Record.close cause m.time m.sau.streams) m).wires = w := h.wires
  have sau : (mapRecord r (Record.close cause m.time m.sau.streams) m).sau = s.sau := h.sau
  have flag : attentionHas .counterWrap (mapRecord r (Record.close cause m.time m.sau.streams) m) = attentionHas .counterWrap s :=
    h.flag
  generalize mapRecord r (Record.close cause m.time m.sau.streams) m = v at *
  rw [h.time, h.sau] at counted changes ⊢
  generalize countVoidFrames v (x.close cause s.time s.sau.streams) = z at *
  have fau_ : z.fau = v.fau := changes.same .fau (by decide)
  have fau' := fau_.trans closed
  have wires_ : z.wires = v.wires := changes.same .wires (by decide)
  have wires' := wires_.trans wires
  have rce_ : z.rce = v.rce := changes.same .rce (by decide)
  have rce' := rce_.trans rce
  have idle : engineIdleAtFau z = engineIdleAtFau s :=
    engineIdleAtFau_congr rce' (by rw [wires', h.handover]) (by rw [wires', h.idleToFau])
  have checks := dispatchCheck_only z
  have sau' : (dispatchCheck z).sau = z.sau := checks.same .sau (by decide)
  exact
    { counted := (counted.from' sau flag).to sau' (attentionHas_of_only checks (by decide) _)
      messages := by rw [← wires']; exact dispatchCheck_messages z
      waits := fun busy => by
        rw [dispatchCheck_busy (idle.trans busy)]
        exact ⟨wires', fau'⟩
      goes := fun goes q newest => by
        rw [← fau', ← wires']
        exact dispatchCheck_goes (idle.trans goes) (fau' ▸ newest) }

/-! ### What follows a close in its step -/

theorem Dispatched.to {r : Fin 4} {u : Fau} {w : Wires} {t v : State} (h : Dispatched r u w t) (fau : v.fau = t.fau)
    (wires : v.wires = t.wires) : Dispatched r u w v := by
  obtain ⟨itself, freed, others, last, lastGood, dispatched, overrun, voided, skipped, abandoned, handed⟩ := h
  rw [← fau] at itself freed others last lastGood dispatched overrun voided skipped abandoned
  rw [← wires] at handed
  exact ⟨itself, freed, others, last, lastGood, dispatched, overrun, voided, skipped, abandoned, handed⟩

theorem Closes.settle {r : Fin 4} {x : Record} {cause : CloseCause} {u : Fau} {w : Wires} {s t : State}
    (h : Closes r x cause u w s t) (b : State) : Closes r x cause u w s (Machine.settle b t) where
  counted := h.counted.to (settle_sau ..) (attentionHas_settle ..)
  messages := by rw [settle_wires]; exact h.messages
  waits := fun busy => by rw [settle_wires, settle_fau]; exact h.waits busy
  goes := fun idle q newest => (h.goes idle q newest).to (settle_fau ..) (settle_wires ..)

end Sys2Proof.Machine

/-!
Placement (4.2: R12, R51 to R59, R62): a segment placed in a record, a record opened, and the judgements.
-/
namespace Sys2Proof.Machine

/-! ### A segment in a record (R12, R55) -/

theorem placeValues_find (m : Store Int) (p k : Nat) (vs : List Int) :
    Store.find? (placeValues m p vs) k
      = if p ≤ k ∧ k < p + vs.length then some (vs.getD (k - p) 0) else Store.find? m k := by
  induction vs generalizing m p with
  | nil => exact (if_neg (by simp)).symm
  | cons v vs ih =>
    show Store.find? (placeValues (Store.insert m p v) (p + 1) vs) k = _
    rw [ih, Store.find?_insert, List.length_cons]
    by_cases here : k = p
    · subst here
      rw [if_neg (by omega), if_pos rfl, if_pos (by omega), Nat.sub_self]
      rfl
    · by_cases within : p + 1 ≤ k ∧ k < p + 1 + vs.length
      · rw [if_pos within, if_pos (by omega), show k - p = k - (p + 1) + 1 by omega, List.getD_cons_succ]
      · rw [if_neg within, if_neg here, if_neg (by omega)]

theorem values_length (g : Segment) : g.values.length = g.slopes.length := by
  unfold Segment.values
  split
  · exact List.length_map ..
  · rfl

theorem values_getD {g : Segment} {k : Nat} (h : k < g.slopes.length) :
    g.values.getD k 0 = if g.invalid then -32768 else g.slopes.getD k 0 := by
  unfold Segment.values
  split
  · rw [List.getD_eq_getElem _ _ (by rw [List.length_map]; exact h), List.getElem_map]
    rfl
  · rfl

theorem mem_addToSet (a k : Nat) (l : List Nat) : k ∈ addToSet a l ↔ k = a ∨ k ∈ l := by
  induction l with
  | nil => simp [addToSet]
  | cons x xs ih =>
    unfold addToSet
    split
    · exact List.mem_cons
    · split
      · next same => subst same; simp
      · rw [List.mem_cons, ih, List.mem_cons, or_left_comm]

/-! ### A record is opened (R51, R52, R58) -/

/-- The head of the records in a state is the lowest-numbered one. -/
theorem recordsIn_head {p : RecordState → Bool} {s : State} {r : Fin 4} (is : p s.fau.records[r].state = true)
    (lowest : ∀ q : Fin 4, q < r → ¬ p s.fau.records[q].state = true) : ∃ rest, recordsIn p s = r :: rest := by
  have rising : (recordsIn p s).Pairwise (· < ·) := (allFin_rising 4).filter _
  have mem : r ∈ recordsIn p s := mem_recordsIn.2 is
  cases list : recordsIn p s with
  | nil =>
    rw [list] at mem
    cases mem
  | cons q rest =>
    rw [list] at mem rising
    have inside : p s.fau.records[q].state = true := mem_recordsIn.1 (by rw [list]; exact List.mem_cons_self)
    obtain rfl | later := List.mem_cons.1 mem
    · exact ⟨rest, rfl⟩
    · exact absurd inside (lowest q ((List.pairwise_cons.1 rising).1 r later))

theorem recordsIn_nil {p : RecordState → Bool} {s : State} (none' : ∀ q : Fin 4, ¬ p s.fau.records[q].state = true) :
    recordsIn p s = [] := List.filter_eq_nil_iff.2 fun q _ => none' q

/-- A record opened for a frame, in a state with room for it. -/
def openedAt (r : Fin 4) (f : Frame) (s : State) : State :=
  { s with fau := { s.fau with
    records := tweak s.fau.records r fun _ => { state := .opened, frame := f }, base := some (s.fau.base.getD (f - 1)) } }

theorem openRecord_free {s : State} {r : Fin 4} (f : Frame) (free : s.fau.records[r].state = .free)
    (lowest : ∀ q : Fin 4, q < r → s.fau.records[q].state ≠ .free) : openRecord f s = (some r, openedAt r f s) := by
  obtain ⟨rest, list⟩ := recordsIn_head (p := (· == .free)) (s := s) (r := r) (by rw [free]; rfl) fun q below => by
    simpa using lowest q below
  have room : makeRoom s = s := by
    unfold makeRoom
    rw [list]
    rfl
  unfold openRecord
  dsimp only
  rw [room, list]
  rfl

/-- The oldest record of those that wait, where none is FREE (R58). -/
structure Evictable (r : Fin 4) (s : State) : Prop where
  full : ∀ q : Fin 4, s.fau.records[q].state ≠ .free
  waits : s.fau.records[r].state.waits = true
  oldest : ∀ q : Fin 4, q ≠ r → s.fau.records[q].state.waits = true → placeOf r s < placeOf q s

theorem makeRoom_evicts {s : State} {r : Fin 4} (h : Evictable r s) : makeRoom s = evict r s := by
  have none' : recordsIn (· == .free) s = [] := recordsIn_nil fun q => by simpa using h.full q
  have found : oldest s (recordsIn RecordState.waits s) = some r :=
    oldest_of (mem_recordsIn.2 h.waits) fun p mem other => h.oldest p other (mem_recordsIn.1 mem)
  unfold makeRoom
  rw [none', found]
  rfl

/-- A record opened in place of the one evicted for it. -/
def evictedFor (r : Fin 4) (f : Frame) (s : State) : State := openedAt r f (evict r s)

theorem openRecord_evicts {s : State} {r : Fin 4} (f : Frame) (h : Evictable r s) :
    openRecord f s = (some r, evictedFor r f s) := by
  have record : ∀ q : Fin 4, (evict r s).fau.records[q] = if q = r then {} else s.fau.records[q] :=
    fun q => freeRecord_record r q s
  obtain ⟨rest, list⟩ := recordsIn_head (p := (· == .free)) (s := evict r s) (r := r) (by rw [record, if_pos rfl]; rfl)
    fun q below => by
      rw [record, if_neg (ne_of_lt below)]
      simpa using h.full q
  unfold openRecord
  dsimp only
  rw [makeRoom_evicts h, list]
  rfl

theorem evictedFor_fau (r : Fin 4) (f : Frame) (s : State) :
    (evictedFor r f s).fau = { s.fau with
      records := tweak s.fau.records r fun _ => { state := .opened, frame := f }
      base := some (s.fau.base.getD (f - 1)), overrun := s.fau.overrun + 1 } := by
  show ({ s.fau with
    records := tweak (tweak s.fau.records r fun _ => {}) r fun _ => { state := .opened, frame := f }
    base := some (s.fau.base.getD (f - 1)), overrun := s.fau.overrun + 1 } : Fau) = _
  rw [tweak_tweak]

theorem evictedFor_wires (r : Fin 4) (f : Frame) (s : State) :
    (evictedFor r f s).wires = { s.wires with recordsFreed := s.wires.recordsFreed ++ [r] } := rfl

theorem evictedFor_flag (c : Cause) (r : Fin 4) (f : Frame) (s : State) :
    attentionHas c (evictedFor r f s) = (attentionHas c s || decide (c = .frameOverrun)) := attentionHas_raise ..

theorem evictedFor_only (r : Fin 4) (f : Frame) (s : State) : OnlyChanges [.fau, .wires, .attention] s (evictedFor r f s) := by
  have freed := freeRecord_only r s
  have counted := with_fau_only { (freeRecord r s).fau with overrun := (freeRecord r s).fau.overrun + 1 } (freeRecord r s)
  exact ((freed.andThen (counted.andThen (raise_only .frameOverrun _))).andThen (with_fau_only _ _)).among rfl

/-! ### The record of a frame (R51) -/

theorem recordOf_eq_none {f : Frame} {s : State} (none' : ∀ r : Fin 4, s.fau.records[r].state ≠ .free → s.fau.records[r].frame ≠ f) :
    recordOf f s = none := by
  refine List.find?_eq_none.2 fun r _ => ?_
  simp only [Bool.and_eq_true, bne_iff_ne, beq_iff_eq, not_and]
  exact none' r

theorem notNewer_iff (f : Frame) (s : State) :
    notNewer f s = true ↔ ∃ l, s.fau.lastDispatched = some l ∧ Frame.newer f l = false := by
  unfold notNewer
  cases s.fau.lastDispatched with
  | none => simp
  | some l => simp

theorem mayOpen_iff (f : Frame) (s : State) :
    mayOpen f s = true ↔ ∀ l, s.fau.lastDispatched = some l → Frame.newerBy 8 f l = true := by
  unfold mayOpen
  cases s.fau.lastDispatched with
  | none => simp
  | some l => simp [Config.openAhead]

/-- A frame within the limit ahead is newer. -/
theorem newer_of_newerBy {f l : Frame} (h : Frame.newerBy 8 f l = true) : Frame.newer f l = true := by
  simp only [Frame.newerBy, Frame.newer, Bool.and_eq_true, decide_eq_true_eq] at h ⊢
  omega

/-! ### The judgements (R53 to R57) -/

theorem malformedSegment_iff (c : StreamConfig) (g : Segment) :
    malformedSegment c g = true ↔ g.count ≠ c.segments ∨ c.segments ≤ g.index ∨ c.count < g.first + g.slopes.length := by
  simp [malformedSegment, or_assoc]

/-- In RUNNING a frame that is not late (R54). -/
def inTime (f : Frame) (s : State) : Prop :=
  s.run.state = .running ∧ ∀ l, s.fau.lastDispatched = some l → Frame.newer f l = true

theorem late_iff (f : Frame) (s : State) : (!isRunning s || notNewer f s) = true ↔ ¬ inTime f s := by
  rw [Bool.or_eq_true, notNewer_iff, inTime]
  simp only [isRunning, Bool.not_eq_true', beq_eq_false_iff_ne]
  push Not
  constructor
  · rintro (idle | ⟨l, last, old⟩) running
    · exact absurd running idle
    · exact ⟨l, last, Bool.eq_false_iff.1 old⟩
  · intro h
    by_cases running : s.run.state = .running
    · obtain ⟨l, last, old⟩ := h running
      exact .inr ⟨l, last, Bool.eq_false_iff.2 old⟩
    · exact .inl running

section
variable {i : Fin 16} {g : Segment} {s : State}

theorem judge_malformed (h : malformedSegment s.sau.streams[i].config g = true) : judgeSegment i g s = (.malformed, s) := if_pos h

theorem judge_late (shape : ¬ malformedSegment s.sau.streams[i].config g = true) (late : ¬ inTime g.frame s) :
    judgeSegment i g s = (.late, s) := (if_neg shape).trans (if_pos ((late_iff ..).2 late))

variable (shape : ¬ malformedSegment s.sau.streams[i].config g = true) (time : inTime g.frame s)
include shape time

theorem judge_known {r : Fin 4} (known : recordOf g.frame s = some r) :
    judgeSegment i g s =
      if s.fau.records[r].state ≠ .opened then (.late, s)
      else if s.fau.records[r].received[i].contains g.index then (.duplicate, s)
      else (.placed, if s.fau.records[r].started.isSome
        then completionCheck r (mapRecord r (Record.place i s.sau.streams[i].config.base g) s)
        else mapRecord r (Record.place i s.sau.streams[i].config.base g) s) := by
  unfold judgeSegment
  dsimp only
  rw [if_neg shape, if_neg fun late => (late_iff ..).1 late time, known]

theorem judge_far (unknown : recordOf g.frame s = none) (far : ¬ mayOpen g.frame s = true) : judgeSegment i g s = (.misinserted, s) := by
  unfold judgeSegment
  dsimp only
  rw [if_neg shape, if_neg fun late => (late_iff ..).1 late time, unknown]
  exact if_neg far

theorem judge_opens {r : Fin 4} {u : State} (unknown : recordOf g.frame s = none) (near : mayOpen g.frame s = true)
    (opens : openRecord g.frame s = (some r, u)) :
    judgeSegment i g s = (.placed, mapRecord r (Record.place i s.sau.streams[i].config.base g) u) := by
  unfold judgeSegment
  dsimp only
  rw [if_neg shape, if_neg fun late => (late_iff ..).1 late time, unknown]
  dsimp only
  rw [if_pos near, opens]

end

/-! ### A segment taken (R53, R59) -/

/-- The outcome of a handed-over segment. -/
def Handed.outcome (h : Handed) (j : Judgement) (f : Frame) : Returned :=
  { stream := h.stream, fromLocked := h.fromLocked, stay := h.stay, judgement := j, frame := f }

/-- The state with an outcome on its way. -/
def returning (r : Returned) (s : State) : State := { s with wires := { s.wires with returned := s.wires.returned ++ [r] } }

theorem returning_only (r : Returned) (s : State) : OnlyChanges [.wires] s (returning r s) := with_wires_only _ s

theorem placeHanded_none {h : Handed} (none' : h.segment = none) (s : State) :
    placeHanded h s = returning (h.outcome .malformed 0) s := by
  unfold placeHanded
  rw [none']
  rfl

theorem placeHanded_some {h : Handed} {g : Segment} (some' : h.segment = some g) {s t : State} {j : Judgement}
    (judged : judgeSegment h.stream g s = (j, t)) : placeHanded h s = returning (h.outcome j g.frame) t := by
  unfold placeHanded
  rw [some']
  dsimp only
  rw [judged]
  rfl

theorem exec_segmentPlacement {i : Fin 16} {s : State} {h : Handed} {rest : List Handed}
    (next : takeFirst (fun h => h.stream == i) s.wires.handed = some (h, rest)) :
    exec (.segmentPlacement i) s = .next (settle s (placeHanded h { s with wires := { s.wires with handed := rest } })) := by
  change execSegmentPlacement i s = _
  unfold execSegmentPlacement
  rw [next]
  rfl

theorem recordOf_congr {f : Frame} {s t : State} (fau : t.fau = s.fau) : recordOf f t = recordOf f s := by
  unfold recordOf
  rw [fau]

/-- Settles O29: a segment that is not placed leaves the state but for its outcome. -/
theorem segmentsNotPlaced : Obligations.SegmentsNotPlaced := by
  intro i s h rest next c returns malformed old far
  obtain rfl : h.stream = i := by simpa using (takeFirst_some next).1
  refine ⟨_, exec_segmentPlacement next, ?_⟩
  have taken := with_wires_only { s.wires with handed := rest } s
  have leaves : ∀ (j : Judgement) (f : Frame),
      placeHanded h { s with wires := { s.wires with handed := rest } }
        = returning (h.outcome j f) { s with wires := { s.wires with handed := rest } } →
      Touches [.wires] s (settle s (placeHanded h { s with wires := { s.wires with handed := rest } }))
        ∧ (settle s (placeHanded h { s with wires := { s.wires with handed := rest } })).wires = returns j f := by
    intro j f is
    rw [is]
    exact ⟨((taken.andThen (returning_only ..)).among rfl).settle s, settle_wires ..⟩
  refine ⟨fun none' => leaves _ _ (placeHanded_none none' _), fun g some' => ?_⟩
  have shaped : malformedSegment ({ s with wires := { s.wires with handed := rest } } : State).sau.streams[h.stream].config g = true
      ↔ malformed g := malformedSegment_iff ..
  have punctual : ¬ old g → inTime g.frame { s with wires := { s.wires with handed := rest } } := by
    intro notOld
    obtain ⟨running, newer⟩ := not_or.1 notOld
    refine ⟨not_not.1 running, fun l last => ?_⟩
    exact Bool.not_eq_false _ ▸ fun older => newer ⟨l, last, older⟩
  refine ⟨fun bad => leaves _ _ (placeHanded_some some' (judge_malformed (shaped.2 bad))), fun good late => ?_,
    fun good notOld none' isFar => ?_, fun r known good notOld => ⟨fun notOpen => ?_, fun isOpen again => ?_⟩⟩
  · refine leaves _ _ (placeHanded_some some' (judge_late (mt shaped.1 good) fun punctual => ?_))
    obtain idle | ⟨l, last, older⟩ := late
    · exact idle punctual.1
    · exact absurd (older.symm.trans (punctual.2 l last)) nofun
  · refine leaves _ _ (placeHanded_some some' (judge_far (mt shaped.1 good) (punctual notOld) (recordOf_eq_none none') ?_))
    obtain ⟨l, last, beyond⟩ := isFar
    exact fun near => absurd (beyond.symm.trans ((mayOpen_iff ..).1 near l last)) nofun
  · exact leaves _ _ (placeHanded_some some' ((judge_known (mt shaped.1 good) (punctual notOld) known).trans (if_pos notOpen)))
  · refine leaves _ _ (placeHanded_some some' ((judge_known (mt shaped.1 good) (punctual notOld) known).trans
      ((if_neg (not_not.2 isOpen)).trans (if_pos ?_))))
    exact List.contains_iff_mem.2 again

/-! ### A segment placed -/

theorem Dispatched.returning {r : Fin 4} {u : Fau} {w : Wires} {t : State} (h : Dispatched r u w t) (x : Returned) :
    Dispatched r u { w with returned := w.returned ++ [x] } (Machine.returning x t) := by
  obtain ⟨itself, freed, others, last, lastGood, dispatched, overrun, voided, skipped, abandoned, ⟨rs, nodup, mem, wires⟩⟩ := h
  refine ⟨itself, freed, others, last, lastGood, dispatched, overrun, voided, skipped, abandoned, ⟨rs, nodup, mem, ?_⟩⟩
  unfold Machine.returning
  rw [wires]

theorem Closes.returning {r : Fin 4} {x : Record} {cause : CloseCause} {u : Fau} {w : Wires} {s t : State}
    (h : Closes r x cause u w s t) (y : Returned) :
    Closes r x cause u { w with returned := w.returned ++ [y] } s (Machine.returning y t) where
  counted := h.counted.to rfl rfl
  messages := by
    unfold Machine.returning
    dsimp only
    rw [h.messages]
  waits := fun busy => by
    obtain ⟨wires, fau⟩ := h.waits busy
    refine ⟨?_, fau⟩
    unfold Machine.returning
    rw [wires]
  goes := fun idle q newest => (h.goes idle q newest).returning y

theorem completionCheck_waits {r : Fin 4} {s : State} (h : complete s.fau.records[r] s.sau.streams = false) :
    completionCheck r s = s := if_neg (by rw [h]; nofun)

theorem completionCheck_closes {r : Fin 4} {s : State} (h : complete s.fau.records[r] s.sau.streams = true) :
    completionCheck r s = closeRecord r .complete s := if_pos h

theorem mapRecord_eq (r : Fin 4) (f : Record → Record) (s : State) :
    mapRecord r f s = { s with fau := { s.fau with records := tweak s.fau.records r fun _ => f s.fau.records[r] } } := rfl

/-- Settles O28: `placeValues_find` for the record, `ClosesNext.closes` for the completion, `openRecord_free` and `openRecord_evicts` for
a record opened. -/
theorem segmentsPlaced : Obligations.SegmentsPlaced := by
  refine ⟨fun i base g x => ?_, fun i s h rest g next some' => ?_⟩
  · intro y from'
    refine ⟨rfl, fun p => ?_, fun k => ?_, fun j other => ?_⟩
    · refine (placeValues_find ..).trans ?_
      rw [values_length]
      by_cases within : from' ≤ p ∧ p < from' + g.slopes.length
      · rw [if_pos within, if_pos within, values_getD (by omega)]
      · rw [if_neg within, if_neg within]
    · show k ∈ (tweak x.received i (addToSet g.index))[i] ↔ _
      rw [getElem_tweak_same, mem_addToSet]
    · exact getElem_tweak_other _ (Ne.symm other) _
  · intro c count index range running newer wires
    obtain rfl : h.stream = i := by simpa using (takeFirst_some next).1
    have taken := with_wires_only { s.wires with handed := rest } s
    have shape : ¬ malformedSegment ({ s with wires := { s.wires with handed := rest } } : State).sau.streams[h.stream].config g = true :=
      fun bad => by
        obtain wrong | outside | long := (malformedSegment_iff ..).1 bad
        · exact wrong count
        · exact absurd index (Nat.not_lt.2 outside)
        · exact absurd range (Nat.not_le.2 long)
    have near : mayOpen g.frame { s with wires := { s.wires with handed := rest } } = true := (mayOpen_iff ..).2 newer
    have time : inTime g.frame { s with wires := { s.wires with handed := rest } } :=
      ⟨running, fun l last => newer_of_newerBy (newer l last)⟩
    refine ⟨_, exec_segmentPlacement next, fun r known isOpen fresh => ?_, fun unknown r => ?_⟩
    · intro x
      have judged := (judge_known shape time known).trans ((if_neg (not_not.2 isOpen)).trans (if_neg (mt List.contains_iff_mem.1 fresh)))
      have record : (mapRecord r (Record.place h.stream c.base g)
          { s with wires := { s.wires with handed := rest } }).fau.records[r] = x := (mapRecord_record ..).trans (if_pos rfl)
      refine ⟨fun notYet => ?_, fun started done' => ?_⟩
      · have stays : (if s.fau.records[r].started.isSome = true
            then completionCheck r (mapRecord r (Record.place h.stream c.base g) { s with wires := { s.wires with handed := rest } })
            else mapRecord r (Record.place h.stream c.base g) { s with wires := { s.wires with handed := rest } })
              = mapRecord r (Record.place h.stream c.base g) { s with wires := { s.wires with handed := rest } } := by
          obtain notStarted | open' := notYet
          · exact if_neg (by rw [show s.fau.records[r].started = none from notStarted]; nofun)
          · rw [completionCheck_waits (by rw [record]; exact open'), ite_self]
        rw [placeHanded_some some' (judged.trans (congrArg (Prod.mk Judgement.placed) stays))]
        refine ⟨((taken.andThen ((mapRecord_only ..).andThen (returning_only ..))).among rfl).settle s, settle_wires .., settle_fau ..⟩
      · have closes : (if s.fau.records[r].started.isSome = true
            then completionCheck r (mapRecord r (Record.place h.stream c.base g) { s with wires := { s.wires with handed := rest } })
            else mapRecord r (Record.place h.stream c.base g) { s with wires := { s.wires with handed := rest } })
              = closeRecord r .complete
                (mapRecord r (Record.place h.stream c.base g) { s with wires := { s.wires with handed := rest } }) := by
          rw [if_pos (show s.fau.records[r].started.isSome = true from started), completionCheck_closes (by rw [record]; exact done')]
        rw [placeHanded_some some' (judged.trans (congrArg (Prod.mk Judgement.placed) closes))]
        have next' : ClosesNext r x s.fau { s.wires with handed := rest } s
            (mapRecord r (Record.place h.stream c.base g) { s with wires := { s.wires with handed := rest } }) :=
          ⟨rfl, rfl, rfl, rfl, rfl, rfl, rfl, rfl⟩
        exact ((next'.closes .complete).returning _).settle s
    · intro x opened
      refine ⟨fun free lowest => ?_, fun full waits oldest => ?_⟩
      · have opens := openRecord_free (s := { s with wires := { s.wires with handed := rest } }) g.frame free lowest
        rw [placeHanded_some some' (judge_opens shape time (recordOf_eq_none unknown) near opens)]
        refine ⟨((taken.andThen ((with_fau_only _ _).andThen ((mapRecord_only ..).andThen (returning_only ..)))).among rfl).settle s, ?_,
          settle_wires ..⟩
        rw [settle_fau]
        show ({ s.fau with records := tweak (tweak s.fau.records r _) r _, base := _ } : Fau) = _
        rw [tweak_tweak]
        rfl
      · have opens := openRecord_evicts (s := { s with wires := { s.wires with handed := rest } }) g.frame ⟨full, waits, oldest⟩
        rw [placeHanded_some some' (judge_opens shape time (recordOf_eq_none unknown) near opens)]
        have only := evictedFor_only r g.frame { s with wires := { s.wires with handed := rest } }
        have fau := evictedFor_fau r g.frame { s with wires := { s.wires with handed := rest } }
        have sends := evictedFor_wires r g.frame { s with wires := { s.wires with handed := rest } }
        have flag := evictedFor_flag .frameOverrun r g.frame { s with wires := { s.wires with handed := rest } }
        generalize evictedFor r g.frame { s with wires := { s.wires with handed := rest } } = u at *
        refine ⟨((taken.andThen (only.andThen ((mapRecord_only ..).andThen (returning_only ..)))).among rfl).settle s, ?_, ?_, ?_⟩
        · rw [attentionHas_settle]
          exact flag.trans (by rw [decide_eq_true rfl, Bool.or_true])
        · rw [settle_fau]
          show ({ u.fau with records := tweak u.fau.records r _ } : Fau) = _
          rw [fau, tweak_tweak]
        · rw [settle_wires]
          show ({ u.wires with returned := u.wires.returned ++ [_] } : Wires) = _
          rw [sends]
          rfl

end Sys2Proof.Machine

/-!
What a close gathers (R64, R65): the stream map, the slopes kept, the void counts and the void verdict.
-/
namespace Sys2Proof.Machine

/-! ### Stores with entries left out -/

theorem Store.find?_filter_key {α : Type} (keep : Nat → Bool) (m : Store α) (k : Nat) :
    Store.find? (m.filter fun e => keep e.1) k = if keep k then Store.find? m k else none := by
  induction m with
  | nil => exact (ite_self _).symm
  | cons x m ih =>
    obtain ⟨a, v⟩ := x
    rw [List.filter_cons]
    by_cases kept : keep a = true
    · rw [if_pos kept, Store.find?, ih, Store.find?]
      by_cases own : k = a
      · subst own
        rw [if_pos rfl, if_pos kept, if_pos rfl]
      · rw [if_neg own, if_neg own]
    · rw [if_neg kept, ih, Store.find?]
      by_cases own : k = a
      · subst own
        rw [if_neg kept, if_neg kept]
      · rw [if_neg own]

theorem Store.rising_iff {α : Type} (m : Store α) : Store.rising m = true ↔ m.Pairwise fun x y => x.1 < y.1 := by
  induction m with
  | nil => exact ⟨fun _ => .nil, fun _ => rfl⟩
  | cons x m ih =>
    rw [List.pairwise_cons, ← ih]
    exact Store.rising_cons x.1 x.2 m

theorem Store.find?_of_mem {α : Type} {m : Store α} (rising : Store.rising m = true) {k : Nat} {v : α} (mem : (k, v) ∈ m) :
    Store.find? m k = some v := by
  induction m with
  | nil => cases mem
  | cons x m ih =>
    obtain ⟨a, b⟩ := x
    obtain ⟨above, rest⟩ := (Store.rising_cons a b m).1 rising
    unfold Store.find?
    obtain same | later := List.mem_cons.1 mem
    · cases same
      exact if_pos rfl
    · rw [if_neg (Nat.ne_of_gt (above (k, v) later))]
      exact ih rest later

/-- The entries of a range with a property are as many as the positions of the range that hold a value with it. -/
theorem Store.filter_range_length {α : Type} {m : Store α} (rising : Store.rising m = true) (base n : Nat) (good : α → Bool) :
    (m.filter fun e => (decide (base ≤ e.1) && decide (e.1 < base + n)) && good e.2).length
      = ((List.range n).filter fun k => (Store.find? m (base + k)).any good).length := by
  have nodup : ((m.filter fun e => (decide (base ≤ e.1) && decide (e.1 < base + n)) && good e.2).map Prod.fst).Nodup := by
    have apart : (m.filter fun e => (decide (base ≤ e.1) && decide (e.1 < base + n)) && good e.2).Pairwise fun x y => x.1 < y.1 :=
      ((Store.rising_iff m).1 rising).filter _
    exact List.pairwise_map.2 (apart.imp fun below => Nat.ne_of_lt below)
  have nodup' : (((List.range n).filter fun k => (Store.find? m (base + k)).any good).map (base + ·)).Nodup :=
    (List.nodup_range.filter _).map (fun _ _ => Nat.add_left_cancel)
  have same : ∀ p, p ∈ (m.filter fun e => (decide (base ≤ e.1) && decide (e.1 < base + n)) && good e.2).map Prod.fst
      ↔ p ∈ ((List.range n).filter fun k => (Store.find? m (base + k)).any good).map (base + ·) := by
    intro p
    simp only [List.mem_map, List.mem_filter, List.mem_range, Bool.and_eq_true, decide_eq_true_eq, Option.any_eq_true, Prod.exists]
    constructor
    · rintro ⟨k, v, ⟨mem, ⟨low, high⟩, isGood⟩, rfl⟩
      refine ⟨k - base, ⟨by omega, v, ?_, isGood⟩, Nat.add_sub_cancel' low⟩
      rw [Nat.add_sub_cancel' low, Store.find?_of_mem rising mem]
    · rintro ⟨k, ⟨within, v, found, isGood⟩, rfl⟩
      exact ⟨base + k, v, ⟨Store.find?_mem found, ⟨by omega, by omega⟩, isGood⟩, rfl⟩
  have length := ((List.perm_ext_iff_of_nodup nodup nodup').2 same).length_eq
  rwa [List.length_map, List.length_map] at length

/-! ### The stream map -/

theorem mem_filterMap_id {α : Type} {n : Nat} {m : Vector (Option α) n} {e : α} :
    e ∈ m.toList.filterMap id ↔ ∃ i : Fin n, m[i] = some e := by
  simp only [List.mem_filterMap, id_eq]
  constructor
  · rintro ⟨o, mem, rfl⟩
    obtain ⟨i, bound, is⟩ := List.mem_iff_getElem.1 mem
    rw [Vector.length_toList] at bound
    exact ⟨⟨i, bound⟩, by simpa using is⟩
  · rintro ⟨i, is⟩
    refine ⟨some e, ?_, rfl⟩
    rw [← is]
    exact Vector.mem_toList_iff.2 (Vector.getElem_mem i.isLt)

theorem any_filterMap_id {α : Type} (p : α → Bool) {n : Nat} (m : Vector (Option α) n) :
    ((m.toList.filterMap id).any p) = true ↔ ∃ i : Fin n, ∃ e, m[i] = some e ∧ p e = true := by
  simp only [List.any_eq_true, mem_filterMap_id]
  exact ⟨fun ⟨e, ⟨i, is⟩, good⟩ => ⟨i, e, is, good⟩, fun ⟨i, e, is, good⟩ => ⟨e, ⟨i, is⟩, good⟩⟩

theorem close_entry (x : Record) (cause : CloseCause) (now : Time) (streams : Vector Stream 16) (i : Fin 16) (e : MapEntry) :
    (x.close cause now streams).streamMap[i] = some e ↔ streams[i].enabled = true ∧ e =
      { base := streams[i].config.base, count := streams[i].config.count, substitution := streams[i].config.substitution
        mandatory := streams[i].config.mandatory, allowance := streams[i].config.allowance, locked := streams[i].state == .locked } := by
  rw [close_streamMap, mapEntry]
  cases enabled : streams[i].enabled with
  | false => simp
  | true =>
    rw [if_pos rfl, Option.some.injEq]
    exact ⟨fun same => ⟨rfl, same.symm⟩, fun h => h.2.symm⟩

theorem close_voidCounts (x : Record) (cause : CloseCause) (now : Time) (streams : Vector Stream 16) (i : Fin 16) :
    (x.close cause now streams).voidCounts[i]
      = (((x.close cause now streams).streamMap[i]).map (voidCount (x.close cause now streams).slopes)).getD 0 := by
  show (Vector.map _ (streams.map mapEntry))[i] = (((streams.map mapEntry)[i]).map _).getD 0
  simp [Record.close]

theorem keptAtClose_iff (streams : Vector Stream 16) (p : Nat) :
    keptAtClose (streams.map mapEntry) p = true ↔ ∃ i : Fin 16, streams[i].enabled = true ∧ streams[i].state = .locked
      ∧ streams[i].config.base ≤ p ∧ p < streams[i].config.base + streams[i].config.count := by
  unfold keptAtClose
  rw [any_filterMap_id]
  refine exists_congr fun i => ?_
  have entry : (streams.map mapEntry)[i] = mapEntry streams[i] := by simp
  rw [entry, mapEntry]
  cases enabled : streams[i].enabled with
  | false => simp
  | true => simp [MapEntry.holds]

theorem close_slopes (x : Record) (cause : CloseCause) (now : Time) (streams : Vector Stream 16) (p : Nat) :
    Store.find? (x.close cause now streams).slopes p
      = if keptAtClose (streams.map mapEntry) p then Store.find? x.slopes p else none :=
  Store.find?_filter_key (keptAtClose (streams.map mapEntry)) x.slopes p

theorem close_rising {x : Record} (rising : Store.rising x.slopes = true) (cause : CloseCause) (now : Time) (streams : Vector Stream 16) :
    Store.rising (x.close cause now streams).slopes = true :=
  (Store.rising_iff _).2 (((Store.rising_iff _).1 rising).filter _)

/-- The void count of a range: its positions that are absent or hold the void code. -/
theorem voidCount_eq {slopes : Store Int} (rising : Store.rising slopes = true) (e : MapEntry) :
    voidCount slopes e
      = ((List.range e.count).filter fun k => ((Store.find? slopes (e.base + k)).getD (-32768)) == -32768).length := by
  have good := Store.filter_range_length rising e.base e.count fun v => v != -32768
  have split := List.length_eq_length_filter_add (l := List.range e.count)
    fun k => (Store.find? slopes (e.base + k)).any fun v => v != -32768
  have rest : ((List.range e.count).filter fun k => !((Store.find? slopes (e.base + k)).any fun v => v != -32768))
      = (List.range e.count).filter fun k => ((Store.find? slopes (e.base + k)).getD (-32768)) == -32768 := by
    refine List.filter_congr fun k _ => ?_
    cases Store.find? slopes (e.base + k) with
    | none => rfl
    | some v => simp [bne]
  rw [rest, List.length_range] at split
  have counted : (slopes.filter fun x => e.holds x.1 && x.2 != Config.voidCode).length
      = ((List.range e.count).filter fun k => (Store.find? slopes (e.base + k)).any fun v => v != -32768).length := good
  unfold voidCount
  rw [counted]
  omega

/-- Settles O31: `close_entry`, `voidCount_eq`, `close_slopes` and `any_filterMap_id` for the fields one by one. -/
theorem frameClosing : Obligations.FrameClosing := by
  intro cause now streams x rising y inRange
  have risen : Store.rising y.slopes = true := close_rising rising ..
  refine ⟨rfl, rfl, rfl, rfl, rfl, fun i disabled => ?_, fun i enabled => ?_, fun p v => ?_, ?_⟩
  · have none' : y.streamMap[i] = none := by
      rw [close_streamMap, mapEntry, disabled]
      rfl
    refine ⟨none', ?_⟩
    rw [close_voidCounts, none']
    rfl
  · have entry := (close_entry x cause now streams i _).2 ⟨enabled, rfl⟩
    refine ⟨entry, ?_⟩
    rw [close_voidCounts, entry]
    exact voidCount_eq risen _
  · rw [close_slopes, ← keptAtClose_iff]
    by_cases kept : keptAtClose (streams.map mapEntry) p = true
    · rw [if_pos kept]
      exact (and_iff_left kept).symm
    · rw [if_neg kept]
      exact iff_of_false nofun fun h => kept h.2
  · have verdict : y.void = true ↔ ∃ i : Fin 16, ∃ e, y.streamMap[i] = some e
        ∧ (e.mandatory && decide (e.allowance < voidCount y.slopes e)) = true :=
      any_filterMap_id (fun e : MapEntry => e.mandatory && decide (e.allowance < voidCount y.slopes e)) y.streamMap
    rw [verdict]
    refine exists_congr fun i => ?_
    have counts : ∀ e, y.streamMap[i] = some e → y.voidCounts[i] = voidCount y.slopes e := fun e entry => by
      rw [close_voidCounts, entry]
      rfl
    constructor
    · rintro ⟨e, entry, over'⟩
      rw [counts e entry]
      obtain ⟨enabled, rfl⟩ := (close_entry ..).1 entry
      rw [Bool.and_eq_true, decide_eq_true_eq] at over'
      exact ⟨enabled, over'⟩
    · rintro ⟨enabled, mandatory, over'⟩
      have entry := (close_entry x cause now streams i _).2 ⟨enabled, rfl⟩
      rw [counts _ entry] at over'
      exact ⟨_, entry, by rw [Bool.and_eq_true, decide_eq_true_eq]; exact ⟨mandatory, over'⟩⟩

end Sys2Proof.Machine

/-!
Frame starts, closes and dispatches (4.3 to 4.6: R60 to R68), as the commands of Frame Assembly make them.
-/
namespace Sys2Proof.Machine

/-! ### A close leaves its record closed, dispatched or freed -/

theorem closeRecord_record (r : Fin 4) (cause : CloseCause) (s : State) : (closeRecord r cause s).fau.records[r].state ≠ .opened := by
  have counts : (countVoidFrames (mapRecord r (Record.close cause s.time s.sau.streams) s)
      (mapRecord r (Record.close cause s.time s.sau.streams) s).fau.records[r]).fau
        = (mapRecord r (Record.close cause s.time s.sau.streams) s).fau := (countVoidFrames_only ..).same .fau (by decide)
  have closed : (mapRecord r (Record.close cause s.time s.sau.streams) s).fau.records[r]
      = s.fau.records[r].close cause s.time s.sau.streams := (mapRecord_record ..).trans (if_pos rfl)
  unfold closeRecord
  dsimp only
  generalize mapRecord r (Record.close cause s.time s.sau.streams) s = v at counts closed ⊢
  obtain same | shut := dispatchCheck_record r (countVoidFrames v v.fau.records[r])
  · rw [same, counts, closed]
    nofun
  · exact shut

/-! ### A record is started (R60, R61) -/

/-- A record with its start event. -/
def Record.start (e : FrameStart) (x : Record) : Record :=
  { x with started := some e.time, deadline := some (e.time + BitVec.ofNat 64 e.deadline) }

theorem startRecord_eq (r : Fin 4) (e : FrameStart) (s : State) :
    startRecord r e s =
      if (completionCheck r (mapRecord r (Record.start e) s)).fau.records[r].state = .opened
        ∧ (completionCheck r (mapRecord r (Record.start e) s)).fau.records[r].deadline = some (e.time + BitVec.ofNat 64 e.deadline)
        ∧ Time.reached (completionCheck r (mapRecord r (Record.start e) s)).time (e.time + BitVec.ofNat 64 e.deadline) = true then
        closeRecord r .deadline (completionCheck r (mapRecord r (Record.start e) s))
      else completionCheck r (mapRecord r (Record.start e) s) := by
  refine if_congr ?_ rfl rfl
  rw [Bool.and_eq_true, Bool.and_eq_true, decide_eq_true_eq, decide_eq_true_eq, and_assoc]
  rfl

/-- What becomes of an OPEN record at its start: it waits, or it closes. -/
structure StartsAs (r : Fin 4) (x : Record) (expiry : Time) (u : Fau) (w : Wires) (s t : State) : Prop where
  waits : complete x s.sau.streams = false → Time.reached s.time expiry = false →
    t.fau = { u with records := tweak s.fau.records r fun _ => x } ∧ t.wires = w
  completes : complete x s.sau.streams = true → Closes r x .complete u w s t
  late : complete x s.sau.streams = false → Time.reached s.time expiry = true → Closes r x .deadline u w s t

theorem StartsAs.settle {r : Fin 4} {x : Record} {expiry : Time} {u : Fau} {w : Wires} {s t : State}
    (h : StartsAs r x expiry u w s t) (b : State) : StartsAs r x expiry u w s (Machine.settle b t) where
  waits := fun open' early => by rw [settle_fau, settle_wires]; exact h.waits open' early
  completes := fun done' => (h.completes done').settle b
  late := fun open' due => (h.late open' due).settle b

theorem startRecord_becomes {r : Fin 4} {x : Record} {e : FrameStart} {u : Fau} {w : Wires} {s m : State}
    (h : ClosesNext r x u w s (mapRecord r (Record.start e) m)) (opened : x.state = .opened)
    (deadline : x.deadline = some (e.time + BitVec.ofNat 64 e.deadline)) :
    StartsAs r x (e.time + BitVec.ofNat 64 e.deadline) u w s (startRecord r e m) := by
  rw [startRecord_eq]
  generalize mapRecord r (Record.start e) m = v at h
  have itself : v.fau.records[r] = x := by
    rw [h.fau]
    exact getElem_tweak_same ..
  have test : complete v.fau.records[r] v.sau.streams = complete x s.sau.streams := by rw [itself, h.sau]
  refine ⟨fun open' early => ?_, fun done' => ?_, fun open' due => ?_⟩
  · rw [completionCheck_waits (test.trans open'), if_neg, h.fau, h.wires]
    · exact ⟨rfl, rfl⟩
    · rw [h.time, early]
      exact fun due => absurd due.2.2 nofun
  · rw [completionCheck_closes (test.trans done'), if_neg fun stays => closeRecord_record r .complete v stays.1]
    exact h.closes .complete
  · rw [completionCheck_waits (test.trans open'), if_pos ⟨by rw [itself, opened], by rw [itself, deadline], by rw [h.time, due]⟩]
    exact h.closes .deadline

/-! ### Frame start events (R60) -/

section
variable {e : FrameStart} {s : State}

theorem takeStart_late (late : ¬ inTime e.frame s) : takeStart e s = s := if_pos ((late_iff ..).2 late)

variable (time : inTime e.frame s)
include time

theorem takeStart_known {r : Fin 4} (known : recordOf e.frame s = some r) :
    takeStart e s = if s.fau.records[r].state = .opened ∧ s.fau.records[r].started = none then startRecord r e s else s := by
  unfold takeStart
  rw [if_neg fun late => (late_iff ..).1 late time, known]
  refine if_congr ?_ rfl rfl
  rw [Bool.and_eq_true, decide_eq_true_eq, Option.isNone_iff_eq_none]

theorem takeStart_far (unknown : recordOf e.frame s = none) (far : ¬ mayOpen e.frame s = true) : takeStart e s = s := by
  unfold takeStart
  rw [if_neg fun late => (late_iff ..).1 late time, unknown]
  exact if_neg far

theorem takeStart_opens {r : Fin 4} {u : State} (unknown : recordOf e.frame s = none) (near : mayOpen e.frame s = true)
    (opens : openRecord e.frame s = (some r, u)) : takeStart e s = startRecord r e u := by
  unfold takeStart
  rw [if_neg fun late => (late_iff ..).1 late time, unknown]
  dsimp only
  rw [if_pos near, opens]

end

theorem exec_frameStartTake {s : State} {e : FrameStart} {rest : List FrameStart} (next : s.wires.frameStarts = e :: rest) :
    exec .frameStartTake s = .next (settle s (takeStart e { s with wires := { s.wires with frameStarts := rest } })) := by
  change execFrameStartTake s = _
  unfold execFrameStartTake
  rw [next]
  rfl

theorem RaisesOnly.has {f : BitVec 14} {s t : State} (h : RaisesOnly f s t) {c : Cause} (has : attentionHas c s = true) :
    attentionHas c t = true := by
  unfold attentionHas at *
  obtain same | raised := h
  · rw [same, has]
  · rw [raised, BitVec.getLsbD_or, has, Bool.true_or]

theorem closeRecord_raises (r : Fin 4) (cause : CloseCause) (s : State) :
    RaisesOnly Cause.counterWrap.flag s (closeRecord r cause s) := by
  have counts : ∀ (y : Record) (u : State), RaisesOnly Cause.counterWrap.flag u (countVoidFrames u y) := fun y u =>
    RaisesOnly.foldl (fun v i => by
      split
      · split
        · exact raiseCounters_raises ..
        · exact .inl rfl
      · exact .inl rfl) (allFin 16) u
  exact ((RaisesOnly.of_only (mapRecord_only ..) rfl).trans (counts _ _)).trans (.of_only (dispatchCheck_only _) rfl)

theorem completionCheck_raises (r : Fin 4) (s : State) : RaisesOnly Cause.counterWrap.flag s (completionCheck r s) := by
  unfold completionCheck
  split
  · exact closeRecord_raises ..
  · exact .inl rfl

theorem startRecord_raises (r : Fin 4) (e : FrameStart) (s : State) : RaisesOnly Cause.counterWrap.flag s (startRecord r e s) := by
  have checked : RaisesOnly Cause.counterWrap.flag s (completionCheck r (mapRecord r (Record.start e) s)) :=
    (RaisesOnly.of_only (mapRecord_only ..) rfl).trans (completionCheck_raises ..)
  rw [startRecord_eq]
  split
  · exact checked.trans (closeRecord_raises ..)
  · exact checked

/-- Settles O30: `takeStart` by its branches, the start of the record by `startRecord_becomes`. -/
theorem frameStarts : Obligations.FrameStarts := by
  intro s e rest next expiry ignored none' wires
  have taken := with_wires_only wires s
  have changes := taken.andThen (takeStart_only e { s with wires := wires })
  refine ⟨_, exec_frameStartTake next, (changes.among rfl).settle s, ?_⟩
  have stays : takeStart e { s with wires := wires } = { s with wires := wires } →
      (settle s (takeStart e { s with wires := wires })).fau = s.fau
        ∧ (settle s (takeStart e { s with wires := wires })).wires = wires := fun same => by
    rw [same, settle_fau, settle_wires]
    exact ⟨rfl, rfl⟩
  have newer : ¬ ignored → s.run.state = .running ∧ ∀ l, s.fau.lastDispatched = some l → Frame.newerBy 8 e.frame l = true := by
    intro no
    obtain ⟨running, near⟩ := not_or.1 no
    refine ⟨not_not.1 running, fun l last => ?_⟩
    exact Bool.not_eq_false _ ▸ fun far => near ⟨l, last, far⟩
  refine ⟨fun unknown late => stays ?_, fun l last old => stays ?_, fun r known shut => stays ?_,
    fun r known isOpen fresh running new => ?_, fun unknown noIgnore r => ?_⟩
  · by_cases time : inTime e.frame { s with wires := wires }
    · refine takeStart_far time (recordOf_eq_none unknown) fun near => ?_
      obtain idle | ⟨l, last, far⟩ := late
      · exact idle time.1
      · exact absurd (far.symm.trans ((mayOpen_iff ..).1 near l last)) nofun
    · exact takeStart_late time
  · exact takeStart_late fun time => absurd (old.symm.trans (time.2 l last)) nofun
  · by_cases time : inTime e.frame { s with wires := wires }
    · refine (takeStart_known time known).trans (if_neg fun h => ?_)
      obtain notOpen | started := shut
      · exact notOpen h.1
      · exact absurd started (by rw [show s.fau.records[r].started = none from h.2]; nofun)
    · exact takeStart_late time
  · intro x
    have time : inTime e.frame { s with wires := wires } := ⟨running, new⟩
    have starts : takeStart e { s with wires := wires } = startRecord r e { s with wires := wires } :=
      (takeStart_known time known).trans (if_pos ⟨isOpen, fresh⟩)
    have next' : ClosesNext r x s.fau wires s (mapRecord r (Record.start e) { s with wires := wires }) :=
      ⟨rfl, rfl, rfl, rfl, rfl, rfl, rfl, rfl⟩
    have becomes := (startRecord_becomes next' isOpen rfl).settle s
    rw [← starts] at becomes
    exact ⟨becomes.waits, becomes.completes, becomes.late⟩
  · intro x based evicted opens
    obtain ⟨running, near⟩ := newer noIgnore
    have time : inTime e.frame { s with wires := wires } := ⟨running, fun l last => newer_of_newerBy (near l last)⟩
    refine ⟨fun free lowest => ?_, fun full waits oldest => ?_⟩
    · have room := openRecord_free (s := { s with wires := wires }) e.frame free lowest
      have starts := takeStart_opens time (recordOf_eq_none unknown) ((mayOpen_iff ..).2 near) room
      have fau : (mapRecord r (Record.start e) (openedAt r e.frame { s with wires := wires })).fau
          = { based with records := tweak s.fau.records r fun _ => x } := by
        rw [mapRecord_fau]
        show ({ based with records := tweak (tweak s.fau.records r _) r _ } : Fau) = _
        rw [tweak_tweak]
        rfl
      have next' : ClosesNext r x based wires s (mapRecord r (Record.start e) (openedAt r e.frame { s with wires := wires })) :=
        ⟨rfl, rfl, rfl, rfl, fau, rfl, rfl, rfl⟩
      have becomes := (startRecord_becomes next' rfl rfl).settle s
      rw [← starts] at becomes
      exact ⟨becomes.waits, becomes.completes, becomes.late⟩
    · have room := openRecord_evicts (s := { s with wires := wires }) e.frame ⟨full, waits, oldest⟩
      have starts := takeStart_opens time (recordOf_eq_none unknown) ((mayOpen_iff ..).2 near) room
      have only := evictedFor_only r e.frame { s with wires := wires }
      have made := evictedFor_fau r e.frame { s with wires := wires }
      have sends := evictedFor_wires r e.frame { s with wires := wires }
      have flags := fun c => evictedFor_flag c r e.frame { s with wires := wires }
      generalize evictedFor r e.frame { s with wires := wires } = u at *
      have fau : (mapRecord r (Record.start e) u).fau = { evicted with records := tweak s.fau.records r fun _ => x } := by
        rw [mapRecord_fau, made, tweak_tweak]
        rfl
      have next' : ClosesNext r x evicted { wires with recordsFreed := s.wires.recordsFreed ++ [r] } s
          (mapRecord r (Record.start e) u) :=
        ⟨only.same .sau (by decide), only.same .time (by decide), (flags _).trans (Bool.or_false _), only.same .rce (by decide), fau,
          sends, rfl, rfl⟩
      have becomes := (startRecord_becomes next' rfl rfl).settle s
      rw [← starts] at becomes
      refine ⟨?_, becomes.waits, becomes.completes, becomes.late⟩
      rw [attentionHas_settle, starts]
      exact (startRecord_raises ..).has ((flags _).trans (by rw [decide_eq_true rfl, Bool.or_true]))

/-! ### Deadlines and exits (R61, R63) -/

/-- Two Stream Tables that a close and the completion check do not tell apart. -/
def SameStreams (v w : Vector Stream 16) : Prop :=
  ∀ i : Fin 16, v[i].enabled = w[i].enabled ∧ v[i].config = w[i].config ∧ v[i].state = w[i].state

theorem close_congr {v w : Vector Stream 16} (h : SameStreams v w) (x : Record) (cause : CloseCause) (now : Time) :
    x.close cause now v = x.close cause now w := by
  have maps : v.map mapEntry = w.map mapEntry := vector_ext fun i => by
    obtain ⟨enabled, config, state⟩ := h i
    have entry : mapEntry v[i] = mapEntry w[i] := by rw [mapEntry, mapEntry, enabled, config, state]
    simpa using entry
  unfold Record.close
  rw [maps]

theorem complete_congr {v w : Vector Stream 16} (h : SameStreams v w) (x : Record) : complete x v = complete x w := by
  have state : ∀ i : Fin 16, v[i].state = w[i].state := fun i => (h i).2.2
  have config : ∀ i : Fin 16, v[i].config = w[i].config := fun i => (h i).2.1
  unfold complete
  simp only [state, config]

theorem VoidFramesCounted.sameStreams {y : Record} {s t : State} (h : VoidFramesCounted y s t) :
    SameStreams t.sau.streams s.sau.streams := by
  intro i
  rw [h.counts i]
  split
  · rw [Stream.plus_others]
    exact ⟨rfl, rfl, rfl⟩
  · exact ⟨rfl, rfl, rfl⟩

theorem closesNext_self (r : Fin 4) (s : State) : ClosesNext r s.fau.records[r] s.fau s.wires s s where
  sau := rfl
  time := rfl
  flag := rfl
  rce := rfl
  fau := by rw [tweak_self _ _ rfl]
  wires := rfl
  handover := rfl
  idleToFau := rfl

/-- A record that is not OPEN is not complete. -/
theorem complete_opened {x : Record} {v : Vector Stream 16} (h : complete x v = true) : x.state = .opened := by
  simp only [complete, Bool.and_eq_true, beq_iff_eq] at h
  exact h.1.1.1

/-! ### Every record checked while the engine is busy (R63, R66) -/

/-- The records of `done'` have been checked, with the engine busy: those complete have closed. -/
structure CheckedBusy (done' : List (Fin 4)) (s t : State) : Prop where
  wires : t.wires = s.wires
  streams : SameStreams t.sau.streams s.sau.streams
  only : OnlyChanges [.fau, .wires, .sau, .attention] s t
  records : ∀ r : Fin 4, t.fau.records[r] =
    if r ∈ done' ∧ complete s.fau.records[r] s.sau.streams = true then s.fau.records[r].close .complete s.time s.sau.streams
    else s.fau.records[r]

theorem CheckedBusy.check {done' : List (Fin 4)} {s t : State} (h : CheckedBusy done' s t) (busy : engineIdleAtFau s = false)
    (r : Fin 4) : CheckedBusy (r :: done') s (completionCheck r t) := by
  have time : t.time = s.time := h.only.same .time (by decide)
  have rce : t.rce = s.rce := h.only.same .rce (by decide)
  have busy' : engineIdleAtFau t = false :=
    (engineIdleAtFau_congr rce (by rw [h.wires]) (by rw [h.wires])).trans busy
  have same := h.records r
  by_cases completes : complete t.fau.records[r] t.sau.streams = true
  · have opened := complete_opened completes
    have unchecked : ¬ (r ∈ done' ∧ complete s.fau.records[r] s.sau.streams = true) := fun closed => by
      rw [same, if_pos closed] at opened
      cases opened
    rw [if_neg unchecked] at same
    have completes' : complete s.fau.records[r] s.sau.streams = true := by
      rw [← same, ← complete_congr h.streams]
      exact completes
    have closes := (closesNext_self r t).closes .complete
    have only := h.only.andThen (closeRecord_only r .complete t)
    rw [completionCheck_closes completes]
    obtain ⟨wires, fau⟩ := closes.waits busy'
    refine ⟨wires.trans h.wires, fun i => ?_, only.among rfl, fun q => ?_⟩
    · obtain ⟨enabled, config, state⟩ := closes.counted.sameStreams i
      obtain ⟨enabled', config', state'⟩ := h.streams i
      exact ⟨enabled.trans enabled', config.trans config', state.trans state'⟩
    · rw [fau]
      show (tweak t.fau.records r _)[q] = _
      rw [tweak_get]
      by_cases own : q = r
      · subst own
        rw [if_pos rfl, if_pos ⟨List.mem_cons_self, completes'⟩, same, time, close_congr h.streams]
      · rw [if_neg own, h.records q]
        exact if_congr (by simp [own]) rfl rfl
  · rw [completionCheck_waits (Bool.eq_false_iff.2 completes)]
    refine ⟨h.wires, h.streams, h.only, fun q => ?_⟩
    by_cases own : q = r
    · subst own
      rw [same]
      by_cases closes : complete s.fau.records[q] s.sau.streams = true
      · have already : q ∈ done' := by
          by_contra unchecked
          rw [if_neg fun closed => unchecked closed.1] at same
          rw [same, complete_congr h.streams] at completes
          exact completes closes
        rw [if_pos ⟨already, closes⟩, if_pos ⟨List.mem_cons_self, closes⟩]
      · rw [if_neg fun closed => closes closed.2, if_neg fun closed => closes closed.2]
    · rw [h.records q]
      exact if_congr (by simp [own]) rfl rfl

theorem checkedBusy_foldl {s : State} (busy : engineIdleAtFau s = false) (order done' : List (Fin 4)) {t : State}
    (h : CheckedBusy done' s t) : CheckedBusy (order.reverse ++ done') s (order.foldl (fun s r => completionCheck r s) t) := by
  induction order generalizing done' t with
  | nil => exact h
  | cons r order ih =>
    rw [List.reverse_cons, List.append_assoc]
    exact ih (r :: done') (h.check busy r)

theorem checkAll_busy {s : State} (busy : engineIdleAtFau s = false) (order : List (Fin 4)) :
    CheckedBusy (order ++ allFin 4).reverse s (checkAll order s) := by
  have start : CheckedBusy [] s s :=
    ⟨rfl, fun _ => ⟨rfl, rfl, rfl⟩, .refl _ s, fun r => (if_neg fun h => List.not_mem_nil h.1).symm⟩
  have checked := checkedBusy_foldl busy (order ++ allFin 4) [] start
  rwa [List.append_nil] at checked

/-! ### One record that is complete (R63) -/

theorem check_incomplete {order : List (Fin 4)} {s : State} (none' : ∀ r : Fin 4, complete s.fau.records[r] s.sau.streams = false) :
    order.foldl (fun s r => completionCheck r s) s = s := by
  induction order with
  | nil => rfl
  | cons r order ih => rw [List.foldl_cons, completionCheck_waits (none' r), ih]

/-- After the one complete record has closed, none is complete. -/
theorem closeRecord_incomplete {r : Fin 4} {s : State}
    (others : ∀ q : Fin 4, q ≠ r → complete s.fau.records[q] s.sau.streams = false) (cause : CloseCause) (q : Fin 4) :
    complete (closeRecord r cause s).fau.records[q] (closeRecord r cause s).sau.streams = false := by
  have closes := (closesNext_self r s).closes cause
  rw [complete_congr closes.counted.sameStreams]
  by_contra completes
  have completes' := Bool.eq_true_of_not_eq_false completes
  have opened := complete_opened completes'
  by_cases own : q = r
  · subst own
    exact closeRecord_record q cause s opened
  · have same : (closeRecord r cause s).fau.records[q] = s.fau.records[q] := by
      have counts : (countVoidFrames (mapRecord r (Record.close cause s.time s.sau.streams) s)
          (mapRecord r (Record.close cause s.time s.sau.streams) s).fau.records[r]).fau
            = (mapRecord r (Record.close cause s.time s.sau.streams) s).fau := (countVoidFrames_only ..).same .fau (by decide)
      have kept : (mapRecord r (Record.close cause s.time s.sau.streams) s).fau.records[q] = s.fau.records[q] :=
        (mapRecord_record ..).trans (if_neg own)
      unfold closeRecord at opened ⊢
      dsimp only at opened ⊢
      generalize mapRecord r (Record.close cause s.time s.sau.streams) s = v at counts kept opened ⊢
      obtain same | shut := dispatchCheck_record q (countVoidFrames v v.fau.records[r])
      · rw [same, counts, kept]
      · exact absurd opened shut
    rw [same] at completes'
    exact absurd (completes'.symm.trans (others q own)) nofun

theorem check_one {r : Fin 4} {s : State} (completes : complete s.fau.records[r] s.sau.streams = true)
    (others : ∀ q : Fin 4, q ≠ r → complete s.fau.records[q] s.sau.streams = false) {order : List (Fin 4)} (mem : r ∈ order) :
    order.foldl (fun s r => completionCheck r s) s = closeRecord r .complete s := by
  induction order with
  | nil => cases mem
  | cons q order ih =>
    rw [List.foldl_cons]
    by_cases own : q = r
    · rw [own, completionCheck_closes completes, check_incomplete (closeRecord_incomplete others .complete)]
    · rw [completionCheck_waits (others q own), ih ((List.mem_cons.1 mem).resolve_left (Ne.symm own))]

theorem completionCheck_exits (r : Fin 4) (s : State) : (completionCheck r s).wires.lockedExits = s.wires.lockedExits := by
  unfold completionCheck
  split
  · rw [((closesNext_self r s).closes .complete).messages]
  · rfl

theorem checkAll_exits (order : List (Fin 4)) (s : State) : (checkAll order s).wires.lockedExits = s.wires.lockedExits :=
  law_foldl (law := fun t => t.wires.lockedExits = s.wires.lockedExits) (f := fun s r => completionCheck r s)
    (fun t r h => (completionCheck_exits r t).trans h) (order ++ allFin 4) rfl

theorem Closes.from' {r : Fin 4} {x : Record} {cause : CloseCause} {u : Fau} {w : Wires} {s s' t : State}
    (h : Closes r x cause u w s' t) (sau : s'.sau = s.sau) (fau : s'.fau = s.fau) (time : s'.time = s.time)
    (flag : attentionHas .counterWrap s' = attentionHas .counterWrap s) (idle : engineIdleAtFau s' = engineIdleAtFau s) :
    Closes r x cause u w s t := by
  obtain ⟨counted, messages, waits, goes⟩ := h
  rw [sau, time] at counted
  rw [fau, sau, time, idle] at waits goes
  exact ⟨counted.from' sau flag, messages, waits, goes⟩

/-- Settles O32: a deadline by `ClosesNext.closes`, an exit by `checkAll_busy`, `check_one` and `check_incomplete`. -/
theorem recordsClose : Obligations.RecordsClose := by
  refine ⟨fun r s e isOpen deadline => ?_, fun order s i rest next => ?_⟩
  · have runs : exec (.deadlineExpiry r) s
        = if Time.reached s.time e = true then .next (settle s (closeRecord r .deadline s)) else .next s := by
      change execDeadlineExpiry r s = _
      unfold execDeadlineExpiry
      rw [deadline, isOpen, decide_eq_true rfl]
      rfl
    refine ⟨fun early => runs.trans (if_neg (by rw [early]; nofun)), fun due => ⟨_, runs.trans (if_pos due), ?_, ?_⟩⟩
    · exact (closeRecord_only r .deadline s).settle s
    · exact ((closesNext_self r s).closes .deadline).settle s
  · have taken := with_wires_only { s.wires with lockedExits := rest } s
    have runs : exec (.lockedExitReport order) s
        = .next (settle s (checkAll order { s with wires := { s.wires with lockedExits := rest } })) := by
      change execLockedExitReport order s = _
      unfold execLockedExitReport
      rw [next]
      rfl
    have exits := checkAll_exits order { s with wires := { s.wires with lockedExits := rest } }
    have all : ∀ r : Fin 4, r ∈ order ++ allFin 4 := fun r => List.mem_append_right _ (mem_allFin r)
    refine ⟨_, runs, ((taken.andThen (checkAll_only ..)).among rfl).settle s, (congrArg Wires.lockedExits (settle_wires ..)).trans exits,
      fun busy => ?_, fun r completes others => ?_, fun none' => ?_⟩
    · have checked := checkAll_busy (s := { s with wires := { s.wires with lockedExits := rest } }) busy order
      rw [settle_wires, settle_fau]
      refine ⟨checked.wires, fun r => (checked.records r).trans (if_congr ?_ rfl rfl)⟩
      exact and_iff_right (List.mem_reverse.2 (all r))
    · have one := check_one (s := { s with wires := { s.wires with lockedExits := rest } }) completes others (all r)
      have closes := (closesNext_self r { s with wires := { s.wires with lockedExits := rest } }).closes .complete
      rw [← one] at closes
      exact (closes.from' (s := s) rfl rfl rfl rfl rfl).settle s
    · have none'' := check_incomplete (order := order ++ allFin 4) (s := { s with wires := { s.wires with lockedExits := rest } }) none'
      rw [settle_fau, checkAll, none'']

/-- Settles O33: `dispatchCheck` when the report is taken. -/
theorem dispatchOnIdle : Obligations.DispatchOnIdle := by
  intro s reported closed
  have taken := with_wires_only { s.wires with idleToFau := false } s
  have runs : exec .engineIdleReport s
      = .next (settle s (dispatchCheck { s with wires := { s.wires with idleToFau := false } })) := if_pos reported
  have messages := dispatchCheck_messages { s with wires := { s.wires with idleToFau := false } }
  have busy : engineIdleAtFau { s with wires := { s.wires with idleToFau := false } }
      = (s.rce.state == .idle && s.wires.handover.isNone) := Bool.and_true _
  refine ⟨_, runs, ((taken.andThen (dispatchCheck_only _)).among rfl).settle s, ?_, fun no => ?_, fun idle free r newest => ?_⟩
  · rw [settle_wires, messages]
  · have stays : dispatchCheck { s with wires := { s.wires with idleToFau := false } }
        = { s with wires := { s.wires with idleToFau := false } } := by
      obtain none' | running | given := no
      · exact dispatchCheck_none none'
      · exact dispatchCheck_busy (busy.trans (by rw [beq_eq_false_iff_ne.2 running, Bool.false_and]))
      · refine dispatchCheck_busy (busy.trans ?_)
        rw [Option.isNone_eq_false_iff.2 given, Bool.and_false]
    rw [stays, settle_fau, settle_wires]
    exact ⟨rfl, rfl⟩
  · refine Dispatched.to (dispatchCheck_goes (s := { s with wires := { s.wires with idleToFau := false } }) ?_ newest) (settle_fau ..)
      (settle_wires ..)
    exact busy.trans (by rw [idle, free]; rfl)

end Sys2Proof.Machine

/-!
The engine takes a frame (R69, R70, R99 to R101, R110): Frame Assembly's answers, the release of a record, and the frame's context.
-/
namespace Sys2Proof.Machine

/-! ### Frame Assembly's answer for a position (R69) -/

theorem at_none {m : StreamMap} {p : Nat}
    (none' : ∀ (i : Fin 16) (e : MapEntry), m[i] = some e → ¬ (e.base ≤ p ∧ p < e.base + e.count)) : StreamMap.at? m p = none := by
  refine List.find?_eq_none.2 fun e mem => ?_
  obtain ⟨i, is⟩ := mem_filterMap_id.1 mem
  simpa [MapEntry.holds] using none' i e is

/-- The only entry whose range holds the position is the one found. -/
theorem at_unique {m : StreamMap} {p : Nat} {i : Fin 16} {e : MapEntry} (is : m[i] = some e) (holds : e.base ≤ p ∧ p < e.base + e.count)
    (only : ∀ (j : Fin 16) (d : MapEntry), m[j] = some d → d.base ≤ p → p < d.base + d.count → j = i) :
    StreamMap.at? m p = some e := by
  have held : e.holds p = true := by simp [MapEntry.holds, holds]
  cases found : StreamMap.at? m p with
  | none => exact absurd held (List.find?_eq_none.1 found e (mem_filterMap_id.2 ⟨i, is⟩))
  | some d =>
    obtain ⟨j, isD⟩ := mem_filterMap_id.1 (List.mem_of_find?_eq_some found)
    have heldD : d.base ≤ p ∧ p < d.base + d.count := by simpa [MapEntry.holds] using List.find?_some found
    have own := only j d isD heldD.1 heldD.2
    rw [own, is] at isD
    exact isD.symm

/-- What the stream that covers a void position substitutes. -/
def substituteAt (x : Record) (lastGood : Store Int) (p : Nat) : SlopeAnswer :=
  match StreamMap.at? x.streamMap p with
  | none => .residualZero
  | some e =>
    match e.substitution with
    | .zero => .residualZero
    | .last => .lastGood (Store.read 0 lastGood p)

theorem answer_slope {x : Record} {p : Nat} {v : Int} (lastGood : Store Int) (found : Store.find? x.slopes p = some v)
    (good : v ≠ -32768) : answer x lastGood p = .slope v := by
  unfold answer
  rw [found]
  exact if_neg good

theorem answer_void {x : Record} {p : Nat} (lastGood : Store Int)
    (void : Store.find? x.slopes p = none ∨ Store.find? x.slopes p = some (-32768)) :
    answer x lastGood p = substituteAt x lastGood p := by
  unfold answer
  obtain absent | code := void
  · rw [absent]
    rfl
  · rw [code]
    exact if_pos rfl

/-! ### The Last-Good Slope Store (R70) -/

theorem learn_read {slopes : Store Int} (rising : Store.rising slopes = true) (lastGood : Store Int) (p : Nat) :
    Store.read 0 (learn slopes lastGood) p =
      match Store.find? slopes p with
      | some v => if v = -32768 then Store.read 0 lastGood p else v
      | none => Store.read 0 lastGood p := by
  induction slopes generalizing lastGood with
  | nil => rfl
  | cons e slopes ih =>
    obtain ⟨k, v⟩ := e
    obtain ⟨above, rest⟩ := (Store.rising_cons k v slopes).1 rising
    refine (ih rest _).trans ?_
    have one : Store.read 0 (if v = Config.voidCode then lastGood else Store.write 0 lastGood k v) p
        = if p = k ∧ v ≠ -32768 then v else Store.read 0 lastGood p := by
      by_cases void : v = -32768
      · rw [if_pos (show v = Config.voidCode from void), if_neg fun h => h.2 void]
      · rw [if_neg (show ¬ v = Config.voidCode from void), Store.read_write]
        exact if_congr (by simp [void]) rfl rfl
    dsimp only
    rw [one, Store.find?]
    by_cases own : p = k
    · subst own
      rw [Store.find?_of_above above, if_pos rfl]
      by_cases void : v = -32768 <;> simp [void]
    · simp [own]

theorem release_dispatched {r : Fin 4} {s : State} (dispatched : s.fau.records[r].state = .dispatched) :
    release r s = freeRecord r { s with fau := { s.fau with lastGood := learn s.fau.records[r].slopes s.fau.lastGood } } :=
  if_pos dispatched

theorem release_other {r : Fin 4} {s : State} (other : s.fau.records[r].state ≠ .dispatched) : release r s = s := if_neg other

/-- The record `r` has been released, and its good slopes learned (R70). -/
structure Released (r : Fin 4) (s t : State) : Prop where
  fau : t.fau = { s.fau with records := t.fau.records, lastGood := t.fau.lastGood }
  itself : t.fau.records[r] = {}
  others : ∀ q : Fin 4, q ≠ r → t.fau.records[q] = s.fau.records[q]
  learned : Store.rising s.fau.records[r].slopes = true → ∀ p, Store.read 0 t.fau.lastGood p =
    match Store.find? s.fau.records[r].slopes p with
    | some v => if v = -32768 then Store.read 0 s.fau.lastGood p else v
    | none => Store.read 0 s.fau.lastGood p

theorem release_released {r : Fin 4} {s : State} (dispatched : s.fau.records[r].state = .dispatched) :
    Released r s (release r s) ∧ (release r s).wires = { s.wires with recordsFreed := s.wires.recordsFreed ++ [r] } := by
  rw [release_dispatched dispatched]
  refine ⟨⟨rfl, ?_, fun q other => ?_, fun rising p => learn_read rising ..⟩, rfl⟩
  · exact (freeRecord_record ..).trans (if_pos rfl)
  · exact (freeRecord_record ..).trans (if_neg other)

theorem Released.to {r : Fin 4} {s s' t t' : State} (h : Released r s t) (before : s'.fau = s.fau) (after : t'.fau = t.fau) :
    Released r s' t' where
  fau := by rw [before, after]; exact h.fau
  itself := by rw [after]; exact h.itself
  others := by rw [before, after]; exact h.others
  learned := by rw [before, after]; exact h.learned

/-! ### Messages of the Directive Unit's own work (R74, R158) -/

/-- Of the messages only owners' ends and reports of freed records have changed. -/
def SendsEnds (s t : State) : Prop :=
  ∃ ends freed, t.wires = { s.wires with ownerEnds := ends, recordsFreed := freed }

theorem SendsEnds.of_same {s t : State} (same : t.wires = s.wires) : SendsEnds s t := ⟨s.wires.ownerEnds, s.wires.recordsFreed, same⟩

theorem SendsEnds.trans {s t u : State} (h : SendsEnds s t) (k : SendsEnds t u) : SendsEnds s u := by
  obtain ⟨_, _, h⟩ := h
  obtain ⟨ends, freed, k⟩ := k
  exact ⟨ends, freed, by rw [k, h]⟩

theorem SendsEnds.of_only {ps : List Part} {s t : State} (only : OnlyChanges ps s t) (apart : Part.wires ∉ ps) : SendsEnds s t :=
  .of_same (only.same .wires apart)

theorem runCopies_sends (rs : List CopyRequest) (s : State) : SendsEnds s (runCopies rs s) := by
  induction rs generalizing s with
  | nil => exact .of_same rfl
  | cons r rs ih =>
    unfold runCopies
    split
    · exact SendsEnds.trans ⟨_, _, rfl⟩ (ih _)
    · exact .of_same rfl

theorem joinProbe_sends (h : Hand) (s : State) : SendsEnds s (joinProbe h s) := by
  unfold joinProbe
  split
  · refine (SendsEnds.of_only (joinList_only h .probeCycle s) (by decide)).trans ?_
    unfold enqueueCopy
    split
    · exact .of_same rfl
    · exact runCopies_sends ..
  · exact .of_same rfl

theorem absorbFreed_sends (s : State) : SendsEnds s (absorbFreed s) := by
  have kept : (s.wires.recordsFreed.foldl (fun s r => mapDrains (DrainStage.freed r) s) s).wires = s.wires :=
    law_foldl (law := fun t => t.wires = s.wires) (f := fun s r => mapDrains (DrainStage.freed r) s) (fun _ _ h => h) _ rfl
  unfold absorbFreed
  refine SendsEnds.trans ⟨s.wires.ownerEnds, [], ?_⟩ (.of_only (advanceDrains_only _) (by decide))
  dsimp only
  rw [kept]

theorem retryRoom_sends (s : State) : SendsEnds s (retryRoom s) := by
  unfold retryRoom
  split
  · split
    · unfold judgeAgain
      split
      · exact .of_only (judgeRetire_only ..) (by decide)
      · split
        · exact joinProbe_sends ..
        · unfold takeDrain
          dsimp only
          split
          · exact (absorbFreed_sends s).trans (.of_only (endHand_only ..) (by decide))
          · exact (absorbFreed_sends s).trans (.of_only (deferOrWait_only ..) (by decide))
    · exact .of_same rfl
  · exact .of_same rfl

theorem settleDrains_sends (s : State) : SendsEnds s (settleDrains s) :=
  (SendsEnds.of_only (advanceDrains_only s) (by decide)).trans (retryRoom_sends _)

/-- Taking the IDLE report changes of the messages nothing the engine reads. -/
theorem takeIdleAtDu_sends (s : State) : SendsEnds { s with wires := { s.wires with idleToDu := false } } (takeIdleAtDu s) :=
  (SendsEnds.of_same rfl).trans (settleDrains_sends _)

/-! ### The context of a frame (R99 to R101, R110) -/

theorem clamp_eq {low high : Int} (order : low ≤ high) (v : Int) : clamp low high v = max low (min high v) := by
  unfold clamp
  split
  · omega
  · split <;> omega

theorem mem_voidBlocks (e : Edition) (c : Nat) : c ∈ e.voidBlocks ↔ ∃ d ∈ e.directory, d.2.taint = true ∧ d.1 / 64 = c := by
  have folded : ∀ (ds : Store Descriptor) (m : List Nat),
      c ∈ ds.foldl (fun m d => if d.2.taint then addToSet (keyColumn d.1) m else m) m
        ↔ (∃ d ∈ ds, d.2.taint = true ∧ d.1 / 64 = c) ∨ c ∈ m := by
    intro ds
    induction ds with
    | nil => simp
    | cons d ds ih =>
      intro m
      rw [List.foldl_cons, ih, List.exists_mem_cons_iff]
      cases d.2.taint with
      | false => simp
      | true =>
        have own : c = keyColumn d.1 ↔ d.1 / 64 = c := eq_comm
        simp only [if_true, mem_addToSet, true_and, own]
        rw [or_assoc]
        exact or_left_comm
  unfold Edition.voidBlocks
  rw [folded]
  exact or_iff_left List.not_mem_nil

theorem residualOf_eq (ref : Int) (x : SlopeAnswer) :
    residualOf ref x = match x with
      | .slope v => max (-32768) (min 32767 (v - ref))
      | .lastGood v => max (-32768) (min 32767 (v - ref))
      | .residualZero => 0 := by
  cases x with
  | slope v => exact clamp_eq (by decide) _
  | lastGood v => exact clamp_eq (by decide) _
  | residualZero => rfl

/-- The context of a void frame, with its results. -/
def voidContext (h : Handover) (e : Edition) (s : State) : FrameContext :=
  { newContext h e with
    increments := List.replicate e.actuatorCount none
    results := resultsOf s e { newContext h e with increments := List.replicate e.actuatorCount none } }

/-- The context of a frame whose tiles are to be read. -/
def readContext (h : Handover) (e : Edition) (s : State) : FrameContext :=
  { newContext h e with
    plan := (e.directory.map Prod.fst).filter fun k => !(newContext h e).voidBlocks.contains (keyColumn k)
    residual := residualsOf s h.record e }

/-- The engine has taken a frame, before the release of a void one. -/
def withFrame (h : Handover) (i : SlotId) (e : Edition) (s : State) : State :=
  { s with
    rce := { s.rce with
      inUse := some i
      frame := some (if h.void then voidContext h e s else readContext h e s)
      state := if h.void then .concluding else .streaming }
    wires := { s.wires with handover := none } }

theorem takeFrame_eq (h : Handover) (i : SlotId) (e : Edition) (s : State) :
    takeFrame h i e s = if h.void = true then release h.record (withFrame h i e s) else withFrame h i e s := by
  unfold takeFrame takeVoid takeStreaming withFrame
  cases h.void <;> rfl

/-- The results of a void frame: every actuator is void. -/
theorem voidContext_results (h : Handover) (e : Edition) (s : State) :
    (voidContext h e s).results = (List.range e.actuatorCount).map fun a => voidResult (e.row a) (lastEmittedOf s a) := by
  refine List.map_congr_left fun a mem => ?_
  have absent : (List.replicate e.actuatorCount (none : Option Int)).getD a none = none := by
    rw [List.getD_eq_getElem?_getD, List.getElem?_replicate]
    split <;> rfl
  show actuatorResult _ _ _ ((List.replicate e.actuatorCount (none : Option Int)).getD a none) _ = _
  rw [absent]
  rfl

theorem exec_frameTake {s : State} {h : Handover} {i : SlotId} {e : Edition} (given : s.wires.handover = some h)
    (current : currentSlot s = some (i, e)) (idle : s.rce.state = .idle) :
    exec .frameTake s = .next (settle s (takeFrame h i e (beforeFrame s))) := by
  change execFrameTake s = _
  unfold execFrameTake
  rw [given, current, idle]
  rfl

/-- The state in which the frame is taken: an IDLE report to the Directive Unit has been taken first. -/
theorem beforeFrame_becomes {s : State} (taints : s.wires.taints = []) : ∃ u,
    (s.wires.idleToDu = false → u = s) ∧ (s.wires.idleToDu = true → exec .drainIdleReport s = .next u)
      ∧ (beforeFrame s).du = u.du ∧ (beforeFrame s).arb.du = u.arb.du ∧ (beforeFrame s).pru = u.pru
      ∧ (beforeFrame s).wires = u.wires ∧ OnlyChanges [.du, .duQueue, .pru, .wires] s (beforeFrame s) := by
  by_cases reported : s.wires.idleToDu = true
  · have none' : (takeIdleAtDu s).wires.taints = [] := by
      obtain ⟨ends, freed, sends⟩ := takeIdleAtDu_sends s
      rw [sends]
      exact taints
    have before : beforeFrame s = takeIdleAtDu s := by
      unfold beforeFrame
      rw [if_pos reported, takeTaints_nil none']
    have runs : exec .drainIdleReport s = .next (settle s (takeIdleAtDu s)) := if_pos reported
    refine ⟨_, fun no => absurd reported (by rw [no]; nofun), fun _ => runs, ?_⟩
    rw [before, settle_du, settle_arb_du, settle_pru, settle_wires]
    exact ⟨rfl, rfl, rfl, rfl, takeIdleAtDu_only s⟩
  · have before : beforeFrame s = s := by
      unfold beforeFrame
      rw [if_neg reported, takeTaints_nil taints]
    refine ⟨s, fun _ => rfl, fun yes => absurd yes reported, ?_⟩
    rw [before]
    exact ⟨rfl, rfl, rfl, rfl, .refl _ s⟩

theorem withFrame_only (h : Handover) (i : SlotId) (e : Edition) (s : State) : OnlyChanges [.rce, .wires] s (withFrame h i e s) :=
  (with_rce_only (withFrame h i e s).rce s).andThen (with_wires_only (withFrame h i e s).wires _)

/-- Settles O34: the answers by `answer_slope` and `answer_void`, the frame by `beforeFrame_becomes`, `takeFrame_eq` and
`release_released`. -/
theorem frameTaken : Obligations.FrameTaken := by
  refine ⟨fun x lastGood p => ⟨fun v found good => answer_slope lastGood found good, fun void => ⟨fun none' => ?_,
    fun i m is low high only => ⟨fun zero => ?_, fun last => ?_⟩⟩⟩, fun s h i e given current idle taints => ?_⟩
  · rw [answer_void lastGood void, substituteAt, at_none none']
  · rw [answer_void lastGood void, substituteAt, at_unique is ⟨low, high⟩ only]
    dsimp only
    rw [zero]
  · rw [answer_void lastGood void, substituteAt, at_unique is ⟨low, high⟩ only]
    dsimp only
    rw [last]
  · intro x
    obtain ⟨u, same, taken, du, queue, pru, wires, before⟩ := beforeFrame_becomes taints
    have fau : (beforeFrame s).fau = s.fau := before.same .fau (by decide)
    have rce : (beforeFrame s).rce = s.rce := before.same .rce (by decide)
    have cou : (beforeFrame s).cou = s.cou := before.same .cou (by decide)
    refine ⟨_, u, if h.void then voidContext h e (beforeFrame s) else readContext h e (beforeFrame s),
      exec_frameTake given current idle, same, taken, ?_⟩
    rw [takeFrame_eq, settle_du, settle_arb_du, settle_pru, settle_wires, settle_rce, settle_fau]
    generalize beforeFrame s = v at *
    have changes := before.andThen (withFrame_only h i e v)
    have made : (withFrame h i e v).rce = { s.rce with
        inUse := some i, frame := some (if h.void then voidContext h e v else readContext h e v)
        state := if h.void then .concluding else .streaming } := by
      show ({ v.rce with inUse := _, frame := _, state := _ } : Rce) = _
      rw [rce]
    have sent : (withFrame h i e v).wires = { u.wires with handover := none } := by
      show ({ v.wires with handover := none } : Wires) = _
      rw [wires]
    have blocks : ∀ c, c ∈ e.voidBlocks ↔ ∃ d ∈ e.directory, d.2.taint = true ∧ d.1 / 64 = c := mem_voidBlocks e
    have still : (withFrame h i e v).du = v.du ∧ (withFrame h i e v).arb = v.arb ∧ (withFrame h i e v).pru = v.pru
      ∧ (withFrame h i e v).fau = v.fau := ⟨rfl, rfl, rfl, rfl⟩
    cases void : h.void with
    | false =>
      rw [void] at made
      rw [if_neg (by nofun), made, sent, still.1, still.2.1, still.2.2.1]
      refine ⟨⟨du, queue, pru⟩, rfl, rfl, ⟨rfl, rfl, rfl, rfl, rfl, rfl, rfl⟩, blocks, fun _ => ⟨?_, ?_, ?_⟩, nofun⟩
      · exact (changes.among rfl).settle s
      · refine List.filter_congr fun k _ => ?_
        rw [List.contains_eq_mem]
        exact (decide_not ..).symm
      · refine List.map_congr_left fun p _ => ?_
        rw [residualOf_eq, fau] <;> rfl
    | true =>
      rw [void] at made
      rw [if_pos rfl]
      have released := changes.andThen (release_only h.record (withFrame h i e v))
      have du' : (release h.record (withFrame h i e v)).du = v.du := (release_only ..).same .du (by decide)
      have queue' : (release h.record (withFrame h i e v)).arb.du = v.arb.du := (release_only ..).same .duQueue (by decide)
      have pru' : (release h.record (withFrame h i e v)).pru = v.pru := (release_only ..).same .pru (by decide)
      have rce' : (release h.record (withFrame h i e v)).rce = (withFrame h i e v).rce := (release_only ..).same .rce (by decide)
      rw [du', queue', pru', rce', made]
      have after : (x.state ≠ .dispatched → (release h.record (withFrame h i e v)).fau = s.fau
            ∧ (release h.record (withFrame h i e v)).wires = { u.wires with handover := none })
          ∧ (x.state = .dispatched → Released h.record s (release h.record (withFrame h i e v))
            ∧ (release h.record (withFrame h i e v)).wires
              = { u.wires with handover := none, recordsFreed := u.wires.recordsFreed ++ [h.record] }) := by
        have state : (withFrame h i e v).fau.records[h.record].state = x.state := by rw [still.2.2.2, fau]
        refine ⟨fun other => ?_, fun dispatched => ?_⟩
        · rw [release_other (by rw [state]; exact other)]
          exact ⟨still.2.2.2.trans fau, sent⟩
        · obtain ⟨freed, sends⟩ := release_released (state.trans dispatched)
          refine ⟨freed.to fau.symm rfl, ?_⟩
          rw [sends, sent]
      refine ⟨⟨du, queue, pru⟩, ?_, rfl, ⟨rfl, rfl, rfl, rfl, rfl, rfl, rfl⟩, blocks, nofun,
        fun _ => ⟨(released.among rfl).settle s, rfl, rfl, fun other => (after.1 other).1, fun dispatched => ?_, ?_⟩⟩
      · by_cases dispatched : x.state = .dispatched
        · rw [(after.2 dispatched).2, if_pos ⟨rfl, dispatched⟩]
        · rw [(after.1 dispatched).2, if_neg fun h => dispatched h.2]
      · obtain ⟨freed, _⟩ := after.2 dispatched
        exact ⟨freed.fau, freed.itself, freed.others, freed.learned⟩
      · rw [if_pos rfl, voidContext_results]
        refine List.map_congr_left fun a _ => ?_
        rw [voidResult, lastEmittedOf, cou]

end Sys2Proof.Machine

/-!
The engine's streaming and arithmetic (R100 to R110, R122): tile data, void column blocks, the end of streaming, an actuator's result, the
probe.
-/
namespace Sys2Proof.Machine

/-! ### Tile data (R100, R102) -/

/-- One element of a granule joins the accumulator of its actuator, where there is one. -/
def addElement (first actuators : Nat) (res scale : Int) (m : Store Int) (x : Int × Nat) : Store Int :=
  if first + x.2 < actuators then Store.write 0 m (first + x.2) (Store.read 0 m (first + x.2) + x.1 * res * scale) else m

theorem addElements_read (first actuators : Nat) (res scale : Int) (l : List Int) (k : Nat) (m : Store Int) (a : Nat) :
    Store.read 0 ((l.zipIdx k).foldl (addElement first actuators res scale) m) a =
      if first + k ≤ a ∧ a < first + k + l.length ∧ a < actuators then
        Store.read 0 m a + l.getD (a - (first + k)) 0 * res * scale
      else Store.read 0 m a := by
  induction l generalizing k m with
  | nil => exact (if_neg (by simp; omega)).symm
  | cons v l ih =>
    rw [List.zipIdx_cons, List.foldl_cons, ih, List.length_cons]
    have one : Store.read 0 (addElement first actuators res scale m (v, k)) a
        = if a = first + k ∧ a < actuators then Store.read 0 m a + v * res * scale else Store.read 0 m a := by
      unfold addElement
      by_cases inside : first + k < actuators
      · rw [if_pos inside, Store.read_write]
        by_cases own : a = first + k
        · rw [if_pos own, if_pos ⟨own, own ▸ inside⟩, own]
        · have other : ¬ (a = first + k ∧ a < actuators) := fun h => own h.1
          rw [if_neg own, if_neg other]
      · have other : ¬ (a = first + k ∧ a < actuators) := fun h => inside (h.1 ▸ h.2)
        rw [if_neg inside, if_neg other]
    rw [one]
    by_cases own : a = first + k
    · have here : ¬ (first + (k + 1) ≤ a ∧ a < first + (k + 1) + l.length ∧ a < actuators) := by omega
      rw [if_neg here, own, Nat.sub_self, List.getD_cons_zero]
      exact if_congr (by omega) rfl rfl
    · have other : ¬ (a = first + k ∧ a < actuators) := fun h => own h.1
      rw [if_neg other]
      by_cases later : first + (k + 1) ≤ a ∧ a < first + (k + 1) + l.length ∧ a < actuators
      · rw [if_pos later, if_pos (by omega), show a - (first + k) = a - (first + (k + 1)) + 1 by omega, List.getD_cons_succ]
      · rw [if_neg later, if_neg (by omega)]

theorem addGranule_accumulators (e : Edition) (d : Descriptor) (key granule : Nat) (bs : List Byte) (f : FrameContext) :
    (addGranule e d key granule bs f).accumulators = (int16s 16 bs).zipIdx.foldl
      (addElement (64 * keyColumn key + 16 * (granule % 4)) e.actuatorCount
        (f.residual.getD (256 * keyRow key + granule / 4) 0) (2 ^ (d.exponent + 24).toNat)) f.accumulators := by
  unfold addGranule addElement
  rfl

theorem int16s_getD {n k : Nat} (h : k < n) (bs : List Byte) :
    (int16s n bs).getD k 0 = signed 16 (leNat ((bs.drop (2 * k)).take 2)) := by
  rw [List.getD_eq_getElem?_getD, int16s_get h]
  rfl

theorem exec_tileReadDone {s : State} {ret : TileReturn} {rest : List TileReturn} {bs : List Byte}
    (next : s.wires.tileReturns = ret :: rest) (data : ret.data = some bs) :
    exec .tileReadDone s = .next (settle s (takeTile ret bs { s with wires := { s.wires with tileReturns := rest } })) := by
  change execTileReadDone s = _
  unfold execTileReadDone
  rw [next]
  dsimp only
  rw [data]
  rfl

theorem mapFrame_some {f : FrameContext} {s : State} (frame : s.rce.frame = some f) (g : FrameContext → FrameContext) :
    mapFrame g s = { s with rce := { s.rce with frame := some (g f) } } := by
  unfold mapFrame
  rw [frame]
  rfl

/-- Settles O35: the accumulators by `addElements_read`. -/
theorem tileDataAccumulate : Obligations.TileDataAccumulate := by
  intro s ret rest bs d f next data length known frame element res first
  have takes : takeTile ret bs { s with wires := { s.wires with tileReturns := rest } }
      = { s with
          wires := { s.wires with tileReturns := rest }
          rce := { s.rce with frame := some (if f.voidBlocks.contains (keyColumn ret.key) then f
            else addGranule (editionInUse s) d ret.key ret.granule bs f) } } := by
    unfold takeTile
    rw [show descriptorInUse ret.key { s with wires := { s.wires with tileReturns := rest } } = some d from known]
    exact mapFrame_some (s := { s with wires := { s.wires with tileReturns := rest } }) frame _
  refine ⟨_, if f.voidBlocks.contains (keyColumn ret.key) then f else addGranule (editionInUse s) d ret.key ret.granule bs f,
    exec_tileReadDone next data, ?_⟩
  rw [takes]
  refine ⟨OnlyChanges.settle s (((with_wires_only { s.wires with tileReturns := rest } s).andThen (with_rce_only _ _)).among rfl),
    settle_wires .., settle_rce .., ?_, fun void => if_pos (List.contains_iff_mem.2 void), fun live a => ?_⟩
  · split
    · rfl
    · rfl
  · have other : ¬ f.voidBlocks.contains (keyColumn ret.key) = true := mt List.contains_iff_mem.1 live
    rw [if_neg other, addGranule_accumulators]
    show Store.read 0 ((int16s 16 bs).zipIdx.foldl (addElement first _ res _) f.accumulators) a = _
    refine (addElements_read ..).trans ?_
    rw [int16s_length, Nat.add_zero]
    by_cases within : first ≤ a ∧ a < first + 16 ∧ a < (editionInUse s).actuatorCount
    · rw [if_pos within, if_pos within, int16s_getD (by omega)]
    · rw [if_neg within, if_neg within]

/-! ### Void column blocks (R100, R104, R105) -/

/-- What O36 says of a column block voided. -/
def Voided (c : Nat) (f g : FrameContext) : Prop :=
  let plan := f.plan.filter fun key => decide (key / 64 ≠ c)
  (∀ b, b ∈ g.voidBlocks ↔ b = c ∨ b ∈ f.voidBlocks)
    ∧ g = { f with
        voidBlocks := g.voidBlocks, plan := plan, memoryErrors := g.memoryErrors
        cursor := if plan.head? = f.plan.head? then f.cursor else 0 }

theorem voidColumn_voids (c n : Nat) (f : FrameContext) : Voided c f { f.voidColumn c with memoryErrors := n } := by
  have plan : (f.plan.filter fun k => keyColumn k != c) = f.plan.filter fun key => decide (key / 64 ≠ c) :=
    List.filter_congr fun k _ => by
      rw [keyColumn, bne, beq_eq_decide]
      exact (decide_not ..).symm
  refine ⟨fun b => mem_addToSet c b f.voidBlocks, ?_⟩
  unfold FrameContext.voidColumn
  rw [plan]

theorem notYetRead_iff {f : FrameContext} {s : State} (frame : s.rce.frame = some f) (key : Nat) :
    notYetRead key s = true ↔ key ∈ f.plan := by
  unfold notYetRead
  rw [frame]
  exact List.contains_iff_mem

/-- Settles O36: `voidColumn_voids` for the error and for the report. -/
theorem columnBlocksVoided : Obligations.ColumnBlocksVoided := by
  unfold Obligations.ColumnBlocksVoided
  intro voided
  refine ⟨fun s ret rest f next data frame => ?_, fun s k rest next => ?_⟩
  · have runs : exec .tileMemoryError s
        = .next (settle s (takeTileError ret { s with wires := { s.wires with tileReturns := rest } })) := by
      change execTileMemoryError s = _
      unfold execTileMemoryError
      rw [next]
      dsimp only
      rw [data]
      rfl
    have taken := with_wires_only { s.wires with tileReturns := rest } s
    have maps := mapFrame_some (s := { s with wires := { s.wires with tileReturns := rest } }) frame
      fun f => { f.voidColumn (keyColumn ret.key) with memoryErrors := f.memoryErrors + 1 }
    refine ⟨_, { f.voidColumn (keyColumn ret.key) with memoryErrors := f.memoryErrors + 1 }, runs,
      ((taken.andThen (takeTileError_only ret _)).among rfl).settle s, ?_, ?_, ?_, voidColumn_voids .., rfl⟩
    · rw [attentionHas_settle, takeTileError, attentionHas_raise, decide_eq_true rfl, Bool.or_true]
    · rw [settle_wires]
      rfl
    · rw [settle_rce, takeTileError, maps]
      rfl
  · have runs : exec .taintReport s = .next (settle s (takeTaint k { s with wires := { s.wires with taints := rest } })) := by
      change execTaintReport s = _
      unfold execTaintReport
      rw [next]
      rfl
    have taken := with_wires_only { s.wires with taints := rest } s
    have stays : ¬ (s.rce.state = .streaming ∧ s.rce.inUse = some k.slot ∧ notYetRead k.key s = true) →
        (takeTaint k { s with wires := { s.wires with taints := rest } }).rce = s.rce := fun no => by
      have same : takeTaint k { s with wires := { s.wires with taints := rest } } = { s with wires := { s.wires with taints := rest } } := by
        refine if_neg fun h => no ?_
        rw [Bool.and_eq_true, Bool.and_eq_true, decide_eq_true_eq, decide_eq_true_eq, and_assoc] at h
        exact h
      rw [same]
    refine ⟨_, runs, ((taken.andThen (takeTaint_only k _)).among rfl).settle s, ?_, fun other => ?_,
      fun f frame => ⟨fun read => ?_, fun streaming own waits => ?_⟩⟩
    · rw [settle_wires]
      exact (takeTaint_only k _).same .wires (by decide)
    · rw [settle_rce]
      refine stays fun h => ?_
      obtain idle | others := other
      · exact idle h.1
      · exact others h.2.1
    · rw [settle_rce]
      exact stays fun h => read ((notYetRead_iff frame _).1 h.2.2)
    · refine ⟨f.voidColumn (keyColumn k.key), ?_, voidColumn_voids (k.key / 64) f.memoryErrors f, rfl⟩
      have voids : takeTaint k { s with wires := { s.wires with taints := rest } }
          = mapFrame (FrameContext.voidColumn (keyColumn k.key)) { s with wires := { s.wires with taints := rest } } := by
        refine if_pos ?_
        rw [Bool.and_eq_true, Bool.and_eq_true, decide_eq_true_eq, decide_eq_true_eq, and_assoc]
        exact ⟨streaming, own, (notYetRead_iff frame _).2 waits⟩
      rw [settle_rce, voids, mapFrame_some (s := { s with wires := { s.wires with taints := rest } }) frame]

/-! ### The end of streaming (R102, R103) -/

/-- Settles O37: the increments by `clamp_eq`, the release by `release_released`. -/
theorem streamingEnds : Obligations.StreamingEnds := by
  intro s f streaming frame r x
  have runs : exec .streamingEnd s = if f.plan = [] ∧ s.wires.tileReturns = [] then .next (settle s (endStreaming f s)) else .next s := by
    change execStreamingEnd s = _
    unfold execStreamingEnd
    rw [streaming, frame]
    refine if_congr ?_ rfl rfl
    rw [Bool.and_eq_true, List.isEmpty_iff, List.isEmpty_iff]
  have increments : incrementsOf (editionInUse s) f = (List.range (editionInUse s).actuatorCount).map fun a =>
      if a / 64 ∈ f.voidBlocks then none
      else some (max (-2147483647) (min 2147483647 (roundRatio (Store.read 0 f.accumulators a) (2 ^ 39)))) := by
    refine List.map_congr_left fun a _ => if_congr List.contains_iff_mem rfl ?_
    exact congrArg some (clamp_eq (by decide) _)
  refine ⟨fun waits => runs.trans (if_neg fun h => ?_), fun read taken => ⟨_, runs.trans (if_pos ⟨read, taken⟩),
    (endStreaming_only f s).settle s, ?_, fun dispatched => ?_⟩⟩
  · obtain left | coming := waits
    · exact left h.1
    · exact coming h.2
  · have rce : (endStreaming f s).rce = _ := (release_only r (mapRce (fun r => { r with
      state := .concluding, frame := some { f with increments := incrementsOf (editionInUse s) f } }) s)).same .rce (by decide)
    rw [settle_rce, rce, ← increments]
    rfl
  · have released := release_released (r := r) (s := mapRce (fun r => { r with
      state := .concluding, frame := some { f with increments := incrementsOf (editionInUse s) f } }) s) dispatched
    obtain ⟨freed, wires⟩ : Released r s (endStreaming f s)
        ∧ (endStreaming f s).wires = { s.wires with recordsFreed := s.wires.recordsFreed ++ [r] } :=
      ⟨released.1.to rfl rfl, released.2⟩
    rw [settle_fau, settle_wires]
    exact ⟨freed.itself, freed.others, wires, freed.learned⟩

/-! ### An actuator's result (R107 to R110) -/

/-- The magnitude rounded to the nearest, ties up. -/
theorem rounded_nat (n d : Nat) (h : 0 < d) :
    2 * n ≤ 2 * (d * ((2 * n + d) / (2 * d))) + d ∧ 2 * (d * ((2 * n + d) / (2 * d))) ≤ 2 * n + d
      ∧ 2 * n ≠ 2 * (d * ((2 * n + d) / (2 * d))) + d := by
  have split := Nat.div_add_mod (2 * n + d) (2 * d)
  have below := Nat.mod_lt (2 * n + d) (show 0 < 2 * d by omega)
  rw [Nat.mul_assoc] at split
  omega

theorem roundRatio_nearest (n : Int) {d : Nat} (h : 0 < d) :
    2 * (d * roundRatio n d - n).natAbs ≤ d
      ∧ (2 * (d * roundRatio n d - n).natAbs = d → n.natAbs < (d * roundRatio n d).natAbs) := by
  unfold roundRatio
  split
  · next positive =>
    obtain ⟨low, high, apart⟩ := rounded_nat n.toNat d h
    rw [← Int.natCast_mul]
    omega
  · next negative =>
    obtain ⟨low, high, apart⟩ := rounded_nat (-n).toNat d h
    rw [Int.mul_neg, ← Int.natCast_mul]
    omega

theorem slewLimit_eq (g : GroupRow) (le o : Int) :
    slewLimit g le o = if g.slew < o - le then le + g.slew else if o - le < -g.slew then le - g.slew else o := by
  unfold slewLimit clamp
  split
  · rw [if_neg (by omega), if_pos (by omega)]
  · split
    · rw [if_pos (by omega)]
    · rw [if_neg (by omega), if_neg (by omega)]

theorem groupClamp_within {g : GroupRow} (order : g.low ≤ g.high) (v : Int) : g.low ≤ g.clamp v ∧ g.clamp v ≤ g.high := by
  unfold GroupRow.clamp
  rw [clamp_eq order]
  omega

/-- Settles O38: `roundRatio_nearest`, `slewLimit_eq` and `groupClamp_within`. -/
theorem actuatorResults : Obligations.ActuatorResults := by
  refine ⟨fun n d h => roundRatio_nearest n h, fun g c le u probe => ?_⟩
  intro clamp raw o slewed x v
  have slews : slewLimit g le o = slewed := slewLimit_eq g le o
  have output : x.output = clamp slewed := congrArg clamp slews
  have marks : x.saturated = (decide (clamp raw ≠ raw) || decide (clamp slewed ≠ slewed)) := by
    rw [← slews]
    rfl
  refine ⟨⟨rfl, output, ?_⟩, ⟨rfl, rfl, rfl⟩, fun order => ?_⟩
  · rw [marks, Bool.or_eq_true, decide_eq_true_eq, decide_eq_true_eq]
  · have live := groupClamp_within order slewed
    have void := groupClamp_within order le
    rw [output]
    exact ⟨live.1, live.2, void.1, void.2⟩

/-! ### The probe (R106, R122) -/

theorem takeNotices_none {s : State} (none' : s.wires.probeNotices = []) : takeNotices s = s := by
  unfold takeNotices
  rw [none']
  dsimp only [List.foldl_nil]
  rw [← none']

theorem exec_probeRequest {s : State} {f : FrameContext} (concluding : s.rce.state = .concluding) (frame : s.rce.frame = some f) :
    exec .probeRequest s = if f.handed.void = false ∧ f.probe = none then .next (settle s (supplyProbe f (takeNotices s))) else .next s := by
  change execProbeRequest s = _
  unfold execProbeRequest
  rw [concluding, frame]
  refine if_congr ?_ rfl rfl
  rw [Bool.and_eq_true, Bool.not_eq_true', Option.isNone_iff_eq_none]

/-- The answer of the Probe Unit from the source in force. -/
theorem supplyProbe_answers {f : FrameContext} {s : State} {source : ProbeSource} {pattern : List Int} {amplitude : Int}
    (inForce : s.pru.inForce = (source, pattern, amplitude)) :
    let e := editionInUse s
    let value := fun a : Nat => roundRatio (amplitude * pattern.getD a 0) 32768
    ∃ g, (supplyProbe f s).pru = { s.pru with supply := some { source := source, inForce := true } }
      ∧ (supplyProbe f s).rce = { s.rce with frame := some g } ∧ g = { f with probe := g.probe, source := source, results := g.results }
      ∧ g.probe = some ((List.range e.actuatorCount).map value)
      ∧ g.results = (List.range e.actuatorCount).map fun a =>
          actuatorResult (e.row a) (Store.read 0 s.rce.integrator a) (Store.read 0 s.cou.lastEmitted a)
            (f.increments.getD a none) (value a) := by
  intro e value
  refine ⟨{ f with
    probe := some (probeVector e.actuatorCount pattern amplitude), source := source
    results := resultsOf s e { f with probe := some (probeVector e.actuatorCount pattern amplitude), source := source } },
    ?_, ?_, rfl, rfl, ?_⟩
  · unfold supplyProbe
    rw [inForce]
    rfl
  · unfold supplyProbe
    rw [inForce]
    rfl
  · refine List.map_congr_left fun a mem => ?_
    have supplied : (probeVector e.actuatorCount pattern amplitude).getD a 0 = value a := by
      have within : a < ((List.range e.actuatorCount).map value).length := by
        rw [List.length_map, List.length_range]
        exact List.mem_range.1 mem
      show ((List.range e.actuatorCount).map value).getD a 0 = value a
      rw [List.getD_eq_getElem _ _ within, List.getElem_map, List.getElem_range]
    show actuatorResult _ _ _ _ ((probeVector e.actuatorCount pattern amplitude).getD a 0) = _
    rw [supplied]
    rfl

/-- Settles O39: `supplyProbe_answers` for each source in force. -/
theorem probeSupplied : Obligations.ProbeSupplied := by
  intro s f concluding frame e answers
  refine ⟨fun no => (exec_probeRequest concluding frame).trans (if_neg fun h => ?_), fun live fresh quiet => ?_⟩
  · obtain void | probed := no
    · rw [void] at h
      exact absurd h.1 nofun
    · rw [h.2] at probed
      exact absurd probed nofun
  · have supplies : ∀ {source : ProbeSource} {pattern : List Int} {amplitude : Int},
        s.pru.inForce = (source, pattern, amplitude) → answers source pattern amplitude := by
      intro source pattern amplitude inForce
      obtain ⟨g, pru, rce, made, probe, results⟩ := supplyProbe_answers (f := f) inForce
      refine ⟨_, g, (exec_probeRequest concluding frame).trans (if_pos ⟨live, fresh⟩), ?_⟩
      have only := supplyProbe_only f s
      rw [takeNotices_none quiet, settle_pru, settle_rce]
      exact ⟨(only.among rfl).settle s, pru, rce, made, probe, results⟩
    refine ⟨fun i injection => supplies ?_, fun n left x none' position entry => supplies ?_, fun none' empty => supplies ?_⟩
    · rw [Pru.inForce, injection]
    · rw [Pru.inForce, none', position]
      dsimp only
      rw [entry]
    · rw [Pru.inForce, none', empty]
      cases s.pru.position with
      | none => rfl
      | some p => rfl

end Sys2Proof.Machine

/-!
The completion of a frame (R111 to R113, R116 to R119): the commit, the telemetry set, the pending changes of the Integrator Store, and the
end of the slot's mark.
-/
namespace Sys2Proof.Machine

/-! ### The Integrator Store (R112, R117 to R119) -/

/-- What a change of the store makes of an actuator's value. -/
def StoreChange.value (c : StoreChange) (a : Nat) (v : Int) : Int :=
  if c.first ≤ a ∧ a < c.first + c.values.length then c.values.getD (a - c.first) 0 else v

theorem Store.read_writeAll_range (m : Store Int) (first a : Nat) (vs : List Int) :
    Store.read 0 (Store.writeAll 0 m first vs) a
      = if first ≤ a ∧ a < first + vs.length then vs.getD (a - first) 0 else Store.read 0 m a := by
  rw [Store.read_writeAll]
  by_cases low : first ≤ a
  · rw [if_pos low]
    by_cases high : a < first + vs.length
    · have within : a - first < vs.length := by omega
      rw [if_pos ⟨low, high⟩, List.getElem?_eq_getElem within, Option.getD_some, List.getD_eq_getElem _ _ within]
    · rw [if_neg fun h => high h.2, List.getElem?_eq_none (by omega), Option.getD_none]
  · rw [if_neg low, if_neg fun h => low h.1]

theorem changes_read (cs : List StoreChange) (m : Store Int) (a : Nat) :
    Store.read 0 (cs.foldl (fun m c => Store.writeAll 0 m c.first c.values) m) a
      = cs.foldl (fun v c => c.value a v) (Store.read 0 m a) := by
  induction cs generalizing m with
  | nil => rfl
  | cons c cs ih =>
    rw [List.foldl_cons, ih, Store.read_writeAll_range]
    rfl

theorem applyChanges_rce (cs : List StoreChange) (s : State) :
    (cs.foldl (fun s c => applyChange c s) s).rce
      = { s.rce with integrator := cs.foldl (fun m c => Store.writeAll 0 m c.first c.values) s.rce.integrator } := by
  induction cs generalizing s with
  | nil => rfl
  | cons c cs ih =>
    rw [List.foldl_cons, ih]
    rfl

theorem commit_read (rs : List ActuatorResult) (k : Nat) (m : Store Int) (a : Nat) :
    Store.read 0 ((rs.zipIdx k).foldl commitOne m) a =
      if k ≤ a then ((rs[a - k]?).bind ActuatorResult.candidate).getD (Store.read 0 m a) else Store.read 0 m a := by
  induction rs generalizing k m with
  | nil => simp
  | cons x rs ih =>
    rw [List.zipIdx_cons, List.foldl_cons, ih]
    have one : Store.read 0 (commitOne m (x, k)) a = if a = k then x.candidate.getD (Store.read 0 m a) else Store.read 0 m a := by
      unfold commitOne
      cases x.candidate with
      | none => exact (ite_self _).symm
      | some v => exact Store.read_write ..
    rw [one]
    obtain below | rfl | above := Nat.lt_trichotomy a k
    · rw [if_neg (by omega), if_neg (by omega), if_neg (by omega)]
    · rw [if_neg (by omega), if_pos rfl, if_pos (Nat.le_refl a), Nat.sub_self]
      rfl
    · rw [if_pos (show k + 1 ≤ a from above), if_neg (by omega), if_pos (by omega), show a - k = a - (k + 1) + 1 by omega]
      rfl

/-! ### The stages of a completion (R112) -/

/-- The results with the Last Emitted values read late. -/
abbrev resultsAt (late : List (Fin 1024)) (f : FrameContext) (s : State) : List ActuatorResult := rereadLate late (editionInUse s) f s

/-- The frame is COMMITTED. -/
abbrev commits (f : FrameContext) (s : State) : Prop := decideResult f.handed.void s.cou.output = .committed

/-- The state after the commit. -/
def afterCommit (late : List (Fin 1024)) (f : FrameContext) (s : State) : State :=
  if commits f s then commitFrame f (editionInUse s) (resultsAt late f s) s else s

/-- The telemetry set of the frame. -/
def telemetryAt (late : List (Fin 1024)) (f : FrameContext) (s : State) : TelemetrySet :=
  telemetryOf s f (editionInUse s) (resultsAt late f s) (decideResult f.handed.void s.cou.output)

/-- The guard report of the frame. -/
def guardsAt (late : List (Fin 1024)) (f : FrameContext) (s : State) : GuardReport :=
  { saturated := saturatedCount (resultsAt late f s), void := f.handed.void, settings := (editionInUse s).guards }

/-- The state after the frame's reports, before the pending changes. -/
def decidedFrame (late : List (Fin 1024)) (f : FrameContext) (s : State) : State :=
  reportGuards (guardsAt late f s) (handTelemetry (telemetryAt late f s)
    (noticeProbe (decideResult f.handed.void s.cou.output == .committed) (afterCommit late f s)))

theorem completeFrame_eq (late : List (Fin 1024)) (f : FrameContext) (s : State) :
    completeFrame late f s = endFrame (f.changes.foldl (fun s c => applyChange c s) (decidedFrame late f s)) := rfl

theorem afterCommit_only (late : List (Fin 1024)) (f : FrameContext) (s : State) :
    OnlyChanges [.rce, .cou] s (afterCommit late f s) := by
  unfold afterCommit
  split
  · exact commitFrame_only ..
  · exact .refl _ s

/-- The store after the commit (step 2). -/
def committedStore (late : List (Fin 1024)) (f : FrameContext) (s : State) : Store Int :=
  if commits f s then (resultsAt late f s).zipIdx.foldl commitOne s.rce.integrator else s.rce.integrator

/-- The store after the pending changes (step 7). -/
def changedStore (late : List (Fin 1024)) (f : FrameContext) (s : State) : Store Int :=
  f.changes.foldl (fun m c => Store.writeAll 0 m c.first c.values) (committedStore late f s)

theorem afterCommit_rce (late : List (Fin 1024)) (f : FrameContext) (s : State) :
    (afterCommit late f s).rce = { s.rce with integrator := committedStore late f s } := by
  unfold afterCommit committedStore
  by_cases yes : commits f s
  · rw [if_pos yes, if_pos yes]
    exact (takeVector_only ..).same .rce (by decide)
  · rw [if_neg yes, if_neg yes]

theorem decidedFrame_only (late : List (Fin 1024)) (f : FrameContext) (s : State) :
    OnlyChanges [.rpu, .wires] (afterCommit late f s) (decidedFrame late f s) :=
  ((with_wires_only _ (afterCommit late f s)).andThen ((handTelemetry_only ..).andThen (with_wires_only _ _))).among rfl

theorem handTelemetry_room {t : TelemetrySet} {s : State} (room : s.rpu.holding.length < 4) :
    (handTelemetry t s).rpu = { s.rpu with handed := t.number, holding := s.rpu.holding ++ [t] }
      ∧ (handTelemetry t s).wires = s.wires := by
  unfold handTelemetry
  dsimp only
  rw [if_pos (show s.rpu.holding.length < Config.listRoom from room)]
  exact ⟨rfl, rfl⟩

theorem handTelemetry_full {t : TelemetrySet} {s : State} (full : 4 ≤ s.rpu.holding.length) :
    (handTelemetry t s).rpu = { s.rpu with handed := t.number, dropped := s.rpu.dropped + 1 }
      ∧ (handTelemetry t s).wires = { s.wires with telemetryWritten := s.wires.telemetryWritten ++ [t.number] } := by
  unfold handTelemetry
  dsimp only
  rw [if_neg (show ¬ s.rpu.holding.length < Config.listRoom from Nat.not_lt.2 full)]
  exact ⟨rfl, rfl⟩

theorem handTelemetry_wires (t : TelemetrySet) (s : State) :
    (handTelemetry t s).wires = { s.wires with telemetryWritten := (handTelemetry t s).wires.telemetryWritten } := by
  by_cases room : s.rpu.holding.length < 4
  · rw [(handTelemetry_room room).2]
  · rw [(handTelemetry_full (Nat.not_lt.1 room)).2]

/-! ### The end of a frame (R78, R90, R113) -/

/-- What the end of the frame makes of the slot that carries the in-use mark. -/
def unmarked (s : State) : State :=
  match s.rce.inUse with
  | some i => releaseSlot i (mapRce (fun r => { r with inUse := none, frame := none, state := .idle }) s)
  | none => mapRce (fun r => { r with inUse := none, frame := none, state := .idle }) s

theorem endFrame_unmarked (s : State) : endFrame s
    = { unmarked s with wires := { (unmarked s).wires with idleToFau := true, idleToRun := true, idleToDu := true } } := rfl

theorem releaseSlot_retained {i : SlotId} {e : Edition} {s : State} (h : slotOf s i = .retained e) :
    releaseSlot i s = { rebuildWatch (setSlot i .empty s) with
      wires := { (rebuildWatch (setSlot i .empty s)).wires with slotRelease := true } } := by
  unfold releaseSlot
  rw [h]

theorem releaseSlot_other {i : SlotId} {s : State} (h : ¬ ∃ e, slotOf s i = .retained e) : releaseSlot i s = s := by
  unfold releaseSlot
  cases slot : slotOf s i with
  | retained e => exact absurd ⟨e, slot⟩ h
  | empty => rfl
  | loading e => rfl
  | current e => rfl

theorem releaseSlot_kept (i : SlotId) (s : State) :
    (releaseSlot i s).rce = { s.rce with slotA := (releaseSlot i s).rce.slotA, slotB := (releaseSlot i s).rce.slotB }
      ∧ (releaseSlot i s).wires = { s.wires with slotRelease := (releaseSlot i s).wires.slotRelease } := by
  by_cases retained : ∃ e, slotOf s i = .retained e
  · obtain ⟨e, slot⟩ := retained
    rw [releaseSlot_retained slot]
    cases i with
    | a => exact ⟨rfl, rfl⟩
    | b => exact ⟨rfl, rfl⟩
  · rw [releaseSlot_other retained]
    exact ⟨rfl, rfl⟩

theorem unmarked_kept (s : State) :
    (unmarked s).rce = { s.rce with
        inUse := none, frame := none, state := .idle, slotA := (unmarked s).rce.slotA, slotB := (unmarked s).rce.slotB }
      ∧ (unmarked s).wires = { s.wires with slotRelease := (unmarked s).wires.slotRelease } := by
  unfold unmarked
  cases s.rce.inUse with
  | none => exact ⟨rfl, rfl⟩
  | some i => exact releaseSlot_kept ..

/-- The slot whose mark is dropped (R78, R90, R113). -/
theorem unmarked_slots {i : SlotId} {s : State} (mark : s.rce.inUse = some i) :
    (∀ k, k ≠ i → slotOf (unmarked s) k = slotOf s k)
      ∧ ((∃ e, slotOf s i = .retained e) → slotOf (unmarked s) i = .empty ∧ (unmarked s).wires.slotRelease = true
          ∧ (unmarked s).watch = watchMap (unmarked s).rce.slotA (unmarked s).rce.slotB)
      ∧ (¬ (∃ e, slotOf s i = .retained e) → slotOf (unmarked s) i = slotOf s i ∧ (unmarked s).watch = s.watch
          ∧ (unmarked s).wires.slotRelease = s.wires.slotRelease) := by
  have slots : ∀ k, slotOf (mapRce (fun r => { r with inUse := none, frame := none, state := .idle }) s) k = slotOf s k := by
    intro k
    cases k <;> rfl
  unfold unmarked
  rw [mark]
  dsimp only
  have watch : (mapRce (fun r => { r with inUse := none, frame := none, state := .idle }) s).watch = s.watch := rfl
  have wires : (mapRce (fun r => { r with inUse := none, frame := none, state := .idle }) s).wires = s.wires := rfl
  generalize mapRce (fun r => { r with inUse := none, frame := none, state := .idle }) s = u at *
  by_cases retained : ∃ e, slotOf s i = .retained e
  · obtain ⟨e, slot⟩ := retained
    rw [releaseSlot_retained ((slots i).trans slot)]
    refine ⟨fun k other => ?_, fun _ => ⟨?_, rfl, rfl⟩, fun no => absurd ⟨e, slot⟩ no⟩
    · show slotOf (setSlot i .empty u) k = _
      rw [slotOf_setSlot, if_neg (Ne.symm other), slots]
    · show slotOf (setSlot i .empty u) i = _
      rw [slotOf_setSlot, if_pos rfl]
  · rw [releaseSlot_other fun ⟨e, slot⟩ => retained ⟨e, (slots i).symm.trans slot⟩]
    exact ⟨fun k _ => slots k, fun yes => absurd yes retained, fun _ => ⟨slots i, watch, by rw [wires]⟩⟩

/-! ### The whole completion -/

/-- The frame's context with the pending changes made, before the end of its mark. -/
abbrev changedFrame (late : List (Fin 1024)) (f : FrameContext) (s : State) : State :=
  f.changes.foldl (fun s c => applyChange c s) (decidedFrame late f s)

theorem changedFrame_only (late : List (Fin 1024)) (f : FrameContext) (s : State) :
    OnlyChanges [.rce] (decidedFrame late f s) (changedFrame late f s) :=
  OnlyChanges.foldl (fun s c => applyChange_only c s) f.changes _

theorem changedFrame_rce (late : List (Fin 1024)) (f : FrameContext) (s : State) :
    (changedFrame late f s).rce = { s.rce with integrator := changedStore late f s } := by
  have decided : (decidedFrame late f s).rce = (afterCommit late f s).rce := (decidedFrame_only late f s).same .rce (by decide)
  rw [changedFrame, applyChanges_rce, decided, afterCommit_rce]
  rfl

theorem completeFrame_rce (late : List (Fin 1024)) (f : FrameContext) (s : State) :
    (completeFrame late f s).rce = { s.rce with
      inUse := none, frame := none, state := .idle
      slotA := (completeFrame late f s).rce.slotA, slotB := (completeFrame late f s).rce.slotB
      integrator := changedStore late f s } := by
  have kept := (unmarked_kept (changedFrame late f s)).1
  rw [completeFrame_eq, endFrame_unmarked]
  dsimp only
  rw [kept, changedFrame_rce]

/-- The value the commit decides for an actuator (R112 step 2). -/
theorem completeFrame_store (late : List (Fin 1024)) (f : FrameContext) (s : State) (a : Nat) :
    Store.read 0 (completeFrame late f s).rce.integrator a = f.changes.foldl (fun v c => c.value a v)
      (match (resultsAt late f s)[a]? with
        | some x => if commits f s then x.candidate.getD (Store.read 0 s.rce.integrator a) else Store.read 0 s.rce.integrator a
        | none => Store.read 0 s.rce.integrator a) := by
  have integrator : (completeFrame late f s).rce.integrator = changedStore late f s := by
    rw [completeFrame_rce]
  rw [integrator, changedStore, changes_read, committedStore]
  refine congrArg (fun v => f.changes.foldl (fun v c => c.value a v) v) ?_
  by_cases yes : commits f s
  · rw [if_pos yes, commit_read, if_pos (Nat.zero_le a), Nat.sub_zero]
    cases (resultsAt late f s)[a]? with
    | none => rfl
    | some x => exact (if_pos yes).symm
  · rw [if_neg yes]
    cases (resultsAt late f s)[a]? with
    | none => rfl
    | some x => exact (if_neg yes).symm

theorem decidedFrame_wires (late : List (Fin 1024)) (f : FrameContext) (s : State) :
    (decidedFrame late f s).wires = { s.wires with
      probeNotices := s.wires.probeNotices ++ [decideResult f.handed.void s.cou.output == .committed]
      guardReports := s.wires.guardReports ++ [guardsAt late f s]
      telemetryWritten := (decidedFrame late f s).wires.telemetryWritten } := by
  have committed : (afterCommit late f s).wires = s.wires := (afterCommit_only late f s).same .wires (by decide)
  have handed := handTelemetry_wires (telemetryAt late f s)
    (noticeProbe (decideResult f.handed.void s.cou.output == .committed) (afterCommit late f s))
  unfold decidedFrame reportGuards
  dsimp only
  rw [handed]
  unfold noticeProbe
  dsimp only
  rw [committed]

theorem completeFrame_wires (late : List (Fin 1024)) (f : FrameContext) (s : State) :
    (completeFrame late f s).wires = { s.wires with
      probeNotices := s.wires.probeNotices ++ [decideResult f.handed.void s.cou.output == .committed]
      guardReports := s.wires.guardReports ++ [guardsAt late f s]
      telemetryWritten := (decidedFrame late f s).wires.telemetryWritten
      slotRelease := (completeFrame late f s).wires.slotRelease
      idleToFau := true, idleToRun := true, idleToDu := true } := by
  have kept := (unmarked_kept (changedFrame late f s)).2
  have changed : (changedFrame late f s).wires = (decidedFrame late f s).wires := (changedFrame_only late f s).same .wires (by decide)
  rw [completeFrame_eq, endFrame_unmarked]
  dsimp only
  rw [kept, changed, decidedFrame_wires]

theorem completeFrame_apart {late : List (Fin 1024)} {f : FrameContext} {s : State} :
    OnlyChanges [.rce, .watch, .wires] (decidedFrame late f s) (completeFrame late f s) :=
  ((changedFrame_only late f s).andThen (endFrame_only _)).among rfl

theorem completeFrame_rpu (late : List (Fin 1024)) (f : FrameContext) (s : State) :
    (s.rpu.holding.length < 4 → (completeFrame late f s).rpu
        = { s.rpu with handed := s.rpu.handed + 1, holding := s.rpu.holding ++ [telemetryAt late f s] })
      ∧ (4 ≤ s.rpu.holding.length → (completeFrame late f s).rpu
          = { s.rpu with handed := s.rpu.handed + 1, dropped := s.rpu.dropped + 1 }
        ∧ (decidedFrame late f s).wires.telemetryWritten = s.wires.telemetryWritten ++ [s.rpu.handed + 1]) := by
  have rpu : (completeFrame late f s).rpu = (decidedFrame late f s).rpu := completeFrame_apart.same .rpu (by decide)
  have before : (afterCommit late f s).rpu = s.rpu := (afterCommit_only late f s).same .rpu (by decide)
  have wires : (afterCommit late f s).wires = s.wires := (afterCommit_only late f s).same .wires (by decide)
  rw [rpu]
  have hands : (decidedFrame late f s).rpu = (handTelemetry (telemetryAt late f s)
      (noticeProbe (decideResult f.handed.void s.cou.output == .committed) (afterCommit late f s))).rpu := rfl
  have written : (decidedFrame late f s).wires.telemetryWritten = (handTelemetry (telemetryAt late f s)
      (noticeProbe (decideResult f.handed.void s.cou.output == .committed) (afterCommit late f s))).wires.telemetryWritten := rfl
  rw [hands, written]
  have rpu' : (noticeProbe (decideResult f.handed.void s.cou.output == .committed) (afterCommit late f s)).rpu = s.rpu := before
  refine ⟨fun room => ?_, fun full => ?_⟩
  · rw [(handTelemetry_room (by rw [rpu']; exact room)).1, rpu']
    rfl
  · obtain ⟨kept, sent⟩ := handTelemetry_full (t := telemetryAt late f s)
      (s := noticeProbe (decideResult f.handed.void s.cou.output == .committed) (afterCommit late f s)) (by rw [rpu']; exact full)
    rw [kept, sent, rpu']
    refine ⟨rfl, ?_⟩
    show (afterCommit late f s).wires.telemetryWritten ++ [s.rpu.handed + 1] = _
    rw [wires]

/-! ### Taking the completion -/

theorem takeGuards_none {s : State} (none' : s.wires.guardReports = []) : takeGuards s = s := by
  unfold takeGuards
  rw [none']
  dsimp only [List.foldl_nil]
  rw [← none']

theorem exec_frameCompletion {late : List (Fin 1024)} {s : State} {f : FrameContext} (concluding : s.rce.state = .concluding)
    (frame : s.rce.frame = some f) (ready : f.handed.void = true ∨ f.probe.isSome = true) :
    exec (.frameCompletion late) s = .next (settle s (noteQuiet s (completeFrame late f (takeGuards s)))) := by
  change execFrameCompletion late s = _
  unfold execFrameCompletion
  rw [concluding, frame]
  exact if_pos (by rw [Bool.or_eq_true]; exact ready)

/-- The holding list and the dropped count are not the writer's. -/
theorem settle_holding (b e : State) :
    (settle b e).rpu.holding = e.rpu.holding ∧ (settle b e).rpu.dropped = e.rpu.dropped := by
  obtain ⟨page, status, stream, eq, _, _⟩ := settle_eq b e
  rw [eq]
  unfold kickWriter
  split
  · split
    · exact ⟨rfl, rfl⟩
    · split
      · exact ⟨rfl, rfl⟩
      · split <;> exact ⟨rfl, rfl⟩
  · exact ⟨rfl, rfl⟩

/-- An idle writer takes the telemetry set of the step at once (R163). -/
theorem settle_telemetry {b e : State} {a : Anchor} {x : TelemetrySet} (anchor : e.run.anchor = some a) (idle : e.rpu.writer = .idle)
    (holding : e.rpu.holding = [x]) : TelemetryTaken a x e (settle b e) := by
  obtain ⟨page, status, stream, eq, _, _⟩ := settle_eq b e
  have takes : kickWriter { e with page := page, rpu := { e.rpu with statusOwed := status, streamOwed := stream } }
      = takeTelemetry a x { e with page := page, rpu := { e.rpu with statusOwed := status, streamOwed := stream } } := by
    unfold kickWriter
    dsimp only
    rw [anchor, idle, holding]
  rw [eq, takes]
  obtain ⟨serial, entry, plain, snapshot⟩ :=
    takeTelemetry_taken a x { e with page := page, rpu := { e.rpu with statusOwed := status, streamOwed := stream } }
  exact ⟨serial, entry, plain, snapshot⟩

/-- The set is taken from the Report Unit as it stood before it joined. -/
theorem TelemetryTaken.from' {a : Anchor} {x : TelemetrySet} {s u t : State} (h : TelemetryTaken a x u t) {n : Nat} {l : List TelemetrySet}
    (rpu : u.rpu = { s.rpu with handed := n, holding := l }) (queue : u.arb.rpu = s.arb.rpu) : TelemetryTaken a x s t := by
  obtain ⟨serial, entry, plain, snapshot⟩ := h
  rw [rpu] at serial entry
  rw [rpu, queue] at plain snapshot
  exact ⟨serial, entry, plain, snapshot⟩

theorem noteQuiet_rest (b s : State) : OnlyChanges [.wires] s (noteQuiet b s)
    ∧ (noteQuiet b s).wires = { s.wires with linksQuiet := (noteQuiet b s).wires.linksQuiet } := by
  refine ⟨noteQuiet_only b s, ?_⟩
  rw [noteQuiet_eq]

theorem decideResult_eq (void : Bool) (o : OutputState) :
    decideResult void o = if void then .void else if o = .live then .committed else .heldOpenLoop := rfl

theorem resultsAt_eq (late : List (Fin 1024)) (f : FrameContext) (s : State) :
    resultsAt late f s
      = f.results.zipIdx.map fun x => if ∃ a ∈ late, a.val = x.2 then resultOf s (editionInUse s) f x.2 else x.1 := by
  refine List.map_congr_left fun x _ => if_congr ?_ rfl rfl
  rw [List.any_eq_true]
  simp only [beq_iff_eq]

theorem afterCommit_cou {late : List (Fin 1024)} {f : FrameContext} {s : State} (yes : commits f s) :
    (afterCommit late f s).cou = { s.cou with settings := some (editionInUse s).links, links := (afterCommit late f s).cou.links }
      ∧ ∀ l : Fin 4, (afterCommit late f s).cou.links[l] = if (editionInUse s).links.map[l].count = 0 then s.cou.links[l] else
          s.cou.links[l].pass
            { kind := .command, number := f.handed.frame, first := (editionInUse s).links.map[l].first
              values := (((resultsAt late f s).map ActuatorResult.output).drop (editionInUse s).links.map[l].first).take
                (editionInUse s).links.map[l].count } := by
  unfold afterCommit
  rw [if_pos yes]
  unfold commitFrame
  rw [takeVector_eq]
  refine ⟨rfl, fun l => ?_⟩
  rw [mapLinksAt_link, linkEntryOf_settings rfl]
  by_cases empty : (editionInUse s).links.map[l].count = 0
  · rw [if_pos empty, if_pos empty]
    rfl
  · rw [if_neg empty, if_neg empty]
    rfl

/-- Settles O40: the stages of the completion one by one, and the telemetry set taken by an idle writer. -/
theorem frameCompletes : Obligations.FrameCompletes := by
  intro late s f concluding frame ready guards e rs result saturated
  have results : resultsAt late f s = rs := resultsAt_eq late f s
  have runs := exec_frameCompletion (late := late) concluding frame ready
  rw [takeGuards_none guards] at runs
  obtain ⟨quiet, quietWires⟩ := noteQuiet_rest s (completeFrame late f s)
  have rce : (noteQuiet s (completeFrame late f s)).rce = (completeFrame late f s).rce := quiet.same .rce (by decide)
  have rpu : (noteQuiet s (completeFrame late f s)).rpu = (completeFrame late f s).rpu := quiet.same .rpu (by decide)
  have run : (noteQuiet s (completeFrame late f s)).run = s.run :=
    (((completeFrame_only late f s).andThen quiet).same .run (by decide))
  have queue : (noteQuiet s (completeFrame late f s)).arb.rpu = s.arb.rpu :=
    (((completeFrame_only late f s).andThen quiet).same .rpuQueue (by decide))
  have cou : (noteQuiet s (completeFrame late f s)).cou = (afterCommit late f s).cou :=
    (((decidedFrame_only late f s).andThen (completeFrame_apart.andThen quiet)).same .cou (by decide))
  have made := completeFrame_rce late f s
  have store := completeFrame_store late f s
  have sent := completeFrame_wires late f s
  obtain ⟨room, full⟩ := completeFrame_rpu late f s
  have counted : saturatedCount rs = saturated := List.countP_eq_length_filter ..
  refine ⟨_, telemetryAt late f s, runs, ?_⟩
  rw [settle_rce, settle_wires, settle_cou, (settle_holding ..).1, (settle_holding ..).2, rce, rpu, cou]
  have telemetry : ∀ a, s.run.anchor = some a → s.rpu.writer = .idle → s.rpu.holding = [] →
      TelemetryTaken a (telemetryAt late f s) s (settle s (noteQuiet s (completeFrame late f s))) := by
    intro a anchor idle none'
    have one := room (by rw [none']; decide)
    rw [none'] at one
    refine (settle_telemetry (by rw [run]; exact anchor) ?_ ?_).from' (rpu.trans one) queue
    · rw [rpu, one]
      exact idle
    · rw [rpu, one]
      rfl
  generalize settle s (noteQuiet s (completeFrame late f s)) = t at telemetry ⊢
  rw [quietWires]
  generalize completeFrame late f s = c at *
  refine ⟨?_, ?_, ?_, ?_, fun no => ?_, fun yes => ?_, fun a => ?_, ⟨rfl, rfl⟩, ?_, fun h => ?_, fun h => ?_, telemetry⟩
  · rw [made]
    exact ⟨rfl, rfl, rfl, rfl, rfl⟩
  · rw [sent]
    exact ⟨rfl, rfl, rfl⟩
  · rw [sent]
    exact congrArg (fun b => s.wires.probeNotices ++ [b]) (beq_eq_decide ..)
  · rw [sent]
    show s.wires.guardReports ++ [guardsAt late f s] = _
    rw [guards, guardsAt, results, counted]
    rfl
  · have other : ¬ commits f s := no
    unfold afterCommit
    rw [if_neg other]
  · have committed := afterCommit_cou (late := late) (f := f) (s := s) yes
    rw [results] at committed
    exact committed
  · have value := store a
    rw [results] at value
    exact value
  · refine ⟨rfl, rfl, rfl, rfl, rfl, rfl, ?_, rfl, rfl, ?_, rfl, ?_⟩
    · show saturatedCount (resultsAt late f s) = _
      rw [results, counted]
    · show (resultsAt late f s).map ActuatorResult.output = _
      rw [results]
    · refine if_congr Iff.rfl rfl ?_
      rw [List.countP_eq_length_filter]
      exact congrArg List.length (List.filter_congr fun a _ => List.contains_eq_mem ..)
  · rw [room h]
    exact ⟨rfl, rfl⟩
  · obtain ⟨kept, written⟩ := full h
    rw [kept, sent]
    refine ⟨rfl, rfl, ?_⟩
    show s.rpu.handed + 1 ∈ (decidedFrame late f s).wires.telemetryWritten
    rw [written]
    exact List.mem_append_right _ (List.mem_singleton_self _)

/-! ### A change of the store (R117 to R119) -/

theorem takeGuards_rest (s : State) : (takeGuards s).rce = s.rce ∧ (takeGuards s).watch = s.watch
    ∧ (takeGuards s).wires = { s.wires with guardReports := [] } := by
  have only := takeGuards_only s
  have wires : (s.wires.guardReports.foldl (fun s g => takeGuard g s) s).wires = s.wires :=
    (OnlyChanges.foldl (fun s g => takeGuard_only g s) s.wires.guardReports s).same .wires (by decide)
  exact ⟨only.same .rce (by decide), only.same .watch (by decide), congrArg (fun w : Wires => { w with guardReports := [] }) wires⟩

theorem takeChange_applied {c : StoreChange} {s : State} (h : s.rce.state ≠ .concluding) :
    (takeChange c s).rce = { s.rce with integrator := Store.writeAll 0 s.rce.integrator c.first c.values } := by
  unfold takeChange
  rw [if_neg h]
  rfl

theorem takeChange_held {c : StoreChange} {s : State} {f : FrameContext} (h : s.rce.state = .concluding)
    (frame : s.rce.frame = some f) :
    (takeChange c s).rce = { s.rce with frame := some { f with changes := f.changes ++ [c] } } := by
  unfold takeChange
  rw [if_pos h, mapFrame_some frame]

/-- A change taken from its wire: applied at once, or held back while the frame concludes. -/
theorem takeChange_becomes {c : StoreChange} {s u : State} (only : OnlyChanges [.wires] s u) :
    Touches [.rce, .wires] s (settle s (takeChange c u)) ∧ (settle s (takeChange c u)).wires = u.wires
      ∧ (s.rce.state ≠ .concluding →
          (settle s (takeChange c u)).rce = { s.rce with integrator := (settle s (takeChange c u)).rce.integrator }
          ∧ ∀ a, Store.read 0 (settle s (takeChange c u)).rce.integrator a = c.value a (Store.read 0 s.rce.integrator a))
      ∧ ∀ f, s.rce.state = .concluding → s.rce.frame = some f →
          (settle s (takeChange c u)).rce = { s.rce with frame := some { f with changes := f.changes ++ [c] } } := by
  have taken := takeChange_only c u
  have rce : u.rce = s.rce := only.same .rce (by decide)
  have wires : (takeChange c u).wires = u.wires := taken.same .wires (by decide)
  rw [settle_rce, settle_wires]
  refine ⟨((only.andThen taken).among rfl).settle s, wires, fun free => ?_, fun f concluding frame => ?_⟩
  · rw [takeChange_applied (by rw [rce]; exact free), rce]
    exact ⟨rfl, fun a => Store.read_writeAll_range ..⟩
  · rw [takeChange_held (by rw [rce]; exact concluding) (by rw [rce]; exact frame), rce]

/-- A change that does not reach the actuator leaves its value. -/
theorem changes_keep {cs : List StoreChange} {a : Nat} (h : ∀ d ∈ cs, ¬ (d.first ≤ a ∧ a < d.first + d.values.length)) (v : Int) :
    cs.foldl (fun v c => c.value a v) v = v := by
  induction cs generalizing v with
  | nil => rfl
  | cons c cs ih =>
    obtain ⟨misses, rest⟩ := List.forall_mem_cons.1 h
    rw [List.foldl_cons, StoreChange.value, if_neg misses]
    exact ih rest v

/-- A void frame decides no value: only its pending changes reach the store. -/
theorem completeFrame_void {late : List (Fin 1024)} {f : FrameContext} {s : State} (void : f.handed.void = true) (a : Nat) :
    Store.read 0 (completeFrame late f s).rce.integrator a
      = f.changes.foldl (fun v c => c.value a v) (Store.read 0 s.rce.integrator a) := by
  have other : ¬ commits f s := by
    unfold commits decideResult
    rw [void]
    nofun
  rw [completeFrame_store]
  refine congrArg (fun v => f.changes.foldl (fun v c => c.value a v) v) ?_
  cases (resultsAt late f s)[a]? with
  | none => rfl
  | some x => exact if_neg other

/-- The slot and the store of the completed frame, read through the end of the step. -/
theorem completed_reads (late : List (Fin 1024)) (f : FrameContext) (s : State) :
    (settle s (noteQuiet s (completeFrame late f (takeGuards s)))).rce = (completeFrame late f (takeGuards s)).rce
      ∧ (settle s (noteQuiet s (completeFrame late f (takeGuards s)))).watch = (completeFrame late f (takeGuards s)).watch
      ∧ (settle s (noteQuiet s (completeFrame late f (takeGuards s)))).wires.slotRelease
          = (completeFrame late f (takeGuards s)).wires.slotRelease := by
  obtain ⟨quiet, wires⟩ := noteQuiet_rest s (completeFrame late f (takeGuards s))
  rw [settle_rce, settle_watch, settle_wires]
  exact ⟨quiet.same .rce (by decide), quiet.same .watch (by decide), by rw [wires]⟩

/-- The slot that carried the frame's mark (R78, R113), at the end of the completion. -/
theorem completeFrame_slots {late : List (Fin 1024)} {f : FrameContext} {s : State} {i : SlotId} (mark : s.rce.inUse = some i) :
    (∀ k, k ≠ i → slotOf (completeFrame late f s) k = slotOf s k)
      ∧ ((∃ e, slotOf s i = .retained e) → slotOf (completeFrame late f s) i = .empty
          ∧ (completeFrame late f s).wires.slotRelease = true
          ∧ (completeFrame late f s).watch = watchMap (completeFrame late f s).rce.slotA (completeFrame late f s).rce.slotB)
      ∧ (¬ (∃ e, slotOf s i = .retained e) → slotOf (completeFrame late f s) i = slotOf s i
          ∧ (completeFrame late f s).watch = s.watch ∧ (completeFrame late f s).wires.slotRelease = s.wires.slotRelease) := by
  have rce := changedFrame_rce late f s
  have changes := (afterCommit_only late f s).andThen ((decidedFrame_only late f s).andThen (changedFrame_only late f s))
  have watch : (changedFrame late f s).watch = s.watch := changes.same .watch (by decide)
  have wires : (changedFrame late f s).wires = (decidedFrame late f s).wires := (changedFrame_only late f s).same .wires (by decide)
  have release : (changedFrame late f s).wires.slotRelease = s.wires.slotRelease := by
    rw [wires, decidedFrame_wires]
  have slots : ∀ k, slotOf (changedFrame late f s) k = slotOf s k := by
    intro k
    unfold slotOf
    rw [rce]
  have ended := unmarked_slots (s := changedFrame late f s) (i := i) (by rw [rce]; exact mark)
  rw [completeFrame_eq, endFrame_unmarked]
  simp only [slots, watch, release] at ended
  exact ended

/-- Settles O41: the slot by `completeFrame_slots`, the store by `takeChange_becomes` and `completeFrame_store`. -/
theorem slotsAndStoreAtCompletion : Obligations.SlotsAndStoreAtCompletion := by
  refine ⟨fun late s f i concluding frame ready mark => ?_, ?_⟩
  · refine ⟨_, exec_frameCompletion concluding frame ready, ?_⟩
    obtain ⟨rce, watch, wires⟩ := completed_reads late f s
    obtain ⟨rce₀, watch₀, wires₀⟩ := takeGuards_rest s
    have slots : ∀ k, slotOf (takeGuards s) k = slotOf s k := fun k => congrArg (fun r : Rce => match k with | .a => r.slotA | .b => r.slotB) rce₀
    have ended := completeFrame_slots (late := late) (f := f) (s := takeGuards s) (i := i) (by rw [rce₀]; exact mark)
    rw [wires₀] at ended
    simp only [slots, watch₀] at ended
    have slots' : ∀ k, slotOf (settle s (noteQuiet s (completeFrame late f (takeGuards s)))) k
        = slotOf (completeFrame late f (takeGuards s)) k :=
      fun k => congrArg (fun r : Rce => match k with | .a => r.slotA | .b => r.slotB) rce
    simp only [slots', watch, wires, rce]
    exact ended
  · intro written
    refine ⟨?_, fun late s f c concluding frame void => ?_, fun late s f before after c concluding frame ready pending => ?_⟩
    · rintro cmd s c rest (⟨rfl, wire⟩ | ⟨rfl, wire⟩)
      · have runs : exec .integratorChange s
            = .next (settle s (takeChange c { s with wires := { s.wires with integratorChanges := rest } })) := by
          change execIntegratorChange s = _
          unfold execIntegratorChange
          rw [wire]
          rfl
        obtain ⟨touches, wires, now, later⟩ := takeChange_becomes (c := c) (s := s)
          (u := { s with wires := { s.wires with integratorChanges := rest } }) (with_wires_only ..)
        exact ⟨_, runs, touches, fun _ => wires, nofun, now, later⟩
      · have runs : exec .safeShapeRequest s
            = .next (settle s (takeChange c { s with wires := { s.wires with safeRequests := rest } })) := by
          change execSafeShapeRequest s = _
          unfold execSafeShapeRequest
          rw [wire]
          rfl
        obtain ⟨touches, wires, now, later⟩ := takeChange_becomes (c := c) (s := s)
          (u := { s with wires := { s.wires with safeRequests := rest } }) (with_wires_only ..)
        exact ⟨_, runs, touches, nofun, fun _ => wires, now, later⟩
    · refine ⟨_, exec_frameCompletion concluding frame (.inl void), fun a => ?_⟩
      rw [(completed_reads ..).1, completeFrame_void (f := { f with changes := [c] }) void, (takeGuards_rest s).1]
      rfl
    · refine ⟨_, exec_frameCompletion concluding frame ready, fun a low high last => ?_⟩
      rw [(completed_reads ..).1, completeFrame_store, pending, List.foldl_append, List.foldl_cons, changes_keep last]
      exact if_pos ⟨low, high⟩

end Sys2Proof.Machine

/-!
The mirror links (R143 to R147): a completed packet and its acceptance window, and what a receiver makes of an accept token.
-/
namespace Sys2Proof.Machine

/-! ### The end of a step of the Command Output Unit -/

theorem settle_page_same {b s : State} (h : s.page = b.page) : (settle b s).page = b.page := by
  have none' : messages b s = 0 := by
    unfold messages
    rw [h, BitVec.and_not_self]
    simp
  obtain ⟨mask, enabled, sent, attention⟩ := (⟨settle_page_mask b s, settle_page_msiEnabled b s, settle_msiSent b s, settle_page_attention b s⟩ :
    _ ∧ _ ∧ _ ∧ _)
  rw [none', Nat.add_zero] at sent
  rw [← h]
  cases page : (settle b s).page
  cases page' : s.page
  rw [page, page'] at mask enabled sent attention
  dsimp only at mask enabled sent attention
  rw [mask, enabled, sent, attention]

/-- A step of the unit with the effect `v` ends in `t`. -/
structure CouStep (s v t : State) : Prop where
  cou : t.cou = v.cou
  attention : t.page.attention = v.page.attention
  page : v.page = s.page → t.page = s.page
  wires : v.wires.linksQuiet = s.wires.linksQuiet → t.wires = { v.wires with linksQuiet := quietNoted s t }

theorem couStep (s v : State) : CouStep s v (settle s (noteQuiet s v)) := by
  obtain ⟨t, next, cou, attention, wires, _⟩ := couFinish_spec s v
  injection next with same
  subst same
  refine ⟨cou, attention, fun page => settle_page_same ?_, fun quiet => ?_⟩
  · rw [noteQuiet_eq]
    exact page
  · rw [wires, quiet]
    rfl

theorem couStep_touches {ps : List Part} {s v : State} (only : OnlyChanges ps s v) :
    Touches (ps ++ [.wires]) s (settle s (noteQuiet s v)) := by
  obtain ⟨t, next, _, _, _, touches⟩ := couFinish_spec s v
  injection next with same
  subst same
  exact touches ps only

/-! ### A hold cause joins (R130, R143) -/

theorem MirrorLink.whenHeld_waiting (x : MirrorLink) : (x.whenHeld true).waitingCommand = none := by
  rw [← MirrorLink.dropCommand_eq_whenHeld]
  rfl

/-- A link that goes on as before keeps all but its waiting command packet and its counts. -/
theorem MirrorLink.whenHeld_kept (b : Bool) (x : MirrorLink) :
    x.whenHeld b = { x with waitingCommand := (x.whenHeld b).waitingCommand, counts := (x.whenHeld b).counts } := by
  unfold MirrorLink.whenHeld
  split <;> rfl

theorem addCause_unit (c : HoldCause) (s : State) : (addCause c s).cou = { s.cou with
    output := (addCause c s).cou.output, causes := (addCause c s).cou.causes
    links := s.cou.links.map (MirrorLink.whenHeld (s.cou.output = .live)) } := by
  by_cases quiet : s.cou.output = .quiet
  · have same : addCause c s = s := by
      unfold addCause
      rw [quiet]
    have links : s.cou.links.map (MirrorLink.whenHeld (s.cou.output = .live)) = s.cou.links := by
      rw [quiet, show decide (OutputState.quiet = .live) = false from rfl, MirrorLink.whenHeld_false, Vector.map_id]
    rw [same, links]
  · rw [addCause_cou c s quiet]

theorem addCause_link (c : HoldCause) (s : State) (l : Fin 4) :
    (addCause c s).cou.links[l] = s.cou.links[l].whenHeld (s.cou.output = .live) := by
  rw [addCause_unit]
  simp

theorem addCause_rest (c : HoldCause) (s : State) : (addCause c s).cou = { s.cou with
    output := (addCause c s).cou.output, causes := (addCause c s).cou.causes, links := (addCause c s).cou.links } := by
  have unit := addCause_unit c s
  have links := congrArg Cou.links unit
  dsimp only at links
  rw [← links] at unit
  exact unit

theorem addCause_joined (c : HoldCause) (s : State) : CauseJoined c s (addCause c s) := by
  refine ⟨fun quiet => ?_, fun active => ?_, fun live => ⟨?_, fun l => ?_⟩, fun other => ?_⟩
  · unfold addCause
    rw [quiet]
    exact ⟨quiet, rfl⟩
  · rw [addCause_cou c s active]
    exact ⟨rfl, rfl⟩
  · rw [attentionHas_addCause]
    simp [live]
  · rw [addCause_link, live]
    exact MirrorLink.whenHeld_waiting _
  · rw [attentionHas_addCause]
    simp [other]

/-- The cause joined in a step that began in `s` with the same output, causes and HELD flag. -/
theorem CauseJoined.of {c : HoldCause} {s u v t : State} (h : CauseJoined c u v)
    (before : u.cou.output = s.cou.output ∧ u.cou.causes = s.cou.causes ∧ attentionHas .held u = attentionHas .held s)
    (after : t.cou.output = v.cou.output ∧ t.cou.causes = v.cou.causes ∧ attentionHas .held t = attentionHas .held v)
    (waiting : ∀ l : Fin 4, v.cou.links[l].waitingCommand = none → t.cou.links[l].waitingCommand = none) : CauseJoined c s t := by
  obtain ⟨quiet, joined, raised, same⟩ := h
  obtain ⟨output, causes, flag⟩ := before
  obtain ⟨output', causes', flag'⟩ := after
  rw [output, causes] at quiet joined
  rw [output] at raised same
  rw [flag] at same
  constructor
  · rw [output', causes']
    exact quiet
  · rw [output', causes']
    exact joined
  · intro live
    rw [flag']
    exact ⟨(raised live).1, fun l => waiting l ((raised live).2 l)⟩
  · rw [flag']
    exact same

/-! ### A window closes as a miss (R146) -/

/-- A link whose window, of this kind, closes as a miss. -/
def MirrorLink.missed (kind : PacketKind) (m : Miss) (x : MirrorLink) : MirrorLink :=
  { x with
    window := .idle, counts := x.counts.missed m
    consecutive := if kind = .command then min 15 (x.consecutive + 1) else x.consecutive }

theorem mapLink_mapLink (l : Fin 4) (f g : MirrorLink → MirrorLink) (s : State) :
    mapLink l g (mapLink l f s) = mapLink l (fun x => g (f x)) s :=
  congrArg (fun ls => withLinks ls s) (tweak_tweak ..)

/-- The miss takes the command window to its limit. -/
abbrev reachesLimit (l : Fin 4) (kind : PacketKind) (s : State) : Prop :=
  kind = .command ∧ missLimit s ≤ min 15 (s.cou.links[l].consecutive + 1)

/-- What the miss limit makes of a command window that has closed as a miss. -/
def atMissLimit (l : Fin 4) (u : State) : State :=
  if missLimit u ≤ u.cou.links[l].consecutive then raise .driverFault (addCause .driver u) else u

theorem miss_eq {l : Fin 4} {s : State} {kind : PacketKind} {n : BitVec 16} {e : Time}
    (window : s.cou.links[l].window = .awaiting kind n e) (m : Miss) :
    miss l m s = if reachesLimit l kind s then raise .driverFault (addCause .driver (mapLink l (MirrorLink.missed kind m) s))
      else mapLink l (MirrorLink.missed kind m) s := by
  have split' : miss l m s = if s.cou.links[l].window.kind = some .command
      then atMissLimit l (mapLink l MirrorLink.missCommand (mapLink l (fun x => { x.count (LinkCounts.miss m) with window := .idle }) s))
      else mapLink l (fun x => { x.count (LinkCounts.miss m) with window := .idle }) s := rfl
  rw [split', window]
  cases kind with
  | safe =>
    rw [if_neg nofun, if_neg fun h : reachesLimit l .safe s => nomatch h.1]
    cases m <;> rfl
  | command =>
    have both : mapLink l MirrorLink.missCommand (mapLink l (fun x => { x.count (LinkCounts.miss m) with window := .idle }) s)
        = mapLink l (MirrorLink.missed .command m) s := by
      rw [mapLink_mapLink]
      cases m <;> rfl
    have run : (mapLink l (MirrorLink.missed .command m) s).cou.links[l].consecutive = min 15 (s.cou.links[l].consecutive + 1) := by
      rw [mapLink_link, if_pos rfl]
      rfl
    rw [if_pos (show (Window.awaiting .command n e).kind = some .command from rfl), both, atMissLimit, run]
    exact if_congr ⟨fun limit => ⟨rfl, limit⟩, fun limit => limit.2⟩ rfl rfl

/-- DRIVER_FAULT is raised and DRIVER joins, in a step from `s` that has left the output, the causes and the flags. -/
theorem driverHolds {s w t : State} (cou : w.cou.output = s.cou.output ∧ w.cou.causes = s.cou.causes)
    (attention : w.page.attention = s.page.attention)
    (after : t.cou.output = (addCause .driver w).cou.output ∧ t.cou.causes = (addCause .driver w).cou.causes)
    (flags : t.page.attention = (raise .driverFault (addCause .driver w)).page.attention)
    (waiting : ∀ l : Fin 4, (addCause .driver w).cou.links[l].waitingCommand = none → t.cou.links[l].waitingCommand = none) :
    DriverHolds s t := by
  have before : ∀ c, attentionHas c w = attentionHas c s := fun c => by
    unfold attentionHas
    rw [attention]
  have flag : ∀ c, attentionHas c t = (attentionHas c (addCause .driver w) || decide (c = .driverFault)) := fun c => by
    rw [← attentionHas_raise]
    unfold attentionHas
    rw [flags]
  refine ⟨?_, fun c fault held => ?_, (addCause_joined .driver w).of ⟨cou.1, cou.2, before _⟩ ⟨after.1, after.2, ?_⟩ waiting⟩
  · simp [flag]
  · rw [flag, attentionHas_addCause, before]
    simp [fault, held]
  · simp [flag]

/-- The miss of a link whose receiver has moved. -/
theorem missed_of {l : Fin 4} {s t : State} {kind : PacketKind} {n : BitVec 16} {e : Time} {r : Receiver} {m : Miss}
    (window : s.cou.links[l].window = .awaiting kind n e)
    (ends : CouStep s (miss l m (mapLink l (fun x => { x with rx := r }) s)) t) :
    t.cou.links[l].rx = r ∧ Missed l kind m s t := by
  have at_ : (mapLink l (fun x => { x with rx := r }) s).cou.links[l] = { s.cou.links[l] with rx := r } := by
    rw [mapLink_link, if_pos rfl]
  have window' : (mapLink l (fun x => { x with rx := r }) s).cou.links[l].window = .awaiting kind n e := by
    rw [at_]
    exact window
  have limit : reachesLimit l kind (mapLink l (fun x => { x with rx := r }) s)
      ↔ kind = .command ∧ missLimit s ≤ min 15 (s.cou.links[l].consecutive + 1) := by
    unfold reachesLimit
    rw [at_]
    rfl
  obtain ⟨cou, attention, page, _⟩ := ends
  rw [miss_eq window', mapLink_mapLink] at cou attention page
  by_cases full : kind = .command ∧ missLimit s ≤ min 15 (s.cou.links[l].consecutive + 1)
  · rw [if_pos (limit.2 full)] at cou attention page
    obtain ⟨rfl, full⟩ := full
    have links : ∀ k, t.cou.links[k] = (if k = l then MirrorLink.missed .command m { s.cou.links[l] with rx := r } else s.cou.links[k]).whenHeld
        (s.cou.output = .live) := fun k => by
      rw [← mapLink_link l k (fun x => MirrorLink.missed .command m { x with rx := r }) s]
      exact (congrArg (fun c : Cou => c.links[k]) cou).trans (addCause_link ..)
    have own := links l
    rw [if_pos rfl] at own
    have rx : t.cou.links[l].rx = r := by
      rw [own, MirrorLink.whenHeld_kept]
      rfl
    refine ⟨rx, nofun, fun _ below => absurd full (Nat.not_le.2 below), fun _ _ => ⟨?_, ?_, ?_, fun k other => ?_⟩⟩
    · exact driverHolds (w := mapLink l (fun x => MirrorLink.missed .command m { x with rx := r }) s) ⟨rfl, rfl⟩ rfl
        (by rw [cou]; exact ⟨rfl, rfl⟩) attention fun k none' => by rw [cou]; exact none'
    · rw [cou]
      exact addCause_rest .driver (mapLink l (fun x => MirrorLink.missed .command m { x with rx := r }) s)
    · rw [rx]
      exact own
    · exact (links k).trans (by rw [if_neg other])
  · rw [if_neg fun h => full (limit.1 h)] at cou attention page
    have own : t.cou.links[l] = MirrorLink.missed kind m { s.cou.links[l] with rx := r } := by
      rw [cou, mapLink_link, if_pos rfl]
    have rx : t.cou.links[l].rx = r := by
      rw [own]
      rfl
    refine ⟨rx, fun safe => ⟨page rfl, ?_⟩, fun command _ => ⟨page rfl, ?_⟩, fun command limit => absurd ⟨command, limit⟩ full⟩
    · rw [rx, cou]
      subst safe
      rfl
    · rw [rx, cou]
      subst command
      rfl

/-- What a miss leaves of the unit, and of the link itself. -/
theorem miss_rest {l : Fin 4} {s : State} {kind : PacketKind} {n : BitVec 16} {e : Time}
    (window : s.cou.links[l].window = .awaiting kind n e) (m : Miss) :
    (miss l m s).cou = { s.cou with
      output := (miss l m s).cou.output, causes := (miss l m s).cou.causes, links := (miss l m s).cou.links }
      ∧ (miss l m s).cou.links[l].rx = s.cou.links[l].rx ∧ (miss l m s).cou.links[l].line = s.cou.links[l].line := by
  rw [miss_eq window]
  split
  · have own : (addCause .driver (mapLink l (MirrorLink.missed kind m) s)).cou.links[l]
        = ((s.cou.links[l].missed kind m).whenHeld (s.cou.output = .live)) := by
      rw [addCause_link, mapLink_link, if_pos rfl]
      rfl
    refine ⟨addCause_rest .driver (mapLink l (MirrorLink.missed kind m) s), ?_, ?_⟩
    · show (addCause .driver _).cou.links[l].rx = _
      rw [own, MirrorLink.whenHeld_kept]
      rfl
    · show (addCause .driver _).cou.links[l].line = _
      rw [own, MirrorLink.whenHeld_kept]
      rfl
  · rw [mapLink_link, if_pos rfl]
    exact ⟨rfl, rfl, rfl⟩

/-! ### Accept tokens (R145) -/

theorem mirrorEvent_token {bs : List Byte} {k : Token} (h : parseToken bs = some k) (l : Fin 4) (s : State) :
    mirrorEvent l s (.complete bs) = takeToken l k s := by
  unfold mirrorEvent
  dsimp only
  rw [h]

theorem mirrorEvent_garbled {bs : List Byte} (h : parseToken bs = none) (l : Fin 4) (s : State) :
    mirrorEvent l s (.complete bs) = badToken l s := by
  unfold mirrorEvent
  dsimp only
  rw [h]

theorem takeToken_rx (l : Fin 4) (k : Token) (s : State) : (takeToken l k s).cou.links[l].rx = s.cou.links[l].rx := by
  have own : ∀ f : MirrorLink → MirrorLink, (∀ x, (f x).rx = x.rx) → (mapLink l f s).cou.links[l].rx = s.cou.links[l].rx :=
    fun f keeps => by rw [mapLink_link, if_pos rfl, keeps]
  unfold takeToken
  split
  next kind n e window =>
    split
    · split
      · exact own _ fun _ => rfl
      · exact (miss_rest window _).2.1
    · exact own _ fun _ => rfl
  next => exact own _ fun _ => rfl

theorem mirrorEvent_rx (l : Fin 4) (s : State) (e : LineEvent) : (mirrorEvent l s e).cou.links[l].rx = s.cou.links[l].rx := by
  have bad : (badToken l s).cou.links[l].rx = s.cou.links[l].rx := by
    rw [badToken, mapLink_link, if_pos rfl]
    rfl
  unfold mirrorEvent
  split
  · exact bad
  · split
    · exact takeToken_rx ..
    · exact bad
  · rfl

theorem mirrorStep_rx (l : Fin 4) (x : Receiver × List LineEvent) (s : State) : (mirrorStep l x s).cou.links[l].rx = x.1 := by
  have all : ∀ (es : List LineEvent) (u : State), (es.foldl (mirrorEvent l) u).cou.links[l].rx = u.cou.links[l].rx := by
    intro es
    induction es with
    | nil => exact fun _ => rfl
    | cons e es ih => exact fun u => (ih _).trans (mirrorEvent_rx l u e)
  rw [mirrorStep, all, mapLink_link, if_pos rfl]

/-- The events of a block that a mirror link receiver hears. -/
def LineEvent.heardByMirror : LineEvent → Bool
  | .discarded => true
  | .complete _ => true
  | _ => false

theorem mirrorEvents_heard (l : Fin 4) (es : List LineEvent) (s : State) :
    es.foldl (mirrorEvent l) s = (es.filter LineEvent.heardByMirror).foldl (mirrorEvent l) s := by
  induction es generalizing s with
  | nil => rfl
  | cons e es ih =>
    rw [List.foldl_cons, ih]
    cases e <;> rfl

theorem dropEvent_heard (r : Receiver) : (r.dropEvent.filter LineEvent.heardByMirror).length ≤ 1 := by
  unfold Receiver.dropEvent
  split <;> decide

theorem collect_heard (bs : List Byte) (r : Receiver) : ((r.collect bs).2.filter LineEvent.heardByMirror).length ≤ 1 := by
  by_cases within : (r.packet ++ bs).length ≤ 2032
  · rw [collect_within within]
    dsimp only
    decide
  · rw [collect_over (Nat.not_le.1 within)]
    dsimp only
    decide

theorem close_heard (bs : List Byte) (r : Receiver) : ((r.close bs).2.filter LineEvent.heardByMirror).length ≤ 1 := by
  by_cases within : (r.packet ++ bs).length ≤ 2032
  · rw [close_within within]
    exact Nat.le_refl 1
  · rw [close_over (Nat.not_le.1 within)]
    dsimp only
    decide

theorem follow_heard (kind : BlockKind) (payload : BitVec 64) (r : Receiver) :
    ((r.follow kind payload).2.filter LineEvent.heardByMirror).length ≤ 1 := by
  unfold Receiver.follow
  split
  case h_4 => exact collect_heard ..
  case h_9 => exact close_heard ..
  all_goals
    dsimp only
    decide

theorem hunt_heard (sync : BitVec 2) (r : Receiver) : ((r.hunt sync).2.filter LineEvent.heardByMirror).length ≤ 1 := by
  fun_cases Receiver.hunt
  all_goals
    dsimp only
    decide

theorem badSyncWord_heard (r : Receiver) : (r.badSyncWord.2.filter LineEvent.heardByMirror).length ≤ 1 := by
  have drop := dropEvent_heard r
  by_cases early : r.badSync < 15
  · rw [badSyncWord_early early]
    exact drop
  · rw [badSyncWord_late (Nat.not_lt.1 early), List.filter_append]
    simpa [LineEvent.heardByMirror] using drop

/-- A block brings the receiver at most one packet, whole or discarded. -/
theorem take_heard (sync : BitVec 2) (payload : BitVec 64) (r : Receiver) :
    ((r.take sync payload).2.filter LineEvent.heardByMirror).length ≤ 1 := by
  unfold Receiver.take
  cases r.link with
  | down => exact hunt_heard ..
  | up =>
    dsimp only
    split
    · exact follow_heard ..
    · exact badSyncWord_heard r

theorem singleton_of_mem {α : Type} {a : α} {xs : List α} (mem : a ∈ xs) (one : xs.length ≤ 1) : xs = [a] := by
  match xs, mem with
  | [x], mem => rw [List.mem_singleton.1 mem]

theorem mirrorBlock_taken {s : State} (running : s.run.initialising = false) (l : Fin 4) (sync : BitVec 2) (payload : BitVec 64) :
    exec (.mirrorBlock l sync payload) s
      = .next (settle s (noteQuiet s (mirrorStep l (s.cou.links[l].rx.take sync payload) s))) := by
  change execMirrorBlock l sync payload s = _
  unfold execMirrorBlock
  rw [running]
  rfl

/-- A link changed beside its receiver. -/
theorem couStep_link {l : Fin 4} {s t : State} {r : Receiver} {f : MirrorLink → MirrorLink}
    (ends : CouStep s (mapLink l f (mapLink l (fun x => { x with rx := r }) s)) t) :
    t.page = s.page ∧ t.cou = { s.cou with links := tweak s.cou.links l fun x => f { x with rx := r } } := by
  rw [mapLink_mapLink] at ends
  exact ⟨ends.page rfl, ends.cou⟩

/-- Settles O43: what the receiver hears (`take_heard`), and a token against the window. -/
theorem acceptTokens : Obligations.AcceptTokens := by
  refine ⟨fun l sync payload s => ?_, fun l s kind n e window => ⟨fun early => ?_, fun late => ?_⟩⟩
  · intro x y becomes counted stray bad
    refine ⟨fun held => ?_, fun running => ?_⟩
    · change execMirrorBlock l sync payload s = _
      unfold execMirrorBlock
      rw [held]
      rfl
    refine ⟨_, mirrorBlock_taken running l sync payload, ?_⟩
    have touches : Touches [.cou, .wires, .attention] s (settle s (noteQuiet s (mirrorStep l y s))) :=
      (couStep_touches (mirrorStep_only l y s)).mono (by decide)
    have ends := couStep s (mirrorStep l y s)
    have one : (y.2.filter LineEvent.heardByMirror).length ≤ 1 := take_heard ..
    change Touches [.cou, .wires, .attention] s (settle s (noteQuiet s (mirrorStep l y s))) ∧ _
    generalize settle s (noteQuiet s (mirrorStep l y s)) = t at *
    have heard : ∀ e, y.2.filter LineEvent.heardByMirror = [e] →
        CouStep s (mirrorEvent l (mapLink l (fun x => { x with rx := y.1 }) s) e) t := by
      intro e only
      unfold mirrorStep at ends
      rw [mirrorEvents_heard, only] at ends
      exact ends
    have taken : ∀ bs, y.2 = [.complete bs] → CouStep s (mirrorEvent l (mapLink l (fun x => { x with rx := y.1 }) s) (.complete bs)) t :=
      fun bs whole => heard _ (by rw [whole]; rfl)
    have window : (mapLink l (fun x => { x with rx := y.1 }) s).cou.links[l].window = x.window := by
      rw [mapLink_link, if_pos rfl]
    have rx : t.cou.links[l].rx = y.1 := by
      rw [ends.cou]
      exact mirrorStep_rx ..
    refine ⟨touches, rx, fun dropped => ?_, fun kept partial' => ?_, fun bs whole => ⟨fun garbled => ?_, fun k token => ⟨fun idle => ?_, ?_⟩⟩⟩
    · exact couStep_link (heard _ (singleton_of_mem (List.mem_filter.2 ⟨dropped, rfl⟩) one))
    · have silent : y.2.filter LineEvent.heardByMirror = [] := by
        refine List.filter_eq_nil_iff.2 fun e mem => ?_
        cases e with
        | discarded => exact absurd mem kept
        | complete bs => exact absurd mem (partial' bs)
        | _ => nofun
      unfold mirrorStep at ends
      rw [mirrorEvents_heard, silent] at ends
      exact ⟨ends.page rfl, ends.cou⟩
    · have ends := taken bs whole
      rw [mirrorEvent_garbled garbled] at ends
      exact couStep_link ends
    · have ends := taken bs whole
      rw [mirrorEvent_token token] at ends
      unfold takeToken at ends
      rw [window, idle] at ends
      exact couStep_link ends
    · intro kind number e awaits
      have ends := taken bs whole
      rw [mirrorEvent_token token] at ends
      unfold takeToken at ends
      rw [window, awaits] at ends
      dsimp only at ends
      refine ⟨fun other => ?_, fun same same' ok => ?_, fun same same' bad' => ?_⟩
      · rw [if_neg (by simpa [← not_and_or] using other)] at ends
        exact couStep_link ends
      · rw [if_pos (by simp [same, same']), if_pos ok] at ends
        exact couStep_link ends
      · rw [if_pos (by simp [same, same']), if_neg (by simp [bad'])] at ends
        exact (missed_of awaits ends).2
  · change execAcceptTimeout l s = _
    unfold execAcceptTimeout
    rw [window]
    simp [early]
  · have next : exec (.acceptTimeout l) s = .next (settle s (noteQuiet s (miss l .timeout s))) := by
      change execAcceptTimeout l s = _
      unfold execAcceptTimeout
      rw [window]
      exact if_pos late
    have same : mapLink l (fun x => { x with rx := s.cou.links[l].rx }) s = s := congrArg (fun ls => withLinks ls s) (tweak_self _ _ rfl)
    have ends := couStep s (miss l .timeout s)
    refine ⟨_, next, (couStep_touches (miss_only ..)).mono (by decide), missed_of window ?_⟩
    rw [same]
    exact ends

/-! ### Completed packets (R135, R144, R147) -/

/-- The counts of a link that has sent a packet of a kind. -/
def LinkCounts.sent (kind : PacketKind) (c : LinkCounts) : LinkCounts :=
  if kind = .command then { c with commands := c.commands + 1 } else { c with safes := c.safes + 1 }

/-- A completed packet before its window opens: its values are emitted, it is counted, and a safe packet requests its shape. -/
def packetSent (l : Fin 4) (p : Packet) (s : State) : State :=
  if p.kind = .command then mapLink l (MirrorLink.count fun c => { c with commands := c.commands + 1 }) (emit p s)
  else requestSafeShape p (mapLink l (MirrorLink.count fun c => { c with safes := c.safes + 1 }) (emit p s))

/-- The last stage of a completed packet. -/
abbrev packetEnds (l : Fin 4) (p : Packet) (v : State) : State := mapLink l (fun x => (x.sendPacket l p).beginNext) v

theorem packetSent_cou (l : Fin 4) (p : Packet) (s : State) : (packetSent l p s).cou = { s.cou with
    lastEmitted := Store.writeAll 0 s.cou.lastEmitted p.first p.values
    links := tweak s.cou.links l (MirrorLink.count (LinkCounts.sent p.kind)) } := by
  unfold packetSent LinkCounts.sent
  cases p.kind with
  | command => rfl
  | safe => rfl

theorem packetSent_wires (l : Fin 4) (p : Packet) (s : State) : (packetSent l p s).wires = { s.wires with
    safeRequests := if p.kind = .safe then s.wires.safeRequests ++ [{ first := p.first, values := p.values }]
      else s.wires.safeRequests } := by
  unfold packetSent
  cases p.kind with
  | command => rfl
  | safe => rfl

theorem packetSent_only (l : Fin 4) (p : Packet) (s : State) : OnlyChanges [.cou, .wires] s (packetSent l p s) := by
  unfold packetSent
  split
  · exact ((emit_only ..).andThen (mapLink_only ..)).among rfl
  · exact ((emit_only ..).andThen ((mapLink_only ..).andThen (requestSafeShape_only ..))).among rfl

theorem exec_packetComplete {l : Fin 4} {s : State} {p : Packet} {cmd : Instr} (sending : s.cou.links[l].tx = .sending p)
    (row : (cmd = .commandPacketComplete l ∧ p.kind = .command) ∨ (cmd = .safePacketComplete l ∧ p.kind = .safe)) :
    exec cmd s = .next (settle s (noteQuiet s (packetEnds l p (openWindow l p.kind p.number (packetSent l p s))))) := by
  obtain ⟨rfl, kind⟩ | ⟨rfl, kind⟩ := row
  · change execCommandPacketComplete l s = _
    unfold execCommandPacketComplete packetSent
    rw [sending]
    dsimp only
    rw [if_pos kind, if_pos kind, kind]
    rfl
  · change execSafePacketComplete l s = _
    have other : ¬ p.kind = .command := by
      rw [kind]
      nofun
    unfold execSafePacketComplete packetSent
    rw [sending]
    dsimp only
    rw [if_pos kind, if_neg other, kind]
    rfl

theorem MirrorLink.beginNext_kept (x : MirrorLink) : x.beginNext =
    { x with tx := x.beginNext.tx, waitingSafe := x.beginNext.waitingSafe, waitingCommand := x.beginNext.waitingCommand } := by
  unfold MirrorLink.beginNext
  split <;> rfl

theorem MirrorLink.beginNext_waiting {x : MirrorLink} (h : x.waitingCommand = none) : x.beginNext.waitingCommand = none := by
  unfold MirrorLink.beginNext
  rw [h]
  cases x.waitingSafe with
  | none => rfl
  | some q => rfl

/-- The acceptance window a packet of a kind opens. -/
abbrev windowOf (kind : PacketKind) (number : BitVec 16) (s : State) : Window :=
  .awaiting kind number (s.time + BitVec.ofNat 64 ((s.cou.settings.map LinkSettings.timeout).getD 0))

theorem tweak_congr {α : Type} {n : Nat} {v : Vector α n} {i : Fin n} {f g : α → α} (h : f v[i] = g v[i]) : tweak v i f = tweak v i g := by
  refine vector_ext fun j => ?_
  rw [tweak_get, tweak_get, h]

/-- The window a completed packet opens, over the state `z` with the earlier window closed (R144). -/
theorem openWindow_over (l : Fin 4) (kind : PacketKind) (number : BitVec 16) (u : State) :
    ∃ z, openWindow l kind number u = mapLink l (fun x => { x with window := windowOf kind number u }) z
      ∧ z.cou = { u.cou with output := z.cou.output, causes := z.cou.causes, links := z.cou.links }
      ∧ z.cou.links[l].line = u.cou.links[l].line
      ∧ (u.cou.links[l].window = .idle → z = u)
      ∧ (∀ k n e, u.cou.links[l].window = .awaiting k n e → z = miss l .superseded u) := by
  unfold openWindow
  cases window : u.cou.links[l].window with
  | idle => exact ⟨u, rfl, rfl, rfl, fun _ => rfl, nofun⟩
  | awaiting k n e =>
    obtain ⟨unit, _, line⟩ := miss_rest window .superseded
    have time : (miss l .superseded u).time = u.time := (miss_only ..).same .time (by decide)
    have settings : (miss l .superseded u).cou.settings = u.cou.settings := by rw [unit]
    refine ⟨miss l .superseded u, ?_, unit, line, nofun, fun _ _ _ _ => rfl⟩
    rw [if_neg nofun]
    dsimp only
    rw [time, settings]

theorem MirrorLink.whenHeld_window (b : Bool) (w : Window) (x : MirrorLink) :
    MirrorLink.whenHeld b { x with window := w } = { x.whenHeld b with window := w } := by
  unfold MirrorLink.whenHeld
  split <;> rfl

/-- A link whose packet has been sent, with a window of its own. -/
def MirrorLink.finishes (l : Fin 4) (p : Packet) (w : Window) (x : MirrorLink) : MirrorLink :=
  { x with window := w, line := x.line ++ (wireBlocks p.bytes ++ [idleBlock l x.line.length]) }.beginNext

theorem MirrorLink.finishes_kept (l : Fin 4) (p : Packet) (w : Window) (x : MirrorLink) :
    (x.finishes l p w).window = w
      ∧ (x.finishes l p w).line = x.line ++ (wireBlocks p.bytes ++ [idleBlock l x.line.length]) := by
  unfold MirrorLink.finishes
  rw [MirrorLink.beginNext_kept]
  exact ⟨rfl, rfl⟩

/-- Settles O42: the packet's end by the window it opens (`openWindow_over`), and the end of an abort trailer. -/
theorem packetsComplete : Obligations.PacketsComplete := by
  refine ⟨fun l n => ⟨rfl, BitVec.extractLsb'_append_eq_right⟩, ?_⟩
  intro begun
  refine ⟨fun l s p cmd sending row => ?_, fun l s trailer => ?_⟩
  · intro x window sent counted
    obtain ⟨z, opens, unit, line, idle, awaits⟩ := openWindow_over l p.kind p.number (packetSent l p s)
    have before := packetSent_cou l p s
    have time : (packetSent l p s).time = s.time := (packetSent_only l p s).same .time (by decide)
    have settings : (packetSent l p s).cou.settings = s.cou.settings := by rw [before]
    have flags : (packetSent l p s).page.attention = s.page.attention := (packetSent_only l p s).same .attention (by decide)
    have own : (packetSent l p s).cou.links[l] = x.count (LinkCounts.sent p.kind) := by
      rw [before]
      exact (tweak_get ..).trans (if_pos rfl)
    have opened : windowOf p.kind p.number (packetSent l p s) = window := by
      unfold windowOf
      rw [time, settings]
    have ended : packetEnds l p (openWindow l p.kind p.number (packetSent l p s)) = mapLink l (MirrorLink.finishes l p window) z := by
      rw [opens, opened, packetEnds, mapLink_mapLink]
      rfl
    have only : OnlyChanges [.cou, .wires, .attention] s (packetEnds l p (openWindow l p.kind p.number (packetSent l p s))) :=
      ((packetSent_only l p s).andThen ((openWindow_only ..).andThen (mapLink_only ..))).among rfl
    have messages : (packetEnds l p (openWindow l p.kind p.number (packetSent l p s))).wires = (packetSent l p s).wires :=
      ((openWindow_only l p.kind p.number (packetSent l p s)).andThen (mapLink_only l _ _)).same .wires (by decide)
    have touches : Touches [.cou, .wires, .attention] s
        (settle s (noteQuiet s (packetEnds l p (openWindow l p.kind p.number (packetSent l p s))))) :=
      (couStep_touches only).mono (by decide)
    obtain ⟨cou, attention, page, wires⟩ := couStep s (packetEnds l p (openWindow l p.kind p.number (packetSent l p s)))
    refine ⟨_, exec_packetComplete sending row, touches, ?_⟩
    generalize settle s (noteQuiet s (packetEnds l p (openWindow l p.kind p.number (packetSent l p s)))) = t at *
    rw [messages, packetSent_wires] at wires
    have link := mapLink_link l l (MirrorLink.finishes l p window) z
    rw [if_pos rfl, ← ended, ← cou] at link
    obtain ⟨window', line'⟩ := MirrorLink.finishes_kept l p window z.cou.links[l]
    rw [line, own] at line'
    rw [ended] at cou attention
    have emitted : t.cou.lastEmitted = Store.writeAll 0 s.cou.lastEmitted p.first p.values := by
      rw [cou]
      show z.cou.lastEmitted = _
      rw [unit, before]
    refine ⟨fun a => ?_, wires rfl, ?_, ?_, fun closed => ?_, fun k n e open' => ?_⟩
    · rw [emitted, Store.read_writeAll_range]
    · rw [link]
      exact window'
    · rw [link]
      exact line'
    · have same := idle (by rw [own]; exact closed)
      subst same
      refine ⟨attention.trans flags, ?_⟩
      rw [emitted, cou, mapLink_cou, before, tweak_tweak]
      rfl
    · intro consecutive y limit
      have missed := awaits k n e (by rw [own]; exact open')
      have at_ : (x.count (LinkCounts.sent p.kind)).missed k .superseded = { y with window := .idle } := rfl
      have full : reachesLimit l k (packetSent l p s) ↔ limit := by
        unfold reachesLimit missLimit
        rw [own, settings]
        refine and_congr_right fun command => ?_
        show _ ↔ missLimit s ≤ if k = .command then _ else _
        rw [if_pos command]
        rfl
      rw [miss_eq (by rw [own]; exact open')] at missed
      refine ⟨fun below => ?_, fun reached => ?_⟩
      · rw [if_neg fun h => below (full.1 h)] at missed
        subst missed
        refine ⟨attention.trans flags, ?_⟩
        rw [emitted, cou, mapLink_mapLink, mapLink_cou, before, tweak_tweak]
        exact congrArg (fun ls : Vector MirrorLink 4 => { s.cou with
          lastEmitted := Store.writeAll 0 s.cou.lastEmitted p.first p.values, links := ls }) (tweak_congr rfl)
      · rw [if_pos (full.2 reached)] at missed
        have output : (packetSent l p s).cou.output = s.cou.output := by rw [before]
        have causes : (packetSent l p s).cou.causes = s.cou.causes := by rw [before]
        have held : ∀ m, z.cou.links[m] = (if m = l then { y with window := .idle } else s.cou.links[m]).whenHeld (s.cou.output = .live) := by
          intro m
          have raised : z.cou.links[m] = ((mapLink l (MirrorLink.missed k .superseded) (packetSent l p s)).cou.links[m]).whenHeld
              ((packetSent l p s).cou.output = .live) := by
            rw [missed]
            exact addCause_link ..
          rw [raised, output, mapLink_link, own, at_]
          by_cases same : m = l
          · rw [if_pos same, if_pos same]
          · rw [if_neg same, if_neg same, before]
            exact congrArg _ ((tweak_get ..).trans (if_neg same))
        refine ⟨?_, ?_, ?_, fun m other => ?_⟩
        · refine driverHolds (w := mapLink l (MirrorLink.missed k .superseded) (packetSent l p s)) ⟨output, causes⟩ flags ?_ ?_ fun m none' => ?_
          · rw [cou, missed]
            exact ⟨rfl, rfl⟩
          · rw [attention, missed]
            rfl
          · have waits : z.cou.links[m].waitingCommand = none := by
              rw [missed]
              exact none'
            rw [cou, mapLink_link]
            split
            next same =>
              subst same
              exact MirrorLink.beginNext_waiting waits
            next => exact waits
        · rw [before] at unit
          rw [emitted, cou]
          exact congrArg (fun c : Cou => { c with links := tweak c.links l (MirrorLink.finishes l p window) }) unit
        · rw [link, held, if_pos rfl, MirrorLink.whenHeld_window]
          have line : (y.whenHeld (s.cou.output = .live)).line = x.line := by
            rw [MirrorLink.whenHeld_kept]
          unfold MirrorLink.finishes
          dsimp only
          rw [line]
          rfl
        · rw [cou, mapLink_link, if_neg other, held, if_neg other]
  · intro ended
    have next : exec (.trailerEnd l) s = .next (settle s (noteQuiet s (mapLink l (fun x => (x.sendTrailer l).beginNext) s))) := by
      change execTrailerEnd l s = _
      unfold execTrailerEnd
      rw [trailer]
      rfl
    obtain ⟨cou, _, _, wires⟩ := couStep s (mapLink l (fun x => (x.sendTrailer l).beginNext) s)
    exact ⟨_, next, couStep_touches (mapLink_only ..), wires rfl, cou⟩

end Sys2Proof.Machine

/-!
The interlock (R132 to R134, R136): an assertion with its hold action, and the release interval.
-/
namespace Sys2Proof.Machine

/-! ### The hold action on one link (R134) -/

/-- The entry of a link for which the hold action forms a safe packet. -/
def holdEntry (s : State) (l : Fin 4) : Option OutEntry := if s.cou.action = .safe then linkEntryOf s l else none

theorem holdAction_unit (s : State) : (holdAction s).cou = { s.cou with
    safeSerial := if s.cou.action = .safe then s.cou.safeSerial + 1 else s.cou.safeSerial, links := (holdAction s).cou.links } := by
  cases action : s.cou.action with
  | freeze =>
    rw [holdAction_freeze action]
    exact if_neg (show ¬ HoldAction.freeze = .safe by decide) ▸ rfl
  | safe =>
    rw [holdAction_safe action]
    exact if_pos (rfl : HoldAction.safe = .safe) ▸ rfl

theorem holdAction_link (s : State) (l : Fin 4) : (holdAction s).cou.links[l]
    = s.cou.links[l].passFor (holdEntry s l) (safePacket { s with cou := { s.cou with safeSerial := s.cou.safeSerial + 1 } }) := by
  unfold holdEntry
  cases action : s.cou.action with
  | freeze =>
    rw [holdAction_freeze action]
    rfl
  | safe =>
    rw [holdAction_safe action, mapLinksAt_link]
    rfl

theorem MirrorLink.pass_busy {x : MirrorLink} {p : Packet} (safe : p.kind = .safe) (busy : x.tx ≠ .idle) :
    x.pass p = { x with waitingSafe := some p } := by
  unfold MirrorLink.pass
  rw [safe]
  cases tx : x.tx with
  | idle => exact absurd tx busy
  | sending q => rfl
  | trailer => rfl

/-- A safe packet changes the transmitter and the safe waiting list alone. -/
theorem MirrorLink.passFor_kept {packet : OutEntry → Packet} (safe : ∀ e, (packet e).kind = .safe) (entry : Option OutEntry) (x : MirrorLink) :
    x.passFor entry packet = { x with tx := (x.passFor entry packet).tx, waitingSafe := (x.passFor entry packet).waitingSafe } := by
  cases entry with
  | none => rfl
  | some e =>
    by_cases idle : x.tx = .idle
    · show x.pass (packet e) = { x with tx := (x.pass (packet e)).tx, waitingSafe := (x.pass (packet e)).waitingSafe }
      rw [MirrorLink.pass_idle idle]
    · show x.pass (packet e) = { x with tx := (x.pass (packet e)).tx, waitingSafe := (x.pass (packet e)).waitingSafe }
      rw [MirrorLink.pass_busy (safe e) idle]

theorem MirrorLink.passFor_busy {packet : OutEntry → Packet} (safe : ∀ e, (packet e).kind = .safe) (entry : Option OutEntry)
    {x : MirrorLink} (busy : x.tx ≠ .idle) : (x.passFor entry packet).tx = x.tx := by
  cases entry with
  | none => rfl
  | some e =>
    show (x.pass (packet e)).tx = x.tx
    rw [MirrorLink.pass_busy (safe e) busy]

/-! ### The assertion on one link (R133) -/

/-- A mirror link at an assertion: its command packet in transmission is cut off, and the one that waits is discarded. -/
def MirrorLink.asserted (i : Fin 4) (x : MirrorLink) : MirrorLink := (x.cutCommand i).dropCommand

theorem MirrorLink.cutCommand_command {x : MirrorLink} {p : Packet} (sending : x.tx = .sending p) (command : p.kind = .command) (i : Fin 4) :
    x.cutCommand i = { x.cutOff i p with counts := { x.counts with aborted := x.counts.aborted + 1 } } := by
  unfold MirrorLink.cutCommand
  rw [sending]
  exact if_pos command

theorem MirrorLink.cutCommand_other {x : MirrorLink} (h : ¬ ∃ p, x.tx = .sending p ∧ p.kind = .command) (i : Fin 4) : x.cutCommand i = x := by
  unfold MirrorLink.cutCommand
  cases tx : x.tx with
  | idle => rfl
  | trailer => rfl
  | sending p => exact if_neg fun command => h ⟨p, tx, command⟩

theorem MirrorLink.asserted_command {x : MirrorLink} {p : Packet} (sending : x.tx = .sending p) (command : p.kind = .command) (i : Fin 4) :
    x.asserted i = { x.cutOff i p with
      waitingCommand := none
      counts := { x.counts with
        aborted := x.counts.aborted + 1
        dropped := if x.waitingCommand.isSome then x.counts.dropped + 1 else x.counts.dropped } } := by
  unfold MirrorLink.asserted
  rw [MirrorLink.cutCommand_command sending command]
  unfold MirrorLink.dropCommand
  have waits : (x.cutOff i p).waitingCommand = x.waitingCommand := rfl
  dsimp only
  rw [waits]
  cases x.waitingCommand with
  | none => rfl
  | some q => rfl

theorem MirrorLink.asserted_other {x : MirrorLink} (h : ¬ ∃ p, x.tx = .sending p ∧ p.kind = .command) (i : Fin 4) :
    x.asserted i = { x with
      waitingCommand := none
      counts := { x.counts with dropped := if x.waitingCommand.isSome then x.counts.dropped + 1 else x.counts.dropped } } := by
  unfold MirrorLink.asserted
  rw [MirrorLink.cutCommand_other h]
  unfold MirrorLink.dropCommand
  cases x.waitingCommand with
  | none => rfl
  | some q => rfl

/-- A waiting command packet that going HELD has discarded already changes nothing more. -/
theorem MirrorLink.whenHeld_asserted (b : Bool) (i : Fin 4) (x : MirrorLink) : (x.whenHeld b).asserted i = x.asserted i := by
  cases b with
  | false => rw [MirrorLink.whenHeld_false]; rfl
  | true =>
    rw [← MirrorLink.dropCommand_eq_whenHeld]
    by_cases cut : ∃ p, x.tx = .sending p ∧ p.kind = .command
    · obtain ⟨p, sending, command⟩ := cut
      have sending' : x.dropCommand.tx = .sending p := sending
      rw [MirrorLink.asserted_command sending command, MirrorLink.asserted_command sending' command]
      unfold MirrorLink.dropCommand
      cases x.waitingCommand with
      | none => rfl
      | some q => rfl
    · have cut' : ¬ ∃ p, x.dropCommand.tx = .sending p ∧ p.kind = .command := cut
      rw [MirrorLink.asserted_other cut, MirrorLink.asserted_other cut']
      unfold MirrorLink.dropCommand
      cases x.waitingCommand with
      | none => rfl
      | some q => rfl

/-- A command packet is in transmission. -/
abbrev MirrorLink.SendsCommand (x : MirrorLink) : Prop := ∃ p, x.tx = .sending p ∧ p.kind = .command

/-- A mirror link after an assertion with its hold action: `entry` is the link's range, where a safe packet is formed. -/
structure AssertedLink (entry : Option OutEntry) (packet : OutEntry → Packet) (x y : MirrorLink) : Prop where
  kept : y = { x with
    waitingCommand := none, tx := y.tx, line := y.line, cuts := y.cuts, waitingSafe := y.waitingSafe
    counts := { x.counts with
      dropped := if x.waitingCommand.isSome then x.counts.dropped + 1 else x.counts.dropped
      aborted := y.counts.aborted } }
  aborted : x.SendsCommand → y.tx = .trailer ∧ y.counts.aborted = x.counts.aborted + 1
  cutOff : ∀ p, x.tx = .sending p → p.kind = .command → CutOff p x y
  uncut : ¬ x.SendsCommand → y.counts.aborted = x.counts.aborted ∧ y.line = x.line ∧ y.cuts = x.cuts
  unheld : entry = none → y.waitingSafe = x.waitingSafe ∧ (¬ x.SendsCommand → y.tx = x.tx)
  free : ∀ e, entry = some e → x.tx = .idle → y.tx = .sending (packet e) ∧ y.waitingSafe = x.waitingSafe
  busy : ∀ e, entry = some e → x.tx ≠ .idle → y.waitingSafe = some (packet e) ∧ (¬ x.SendsCommand → y.tx = x.tx)

/-- The safe packet comes after what the assertion does to the link. -/
theorem AssertedLink.passFor {packet : OutEntry → Packet} (safe : ∀ e, (packet e).kind = .safe) (entry : Option OutEntry) {x z : MirrorLink}
    (h : AssertedLink none packet x z) : AssertedLink entry packet x (z.passFor entry packet) := by
  obtain ⟨kept, aborted, cutOff, uncut, unheld, _, _⟩ := h
  obtain ⟨waiting, tx⟩ := unheld rfl
  have passed := MirrorLink.passFor_kept safe entry z
  have counts : (z.passFor entry packet).counts = z.counts := by rw [passed]
  have line : (z.passFor entry packet).line = z.line := by rw [passed]
  have cuts : (z.passFor entry packet).cuts = z.cuts := by rw [passed]
  have stays : z.tx ≠ .idle → (z.passFor entry packet).tx = z.tx := MirrorLink.passFor_busy safe entry
  have busy : x.tx ≠ .idle → z.tx ≠ .idle := by
    intro busy idle
    by_cases cut : x.SendsCommand
    · rw [(aborted cut).1] at idle
      nomatch idle
    · exact busy ((tx cut).symm.trans idle)
  constructor
  · rw [counts, line, cuts]
    exact passed.trans (congrArg (fun w : MirrorLink => { w with
      tx := (z.passFor entry packet).tx, waitingSafe := (z.passFor entry packet).waitingSafe }) kept)
  · intro cut
    obtain ⟨trailer, count⟩ := aborted cut
    rw [counts, stays (by rw [trailer]; nofun)]
    exact ⟨trailer, count⟩
  · intro p sending command
    obtain ⟨trailer, sent⟩ := cutOff p sending command
    refine ⟨?_, ?_⟩
    · rw [stays (by rw [trailer]; nofun)]
      exact trailer
    · rw [line]
      exact sent
  · rw [counts, line, cuts]
    exact uncut
  · rintro rfl
    exact ⟨waiting, tx⟩
  · rintro e rfl idle
    have uncut' : ¬ x.SendsCommand := by
      rintro ⟨p, sending, _⟩
      rw [idle] at sending
      nomatch sending
    show (z.pass (packet e)).tx = _ ∧ (z.pass (packet e)).waitingSafe = _
    rw [MirrorLink.pass_idle ((tx uncut').trans idle)]
    exact ⟨rfl, waiting⟩
  · rintro e rfl active
    show (z.pass (packet e)).waitingSafe = _ ∧ (_ → (z.pass (packet e)).tx = _)
    rw [MirrorLink.pass_busy (safe e) (busy active)]
    exact ⟨rfl, tx⟩

theorem MirrorLink.asserted_link (i : Fin 4) (packet : OutEntry → Packet) (x : MirrorLink) : AssertedLink none packet x (x.asserted i) := by
  by_cases cut : x.SendsCommand
  · obtain ⟨p, sending, command⟩ := cut
    rw [MirrorLink.asserted_command sending command]
    refine ⟨rfl, fun _ => ⟨rfl, rfl⟩, fun q same _ => ?_, fun no => absurd ⟨p, sending, command⟩ no,
      fun _ => ⟨rfl, fun no => absurd ⟨p, sending, command⟩ no⟩, nofun, nofun⟩
    obtain rfl : p = q := Transmitter.sending.inj (sending.symm.trans same)
    obtain ⟨trailer, sent⟩ := cutOff_cut i p x
    exact ⟨trailer, sent⟩
  · rw [MirrorLink.asserted_other cut]
    exact ⟨rfl, fun yes => absurd yes cut, fun p sending command => absurd ⟨p, sending, command⟩ cut, fun _ => ⟨rfl, rfl, rfl⟩,
      fun _ => ⟨rfl, fun _ => rfl⟩, nofun, nofun⟩

/-! ### The whole assertion (R133) -/

theorem assertInterlock_idle {s : State} (h : s.cou.level = .asserted ∨ s.cou.output = .quiet) :
    assertInterlock s = setInterlock .asserted .asserted none s := by
  have other : ¬ (s.cou.level = .released ∧ s.cou.output ≠ .quiet) := by
    rintro ⟨released, active⟩
    obtain level | quiet := h
    · rw [level] at released
      nomatch released
    · exact active quiet
  unfold assertInterlock
  exact if_neg (by simpa using other)

theorem assertInterlock_taken {s : State} (released : s.cou.level = .released) (active : s.cou.output ≠ .quiet) :
    assertInterlock s = holdAction (mapLinksAt (fun i l => (l.cutCommand i).dropCommand)
      (addCause .interlock (setInterlock .asserted .asserted none s))) := by
  unfold assertInterlock
  exact if_pos (by simp [released, active])

/-- The unit before the hold action, with the command packets off the links. -/
theorem assertion_unit {u : State} (active : u.cou.output ≠ .quiet) :
    (mapLinksAt (fun i l => (l.cutCommand i).dropCommand) (addCause .interlock u)).cou = { u.cou with
      output := .held, causes := u.cou.causes.add .interlock
      links := Vector.ofFn fun i => u.cou.links[i].asserted i } := by
  have links : ∀ i : Fin 4, (((addCause .interlock u).cou.links[i]).cutCommand i).dropCommand = u.cou.links[i].asserted i := fun i => by
    rw [addCause_link]
    exact MirrorLink.whenHeld_asserted ..
  rw [mapLinksAt_cou]
  simp only [links]
  rw [addCause_cou .interlock u active]

/-- The unit after an assertion taken in LIVE or HELD. -/
theorem assertInterlock_unit {s : State} (released : s.cou.level = .released) (active : s.cou.output ≠ .quiet) :
    (assertInterlock s).cou = { s.cou with
        level := .asserted, input := .asserted, release := none
        output := .held, causes := s.cou.causes.add .interlock, links := (assertInterlock s).cou.links
        safeSerial := if s.cou.action = .safe then s.cou.safeSerial + 1 else s.cou.safeSerial }
      ∧ ∀ l : Fin 4, AssertedLink (holdEntry s l) (safePacket { s with cou := { s.cou with safeSerial := s.cou.safeSerial + 1 } })
          s.cou.links[l] (assertInterlock s).cou.links[l] := by
  rw [assertInterlock_taken released active]
  have before := assertion_unit (u := setInterlock .asserted .asserted none s) active
  generalize mapLinksAt _ (addCause .interlock _) = v at before
  have unit := holdAction_unit v
  have own := holdAction_link v
  unfold holdEntry linkEntryOf safePacket at own
  unfold holdEntry linkEntryOf safePacket
  simp only [before] at unit own
  refine ⟨unit, fun l => ?_⟩
  have link := own l
  rw [show (Vector.ofFn fun i => (setInterlock .asserted .asserted none s).cou.links[i].asserted i)[l]
    = (setInterlock .asserted .asserted none s).cou.links[l].asserted l from ofFn_get ..] at link
  rw [link]
  exact (MirrorLink.asserted_link l _ s.cou.links[l]).passFor (fun _ => rfl) (holdEntry s l)

theorem attentionHas_assertInterlock {s : State} (released : s.cou.level = .released) (active : s.cou.output ≠ .quiet) (c : Cause) :
    attentionHas c (assertInterlock s) = attentionHas c (addCause .interlock (setInterlock .asserted .asserted none s)) := by
  rw [assertInterlock_taken released active]
  exact attentionHas_of_only ((mapLinksAt_only _ _).andThen (holdAction_only _)) (by decide) c

/-! ### The release (R132, R136) -/

theorem HoldCauses.any_iff {c : HoldCauses} (h : c.interlock = false) :
    c.any = true ↔ c.guardSaturation ∨ c.guardVoid ∨ c.driver ∨ c.directive := by
  simp [HoldCauses.any, h, or_assoc]

theorem releaseInterlock_cou (s : State) :
    (s.cou.output ≠ .held → (releaseInterlock s).cou = { s.cou with level := .released, release := none })
      ∧ (s.cou.output = .held → s.cou.autoResume = false → (releaseInterlock s).cou = { s.cou with
          level := .released, release := none, causes := { s.cou.causes with interlock := false, directive := true } })
      ∧ (s.cou.output = .held → s.cou.autoResume = true → (releaseInterlock s).cou = { s.cou with
          level := .released, release := none, causes := { s.cou.causes with interlock := false }
          output := if { s.cou.causes with interlock := false }.any then .held else .live }) := by
  unfold releaseInterlock
  refine ⟨fun other => ?_, fun held stay => ?_, fun held resume => ?_⟩
  · rw [if_neg other]
    rfl
  · rw [if_pos held]
    unfold releaseHold
    rw [if_neg (show ¬ (setInterlock .released s.cou.input none s).cou.autoResume = true from Bool.eq_false_iff.1 stay)]
    show { s.cou with
      level := .released, release := none, output := .held
      causes := { s.cou.causes with interlock := false, directive := true } } = _
    rw [← held]
  · rw [if_pos held]
    unfold releaseHold
    rw [if_pos (show (setInterlock .released s.cou.input none s).cou.autoResume = true from resume)]
    rfl

theorem beginRelease_cou (s : State) : (beginRelease s).cou = { s.cou with
    release := if s.cou.input = .released ∧ s.cou.level = .asserted ∧ s.cou.release = none ∧ s.run.initialising = false
      then some (s.time + 100) else s.cou.release } := by
  unfold beginRelease
  by_cases begins : s.cou.input = .released ∧ s.cou.level = .asserted ∧ s.cou.release = none ∧ s.run.initialising = false
  · obtain ⟨input, level, release, running⟩ := begins
    rw [if_pos (by simp [input, level, release, running]), if_pos ⟨input, level, release, running⟩]
    rfl
  · rw [if_neg (by simpa [and_assoc] using begins), if_neg begins]

/-- Settles O44: the assertion by `assertInterlock_unit` and the laws of one link, the release by its branches. -/
theorem interlockEvents : Obligations.InterlockEvents := by
  refine ⟨fun s => ?_, fun s => ?_, fun s e release => ?_, ?_⟩
  · obtain ⟨cou, attention, _, wires⟩ := couStep s (assertInterlock s)
    have wires₀ : (assertInterlock s).wires = s.wires := (assertInterlock_only s).same .wires (by decide)
    rw [wires₀] at wires
    refine ⟨_, rfl, (couStep_touches (assertInterlock_only s)).mono (by decide), ?_⟩
    generalize settle s (noteQuiet s (assertInterlock s)) = t at *
    have flags : ∀ c, attentionHas c t = attentionHas c (assertInterlock s) := fun c => by
      unfold attentionHas
      rw [attention]
    by_cases idle : s.cou.level = .asserted ∨ s.cou.output = .quiet
    · rw [assertInterlock_idle idle] at cou attention
      refine ⟨by rw [cou]; rfl, by rw [cou]; rfl, by rw [cou]; rfl, fun _ => ⟨attention, cou⟩, fun released active => ?_⟩
      obtain level | quiet := idle
      · rw [level] at released
        nomatch released
      · exact absurd quiet active
    · have released : s.cou.level = .released := by
        cases level : s.cou.level with
        | asserted => exact absurd (.inl level) idle
        | released => rfl
      have active : s.cou.output ≠ .quiet := fun quiet => idle (.inr quiet)
      obtain ⟨unit, links⟩ := assertInterlock_unit released active
      have raised := fun c => (flags c).trans (attentionHas_assertInterlock released active c)
      rw [← cou] at unit
      refine ⟨by rw [unit], by rw [unit], by rw [unit], fun no => absurd no idle, fun _ _ => ⟨?_, fun c other => ?_, wires rfl, unit, fun l => ?_⟩⟩
      · refine (addCause_joined .interlock (setInterlock .asserted .asserted none s)).of ⟨rfl, rfl, rfl⟩ ⟨?_, ?_, raised _⟩ fun l _ => ?_
        · rw [unit, addCause_cou .interlock (setInterlock .asserted .asserted none s) active]
        · rw [unit, addCause_cou .interlock (setInterlock .asserted .asserted none s) active]
          rfl
        · rw [cou, (links l).kept]
      · rw [raised, attentionHas_addCause]
        simp only [other, decide_false, Bool.false_and, Bool.or_false]
        rfl
      · intro x y cut
        have link := links l
        rw [← cou] at link
        refine ⟨link.kept, link.aborted, link.cutOff, link.uncut, fun none' => ?_, fun e settings safe inForce entry used => ?_⟩
        · refine link.unheld ?_
          unfold holdEntry
          obtain freeze | unset | ⟨g, inForce, empty⟩ := none'
          · rw [freeze]
            rfl
          · unfold linkEntryOf
            rw [unset]
            exact ite_self _
          · rw [linkEntryOf_settings inForce, if_pos empty]
            exact ite_self _
        · have found : holdEntry s l = some e := by
            unfold holdEntry
            rw [if_pos safe, linkEntryOf_settings inForce, entry, if_neg used]
          exact ⟨link.free e found, link.busy e found⟩
  · refine ⟨_, rfl, (((with_cou_only _ s).andThen (beginRelease_only _)).among rfl).settle s, ?_⟩
    rw [settle_cou, beginRelease_cou]
    refine congrArg (fun r => { s.cou with input := .released, release := r }) ?_
    exact if_congr (and_iff_right rfl) rfl rfl
  · have next : exec .interlockReleaseInterrupted s
        = .next (settle s { s with cou := { s.cou with input := .asserted, release := none } }) := by
      change execInterlockReleaseInterrupted s = _
      unfold execInterlockReleaseInterrupted
      rw [release]
      rfl
    exact ⟨_, next, (with_cou_only _ s).settle s, settle_cou ..⟩
  · intro s e release left
    have row : exec .interlockRelease s = if Time.reached s.time e then finish s (releaseInterlock s) else .next s := by
      change execInterlockRelease s = _
      unfold execInterlockRelease
      rw [release]
    refine ⟨fun early => ?_, fun late => ⟨_, row.trans (if_pos late), (releaseInterlock_only s).settle s, ?_⟩⟩
    · rw [row, early]
      rfl
    · rw [settle_cou]
      obtain ⟨unheld, stays, resumes⟩ := releaseInterlock_cou s
      refine ⟨unheld, stays, fun held resume => (resumes held resume).trans ?_⟩
      exact congrArg (fun o => { s.cou with level := .released, release := none, causes := left, output := o })
        (if_congr (HoldCauses.any_iff (c := left) rfl) rfl rfl)

end Sys2Proof.Machine

/-!
The scan of the strip (R151 to R153, R155), and the directives whose fields are malformed (12.3).
-/
namespace Sys2Proof.Machine

/-! ### A ticket leaves the strip -/

/-- The Directive Unit with the expected ticket taken. -/
def Du.take (t : Ticket) (d : Du) : Du :=
  { d with
    takenThrough := some t, expected := some (t + 1), unsettled := d.unsettled ++ [t], torn := 0, tornMemory := 0
    settledThrough := some ((d.unsettled ++ [t]).headD t - 1) }

theorem takeTicket_du (t : Ticket) (s : State) : (takeTicket t s).du = s.du.take t := by
  unfold takeTicket Du.take settledValue
  cases s.du.unsettled with
  | nil => rfl
  | cons x xs => rfl

/-- A ticket that is taken and ends at once: its outcome is placed, and the read of the next slot. -/
theorem endTaken {s : State} {a : Anchor} (anchor : s.run.anchor = some a) (t : Ticket) (code : Nat) (detail : BitVec 32) :
    (readExpected (finalOutcome t code detail (takeTicket t s))).du
        = { s.du.take t with activity := .reading, job := some (newJob .slot (slotOffset a (t + 1)) 128) }
      ∧ (readExpected (finalOutcome t code detail (takeTicket t s))).arb.du
        = s.arb.du ++ writeAccesses (.outcome [t]) (slotOffset a t + 8) (outcomeBytes code detail)
          ++ readAccesses .slot (slotOffset a (t + 1)) 128 := by
  have placed : finalOutcome t code detail (takeTicket t s)
      = placeDu (writeAccesses (.outcome [t]) (slotOffset a t + 8) (outcomeBytes code detail)) (takeTicket t s) :=
    placeOutcome_eq (s := takeTicket t s) anchor ..
  rw [placed, readExpected_eq (a := a) (t := t + 1)
    (s := placeDu (writeAccesses (.outcome [t]) (slotOffset a t + 8) (outcomeBytes code detail)) (takeTicket t s)) anchor rfl]
  refine ⟨?_, rfl⟩
  rw [← takeTicket_du]
  rfl

/-! ### A slot that has been read (R152) -/

/-- A torn read: an uncorrectable error, or a check code that does not match the expected ticket's slot. -/
def TornRead (t : Ticket) (j : ReadJob) : Prop := j.failed.isSome = true ∨ (slotTicket j.bytes = t ∧ goodSlot j.bytes = false)

theorem judgeSlot_torn {t : Ticket} {j : ReadJob} (h : TornRead t j) (s : State) :
    judgeSlot t j s = tornRead t j.failed.isSome s := by
  unfold judgeSlot
  obtain failed | ⟨ticket, bad⟩ := h
  · rw [if_pos failed, failed]
  · cases failed : j.failed.isSome with
    | true => rfl
    | false => rw [if_neg nofun, if_neg (not_not.2 ticket), bad, if_neg nofun]

theorem judgeSlot_other {t : Ticket} {j : ReadJob} (h : ¬ TornRead t j) (other : slotTicket j.bytes ≠ t) (s : State) :
    judgeSlot t j s = restWith 0 0 s := by
  unfold judgeSlot
  rw [if_neg fun failed => h (.inl failed), if_pos other]

theorem judgeSlot_taken {t : Ticket} {j : ReadJob} (h : ¬ TornRead t j) (ticket : slotTicket j.bytes = t) (s : State) :
    judgeSlot t j s = takeDirective t j.bytes s := by
  have good : goodSlot j.bytes = true := Bool.eq_true_of_not_eq_false fun bad => h (.inr ⟨ticket, bad⟩)
  unfold judgeSlot
  rw [if_neg fun failed => h (.inl failed), if_neg (not_not.2 ticket), if_pos good]

theorem tornRead_early {s : State} (h : s.du.torn < 7) (t : Ticket) (memory : Bool) :
    tornRead t memory s = restWith (s.du.torn + 1) (s.du.tornMemory + memory.toNat) (raiseIf memory .memoryError s) :=
  if_pos (show s.du.torn + 1 < 8 by omega)

theorem tornRead_late {s : State} (h : 7 ≤ s.du.torn) (t : Ticket) (memory : Bool) :
    tornRead t memory s = refuseTorn t (s.du.tornMemory + memory.toNat) (raiseIf memory .memoryError s) :=
  if_neg (show ¬ s.du.torn + 1 < 8 by omega)

theorem tornRead_kept (t : Ticket) (memory : Bool) (s : State) :
    OnlyChanges [.du, .duQueue] (raiseIf memory .memoryError s) (tornRead t memory s) := by
  by_cases early : s.du.torn < 7
  · rw [tornRead_early early]
    exact (restWith_only ..).among rfl
  · rw [tornRead_late (Nat.not_lt.1 early)]
    exact refuseTorn_only ..

theorem judgeSlot_attention (t : Ticket) (j : ReadJob) (s : State) :
    (j.failed.isSome = true → attentionHas .memoryError (judgeSlot t j s) = true)
      ∧ (j.failed.isSome = false → (judgeSlot t j s).page.attention = s.page.attention) := by
  refine ⟨fun failed => ?_, fun whole => ?_⟩
  · rw [judgeSlot_torn (.inl failed), failed, attentionHas_of_only (tornRead_kept t true s) (by decide), attentionHas_raiseIf]
    simp
  · by_cases torn : TornRead t j
    · rw [judgeSlot_torn torn, whole]
      exact (tornRead_kept t false s).same .attention (by decide)
    · by_cases ticket : slotTicket j.bytes = t
      · rw [judgeSlot_taken torn ticket]
        exact (takeDirective_only ..).same .attention (by decide)
      · rw [judgeSlot_other torn ticket]
        exact (restWith_only ..).same .attention (by decide)

theorem takeDirective_refused {s : State} {t : Ticket} {bs : List Byte} :
    (field bs 4 2 < 1 ∨ 17 < field bs 4 2 → takeDirective t bs s
        = readExpected (finalOutcome t 3 (BitVec.ofNat 32 (field bs 4 2)) (takeTicket t s)))
      ∧ (1 ≤ field bs 4 2 → field bs 4 2 ≤ 17 → 108 < field bs 6 2 →
          takeDirective t bs s = readExpected (finalOutcome t 4 0 (takeTicket t s))) := by
  unfold takeDirective
  refine ⟨fun unknown => if_pos (by simpa using unknown), fun low high long => ?_⟩
  exact (if_neg (by simp; omega)).trans (if_pos long)

theorem takeDirective_taken {s : State} {t : Ticket} {bs : List Byte} (low : 1 ≤ field bs 4 2) (high : field bs 4 2 ≤ 17)
    (short : field bs 6 2 ≤ 108) :
    (takeDirective t bs s).arb.du = s.arb.du ∧ (takeDirective t bs s).du = { s.du.take t with
      activity := .executing, job := none
      hand := some { ticket := t, kind := field bs 4 2, length := field bs 6 2, params := (bs.drop 16).take 108, phase := .taken } } := by
  have taken : takeDirective t bs s = { takeTicket t s with du := { (takeTicket t s).du with
      activity := .executing, job := none
      hand := some
        { ticket := t, kind := field bs 4 2, length := field bs 6 2, params := (bs.drop 16).take Config.parameterLimit, phase := .taken } } } :=
    (if_neg (by simp; omega)).trans (if_neg (show ¬ 108 < field bs 6 2 by omega))
  rw [taken, ← takeTicket_du]
  exact ⟨rfl, rfl⟩

/-- Settles O46: the scan by `readExpected_eq`, the slot by the branches of `judgeSlot`. -/
theorem scanAndSlots : Obligations.ScanAndSlots := by
  refine ⟨fun s a e timer anchor => ?_, ?_⟩
  · have row : exec .scanTimerExpiry s = if Time.reached s.time e then
        finish s (if s.du.activity = .resting
          then readExpected { s with du := { s.du with scanTimer := some (e + BitVec.ofNat 64 a.interval) } }
          else { s with du := { s.du with scanTimer := some (e + BitVec.ofNat 64 a.interval) } })
        else .next s := by
      change execScanTimerExpiry s = _
      unfold execScanTimerExpiry
      rw [timer, anchor]
      rfl
    have armed := with_du_only { s.du with scanTimer := some (e + BitVec.ofNat 64 a.interval) } s
    refine ⟨fun early => ?_, fun late => ⟨_, row.trans (if_pos late), ?_, fun busy => ?_, fun k resting expected => ?_⟩⟩
    · rw [row, early]
      rfl
    · refine OnlyChanges.settle (ps := [.du, .duQueue]) s ?_
      split
      · exact (armed.andThen (readExpected_only _)).among rfl
      · exact armed.among rfl
    · rw [settle_arb_du, settle_du, if_neg busy]
      exact ⟨rfl, rfl⟩
    · rw [settle_arb_du, settle_du, if_pos resting,
        readExpected_eq (s := { s with du := { s.du with scanTimer := some (e + BitVec.ofNat 64 a.interval) } }) (a := a) (t := k)
          anchor expected]
      exact ⟨rfl, rfl⟩
  · intro s a t j anchor expected none' job purpose left ticket kind length code torn errors took refused
    have next : exec .slotReadReturn s = .next (settle s (judgeSlot t j s)) := by
      have returned : duReturned .slot s = some j := by
        unfold duReturned
        rw [job]
        exact if_pos (by simp [purpose, ReadJob.complete, left])
      change execSlotReadReturn s = _
      unfold execSlotReadReturn
      rw [expected, none', returned]
      rfl
    have torn_iff : torn ↔ TornRead t j := by
      refine or_congr_right (and_congr_right fun _ => ?_)
      unfold goodSlot
      rw [beq_eq_false_iff_ne]
      rfl
    have ends : ∀ (v : State) (code : Nat) (detail : BitVec 32), v.run.anchor = some a → v.du = s.du → v.arb.du = s.arb.du →
        refused code detail (settle s (readExpected (finalOutcome t code detail (takeTicket t v)))) := by
      intro v code detail anchor' du queue
      obtain ⟨du', queue'⟩ := endTaken anchor' t code detail
      rw [du] at du'
      rw [queue] at queue'
      exact ⟨(settle_du ..).trans du', (settle_arb_du ..).trans queue'⟩
    obtain ⟨raised, same⟩ := judgeSlot_attention t j s
    have flagged := raiseIf_only j.failed.isSome .memoryError s
    have du' : (raiseIf j.failed.isSome .memoryError s).du = s.du := flagged.same .du (by decide)
    have queue' : (raiseIf j.failed.isSome .memoryError s).arb.du = s.arb.du := flagged.same .duQueue (by decide)
    have run' : (raiseIf j.failed.isSome .memoryError s).run = s.run := flagged.same .run (by decide)
    refine ⟨_, next, (judgeSlot_only t j s).settle s, ?_, ?_, fun yes early => ?_, fun yes late => ?_, fun no other => ?_,
      fun no own unknown => ?_, fun no own low high long => ?_, fun no own low high short => ?_⟩
    · rw [attentionHas_settle]
      exact raised
    · rw [settle_page_attention]
      exact same
    · rw [judgeSlot_torn (torn_iff.1 yes), tornRead_early early, settle_arb_du, settle_du]
      refine ⟨queue', ?_⟩
      unfold restWith
      dsimp only
      rw [du']
    · rw [judgeSlot_torn (torn_iff.1 yes), tornRead_late late]
      exact ends _ _ _ (by rw [run', anchor]) du' queue'
    · rw [judgeSlot_other (fun h => no (torn_iff.2 h)) other, settle_arb_du, settle_du]
      exact ⟨rfl, rfl⟩
    · rw [judgeSlot_taken (fun h => no (torn_iff.2 h)) own, takeDirective_refused.1 unknown]
      exact ends s _ _ anchor rfl rfl
    · rw [judgeSlot_taken (fun h => no (torn_iff.2 h)) own, takeDirective_refused.2 low high long]
      exact ends s _ _ anchor rfl rfl
    · rw [judgeSlot_taken (fun h => no (torn_iff.2 h)) own, settle_arb_du, settle_du]
      exact takeDirective_taken low high short

/-! ### The directive in hand, carried out by its owner (R153) -/

section
variable {s : State} {a : Anchor} {next : Ticket} {h : Hand}

theorem exec_adoptEdition (k : InHand s a next h 1) : exec .adoptEdition s = .next (settle s (adoptEdition h s)) := by
  change execAdoptEdition s = _
  unfold execAdoptEdition
  rw [takenHand_eq k]
  rfl

theorem exec_amendGroups (k : InHand s a next h 2) : exec .amendGroups s = .next (settle s (amendGroups h s)) := by
  change execAmendGroups s = _
  unfold execAmendGroups
  rw [takenHand_eq k]
  rfl

theorem exec_retireRange (k : InHand s a next h 4) : exec .retireRange s = .next (settle s (retireRange h s)) := by
  change execRetireRange s = _
  unfold execRetireRange
  rw [takenHand_eq k]
  rfl

theorem exec_enableStreams (k : InHand s a next h 6) : exec .enableStreams s = .next (settle s (enableStreams h s)) := by
  change execEnableStreams s = _
  unfold execEnableStreams
  rw [takenHand_eq k]
  rfl

theorem exec_disableStreams (k : InHand s a next h 7) : exec .disableStreams s = .next (settle s (disableStreams h s)) := by
  change execDisableStreams s = _
  unfold execDisableStreams
  rw [takenHand_eq k]
  rfl

theorem exec_setPace (k : InHand s a next h 8) : exec .setPace s = .next (settle s (setPace h s)) := by
  change execSetPace s = _
  unfold execSetPace
  rw [takenHand_eq k]
  rfl

theorem exec_loadSafeShape (k : InHand s a next h 9) : exec .loadSafeShape s = .next (settle s (loadSafeShape h s)) := by
  change execLoadSafeShape s = _
  unfold execLoadSafeShape
  rw [takenHand_eq k]
  rfl

theorem exec_resumeOutput (k : InHand s a next h 10) : exec .resumeOutput s = .next (settle s (resumeOutput h s)) := by
  change execResumeOutput s = _
  unfold execResumeOutput
  rw [takenHand_eq k]
  rfl

theorem exec_setProbeCycle (k : InHand s a next h 12) : exec .setProbeCycle s = .next (settle s (setProbeCycle h s)) := by
  change execSetProbeCycle s = _
  unfold execSetProbeCycle
  rw [takenHand_eq k]
  rfl

theorem exec_clearStreamErrors (k : InHand s a next h 15) : exec .clearStreamErrors s = .next (settle s (clearStreamErrors h s)) := by
  change execClearStreamErrors s = _
  unfold execClearStreamErrors
  rw [takenHand_eq k]
  rfl

theorem exec_drain (k : InHand s a next h 16) : exec .drain s = .next (settle s (drain h s)) := by
  change execDrain s = _
  unfold execDrain
  rw [takenHand_eq k]
  rfl

theorem exec_setTelemetry (k : InHand s a next h 17) : exec .setTelemetry s = .next (settle s (setTelemetry h s)) := by
  change execSetTelemetry s = _
  unfold execSetTelemetry
  rw [takenHand_eq k]
  rfl

theorem exec_holdOutput (k : InHand s a next h 11) : exec .holdOutput s = .next (settle s (noteQuiet s (holdOutput h s))) := by
  change execHoldOutput s = _
  unfold execHoldOutput
  rw [takenHand_eq k]
  rfl

theorem exec_repointTileSet (k : InHand s a next h 3) (form : field h.params 4 1 ≠ 2) : exec .repointTileSet s = .next (settle s (repointTileSet h s)) := by
  have removes : h.removes = false := by
    simpa [Hand.removes] using form
  change execRepointTileSet s = _
  unfold execRepointTileSet
  rw [takenHand_eq k]
  dsimp only
  rw [removes]
  rfl

theorem exec_repointTileRemove (k : InHand s a next h 3) (form : field h.params 4 1 = 2) : exec .repointTileRemove s = .next (settle s (repointTileRemove h s)) := by
  have removes : h.removes = true := by
    simpa [Hand.removes] using form
  change execRepointTileRemove s = _
  unfold execRepointTileRemove
  rw [takenHand_eq k]
  dsimp only
  rw [removes]
  rfl

theorem exec_setStream (k : InHand s a next h 5) (form : field h.params 0 1 ≠ 255) : exec .setStream s = .next (settle s (setStreamForm h s)) := by
  change execSetStream s = _
  unfold execSetStream
  rw [takenHand_eq k]
  exact if_neg form

theorem exec_setAsideFlag (k : InHand s a next h 5) (form : field h.params 0 1 = 255) : exec .setAsideFlag s = .next (settle s (setAsideFlag h s)) := by
  change execSetAsideFlag s = _
  unfold execSetAsideFlag
  rw [takenHand_eq k]
  exact if_pos form

theorem exec_injectProbe (k : InHand s a next h 13) (form : field h.params 8 2 ≠ 0) : exec .injectProbe s = .next (settle s (injectProbe h s)) := by
  change execInjectProbe s = _
  unfold execInjectProbe
  rw [takenHand_eq k]
  exact if_neg form

theorem exec_injectProbeCancel (k : InHand s a next h 13) (form : field h.params 8 2 = 0) : exec .injectProbeCancel s = .next (settle s (injectProbeCancel h s)) := by
  change execInjectProbeCancel s = _
  unfold execInjectProbeCancel
  rw [takenHand_eq k]
  exact if_pos form

theorem exec_resetIntegratorZero (k : InHand s a next h 14) (form : field h.params 0 1 = 0) : exec .resetIntegratorZero s = .next (settle s (resetIntegratorZero h s)) := by
  change execResetIntegratorZero s = _
  unfold execResetIntegratorZero
  rw [takenHand_eq k]
  exact if_pos form

theorem exec_resetIntegratorVector (k : InHand s a next h 14) (form : field h.params 0 1 ≠ 0) : exec .resetIntegratorVector s = .next (settle s (resetIntegratorVector h s)) := by
  change execResetIntegratorVector s = _
  unfold execResetIntegratorVector
  rw [takenHand_eq k]
  exact if_neg form

/-- A refusal ends the directive in hand, and changes nothing else. -/
theorem refused_ended {kind : Nat} (k : InHand s a next h kind) (code : Nat) (detail : BitVec 32) :
    Touches [.du, .duQueue] s (settle s (endHand code detail s)) ∧ Ended a next h code detail s (settle s (endHand code detail s)) :=
  ⟨(endHand_only ..).settle s, ended_of_endHand k.anchor k.expected k.hand rfl rfl rfl code detail⟩

end

theorem noteQuiet_same {s u : State} (h : u.cou = s.cou) : noteQuiet s u = u := by
  unfold noteQuiet
  rw [linksQuiet_congr h]
  exact if_neg (by simp)

/-- Settles O47: every owner looks at the fields first. -/
theorem malformedDirectives : Obligations.MalformedDirectives := by
  intro s a next h cmd kind length reserved count row k malformed tile aside inject reset
  have bad : h.fits length reserved count = false := Bool.eq_false_iff.2 fun fits => malformed ((fits_iff ..).1 fits)
  have refused : exec cmd s = .next (settle s (refuseField s)) := by
    simp only [List.mem_cons, Prod.mk.injEq, List.not_mem_nil, or_false] at row
    obtain ⟨rfl, rfl, rfl, rfl, rfl⟩ | ⟨rfl, rfl, rfl, rfl, rfl⟩ | ⟨rfl, rfl, rfl, rfl, rfl⟩ | ⟨rfl, rfl, rfl, rfl, rfl⟩
      | ⟨rfl, rfl, rfl, rfl, rfl⟩ | ⟨rfl, rfl, rfl, rfl, rfl⟩ | ⟨rfl, rfl, rfl, rfl, rfl⟩ | ⟨rfl, rfl, rfl, rfl, rfl⟩
      | ⟨rfl, rfl, rfl, rfl, rfl⟩ | ⟨rfl, rfl, rfl, rfl, rfl⟩ | ⟨rfl, rfl, rfl, rfl, rfl⟩ | ⟨rfl, rfl, rfl, rfl, rfl⟩
      | ⟨rfl, rfl, rfl, rfl, rfl⟩ | ⟨rfl, rfl, rfl, rfl, rfl⟩ | ⟨rfl, rfl, rfl, rfl, rfl⟩ | ⟨rfl, rfl, rfl, rfl, rfl⟩
      | ⟨rfl, rfl, rfl, rfl, rfl⟩ | ⟨rfl, rfl, rfl, rfl, rfl⟩ | ⟨rfl, rfl, rfl, rfl, rfl⟩ | ⟨rfl, rfl, rfl, rfl, rfl⟩
      | ⟨rfl, rfl, rfl, rfl, rfl⟩ := row
    · have malformed' : adoptEdition h s = refuseField s := by
        unfold adoptEdition
        rw [bad]
        rfl
      rw [exec_adoptEdition k, malformed']
    · have malformed' : amendGroups h s = refuseField s := by
        unfold amendGroups
        rw [bad]
        rfl
      rw [exec_amendGroups k, malformed']
    · have malformed' : repointTileSet h s = refuseField s := by
        unfold repointTileSet
        rw [bad]
        rfl
      rw [exec_repointTileSet k (fun other => nomatch (tile rfl).2 other), malformed']
    · have malformed' : repointTileRemove h s = refuseField s := by
        unfold repointTileRemove
        rw [bad]
        rfl
      rw [exec_repointTileRemove k ((tile rfl).1 rfl), malformed']
    · have malformed' : retireRange h s = refuseField s := by
        unfold retireRange
        rw [bad]
        rfl
      rw [exec_retireRange k, malformed']
    · have malformed' : setStreamForm h s = refuseField s := by
        unfold setStreamForm
        rw [bad]
        rfl
      rw [exec_setStream k (fun other => nomatch (aside rfl).2 other), malformed']
    · have malformed' : setAsideFlag h s = refuseField s := by
        unfold setAsideFlag
        rw [bad]
        rfl
      rw [exec_setAsideFlag k ((aside rfl).1 rfl), malformed']
    · have malformed' : enableStreams h s = refuseField s := by
        unfold enableStreams
        rw [bad]
        rfl
      rw [exec_enableStreams k, malformed']
    · have malformed' : disableStreams h s = refuseField s := by
        unfold disableStreams
        rw [bad]
        rfl
      rw [exec_disableStreams k, malformed']
    · have malformed' : setPace h s = refuseField s := by
        unfold setPace
        rw [bad]
        rfl
      rw [exec_setPace k, malformed']
    · have malformed' : loadSafeShape h s = refuseField s := by
        unfold loadSafeShape
        rw [bad]
        rfl
      rw [exec_loadSafeShape k, malformed']
    · have malformed' : resumeOutput h s = refuseField s := by
        unfold resumeOutput
        rw [bad]
        rfl
      rw [exec_resumeOutput k, malformed']
    · have malformed' : holdOutput h s = refuseField s := by
        unfold holdOutput
        rw [bad]
        rfl
      rw [exec_holdOutput k, malformed', noteQuiet_same (u := refuseField s) ((endHand_only 4 0 s).same .cou (by decide))]
    · have malformed' : setProbeCycle h s = refuseField s := by
        unfold setProbeCycle
        rw [bad]
        rfl
      rw [exec_setProbeCycle k, malformed']
    · have malformed' : injectProbe h s = refuseField s := by
        unfold injectProbe
        rw [bad]
        rfl
      rw [exec_injectProbe k (fun other => nomatch (inject rfl).2 other), malformed']
    · have malformed' : injectProbeCancel h s = refuseField s := by
        unfold injectProbeCancel
        rw [bad]
        rfl
      rw [exec_injectProbeCancel k ((inject rfl).1 rfl), malformed']
    · have malformed' : resetIntegratorZero h s = refuseField s := by
        unfold resetIntegratorZero
        rw [bad]
        rfl
      rw [exec_resetIntegratorZero k ((reset rfl).1 rfl), malformed']
    · have malformed' : resetIntegratorVector h s = refuseField s := by
        unfold resetIntegratorVector
        rw [bad]
        rfl
      rw [exec_resetIntegratorVector k (fun other => nomatch (reset rfl).2 other), malformed']
    · have malformed' : clearStreamErrors h s = refuseField s := by
        unfold clearStreamErrors
        rw [bad]
        rfl
      rw [exec_clearStreamErrors k, malformed']
    · have malformed' : drain h s = refuseField s := by
        unfold drain
        rw [bad]
        rfl
      rw [exec_drain k, malformed']
    · have malformed' : setTelemetry h s = refuseField s := by
        unfold setTelemetry
        rw [bad]
        rfl
      rw [exec_setTelemetry k, malformed']
  obtain ⟨touches, ended⟩ := refused_ended k 4 0
  exact ⟨_, refused, touches, ended⟩

end Sys2Proof.Machine

/-!
The stream directives and SET_PACE (R18 to R21, R32, R38, R39), carried out by their owners.
-/
namespace Sys2Proof.Machine

/-! ### The end of a directive that has had an effect -/

section
variable {s u : State} {a : Anchor} {next : Ticket} {h : Hand} {kind : Nat} {ps : List Part}

/-- The directive ends behind an effect that leaves the run state, the unit and its queue. -/
theorem ended_by (k : InHand s a next h kind) (only : OnlyChanges ps s u) (apart : ∀ p ∈ [Part.run, .du, .duQueue], p ∉ ps) (code : Nat)
    (detail : BitVec 32) : Ended a next h code detail s (settle s (endHand code detail u)) :=
  have run : u.run = s.run := only.same .run (apart _ (by decide))
  have du : u.du = s.du := only.same .du (apart _ (by decide))
  have queue : u.arb.du = s.arb.du := only.same .duQueue (apart _ (by decide))
  ended_of_endHand k.anchor k.expected k.hand run du queue code detail

theorem endHand_sau (code : Nat) (detail : BitVec 32) (b u : State) : (settle b (endHand code detail u)).sau = u.sau :=
  (settle_sau ..).trans ((endHand_only ..).same .sau (by decide))

end

/-! ### SET_STREAM (R18, R19) -/

theorem overlaps_iff (a la b lb : Nat) :
    overlaps a la b lb = true ↔ ∃ p, (a ≤ p ∧ p < a + la) ∧ b ≤ p ∧ p < b + lb := by
  simp only [overlaps, Bool.and_eq_true, decide_eq_true_eq]
  constructor
  · rintro ⟨⟨⟨hla, hlb⟩, hab⟩, hba⟩
    exact ⟨max a b, by omega, by omega⟩
  · rintro ⟨p, hp, hq⟩
    omega

theorem clashes_iff (c d : StreamConfig) : c.clashes d = true ↔ Clashes c d := by
  simp only [StreamConfig.clashes, Clashes, Bool.or_eq_true, overlaps_iff, beq_iff_eq]

theorem clashesEnabled_iff (i : Fin 16) (c : StreamConfig) (s : State) : clashesEnabled i c s = true
    ↔ ∃ j : Fin 16, j.val ≠ i.val ∧ s.sau.streams[j].enabled = true ∧ Clashes c s.sau.streams[j].config := by
  simp only [clashesEnabled, List.any_eq_true, Bool.and_eq_true, bne_iff_ne, clashes_iff, ne_eq, Fin.ext_iff, and_assoc]
  exact ⟨fun ⟨j, _, h⟩ => ⟨j, h⟩, fun ⟨j, h⟩ => ⟨j, mem_allFin j, h⟩⟩

theorem streamInRange_iff (h : Hand) : streamInRange h = false ↔
    let c := parseStream h
    c.tag < 1 ∨ 4095 < c.tag ∨ 7 < c.link ∨ 16383 < c.base ∨ c.count < 1 ∨ 16384 < c.count ∨ c.segments < 1
      ∨ 64 < c.segments ∨ 1 < field h.params 9 1 ∨ 1 < field h.params 10 1 ∨ 16384 < c.allowance ∨ c.cutTimeout < 1
      ∨ 16384 < c.base + c.count := by
  rw [← Bool.not_eq_true]
  have within : decide ((parseStream h).base + (parseStream h).count ≤ Config.slopePositions) = true
      ↔ (parseStream h).base + (parseStream h).count ≤ 16384 := decide_eq_true_iff
  simp only [streamInRange, Bool.and_eq_true, within, decide_eq_true_eq, not_and_or, Nat.not_le, or_assoc]

theorem isRunning_iff (s : State) : isRunning s = true ↔ s.run.state = .running := by
  simp [isRunning]

theorem setStreamForm_over {h : Hand} {s : State} (fits : h.fits 20 14 6 = true) (over' : 15 < field h.params 0 1) :
    setStreamForm h s = refuseRange s := by
  unfold setStreamForm
  rw [fits, if_neg (by decide), dif_neg (show ¬ h.stream < 16 from Nat.not_lt.2 over')]

theorem setStreamForm_of {h : Hand} {s : State} (fits : h.fits 20 14 6 = true) {i : Fin 16} (stream : field h.params 0 1 = i.val) :
    setStreamForm h s = setStream i h s := by
  have number : h.stream = i.val := stream
  unfold setStreamForm
  rw [fits, if_neg (by decide), dif_pos (show h.stream < 16 by omega)]
  exact congrArg (fun j => setStream j h s) (Fin.ext number)

theorem setStream_busy {i : Fin 16} {h : Hand} {s : State} (busy : s.run.state = .running ∧ s.sau.streams[i].enabled = true) :
    setStream i h s = refuseState s :=
  if_pos (by rw [(isRunning_iff s).2 busy.1, busy.2]; rfl)

theorem setStream_refused {i : Fin 16} {h : Hand} {s : State} (free : ¬ (s.run.state = .running ∧ s.sau.streams[i].enabled = true))
    (bad : streamInRange h = false ∨ clashesEnabled i (parseStream h) s = true) : setStream i h s = refuseRange s :=
  (if_neg (by simpa [isRunning_iff] using free)).trans (if_pos (by simpa using bad))

theorem setStream_done {i : Fin 16} {h : Hand} {s : State} (free : ¬ (s.run.state = .running ∧ s.sau.streams[i].enabled = true))
    (good : ¬ (streamInRange h = false ∨ clashesEnabled i (parseStream h) s = true)) :
    setStream i h s = done 0 (mapStream i (fun x => { x with config := parseStream h }) s) :=
  (if_neg (by simpa [isRunning_iff] using free)).trans (if_neg (by simpa using good))

theorem setStream_ends {s : State} {a : Anchor} {next : Ticket} {h : Hand} (k : InHand s a next h 5) (fits : h.fits 20 14 6 = true)
    (i : Fin 16) (stream : field h.params 0 1 = i.val) :
    ((s.run.state = .running ∧ s.sau.streams[i].enabled = true) →
        (settle s (setStreamForm h s)).sau = s.sau ∧ Ended a next h 6 0 s (settle s (setStreamForm h s)))
      ∧ (¬ (s.run.state = .running ∧ s.sau.streams[i].enabled = true) →
          streamInRange h = false ∨ clashesEnabled i (parseStream h) s = true →
          (settle s (setStreamForm h s)).sau = s.sau ∧ Ended a next h 5 0 s (settle s (setStreamForm h s)))
      ∧ (¬ (s.run.state = .running ∧ s.sau.streams[i].enabled = true) →
          ¬ (streamInRange h = false ∨ clashesEnabled i (parseStream h) s = true) →
          StreamIs i { s.sau.streams[i] with config := parseStream h } s (settle s (setStreamForm h s))
            ∧ Ended a next h 2 0 s (settle s (setStreamForm h s))) := by
  rw [setStreamForm_of fits stream]
  refine ⟨fun busy => ?_, fun free bad => ?_, fun free good => ?_⟩
  · rw [setStream_busy busy]
    exact ⟨endHand_sau .., (refused_ended k 6 0).2⟩
  · rw [setStream_refused free bad]
    exact ⟨endHand_sau .., (refused_ended k 5 0).2⟩
  · rw [setStream_done free good]
    exact ⟨(mapStream_is i (fun x => { x with config := parseStream h }) s).to (endHand_sau ..), ended_by k (mapStream_only ..) (by decide) 2 0⟩

/-! ### Sets of streams and of links -/

/-- An operation on one stream after another that looks at its own stream alone. -/
theorem foldl_streams {g : State → Fin 16 → State} {f : Fin 16 → Stream → Stream} {s : State}
    (each : ∀ xs i, g (withStreams xs s) i = withStreams (tweak xs i (f i)) s) (is : List (Fin 16)) :
    is.foldl g s = withStreams (is.foldl (fun v i => tweak v i (f i)) s.sau.streams) s := by
  have all : ∀ xs, is.foldl g (withStreams xs s) = withStreams (is.foldl (fun v i => tweak v i (f i)) xs) s := by
    induction is with
    | nil => exact fun _ => rfl
    | cons i is ih => exact fun xs => by rw [List.foldl_cons, List.foldl_cons, each, ih]
  exact all s.sau.streams

theorem mem_streamsIn (mask : Nat) (i : Fin 16) : i ∈ streamsIn mask ↔ mask.testBit i.val = true := by
  simp [streamsIn, mem_allFin, maskHas]

theorem streamsIn_nodup (mask : Nat) : (streamsIn mask).Nodup := (allFin_nodup 16).filter _

theorem foldl_streams_get {f : Fin 16 → Stream → Stream} (mask : Nat) (v : Vector Stream 16) (i : Fin 16) :
    ((streamsIn mask).foldl (fun v i => tweak v i (f i)) v)[i] = if mask.testBit i.val then f i v[i] else v[i] := by
  rw [foldl_tweak_get f _ (streamsIn_nodup mask)]
  exact if_congr (mem_streamsIn mask i) rfl rfl

/-! ### ENABLE_STREAMS (R20) -/

/-- A stream that ENABLE_STREAMS names. -/
def Stream.enables (s : State) (x : Stream) : Stream :=
  if x.enabled then x else { x with enabled := true }.enter s.time (enabledState s)

theorem enableStreams_fold (mask : Nat) (s : State) : (streamsIn mask).foldl enableStream s
    = withStreams ((streamsIn mask).foldl (fun v i => tweak v i (Stream.enables s)) s.sau.streams) s := by
  refine foldl_streams (f := fun _ => Stream.enables s) (fun xs i => ?_) _
  unfold enableStream
  by_cases enabled : xs[i].enabled = true
  · rw [tweak_self xs i (f := Stream.enables s) (if_pos enabled)]
    exact if_pos enabled
  · refine (if_neg enabled).trans ?_
    refine congrArg (fun v => withStreams v s) ((tweak_tweak ..).trans (tweak_congr ?_))
    exact (if_neg enabled).symm

theorem Stream.enables_off {s : State} {x : Stream} (off : x.enabled = false) :
    let entered : StreamState := if s.run.state = .running then .seeking else .standby
    x.enables s = { x with
      enabled := true, state := entered, misinserts := 0
      changed := if x.state = entered then x.changed else s.time
      stay := if x.state = entered then x.stay else x.stay + 1
      timer := if s.run.state = .running then some (s.time + BitVec.ofNat 64 (1000 * x.config.cutTimeout)) else none } := by
  unfold Stream.enables enabledState
  rw [off]
  by_cases running : s.run.state = .running
  · rw [(isRunning_iff s).2 running, if_pos running, if_pos running]
    rfl
  · rw [Bool.eq_false_iff.2 fun yes => running ((isRunning_iff s).1 yes), if_neg running, if_neg running]
    rfl

/-- Two streams of a set clash. -/
theorem anyClash_iff (set : List (Fin 16)) (s : State) : anyClash set s = true
    ↔ ∃ i j, i ≠ j ∧ i ∈ set ∧ j ∈ set ∧ Clashes s.sau.streams[i].config s.sau.streams[j].config := by
  simp only [anyClash, List.any_eq_true, Bool.and_eq_true, bne_iff_ne, clashes_iff]
  exact ⟨fun ⟨i, mi, j, mj, other, h⟩ => ⟨i, j, other, mi, mj, h⟩, fun ⟨i, j, other, mi, mj, h⟩ => ⟨i, mi, j, mj, other, h⟩⟩

/-! ### DISABLE_STREAMS (R21) -/

/-- A stream that DISABLE_STREAMS names. -/
def Stream.disables (now : Time) (x : Stream) : Stream := { x with enabled := false }.enter now .disabled

theorem disableStream_sau (s : State) (i : Fin 16) :
    (disableStream s i).sau = { s.sau with streams := tweak s.sau.streams i (Stream.disables s.time) } := by
  have time : (reportExit i (mapStream i (fun x => { x with enabled := false }) s)).time = s.time :=
    (reportExit_only i _).same .time (by decide)
  unfold disableStream leaveFor enterState
  rw [time, mapStream_sau, reportExit_streams, mapStream_sau, tweak_tweak]
  rfl

theorem disableStream_wires (s : State) (i : Fin 16) :
    (disableStream s i).wires = { s.wires with lockedExits := exitsAfter i s } := by
  have stream : (mapStream i (fun x => { x with enabled := false }) s).sau.streams[i] = { s.sau.streams[i] with enabled := false } :=
    (mapStream_is i (fun x => { x with enabled := false }) s).stream
  unfold disableStream
  rw [leaveFor_wires, exitsAfter, stream]
  rfl

/-- The streams that DISABLE_STREAMS takes out of LOCKED while RUNNING. -/
def lockedOf (s : State) (is : List (Fin 16)) : List (Fin 16) :=
  is.filter fun i => decide (s.sau.streams[i].state = .locked ∧ s.run.state = .running)

theorem disableStreams_fold (is : List (Fin 16)) (apart : is.Nodup) (s : State) :
    (is.foldl disableStream s).sau
        = { s.sau with streams := is.foldl (fun v i => tweak v i (Stream.disables s.time)) s.sau.streams }
      ∧ (is.foldl disableStream s).wires = { s.wires with lockedExits := s.wires.lockedExits ++ lockedOf s is } := by
  induction is generalizing s with
  | nil => exact ⟨rfl, by rw [lockedOf, List.filter_nil, List.append_nil]; rfl⟩
  | cons i is ih =>
    obtain ⟨fresh, apart⟩ := List.nodup_cons.1 apart
    obtain ⟨sau, wires⟩ := ih apart (disableStream s i)
    have only := disableStream_only s i
    have time : (disableStream s i).time = s.time := only.same .time (by decide)
    have run : (disableStream s i).run = s.run := only.same .run (by decide)
    have rest : lockedOf (disableStream s i) is = lockedOf s is := by
      refine List.filter_congr fun j mem => ?_
      have other : j ≠ i := fun same => fresh (same ▸ mem)
      rw [disableStream_sau, run]
      show decide ((tweak s.sau.streams i _)[j].state = .locked ∧ _) = _
      rw [tweak_get, if_neg other]
    rw [List.foldl_cons, List.foldl_cons]
    refine ⟨?_, ?_⟩
    · rw [sau, disableStream_sau, time]
    · rw [wires, disableStream_wires, rest]
      dsimp only
      unfold exitsAfter lockedOf
      rw [List.filter_cons]
      by_cases leaves : s.sau.streams[i].state = .locked ∧ s.run.state = .running
      · rw [if_pos leaves, if_pos (decide_eq_true leaves), List.append_assoc]
        rfl
      · rw [if_neg leaves, if_neg (by simpa using leaves)]

/-! ### CLEAR_STREAM_ERRORS (R15, R32, R36) -/

theorem clearCounters_eq (mask : Nat) (s : State) : clearCounters mask s
    = withStreams ((streamsIn mask).foldl (fun v i => tweak v i fun x => { x with counters := .replicate 11 0 }) s.sau.streams) s :=
  foldl_streams (fun _ _ => rfl) _

theorem clearLinks_ports (mask : Nat) (s : State) (l : Fin 8) :
    (clearLinks mask s).ports[l] = if mask.testBit l.val then s.ports[l].clear else s.ports[l] := by
  have all : ∀ (is : List (Fin 8)) (u : State), (is.foldl (fun s l => mapPort l Port.clear s) u).ports
      = is.foldl (fun v l => tweak v l Port.clear) u.ports := by
    intro is
    induction is with
    | nil => exact fun _ => rfl
    | cons l is ih => exact fun u => ih _
  unfold clearLinks
  rw [all, foldl_tweak_get (fun _ => Port.clear) _ ((allFin_nodup 8).filter _)]
  exact if_congr (by simp [mem_allFin, maskHas]) rfl rfl

theorem oweStreamReport_only (s : State) : OnlyChanges [.rpu] s (oweStreamReport s) := with_rpu_only _ s

/-- A rewrite of the Stream Report that is owed before the end of a step is owed after it, or begun in it. -/
theorem settle_streamOwed {s e : State} (owed : e.rpu.streamOwed = true) (count : e.rpu.streamCount = s.rpu.streamCount) (b : State) :
    StreamReportOwed s (settle b e) := by
  obtain ⟨page, status, stream, eq, _, rewrite⟩ := settle_eq b e
  rw [owed, Bool.true_or] at rewrite
  rw [eq, rewrite]
  unfold StreamReportOwed
  rw [← count]
  cases anchor : e.run.anchor with
  | none =>
    unfold kickWriter
    dsimp only
    rw [anchor]
    exact .inl rfl
  | some a =>
    obtain ⟨_, same⟩ | ⟨_, x, xs, _, same⟩ | ⟨_, _, _, same⟩ | ⟨_, _, no, _, _⟩ | ⟨_, _, no, _, _⟩ :=
      kickWriter_cases { e with page := page, rpu := { e.rpu with statusOwed := status, streamOwed := true } } a anchor
    · rw [same]
      exact .inl rfl
    · rw [same]
      left
      unfold takeTelemetry
      dsimp only
      split <;> rfl
    · rw [same]
      exact .inr ⟨rfl, rfl⟩
    · nomatch no
    · nomatch no

/-! ### SET_PACE (R38, R39) -/

theorem paceOutside_iff (h : Hand) : paceOutside h = true ↔ 15 < field h.params 0 1 ∨ field h.params 2 2 < 50 ∨ 20000 < field h.params 2 2
    ∨ field h.params 4 2 < 1 ∨ 1000 < field h.params 4 2 ∨ field h.params 6 2 < 10 ∨ 5000 < field h.params 6 2 := by
  simp [paceOutside, or_assoc]

theorem samePace_iff (h : Hand) (s : State) : samePace h s = false
    ↔ s.fck.stream.val ≠ field h.params 0 1 ∨ s.fck.period ≠ field h.params 2 2 ∨ s.fck.margin ≠ field h.params 4 2 := by
  rw [← Bool.not_eq_true]
  simp only [samePace, Bool.and_eq_true, beq_iff_eq]
  omega

/-! ### The stream directives and SET_PACE -/

section
variable {s : State} {a : Anchor} {next : Ticket} {h : Hand}

theorem setAsideFlag_refused (fits : h.fits 20 14 6 = true) :
    ((zeroField h.params 2 7 && zeroField h.params 10 4) = false → setAsideFlag h s = refuseField s)
      ∧ ((zeroField h.params 2 7 && zeroField h.params 10 4) = true → 7 < field h.params 1 1 ∨ 1 < field h.params 9 1 →
          setAsideFlag h s = refuseRange s) := by
  unfold setAsideFlag
  rw [fits]
  refine ⟨fun set => if_pos ?_, fun zero outside => (if_neg ?_).trans ?_⟩
  · rw [Bool.not_true, Bool.false_or, ← Bool.not_and, set]
    rfl
  · rw [Bool.and_eq_true] at zero
    rw [zero.1, zero.2]
    decide
  · split
    next link => exact if_pos (outside.resolve_left (by omega))
    next => rfl

theorem setAsideFlag_done (fits : h.fits 20 14 6 = true) (zero : (zeroField h.params 2 7 && zeroField h.params 10 4) = true) (l : Fin 8)
    (link : field h.params 1 1 = l.val) (flag : field h.params 9 1 ≤ 1) : setAsideFlag h s = done 0 { s with sau := { s.sau with
      asideFlags := s.sau.asideFlags.set l.val (decide (field h.params 9 1 = 1)) } } := by
  rw [Bool.and_eq_true] at zero
  unfold setAsideFlag
  rw [fits, zero.1, zero.2, if_neg (by decide), dif_pos (show field h.params 1 1 < 8 by omega), if_neg (Nat.not_lt.2 flag)]
  simp only [link]
  rfl

theorem zeroFlag_iff (bs : List Byte) : (zeroField bs 2 7 && zeroField bs 10 4) = true
    ↔ ∀ k, (2 ≤ k ∧ k < 9) ∨ (10 ≤ k ∧ k < 14) → bs.getD k 0 = 0 := by
  rw [Bool.and_eq_true, zeroField_iff, zeroField_iff]
  exact ⟨fun ⟨low, high⟩ k place => place.elim (fun p => low k p.1 p.2) fun p => high k p.1 p.2,
    fun all => ⟨fun k lo hi => all k (.inl ⟨lo, hi⟩), fun k lo hi => all k (.inr ⟨lo, hi⟩)⟩⟩

/-- SET_STREAM (R18, 12.3). -/
theorem setStream_step (k : InHand s a next h 5) (fits : h.fits 20 14 6 = true) (plain : field h.params 0 1 ≠ 255) :
    ∃ t, exec .setStream s = .next t ∧ Touches [.du, .duQueue, .sau] s t
      ∧ (15 < field h.params 0 1 → t.sau = s.sau ∧ Ended a next h 5 0 s t)
      ∧ ∀ i : Fin 16, field h.params 0 1 = i.val →
        ((s.run.state = .running ∧ s.sau.streams[i].enabled = true) → t.sau = s.sau ∧ Ended a next h 6 0 s t)
          ∧ (¬ (s.run.state = .running ∧ s.sau.streams[i].enabled = true) →
            streamInRange h = false ∨ clashesEnabled i (parseStream h) s = true → t.sau = s.sau ∧ Ended a next h 5 0 s t)
          ∧ (¬ (s.run.state = .running ∧ s.sau.streams[i].enabled = true) →
            ¬ (streamInRange h = false ∨ clashesEnabled i (parseStream h) s = true) →
            StreamIs i { s.sau.streams[i] with config := parseStream h } s t ∧ Ended a next h 2 0 s t) := by
  refine ⟨_, exec_setStream k plain, (setStreamForm_only h s).settle s, fun over' => ?_, fun i stream => setStream_ends k fits i stream⟩
  rw [setStreamForm_over fits over']
  exact ⟨endHand_sau .., (refused_ended k 5 0).2⟩

end

/-- Settles O48: each directive by its branches, a set of streams by `foldl_streams` and `disableStreams_fold`. -/
theorem streamDirectives : Obligations.StreamDirectives := by
  refine ⟨fun s a next h k fits plain => ?_, fun s a next h k fits form => ?_, fun s a next h k fits => ?_, fun s a next h k fits => ?_,
    fun s a next h k fits => ?_, fun s a next h k fits => ?_⟩
  · intro c outside clash
    have config : parseStream h = c := rfl
    obtain ⟨t, exec, touches, over', ends⟩ := setStream_step k ((fits_iff ..).2 fits) plain
    refine ⟨t, exec, touches, over', fun i stream => ?_⟩
    have bad : streamInRange h = false ∨ clashesEnabled i (parseStream h) s = true ↔ outside ∨ clash i.val :=
      or_congr (streamInRange_iff h) (clashesEnabled_iff ..)
    obtain ⟨busy, refused, done'⟩ := ends i stream
    exact ⟨busy, fun free h => refused free (bad.2 h),
      fun free inside apart => done' free fun h => (bad.1 h).elim inside apart⟩
  · intro zero
    have fits := (fits_iff ..).2 fits
    have zero_iff := zeroFlag_iff h.params
    obtain ⟨set, outside⟩ := setAsideFlag_refused (s := s) fits
    refine ⟨_, exec_setAsideFlag k form, (setAsideFlag_only h s).settle s, fun nonzero => ?_, fun zero bad => ?_,
      fun l zero link flag => ?_⟩
    · rw [set (Bool.eq_false_iff.2 fun z => nonzero (zero_iff.1 z))]
      exact ⟨endHand_sau .., (refused_ended k 4 0).2⟩
    · rw [outside (zero_iff.2 zero) bad]
      exact ⟨endHand_sau .., (refused_ended k 5 0).2⟩
    · rw [setAsideFlag_done fits (zero_iff.2 zero) l link flag]
      exact ⟨ended_by k (with_sau_only _ s) (by decide) 2 0, endHand_sau ..⟩
  · intro inMask after unset clash
    have fits := (fits_iff ..).2 fits
    have unset_iff : ((streamsIn (field h.params 0 2)).any fun i => s.sau.streams[i].config.count == 0) = true ↔ unset := by
      simp only [List.any_eq_true, beq_iff_eq, mem_streamsIn]
      exact Iff.rfl
    have clash_iff : anyClash ((allFin 16).filter fun i => s.sau.streams[i].enabled || (streamsIn (field h.params 0 2)).contains i) s = true
        ↔ clash := by
      simp only [anyClash_iff, List.mem_filter, mem_allFin, true_and, Bool.or_eq_true, List.contains_iff_mem, mem_streamsIn]
      exact Iff.rfl
    have judged : enableStreams h s = if (streamsIn (field h.params 0 2)).any fun i => s.sau.streams[i].config.count == 0 then refuseState s
        else if anyClash ((allFin 16).filter fun i => s.sau.streams[i].enabled || (streamsIn (field h.params 0 2)).contains i) s
          then refuseRange s
        else done 0 ((streamsIn (field h.params 0 2)).foldl enableStream s) := by
      unfold enableStreams
      rw [fits]
      rfl
    have only : OnlyChanges [.sau] s ((streamsIn (field h.params 0 2)).foldl enableStream s) :=
      OnlyChanges.foldl (fun s i => enableStream_only s i) _ s
    refine ⟨_, exec_enableStreams k, (enableStreams_only h s).settle s, fun yes => ?_, fun no yes => ?_, fun no no' => ?_⟩
    · rw [judged, if_pos (unset_iff.2 yes)]
      exact ⟨endHand_sau .., (refused_ended k 6 0).2⟩
    · rw [judged, if_neg (no ∘ unset_iff.1), if_pos (clash_iff.2 yes)]
      exact ⟨endHand_sau .., (refused_ended k 5 0).2⟩
    · rw [judged, if_neg (no ∘ unset_iff.1), if_neg (no' ∘ clash_iff.1)]
      have sau : (settle s (done 0 ((streamsIn (field h.params 0 2)).foldl enableStream s))).sau
          = { s.sau with streams := (streamsIn (field h.params 0 2)).foldl (fun v i => tweak v i (Stream.enables s)) s.sau.streams } := by
        rw [done, endHand_sau, enableStreams_fold]
        rfl
      refine ⟨ended_by k only (by decide) 2 0, by rw [sau], fun i => ?_⟩
      rw [sau]
      intro x y entered
      have y_eq : y = if (field h.params 0 2).testBit i.val then x.enables s else x :=
        foldl_streams_get (f := fun _ => Stream.enables s) (field h.params 0 2) s.sau.streams i
      refine ⟨fun stays => ?_, fun named off => ?_⟩
      · rw [y_eq]
        split
        next named => exact if_pos (stays.resolve_left (not_not.2 named))
        next => rfl
      · rw [y_eq, if_pos named]
        exact Stream.enables_off off
  · intro inMask exits
    have fits := (fits_iff ..).2 fits
    have only : OnlyChanges [.sau, .wires] s ((streamsIn (field h.params 0 2)).foldl disableStream s) :=
      OnlyChanges.foldl (fun s i => disableStream_only s i) _ s
    have judged : disableStreams h s = done 0 ((streamsIn (field h.params 0 2)).foldl disableStream s) := by
      unfold disableStreams
      rw [fits]
      rfl
    obtain ⟨sau, wires⟩ := disableStreams_fold (streamsIn (field h.params 0 2)) (streamsIn_nodup _) s
    have same : exits = lockedOf s (streamsIn (field h.params 0 2)) := by
      show (List.finRange 16).filter _ = ((List.finRange 16).filter _).filter _
      rw [List.filter_filter]
      refine List.filter_congr fun i _ => ?_
      show decide (inMask i ∧ _) = (decide _ && maskHas (field h.params 0 2) i.val)
      rw [Bool.and_comm, Bool.decide_and]
      congr 1
      exact Bool.decide_eq_true
    have step : (settle s (disableStreams h s)).sau
        = { s.sau with streams := (streamsIn (field h.params 0 2)).foldl (fun v i => tweak v i (Stream.disables s.time)) s.sau.streams } := by
      rw [judged, done, endHand_sau, sau]
    have each := foldl_streams_get (f := fun _ => Stream.disables s.time) (field h.params 0 2) s.sau.streams
    refine ⟨_, exec_disableStreams k, (disableStreams_only h s).settle s, ?_, ?_, fun i other => ?_, fun i named => ?_, ?_⟩
    · rw [judged]
      exact ended_by k only (by decide) 2 0
    · rw [step]
    · rw [step]
      exact (each i).trans (if_neg other)
    · rw [step]
      exact (each i).trans (if_pos named)
    · have messages : (done 0 ((streamsIn (field h.params 0 2)).foldl disableStream s)).wires
          = ((streamsIn (field h.params 0 2)).foldl disableStream s).wires := (endHand_only ..).same .wires (by decide)
      rw [settle_wires, judged, messages, wires, same]
  · have fits := (fits_iff ..).2 fits
    have judged : clearStreamErrors h s = done 0 (oweStreamReport (clearLinks (field h.params 2 1) (clearCounters (field h.params 0 2) s))) := by
      unfold clearStreamErrors
      rw [fits]
      rfl
    have counters := clearCounters_only (field h.params 0 2) s
    have links := clearLinks_only (field h.params 2 1) (clearCounters (field h.params 0 2) s)
    have ended := endHand_only 2 0 (oweStreamReport (clearLinks (field h.params 2 1) (clearCounters (field h.params 0 2) s)))
    have only := (counters.andThen links).andThen (oweStreamReport_only _)
    have rpu : (done 0 (oweStreamReport (clearLinks (field h.params 2 1) (clearCounters (field h.params 0 2) s)))).rpu
        = { s.rpu with streamOwed := true } :=
      have after : (clearLinks (field h.params 2 1) (clearCounters (field h.params 0 2) s)).rpu = s.rpu :=
        (counters.andThen links).same .rpu (by decide)
      have kept : (done 0 (oweStreamReport (clearLinks (field h.params 2 1) (clearCounters (field h.params 0 2) s)))).rpu
        = (oweStreamReport (clearLinks (field h.params 2 1) (clearCounters (field h.params 0 2) s))).rpu := ended.same .rpu (by decide)
      kept.trans (congrArg (fun r : Rpu => { r with streamOwed := true }) after)
    have sau : (clearLinks (field h.params 2 1) (clearCounters (field h.params 0 2) s)).sau = { s.sau with
        streams := (streamsIn (field h.params 0 2)).foldl (fun v i => tweak v i fun x => { x with counters := .replicate 11 0 }) s.sau.streams } :=
      have kept : (clearLinks (field h.params 2 1) (clearCounters (field h.params 0 2) s)).sau = (clearCounters (field h.params 0 2) s).sau :=
        links.same .sau (by decide)
      kept.trans (congrArg State.sau (clearCounters_eq ..))
    have ports : (clearCounters (field h.params 0 2) s).ports = s.ports := counters.same .ports (by decide)
    refine ⟨_, exec_clearStreamErrors k, ((clearStreamErrors_only h s).settle s).mono (by decide), ?_⟩
    rw [judged]
    refine ⟨ended_by k only (by decide) 2 0, settle_streamOwed ?_ ?_ s, ?_, fun i => ?_, fun l => ?_⟩
    · rw [rpu]
    · rw [rpu]
    · rw [done, endHand_sau]
      exact sau.trans (congrArg (fun v => { s.sau with streams := v }) (congrArg Sau.streams sau).symm)
    · rw [done, endHand_sau]
      exact (congrArg (fun x : Sau => x.streams[i]) sau).trans
        (foldl_streams_get (f := fun _ x => { x with counters := .replicate 11 0 }) (field h.params 0 2) s.sau.streams i)
    · have kept : (done 0 (oweStreamReport (clearLinks (field h.params 2 1) (clearCounters (field h.params 0 2) s)))).ports
          = (clearLinks (field h.params 2 1) (clearCounters (field h.params 0 2) s)).ports := ended.same .ports (by decide)
      rw [settle_ports, kept, clearLinks_ports, ports]
      rfl
  · intro period margin deadline outside differs
    have fits := (fits_iff ..).2 fits
    have reserved : zeroField h.params 1 1 = true ↔ h.params.getD 1 0 = 0 := by
      rw [zeroField_iff]
      exact ⟨fun all => all 1 (Nat.le_refl 1) (by decide), fun zero k low high => by rwa [show k = 1 by omega]⟩
    have differs_iff : (isRunning s && !samePace h s) = true ↔ differs := by
      rw [Bool.and_eq_true, isRunning_iff, Bool.not_eq_true', samePace_iff]
    have judged : setPace h s = if !zeroField h.params 1 1 then refuseField s else if paceOutside h then refuseRange s
        else if isRunning s && !samePace h s then refuseState s else done 0 (takePaceSettings h s) := by
      unfold setPace
      rw [fits]
      rfl
    have fck : ∀ code u, (settle s (endHand code 0 u)).fck = u.fck := fun code u =>
      (settle_fck ..).trans ((endHand_only code 0 u).same .fck (by decide))
    refine ⟨_, exec_setPace k, (setPace_only h s).settle s, fun set => ?_, fun zero bad => ?_, fun zero good moved => ?_,
      fun zero good same => ?_⟩
    · rw [judged, if_pos (by rw [Bool.eq_false_iff.2 (set ∘ reserved.1)]; rfl)]
      exact ⟨fck .., (refused_ended k 4 0).2⟩
    · rw [judged, reserved.2 zero, if_neg (by decide), if_pos ((paceOutside_iff h).2 bad)]
      exact ⟨fck .., (refused_ended k 5 0).2⟩
    · rw [judged, reserved.2 zero, if_neg (by decide), if_neg (good ∘ (paceOutside_iff h).1), if_pos (differs_iff.2 moved)]
      exact ⟨fck .., (refused_ended k 6 0).2⟩
    · rw [judged, reserved.2 zero, if_neg (by decide), if_neg (good ∘ (paceOutside_iff h).1), if_neg (same ∘ differs_iff.1)]
      exact ⟨ended_by k (with_fck_only _ s) (by decide) 2 0, fck ..⟩

end Sys2Proof.Machine

/-!
The output directives and SET_TELEMETRY (R138, R139, R168), and the directives that read a vector (R117, R126, R137).
-/
namespace Sys2Proof.Machine

/-! ### The output directives (R138, R139) -/

section
variable {s : State} {a : Anchor} {next : Ticket} {h : Hand} {code : Nat} {detail : BitVec 32}

/-- The end of the directive stands in a later state with the same unit and queue. -/
theorem Ended.to {t v : State} (ended : Ended a next h code detail s t) (du : v.du = t.du) (queue : v.arb.du = t.arb.du) :
    Ended a next h code detail s v := ⟨du.trans ended.du, queue.trans ended.queue⟩

theorem endHand_cou (code : Nat) (detail : BitVec 32) (b u : State) : (settle b (endHand code detail u)).cou = u.cou :=
  (settle_cou ..).trans ((endHand_only ..).same .cou (by decide))

theorem endHand_wires (code : Nat) (detail : BitVec 32) (b u : State) : (settle b (endHand code detail u)).wires = u.wires :=
  (settle_wires ..).trans ((endHand_only ..).same .wires (by decide))

theorem endHand_attention (code : Nat) (detail : BitVec 32) (b u : State) :
    (settle b (endHand code detail u)).page.attention = u.page.attention :=
  (settle_page_attention ..).trans ((endHand_only ..).same .attention (by decide))

theorem endHand_pru (code : Nat) (detail : BitVec 32) (b u : State) : (settle b (endHand code detail u)).pru = u.pru :=
  (settle_pru ..).trans ((endHand_only ..).same .pru (by decide))

theorem resumeOutput_eq (fits : h.fits 4 0 4 = true) : resumeOutput h s
    = if s.run.state ≠ .running ∨ s.cou.level = .asserted then refuseState s
      else done (BitVec.ofNat 32 s.cou.causes.byte) (resumeCou s) := by
  unfold resumeOutput
  rw [fits]
  refine (if_neg (by decide)).trans (if_congr ?_ rfl rfl)
  simp [← isRunning_iff]

/-- A hold with the output RUNNING, up to the end of the step. -/
theorem holdOutput_eq (fits : h.fits 4 0 4 = true) : holdOutput h s
    = if s.run.state = .running then done 0 (addCause .directive s) else refuseState s := by
  unfold holdOutput
  rw [fits]
  refine (if_neg (by decide)).trans ?_
  by_cases running : s.run.state = .running
  · rw [(isRunning_iff s).2 running, if_pos running]
    rfl
  · rw [Bool.eq_false_iff.2 (running ∘ (isRunning_iff s).1), if_neg running]
    rfl

end

/-! ### SET_TELEMETRY (R168) -/

/-- What the writer's next item leaves of the telemetry settings, and the rewrite of the Part Status Block that is owed. -/
structure SettingsKept (s e t : State) : Prop where
  decimation : t.rpu.decimation = e.rpu.decimation
  nextSnapshot : t.rpu.nextSnapshot = e.rpu.nextSnapshot
  counter : e.rpu.writer ≠ .idle ∨ e.rpu.holding = [] → t.rpu.decimationCounter = e.rpu.decimationCounter
  status : e.rpu.statusOwed = true → e.rpu.statusCount = s.rpu.statusCount → StatusOwed s t

theorem kickWriter_settings (s u : State) : SettingsKept s u (kickWriter u) := by
  cases anchor : u.run.anchor with
  | none =>
    have same : kickWriter u = u := by
      unfold kickWriter
      rw [anchor]
    rw [same]
    exact ⟨rfl, rfl, fun _ => rfl, fun owed _ => .inl owed⟩
  | some a =>
    obtain ⟨_, same⟩ | ⟨idle, x, xs, some', taken⟩ | ⟨_, _, _, taken⟩ | ⟨_, _, _, _, taken⟩ | ⟨_, _, _, _, same⟩ :=
      kickWriter_cases u a anchor
    · rw [same]
      exact ⟨rfl, rfl, fun _ => rfl, fun owed _ => .inl owed⟩
    · rw [taken]
      refine ⟨?_, ?_, fun none' => ?_, fun owed _ => .inl ?_⟩
      · unfold takeTelemetry
        dsimp only
        split <;> rfl
      · unfold takeTelemetry
        dsimp only
        split <;> rfl
      · rw [some'] at none'
        exact absurd idle (none'.resolve_right (List.cons_ne_nil _ _))
      · unfold takeTelemetry
        dsimp only
        split <;> exact owed
    · rw [taken]
      exact ⟨rfl, rfl, fun _ => rfl, fun owed _ => .inl owed⟩
    · rw [taken]
      exact ⟨rfl, rfl, fun _ => rfl, fun _ count => .inr ⟨rfl, congrArg risen count⟩⟩
    · rw [same]
      exact ⟨rfl, rfl, fun _ => rfl, fun owed _ => .inl owed⟩

theorem settle_settings (s b e : State) : SettingsKept s e (settle b e) := by
  obtain ⟨page, status, stream, eq, rewrite, _⟩ := settle_eq b e
  obtain ⟨decimation, nextSnapshot, counter, owes⟩ :=
    kickWriter_settings s { e with page := page, rpu := { e.rpu with statusOwed := status, streamOwed := stream } }
  rw [eq]
  refine ⟨decimation, nextSnapshot, counter, fun owed count => owes ?_ count⟩
  rw [rewrite, owed]
  rfl

/-- Settles O49: RESUME_OUTPUT and HOLD_OUTPUT by their branches, SET_TELEMETRY by `settle_settings`. -/
theorem outputDirectives : Obligations.OutputDirectives := by
  refine ⟨fun s a next h k fits => ?_, fun s a next h k fits => ?_, fun s a next h k fits => ?_⟩
  · intro refused
    have judged := resumeOutput_eq (s := s) ((fits_iff ..).2 fits)
    refine ⟨_, exec_resumeOutput k, (resumeOutput_only h s).settle s, fun yes => ?_, fun no => ?_⟩
    · rw [judged, if_pos yes]
      exact ⟨endHand_cou .., (refused_ended k 6 0).2⟩
    · rw [judged, if_neg no]
      exact ⟨ended_by k (resumeCou_only s) (by decide) 2 _, endHand_cou ..⟩
  · have judged := holdOutput_eq (s := s) ((fits_iff ..).2 fits)
    refine ⟨_, exec_holdOutput k, (couStep_touches (holdOutput_only h s)).mono (by decide), fun halted => ?_, fun running => ?_⟩
    · have same : noteQuiet s (refuseState s) = refuseState s := noteQuiet_same ((endHand_only 6 0 s).same .cou (by decide))
      rw [judged, if_neg halted, same]
      exact ⟨endHand_cou .., endHand_attention .., (refused_ended k 6 0).2⟩
    · rw [judged, if_pos running]
      have joined := addCause_joined .directive s
      have only := addCause_only .directive s
      have kept := endHand_only 2 0 (addCause .directive s)
      have ended := ended_by k only (by decide) 2 0
      obtain ⟨cou, attention, _, wires⟩ := couStep s (done 0 (addCause .directive s))
      have cou₀ : (done 0 (addCause .directive s)).cou = (addCause .directive s).cou := kept.same .cou (by decide)
      have attention₀ : (done 0 (addCause .directive s)).page.attention = (addCause .directive s).page.attention :=
        kept.same .attention (by decide)
      have wires₀ : (done 0 (addCause .directive s)).wires = s.wires := (only.andThen kept).same .wires (by decide)
      have du : (settle s (noteQuiet s (done 0 (addCause .directive s)))).du = (settle s (done 0 (addCause .directive s))).du := by
        rw [settle_du, settle_du, noteQuiet_eq]
      have queue : (settle s (noteQuiet s (done 0 (addCause .directive s)))).arb.du = (settle s (done 0 (addCause .directive s))).arb.du := by
        rw [settle_arb_du, settle_arb_du, noteQuiet_eq]
      rw [cou₀] at cou
      rw [attention₀] at attention
      rw [wires₀] at wires
      have ended' := ended.to du queue
      generalize settle s (noteQuiet s (done 0 (addCause .directive s))) = t at *
      have flags : ∀ c, attentionHas c t = attentionHas c (addCause .directive s) := fun c => by
        unfold attentionHas
        rw [attention]
      refine ⟨ended', ?_, fun c other => ?_, wires rfl, fun quiet => ?_, fun active => ?_⟩
      · refine joined.of ⟨rfl, rfl, rfl⟩ ⟨by rw [cou], by rw [cou], flags _⟩ fun l none' => ?_
        rw [cou]
        exact none'
      · rw [flags, attentionHas_addCause]
        simp [other]
      · rw [cou]
        unfold addCause
        rw [quiet]
      · rw [cou, addCause_cou .directive s active]
  · have judged : setTelemetry h s = done (s.rpu.decimation.setWidth 32) { s with rpu := { s.rpu with
        decimation := BitVec.ofNat 16 (field h.params 0 2), decimationCounter := 0, statusOwed := true } } := by
      unfold setTelemetry
      rw [(fits_iff ..).2 fits]
      rfl
    have set := with_rpu_only { s.rpu with
      decimation := BitVec.ofNat 16 (field h.params 0 2), decimationCounter := 0, statusOwed := true } s
    have rpu : (setTelemetry h s).rpu = { s.rpu with
        decimation := BitVec.ofNat 16 (field h.params 0 2), decimationCounter := 0, statusOwed := true } := by
      rw [judged]
      exact (endHand_only ..).same .rpu (by decide)
    obtain ⟨decimation, nextSnapshot, counter, status⟩ := settle_settings s s (setTelemetry h s)
    rw [rpu] at decimation nextSnapshot counter status
    refine ⟨_, exec_setTelemetry k, ((setTelemetry_only h s).settle s).mono (by decide), ?_, decimation, nextSnapshot, status rfl rfl, counter⟩
    rw [judged]
    exact ended_by k set (by decide) 2 _

/-! ### A vector that is read (R117, R126, R137) -/

section
variable {s : State} {a : Anchor} {next : Ticket} {h : Hand} {j : ReadJob}

/-- The bytes of the directive in hand are being read. -/
theorem occupied (hand : s.du.hand = some h) (p : Purpose) (address size : Nat) :
    Occupied h p address size s (settle s (occupy p address size s)) := occupied_of_occupy hand rfl rfl p address size

theorem loadSafeShape_eq (fits : h.fits 8 6 2 = true) : loadSafeShape h s
    = if 1 < field h.params 4 1 ∨ 1 < field h.params 5 1 ∨ badArea s (field h.params 0 4) 2048 = true then refuseRange s
      else occupy .vector (field h.params 0 4) 2048 s := by
  unfold loadSafeShape
  rw [fits]
  refine (if_neg (by decide)).trans (if_congr ?_ rfl rfl)
  rw [Bool.or_eq_true, Bool.or_eq_true, decide_eq_true_eq, decide_eq_true_eq, or_assoc]

theorem injectProbe_eq (fits : h.fits 12 10 2 = true) : injectProbe h s
    = if field h.params 4 2 < 1 ∨ 1024 < field h.params 4 2 ∨ badArea s (field h.params 0 4) (2 * field h.params 4 2) = true then refuseRange s
      else if s.run.state ≠ .running then refuseState s
      else match s.pru.injection with
        | some i => endHand codeRefusedBusy (BitVec.ofNat 32 i.left) s
        | none => occupy .vector (field h.params 0 4) (2 * field h.params 4 2) s := by
  unfold injectProbe
  rw [fits]
  refine (if_neg (by decide)).trans (if_congr ?_ rfl (if_congr ?_ rfl rfl))
  · rw [Bool.or_eq_true, Bool.or_eq_true, decide_eq_true_eq, decide_eq_true_eq, or_assoc]
  · simp [← isRunning_iff]

theorem resetIntegratorZero_eq (fits : h.fits 8 1 3 = true) : resetIntegratorZero h s
    = if field h.params 4 4 ≠ 0 then refuseField s else done 0 (handChange (List.replicate 1024 0) s) := by
  unfold resetIntegratorZero
  rw [fits]
  exact if_congr (by simp) rfl rfl

theorem resetIntegratorVector_eq (fits : h.fits 8 1 3 = true) : resetIntegratorVector h s
    = if field h.params 0 1 ≠ 1 ∨ badArea s (field h.params 4 4) 2048 = true then refuseRange s
      else occupy .vector (field h.params 4 4) 2048 s := by
  unfold resetIntegratorVector
  rw [fits]
  refine (if_neg (by decide)).trans (if_congr ?_ rfl rfl)
  rw [Bool.or_eq_true, decide_eq_true_eq]
  exact Iff.rfl

/-! ### A vector that has been read -/

theorem badValue_some {vs : List Int} {k : Nat} (first : vs[k]? = some (-32768)) (earlier : ∀ m, m < k → vs[m]? ≠ some (-32768)) :
    badValue vs = some k := by
  obtain ⟨within, value⟩ := List.getElem?_eq_some_iff.1 first
  refine List.findIdx?_eq_some_iff_getElem.2 ⟨within, by simp [value], fun m before => ?_⟩
  have other := earlier m before
  rw [List.getElem?_eq_getElem (by omega), ne_eq, Option.some.injEq] at other
  simpa using other

theorem badValue_none {vs : List Int} (good : ∀ v ∈ vs, v ≠ -32768) : badValue vs = none :=
  List.findIdx?_eq_none_iff.2 fun v mem => by simpa using good v mem

theorem vectorRead_failed {offset : Nat} (failed : j.failed = some offset) (use : List Int → State → State) :
    vectorRead j use s = endHand 11 (BitVec.ofNat 32 offset) (raise .memoryError s) := by
  unfold vectorRead
  rw [failed]
  rfl

theorem vectorRead_bad {k : Nat} (whole : j.failed = none) (bad : badValue (int16s 1024 j.bytes) = some k)
    (use : List Int → State → State) : vectorRead j use s = endHand 10 (checkDetail 1 k) s := by
  unfold vectorRead
  rw [whole]
  dsimp only
  rw [bad]
  rfl

theorem vectorRead_good (whole : j.failed = none) (good : badValue (int16s 1024 j.bytes) = none) (use : List Int → State → State) :
    vectorRead j use s = use (int16s 1024 j.bytes) s := by
  unfold vectorRead
  rw [whole]
  dsimp only
  rw [good]

/-- The directive at work ends behind an effect that leaves the run state, the unit and its queue. -/
theorem worked_by {p : Purpose} (w : Working s a next h p j) {ps : List Part} {u : State} (only : OnlyChanges ps s u)
    (apart : ∀ p ∈ [Part.run, .du, .duQueue], p ∉ ps) (code : Nat) (detail : BitVec 32) :
    Ended a next h code detail s (settle s (endHand code detail u)) :=
  have run : u.run = s.run := only.same .run (apart _ (by decide))
  have du : u.du = s.du := only.same .du (apart _ (by decide))
  have queue : u.arb.du = s.arb.du := only.same .duQueue (apart _ (by decide))
  ended_of_endHand w.anchor w.expected w.hand run du queue code detail

/-- An uncorrectable error ends the directive with FAILED_MEMORY (R117, R126, R137). -/
theorem memoryFailed_ends {p : Purpose} (w : Working s a next h p j) (offset : Nat) :
    let t := settle s (endHand 11 (BitVec.ofNat 32 offset) (raise .memoryError s))
    attentionHas .memoryError t = true ∧ t.cou = s.cou ∧ t.pru = s.pru ∧ t.wires = s.wires
      ∧ Ended a next h 11 (BitVec.ofNat 32 offset) s t := by
  refine ⟨?_, endHand_cou .., endHand_pru .., endHand_wires .., worked_by w (raise_only ..) (by decide) ..⟩
  have flagged : attentionHas .memoryError (raise .memoryError s) = true := by
    rw [attentionHas_raise]
    simp
  unfold attentionHas at flagged ⊢
  rw [endHand_attention]
  exact flagged

/-- What a vector of 1,024 values brings whatever its use. -/
theorem vectorRead_ends {p : Purpose} (w : Working s a next h p j) (use : List Int → State → State) :
    let t := settle s (vectorRead j use s)
    (∀ offset, j.failed = some offset → attentionHas .memoryError t = true ∧ t.cou = s.cou ∧ t.pru = s.pru ∧ t.wires = s.wires
        ∧ Ended a next h 11 (BitVec.ofNat 32 offset) s t)
      ∧ ∀ k, j.failed = none → (int16s 1024 j.bytes)[k]? = some (-32768) →
        (∀ m, m < k → (int16s 1024 j.bytes)[m]? ≠ some (-32768)) →
        t.cou = s.cou ∧ t.wires = s.wires ∧ Ended a next h 10 (checkDetail 1 k) s t := by
  intro t
  refine ⟨fun offset failed => ?_, fun k whole first earlier => ?_⟩
  · have read : t = settle s (endHand 11 (BitVec.ofNat 32 offset) (raise .memoryError s)) :=
      congrArg (settle s) (vectorRead_failed failed use)
    rw [read]
    exact memoryFailed_ends w offset
  · have read : t = settle s (endHand 10 (checkDetail 1 k) s) :=
      congrArg (settle s) (vectorRead_bad whole (badValue_some first earlier) use)
    rw [read]
    exact ⟨endHand_cou .., endHand_wires .., worked_by w (.refl [] s) (by decide) ..⟩

theorem exec_safeShapeReadDone (w : Working s a next h .vector j) (kind : h.kind = 9) :
    exec .safeShapeReadDone s = .next (settle s (vectorRead j (installShape h) s)) := by
  obtain ⟨hand, returned⟩ := workingHand_eq w
  rw [kind] at hand
  change execSafeShapeReadDone s = _
  unfold execSafeShapeReadDone
  rw [hand, returned]
  rfl

theorem exec_integratorVectorReadDone (w : Working s a next h .vector j) (kind : h.kind = 14) :
    exec .integratorVectorReadDone s = .next (settle s (vectorRead j (fun vs s => done 0 (handChange vs s)) s)) := by
  obtain ⟨hand, returned⟩ := workingHand_eq w
  rw [kind] at hand
  change execIntegratorVectorReadDone s = _
  unfold execIntegratorVectorReadDone
  rw [hand, returned]
  rfl

theorem exec_injectPatternReadDone (w : Working s a next h .vector j) (kind : h.kind = 13) :
    exec .injectPatternReadDone s = .next (settle s (patternReturned h j s)) := by
  obtain ⟨hand, returned⟩ := workingHand_eq w
  rw [kind] at hand
  change execInjectPatternReadDone s = _
  unfold execInjectPatternReadDone
  rw [hand, returned]
  rfl

/-- The Safe Shape Store holds the vector that has been read. -/
theorem shape_read (vs : List Int) (k : Nat) : Store.read 0 (Store.writeAll 0 [] 0 vs) k = vs.getD k 0 := by
  rw [Store.read_writeAll_range]
  by_cases within : k < vs.length
  · rw [if_pos ⟨Nat.zero_le k, by omega⟩, Nat.sub_zero]
  · rw [if_neg (by omega), List.getD_eq_default _ _ (by omega)]
    rfl

end

/-- Settles O53: each directive by its branches, its vector by `vectorRead_ends`. -/
theorem vectorDirectives : Obligations.VectorDirectives := by
  refine ⟨fun s a next h k fits => ?_, fun s a next h k fits form => ?_, fun s a next h k fits => ?_, fun s a next h j w => ?_⟩
  · intro outside
    have judged := loadSafeShape_eq (s := s) ((fits_iff ..).2 fits)
    have outside_iff : _ ↔ outside := or_congr_right (or_congr_right (badArea_iff ..))
    refine ⟨_, exec_loadSafeShape k, (loadSafeShape_only h s).settle s, fun yes => ?_, fun no => ?_⟩
    · rw [judged, if_pos (outside_iff.2 yes)]
      exact (refused_ended k 5 0).2
    · rw [judged, if_neg (no ∘ outside_iff.1)]
      exact occupied k.hand ..
  · intro length outside
    have judged := injectProbe_eq (s := s) ((fits_iff ..).2 fits)
    have outside_iff : _ ↔ outside := or_congr_right (or_congr_right (badArea_iff ..))
    refine ⟨_, exec_injectProbe k form, (injectProbe_only h s).settle s, fun yes => ?_, fun no halted => ?_, fun i no running busy => ?_,
      fun no running free => ?_⟩
    · rw [judged, if_pos (outside_iff.2 yes)]
      exact (refused_ended k 5 0).2
    · rw [judged, if_neg (no ∘ outside_iff.1), if_pos halted]
      exact (refused_ended k 6 0).2
    · rw [judged, if_neg (no ∘ outside_iff.1), if_neg (not_not.2 running), busy]
      exact (refused_ended k 9 _).2
    · rw [judged, if_neg (no ∘ outside_iff.1), if_neg (not_not.2 running), free]
      exact occupied k.hand ..
  · intro mode address
    have fits := (fits_iff ..).2 fits
    refine ⟨fun zero => ⟨_, exec_resetIntegratorZero k zero, (resetIntegratorZero_only h s).settle s, fun set => ?_, fun unset => ?_⟩,
      fun other => ⟨_, exec_resetIntegratorVector k other, (resetIntegratorVector_only h s).settle s, fun bad => ?_, fun vector good => ?_⟩⟩
    · rw [resetIntegratorZero_eq fits, if_pos set]
      exact ⟨endHand_wires .., (refused_ended k 4 0).2⟩
    · rw [resetIntegratorZero_eq fits, if_neg (not_not.2 unset)]
      exact ⟨ended_by k (handChange_only ..) (by decide) 2 0, endHand_wires ..⟩
    · rw [resetIntegratorVector_eq fits, if_pos (bad.imp_right (badArea_iff ..).2)]
      exact (refused_ended k 5 0).2
    · have none' : ¬ (field h.params 0 1 ≠ 1 ∨ badArea s (field h.params 4 4) 2048 = true) := by
        rw [badArea_iff]
        exact fun bad => bad.elim (fun other => other vector) good
      rw [resetIntegratorVector_eq fits, if_neg none']
      exact occupied k.hand ..
  · intro values failed checked
    refine ⟨fun kind => ?_, fun kind => ?_, fun kind => ?_⟩
    · obtain ⟨error, check⟩ := vectorRead_ends w (installShape h)
      have only : OnlyChanges (handParts ++ [.attention, .cou]) s (vectorRead j (installShape h) s) :=
        vectorRead_only (fun vs s => (installShape_only h vs s).mono (by decide)) (by decide) j s
      refine ⟨_, exec_safeShapeReadDone w kind, (only.among rfl).settle s, error, check, fun whole good => ?_⟩
      rw [vectorRead_good whole (badValue_none good), installShape, done, endHand_cou]
      have ended := worked_by w (with_cou_only { s.cou with
        safeShape := Store.writeAll 0 [] 0 (int16s 1024 j.bytes), shapeLoaded := true
        action := if field h.params 4 1 = 1 then .safe else .freeze, autoResume := field h.params 5 1 == 1 } s) (by decide) 2 0
      have shape := shape_read (int16s 1024 j.bytes)
      show _ ∧ (∀ k, _ = (int16s 1024 j.bytes).getD k 0) ∧ _
      generalize int16s 1024 j.bytes = vs at ended shape ⊢
      exact ⟨ended, shape, rfl⟩
    · obtain ⟨error, check⟩ := vectorRead_ends w (fun vs s => done 0 (handChange vs s))
      have only : OnlyChanges (handParts ++ [.attention, .wires]) s (vectorRead j (fun vs s => done 0 (handChange vs s)) s) :=
        vectorRead_only (fun vs s => ((handChange_only vs s).andThen (done_only ..)).mono (by decide)) (by decide) j s
      refine ⟨_, exec_integratorVectorReadDone w kind, (only.among rfl).settle s, error, check, fun whole good => ?_⟩
      rw [vectorRead_good whole (badValue_none good)]
      exact ⟨worked_by w (handChange_only ..) (by decide) 2 0, endHand_wires ..⟩
    · refine ⟨_, exec_injectPatternReadDone w kind, ((patternReturned_only h j s).among rfl).settle s, fun offset error => ?_,
        fun whole => ?_⟩
      · have read : patternReturned h j s = endHand 11 (BitVec.ofNat 32 offset) (raise .memoryError s) := by
          unfold patternReturned
          rw [error]
          rfl
        rw [read]
        exact memoryFailed_ends w offset
      · have read : patternReturned h j s = done 0 (mapPru (fun p => { p with injection := some (injectionOf h j) }) s) := by
          unfold patternReturned
          rw [whole]
          rfl
        rw [read]
        exact ⟨worked_by w (mapPru_only _ s) (by decide) 2 0, endHand_pru ..⟩

end Sys2Proof.Machine

/-!
Adoption directives, loads and switches (R79, R81 to R88, R93): what each operation on the Edition Slots makes of them.
-/
namespace Sys2Proof.Machine

/-! ### The slots by their identifiers -/

theorem slotOf_congr {s t : State} (h : t.rce = s.rce) (k : SlotId) : slotOf t k = slotOf s k := by
  unfold slotOf
  rw [h]

theorem setSlot_kept (i : SlotId) (x : Slot) (s : State) :
    (setSlot i x s).rce = { s.rce with slotA := (setSlot i x s).rce.slotA, slotB := (setSlot i x s).rce.slotB } := by
  cases i <;> rfl

theorem EngineKept.refl (s : State) : EngineKept s s := rfl

theorem EngineKept.trans {s t u : State} (h : EngineKept s t) (k : EngineKept t u) : EngineKept s u := by
  unfold EngineKept at *
  rw [k, h]

theorem EngineKept.to {s t u : State} (h : EngineKept s t) (rce : u.rce = t.rce) : EngineKept s u := by
  unfold EngineKept at *
  rw [rce]
  exact h

theorem engineKept_setSlot (i : SlotId) (x : Slot) (s : State) : EngineKept s (setSlot i x s) := by
  unfold EngineKept
  cases i <;> rfl

theorem engineKept_setLoad (l : Option Load) (s : State) : EngineKept s (setLoad l s) := rfl

theorem engineKept_retireCurrent (s : State) : EngineKept s (retireCurrent s) := by
  unfold retireCurrent
  split
  · exact .refl s
  · exact engineKept_setSlot ..

/-- A slot filled, with a load. -/
theorem fill_slots (i : SlotId) (x : Slot) (l : Option Load) (s : State) :
    EngineKept s (setLoad l (setSlot i x s)) ∧ slotOf (setLoad l (setSlot i x s)) i = x
      ∧ (∀ k, k ≠ i → slotOf (setLoad l (setSlot i x s)) k = slotOf s k) ∧ (setLoad l (setSlot i x s)).rce.load = l
      ∧ (setLoad l (setSlot i x s)).watch = s.watch := by
  refine ⟨(engineKept_setSlot i x s).trans (engineKept_setLoad ..), ?_, fun k other => ?_, rfl, setSlot_watch ..⟩
  · rw [slotOf_setLoad, slotOf_setSlot, if_pos rfl]
  · rw [slotOf_setLoad, slotOf_setSlot, if_neg (Ne.symm other)]

theorem fill_only (i : SlotId) (x : Slot) (l : Option Load) (s : State) : OnlyChanges [.rce] s (setLoad l (setSlot i x s)) :=
  ((setSlot_only ..).andThen (setLoad_only ..)).among rfl

/-! ### The ends of a load (R84, R85) -/

section
variable {s : State} {a : Anchor} {next : Ticket} {h : Hand}
  (anchor : s.run.anchor = some a) (expected : s.du.expected = some next) (hand : s.du.hand = some h)

theorem endHand_rce (code : Nat) (detail : BitVec 32) (b u : State) :
    (settle b (endHand code detail u)).rce = u.rce ∧ (settle b (endHand code detail u)).watch = u.watch :=
  ⟨(settle_rce ..).trans ((endHand_only ..).same .rce (by decide)), (settle_watch ..).trans ((endHand_only ..).same .watch (by decide))⟩

include anchor expected hand in
/-- The directive ends behind a change of the slots. -/
theorem ended_behind {u : State} (only : OnlyChanges [.rce, .watch] s u) (code : Nat) (detail : BitVec 32) (b : State) :
    Ended a next h code detail s (settle b (endHand code detail u)) :=
  have run : u.run = s.run := only.same .run (by decide)
  have du : u.du = s.du := only.same .du (by decide)
  have queue : u.arb.du = s.arb.du := only.same .duQueue (by decide)
  ended_of_endHand anchor expected hand run du queue code detail

theorem failLoad_failed (i : SlotId) (code : Nat) (detail : BitVec 32) (s b : State) :
    LoadFailed i s (settle b (failLoad i code detail s)) := by
  obtain ⟨engine, slot, others, load, watch⟩ := fill_slots i .empty none s
  obtain ⟨rce, map⟩ := endHand_rce code detail b (setLoad none (setSlot i .empty s))
  exact ⟨engine.to rce, (slotOf_congr rce i).trans slot, fun k other => (slotOf_congr rce k).trans (others k other),
    (congrArg Rce.load rce).trans load, map.trans watch⟩

include anchor expected hand in
theorem failLoad_ended (i : SlotId) (code : Nat) (detail : BitVec 32) (b : State) :
    LoadFailed i s (settle b (failLoad i code detail s)) ∧ Ended a next h code detail s (settle b (failLoad i code detail s)) :=
  ⟨failLoad_failed .., ended_behind anchor expected hand ((fill_only i .empty none s).among rfl) code detail b⟩

/-- A slot that was CURRENT, after the switch of another. -/
theorem retireCurrent_slots {i : SlotId} (free : ¬ (slotOf s i).isCurrent) (k : SlotId) (other : k ≠ i) :
    (∀ d, slotOf s k = .current d → slotOf (retireCurrent s) k = if s.rce.inUse = some k then .retained d else .empty)
      ∧ (¬ (slotOf s k).isCurrent → slotOf (retireCurrent s) k = slotOf s k) := by
  rw [slotOf_retireCurrent]
  cases which : currentSlot s with
  | none =>
    refine ⟨fun d current => absurd ?_ (not_current_of_none which k), fun _ => rfl⟩
    rw [current]
    trivial
  | some x =>
    obtain ⟨m, e⟩ := x
    have current := slotOf_currentSlot which
    have apart : m ≠ i := by
      rintro rfl
      rw [current] at free
      exact free trivial
    have same : m = k := by
      cases m <;> cases k <;> cases i <;> first | rfl | exact absurd rfl other | exact absurd rfl apart
    subst same
    refine ⟨fun d is => ?_, fun no => absurd ?_ no⟩
    · obtain rfl : e = d := Slot.current.inj (current.symm.trans is)
      exact if_pos rfl
    · rw [current]
      trivial

/-- The slots of a switch, before its DONE. -/
def switchSlots (i : SlotId) (e : Edition) (s : State) : State :=
  rebuildWatch (setLoad none (setSlot i (.current e) (retireCurrent s)))

theorem switchSlots_only (i : SlotId) (e : Edition) (s : State) : OnlyChanges [.rce, .watch] s (switchSlots i e s) :=
  ((retireCurrent_only s).andThen ((fill_only ..).andThen (rebuildWatch_only _))).among rfl

theorem switchSlots_switched {i : SlotId} (free : ¬ (slotOf s i).isCurrent) (e : Edition) : Switched i e s (switchSlots i e s) := by
  obtain ⟨engine, slot, others, load, _⟩ := fill_slots i (.current e) none (retireCurrent s)
  refine ⟨(engineKept_retireCurrent s).trans engine, slot, fun k d other current => ?_, fun k other idle => ?_, rfl, load⟩
  · exact (others k other).trans ((retireCurrent_slots free k other).1 d current)
  · exact (others k other).trans ((retireCurrent_slots free k other).2 idle)

theorem Switched.to {i : SlotId} {e : Edition} {t u : State} (h : Switched i e s t) (rce : u.rce = t.rce) (watch : u.watch = t.watch) :
    Switched i e s u := by
  obtain ⟨engine, current, old, others, map, load⟩ := h
  refine ⟨engine.to rce, (slotOf_congr rce i).trans current, fun k d other is => (slotOf_congr rce k).trans (old k d other is),
    fun k other idle => (slotOf_congr rce k).trans (others k other idle), ?_, (congrArg Rce.load rce).trans load⟩
  rw [watch, rce]
  exact map

include anchor expected hand in
theorem switchTo_ended {i : SlotId} (free : ¬ (slotOf s i).isCurrent) (e : Edition) (b : State) :
    Ended a next h 2 (displaced s) s (settle b (switchTo i e s)) ∧ Switched i e s (settle b (switchTo i e s)) := by
  obtain ⟨rce, watch⟩ := endHand_rce 2 (displaced s) b (switchSlots i e s)
  exact ⟨ended_behind anchor expected hand (switchSlots_only i e s) 2 (displaced s) b, (switchSlots_switched free e).to rce watch⟩

theorem displaced_current {c : SlotId} {e : Edition} (current : currentSlot s = some (c, e)) : displaced s = e.number := by
  unfold displaced
  rw [current]
  rfl

theorem not_current_of_free {i : SlotId} (free : freeSlot s = some i) : ¬ (slotOf s i).isCurrent := by
  rw [slotOf_freeSlot free]
  nofun

/-! ### The beginnings of an adoption (R81, R86, R88) -/

/-- Reading for a load behind a change of the slots. -/
theorem occupy_rce (p : Purpose) (address size : Nat) (b u : State) :
    (settle b (occupy p address size u)).rce = u.rce ∧ (settle b (occupy p address size u)).watch = u.watch :=
  ⟨(settle_rce ..).trans ((occupy_only ..).same .rce (by decide)), (settle_watch ..).trans ((occupy_only ..).same .watch (by decide))⟩

include hand in
theorem beginAdopt_begun (i : SlotId) (b : State) :
    AdoptBegun h i s (settle b (beginAdopt h i s)) ∧ (settle b (beginAdopt h i s)).watch = s.watch := by
  obtain ⟨engine, slot, others, load, watch⟩ := fill_slots i (.loading {}) (some { slot := i, phase := .record }) s
  have only := fill_only i (.loading {}) (some { slot := i, phase := .record }) s
  obtain ⟨rce, map⟩ := occupy_rce .load (field h.params 0 4) 256 b
    (setLoad (some { slot := i, phase := .record }) (setSlot i (.loading {}) s))
  exact ⟨⟨engine.to rce, occupied_of_occupy hand (only.same .du (by decide)) (only.same .duQueue (by decide)) ..,
    (slotOf_congr rce i).trans slot, fun k other => (slotOf_congr rce k).trans (others k other), (congrArg Rce.load rce).trans load⟩,
    map.trans watch⟩

include hand in
theorem beginAmend_begun {c : SlotId} {e : Edition} (current : currentSlot s = some (c, e)) (i : SlotId) (b : State) :
    AmendBegun h i e s (settle b (beginAmend h i s)) ∧ (settle b (beginAmend h i s)).watch = s.watch := by
  have begins : beginAmend h i s = occupy .load (field h.params 4 4) 192 (setLoad (some { slot := i, phase := .groupTable })
      (setSlot i (.loading { e with number := BitVec.ofNat 32 (field h.params 0 4) }) s)) := by
    unfold beginAmend
    rw [current]
  obtain ⟨engine, slot, others, load, watch⟩ := fill_slots i (.loading { e with number := BitVec.ofNat 32 (field h.params 0 4) })
    (some { slot := i, phase := .groupTable }) s
  have only := fill_only i (.loading { e with number := BitVec.ofNat 32 (field h.params 0 4) }) (some { slot := i, phase := .groupTable }) s
  obtain ⟨rce, map⟩ := occupy_rce .load (field h.params 4 4) 192 b (setLoad (some { slot := i, phase := .groupTable })
      (setSlot i (.loading { e with number := BitVec.ofNat 32 (field h.params 0 4) }) s))
  rw [begins]
  exact ⟨⟨engine.to rce, occupied_of_occupy hand (only.same .du (by decide)) (only.same .duQueue (by decide)) ..,
    (slotOf_congr rce i).trans slot, fun k other => (slotOf_congr rce k).trans (others k other), (congrArg Rce.load rce).trans load⟩,
    map.trans watch⟩

theorem positionFails_iff (e : Edition) (row column : Nat) (exponent : Int) : positionFails e row column exponent = true
    ↔ 63 < row ∨ e.slopeCount ≤ 256 * row ∨ 15 < column ∨ e.actuatorCount ≤ 64 * column ∨ exponent < -24 ∨ 8 < exponent := by
  simp [positionFails, or_assoc]

theorem tileAddressFails_iff (s : State) (address : Nat) :
    tileAddressFails s address = true ↔ address % 32768 ≠ 0 ∨ BadArea s address 32768 := by
  rw [← badArea_iff]
  by_cases aligned : address % 32768 = 0
  · have aligned' : address % 64 = 0 := by omega
    simp [tileAddressFails, badArea, aligned, aligned', Config.tileBytes]
  · simp [tileAddressFails, Config.tileBytes, aligned]

include anchor expected hand in
/-- REPOINT_TILE with SET, its position in the grid and its exponent in range, with the slot it has taken (R88). -/
theorem repointSet_set {c i : SlotId} {e : Edition} (current : currentSlot s = some (c, e)) (free : freeSlot s = some i)
    (row : field h.params 5 1 ≤ 63) (column : field h.params 6 1 ≤ 15)
    (exponent : -24 ≤ signed 8 (field h.params 7 1) ∧ signed 8 (field h.params 7 1) ≤ 8) (b : State) :
    TileSet a next h i e s (settle b (repointSet h i s)) := by
  have within : 256 * field h.params 5 1 < e.slopeCount → 64 * field h.params 6 1 < e.actuatorCount →
      ¬ positionFails e (field h.params 5 1) (field h.params 6 1) (signed 8 (field h.params 7 1)) = true := by
    intro _ _
    rw [positionFails_iff]
    omega
  unfold repointSet
  rw [current]
  dsimp only
  refine ⟨fun beyond => ?_, fun k rows columns promised => ?_, fun rows columns unpromised => ?_⟩
  · rw [if_pos ((positionFails_iff ..).2 (beyond.elim (fun x => .inr (.inl x)) fun x => .inr (.inr (.inr (.inl x)))))]
    exact failLoad_ended anchor expected hand ..
  · rw [if_neg (within rows columns), promised]
    exact failLoad_ended anchor expected hand ..
  · rw [if_neg (within rows columns), unpromised, ← displaced_current current]
    exact switchTo_ended anchor expected hand (not_current_of_free free) _ b

include anchor expected hand in
/-- REPOINT_TILE with REMOVE, with the slot it has taken (R88). -/
theorem repointRemove_removed {c i : SlotId} {e : Edition} (current : currentSlot s = some (c, e)) (free : freeSlot s = some i)
    (b : State) : TileRemoved a next h i e s (settle b (repointRemove h i s)) := by
  unfold repointRemove
  rw [current]
  dsimp only
  have key : tileKey (field h.params 5 1) (field h.params 6 1) = 64 * field h.params 6 1 + field h.params 5 1 := rfl
  rw [key]
  refine ⟨fun absent => ?_, fun present => ?_⟩
  · rw [absent]
    exact failLoad_ended anchor expected hand ..
  · obtain ⟨d, found⟩ := Option.ne_none_iff_exists'.1 present
    rw [found, ← displaced_current current]
    exact switchTo_ended anchor expected hand (not_current_of_free free) _ b

end

/-! ### The adoption directives -/

theorem freeSlot_none_iff (s : State) : freeSlot s = none ↔ ∀ i, slotOf s i ≠ .empty := by
  have isEmpty : ∀ x : Slot, x.isEmpty = true ↔ x = .empty := fun x => by cases x <;> simp [Slot.isEmpty]
  have both : (∀ i, slotOf s i ≠ .empty) ↔ ¬ s.rce.slotA.isEmpty = true ∧ ¬ s.rce.slotB.isEmpty = true := by
    rw [isEmpty, isEmpty]
    exact ⟨fun all => ⟨all .a, all .b⟩, fun ⟨a, b⟩ i => by cases i; exacts [a, b]⟩
  rw [both]
  unfold freeSlot
  by_cases slotA : s.rce.slotA.isEmpty = true
  · simp [slotA]
  · by_cases slotB : s.rce.slotB.isEmpty = true
    · simp [slotA, slotB]
    · simp [slotA, slotB]

theorem takeSlot_waits {s : State} (full : freeSlot s = none) (h : Hand) : takeSlot h s = setPhase .needsSlot .waiting s := by
  unfold takeSlot
  rw [full]

theorem takeSlot_free {s : State} {i : SlotId} (free : freeSlot s = some i) (h : Hand) : takeSlot h s = beginLoad h i s := by
  unfold takeSlot
  rw [free]

theorem beginLoad_adopt {h : Hand} (kind : h.kind = 1) (i : SlotId) (s : State) : beginLoad h i s = beginAdopt h i s := if_pos kind

theorem beginLoad_amend {h : Hand} (kind : h.kind = 2) (i : SlotId) (s : State) : beginLoad h i s = beginAmend h i s :=
  (if_neg (by omega)).trans (if_pos kind)

theorem beginLoad_remove {h : Hand} (kind : h.kind = 3) (action : field h.params 4 1 = 2) (i : SlotId) (s : State) :
    beginLoad h i s = repointRemove h i s := (if_neg (by omega)).trans ((if_neg (by omega)).trans (if_pos action))

theorem beginLoad_set {h : Hand} (kind : h.kind = 3) (action : field h.params 4 1 ≠ 2) (i : SlotId) (s : State) :
    beginLoad h i s = repointSet h i s := (if_neg (by omega)).trans ((if_neg (by omega)).trans (if_neg action))

/-- A directive that waits for a slot, with the slots as they were. -/
theorem slot_waits {s : State} {h : Hand} (hand : s.du.hand = some h) (full : freeSlot s = none) (b : State) :
    (settle b (takeSlot h s)).rce = s.rce ∧ (settle b (takeSlot h s)).watch = s.watch
      ∧ Waits .needsSlot h s (settle b (takeSlot h s)) := by
  rw [takeSlot_waits full]
  exact ⟨settle_rce .., settle_watch .., waits_of_setPhase hand rfl rfl .needsSlot⟩

/-- ADOPT_EDITION and AMEND_GROUPS leave the Range Watch map until their switch. -/
theorem takeSlot_keepsWatch {h : Hand} (kind : h.kind = 1 ∨ h.kind = 2) (s : State) :
    OnlyChanges [.du, .duQueue, .rce] s (takeSlot h s) := by
  cases slot : freeSlot s with
  | none =>
    rw [takeSlot_waits slot]
    exact (setPhase_only ..).among rfl
  | some i =>
    rw [takeSlot_free slot]
    obtain adopt | amend := kind
    · rw [beginLoad_adopt adopt]
      exact ((fill_only ..).andThen (occupy_only ..)).among rfl
    · rw [beginLoad_amend amend]
      unfold beginAmend
      split
      · exact (OnlyChanges.refl [] s).among rfl
      · exact ((fill_only ..).andThen (occupy_only ..)).among rfl

/-- A refusal leaves the slots. -/
theorem refused_slots {s : State} {a : Anchor} {next : Ticket} {h : Hand} {kind : Nat} (k : InHand s a next h kind) (code : Nat)
    (detail : BitVec 32) : (settle s (endHand code detail s)).rce = s.rce ∧ (settle s (endHand code detail s)).watch = s.watch
      ∧ Ended a next h code detail s (settle s (endHand code detail s)) :=
  ⟨(endHand_rce ..).1, (endHand_rce ..).2, (refused_ended k code detail).2⟩

theorem repointOutside_iff (h : Hand) : repointOutside h = true ↔ field h.params 0 4 = 0
    ∨ (field h.params 4 1 ≠ 1 ∧ field h.params 4 1 ≠ 2) ∨ 63 < field h.params 5 1 ∨ 15 < field h.params 6 1 := by
  simp [repointOutside, or_assoc]

theorem repointTileOutside_iff (h : Hand) (s : State) : repointTileOutside h s = true ↔ signed 8 (field h.params 7 1) < -24
    ∨ 8 < signed 8 (field h.params 7 1) ∨ field h.params 8 4 % 32768 ≠ 0 ∨ BadArea s (field h.params 8 4) 32768 := by
  rw [repointTileOutside]
  simp only [Bool.or_eq_true, decide_eq_true_eq, tileAddressFails_iff, or_assoc]

/-- Settles O50: the checks of each directive, then the slot it takes or waits for. -/
theorem adoptionDirectives : Obligations.AdoptionDirectives := by
  refine ⟨fun s a next h k fits => ?_, fun s a next h k fits => ?_, fun s a next h k fits => ?_⟩
  · intro bad
    have judged : adoptEdition h s = if badArea s (field h.params 0 4) 256 then refuseRange s else takeSlot h s := by
      unfold adoptEdition
      rw [(fits_iff ..).2 fits]
      rfl
    have only : OnlyChanges [.du, .duQueue, .rce] s (adoptEdition h s) := by
      rw [judged]
      split
      · exact (endHand_only ..).among rfl
      · exact takeSlot_keepsWatch (.inl k.kind) s
    refine ⟨_, exec_adoptEdition k, only.settle s, fun yes => ?_, fun no full => ?_, fun i no free => ?_⟩
    · obtain ⟨rce, _, ended⟩ := refused_slots k 5 0
      rw [judged, if_pos ((badArea_iff ..).2 yes)]
      exact ⟨rce, ended⟩
    · obtain ⟨rce, _, waits⟩ := slot_waits k.hand ((freeSlot_none_iff s).2 full) s
      rw [judged, if_neg (no ∘ (badArea_iff ..).1)]
      exact ⟨rce, waits⟩
    · rw [judged, if_neg (no ∘ (badArea_iff ..).1), takeSlot_free free, beginLoad_adopt k.kind]
      exact (beginAdopt_begun k.hand i s).1
  · intro number bad
    have bad_iff : (decide (field h.params 0 4 = 0) || badArea s (field h.params 4 4) 192) = true ↔ bad := by
      rw [Bool.or_eq_true, decide_eq_true_eq, badArea_iff]
    have judged : amendGroups h s = if decide (field h.params 0 4 = 0) || badArea s (field h.params 4 4) 192 then refuseRange s
        else if (currentSlot s).isNone then refuseState s else takeSlot h s := by
      unfold amendGroups
      rw [(fits_iff ..).2 fits]
      rfl
    have only : OnlyChanges [.du, .duQueue, .rce] s (amendGroups h s) := by
      rw [judged]
      split
      · exact (endHand_only ..).among rfl
      · split
        · exact (endHand_only ..).among rfl
        · exact takeSlot_keepsWatch (.inr k.kind) s
    refine ⟨_, exec_amendGroups k, only.settle s, fun yes => ?_, fun no none' => ?_, fun c e no current => ⟨fun full => ?_, fun i free => ?_⟩⟩
    · obtain ⟨rce, _, ended⟩ := refused_slots k 5 0
      rw [judged, if_pos (bad_iff.2 yes)]
      exact ⟨rce, ended⟩
    · obtain ⟨rce, _, ended⟩ := refused_slots k 6 0
      rw [judged, if_neg (no ∘ bad_iff.1), none']
      exact ⟨rce, ended⟩
    · obtain ⟨rce, _, waits⟩ := slot_waits k.hand ((freeSlot_none_iff s).2 full) s
      rw [judged, if_neg (no ∘ bad_iff.1), current]
      exact ⟨rce, waits⟩
    · have taken : amendGroups h s = beginAmend h i s := by
        rw [judged, if_neg (no ∘ bad_iff.1), current, ← beginLoad_amend k.kind, ← takeSlot_free free]
        rfl
      rw [taken]
      exact (beginAmend_begun k.hand current i s).1
  · intro number action row column exponent address outside badTile
    have outside_iff : repointOutside h = true ↔ outside := repointOutside_iff h
    refine ⟨fun sets => ?_, fun removes => ?_⟩
    · have bad_iff : (repointOutside h || repointTileOutside h s) = true ↔ outside ∨ badTile := by
        rw [Bool.or_eq_true]
        exact or_congr outside_iff (repointTileOutside_iff h s)
      have judged : repointTileSet h s = if repointOutside h || repointTileOutside h s then refuseRange s
          else if (currentSlot s).isNone then refuseState s else takeSlot h s := by
        unfold repointTileSet
        rw [(fits_iff ..).2 fits]
        rfl
      refine ⟨_, exec_repointTileSet k sets, (repointTileSet_only h s).settle s, fun yes => ?_, fun no none' => ?_,
        fun c e no current => ⟨fun full => ?_, fun i free => ?_⟩⟩
      · rw [judged, if_pos (bad_iff.2 yes)]
        exact refused_slots k 5 0
      · rw [judged, if_neg (no ∘ bad_iff.1), none']
        exact refused_slots k 6 0
      · rw [judged, if_neg (no ∘ bad_iff.1), current]
        exact slot_waits k.hand ((freeSlot_none_iff s).2 full) s
      · have taken : repointTileSet h s = repointSet h i s := by
          rw [judged, if_neg (no ∘ bad_iff.1), current, ← beginLoad_set k.kind sets, ← takeSlot_free free]
          rfl
        rw [taken]
        have inside : ¬ outside ∧ ¬ badTile := not_or.1 no
        exact repointSet_set k.anchor k.expected k.hand current free (by omega) (by omega) (by omega) s
    · have zero_iff : zeroField h.params 7 5 = true ↔ ∀ k, 7 ≤ k → k < 12 → h.params.getD k 0 = 0 := zeroField_iff ..
      have judged : repointTileRemove h s = if !zeroField h.params 7 5 then refuseField s else if repointOutside h then refuseRange s
          else if (currentSlot s).isNone then refuseState s else takeSlot h s := by
        unfold repointTileRemove
        rw [(fits_iff ..).2 fits]
        rfl
      refine ⟨_, exec_repointTileRemove k removes, (repointTileRemove_only h s).settle s, fun set => ?_, fun zero => ?_⟩
      · obtain ⟨n, low, high, set⟩ := set
        rw [judged, if_pos (by rw [Bool.eq_false_iff.2 fun zero => set (zero_iff.1 zero n low high)]; rfl)]
        exact refused_slots k 4 0
      · have judged' := judged
        rw [zero_iff.2 zero, if_neg (by decide)] at judged'
        refine ⟨fun yes => ?_, fun no none' => ?_, fun c e no current => ⟨fun full => ?_, fun i free => ?_⟩⟩
        · rw [judged', if_pos (outside_iff.2 yes)]
          exact refused_slots k 5 0
        · rw [judged', if_neg (no ∘ outside_iff.1), none']
          exact refused_slots k 6 0
        · rw [judged', if_neg (no ∘ outside_iff.1), current]
          exact slot_waits k.hand ((freeSlot_none_iff s).2 full) s
        · have taken : repointTileRemove h s = repointRemove h i s := by
            rw [judged', if_neg (no ∘ outside_iff.1), current, ← beginLoad_remove k.kind removes, ← takeSlot_free free]
            rfl
          rw [taken]
          exact repointRemove_removed k.anchor k.expected k.hand current free s

end Sys2Proof.Machine

/-!
The Edition Record and the reads of a load (R82 to R86, R93, 12.4).
-/
namespace Sys2Proof.Machine

/-! ### The Edition Record, field by field (12.4) -/

theorem field_drop (bs : List Byte) (base offset n : Nat) : field (bs.drop base) offset n = field bs (base + offset) n := by
  unfold field
  rw [List.drop_drop]

theorem parseGroups_row (bs : List Byte) (g : Fin 16) : (parseGroups bs)[g] =
    { gain := signed 16 (field bs (12 * g) 2), leak := field bs (12 * g + 2) 4, low := signed 16 (field bs (12 * g + 6) 2)
      high := signed 16 (field bs (12 * g + 8) 2), slew := field bs (12 * g + 10) 2 } := by
  have row : (parseGroups bs)[g] = parseGroupRow (bs.drop (12 * g)) := ofFn_get ..
  rw [row]
  simp only [parseGroupRow, field16, field_drop, Nat.add_zero]

/-! ### The checks of the record (R83) -/

theorem GroupRow.valid_iff (r : GroupRow) : r.valid = true ↔ r.InRange := by
  simp only [GroupRow.valid, GroupRow.InRange, Bool.and_eq_true, decide_eq_true_eq, and_assoc]

theorem outEntryFails_iff (e : Edition) (n : Fin 4) : outEntryFails e n = true ↔ e.EntryFails n := by
  simp only [outEntryFails, Edition.EntryFails, Bool.and_eq_true, Bool.or_eq_true, decide_eq_true_eq, List.any_eq_true, overlaps_iff,
    mem_allFin, true_and]

theorem settingsInRange_iff (e : Edition) : settingsInRange e = true ↔ e.SettingsInRange := by
  simp only [settingsInRange, Edition.SettingsInRange, Bool.and_eq_true, decide_eq_true_eq, and_assoc]

/-- A row of the group table fails check 5. -/
def RowFails (groups : Vector GroupRow 16) (g : Nat) : Prop := ∃ r : Fin 16, r.val = g ∧ ¬ groups[r].InRange

theorem failingRow_none {groups : Vector GroupRow 16} : failingRow groups = none ↔ ∀ g, ¬ RowFails groups g := by
  rw [failingRow, List.findIdx?_eq_none_iff]
  simp only [Bool.not_eq_false', GroupRow.valid_iff]
  refine ⟨fun all g ⟨r, _, fails⟩ => fails (all _ ?_), fun none' x mem => ?_⟩
  · exact Vector.mem_toList_iff.2 (Vector.getElem_mem _)
  · obtain ⟨k, within, rfl⟩ := List.mem_iff_getElem.1 mem
    have bound : k < 16 := by simpa using within
    refine not_not.1 fun fails => none' k ⟨⟨k, bound⟩, rfl, ?_⟩
    simpa using fails

theorem toList_row (groups : Vector GroupRow 16) {g : Nat} (within : g < groups.toList.length) (bound : g < 16) :
    groups.toList[g] = groups[(⟨g, bound⟩ : Fin 16)] := Vector.getElem_toList ..

theorem failingRow_some {groups : Vector GroupRow 16} {g : Nat} (h : failingRow groups = some g) :
    RowFails groups g ∧ ∀ k, k < g → ¬ RowFails groups k := by
  obtain ⟨within, fails, first⟩ := List.findIdx?_eq_some_iff_getElem.1 h
  have bound : g < 16 := by simpa using within
  rw [toList_row groups within bound, Bool.not_eq_true', ← Bool.not_eq_true, GroupRow.valid_iff] at fails
  refine ⟨⟨⟨g, bound⟩, rfl, fails⟩, fun k below ⟨r, is, bad⟩ => ?_⟩
  subst is
  have good := first r.val below
  rw [toList_row groups _ r.isLt, Bool.not_eq_true', ← Bool.not_eq_true, not_not, GroupRow.valid_iff] at good
  exact bad good

theorem failingRow_eq {groups : Vector GroupRow 16} {g : Fin 16} (bad : ¬ groups[g].InRange) (first : ∀ k, k < g → groups[k].InRange) :
    failingRow groups = some g.val := by
  cases found : failingRow groups with
  | none => exact absurd ⟨g, rfl, bad⟩ (failingRow_none.1 found g)
  | some k =>
    obtain ⟨⟨r, is, fails⟩, earlier⟩ := failingRow_some found
    have notBefore : ¬ r < g := fun below => fails (first r below)
    have notAfter : ¬ g.val < k := fun below => earlier g below ⟨g, rfl, bad⟩
    exact congrArg some (by omega)

theorem failingRow_good {groups : Vector GroupRow 16} (good : ∀ g : Fin 16, groups[g].InRange) : failingRow groups = none :=
  failingRow_none.2 fun _ ⟨r, _, bad⟩ => bad (good r)

/-- The first entry of a list of numbers that passes a test, in their order. -/
theorem find_allFin {n : Nat} {q : Fin n → Bool} {m : Fin n} (h : (allFin n).find? q = some m) : q m = true ∧ ∀ k, k < m → q k = false := by
  obtain ⟨holds, before, after, list, none'⟩ := List.find?_eq_some_iff_append.1 h
  refine ⟨holds, fun k below => ?_⟩
  have sorted : (before ++ m :: after).Pairwise (· < ·) := by
    rw [← list]
    exact allFin_rising n
  have mem : k ∈ before ++ m :: after := by
    rw [← list]
    exact mem_allFin k
  obtain early | late := List.mem_append.1 mem
  · simpa using none' k early
  · obtain rfl | later := List.mem_cons.1 late
    · exact absurd below (lt_irrefl _)
    · exact absurd below (not_lt_of_gt (List.rel_of_pairwise_cons (List.pairwise_append.1 sorted).2.1 later))

/-- The record fails check 2; check 4 (R83). -/
def Edition.BadCounts (e : Edition) : Prop := e.slopeCount < 1 ∨ 16384 < e.slopeCount ∨ e.actuatorCount < 1 ∨ 1024 < e.actuatorCount

def BadAreas (s : State) (e : Edition) (l : Load) : Prop :=
  BadArea s l.tileList (16 * l.tileCount) ∨ BadArea s l.referenceAt (2 * e.slopeCount) ∨ BadArea s l.groupMapAt e.actuatorCount

/-- The seven checks one by one. -/
theorem recordFails_iff (s : State) (e : Edition) (l : Load) (c k : Nat) : RecordFails s e l c k ↔
    (c = 1 ∧ k = 0 ∧ e.number = 0) ∨ (c = 2 ∧ k = 0 ∧ e.BadCounts) ∨ (c = 3 ∧ k = 0 ∧ 1024 < l.tileCount)
      ∨ (c = 4 ∧ k = 0 ∧ BadAreas s e l) ∨ (c = 5 ∧ RowFails e.groups k) ∨ (c = 6 ∧ ∃ m : Fin 4, m.val = k ∧ e.EntryFails m)
      ∨ (c = 7 ∧ k = 0 ∧ ¬ e.SettingsInRange) := by
  unfold RecordFails
  split
  case h_8 five six one two three four seven =>
    refine ⟨False.elim, ?_⟩
    rintro (⟨rfl, rfl, _⟩ | ⟨rfl, rfl, _⟩ | ⟨rfl, rfl, _⟩ | ⟨rfl, rfl, _⟩ | ⟨rfl, _⟩ | ⟨rfl, _⟩ | ⟨rfl, rfl, _⟩)
    exacts [one rfl rfl, two rfl rfl, three rfl rfl, four rfl rfl, five rfl, six rfl, seven rfl rfl]
  all_goals simp [Edition.BadCounts, BadAreas, RowFails]

/-- The outcome of checks in the order of their numbers, each with its index. -/
def FirstFailure (fails : Nat → Nat → Prop) : Option (Nat × Nat) → Prop
  | none => ∀ c k, ¬ fails c k
  | some (check, index) => fails check index ∧ ∀ c k, c < check ∨ (c = check ∧ k < index) → ¬ fails c k

theorem FirstFailure.iff {fails : Nat → Nat → Prop} {x : Option (Nat × Nat)} (h : FirstFailure fails x) :
    (x = none ↔ ∀ c k, ¬ fails c k) ∧ ∀ check index, x = some (check, index) ↔ fails check index
      ∧ ∀ c k, c < check ∨ (c = check ∧ k < index) → ¬ fails c k := by
  match x, h with
  | none, h => exact ⟨⟨fun _ => h, fun _ => rfl⟩, fun check index => ⟨nofun, fun ⟨bad, _⟩ => absurd bad (h _ _)⟩⟩
  | some (c, k), h =>
    obtain ⟨bad, first⟩ := h
    refine ⟨⟨nofun, fun all => absurd bad (all _ _)⟩, fun check index => ⟨fun same => ?_, fun ⟨bad', first'⟩ => ?_⟩⟩
    · cases same
      exact ⟨bad, first⟩
    · have notBefore : ¬ (check < c ∨ (check = c ∧ index < k)) := fun early => first _ _ early bad'
      have notAfter : ¬ (c < check ∨ (c = check ∧ k < index)) := fun early => first' _ _ early bad
      have same : c = check ∧ k = index := by omega
      rw [same.1, same.2]

theorem recordCheck_first (s : State) (e : Edition) (l : Load) : FirstFailure (RecordFails s e l) (recordCheck s e l) := by
  have counts : (decide (e.slopeCount < 1) || decide (16384 < e.slopeCount) || decide (e.actuatorCount < 1)
      || decide (1024 < e.actuatorCount)) = true ↔ e.BadCounts := by
    simp only [Bool.or_eq_true, decide_eq_true_eq, Edition.BadCounts, or_assoc]
  have area : ∀ address size, areaFails s address size = true ↔ BadArea s address size := badArea_iff s
  have areas : (areaFails s l.tileList (16 * l.tileCount) || areaFails s l.referenceAt (2 * e.slopeCount)
      || areaFails s l.groupMapAt e.actuatorCount) = true ↔ BadAreas s e l := by
    simp only [Bool.or_eq_true, area, BadAreas, or_assoc]
  have view := recordFails_iff s e l
  unfold recordCheck
  split
  next one => exact ⟨(view 1 0).2 (.inl ⟨rfl, rfl, one⟩), fun c k before fails => by grind⟩
  next one =>
  split
  next two => exact ⟨(view 2 0).2 (.inr (.inl ⟨rfl, rfl, counts.1 two⟩)), fun c k before fails => by grind⟩
  next two =>
  split
  next three => exact ⟨(view 3 0).2 (.inr (.inr (.inl ⟨rfl, rfl, three⟩))), fun c k before fails => by grind⟩
  next three =>
  split
  next four => exact ⟨(view 4 0).2 (.inr (.inr (.inr (.inl ⟨rfl, rfl, areas.1 four⟩)))), fun c k before fails => by grind⟩
  next four =>
  split
  next row five =>
    obtain ⟨bad, first⟩ := failingRow_some five
    exact ⟨(view 5 row).2 (.inr (.inr (.inr (.inr (.inl ⟨rfl, bad⟩))))), fun c k before fails => by grind⟩
  next five =>
  have rows := failingRow_none.1 five
  split
  next n six =>
    obtain ⟨bad, first⟩ := find_allFin six
    have earlier : ∀ m, m.val < n.val → ¬ e.EntryFails m := fun m below fails => by
      rw [← outEntryFails_iff, first m below] at fails
      nomatch fails
    exact ⟨(view 6 n).2 (.inr (.inr (.inr (.inr (.inr (.inl ⟨rfl, n, rfl, (outEntryFails_iff e n).1 bad⟩)))))),
      fun c k before fails => by grind⟩
  next six =>
  have entries : ∀ m, ¬ e.EntryFails m := fun m fails => by
    have good := List.find?_eq_none.1 six m (mem_allFin m)
    exact good ((outEntryFails_iff e m).2 fails)
  have settings := settingsInRange_iff e
  split
  next seven => exact fun c k fails => by grind
  next seven => exact ⟨(view 7 0).2 (.inr (.inr (.inr (.inr (.inr (.inr ⟨rfl, rfl, fun good => seven (settings.2 good)⟩)))))),
      fun c k before fails => by grind⟩

/-! ### The reads of a load (R82 to R86) -/

section
variable {s : State} {a : Anchor} {next : Ticket} {h : Hand} {j : ReadJob} {l : Load} {e : Edition}

/-- A load goes on with a read of its next part. -/
structure LoadGoesOn (i : SlotId) (l' : Load) (e' : Edition) (address size : Nat) (s t : State) : Prop where
  slot : slotOf t i = .loading e'
  others : ∀ k, k ≠ i → slotOf t k = slotOf s k
  watch : t.watch = s.watch
  load : t.rce.load = some l'
  engine : EngineKept s t
  reads : ReadsOn .load address size s t

theorem loadRead_goesOn (i : SlotId) (l' : Load) (e' : Edition) (address size : Nat) (s b : State) :
    LoadGoesOn i l' e' address size s (settle b (loadRead l' address size (setSlot i (.loading e') s))) := by
  obtain ⟨engine, slot, others, load, watch⟩ := fill_slots i (.loading e') (some l') s
  have filled := fill_only i (.loading e') (some l') s
  have du : (setLoad (some l') (setSlot i (.loading e') s)).du = s.du := filled.same .du (by decide)
  have queue : (setLoad (some l') (setSlot i (.loading e') s)).arb.du = s.arb.du := filled.same .duQueue (by decide)
  unfold loadRead
  generalize setLoad (some l') (setSlot i (.loading e') s) = u at *
  have reads := duRead_only .load address size u
  have rce : (settle b (duRead .load address size u)).rce = u.rce := (settle_rce ..).trans (reads.same .rce (by decide))
  have map : (duRead .load address size u).watch = u.watch := reads.same .watch (by decide)
  refine ⟨(slotOf_congr rce i).trans slot, fun k other => (slotOf_congr rce k).trans (others k other), ?_, (congrArg Rce.load rce).trans load,
    engine.to rce, ⟨?_, ?_⟩⟩
  · exact (settle_watch ..).trans (map.trans watch)
  · rw [settle_du, ← du]
    rfl
  · rw [settle_arb_du, ← queue]
    rfl

/-- After a tile list entry the load goes on with the next, or with the reference vector. -/
theorem readTileEntry_goesOn (l' : Load) (i : SlotId) (e' : Edition) (n : Nat) (s b : State) :
    (n < l'.tileCount → LoadGoesOn i { l' with phase := .tile n } e' (l'.tileList + 16 * n) 16 s
        (settle b (readTileEntry l' e' n (setSlot i (.loading e') s))))
      ∧ (l'.tileCount ≤ n → LoadGoesOn i { l' with phase := .reference } e' l'.referenceAt (2 * e'.slopeCount) s
        (settle b (readTileEntry l' e' n (setSlot i (.loading e') s)))) := by
  unfold readTileEntry
  refine ⟨fun more => ?_, fun ended => ?_⟩
  · rw [if_pos more]
    exact loadRead_goesOn ..
  · rw [if_neg (Nat.not_lt.2 ended)]
    exact loadRead_goesOn ..

theorem exec_editionLoadReadDone (w : Working s a next h .load j) (load : s.rce.load = some l) (slot : slotOf s l.slot = .loading e) :
    (∀ offset, j.failed = some offset → exec .editionLoadReadDone s
        = .next (settle s (failLoad l.slot codeFailedMemory (BitVec.ofNat 32 offset) (raise .memoryError s))))
      ∧ (j.failed = none → exec .editionLoadReadDone s = .next (settle s (loadBytes l e j.bytes s))) := by
  have returned := (workingHand_eq w).2
  refine ⟨fun offset failed => ?_, fun whole => ?_⟩
  · change execEditionLoadReadDone s = _
    unfold execEditionLoadReadDone
    rw [load, returned]
    dsimp only
    rw [failed]
    rfl
  · change execEditionLoadReadDone s = _
    unfold execEditionLoadReadDone
    rw [load, returned]
    dsimp only
    rw [whole, slot]
    rfl

/-- A read of the load that met an uncorrectable error (R85). -/
theorem loadFailed_memory (w : Working s a next h .load j) (i : SlotId) (offset : Nat) :
    let t := settle s (failLoad i 11 (BitVec.ofNat 32 offset) (raise .memoryError s))
    attentionHas .memoryError t = true ∧ LoadFailed i s t ∧ Ended a next h 11 (BitVec.ofNat 32 offset) s t := by
  obtain ⟨engine, slot, others, load, watch⟩ := failLoad_failed i 11 (BitVec.ofNat 32 offset) (raise .memoryError s) s
  refine ⟨?_, ⟨engine, slot, fun k other => (others k other).trans (by cases k <;> rfl), load, watch⟩, ?_⟩
  · rw [attentionHas_settle, attentionHas_of_only (failLoad_only ..) (by decide), attentionHas_raise]
    simp
  · have only := fill_only i .empty none (raise .memoryError s)
    have run : (setLoad none (setSlot i .empty (raise .memoryError s))).run = (raise .memoryError s).run := only.same .run (by decide)
    have du : (setLoad none (setSlot i .empty (raise .memoryError s))).du = (raise .memoryError s).du := only.same .du (by decide)
    have queue : (setLoad none (setSlot i .empty (raise .memoryError s))).arb.du = (raise .memoryError s).arb.du :=
      only.same .duQueue (by decide)
    exact ended_of_endHand w.anchor w.expected w.hand run du queue 11 _

theorem tileEntryRead_eq (l : Load) (n : Nat) (e : Edition) (bs : List Byte) (s : State) : tileEntryRead l n e bs s =
    if positionFails e (field bs 0 1) (field bs 1 1) (signed 8 (field bs 2 1)) then failCheck l.slot 8 n s
    else if tileAddressFails s (field bs 4 4) then failCheck l.slot 9 n s
    else if (Store.find? e.directory (64 * field bs 1 1 + field bs 0 1)).isSome then failCheck l.slot 10 n s
    else match retiring s (field bs 4 4) with
      | some t => failLoad l.slot codeRefusedRetiring t s
      | none => readTileEntry l
          { e with directory := Store.insert e.directory (64 * field bs 1 1 + field bs 0 1)
                                  { address := field bs 4 4, exponent := signed 8 (field bs 2 1), taint := false } } (n + 1)
          (setSlot l.slot (.loading
            { e with directory := Store.insert e.directory (64 * field bs 1 1 + field bs 0 1)
                                    { address := field bs 4 4, exponent := signed 8 (field bs 2 1), taint := false } }) s) := rfl

end

/-- Settles O51: the record by `recordCheck_first`, each read of the load by its phase. -/
theorem editionLoads : Obligations.EditionLoads := by
  refine ⟨fun slot bs => ?_, fun s e l => (recordCheck_first s e l).iff, fun s a next h j l e w load slot => ?_⟩
  · intro at' e l
    exact ⟨⟨rfl, rfl, rfl, rfl, rfl, rfl⟩, ⟨rfl, rfl, rfl, rfl, rfl⟩, ⟨rfl, rfl, rfl, rfl, rfl⟩,
      fun n => ⟨congrArg OutEntry.first (ofFn_get ..), congrArg OutEntry.count (ofFn_get ..)⟩, rfl, parseGroups_row bs⟩
  · intro shown fails goesOn vectors
    have free : ¬ (slotOf s l.slot).isCurrent := by
      rw [slot]
      nofun
    have failed := fun check index : Nat => failLoad_ended w.anchor w.expected w.hand l.slot 10 (checkDetail check index) s
    have switched := fun e => switchTo_ended w.anchor w.expected w.hand free e s
    have going : ∀ {l' e' address size t}, LoadGoesOn l.slot l' e' address size s t → goesOn l' e' address size t :=
      fun ⟨slot, others, watch, load, engine, reads⟩ => ⟨slot, others, watch, load, engine, reads⟩
    obtain ⟨error, read⟩ := exec_editionLoadReadDone w load slot
    cases met : j.failed with
    | some offset =>
      obtain ⟨flag, ends, ended⟩ := loadFailed_memory w l.slot offset
      refine ⟨_, error offset met, ?_, ?_, nofun, nofun, nofun, nofun, nofun, nofun⟩
      · exact (((raise_only ..).andThen (failLoad_only ..)).among rfl).settle s
      · rintro k ⟨⟩
        exact ⟨flag, ends, ended⟩
    | none =>
      refine ⟨_, read met, ((loadBytes_only ..).settle s).mono (by decide), nofun, fun _ => ?_, fun _ phase => ?_, fun n _ phase => ?_,
        fun _ phase => ?_, fun _ phase => ?_, fun _ phase => ?_⟩
      · rw [settle_page_attention]
        exact (loadBytes_only ..).same .attention (by decide)
      · have step : loadBytes l e j.bytes s = recordRead l.slot j.bytes s := by
          unfold loadBytes
          rw [phase]
        rw [step]
        unfold recordRead
        dsimp only
        refine ⟨fun check index bad => ?_, fun good => ?_⟩
        · rw [bad]
          exact failed check index
        · rw [good]
          obtain ⟨more, done'⟩ := readTileEntry_goesOn (parseLoad l.slot j.bytes) l.slot (parseEdition j.bytes) 0 s s
          exact ⟨fun h => going (more h), fun h => going (done' h)⟩
      · have step : loadBytes l e j.bytes s = tileEntryRead l n e j.bytes s := by
          unfold loadBytes
          rw [phase]
        rw [step, tileEntryRead_eq]
        intro row column exponent address check8 check9 check10
        have eight : positionFails e row column exponent = true ↔ check8 := positionFails_iff ..
        have nine : tileAddressFails s address = true ↔ check9 := tileAddressFails_iff ..
        have ten : (Store.find? e.directory (64 * column + row)).isSome = true ↔ check10 := Option.isSome_iff_ne_none
        refine ⟨fun bad => ?_, fun ok bad => ?_, fun ok ok' bad => ?_, fun k ok ok' ok'' promised => ?_, fun ok ok' ok'' unpromised => ?_⟩
        · rw [if_pos (eight.2 bad)]
          exact failed 8 n
        · rw [if_neg (ok ∘ eight.1), if_pos (nine.2 bad)]
          exact failed 9 n
        · rw [if_neg (ok ∘ eight.1), if_neg (ok' ∘ nine.1), if_pos (ten.2 bad)]
          exact failed 10 n
        · rw [if_neg (ok ∘ eight.1), if_neg (ok' ∘ nine.1), if_neg (ok'' ∘ ten.1), promised]
          exact failLoad_ended w.anchor w.expected w.hand l.slot 8 k s
        · rw [if_neg (ok ∘ eight.1), if_neg (ok' ∘ nine.1), if_neg (ok'' ∘ ten.1), unpromised]
          obtain ⟨more, done'⟩ := readTileEntry_goesOn l l.slot
            { e with directory := Store.insert e.directory (64 * column + row)
                                    { address := address, exponent := exponent, taint := false } } (n + 1) s s
          exact ⟨fun h => going (more h), fun h => going (done' h)⟩
      · have step : loadBytes l e j.bytes s = referenceRead l e j.bytes s := by
          unfold loadBytes
          rw [phase]
        rw [step]
        exact going (loadRead_goesOn ..)
      · have step : loadBytes l e j.bytes s = groupMapRead l e j.bytes s := by
          unfold loadBytes
          rw [phase]
        rw [step]
        unfold groupMapRead
        dsimp only
        refine ⟨fun n bad => ?_, fun good => ?_⟩
        · rw [bad]
          exact failed 12 n
        · have none' : (j.bytes.map BitVec.toNat).findIdx? (fun g => 15 < g) = none := by
            refine List.findIdx?_eq_none_iff.2 fun g mem => ?_
            obtain ⟨b, byte, rfl⟩ := List.mem_map.1 mem
            exact decide_eq_false (Nat.not_lt.2 (good b byte))
          rw [none']
          exact switched _
      · have step : loadBytes l e j.bytes s = groupTableRead l e j.bytes s := by
          unfold loadBytes
          rw [phase]
        rw [step]
        unfold groupTableRead
        dsimp only
        refine ⟨fun g bad first => ?_, fun c old good current => ?_⟩
        · rw [failingRow_eq bad first]
          exact failed 5 g
        · rw [failingRow_good good, current]
          exact switched _

end Sys2Proof.Machine

/-!
The Probe Unit (R121 to R128): the notices of the engine, the cancel of an injection, and the copies of SET_PROBE_CYCLE.
-/
namespace Sys2Proof.Machine

/-! ### The notices (R127, R128) -/

/-- A source in force that a committed frame advances. -/
abbrev Pru.Advances (p : Pru) (committed : Bool) (x : ProbeSource) : Prop :=
  committed = true ∧ p.supply = some { source := x, inForce := true }

theorem Pru.notice_of {p : Pru} {committed : Bool} {x : ProbeSource} (h : p.Advances committed x) :
    p.notice committed = { p.advance x with supply := none } := by
  obtain ⟨rfl, supply⟩ := h
  unfold Pru.notice
  rw [supply]

theorem Pru.notice_idle {p : Pru} {committed : Bool} (h : ∀ x, x ≠ .none → ¬ p.Advances committed x) :
    p.notice committed = { p with supply := none } := by
  unfold Pru.notice
  split
  next src supply =>
    cases src with
    | none => rfl
    | injection => exact absurd ⟨rfl, supply⟩ (h .injection nofun)
    | cycle n => exact absurd ⟨rfl, supply⟩ (h (.cycle n) nofun)
  next => rfl

theorem Pru.advance_cycle {p : Pru} {m n left : Nat} (at' : p.position = some (n, left)) : p.advance (.cycle m) = { p with
    position := if 1 < left then some (n, left - 1)
      else
        let next := if n + 1 < p.cycle.length then n + 1 else 0
        some (next, (p.cycle[next]?.map CycleEntry.frames).getD 0) } := by
  change { p with position := p.position.map fun x : Nat × Nat => advancePosition p.cycle x.1 x.2 } = _
  rw [at', Option.map_some, advancePosition, apply_ite some]

theorem Pru.notice_supply (committed : Bool) (p : Pru) : (p.notice committed).supply = none := rfl

theorem exec_notice {cmd : Instr} {s : State} {committed : Bool} {rest : List Bool} (notices : s.wires.probeNotices = committed :: rest)
    (row : cmd = if committed then .commitNotice else .completionWithoutCommit) :
    exec cmd s = .next (settle s { s with pru := s.pru.notice committed, wires := { s.wires with probeNotices := rest } }) := by
  subst row
  have taken : noticeStep committed s
      = .next (settle s { s with pru := s.pru.notice committed, wires := { s.wires with probeNotices := rest } }) := by
    unfold noticeStep
    rw [notices]
    exact if_pos rfl
  cases committed with
  | false => exact taken
  | true => exact taken

/-! ### The cancel of an injection (R126) -/

theorem cancelInjection_pru (s : State) : (cancelInjection s).pru = { s.pru with
    injection := none
    supply := s.pru.supply.map fun x => if x.source = .injection then { x with inForce := false } else x } := by
  have same : ∀ x : Supply, (if x.source.isInjection then { x with inForce := false } else x)
      = if x.source = .injection then { x with inForce := false } else x := fun x => by
    refine if_congr ?_ rfl rfl
    cases x.source <;> simp [ProbeSource.isInjection]
  show { s.pru with injection := none, supply := s.pru.supply.map fun x : Supply => if x.source.isInjection then { x with inForce := false } else x } = _
  rw [funext same]

theorem injectProbeCancel_eq {h : Hand} {s : State} (fits : h.fits 12 10 2 = true) : injectProbeCancel h s
    = if !zeroField h.params 0 8 then refuseField s else if !isRunning s then refuseState s
      else match s.pru.injection with
        | some i => done (BitVec.ofNat 32 i.left) (cancelInjection s)
        | none => done 0 s := by
  unfold injectProbeCancel
  rw [fits]
  rfl

/-! ### The copies that wait (R123, R124) -/

/-- An empty cycle has been copied. -/
theorem copySuccess_empty (r : CopyRequest) (s : State) :
    (copySuccess r [] s).pru = { s.pru with
        cycle := [], length := none, position := none, staging := none, job := none
        supply := s.pru.supply.map fun x => if x.source.isCycle then { x with inForce := false } else x }
      ∧ (copySuccess r [] s).wires
        = { s.wires with ownerEnds := s.wires.ownerEnds ++ [{ ticket := r.ticket, code := 2, detail := 0 }] }
      ∧ (copySuccess r [] s).arb = s.arb := ⟨rfl, rfl, rfl⟩

/-- Two states agree in what the copies move. -/
structure SameCopies (u v : State) : Prop where
  pru : u.pru = v.pru
  wires : u.wires = v.wires
  queue : u.arb.du = v.arb.du

theorem runCopies_run (rs : List CopyRequest) {u v t : State} (before : SameCopies u v) (after : SameCopies t (runCopies rs v)) :
    CopiesRun rs u t := by
  induction rs generalizing u v with
  | nil =>
    refine ⟨after.pru.trans ?_, after.wires.trans before.wires.symm, after.queue.trans before.queue.symm⟩
    rw [before.pru]
    rfl
  | cons r rs ih =>
    unfold runCopies at after
    refine ⟨fun entries => ?_, fun empty => ?_⟩
    · rw [if_neg entries] at after
      obtain ⟨pru, wires, queue⟩ := after
      refine ⟨wires.trans before.wires.symm, ?_, ?_⟩
      · rw [queue, before.queue]
        rfl
      · rw [pru, before.pru]
        rfl
    · rw [if_pos empty] at after
      obtain ⟨pru, wires, arb⟩ := copySuccess_empty r v
      refine ih ⟨?_, ?_, ?_⟩ after
      · rw [pru, ← before.pru]
      · rw [wires, ← before.wires]
      · rw [arb]
        exact before.queue

theorem settle_copies (b e : State) : SameCopies (settle b e) e := ⟨settle_pru .., settle_wires .., settle_arb_du ..⟩

/-- The reads of the copies join behind what the Directive Unit has waiting. -/
theorem runCopies_joins (rs : List CopyRequest) (s : State) : ∃ more, (runCopies rs s).arb.du = s.arb.du ++ more := by
  induction rs generalizing s with
  | nil => exact ⟨[], (List.append_nil _).symm⟩
  | cons r rs ih =>
    unfold runCopies
    split
    · exact ih (copySuccess r [] s)
    · exact ⟨_, rfl⟩

/-! ### SET_PROBE_CYCLE joins (R123) -/

theorem enqueueCopy_busy {s : State} (busy : s.pru.staging.isSome = true) (r : CopyRequest) :
    enqueueCopy r s = mapPru (fun p => { p with waiting := p.waiting ++ [r] }) s := if_pos busy

theorem enqueueCopy_free {s : State} (free : s.pru.staging = none) (r : CopyRequest) :
    enqueueCopy r s = runCopies (s.pru.waiting ++ [r]) s := if_neg (by simp [free])

theorem runCopies_one_empty {r : CopyRequest} (empty : r.entries = 0) (s : State) :
    runCopies [r] s = mapPru (fun p => { p with waiting := [] }) (copySuccess r [] s) := by
  unfold runCopies
  rw [if_pos empty, runCopies]

theorem runCopies_one {r : CopyRequest} (entries : r.entries ≠ 0) (s : State) :
    runCopies [r] s = readTableEntry { request := r } (mapPru (fun p => { p with waiting := [] }) s) := by
  unfold runCopies
  rw [if_neg entries]

/-- A Probe Unit none of whose copies waits. -/
theorem Pru.waiting_idle {p : Pru} (idle : p.waiting = []) : { p with waiting := [] } = p := by rw [← idle]

theorem enqueueCopy_joins (r : CopyRequest) (s : State) : ∃ more, (enqueueCopy r s).arb.du = s.arb.du ++ more := by
  unfold enqueueCopy
  split
  · exact ⟨[], (List.append_nil _).symm⟩
  · exact runCopies_joins ..

section
variable {s : State} {a : Anchor} {next : Ticket} {h : Hand} (anchor : s.run.anchor = some a) (expected : s.du.expected = some next)
include anchor expected

/-- The directive in hand has joined the Deferred List, with reads of the Probe Unit behind it. -/
theorem joinedList_of {work : DeferredWork} {more : List Access} {t : State} (du : t.du = (joinList h work s).du)
    (queue : t.arb.du = (joinList h work s).arb.du ++ more) : JoinedList a next h work more s t := by
  rw [joinList_eq anchor expected] at du queue
  exact ⟨du, queue⟩

/-- What joining the list and the Probe Unit's waiting copies comes to, from any state `v` the list has been joined in. -/
theorem enqueueCopy_joined {v : State} (du : v.du = (joinList h .probeCycle s).du) (queue : v.arb.du = (joinList h .probeCycle s).arb.du)
    (pru : v.pru = s.pru) (wires : v.wires = s.wires) (b : State) :
    ProbeJoined a next h s (settle b (enqueueCopy (copyRequest h) v)) := by
  have only := enqueueCopy_only (copyRequest h) v
  have du' : (settle b (enqueueCopy (copyRequest h) v)).du = (joinList h .probeCycle s).du :=
    calc (settle b (enqueueCopy (copyRequest h) v)).du
      _ = (enqueueCopy (copyRequest h) v).du := settle_du ..
      _ = v.du := only.same .du (by decide)
      _ = (joinList h .probeCycle s).du := du
  obtain ⟨pru', wires', queue'⟩ := settle_copies b (enqueueCopy (copyRequest h) v)
  refine ⟨?_, fun busy => ?_, fun free idle empty => ?_, fun free idle entries => ?_⟩
  · obtain ⟨more, joins⟩ := enqueueCopy_joins (copyRequest h) v
    exact ⟨more, joinedList_of anchor expected du' (by rw [queue', joins, queue])⟩
  · have run := enqueueCopy_busy (by rw [pru]; exact busy) (copyRequest h)
    rw [run] at pru' wires' queue' du' ⊢
    refine ⟨joinedList_of anchor expected du' (by rw [queue', List.append_nil]; exact queue), wires'.trans wires, ?_⟩
    rw [pru', ← pru]
    rfl
  · have run : enqueueCopy (copyRequest h) v = mapPru (fun p => { p with waiting := [] }) (copySuccess (copyRequest h) [] v) := by
      rw [enqueueCopy_free (by rw [pru]; exact free), pru, idle, List.nil_append]
      exact runCopies_one_empty empty v
    obtain ⟨copied, told, arb⟩ := copySuccess_empty (copyRequest h) v
    have ended := Pru.waiting_idle (p := (copySuccess (copyRequest h) [] v).pru) (by rw [copied, pru]; exact idle)
    rw [run] at pru' wires' queue' du' ⊢
    refine ⟨joinedList_of anchor expected du' ?_, ?_, ?_⟩
    · rw [queue', List.append_nil, ← queue]
      exact congrArg Arbiter.du arb
    · rw [wires', ← wires]
      exact told
    · rw [pru', ← pru]
      exact ended.trans copied
  · have run : enqueueCopy (copyRequest h) v = readTableEntry { request := copyRequest h } (mapPru (fun p => { p with waiting := [] }) v) := by
      rw [enqueueCopy_free (by rw [pru]; exact free), pru, idle, List.nil_append]
      exact runCopies_one entries v
    rw [run] at pru' wires' queue' du' ⊢
    refine ⟨wires'.trans wires, joinedList_of anchor expected du' ?_, ?_⟩
    · rw [queue', ← queue]
      rfl
    · rw [pru', ← pru, ← Pru.waiting_idle (p := v.pru) (by rw [pru]; exact idle)]
      rfl

theorem joinProbe_joined (b : State) :
    ProbeJoined a next h s (settle b (enqueueCopy (copyRequest h) (joinList h .probeCycle s))) :=
  have joins := joinList_only h .probeCycle s
  enqueueCopy_joined anchor expected rfl rfl (joins.same .pru (by decide)) (joins.same .wires (by decide)) b

end

/-! ### SET_PROBE_CYCLE (R123) -/

theorem cycleOutside_iff (h : Hand) (s : State) : cycleOutside (copyRequest h) s = true ↔ 16 < field h.params 4 1 ∨ (field h.params 4 1 ≠ 0
    ∧ (field h.params 6 2 < 1 ∨ 1024 < field h.params 6 2 ∨ BadArea s (field h.params 0 4) (8 * field h.params 4 1))) := by
  unfold cycleOutside
  simp only [Bool.or_eq_true, Bool.and_eq_true, decide_eq_true_eq, bne_iff_ne, badArea_iff, or_assoc]
  rfl

/-- An empty cycle that still names a table or a length. -/
def emptyButSet (h : Hand) : Bool := field h.params 4 1 == 0 && (field h.params 0 4 != 0 || field h.params 6 2 != 0)

theorem emptyButSet_iff (h : Hand) :
    emptyButSet h = true ↔ field h.params 4 1 = 0 ∧ (field h.params 0 4 ≠ 0 ∨ field h.params 6 2 ≠ 0) := by
  simp [emptyButSet]

theorem setProbeCycle_eq {h : Hand} {s : State} (fits : h.fits 8 5 1 = true) : setProbeCycle h s
    = if emptyButSet h then refuseField s else if cycleOutside (copyRequest h) s then refuseRange s else joinProbe h s := by
  unfold setProbeCycle
  rw [fits]
  rfl

theorem hasRoom_iff (s : State) : hasRoom s = true ↔ s.du.deferred.length < 4 := decide_eq_true_iff

/-! ### A read of the copy has returned (R124) -/

/-- The copy of `g` ends with `code`, in the Probe Unit `pru`, before the copies that wait are taken up. -/
def copyEnded (g : Staging) (code : Nat) (detail : BitVec 32) (pru : Pru) (s : State) : State :=
  { s with
    pru := { pru with staging := none, job := none }
    wires := { s.wires with ownerEnds := s.wires.ownerEnds ++ [{ ticket := g.request.ticket, code := code, detail := detail }] } }

theorem copyFail_run (g : Staging) (code : Nat) (detail : BitVec 32) (b : State) {s u : State} (same : SameCopies s u) :
    CopiesRun s.pru.waiting (copyEnded g code detail s.pru s) (settle b (copyFail g.request code detail u)) := by
  refine runCopies_run (v := reportEnd g.request.ticket code detail (mapPru (fun p => { p with staging := none, job := none }) u))
    s.pru.waiting ⟨?_, ?_, ?_⟩ ?_
  · exact congrArg (fun p : Pru => { p with staging := none, job := none }) same.pru
  · unfold copyEnded reportEnd
    rw [same.wires]
    rfl
  · exact same.queue
  · rw [same.pru]
    exact settle_copies ..

theorem copySuccess_run (g : Staging) {copied : List CycleEntry} (some : copied ≠ []) (b s : State) :
    CopiesRun s.pru.waiting
      (copyEnded g 2 0
        { s.pru with
          cycle := copied, length := .some g.request.length, position := .some (0, (copied.head?.map CycleEntry.frames).getD 0)
          supply := s.pru.supply.map fun x => if x.source.isCycle then { x with inForce := false } else x } s)
      (settle b (runCopies s.pru.waiting (copySuccess g.request copied s))) := by
  refine runCopies_run (v := copySuccess g.request copied s) s.pru.waiting ⟨?_, rfl, rfl⟩ (settle_copies ..)
  cases copied with
  | nil => exact absurd rfl some
  | cons e rest => rfl

theorem tableEntryRead_eq (g : Staging) (bs : List Byte) (s : State) : tableEntryRead g bs s
    = if badArea s (field bs 0 4) (2 * g.request.length) then copyFail g.request 10 (checkDetail 1 g.copied.length) s
      else if field bs 6 2 = 0 then copyFail g.request 10 (checkDetail 2 g.copied.length) s
      else copyRead (field bs 0 4) (2 * g.request.length)
        (mapPru (fun p => { p with staging := some { g with entry := some (field16 bs 4, field bs 6 2) } }) s) := by
  unfold tableEntryRead badArea
  refine if_congr ?_ rfl rfl
  simp

theorem exec_probeCopyReadDone {s : State} {g : Staging} {j : ReadJob} (staging : s.pru.staging = some g) (job : s.pru.job = some j)
    (returned : j.left = 0) : exec .probeCopyReadDone s = .next (settle s (copyReturned g j s)) := by
  change execProbeCopyReadDone s = _
  unfold execProbeCopyReadDone
  rw [staging, job]
  exact if_pos (by simp [ReadJob.complete, returned])

theorem copyReturned_touches {s : State} (g : Staging) (j : ReadJob) (b : State) :
    Touches [.pru, .wires, .duQueue, .attention] s (settle b (copyReturned g j s)) :=
  ((copyReturned_only g j s).mono (by decide)).settle b

/-- The next table entry is read, after `e` has been copied. -/
theorem readTableEntry_next (g : Staging) (e : CycleEntry) (s : State) :
    let next := g.request.table + 8 * (g.copied.length + 1)
    let t := settle s (readTableEntry { g with copied := g.copied ++ [e] } s)
    t.wires = s.wires ∧ t.arb.du = s.arb.du ++ readAccesses .copy next 8
      ∧ t.pru = { s.pru with
          staging := some { request := g.request, copied := g.copied ++ [e] }, job := some (newJob .copy next 8) } := by
  have length : (g.copied ++ [e]).length = g.copied.length + 1 := by simp
  refine ⟨settle_wires .., (settle_arb_du ..).trans ?_, (settle_pru ..).trans ?_⟩
  · rw [← length]
    rfl
  · rw [← length]
    rfl

/-! ### The statement -/

/-- Settles O54: what each step of the Probe Unit's directives and copies leaves in the unit, case by case. -/
theorem probeUnit : Obligations.ProbeUnit := by
  refine ⟨?notices, ?cancel, ?cycle, ?copy⟩
  case notices =>
    intro cmd s committed rest notices row
    refine ⟨_, exec_notice notices row, (with_pru_wires_only _ _ s).settle s, settle_wires .., ?_, fun none cycles => ?_, fun i moves at' => ?_,
      fun m n left moves at' => ?_⟩
    all_goals rw [settle_pru]
    · exact Pru.notice_supply ..
    · refine Pru.notice_idle fun x real advances => ?_
      cases x with
      | none => exact real rfl
      | injection => exact none advances
      | cycle n => exact cycles n advances
    · have moved : s.pru.notice committed = _ := Pru.notice_of moves
      refine moved.trans ?_
      unfold Pru.advance
      rw [at']
      rfl
    · have moved : s.pru.notice committed = _ := Pru.notice_of moves
      refine moved.trans ?_
      rw [Pru.advance_cycle at']
  case cancel =>
    intro s a next h k fits form zero
    have judged := injectProbeCancel_eq (s := s) ((fits_iff ..).mpr fits)
    have zero_iff : zeroField h.params 0 8 = true ↔ zero := by simp [zeroField_iff, zero]
    refine ⟨_, exec_injectProbeCancel k form, ((injectProbeCancel_only h s).mono (by decide)).settle s, fun set => ?_, fun z rests => ?_,
      fun z runs free => ?_, fun i z runs busy => ?_⟩
    · rw [judged, if_pos (by simpa [← zero_iff] using set)]
      exact ⟨endHand_pru .., (refused_ended k 4 0).2⟩
    · rw [judged, if_neg (by simpa using zero_iff.mpr z), if_pos (by rw [Bool.not_eq_true', ← Bool.not_eq_true, isRunning_iff]; exact rests)]
      exact ⟨endHand_pru .., (refused_ended k 6 0).2⟩
    · rw [judged, if_neg (by simpa using zero_iff.mpr z), if_neg (by simpa [isRunning_iff] using runs), free]
      exact ⟨endHand_pru .., (refused_ended k 2 0).2⟩
    · rw [judged, if_neg (by simpa using zero_iff.mpr z), if_neg (by simpa [isRunning_iff] using runs), busy]
      exact ⟨ended_by k (cancelInjection_only s) (by decide) 2 _, (endHand_pru ..).trans (cancelInjection_pru s)⟩
  case cycle =>
    intro s a next h k fits table entries length emptySet outside good
    have judged := setProbeCycle_eq (s := s) ((fits_iff ..).mpr fits)
    refine ⟨_, exec_setProbeCycle k, (setProbeCycle_only h s).settle s, fun malformed => ?_, fun formed out => ?_, fun ⟨set, inside⟩ full => ?_,
      fun ⟨set, inside⟩ room => ?_⟩
    · rw [judged, if_pos ((emptyButSet_iff h).mpr malformed)]
      exact ⟨endHand_pru .., (refused_ended k 4 0).2⟩
    · rw [judged, if_neg (fun x => formed ((emptyButSet_iff h).mp x)), if_pos ((cycleOutside_iff h s).mpr out)]
      exact ⟨endHand_pru .., (refused_ended k 5 0).2⟩
    · rw [judged, if_neg (fun x => set ((emptyButSet_iff h).mp x)), if_neg (fun x => inside ((cycleOutside_iff h s).mp x))]
      have waits : joinProbe h s = waitForRoom s := if_neg (by rw [hasRoom_iff]; omega)
      rw [waits]
      exact ⟨settle_pru .., waits_of_setPhase k.hand rfl rfl _⟩
    · rw [judged, if_neg (fun x => set ((emptyButSet_iff h).mp x)), if_neg (fun x => inside ((cycleOutside_iff h s).mp x))]
      have joins : joinProbe h s = enqueueCopy (copyRequest h) (joinList h .probeCycle s) := if_pos ((hasRoom_iff s).mpr room)
      rw [joins]
      exact joinProbe_joined k.anchor k.expected s
  case copy =>
    intro s g j staging job returned index address frames bad ends fails
    refine ⟨_, exec_probeCopyReadDone staging job returned, copyReturned_touches g j s, fun offset failed => ?_, fun good entry => ?_,
      fun amplitude n good entry => ?_⟩
    · have step : copyReturned g j s = copyFail g.request 11 (BitVec.ofNat 32 offset) (raise .memoryError s) := by
        unfold copyReturned
        rw [failed]
        rfl
      rw [step]
      refine ⟨?_, copyFail_run g 11 _ s ⟨rfl, rfl, rfl⟩⟩
      rw [attentionHas_settle, attentionHas_of_only (copyFail_only ..) (by decide), attentionHas_raise]
      simp
    · have step : copyReturned g j s = tableEntryRead g j.bytes s := by
        unfold copyReturned
        rw [good, entry]
      rw [step, tableEntryRead_eq]
      refine ⟨fun b => ?_, fun b z => ?_, fun b f => ?_⟩
      · rw [if_pos ((badArea_iff ..).mpr b)]
        exact copyFail_run g 10 _ s ⟨rfl, rfl, rfl⟩
      · rw [if_neg (fun x => b ((badArea_iff ..).mp x)), if_pos z]
        exact copyFail_run g 10 _ s ⟨rfl, rfl, rfl⟩
      · rw [if_neg (fun x => b ((badArea_iff ..).mp x)), if_neg f]
        exact ⟨settle_wires .., settle_arb_du .., settle_pru ..⟩
    · have step : copyReturned g j s = patternRead g amplitude n j.bytes s := by
        unfold copyReturned
        rw [good, entry]
      rw [step]
      unfold patternRead
      refine ⟨fun more => ?_, fun last => ?_⟩
      · rw [if_pos (by simpa using more)]
        exact readTableEntry_next g _ s
      · rw [if_neg (by simpa using last)]
        exact copySuccess_run g (List.append_ne_nil_of_right_ne_nil _ (List.cons_ne_nil _ [])) s s

end Sys2Proof.Machine

/-!
The deferred kinds (R94, R95, R157 to R159): what a released slot does for a directive that waits for one.

A REPOINT_TILE with SET is taken up again, once a slot is free, with all of check 8, the range of its exponent too (R83, R88). A directive
that came to wait has passed the range checks of R87, so its exponent is in range; the statement asks nothing of the kind of the hand that
waits, and `TileSet` has the exponent of the copied entry whatever it is.
-/
namespace Sys2Proof.Machine

/-- An edition with one slope and one actuator. -/
def unitEdition : Edition := { slopeCount := 1, actuatorCount := 1 }

/-- A REPOINT_TILE with SET of row 0 and column 0, whose exponent is 100, waiting for a slot. -/
def wideExponent : Hand where
  ticket := 1
  kind := 3
  length := 16
  params := [2, 0, 0, 0, 1, 0, 0, 100, 0, 0, 0, 0, 0, 0, 0, 0]
  phase := .needsSlot

/-- The anchor of the part in which it waits. -/
def plainAnchor : Anchor where
  stripOffset := 0
  slots := 16
  firstTicket := 1
  interval := 1000
  telemetryOffset := 0
  telemetryCount := 0
  snapshotOffset := 0
  snapshotCount := 0
  streamReport := 0
  statusBlock := 0
  asideOffset := 0
  asideCount := 0

/-- The part with `wideExponent` in hand, slot A CURRENT, slot B EMPTY, and the report of the released slot on its way. -/
def slotReleased : State :=
  { State.reset with
    run := { anchor := some plainAnchor }
    rce := { slotA := .current unitEdition }
    du := { expected := some 2, activity := .waiting, hand := some wideExponent }
    wires := { State.reset.wires with slotRelease := true } }

/-- Check 8 refuses the exponent: the slot it has taken is EMPTY again, and slot A stays CURRENT. -/
theorem slotReleased_repoint :
    ∃ t, exec .slotReleaseReport slotReleased = .next t ∧ slotOf t .b = .empty := by
  refine ⟨settle slotReleased (takeRelease { slotReleased with wires := { slotReleased.wires with slotRelease := false } }), rfl, ?_⟩
  decide +kernel

/-- Refutes O52: the third part, at a REPOINT_TILE with SET that waits for a slot with an exponent out of range. With slot B free it fails
check 8, where the statement has its copied edition CURRENT in slot B. -/
theorem not_deferredDirectives : ¬ Obligations.DeferredDirectives := by
  intro holds
  obtain ⟨_, _, released, _⟩ := holds
  obtain ⟨t, runs, _, _, waited⟩ := released slotReleased plainAnchor (fun _ => false) rfl rfl nofun
  obtain ⟨_, _, _, begun⟩ := waited wideExponent rfl rfl
  obtain ⟨_, taken⟩ := begun .b rfl
  obtain ⟨_, set, _⟩ := taken .a unitEdition 2 rfl rfl
  obtain ⟨_, switched⟩ := (set rfl (by decide)).set (by decide) (by decide) rfl
  obtain ⟨t', runs', empty⟩ := slotReleased_repoint
  have same : t = t' := by injection runs.symm.trans runs'
  rw [← same, switched.current] at empty
  exact absurd empty nofun

end Sys2Proof.Machine

/-!
Outcomes and reports (R155, R163 to R169): what every effect leaves the writer and the rewrites it owes, and what the end of the step
makes of them; the end of an item; settled-through.
-/
namespace Sys2Proof.Machine

/-! ### What an effect leaves the Report Unit -/

/-- What an effect `e` from `s` leaves the counts, the rewrites owed and the writer: a rewrite that is newly owed is one that `status` or
`stream` allows, and an idle writer with nothing placed is left so. -/
structure ReportsKept (status stream : Prop) (s e : State) : Prop where
  serial : e.rpu.serial = s.rpu.serial
  counts : e.rpu.statusCount = s.rpu.statusCount ∧ e.rpu.streamCount = s.rpu.streamCount
  status : e.rpu.statusOwed = true → s.rpu.statusOwed = true ∨ status
  stream : e.rpu.streamOwed = true → s.rpu.streamOwed = true ∨ stream
  idle : s.rpu.writer = .idle → s.arb.rpu = [] → e.rpu.writer = .idle ∧ e.arb.rpu = []

section
variable {status stream : Prop} {s u e : State}

theorem ReportsKept.of_same (rpu : e.rpu = s.rpu) (queue : e.arb.rpu = s.arb.rpu) : ReportsKept status stream s e := by
  refine ⟨by rw [rpu], by rw [rpu]; exact ⟨rfl, rfl⟩, by rw [rpu]; exact .inl, by rw [rpu]; exact .inl, ?_⟩
  rw [rpu, queue]
  exact .intro

/-- A telemetry set joins the holding list, or is dropped. -/
theorem ReportsKept.of_sets {handed : Nat} {holding : List TelemetrySet} {dropped : BitVec 32}
    (rpu : e.rpu = { s.rpu with handed := handed, holding := holding, dropped := dropped }) (queue : e.arb.rpu = s.arb.rpu) :
    ReportsKept status stream s e := by
  refine ⟨by rw [rpu], by rw [rpu]; exact ⟨rfl, rfl⟩, by rw [rpu]; exact .inl, by rw [rpu]; exact .inl, ?_⟩
  rw [rpu, queue]
  exact .intro

theorem ReportsKept.of_only {ps : List Part} (only : OnlyChanges ps s e) (apart : apartParts [.rpu, .rpuQueue] ps = true) :
    ReportsKept status stream s e :=
  .of_same (only.same .rpu (apartParts_iff.mp apart .rpu (by decide)))
    (only.same .rpuQueue (apartParts_iff.mp apart .rpuQueue (by decide)))

theorem ReportsKept.trans (h : ReportsKept status stream s u) (k : ReportsKept status stream u e) : ReportsKept status stream s e where
  serial := k.serial.trans h.serial
  counts := ⟨k.counts.1.trans h.counts.1, k.counts.2.trans h.counts.2⟩
  status := fun owed => (k.status owed).elim h.status .inr
  stream := fun owed => (k.stream owed).elim h.stream .inr
  idle := fun idle placed => (h.idle idle placed).elim k.idle

/-! ### Grants -/

theorem sealSnapshot_kept (s : State) : ReportsKept status stream s (sealSnapshot s) := by
  unfold sealSnapshot
  split
  · next writer _ => exact ⟨rfl, ⟨rfl, rfl⟩, .inl, .inl, fun idle => absurd (idle.symm.trans writer) nofun⟩
  · exact .of_same rfl rfl

theorem written_kept (a : Access) (s : State) : ReportsKept status stream s (written a s) := by
  unfold written
  split
  · exact .of_only (watchWrite_only ..) rfl
  · exact .of_same rfl rfl
  · exact .of_same rfl rfl
  · exact .of_same rfl rfl
  · exact sealSnapshot_kept s
  · exact .of_same rfl rfl

theorem deliver_kept (a : Access) (bs : List Byte) (s : State) : ReportsKept status stream s (deliver a bs s) := by
  unfold deliver
  split
  case h_7 => exact .of_only (hostReturn_only ..) rfl
  all_goals exact .of_same rfl rfl

theorem deliverError_kept (a : Access) (s : State) : ReportsKept status stream s (deliverError a s) := by
  unfold deliverError
  split
  case h_7 => exact .of_only ((raise_only ..).andThen (hostReturn_only ..)) rfl
  all_goals exact .of_same rfl rfl

theorem perform_kept (a : Access) (s : State) : ReportsKept status stream s (perform a s) := by
  have read : ReportsKept status stream s (readGranule a s).2 := .of_only (readGranule_only a s) rfl
  unfold perform
  split
  · split
    · next r => rw [r] at read; exact read.trans (deliver_kept ..)
    · next r => rw [r] at read; exact read.trans (deliverError_kept ..)
  · exact .trans (.of_only (writeGranule_only ..) rfl) (written_kept ..)

theorem grantRotation_kept (met : CellError) (s : State) : ReportsKept status stream s (grantRotation met s) := by
  unfold grantRotation
  split
  · exact .of_same rfl rfl
  · next c _ =>
    split
    · exact .of_same rfl rfl
    · next a rest waiting =>
      refine .trans (.trans ?_ (.of_only (meetError_only met a.granule _) rfl)) (perform_kept a _)
      cases c with
      | rpu => exact ⟨rfl, ⟨rfl, rfl⟩, .inl, .inl, fun _ placed => absurd (placed.symm.trans waiting) nofun⟩
      | _ => exact .of_same rfl rfl

theorem grant_kept (met : CellError) (s : State) : ReportsKept status stream s (grant met s) := by
  have counted : ∀ n k g, ReportsKept status stream s (grantTile met k g (setTileRun n s)) := fun n k g => by
    refine .trans (.of_same (e := setTileRun n s) rfl rfl) ?_
    unfold grantTile
    split
    · exact .of_same rfl rfl
    · exact .of_only (((meetError_only ..).andThen (readGranule_only ..)).andThen ((with_wires_only _ _).andThen (mapFrame_only ..))) rfl
  unfold grant
  split
  · exact grantRotation_kept ..
  · split
    · exact counted ..
    · split
      · exact counted ..
      · exact grantRotation_kept ..

/-! ### The other effects on the Report Unit -/

theorem completeFrame_kept (late : List (Fin 1024)) (f : FrameContext) (s : State) :
    ReportsKept status stream s (completeFrame late f s) := by
  have queue : (completeFrame late f s).arb.rpu = s.arb.rpu := (completeFrame_only late f s).same .rpuQueue (by decide)
  obtain ⟨room, full⟩ := completeFrame_rpu late f s
  rcases Nat.lt_or_ge s.rpu.holding.length 4 with free | none
  · exact .of_sets (room free) queue
  · obtain ⟨dropped, _⟩ := full none
    exact .of_sets dropped queue

theorem clearStreamErrors_kept (x : Hand) (s : State) : ReportsKept status True s (clearStreamErrors x s) := by
  unfold clearStreamErrors
  split
  · exact .of_only (refuseField_only s) rfl
  · refine .trans (.of_only ((clearCounters_only (field x.params 0 2) s).andThen (clearLinks_only (field x.params 2 1) _)) rfl)
      (.trans ?_ (.of_only (done_only 0 _) rfl))
    exact ⟨rfl, ⟨rfl, rfl⟩, .inl, fun _ => .inr trivial, .intro⟩

theorem setTelemetry_kept (x : Hand) (s : State) : ReportsKept True stream s (setTelemetry x s) := by
  unfold setTelemetry
  split
  · exact .of_only (refuseField_only s) rfl
  · refine .trans ?_ (.of_only (done_only ..) rfl)
    exact ⟨rfl, ⟨rfl, rfl⟩, fun _ => .inr trivial, .inl, .intro⟩

theorem anchorRead_kept (j : ReadJob) (s : State) : ReportsKept True True s (anchorRead j s) := by
  unfold anchorRead
  split
  · exact .of_same rfl rfl
  · split
    · exact ⟨rfl, ⟨rfl, rfl⟩, fun _ => .inr trivial, fun _ => .inr trivial, .intro⟩
    · exact .of_same rfl rfl

theorem endItem_kept (s : State) : ReportsKept True True s (endItem s) := by
  unfold endItem
  split
  · exact ⟨rfl, ⟨rfl, rfl⟩, fun _ => .inr trivial, fun _ => .inr trivial, fun _ placed => ⟨rfl, placed⟩⟩
  · exact ⟨rfl, ⟨rfl, rfl⟩, .inl, .inl, fun _ placed => ⟨rfl, placed⟩⟩

end

/-! ### Every command -/

/-- The commands that owe a rewrite of the Part Status Block of their own (R163, R166, R168). -/
abbrev owesStatus (c : Instr) : Prop := c ∈ [.anchorReadDone, .writerItemEnd, .setTelemetry]

/-- The commands that owe a rewrite of the Stream Report of their own (R36, R163, R166). -/
abbrev owesStreams (c : Instr) : Prop := c ∈ [.anchorReadDone, .writerItemEnd, .clearStreamErrors]

/-- The outcome of a command that leaves an anchor loaded: the state as it was, or the reports of an effect that keeps the Report Unit. -/
def ReportsOutcome (c : Instr) (s : State) (r : Result) : Prop :=
  r = .next s ∨ ∃ p e, r = finish { s with page := p } e ∧ (e.run.anchor = none ∨ ReportsKept (owesStatus c) (owesStreams c) s e)

theorem ReportsOutcome.finish {c : Instr} {s e : State} (kept : ReportsKept (owesStatus c) (owesStreams c) s e) :
    ReportsOutcome c s (finish s e) := .inr ⟨s.page, e, rfl, .inr kept⟩

theorem ReportsOutcome.fresh {c : Instr} {s e : State} (none : e.run.anchor = none) : ReportsOutcome c s (Machine.finish s e) :=
  .inr ⟨s.page, e, rfl, .inl none⟩

theorem ReportsKept.weaken {p q p' q' : Prop} {s e : State} (h : ReportsKept p q s e) (status : p → p') (stream : q → q') :
    ReportsKept p' q' s e :=
  ⟨h.serial, h.counts, fun owed => (h.status owed).imp_right status, fun owed => (h.stream owed).imp_right stream, h.idle⟩

/-- The commands whose effect changes the Report Unit or its queue. -/
theorem reportCommand_outcome {c : Instr} {s : State} (changes : apartParts [.rpu, .rpuQueue] (effectParts c) = false) :
    ReportsOutcome c s (exec c s) := by
  have loaded : ∀ u : State, u.run.anchor = none → (beginRelease u).run.anchor = none := fun u none => by
    have run : (beginRelease u).run = u.run := (beginRelease_only u).same .run (by decide)
    rw [run]
    exact none
  cases c
  case powerOn | fundamentalReset | hotReset | functionLevelReset => exact .fresh (loaded _ rfl)
  case partReset =>
    change ReportsOutcome _ s (execPartReset s)
    unfold execPartReset partResetCommand
    split
    · exact .finish (.of_only (refuseRun_only _ s) rfl)
    · exact .fresh (loaded _ rfl)
  case anchorReadDone =>
    change ReportsOutcome _ s (execAnchorReadDone s)
    unfold execAnchorReadDone
    split
    · exact .finish ((anchorRead_kept _ s).weaken (fun _ => by decide) (fun _ => by decide))
    · exact .inl rfl
  case granuleGrant met => exact .finish (.trans (.of_only (takeTaints_only s) rfl) (grant_kept met _))
  case frameCompletion late =>
    change ReportsOutcome _ s (execFrameCompletion late s)
    unfold execFrameCompletion
    split
    · split
      · exact .finish (.trans (.of_only (takeGuards_only s) rfl) (.trans (completeFrame_kept late _ _) (.of_only (noteQuiet_only ..) rfl)))
      · exact .inl rfl
    · exact .inl rfl
  case clearStreamErrors =>
    change ReportsOutcome _ s (execClearStreamErrors s)
    unfold execClearStreamErrors
    split
    · exact .finish ((clearStreamErrors_kept _ s).weaken id (fun _ => by decide))
    · exact .inl rfl
  case setTelemetry =>
    change ReportsOutcome _ s (execSetTelemetry s)
    unfold execSetTelemetry
    split
    · exact .finish ((setTelemetry_kept _ s).weaken (fun _ => by decide) id)
    · exact .inl rfl
  case writerItemEnd =>
    change ReportsOutcome _ s (execWriterItemEnd s)
    unfold execWriterItemEnd
    split
    · exact .finish ((endItem_kept s).weaken (fun _ => by decide) (fun _ => by decide))
    · exact .inl rfl
  all_goals exact absurd (show true = false from changes) nofun

theorem exec_reports {c : Instr} {s t : State} (wf : c.wellFormed = true) (next : exec c s = .next t) :
    ReportsOutcome c s (exec c s) := by
  cases changes : apartParts [.rpu, .rpuQueue] (effectParts c) with
  | false => exact reportCommand_outcome changes
  | true =>
    obtain stay | ⟨p, e, finished, only, _⟩ := exec_reaches (plainCommand_of_wellFormed wf) (insideWindow_of_next next) s
    · exact .inl stay
    · exact .inr ⟨p, e, finished, .inr (.of_only only changes)⟩

/-! ### What the end of the step makes of it (R163, R164, R169) -/

theorem kickWriter_statusOwed {u : State} {a : Anchor} (anchor : u.run.anchor = some a) :
    StatusOwed u (kickWriter u) ↔ u.rpu.statusOwed = true := by
  have still : ∀ t : State, t.rpu.statusOwed = u.rpu.statusOwed → t.rpu.statusCount = u.rpu.statusCount →
      (StatusOwed u t ↔ u.rpu.statusOwed = true) := fun t owed count => by
    unfold StatusOwed
    rw [owed, count]
    exact ⟨fun h => h.elim id fun ⟨_, risen⟩ => absurd risen (ne_risen _), .inl⟩
  obtain ⟨_, same⟩ | ⟨_, x, xs, _, same⟩ | ⟨_, _, _, same⟩ | ⟨_, _, _, owed, same⟩ | ⟨_, _, _, _, same⟩ := kickWriter_cases u a anchor
  · rw [same]
    exact still u rfl rfl
  · rw [same]
    exact still _ rfl rfl
  · rw [same]
    exact still _ rfl rfl
  · rw [same, owed]
    exact ⟨fun _ => rfl, fun _ => .inr ⟨rfl, rfl⟩⟩
  · rw [same]
    exact still u rfl rfl

theorem kickWriter_streamOwed {u : State} {a : Anchor} (anchor : u.run.anchor = some a) :
    StreamReportOwed u (kickWriter u) ↔ u.rpu.streamOwed = true := by
  have still : ∀ t : State, t.rpu.streamOwed = u.rpu.streamOwed → t.rpu.streamCount = u.rpu.streamCount →
      (StreamReportOwed u t ↔ u.rpu.streamOwed = true) := fun t owed count => by
    unfold StreamReportOwed
    rw [owed, count]
    exact ⟨fun h => h.elim id fun ⟨_, risen⟩ => absurd risen (ne_risen _), .inl⟩
  obtain ⟨_, same⟩ | ⟨_, x, xs, _, same⟩ | ⟨_, _, owed, same⟩ | ⟨_, _, _, _, same⟩ | ⟨_, _, _, _, same⟩ := kickWriter_cases u a anchor
  · rw [same]
    exact still u rfl rfl
  · rw [same]
    exact still _ rfl rfl
  · rw [same, owed]
    exact ⟨fun _ => rfl, fun _ => .inr ⟨rfl, rfl⟩⟩
  · rw [same]
    exact still _ rfl rfl
  · rw [same]
    exact still u rfl rfl

theorem kickWriter_view (u : State) :
    reportedStatus (kickWriter u) = reportedStatus u ∧ reportedStates (kickWriter u) = reportedStates u := by
  unfold kickWriter
  split
  · split
    · exact ⟨rfl, rfl⟩
    · split
      · exact ⟨rfl, rfl⟩
      · split <;> exact ⟨rfl, rfl⟩
  · exact ⟨rfl, rfl⟩

/-- The fields of the block differ where the ones reported do, and where the serials agree nowhere else. -/
theorem statusView_ne {s e : State} (serial : e.rpu.serial = s.rpu.serial) :
    statusView s ≠ statusView e ↔ ¬ reportedStatus e = reportedStatus s := by
  refine not_congr ⟨fun same => ?_, fun same => ?_⟩
  · unfold reportedStatus
    rw [same]
  · have both : ∀ x : State, statusView x = { reportedStatus x with serial := x.rpu.serial } := fun _ => rfl
    rw [both s, both e, same, serial]

/-- The writer after the step `t`, which was idle before it in `s`, with nothing placed: it has taken the first item that waits (R163). -/
structure WriterTakes (a : Anchor) (s t : State) : Prop where
  telemetry : t.rpu.holding ≠ [] → t.rpu.writer = .snapshot ∨ t.rpu.writer = .telemetry
  streams : t.rpu.holding = [] → StreamReportOwed s t → StreamReportTaken a s t
  status : t.rpu.holding = [] → ¬ StreamReportOwed s t → StatusOwed s t → StatusTaken a s t
  rests : t.rpu.holding = [] → ¬ StreamReportOwed s t → ¬ StatusOwed s t → t.rpu.writer = .idle ∧ t.arb.rpu = []

theorem takeTelemetry_writer (a : Anchor) (x : TelemetrySet) (u : State) :
    (takeTelemetry a x u).rpu.writer = .snapshot ∨ (takeTelemetry a x u).rpu.writer = .telemetry := by
  obtain ⟨_, _, plain, snapshot⟩ := takeTelemetry_taken a x u
  by_cases due : SnapshotDue u.rpu
  · obtain ⟨writer, _⟩ := snapshot due
    exact .inl writer
  · obtain ⟨writer, _⟩ := plain due
    exact .inr writer

theorem kickWriter_takes {u : State} {a : Anchor} (anchor : u.run.anchor = some a) (idle : u.rpu.writer = .idle)
    (placed : u.arb.rpu = []) : WriterTakes a u (kickWriter u) := by
  have streams := kickWriter_streamOwed anchor
  have status := kickWriter_statusOwed anchor
  obtain ⟨busy, _⟩ | ⟨_, x, xs, holding, same⟩ | ⟨_, holding, owed, same⟩ | ⟨_, holding, none, owed, same⟩
    | ⟨_, holding, none, none', same⟩ := kickWriter_cases u a anchor
  · exact absurd idle busy
  · have some : (kickWriter u).rpu.holding ≠ [] := by
      rw [same]
      exact fun none => absurd (holding.symm.trans none) nofun
    refine ⟨fun _ => ?_, fun none => absurd none some, fun none => absurd none some, fun none => absurd none some⟩
    rw [same]
    exact takeTelemetry_writer a x u
  · have empty : (kickWriter u).rpu.holding = [] := by
      rw [same]
      exact holding
    refine ⟨fun some => absurd empty some, fun _ _ => ?_, fun _ no => absurd (streams.mpr owed) no, fun _ no => absurd (streams.mpr owed) no⟩
    rw [same]
    exact takeStreamReport_taken a u
  · have empty : (kickWriter u).rpu.holding = [] := by
      rw [same]
      exact holding
    refine ⟨fun some => absurd empty some, fun _ owes => ?_, fun _ _ _ => ?_, fun _ _ no => absurd (status.mpr owed) no⟩
    · exact absurd (none.symm.trans (streams.mp owes)) nofun
    · rw [same]
      exact takeStatus_taken a u
  · have empty : (kickWriter u).rpu.holding = [] := by
      rw [same]
      exact holding
    refine ⟨fun some => absurd empty some, fun _ owes => ?_, fun _ _ owes => ?_, fun _ _ _ => ?_⟩
    · exact absurd (none.symm.trans (streams.mp owes)) nofun
    · exact absurd (none'.symm.trans (status.mp owes)) nofun
    · rw [same]
      exact ⟨idle, placed⟩

/-- The writer has taken its item from a Report Unit with the counts of `s`. -/
theorem WriterTakes.from {a : Anchor} {s u t : State} (h : WriterTakes a u t)
    (counts : u.rpu.statusCount = s.rpu.statusCount ∧ u.rpu.streamCount = s.rpu.streamCount) (queue : u.arb.rpu = s.arb.rpu) :
    WriterTakes a s t := by
  obtain ⟨status, stream⟩ := counts
  have owedStream : StreamReportOwed u t ↔ StreamReportOwed s t := by
    unfold StreamReportOwed
    rw [stream]
  have owedStatus : StatusOwed u t ↔ StatusOwed s t := by
    unfold StatusOwed
    rw [status]
  refine ⟨h.telemetry, fun none owed => ?_, fun none no owed => ?_, fun none no no' => ?_⟩
  · obtain ⟨writer, count, writes⟩ := h.streams none (owedStream.mpr owed)
    exact ⟨writer, by rw [count, stream], by rw [← queue]; exact writes⟩
  · obtain ⟨writer, count, writes⟩ := h.status none (mt owedStream.mp no) (owedStatus.mpr owed)
    exact ⟨writer, by rw [count, status], by rw [← queue]; exact writes⟩
  · exact h.rests none (mt owedStream.mp no) (mt owedStatus.mp no')

/-- What a step from `s` to `t` makes of the rewrites owed and of an idle writer, where the rewrites that `status` and `stream` allow may
be owed by the command itself. -/
structure RewritesOwed (a : Anchor) (status stream : Prop) (s t : State) : Prop where
  changed : ¬ StatusSame s t → StatusOwed s t
  only : StatusOwed s t → s.rpu.statusOwed = true ∨ ¬ StatusSame s t ∨ status
  moved : ¬ StreamReportSame s t → StreamReportOwed s t
  onlyStreams : StreamReportOwed s t → s.rpu.streamOwed = true ∨ ¬ StreamReportSame s t ∨ stream
  takes : WriterLaw s → s.rpu.writer = .idle → WriterTakes a s t

theorem rewritesOwed_same {a : Anchor} {s : State} (status stream : Prop) (anchor : s.run.anchor = some a) :
    RewritesOwed a status stream s s := by
  have owedStatus : StatusOwed s s → s.rpu.statusOwed = true := fun h => h.elim id fun ⟨_, count⟩ => absurd count (ne_risen _)
  have owedStream : StreamReportOwed s s → s.rpu.streamOwed = true := fun h => h.elim id fun ⟨_, count⟩ => absurd count (ne_risen _)
  refine ⟨fun changed => absurd ((statusSame_iff s s).mpr rfl) changed, fun owed => .inl (owedStatus owed),
    fun moved => absurd ((streamReportSame_iff s s).mpr rfl) moved, fun owed => .inl (owedStream owed), fun law idle => ?_⟩
  obtain ⟨holding, streams, status⟩ := law.waits (by rw [anchor]; rfl) idle
  refine ⟨fun some => absurd holding some, fun _ owed => ?_, fun _ _ owed => ?_, fun _ _ _ => ⟨idle, law.placed idle⟩⟩
  · exact absurd (streams.symm.trans (owedStream owed)) nofun
  · exact absurd (status.symm.trans (owedStatus owed)) nofun

theorem rewritesOwed_settle {a : Anchor} {status stream : Prop} {s e : State} (p : Page) (anchor : e.run.anchor = some a)
    (kept : ReportsKept status stream s e) : RewritesOwed a status stream s (settle { s with page := p } e) := by
  obtain ⟨page, owed, owed', settled, rewrites, rewrites'⟩ := settle_eq { s with page := p } e
  obtain ⟨serial, counts, keptStatus, keptStream, keptIdle⟩ := kept
  have loaded : e.run.anchor.isSome = true := by rw [anchor]; rfl
  rw [settled]
  generalize unit : { e with page := page, rpu := { e.rpu with statusOwed := owed, streamOwed := owed' } } = u
  have anchorU : u.run.anchor = some a := by rw [← unit]; exact anchor
  have countsU : u.rpu.statusCount = s.rpu.statusCount ∧ u.rpu.streamCount = s.rpu.streamCount := by rw [← unit]; exact counts
  have ownOwed : u.rpu.statusOwed = owed ∧ u.rpu.streamOwed = owed' := by rw [← unit]; exact ⟨rfl, rfl⟩
  have statusOwed : StatusOwed s (kickWriter u) ↔ owed = true := by
    rw [← ownOwed.1, ← kickWriter_statusOwed anchorU]
    unfold StatusOwed
    rw [countsU.1]
  have streamOwed : StreamReportOwed s (kickWriter u) ↔ owed' = true := by
    rw [← ownOwed.2, ← kickWriter_streamOwed anchorU]
    unfold StreamReportOwed
    rw [countsU.2]
  have viewU : reportedStatus u = reportedStatus e ∧ reportedStates u = reportedStates e := by rw [← unit]; exact ⟨rfl, rfl⟩
  have statusSame : ¬ StatusSame s (kickWriter u) ↔ statusView s ≠ statusView e := by
    rw [statusView_ne serial, statusSame_iff, (kickWriter_view u).1, viewU.1]
  have streamSame : ¬ StreamReportSame s (kickWriter u) ↔ reportedStates s ≠ reportedStates e := by
    rw [streamReportSame_iff, (kickWriter_view u).2, viewU.2]
    exact not_congr eq_comm
  have owedIff : owed = true ↔ e.rpu.statusOwed = true ∨ statusView s ≠ statusView e := by
    rw [rewrites, loaded]
    simp only [Bool.true_and, Bool.or_eq_true, decide_eq_true_eq]
    rfl
  have owedIff' : owed' = true ↔ e.rpu.streamOwed = true ∨ reportedStates s ≠ reportedStates e := by
    rw [rewrites', loaded]
    simp only [Bool.true_and, Bool.or_eq_true, decide_eq_true_eq]
    rfl
  refine ⟨fun changed => ?_, fun owes => ?_, fun moved => ?_, fun owes => ?_, fun law idle => ?_⟩
  · exact statusOwed.mpr (owedIff.mpr (.inr (statusSame.mp changed)))
  · obtain own | changed := owedIff.mp (statusOwed.mp owes)
    · exact (keptStatus own).imp_right .inr
    · exact .inr (.inl (statusSame.mpr changed))
  · exact streamOwed.mpr (owedIff'.mpr (.inr (streamSame.mp moved)))
  · obtain own | moved := owedIff'.mp (streamOwed.mp owes)
    · exact (keptStream own).imp_right .inr
    · exact .inr (.inl (streamSame.mpr moved))
  · have placed := law.placed idle
    obtain ⟨idleE, placedE⟩ := keptIdle idle placed
    have idleU : u.rpu.writer = .idle ∧ u.arb.rpu = [] := by rw [← unit]; exact ⟨idleE, placedE⟩
    exact (kickWriter_takes anchorU idleU.1 idleU.2).from countsU (idleU.2.trans placed.symm)

theorem exec_rewritesOwed {c : Instr} {s t : State} {a : Anchor} (wf : c.wellFormed = true) (next : exec c s = .next t)
    (anchor : t.run.anchor = some a) : RewritesOwed a (owesStatus c) (owesStreams c) s t := by
  obtain stay | ⟨p, e, finished, kept⟩ := exec_reports wf next
  · cases stay.symm.trans next
    exact rewritesOwed_same _ _ anchor
  · cases finished.symm.trans next
    rw [settle_run] at anchor
    obtain none | kept := kept
    · exact absurd (none.symm.trans anchor) nofun
    · exact rewritesOwed_settle p anchor kept

/-! ### Settled-through (R155) -/

/-- The tickets of final outcomes that are still to be written, and settled-through behind them. -/
theorem settleTickets_eq (ts : List Ticket) (s : State) :
    let unsettled := s.du.unsettled.filter fun t => decide (t ∉ ts)
    let settled := settledValue { s.du with unsettled := unsettled }
    settleTickets ts s = raiseIf (decide (settled ≠ s.du.settledThrough)) .settled
      { s with du := { s.du with unsettled := unsettled, settledThrough := settled } } := by
  have same : (fun t => !ts.contains t) = fun t => decide (t ∉ ts) := by
    funext t
    simp
  unfold settleTickets
  rw [same]

theorem exec_outcomeWriteDone {s : State} {ts : List Ticket} {rest : List (List Ticket)} (written : s.wires.outcomesWritten = ts :: rest) :
    exec .outcomeWriteDone s
      = .next (settle s (settleTickets ts { s with wires := { s.wires with outcomesWritten := rest } })) := by
  change execOutcomeWriteDone s = _
  unfold execOutcomeWriteDone
  rw [written]
  rfl

theorem raiseIf_rest (b : Bool) (c : Cause) (s : State) : (raiseIf b c s).du = s.du ∧ (raiseIf b c s).wires = s.wires := by
  have only := raiseIf_only b c s
  exact ⟨only.same .du (by decide), only.same .wires (by decide)⟩

/-! ### The end of an item (R163, R165, R166) -/

theorem itemWritten_iff (s : State) :
    itemWritten s = true ↔ s.rpu.writer ≠ .idle ∧ s.rpu.writer ≠ .snapshot ∧ s.arb.rpu = [] := by
  simp [itemWritten, and_assoc]

theorem exec_writerItemEnd (s : State) : exec .writerItemEnd s
    = if s.run.anchor.isSome && itemWritten s then .next (settle s (endItem s)) else .next s := rfl

theorem endItem_telemetry {s : State} (writer : s.rpu.writer = .telemetry) : endItem s = sealTelemetry s := by
  unfold endItem
  rw [writer]

theorem endItem_rewrite {s : State} (writer : s.rpu.writer = .streamReport ∨ s.rpu.writer = .status) :
    endItem s = { s with rpu := { s.rpu with writer := .idle } } := by
  unfold endItem
  obtain writer | writer := writer
  · rw [writer]
  · rw [writer]

/-- The item an idle writer takes in `u`, by its order of choice, and what it leaves owed (R163). -/
structure NextItem (a : Anchor) (u t : State) : Prop where
  keeps : t.wires = u.wires ∧ t.rpu.holding = u.rpu.holding ∧ t.rpu.nextSnapshot = u.rpu.nextSnapshot
  telemetry : ∀ set more, u.rpu.holding = set :: more →
    TelemetryTaken a set u t ∧ t.rpu.statusOwed = u.rpu.statusOwed ∧ t.rpu.streamOwed = u.rpu.streamOwed
  streams : u.rpu.holding = [] → u.rpu.streamOwed = true → StreamReportTaken a u t ∧ t.rpu.statusOwed = u.rpu.statusOwed
  status : u.rpu.holding = [] → u.rpu.streamOwed = false → u.rpu.statusOwed = true → StatusTaken a u t
  rests : u.rpu.holding = [] → u.rpu.streamOwed = false → u.rpu.statusOwed = false → t = u

theorem kickWriter_next {u : State} {a : Anchor} (anchor : u.run.anchor = some a) (idle : u.rpu.writer = .idle) :
    NextItem a u (kickWriter u) := by
  obtain ⟨busy, _⟩ | ⟨_, x, xs, holding, same⟩ | ⟨_, holding, owed, same⟩ | ⟨_, holding, none, owed, same⟩
    | ⟨_, holding, none, none', same⟩ := kickWriter_cases u a anchor
  · exact absurd idle busy
  · rw [same]
    refine ⟨⟨rfl, rfl, rfl⟩, fun set more waits => ?_, fun empty => absurd (holding.symm.trans empty) nofun,
      fun empty => absurd (holding.symm.trans empty) nofun, fun empty => absurd (holding.symm.trans empty) nofun⟩
    cases holding.symm.trans waits
    exact ⟨takeTelemetry_taken a x u, rfl, rfl⟩
  · rw [same]
    exact ⟨⟨rfl, rfl, rfl⟩, fun _ _ waits => absurd (holding.symm.trans waits) nofun, fun _ _ => ⟨takeStreamReport_taken a u, rfl⟩,
      fun _ no => absurd (owed.symm.trans no) nofun, fun _ no => absurd (owed.symm.trans no) nofun⟩
  · rw [same]
    exact ⟨⟨rfl, rfl, rfl⟩, fun _ _ waits => absurd (holding.symm.trans waits) nofun, fun _ owes => absurd (none.symm.trans owes) nofun,
      fun _ _ _ => takeStatus_taken a u, fun _ _ no => absurd (owed.symm.trans no) nofun⟩
  · rw [same]
    exact ⟨⟨rfl, rfl, rfl⟩, fun _ _ waits => absurd (holding.symm.trans waits) nofun, fun _ owes => absurd (none.symm.trans owes) nofun,
      fun _ _ owes => absurd (none'.symm.trans owes) nofun, fun _ _ _ => rfl⟩

/-- An effect that changes nothing the reports hold: the writer takes its next item with the rewrites owed as they were. -/
theorem settle_sameView {b e : State} (status : statusView b = statusView e) (streams : reportedStates b = reportedStates e) :
    ∃ page, settle b e = kickWriter { e with page := page } := by
  obtain ⟨page, owed, owed', eq, rewrite, rewrite'⟩ := settle_eq b e
  have same : owed = e.rpu.statusOwed := by
    rw [rewrite, status]
    simp
  have same' : owed' = e.rpu.streamOwed := by
    rw [rewrite', streams]
    simp
  refine ⟨page, ?_⟩
  rw [eq, same, same']

theorem settle_nextItem {b e : State} {a : Anchor} (status : statusView b = statusView e) (streams : reportedStates b = reportedStates e)
    (anchor : e.run.anchor = some a) (idle : e.rpu.writer = .idle) : ∃ page, NextItem a { e with page := page } (settle b e) := by
  obtain ⟨page, eq⟩ := settle_sameView status streams
  refine ⟨page, ?_⟩
  rw [eq]
  exact kickWriter_next anchor idle

/-- What the end of an item brings, beside the parts it changes. -/
structure ItemEnded (a : Anchor) (s t : State) : Prop where
  entry : t.rpu.nextSnapshot = s.rpu.nextSnapshot
  telemetry : ∀ set more, s.rpu.writer = .telemetry → s.rpu.holding = set :: more → t.rpu.holding = more
    ∧ t.wires = { s.wires with telemetryWritten := s.wires.telemetryWritten ++ [set.number] }
    ∧ (more = [] → t.rpu.statusOwed = true ∧ StreamReportTaken a s t)
    ∧ ∀ next others, more = next :: others → t.rpu.statusOwed = true ∧ t.rpu.streamOwed = true ∧ TelemetryTaken a next s t
  rewrite : s.rpu.writer = .streamReport ∨ s.rpu.writer = .status → t.wires = s.wires ∧ t.rpu.holding = s.rpu.holding
    ∧ (∀ set more, s.rpu.holding = set :: more → TelemetryTaken a set s t)
    ∧ (s.rpu.holding = [] → s.rpu.streamOwed = true → StreamReportTaken a s t)
    ∧ (s.rpu.holding = [] → s.rpu.streamOwed = false → s.rpu.statusOwed = true → StatusTaken a s t)
    ∧ (s.rpu.holding = [] → s.rpu.streamOwed = false → s.rpu.statusOwed = false → t.rpu.writer = .idle ∧ t.arb.rpu = [])

section
variable {s : State} {a : Anchor} (anchor : s.run.anchor = some a)
include anchor

theorem sealTelemetry_ended (writer : s.rpu.writer = .telemetry) : ItemEnded a s (settle s (sealTelemetry s)) := by
  obtain ⟨page, keeps, telemetry, streams, _, _⟩ := settle_nextItem (b := s) (e := sealTelemetry s) rfl rfl anchor rfl
  obtain ⟨wires, holding, entry⟩ := keeps
  refine ⟨entry, fun set more _ held => ⟨?_, ?_, fun empty => ?_, fun next others waits => ?_⟩, fun other => ?_⟩
  · have tail : (sealTelemetry s).rpu.holding = more := congrArg List.tail held
    exact holding.trans tail
  · refine wires.trans ?_
    unfold sealTelemetry
    rw [held]
    rfl
  · have tail : s.rpu.holding.tail = [] := by rw [held]; exact empty
    obtain ⟨⟨writer, count, writes⟩, owed⟩ := streams tail rfl
    exact ⟨owed, writer, count, writes⟩
  · have tail : s.rpu.holding.tail = next :: others := by rw [held]; exact waits
    obtain ⟨⟨serial, entry, plain, snapshot⟩, owed, owed'⟩ := telemetry next others tail
    exact ⟨owed, owed', serial, entry, plain, snapshot⟩
  · rw [writer] at other
    exact absurd other nofun

theorem rewrite_ended (writer : s.rpu.writer = .streamReport ∨ s.rpu.writer = .status) (placed : s.arb.rpu = []) :
    ItemEnded a s (settle s { s with rpu := { s.rpu with writer := .idle } }) := by
  obtain ⟨page, keeps, telemetry, streams, status, rests⟩ :=
    settle_nextItem (b := s) (e := { s with rpu := { s.rpu with writer := .idle } }) rfl rfl anchor rfl
  obtain ⟨wires, holding, entry⟩ := keeps
  refine ⟨entry, fun set more seals => ?_, fun _ => ⟨wires, holding, fun set more held => ?_, fun empty owed => ?_,
    fun empty none owed => ?_, fun empty none none' => ?_⟩⟩
  · rw [seals] at writer
    exact absurd writer nofun
  · obtain ⟨⟨serial, entry, plain, snapshot⟩, _⟩ := telemetry set more held
    exact ⟨serial, entry, plain, snapshot⟩
  · obtain ⟨⟨writer, count, writes⟩, _⟩ := streams empty owed
    exact ⟨writer, count, writes⟩
  · obtain ⟨writer, count, writes⟩ := status empty none owed
    exact ⟨writer, count, writes⟩
  · rw [rests empty none none']
    exact ⟨rfl, placed⟩

theorem endItem_ended (writer : s.rpu.writer ≠ .idle) (other : s.rpu.writer ≠ .snapshot) (placed : s.arb.rpu = []) :
    ItemEnded a s (settle s (endItem s)) := by
  cases item : s.rpu.writer with
  | idle => exact absurd item writer
  | snapshot => exact absurd item other
  | telemetry =>
    rw [endItem_telemetry item]
    exact sealTelemetry_ended anchor item
  | streamReport =>
    rw [endItem_rewrite (.inl item)]
    exact rewrite_ended anchor (.inl item) placed
  | status =>
    rw [endItem_rewrite (.inr item)]
    exact rewrite_ended anchor (.inr item) placed

end

/-! ### The statement -/

/-- Settles O55: outcomes written, the end of an item, and the rewrites every step owes (`exec_rewritesOwed`). -/
theorem outcomesAndReports : Obligations.OutcomesAndReports := by
  refine ⟨fun s ts rest written => ?_, fun s a anchor busy => ⟨fun stays => ?_, fun ends => ?_⟩, fun c s t a wf next anchor => ?_⟩
  · intro unsettled settled
    have effect := settleTickets_eq ts { s with wires := { s.wires with outcomesWritten := rest } }
    have value : settled = settledValue { s.du with unsettled := unsettled } := rfl
    dsimp only at effect
    refine ⟨_, exec_outcomeWriteDone written,
      (((with_wires_only _ s).andThen (settleTickets_only ts _)).mono (by decide)).settle s, ?_, ?_, ?_⟩
    · rw [settle_wires, effect]
      exact (raiseIf_rest ..).2
    · rw [settle_du, effect, value]
      exact (raiseIf_rest ..).1
    · rw [attentionHas_settle, effect, attentionHas_raiseIf, value]
      simp only [decide_true, Bool.and_true, Bool.or_eq_true, decide_eq_true_eq]
      rfl
  · rw [exec_writerItemEnd, if_neg]
    rw [Bool.and_eq_true, itemWritten_iff]
    exact fun ⟨_, _, other, placed⟩ => stays ⟨placed, other⟩
  · obtain ⟨placed, other⟩ := ends
    have runs : exec .writerItemEnd s = .next (settle s (endItem s)) := by
      rw [exec_writerItemEnd, if_pos]
      rw [Bool.and_eq_true, itemWritten_iff, anchor]
      exact ⟨rfl, busy, other, placed⟩
    obtain ⟨entry, telemetry, rewrite⟩ := endItem_ended anchor busy other placed
    refine ⟨_, runs, ?_, entry, telemetry, rewrite⟩
    exact OnlyChanges.settleAfter (first := endItem s) s ((endItem_only s).among rfl) (.refl _ _)
  · obtain ⟨changed, only, moved, onlyStreams, takes⟩ := exec_rewritesOwed wf next anchor
    refine ⟨changed, only, moved, onlyStreams, fun law idle => ?_⟩
    obtain ⟨telemetry, streams, status, rests⟩ := takes law idle
    exact ⟨telemetry, streams, status, rests⟩

end Sys2Proof.Machine
